-- ==== Sys2Proof/Word.lean ====
section
/-! DEFINITION. Word.lean: the line, the byte, and the table type every sparse store of the node is held in. -/

namespace Sys2Proof

/-- One byte. -/
abbrev Byte := BitVec 8

/-- One 64-bit register or quadword (R16). -/
abbrev W64 := BitVec 64

/-- One 64-byte line; byte i of the line is bits 8i+7..8i (R11, R23). -/
abbrev Line := BitVec 512

/-- A sparse table: (key, value) pairs, keys strictly rising, no entry equal to what an unlisted key reads as. -/
abbrev Tab (α : Type) := List (Nat × α)

end Sys2Proof
end

