-- ==== Sys2Proof/Syntax.lean ====
section
/-! DEFINITION. Syntax.lean: the commands of the block, one constructor per row of spec/opcode_table.json, and the types
of their operands. What the physical world decides (a failed byte, a failed check, a measured time) comes as an operand. -/

namespace Sys2Proof

/-- The measured times of a request in cc (R37, R39): `total` is t1 − t0; `lines` holds what ledger lines 0–7 took. -/
structure Lat where
  total : Nat
  lines : List Nat
  deriving DecidableEq, Repr, Inhabited

/-- MetaValue of an M2S request; `noop` is MetaField No-Op (R253). -/
inductive Meta where
  | a | s | i | noop
  deriving DecidableEq, Repr, Inhabited

/-- What the check bits of the on-die tables and the IDE MAC say for one request (R253, R70, R123, R257); `substBad` names the
entry of the lane's substitution bank that its row lookup finds uncorrectable (R157). -/
structure ReqFx where
  sfBad : Bool
  wayBad : Bool
  dirBad : Bool
  ideBad : Bool
  substBad : Option Nat := none
  deriving DecidableEq, Repr, Inhabited

/-- What the medium and DRAM answer to one line read that is made off the response path (R103, R106, R107, R110, R111,
R140): failing bytes of either mirror and of its mask; failing positions and the line's own check at the first read, at the
refetch and in both passes of the recompute, with its symbol errors, the sequence's duration, and the substitution entry that
its row lookup finds uncorrectable (R157). -/
structure SeqFx where
  mir1 : BitVec 64 := 0
  mir2 : BitVec 64 := 0
  maskBad : Bool := false
  first : BitVec 20 := 0
  firstBad : Bool := false
  second : BitVec 20 := 0
  secondBad : Bool := false
  third : BitVec 20 := 0
  thirdErrs : Nat := 0
  thirdBad : Bool := false
  fourth : BitVec 20 := 0
  fourthErrs : Nat := 0
  fourthBad : Bool := false
  us : Nat := 0
  substBad : Option Nat := none
  deriving DecidableEq, Repr, Inhabited

/-- The lines among those a command reads that meet an error, by frond and line; every other line reads clean. -/
abbrev Trouble := List (Nat × Nat × SeqFx)

/-- A writer of the cushion and a holder of write credits (R130, R132). -/
inductive Port where
  | host | west | east
  deriving DecidableEq, Repr, Inhabited

/-- A side of the node: a ring port (R266). -/
inductive Side where
  | west | east
  deriving DecidableEq, Repr, Inhabited

/-- A ring cell as it arrives (R273): header fields, whether its header checks and its ICV pass, and, for a cell in transit,
the ICV and the payload as they stand on the line. -/
structure Cell where
  src : Nat
  dst : Nat
  tag : Nat
  line : Nat
  ringB : Bool
  ttl : Nat
  epoch : Nat
  seq : Nat
  hdrOk : Bool
  icvOk : Bool
  poison : Bool
  devload : Nat
  status : Nat
  plen : Nat := 0
  fold : Bool := false
  icv : Nat := 0
  ct : List Byte := []
  deriving DecidableEq, Repr, Inhabited

/-- A window of a host port (R247, R264): base and size in 256 MiB units. -/
structure Win where
  base : Nat
  size : Nat
  port : Nat
  dec : Nat
  db : Bool
  deriving DecidableEq, Repr, Inhabited

/-- Window state in the window table: R264 encodes 1 Claiming, 2 Committed. -/
inductive WinSt where
  | claiming | committed
  deriving DecidableEq, Repr, Inhabited

/-- Member state (R297): 0 Absent, 1 Held out, 2 Joining, 3 Live, 4 Leaving. -/
inductive MemSt where
  | absent | heldOut | joining | live | leaving
  deriving DecidableEq, Repr, Inhabited

/-- One row of the member table (R265). -/
structure Member where
  st : MemSt
  pos : Nat
  serial : Nat
  variant : Nat
  deriving DecidableEq, Repr, Inhabited

/-- A PRESENT frame (R282). -/
structure Pres where
  serial : Nat
  ringId : Nat
  hasId : Bool
  index : Option Nat
  variant : Nat
  fresh : Bool
  deriving DecidableEq, Repr, Inhabited

/-- What an SPDM cell delivers (R279, R280). -/
inductive SpdmMsg where
  | message
  | groupKey (epoch keyid : Nat)
  | keyAck (member : Nat)
  | switch (epoch cause : Nat)
  deriving DecidableEq, Repr, Inhabited

/-- Who accepts the offer of an Idle lane (R165, R179, R180, R183). -/
inductive Consumer where
  | destage
  | journal
  | image
  | blockLog
  | rescue
  | move (step : Nat) (nsb : Nat)
  | rekey (range : Nat)
  | reset (nsb : Nat)
  deriving DecidableEq, Repr, Inhabited

/-- What patrol finds in a row (R198). -/
inductive Finding where
  | clean
  | stepUp (pos line : Nat)
  | recomputed (line : Nat)
  | poisoned (line : Nat)
  | parity (column : Nat)
  deriving DecidableEq, Repr, Inhabited

/-- The regions of the scrubber, in the row order of R206. -/
inductive Region where
  | cushion | mapLine | refreshParity | blockTable | openParity | bitmap | other | onDie
  deriving DecidableEq, Repr, Inhabited

/-- What the scrubber meets (R206). -/
inductive Scrub where
  | clean | single | both | abandoned
  deriving DecidableEq, Repr, Inhabited

/-- A mailbox transport (R339, R361). -/
inductive Transport where
  | primary | secondary | vdm | i3c
  deriving DecidableEq, Repr, Inhabited

/-- A unit with an enable bit (R322). -/
inductive OpeUnit where
  | engine (e : Nat)
  | taskQueue (q : Nat)
  | resultQueue (r : Nat)
  deriving DecidableEq, Repr, Inhabited

/-- What Unfurl meets (R374, R213, R328, R336, R368): boot verdict of each slot (none: bootable; else the cause of
R380), key slots and cipher slots both of whose records fail unwrap, cores failing the known-answer test, monitors
failing their self-test, lost rows (partition, row). -/
structure Boot where
  bad1 : Option Nat
  bad2 : Option Nat
  keyBad : List Nat
  cushKeyBad : Bool
  cphBad : List Nat
  coreBad : List Nat
  monBad : List Nat
  rowsLost : List (Nat × Nat)
  rowsReverted : List (Nat × Nat)
  rowsFixed : List (Nat × Nat × Nat)
  anchorBad : List Nat
  retainedBad : Bool
  deriving DecidableEq, Repr, Inhabited

/-- The commands of the block: one constructor per row of spec/opcode_table.json, in its order of subjects. -/
inductive Instr where
  -- host memory requests and the read path
  | cxlMemRead (tag addr : Nat) (mv : Meta) (fx : ReqFx) (lat : Lat)
  | mapLineReadDone (id : Nat) (bad : BitVec 64) (lat : Lat)
  | mapLineRefetchDone (m : Nat) (bad : BitVec 64)
  | mapLineRecomputeDone (m : Nat) (latestOk olderOk : Bool) (us : Nat)
  | cushionReadDone (id : Nat) (bad : BitVec 64) (maskBad : Bool) (lat : Lat)
  | cushionMirrorRefetchDone (id : Nat) (bad : BitVec 64) (lat : Lat)
  | mediaReadDone (id : Nat) (badParts : BitVec 20) (lineBad : Bool) (lat : Lat)
  | readRefetchDone (id : Nat) (badParts : BitVec 20) (lineBad : Bool) (lat : Lat)
  | readRecomputeDone (id : Nat) (badParts : BitVec 20) (errs : Nat) (lineBad : Bool) (us : Nat) (lat : Lat)
  | recomputeSecondPass (id : Nat) (badParts : BitVec 20) (errs : Nat) (lineBad : Bool) (us : Nat) (lat : Lat)
  | cxlMemWrite (tag addr : Nat) (mv : Meta) (data : Line) (be : BitVec 64) (poison : Bool) (fx : ReqFx) (lat : Lat)
  | memclnevct (tag addr : Nat) (mv : Meta) (sfBad : Bool)
  | creditReturn (port : Port)
  | dramWriteQueueIssue (ch : Nat)
  | dramRefreshWindow
  | sliceBoundary
  -- ring cells
  | rdReq (c : Cell) (fx : ReqFx) (lat : Lat)
  | rdRsp (c : Cell) (data : Line) (lat : Lat)
  | wrReq (c : Cell) (data : Line) (be : BitVec 64) (fx : ReqFx) (lat : Lat)
  | wrAck (c : Cell) (lat : Lat)
  | crdRet (c : Cell)
  | nak (c : Cell)
  | cellForward (type : Nat) (c : Cell)
  | fecUncorrectable (side : Side) (corrected : Nat)
  | requestRetry (type tag : Nat) (topo : Bool)
  | ownerUnreachable (tag : Nat) (lat : Lat)
  | writeTagExpiry (src tag : Nat)
  | task (c : Cell) (qw : List Nat) (entries : List (Nat × Nat))
  | credit (c : Cell) (n : Nat)
  | abort (c : Cell)
  | result (c : Cell) (words : List Nat)
  | taskEnd (c : Cell) (cells examined word fault bytes : Nat) (tag : List Nat)
  | snpQry (c : Cell)
  | snpDone (c : Cell)
  | winClaim (c : Cell) (w : Win)
  | winReply (c : Cell) (w : Win)
  | winCommit (c : Cell) (w : Win)
  | winRelease (c : Cell) (w : Win)
  | table (c : Cell) (members : List (Nat × Member)) (windows : List (Win × WinSt))
  | spdmCell (c : Cell) (m : SpdmMsg)
  | epochKeyErase
  | echo (side : Side) (serial : Nat)
  | mark (src : Nat) (ringB : Bool)
  | topo (c : Cell) (a b : Nat)
  | linkLossOfLock (side : Side)
  | linkRetrainAttempt (side : Side)
  | linkTrained (side : Side) (peer ms : Nat)
  -- rhizoid frames and membership
  | wrap (a b : Nat) (side : Side)
  | unwrap (a b : Nat)
  | leave (index : Nat)
  | present (p : Pres)
  | presentTimer
  | presentWindowClose
  | claim (serial index ringId : Nat)
  | held (serial reason : Nat)
  | spliceReq (serial index : Nat)
  | spliceGo (index : Nat)
  | spliceAbort (index step cause : Nat)
  | spliceDone (index ms : Nat)
  | spdmFrame (m : SpdmMsg)
  | heartbeat (index epoch : Nat)
  | heartbeatTimer
  | rhizoidListenExpiry
  | coldFormLinksUp (westUp eastUp : Bool)
  | spdmSessionEstablished (peer : Nat) (authOk : Bool) (ms : Nat)
  | portDrainEnd (side : Side)
  | plugPresence (side : Side) (present : Bool)
  -- map, media, stewardship, rekey
  | mapUpdateApply
  | mapLapLate
  | laneOffer (lane : Nat) (who : Consumer) (ts : Trouble)
  | pinLift (id : Nat)
  | programWaveDone (lane : Nat) (fail : BitVec 20)
  | resetDone (lane pos : Nat) (ok : Bool)
  | operationSuspended (lane pos : Nat)
  | operationResume (lane pos us : Nat)
  | operationStall (lane pos us : Nat)
  | dieFailed (ch die ops : Nat)
  | verifyPassDone (nsb pos : Nat) (pages : List Nat) (lost : List (Nat × Nat))
  | slotDrainEnd (key : Nat)
  | genLimitRetry
  | periodStart
  | candidateRebucket
  | sentinelMeasurementDone (nsb pos dcOld dcNew : Nat)
  | patrolRowReadDone (row : Nat) (f : Finding)
  | patrolLapLate
  | patrolPositionSave
  | patrolDrainEnd
  | scrubRead (region : Region) (addr : Nat) (mask : BitVec 64) (found : Scrub)
  | scrubLapLate (sram : Bool) (seconds : Nat)
  | rekeyHeaderReadDone (range : Nat)
  | rekeyDone (range : Nat)
  | rekeyBoundarySave (range : Nat)
  | keyStoreRetry
  -- host link
  | linkUp (width rate flit : Nat)
  | linkDown
  | perstAsserted
  | perstDeasserted
  | hotReset
  | cxlReset
  | configRequest (tag : Nat) (viral : Option Bool)
  | doeCdatRead
  | doeSpdm
  | ideKm (stream : Nat) (skid : Bool)
  | gpfPhase1
  | gpfPhase2
  | bisnpSend
  | birsp (line : Nat) (writeBack : Option Line)
  | hdmDecoderCommit (n base size skip : Nat) (bi : Bool) (iw : Nat) (lock : Bool)
  | hdmDecoderDecommit (n : Nat)
  -- operator engines and cipher engine
  | opeTqDbTail (q tail : Nat)
  | taskDecide
  | chunkStart (e : Nat)
  | chunkEnd (e : Nat) (ts : Trouble) (scr : Option Nat)
  | deadlineExpiry (entry : Nat)
  | engineFaulted (e : Nat)
  | resultQueueStallEnd (r : Nat)
  | unitDrainEnd (u : OpeUnit)
  | cipherRequestStart (core : Nat)
  | cipherRequestDone (core : Nat)
  | cipherCoreDisabled (core : Nat) (parity : Bool)
  -- mailboxes and commands
  | mbxProgressRefresh (units ms : Nat) (ts : Trouble)
  | mbxProgressRead (size off : Nat)
  | mbxCommandComplete (ms : Nat)
  | identify (tr : Transport) (p : List Byte)
  | getEventRecords (tr : Transport) (p : List Byte)
  | clearEventRecords (tr : Transport) (p : List Byte)
  | getEventInterruptPolicy (tr : Transport) (p : List Byte)
  | setEventInterruptPolicy (tr : Transport) (p : List Byte)
  | getFwInfo (tr : Transport) (p : List Byte)
  | transferFw (tr : Transport) (p : List Byte) (progOk hashOk sigOk : Bool)
  | activateFw (tr : Transport) (p : List Byte) (sigOk : Bool)
  | getTimestamp (tr : Transport) (p : List Byte)
  | setTimestamp (tr : Transport) (p : List Byte)
  | getSupportedLogs (tr : Transport) (p : List Byte)
  | getLog (tr : Transport) (p : List Byte)
  | identifyMemoryDevice (tr : Transport) (p : List Byte)
  | getHealthInfo (tr : Transport) (p : List Byte)
  | getAlertConfiguration (tr : Transport) (p : List Byte)
  | setAlertConfiguration (tr : Transport) (p : List Byte)
  | getPoisonList (tr : Transport) (p : List Byte)
  | injectPoison (tr : Transport) (p : List Byte)
  | clearPoison (tr : Transport) (p : List Byte)
  | getScanMediaCapabilities (tr : Transport) (p : List Byte)
  | scanMedia (tr : Transport) (p : List Byte)
  | getScanMediaResults (tr : Transport) (p : List Byte)
  | sanitize (tr : Transport) (p : List Byte)
  | secureErase (tr : Transport) (p : List Byte)
  | getRingStatus (tr : Transport) (p : List Byte)
  | setRingIndex (tr : Transport) (p : List Byte)
  | ringGroupRekey (tr : Transport) (p : List Byte)
  | ringLeave (tr : Transport) (p : List Byte)
  | ringRejoin (tr : Transport) (p : List Byte)
  | getEngineStatus (tr : Transport) (p : List Byte)
  | clearScratch (tr : Transport) (p : List Byte)
  | openRange (tr : Transport) (p : List Byte)
  | closeRange (tr : Transport) (p : List Byte)
  | rekeyRange (tr : Transport) (p : List Byte)
  | setRangeAttr (tr : Transport) (p : List Byte)
  | cphKeyGenerate (tr : Transport) (p : List Byte)
  | cphKeyImport (tr : Transport) (p : List Byte) (secured : Bool)
  | cphKeyZeroize (tr : Transport) (p : List Byte)
  | cphRequest (tr : Transport) (p : List Byte)
  | cphKeyWrap (tr : Transport) (p : List Byte)
  | releaseRange (tr : Transport) (p : List Byte)
  | shedCapacity (tr : Transport) (p : List Byte)
  | clearWriteRefused (tr : Transport) (p : List Byte)
  | getMediaLife (tr : Transport) (p : List Byte)
  | setMode (tr : Transport) (p : List Byte)
  | transitFailed
  | setPowerLimit (tr : Transport) (p : List Byte)
  | setThermalInput (tr : Transport) (p : List Byte)
  | getPowerThermal (tr : Transport) (p : List Byte)
  | clearHalt (tr : Transport) (p : List Byte)
  | energyStoreTest (tr : Transport) (p : List Byte)
  | readLog (tr : Transport) (p : List Byte)
  | freezeLog (tr : Transport) (p : List Byte)
  | readProtected (tr : Transport) (p : List Byte)
  | clearProtected (tr : Transport) (p : List Byte)
  | readHistogram (tr : Transport) (p : List Byte)
  | pstRead (tr : Transport) (p : List Byte)
  | pstWrite (tr : Transport) (p : List Byte)
  | pstSetPassword (tr : Transport) (p : List Byte)
  | pstGetInfo (tr : Transport) (p : List Byte)
  | getImageInfo (tr : Transport) (p : List Byte)
  | readFlashLog (tr : Transport) (p : List Byte)
  | setMinSecurityVersion (tr : Transport) (p : List Byte)
  | identifyNode (tr : Transport) (p : List Byte)
  | ledgerSnapshot (tr : Transport) (p : List Byte)
  | memRead (tr : Transport) (p : List Byte) (ts : Trouble) (dbg : Bool)
  | lockstepMismatch (pair pc : Nat)
  -- parameter store, boot flash, recorder
  | pstRowWriteDone
  | flashEraseDone (ok : Bool)
  | flashEraseResume
  | flashPageProgramDone (ok : Bool)
  | eraseMarkerRetry
  | flashSupplyCrossing (mv : Nat)
  | fwWpChange (asserted : Bool)
  | recordAccept
  | flashLogTimer
  | freezeExpired
  | histogramWindowEnd
  | compatWindowEnd
  -- registers
  | registerWrite (off size : Nat) (v : W64)
  | ldgCtlXtrmClr
  | ldgCtlOvrClr
  | ldgBudBudget (n v : Nat)
  | mapCtlCntClr
  | mapCtlCacheInval
  | mapPeekFrond (f : Nat)
  | medRdCtlCntClr
  | cshCtlCntClr
  | medCtlCntClr
  | medDiagCmdGo
  | medDiagDone
  | stwCtlCntClr
  | stwCtlPatrolEn (en : Bool)
  | secCtlCntClr
  | hstCtlCntClr
  | srnCtlCntClr
  | srnCtlPortEn (side : Side) (en : Bool)
  | srnCtlGroupRekey
  | opeCtlCntClr
  | opeEngEn (e : Nat) (en : Bool)
  | opeTqCtlEn (q : Nat) (en : Bool)
  | opeTqCtlAbort (q : Nat)
  | opeRqCfgEn (r : Nat) (en : Bool)
  | opeRqPtrRd (r rd ce : Nat) (bad : List Nat)
  | cphCtlCntClr
  | mbxCtlCntClr
  | pstCtlCntClr
  | bflCtlCntClr
  | evrCtlCntClr
  | pwrCtlCntClr
  | thmCtlCntClr
  -- modes, power, clocks, thermal, pins
  | powerGood
  | nodeResetDeasserted (b : Boot)
  | recoveryDone (ms : Nat)
  | dormantIdle
  | nodeResetAsserted
  | powerFailDump
  | dumpComplete (complete : Bool) (us : Nat) (lost : List (Nat × Nat))
  | thermalModelStep
  | powerLimitEvaluation (busyAvg : Nat)
  | monitorConversion (rail mw : Nat)
  | monitorFailed (rail cause mw : Nat)
  | supplyOutOfRange (mv : Nat)
  | v12Overvoltage
  | auxLow (mv : Nat)
  | auxReset
  | clockFault (source : Nat)
  | bankCharged (b : Boot)
  | testDischargeStart
  | testDischargeMeasured (stepMv us : Nat)
  | testDischargeTimeout
  | testDischargeRecharged
  | poweredHoursTick
  | leaveHeld (b : Boot)
  | linkTrainingFailed (side : Side)
  | ringIndexWriteRetry
  | spliceRequestAgain
  | winClaimReplyTimeout (n : Nat)
  | spdmOverMctp (tr : Transport)
  | auxRestored (mv : Nat)
  | entdaa (da : Nat)
  | biconflict (line : Nat)
  deriving DecidableEq, Repr

end Sys2Proof
end

