-- ==== Sys2Proof/Config.lean ====
section
/-! DEFINITION. Config.lean: what the manual leaves open (free values, no body) and the published functions it names
without restating (uninterpreted). Nothing here can be evaluated; a claim holds whatever they are. -/

namespace Sys2Proof.Config

/-- A fresh free number, drawn with the counter of State (log entry 2): random KEYIDs (R211), a new RING_ID (R283),
undefined bytes (R173). -/
opaque freeValue : Nat → Nat

/-- The key bytes a key identity stands for (R211: no register shows them). Free (log entry 4). -/
opaque keyBytes : Nat → List Byte

/-- Bytes of a standard structure (CXL 3.1) whose content the manual does not give. Uninterpreted (log entry 6). -/
opaque standardByte : Nat → Nat → Byte

/-- A peer's MAP_LIMIT as this node's CDAT of a sequence number gives it (R252, R301): no cell of the manual carries it to
this node, so it is free. Ring index, CDAT sequence number. -/
opaque peerLimit : Nat → Nat → Nat

/-- Receive space of a ring neighbour beyond one longest cell, in 32-byte units, by virtual channel (R275 gives no size). -/
opaque linkUnits : Nat → Nat

/-- The clock node firmware runs the boot flash at, as BFL_WAIT_DIV modulo 3 (R376 gives a row for each): the
implementation's. -/
opaque flashClock : Nat

end Sys2Proof.Config
end

