-- ==== Sys2Proof/Machine/Tab.lean ====
section
/-! DEFINITION. Machine/Tab.lean: sparse tables in their canonical form (keys strictly rising, no default entry), and the
small list operations the meanings share. -/

namespace Sys2Proof.Machine

/-- The entry at a key; an unlisted key reads as the default of its type. -/
def tget {α : Type} [Inhabited α] : Tab α → Nat → α
  | [], _ => default
  | (k', v) :: t, k => if k' = k then v else tget t k

/-- Puts an entry in its place, leaving the canonical form: the default value is not listed. -/
def tset {α : Type} [Inhabited α] [DecidableEq α] : Tab α → Nat → α → Tab α
  | [], k, v => if v = default then [] else [(k, v)]
  | (k', v') :: t, k, v =>
    if k < k' then (if v = default then (k', v') :: t else (k, v) :: (k', v') :: t)
    else if k' = k then (if v = default then t else (k, v) :: t)
    else (k', v') :: tset t k v

/-- Rewrites one entry. -/
def tmod {α : Type} [Inhabited α] [DecidableEq α] (t : Tab α) (k : Nat) (f : α → α) : Tab α :=
  tset t k (f (tget t k))

/-- Keys strictly above a bound, rising, none default. -/
def twfFrom {α : Type} [Inhabited α] [DecidableEq α] : Nat → Tab α → Bool
  | _, [] => true
  | lo, (k, v) :: t => decide (lo ≤ k) && decide (v ≠ default) && twfFrom (k + 1) t

/-- The canonical form of a table. -/
def twf {α : Type} [Inhabited α] [DecidableEq α] (t : Tab α) : Bool := twfFrom 0 t

/-- Keys whose entry satisfies p. -/
def tkeys {α : Type} (t : Tab α) (p : α → Bool) : List Nat := (t.filter fun x => p x.2).map (·.1)

/-- Applies f to each listed entry (rebuilding the canonical form). -/
def tmap {α : Type} [Inhabited α] [DecidableEq α] (t : Tab α) (f : Nat → α → α) : Tab α :=
  t.foldr (fun x r => if f x.1 x.2 = default then r else (x.1, f x.1 x.2) :: r) []

/-- A table built anew from the entries of another, each rewritten. -/
def tbuild {α β : Type} [Inhabited β] [DecidableEq β] (t : Tab α) (f : Nat → α → β) : Tab β :=
  t.foldl (fun r x => tset r x.1 (f x.1 x.2)) []

/-- The first listed entry (key, value) that satisfies p. -/
def tfind {α : Type} (t : Tab α) (p : Nat → α → Bool) : Option (Nat × α) := t.find? fun x => p x.1 x.2

/-- A fixed number of like counters, read as 0 where unlisted. -/
abbrev Cnt := Tab Nat

/-- Adds n to a counter. Registers saturate or truncate what they show (Regs.lean). -/
def bump (c : Cnt) (k : Nat) (n : Nat := 1) : Cnt := tset c k (tget c k + n)

/-- Records a largest value. -/
def peak (c : Cnt) (k v : Nat) : Cnt := if tget c k < v then tset c k v else c

/-- The sum of a counter table over its listed keys that satisfy p. -/
def tsum (c : Cnt) (p : Nat → Bool) : Nat := c.foldl (fun a x => if p x.1 then a + x.2 else a) 0

/-- f applied n times. -/
def iter {α : Type} (f : α → α) : Nat → α → α
  | 0, a => a
  | n + 1, a => iter f n (f a)

/-- Field [hi:lo] of a number. -/
def bits (v hi lo : Nat) : Nat := v / 2 ^ lo % 2 ^ (hi + 1 - lo)

/-- One bit of a number. -/
def bit (v i : Nat) : Bool := v / 2 ^ i % 2 = 1

/-- A Bool as a bit. -/
def b2n (b : Bool) : Nat := if b then 1 else 0

/-- A value held at the largest a field of w bits shows. -/
def sat (w v : Nat) : Nat := min v (2 ^ w - 1)

/-- The numbers from lo to hi, both included. -/
def span (lo hi : Nat) : List Nat := (List.range (hi + 1 - lo)).map (lo + ·)

/-- Number of set bits among the first n. -/
def popBits {w : Nat} (v : BitVec w) (n : Nat) : Nat := ((List.range n).filter fun i => v.getLsbD i).length

/-- Sets or clears one bit. -/
def setBit {w : Nat} (v : BitVec w) (i : Nat) (b : Bool) : BitVec w :=
  if b then v ||| BitVec.ofNat w (2 ^ i) else v &&& ~~~ BitVec.ofNat w (2 ^ i)

/-- Little-endian number of n bytes of a payload from an offset; bytes past its end read zero (R11). -/
def le (p : List Byte) (off n : Nat) : Nat :=
  ((p.drop off).take n).foldr (fun b a => b.toNat + 256 * a) 0

/-- The n bytes of a number, little-endian (R11). -/
def toLe (n v : Nat) : List Byte := (List.range n).map fun i => BitVec.ofNat 8 (v / 256 ^ i)

/-- The 64 bytes of a line (byte i of the line is bits 8i+7..8i). -/
def lineBytes (l : Line) : List Byte := toLe 64 l.toNat

/-- A line from its bytes. -/
def bytesLine (p : List Byte) : Line := BitVec.ofNat 512 (le p 0 64)

/-- A line with the enabled bytes replaced. -/
def mergeLine (old new : Line) (be : BitVec 64) : Line :=
  bytesLine ((List.range 64).map fun i =>
    BitVec.ofNat 8 ((if be.getLsbD i then new else old).toNat / 256 ^ i))

/-- Byte mask of a line's bytes [lo, lo + n). -/
def maskBytes (lo n : Nat) : BitVec 64 := BitVec.ofNat 64 ((2 ^ n - 1) * 2 ^ lo)

/-- Replaces the list elements that satisfy p. -/
def updWhere {α : Type} (l : List α) (p : α → Bool) (f : α → α) : List α := l.map fun a => if p a then f a else a

/-- Stable insertion sort by a key. -/
def insertBy {α : Type} (key : α → Nat) (a : α) : List α → List α
  | [] => [a]
  | b :: t => if key a < key b then a :: b :: t else b :: insertBy key a t

/-- The list sorted by a key, ties in order. -/
def sortBy {α : Type} (key : α → Nat) (l : List α) : List α := l.foldl (fun r a => insertBy key a r) []

end Sys2Proof.Machine
end

