-- ==== Sys2Proof/Machine/Aes.lean ====
section
/-! DEFINITION. Machine/Aes.lean: AES (FIPS 197), the modes the cipher engine runs over it (R329–R331): ECB, CBC, CTR, GCM,
XTS and CMAC, AES key wrap (R326) and the media line's GCM (R215), as the standards the manual names define them (PRESUMED: the
manual does not restate them, log entry 4); byte strings most significant byte first. -/

namespace Sys2Proof.Machine

/-! ### Blocks -/

/-- A block from sixteen bytes, the first the most significant; missing bytes are zero. -/
def blk (b : List Byte) : BitVec 128 :=
  BitVec.ofNat 128 ((List.range 16).foldl (fun a i => a * 256 + (b.getD i 0).toNat) 0)

/-- The sixteen bytes of a block. -/
def unblk (v : BitVec 128) : List Byte := (toLe 16 v.toNat).reverse

/-- The first n bytes of a string, zeros after its end. -/
def fitTo (n : Nat) (b : List Byte) : List Byte := (b ++ List.replicate n 0).take n

/-! ### The block cipher (FIPS 197) -/

/-- The substitution table. -/
def sbox : List Nat :=
  [0x63, 0x7c, 0x77, 0x7b, 0xf2, 0x6b, 0x6f, 0xc5, 0x30, 0x01, 0x67, 0x2b, 0xfe, 0xd7, 0xab, 0x76] ++
  [0xca, 0x82, 0xc9, 0x7d, 0xfa, 0x59, 0x47, 0xf0, 0xad, 0xd4, 0xa2, 0xaf, 0x9c, 0xa4, 0x72, 0xc0] ++
  [0xb7, 0xfd, 0x93, 0x26, 0x36, 0x3f, 0xf7, 0xcc, 0x34, 0xa5, 0xe5, 0xf1, 0x71, 0xd8, 0x31, 0x15] ++
  [0x04, 0xc7, 0x23, 0xc3, 0x18, 0x96, 0x05, 0x9a, 0x07, 0x12, 0x80, 0xe2, 0xeb, 0x27, 0xb2, 0x75] ++
  [0x09, 0x83, 0x2c, 0x1a, 0x1b, 0x6e, 0x5a, 0xa0, 0x52, 0x3b, 0xd6, 0xb3, 0x29, 0xe3, 0x2f, 0x84] ++
  [0x53, 0xd1, 0x00, 0xed, 0x20, 0xfc, 0xb1, 0x5b, 0x6a, 0xcb, 0xbe, 0x39, 0x4a, 0x4c, 0x58, 0xcf] ++
  [0xd0, 0xef, 0xaa, 0xfb, 0x43, 0x4d, 0x33, 0x85, 0x45, 0xf9, 0x02, 0x7f, 0x50, 0x3c, 0x9f, 0xa8] ++
  [0x51, 0xa3, 0x40, 0x8f, 0x92, 0x9d, 0x38, 0xf5, 0xbc, 0xb6, 0xda, 0x21, 0x10, 0xff, 0xf3, 0xd2] ++
  [0xcd, 0x0c, 0x13, 0xec, 0x5f, 0x97, 0x44, 0x17, 0xc4, 0xa7, 0x7e, 0x3d, 0x64, 0x5d, 0x19, 0x73] ++
  [0x60, 0x81, 0x4f, 0xdc, 0x22, 0x2a, 0x90, 0x88, 0x46, 0xee, 0xb8, 0x14, 0xde, 0x5e, 0x0b, 0xdb] ++
  [0xe0, 0x32, 0x3a, 0x0a, 0x49, 0x06, 0x24, 0x5c, 0xc2, 0xd3, 0xac, 0x62, 0x91, 0x95, 0xe4, 0x79] ++
  [0xe7, 0xc8, 0x37, 0x6d, 0x8d, 0xd5, 0x4e, 0xa9, 0x6c, 0x56, 0xf4, 0xea, 0x65, 0x7a, 0xae, 0x08] ++
  [0xba, 0x78, 0x25, 0x2e, 0x1c, 0xa6, 0xb4, 0xc6, 0xe8, 0xdd, 0x74, 0x1f, 0x4b, 0xbd, 0x8b, 0x8a] ++
  [0x70, 0x3e, 0xb5, 0x66, 0x48, 0x03, 0xf6, 0x0e, 0x61, 0x35, 0x57, 0xb9, 0x86, 0xc1, 0x1d, 0x9e] ++
  [0xe1, 0xf8, 0x98, 0x11, 0x69, 0xd9, 0x8e, 0x94, 0x9b, 0x1e, 0x87, 0xe9, 0xce, 0x55, 0x28, 0xdf] ++
  [0x8c, 0xa1, 0x89, 0x0d, 0xbf, 0xe6, 0x42, 0x68, 0x41, 0x99, 0x2d, 0x0f, 0xb0, 0x54, 0xbb, 0x16]

/-- SubBytes of one byte. -/
def subByte (b : Byte) : Byte := BitVec.ofNat 8 (sbox.getD b.toNat 0)

/-- InvSubBytes of one byte. -/
def invSubByte (b : Byte) : Byte := BitVec.ofNat 8 (sbox.findIdx fun x => x == b.toNat)

/-- Multiplication by x in GF(2^8). -/
def xtime (b : Byte) : Byte := (b <<< 1) ^^^ (if b.getLsbD 7 then 0x1b else 0)

/-- Multiplication by a constant below 16. -/
def gfByte (c : Nat) (b : Byte) : Byte :=
  let b2 := xtime b
  let b4 := xtime b2
  (if c.testBit 0 then b else 0) ^^^ (if c.testBit 1 then b2 else 0) ^^^ (if c.testBit 2 then b4 else 0)
    ^^^ (if c.testBit 3 then xtime b4 else 0)

/-- Exclusive or of byte strings, as long as the shorter. -/
def xorBytes (a b : List Byte) : List Byte := List.zipWith (· ^^^ ·) a b

/-- The state's bytes moved: byte r + 4c comes from column c + r (or c − r for the inverse). -/
def shiftRows (inv : Bool) (s : List Byte) : List Byte :=
  (List.range 16).map fun i => s.getD (i % 4 + 4 * ((i / 4 + (if inv then 4 - i % 4 else i % 4)) % 4)) 0

/-- The columns multiplied by the circulant of four coefficients. -/
def mixColumns (cs : List Nat) (s : List Byte) : List Byte :=
  (List.range 16).map fun i => (List.range 4).foldl (fun (a : Byte) j =>
    a ^^^ gfByte (cs.getD ((j + 4 - i % 4) % 4) 0) (s.getD (i / 4 * 4 + j) 0)) 0

/-- The round constants of the key schedule. -/
def rcon (i : Nat) : Byte := [(0x01 : Byte), 0x02, 0x04, 0x08, 0x10, 0x20, 0x40, 0x80, 0x1b, 0x36].getD (i - 1) 0

/-- Rounds of a key of n bytes. -/
def aesRounds (n : Nat) : Nat := n / 4 + 6

/-- KeyExpansion: the words of the schedule, four bytes each, in order. -/
def keyWords (key : List Byte) : List (List Byte) :=
  let nk := key.length / 4
  (List.range (4 * (aesRounds key.length + 1) - nk)).foldl (fun w k =>
    let i := nk + k
    let t := w.getD (i - 1) []
    let t := if i % nk = 0 then xorBytes ((t.drop 1 ++ t.take 1).map subByte) [rcon (i / nk), 0, 0, 0]
      else if 6 < nk ∧ i % nk = 4 then t.map subByte else t
    w ++ [xorBytes (w.getD (i - nk) []) t]) ((List.range nk).map fun i => (key.drop (4 * i)).take 4)

/-- The sixteen bytes of a round key. -/
def roundKey (w : List (List Byte)) (r : Nat) : List Byte := ((w.drop (4 * r)).take 4).flatten

/-- The forward cipher. -/
def aesEnc (key s : List Byte) : List Byte :=
  let w := keyWords key
  let n := aesRounds key.length
  let s := (List.range (n - 1)).foldl (fun s r =>
    xorBytes (mixColumns [2, 3, 1, 1] (shiftRows false (s.map subByte))) (roundKey w (r + 1))) (xorBytes s (roundKey w 0))
  xorBytes (shiftRows false (s.map subByte)) (roundKey w n)

/-- The inverse cipher. -/
def aesDec (key s : List Byte) : List Byte :=
  let w := keyWords key
  let n := aesRounds key.length
  let s := (List.range (n - 1)).foldl (fun s r =>
    mixColumns [14, 11, 13, 9] (xorBytes ((shiftRows true s).map invSubByte) (roundKey w (n - 1 - r)))) (xorBytes s (roundKey w n))
  xorBytes ((shiftRows true s).map invSubByte) (roundKey w 0)

/-- The cipher of a block under a key given as its bytes. -/
def encBlk (k : List Byte) (v : BitVec 128) : BitVec 128 := blk (aesEnc k (unblk v))

/-- The inverse cipher of a block. -/
def decBlk (k : List Byte) (v : BitVec 128) : BitVec 128 := blk (aesDec k (unblk v))

/-- The 16-byte pieces of a message, the last one possibly short. -/
def pieces (b : List Byte) : List (List Byte) := (List.range ((b.length + 15) / 16)).map fun i => (b.drop (16 * i)).take 16

/-! ### Modes -/

/-- ECB. -/
def ecb (dec : Bool) (k msg : List Byte) : List Byte :=
  (pieces msg).flatMap fun p => unblk ((if dec then decBlk else encBlk) k (blk p))

/-- PKCS#7 padding. -/
def pkcs7 (msg : List Byte) : List Byte :=
  let n := 16 - msg.length % 16
  msg ++ List.replicate n (BitVec.ofNat 8 n)

/-- CBC encryption of whole blocks. -/
def cbcEnc (k iv msg : List Byte) : List Byte :=
  ((pieces msg).foldl (fun (a : BitVec 128 × List Byte) p =>
    let c := encBlk k (blk p ^^^ a.1)
    (c, a.2 ++ unblk c)) (blk iv, [])).2

/-- CBC decryption of whole blocks. -/
def cbcDec (k iv msg : List Byte) : List Byte :=
  ((pieces msg).foldl (fun (a : BitVec 128 × List Byte) p =>
    (blk p, a.2 ++ unblk (decBlk k (blk p) ^^^ a.1))) (blk iv, [])).2

/-- The message without its padding, when the padding is valid PKCS#7. -/
def unpad (msg : List Byte) : Option (List Byte) :=
  let n := ((msg.getLast?).getD 0).toNat
  if 1 ≤ n ∧ n ≤ 16 ∧ n ≤ msg.length ∧ (msg.drop (msg.length - n)).all fun b => b = BitVec.ofNat 8 n
  then some (msg.take (msg.length - n)) else none

/-- CTR from a counter block, the counter a 128-bit big-endian integer. -/
def ctr (k : List Byte) (c0 : BitVec 128) (msg : List Byte) : List Byte :=
  ((pieces msg).zipIdx).flatMap fun (p, i) => xorBytes p (unblk (encBlk k (c0 + BitVec.ofNat 128 i)))

/-- Multiplication in GF(2^128) as GCM orders its bits. -/
def gfMul (x y : BitVec 128) : BitVec 128 :=
  ((List.range 128).foldl (fun (a : BitVec 128 × BitVec 128) i =>
    let z := if x.getLsbD (127 - i) then a.1 ^^^ a.2 else a.1
    let v := a.2 >>> 1
    (z, if a.2.getLsbD 0 then v ^^^ BitVec.ofNat 128 (0xE1 * 2 ^ 120) else v)) (0, y)).1

/-- GHASH over blocks. -/
def ghash (h : BitVec 128) (bs : List (List Byte)) : BitVec 128 := bs.foldl (fun y p => gfMul (y ^^^ blk p) h) 0

/-- The full GCM tag of a ciphertext; the first twelve IV bytes are the IV. -/
def gcmTag (k iv aad ct : List Byte) : List Byte :=
  let h := encBlk k 0
  let j0 := blk (iv.take 12 ++ [0, 0, 0, 1])
  let lens := (toLe 8 (8 * aad.length)).reverse ++ (toLe 8 (8 * ct.length)).reverse
  unblk (encBlk k j0 ^^^ ghash h (pieces aad ++ pieces ct ++ [lens]))

/-- The keystream part of GCM. -/
def gcmCtr (k iv msg : List Byte) : List Byte := ctr k (blk (iv.take 12 ++ [0, 0, 0, 2])) msg

/-- Doubling of a little-endian XTS tweak. -/
def xtsDouble (t : Nat) : Nat := (t * 2 % 2 ^ 128) ^^^ (if 2 ^ 127 ≤ t then 0x87 else 0)

/-- One XTS block under a tweak. -/
def xtsBlock (dec : Bool) (k : List Byte) (t : Nat) (p : List Byte) : List Byte :=
  let tb := blk (toLe 16 t)
  unblk ((if dec then decBlk else encBlk) k (blk p ^^^ tb) ^^^ tb)

/-- One XTS data unit of at least sixteen bytes, with ciphertext stealing. -/
def xtsUnit (dec : Bool) (k1 k2 : List Byte) (tweak : Nat) (msg : List Byte) : List Byte :=
  let t0 := le (unblk (encBlk k2 (blk (toLe 16 tweak)))) 0 16
  let m := msg.length / 16
  let b := msg.length % 16
  let whole := if b = 0 then m else m - 1
  let (t, out) := (List.range whole).foldl (fun (a : Nat × List Byte) i =>
    (xtsDouble a.1, a.2 ++ xtsBlock dec k1 a.1 ((msg.drop (16 * i)).take 16))) (t0, [])
  if b = 0 then out
  else
    let p := (msg.drop (16 * whole)).take 16
    let last := msg.drop (16 * m)
    let t1 := xtsDouble t
    let (ta, tb) := if dec then (t1, t) else (t, t1)
    let cc := xtsBlock dec k1 ta p
    out ++ xtsBlock dec k1 tb (last ++ cc.drop b) ++ cc.take b

/-- XTS over a message cut into data units; each unit's tweak is one more. -/
def xts (dec : Bool) (k iv : List Byte) (unit : Nat) (msg : List Byte) : List Byte :=
  let n := k.length / 2
  let u := if unit = 0 then msg.length else unit
  (List.range ((msg.length + u - 1) / u)).flatMap fun i =>
    xtsUnit dec (k.take n) (k.drop n) ((le iv 0 16 + i) % 2 ^ 128) ((msg.drop (u * i)).take u)

/-- Doubling of a big-endian CMAC subkey. -/
def cmacDouble (v : BitVec 128) : BitVec 128 := (v <<< 1) ^^^ (if v.getLsbD 127 then 0x87 else 0)

/-- The full CMAC of a message. -/
def cmac (k msg : List Byte) : List Byte :=
  let k1 := cmacDouble (encBlk k 0)
  let ps := if msg = [] then [[]] else pieces msg
  let last := ps.getLast?.getD []
  let fin := if last.length = 16 then blk last ^^^ k1 else blk (last ++ [0x80]) ^^^ cmacDouble k1
  unblk (encBlk k ((ps.dropLast.foldl (fun x p => encBlk k (x ^^^ blk p)) 0) ^^^ fin))

/-! ### Key wrap (SP 800-38F, KW) and the media line (R215) -/

/-- A count as eight bytes, exclusive-ored into the first half of a block. -/
def kwXor (a : List Byte) (t : Nat) : List Byte := xorBytes a (toLe 8 t).reverse

/-- AES key wrap of a string of eight-byte pieces. -/
def keyWrap (kek key : List Byte) : List Byte :=
  let n := key.length / 8
  let r := (List.range (6 * n)).foldl (fun (x : List Byte × List Byte) j =>
    let b := aesEnc kek (x.1 ++ x.2.take 8)
    (kwXor (b.take 8) (j + 1), x.2.drop 8 ++ b.drop 8)) (List.replicate 8 0xA6, key)
  r.1 ++ r.2

/-- The unwrapped key, when its integrity check holds. -/
def keyUnwrap (kek c : List Byte) : Option (List Byte) :=
  let n := c.length / 8 - 1
  let r := (List.range (6 * n)).foldl (fun (x : List Byte × List Byte) j =>
    let k := x.2.length - 8
    let b := aesDec kek (kwXor x.1 (6 * n - j) ++ x.2.drop k)
    (b.take 8, b.drop 8 ++ x.2.take k)) (c.take 8, c.drop 8)
  if r.1 = List.replicate 8 0xA6 then some r.2 else none

/-- The 40 bytes of a stored key (R212): the key of a KEYID under the root key. -/
def wrapKey (root keyid : Nat) : List Byte := keyWrap (fitTo 32 (Config.keyBytes root)) (fitTo 32 (Config.keyBytes keyid))

/-- The keystream of a media line (R215): its ciphertext is the line XORed with it. -/
def gcmStream (keyid iv : Nat) : Line :=
  bytesLine (gcmCtr (fitTo 32 (Config.keyBytes keyid)) (toLe 12 iv).reverse (List.replicate 64 0))

/-- The counter-mode keystream of a DRAM line (R127): four blocks under the cushion key, the counter block of GEN, the line
address and the block number; its 128 bits enter most significant byte first (log entry 4). -/
def ctrStream (keyid gen line : Nat) : Line :=
  bytesLine ((List.range 4).flatMap fun j =>
    aesEnc (fitTo 32 (Config.keyBytes keyid)) (toLe 16 (gen % 2 ^ 64 * 2 ^ 64 + line % 2 ^ 38 * 2 ^ 8 + j)).reverse)

/-! ### The rules of R329 and R330 -/

/-- Key bytes of a LEN code (R325). -/
def keyLen (c : Nat) : Nat := match c with
  | 0 => 16 | 1 => 24 | 2 => 32 | _ => 64

/-- The LEN fits the mode (R329). -/
def lenFits (mode c : Nat) : Bool := if mode = 4 then decide (2 ≤ c) else decide (c ≤ 2)

/-- The IV bytes meet R330. -/
def ivOk (mode : Nat) (iv : List Byte) : Bool := match mode with
  | 0 | 5 => le iv 0 16 = 0
  | 3 => le iv 12 4 = 0
  | _ => true

/-- Tag bytes of a TAGLEN field (R331). -/
def tagBytes (f : Nat) : Nat := if f = 0 then 16 else f

/-- The TAGLEN field is one of R331. -/
def tagLenOk (mode f : Nat) : Bool := match mode with
  | 3 => [0, 8, 12, 13, 14, 15].contains f
  | 5 => f = 0 || decide (8 ≤ f)
  | _ => true

/-- XTS data unit in bytes of its field; 0 for the whole message. -/
def duBytes (f : Nat) : Nat := if f = 0 then 0 else 2 ^ f

/-- The message length meets its row of R329. -/
def lengthOk (mode : Nat) (dec : Bool) (n tag du : Nat) : Bool :=
  decide (n ≤ 67108864) && (match mode with
  | 0 => decide (0 < n) && decide (n % 16 = 0)
  | 1 => !dec || (decide (0 < n) && decide (n % 16 = 0))
  | 3 | 5 => !dec || decide (tagBytes tag ≤ n)
  | 4 => if du = 0 then decide (16 ≤ n) && decide (n ≤ 16777216)
    else decide (0 < n) && (decide (n % duBytes du = 0) || decide (16 ≤ n % duBytes du))
  | _ => true)

/-- Largest output of a request before it starts (R334): CBC and GCM encryption at their padded length. -/
def outMax (mode : Nat) (dec : Bool) (n tag : Nat) : Nat := match mode with
  | 1 => if dec then n else 16 * (n / 16 + 1)
  | 3 => if dec then n - tagBytes tag else n + tagBytes tag
  | 5 => 0
  | _ => n

/-- A request's ending: status (R334), output, tag. -/
structure CRes where
  status : Nat
  out : List Byte := []
  tag : List Byte := []
  deriving DecidableEq, Repr

/-- The request itself, its checks passed (R329–R331). GCM output that fails its tag is zeros. -/
def cipherWork (mode : Nat) (dec : Bool) (k iv aad msg : List Byte) (tag du : Nat) : CRes :=
  let tl := tagBytes tag
  let body := msg.take (msg.length - tl)
  let want := msg.drop (msg.length - tl)
  match mode with
  | 0 => { status := 0, out := ecb dec k msg }
  | 1 =>
    if dec then match unpad (cbcDec k iv msg) with
      | some m => { status := 0, out := m }
      | none => { status := 2, out := (cbcDec k iv msg).take (msg.length - 16) }
    else { status := 0, out := cbcEnc k iv (pkcs7 msg) }
  | 2 => { status := 0, out := ctr k (blk iv) msg }
  | 3 =>
    if dec then
      if (gcmTag k iv aad body).take tl = want then { status := 0, out := gcmCtr k iv body }
      else { status := 1, out := List.replicate body.length 0 }
    else
      let ct := gcmCtr k iv msg
      { status := 0, out := ct, tag := (gcmTag k iv aad ct).take tl }
  | 4 => { status := 0, out := xts dec k iv (duBytes du) msg }
  | _ =>
    if dec then { status := if (cmac k body).take tl = want then 0 else 1 }
    else { status := 0, tag := (cmac k msg).take tl }

end Sys2Proof.Machine
end

