-- ==== Sys2Proof/Machine/State.lean ====
section
/-! DEFINITION. Machine/State.lean: every piece of state the manual gives the node, one structure per subsystem of R19,
the queue of waiting commands, and the state at departure from Held (State.reset). Small numbers are Nat; the registers
that show them give them their widths (Machine/Regs.lean). -/

namespace Sys2Proof.Machine

/-- Why the model would stop with a fault. No command of the node raises one: the manual's fatal faults are next
states that lead to Halt (R424). Kept for the interface (safe). -/
inductive Fault where
  /-- Never raised by a meaning; safe. -/
  | unused
  deriving DecidableEq, Repr

/-- Why the model would refuse a command. -/
inductive Refusal where
  /-- A command whose meaning is not written: raised by an arm of exec; safe. -/
  | notModelled (mnemonic : String)
  deriving DecidableEq, Repr

/-- The three builds of the node (R2). -/
inductive Variant where
  | A | B | M
  deriving DecidableEq, Repr, Inhabited

/-- The twelve modes (R354, R402). -/
inductive Mode where
  | off | held | unfurl | splice | recovery | service | capped | quiet | dormant | transit | maintenance | halt
  deriving DecidableEq, Repr, Inhabited

/-! ### Ledger (02_latency_ledger.md) -/

/-- A write that completed beyond the bound and waits for the judgement of its slice (R56). -/
structure LateWrite where
  causes : List Nat
  cls : Nat
  cc : Nat
  addr : Nat
  deriving DecidableEq, Repr

/-- The ledger's registers (R62) and the running slice (R55–R59). `…Now` is the value in force (R36). `grants` counts what
the arbiter has granted (R28, R45): DRAM bursts of class C at 2·C, media operations at 2·C + 1. -/
structure Ldg where
  bud : List Nat := [45, 8, 72, 160, 24, 40, 51, 72]
  budNow : List Nat := [45, 8, 72, 160, 24, 40, 51, 72]
  xtrmMax : Cnt := []
  xtrmExc : Cnt := []
  ovr : Cnt := []
  lastCause : Nat := 0
  lastCls : Nat := 0
  lastCc : Nat := 0
  env : Nat := 8640
  envNow : Nat := 8640
  envMiss : Nat := 0
  sliceB0 : Nat := 0
  sliceW : Nat := 0
  sliceF : Nat := 0
  uOpt : Nat := 40
  uMod : Nat := 80
  oOpt : Nat := 35
  oMod : Nat := 70
  uOptNow : Nat := 40
  uModNow : Nat := 80
  oOptNow : Nat := 35
  oModNow : Nat := 70
  devload : Nat := 0
  runB0 : Nat := 0
  runW : Nat := 0
  runF : Nat := 0
  noCredit : Bool := false
  guardFailed : Bool := false
  missSlices : List Nat := []
  groupPosted : Nat := 0
  late : List LateWrite := []
  grants : Cnt := []
  deriving DecidableEq, Repr

/-! ### Rows, sorus-blocks and plane-blocks (06_media_array.md) -/

/-- Row kinds (R153). -/
inductive Kind where
  | host | image | journal | anchor | spore | blog | filler
  deriving DecidableEq, Repr, Inhabited

/-- A programmed row (R151–R153): header fields, the identity of the key that enciphered it, the ring index in its AAD, its
lines as ciphertext (R215). -/
structure Row where
  kind : Kind := .filler
  frond : Nat := 0
  version : Nat := 0
  kslot : Nat := 0
  keyid : Nat := 0
  index : Nat := 0
  lpoison : BitVec 64 := 0
  moved : Bool := false
  lines : Tab Line := []
  deriving DecidableEq, Repr, Inhabited

/-- States of a sorus-block (R159). -/
inductive BState where
  | ready | opn | full | closed | resetting | spore
  deriving DecidableEq, Repr, Inhabited

/-- Move roles, highest first (R188). -/
inductive Role where
  | none | evac | escalated | victim | refresh | wear
  deriving DecidableEq, Repr, Inhabited

/-- A sorus-block (R149, R159, R185): its state, the kind of rows it holds, valid-row bitmap, when it became FULL and CLOSED,
role, next page, whether its open-block parity is held and, by position, that parity (R168), and the progress of its reset:
`waited` says that it waits for a pin (R93). Of a journal block `j0` and `j1` bound the JSEQs it holds (R78). -/
structure Sb where
  st : BState := .ready
  kind : Kind := .host
  valid : Tab Bool := []
  programmed : Bool := false
  fullAt : Nat := 0
  closedAt : Nat := 0
  role : Role := .none
  page : Nat := 0
  buffer : Bool := false
  xor : Tab (BitVec 81920) := []
  passLeft : List Nat := []
  rebuilt : Bool := false
  donor : Bool := false
  intent : Option Nat := none
  openRec : Option Nat := none
  resetPos : List Nat := []
  waited : Bool := false
  j0 : Nat := 0
  j1 : Nat := 0
  out : Bool := false
  deriving DecidableEq, Repr, Inhabited

/-- A physical plane-block, keyed (die · 4 + plane) · 1344 + n (R158): the parts of its entry that are its own; `meas` is one
more than the TIME of its last measurement, or the start of the sweep in which it was opened (R195). -/
structure Pb where
  bad : Bool := false
  retired : Bool := false
  cycles : Nat := 0
  step : Nat := 0
  subst : Option Nat := none
  progFails : Nat := 0
  meas : Nat := 0
  grownBad : Bool := false
  deriving DecidableEq, Repr, Inhabited

/-- A die (R172, R176). -/
structure Die where
  failed : Bool := false
  ops : Nat := 0
  consec : Nat := 0
  deriving DecidableEq, Repr, Inhabited

/-- A block-log record (R160). -/
structure BRec where
  bseq : Nat
  type : Nat
  die : Nat
  plane : Nat
  block : Nat
  value : Nat
  deriving DecidableEq, Repr

/-! ### Frond map (03_frond_map.md) -/

/-- A map entry (R64), its two reserved bits included (R66). The default is the Released form of R65. -/
structure Entry where
  slot : Nat := 0
  v : Bool := false
  z : Bool := true
  c : Bool := false
  s : Bool := false
  p : Bool := false
  rsv : Nat := 0
  deriving DecidableEq, Repr, Inhabited

/-- One set of a 16-way table with tree pseudo-LRU (R69, R253): way number ↦ (tag, content), and the 15 tree bits. -/
structure CacheSet (α : Type) where
  ways : Tab (Option (Nat × α)) := []
  plru : Nat := 0
  deriving DecidableEq, Repr, Inhabited

/-- A journal record (R74). -/
structure JRec where
  frond : Nat
  entry : Entry
  jseq : Nat
  deriving DecidableEq, Repr

/-- A checkpoint image (R77): its entries and line counts, J_s, lap sequence, whether its anchor row stands; the block table
written with it and the BSEQ its log is replayed from (R160). -/
structure Img where
  ent : Tab Entry := []
  seq : Cnt := []
  js : Nat := 0
  lap : Nat := 0
  pb : Tab Pb := []
  sb : Tab Sb := []
  bseq : Nat := 0
  complete : Bool := false
  deriving DecidableEq, Repr

/-- A lap in progress (R77): target area, J_s, image fronds verified, periods run, the copy so far; `transit` marks the
lap of R417. -/
structure Lap where
  area : Nat
  js : Nat
  fronds : Nat := 0
  startT : Nat := 0
  ver0 : Nat := 0
  bseq0 : Nat := 0
  copy : Img := {}
  pb : Tab Pb := []
  sb : Tab Sb := []
  transit : Bool := false
  late : Bool := false
  deriving DecidableEq, Repr

/-- Rows of the anchor log (R77, R79, R412, R417, R419); an image's row names the sorus-blocks of the image and journal
directories. -/
inductive Anchor where
  | image (area lap js : Nat) (images journals : List Nat)
  | clean (pidx : Tab (BitVec 64)) (ovf : Bool)
  | sporeBegun
  | sporeDone
  | consumed
  deriving DecidableEq, Repr

/-- The error sequence of a map line (R81): the refetch of a read whose failing bytes are given, a wait for one of the
four recomputes, a running recompute. -/
inductive LineErr where
  | refetch (mask : BitVec 64)
  | waiting
  | recompute
  deriving DecidableEq, Repr

/-- What an update asks of an entry (R71). -/
inductive UpdOp where
  | setRow (slot : Nat) (p : Bool)
  | moveRow (slot : Nat) (p : Bool)
  | setP
  | clearP
  | frondWide
  | release (shed : Bool)
  deriving DecidableEq, Repr

/-- Who asked for an update, for what follows its application or discard (R73, R141, R110, R200, R226). A destage names its
slot and the slot's GEN, so that a release meanwhile discards it (R143). -/
inductive UpdWhy where
  | destage (key gen : Nat)
  | gc
  | wear
  | refresh
  | evacuate
  | rescue
  | rekey (range : Nat)
  | poison (line : Nat)
  | host
  deriving DecidableEq, Repr

/-- A map update waiting in the MAP pipeline's queue: for a conditional one, the entry it was planned from (R73). -/
structure Upd where
  frond : Nat
  op : UpdOp
  cond : Option Entry := none
  why : UpdWhy := .host
  waited : Bool := false
  deriving DecidableEq, Repr

/-- The refresh parity of the last pair of map lines of a fresh map (R67, R120): its even line holds twelve Released
entries, its odd one four. -/
def freshParity : BitVec 512 := BitVec.ofNat 512 ((List.range 8).foldl (fun a k => a + 2 ^ (34 + 40 * (k + 4))) 0)

/-- The frond map and its registers (R64–R90). `par` holds the refresh-parity line of each pair of map lines (R120);
`anchors` the anchor log as its rows read, by row sequence (R79). -/
structure FMap where
  ent : Tab Entry := []
  seq : Cnt := []
  err : Tab (Option LineErr) := []
  cache : Tab (CacheSet Entry) := []
  par : Tab (BitVec 512) := [(178956970, freshParity)]
  updq : List Upd := []
  tail : List JRec := []
  mediaJ : List JRec := []
  img0 : Img := { complete := true }
  img1 : Img := {}
  lap : Option Lap := none
  anchors : List (Nat × Anchor) := [(0, .image 0 0 0 [] [])]
  anchorSeq : Nat := 1
  anchorSb : Option Nat := none
  limit : Nat := 0
  area : Nat := 0
  lastLapMs : Nat := 0
  lapSeq : Nat := 0
  jseq : Nat := 0
  peek : Nat := 0
  peekEnt : Entry := { z := false }
  peekSeq : Nat := 0
  peekValid : Bool := false
  peekWait : Bool := false
  cnt : Cnt := []
  deriving DecidableEq, Repr

/-- Line states (R124). -/
inductive LState where
  | absent | full | sparse | poisoned
  deriving DecidableEq, Repr, Inhabited

/-- Slot states (R124). -/
inductive SState where
  | free | opn | sealed | draining
  deriving DecidableEq, Repr, Inhabited

/-- A line of a cushion slot: its state, and what both mirrors hold of it in DRAM: the ciphertext of R127 and the check
bits of R117. -/
structure CLine where
  st : LState := .absent
  data : Line := 0
  chk : BitVec 64 := BitVec.allOnes 64
  deriving DecidableEq, Repr, Inhabited

/-! ### Requests in flight and the read path (04_read_path.md) -/

/-- Who reads (R91, R112, R396): a ring request by its source, tag and the ring it arrived on; `back` is an engine, management DMA, a destage or a move, by its traffic class. -/
inductive Origin where
  | host (tag : Nat)
  | ring (src tag : Nat) (ringB : Bool)
  | back (cls : Nat)
  deriving DecidableEq, Repr

/-- Where a request stands (R81, R91, R101, R103, R106, R107). -/
inductive Stage where
  | mapRead
  | mapWait
  | cushion
  | mirror
  | media
  | refetch
  | recompute
  | second
  deriving DecidableEq, Repr

/-- A write held at the map probe: its data and enables (R129). -/
structure WrBody where
  data : Line
  be : BitVec 64
  poison : Bool
  deriving DecidableEq, Repr

/-- A request inside the node: what its probe looked up at once (R91, R113): the entry, the cushion copy (`snap`) with its
slot key, generation and mask, and whether the staging table held the line; whether a full-line write has landed since
(`covered`); its route code of R91, source positions, failed
positions, those the refetch reads at their next step, pin and mirror, the positions a second pass waits for (R107), the
cushion part of an overlay (`cu`: 0 none or taken, 1 first mirror awaited, 2 the other), the media part that came first, and
the excluded causes under which it is counted, in their order (R41), and the substitution entry that its row lookup will find
uncorrectable (R157). -/
structure Req where
  id : Nat
  org : Origin
  frond : Nat
  line : Nat
  wr : Option WrBody := none
  stage : Stage
  entry : Entry := {}
  route : Nat := 0
  src : BitVec 20 := 0
  failed : BitVec 20 := 0
  pinned : Bool := false
  key : Option Nat := none
  snap : CLine := {}
  snapMask : BitVec 64 := 0
  gen : Nat := 0
  staged : Bool := false
  covered : Bool := false
  next : BitVec 20 := 0
  busyAt : BitVec 20 := 0
  mirror : Nat := 0
  cu : Nat := 0
  cuBad : BitVec 64 := 0
  cuPoison : Bool := false
  md : Option (Line × Bool) := none
  causes : List Nat := []
  mismatch : Bool := false
  subst : Option Nat := none
  slice : Nat := 0
  deriving DecidableEq, Repr

/-- The read path: requests, the poison staging table, registers of R115. -/
structure RdPath where
  reqs : List Req := []
  nextId : Nat := 0
  stage : Tab (BitVec 64) := []
  full : Nat := 0
  lastFrond : Nat := 0
  lastLine : Nat := 0
  lastStage : Nat := 0
  lastRoute : Nat := 0
  lastCls : Nat := 0
  cnt : Cnt := []
  deriving DecidableEq, Repr

/-! ### Cushion (05_cushion.md) -/

/-- A directory entry with its slot (R123): the frond stands for pair, set and tag; `readers` are the reads of R102. -/
structure Slot where
  frond : Nat := 0
  gen : Nat := 0
  st : SState := .free
  dirty : Bool := false
  born : Nat := 0
  lines : Tab CLine := []
  readers : List Nat := []
  deriving DecidableEq, Repr, Inhabited

/-- An entry of the sparse table (R126). -/
structure Mask where
  frond : Nat := 0
  line : Nat := 0
  mask : BitVec 64 := 0
  deriving DecidableEq, Repr, Inhabited

/-- The cushion (R116–R147). Slots are keyed by `pair · 2^20 + slot index`, overflow entries from 6 · 2^20; sparse
entries by `set · 16 + way`, overflow from 2^20. -/
structure Csh where
  dir : Tab Slot := []
  sparse : Tab Mask := []
  gen : Nat := 0
  genRetry : Bool := false
  wq : Cnt := []
  rfWindow : Nat := 0
  credHost : Nat := 0
  credW : Nat := 0
  credE : Nat := 0
  owedHost : Nat := 0
  owedW : Nat := 0
  owedE : Nat := 0
  withholding : Bool := false
  em : Nat := 0
  d : Nat := 0
  hw : Nat := 0
  pendEm : Option Nat := none
  derate : Bool := false
  hwPct : Nat := 85
  fLow : Nat := 64
  fMid : Nat := 512
  fHigh : Nat := 1024
  fDrain : Nat := 1280
  fLowNow : Nat := 64
  fMidNow : Nat := 512
  fHighNow : Nat := 1024
  fDrainNow : Nat := 1280
  minAge : Nat := 100
  minAgeNow : Nat := 100
  admitted : Nat := 0
  guards : Nat := 0
  emptying : Bool := false
  overD : Bool := false
  destaged : Nat := 0
  pace : Nat := 0
  cnt : Cnt := []
  deriving DecidableEq, Repr

/-! ### Media (06_media_array.md) -/

/-- Lane states (R165). -/
inductive LaneSt where
  | idle | programming | resetting | readOnly | dump
  deriving DecidableEq, Repr, Inhabited

/-- A lane (R149, R165, R176). `opn` is the OPEN host sorus-block's plane-block number. -/
structure Lane where
  st : LaneSt := .idle
  opn : Option Nat := none
  deriving DecidableEq, Repr, Inhabited

/-- A running operation of one plane: program or reset, its suspension account (R170). -/
structure Op where
  lane : Nat
  pos : Nat
  reset : Bool
  nsb : Nat := 0
  startT : Nat := 0
  suspended : Bool := false
  stalled : Bool := false
  suspUs : Nat := 0
  suspT : Nat := 0
  resumeT : Option Nat := none
  deriving DecidableEq, Repr

/-- A row of a program set with the update that follows its verify (R166, R167). -/
structure SetRow where
  row : Row
  upd : Option Upd := none
  deriving DecidableEq, Repr

/-- A program set in flight (R166): lane, sorus-block, page, class, wave running, failed positions so far. -/
structure PSet where
  lane : Nat
  nsb : Nat
  page : Nat
  kind : Kind
  cls : Nat := 2
  wave : Nat := 0
  failed : BitVec 20 := 0
  waited : Bool := false
  n : Nat := 0
  rows : List SetRow := []
  destage : Bool := false
  deriving DecidableEq, Repr

/-- A row of an abandoned set: its sectors at the positions whose waves verified stand on media, never referenced (R171). -/
structure Part where
  row : Row := {}
  mask : BitVec 20 := 0
  deriving DecidableEq, Repr, Inhabited

/-- The media engine (R148–R176): `turn` is the group of consumers that an Idle lane is offered to first
(R165). -/
structure Med where
  rows : Tab Row := []
  sb : Tab Sb := []
  pb : Tab Pb := []
  dies : Tab Die := []
  lanes : Tab Lane := []
  metaOpen : Tab Nat := []
  ops : List Op := []
  sets : List PSet := []
  offered : Nat := 127
  turn : Nat := 0
  part : Tab Part := []
  blogBuf : List BRec := []
  blogAt : Nat := 0
  blog : List BRec := []
  bseq : Nat := 0
  limit : Nat := 512
  peak : Nat := 0
  rStall : Nat := 50
  pStall : Nat := 200
  minProg : Nat := 2
  minReset : Nat := 200
  rStallNow : Nat := 50
  pStallNow : Nat := 200
  minProgNow : Nat := 2
  minResetNow : Nat := 200
  diagAddr : Nat := 0
  diagDone : Bool := false
  diagBusy : Bool := false
  diagCode : Nat := 0
  diagData : List Byte := []
  cnt : Cnt := []
  deriving DecidableEq, Repr

/-! ### Stewardship (07_media_stewardship.md) -/

/-- Free-space states (R191). -/
inductive Free where
  | normal | lean | critical | exhausted
  deriving DecidableEq, Repr, Inhabited

/-- What the running period's plan still grants (R179): slots per step 2–9, housekeeping items of R180, lane yields left, and
the read quotas: patrol, sentinels, and the C2 ones of verify passes and overdue measurements (R180). -/
structure Plan where
  cap : Nat := 0
  hk : Nat := 0
  gc : Nat := 0
  destage : Nat := 0
  c4 : Nat := 0
  left : Cnt := []
  lanesUsed : Cnt := []
  drops : Cnt := []
  patrolQ : Nat := 0
  sentQ : Nat := 0
  passQ : Nat := 0
  overQ : Nat := 0
  yield : Nat := 0
  deriving DecidableEq, Repr

/-- Why a frond is on the rescue list (R200). -/
inductive Rescue where
  | recomputed | poisoned | parity
  deriving DecidableEq, Repr

/-- Patrol states (R208). -/
inductive Patrol where
  | disabled | draining | enabled | pending
  deriving DecidableEq, Repr, Inhabited

/-- The values of the RW registers of STW (R208); one copy as written, one in force (R36). -/
structure StwSet where
  leanBp : Nat := 200
  critBp : Nat := 50
  leanExit : Nat := 250
  critExit : Nat := 75
  gcTarget : Nat := 300
  gcBase : Nat := 16
  gcGain : Nat := 2
  gcMax : Nat := 768
  gcReserve : Nat := 64
  wearOn : Nat := 50000
  wearOff : Nat := 40000
  patTarget : Nat := 72
  patMin : Nat := 16
  patMax : Nat := 1023
  rewrite : Nat := 12
  sentS : Nat := 600
  scrubRate : Nat := 64
  hot : Nat := 64
  holdMs : Nat := 1000
  retire : Nat := 10000000
  deriving DecidableEq, Repr

/-- Stewardship (R177–R209). `hotTab` holds the TIMEs of each tracked frond's destages in the last second (R205); `overdue`
the plane-blocks whose measurement a refetch has called (R195); `scrubAt` and `sramAt` where the scrubber's laps stand, with
the TIMEs they started (R206). -/
structure Stw where
  set : StwSet := {}
  now : StwSet := {}
  patrolEn : Bool := true
  free : Free := .normal
  patrol : Patrol := .enabled
  wear : Bool := false
  gov : Nat := 0
  refused : Bool := false
  pool : Nat := 0
  ready : Nat := 0
  phi : Nat := 0
  invalid : Nat := 0
  victim : Nat := 262143
  buckets : Cnt := []
  plan : Plan := {}
  periodSeq : Nat := 0
  dropGroup : Nat := 0
  cycMax : Nat := 0
  cycMin : Nat := 0
  cycMean : Nat := 0
  allow : Nat := 0
  lastMin : Nat := 0
  lapStart : Nat := 0
  laps : Nat := 0
  patPos : Nat := 0
  patRow : Nat := 0
  patRead : Nat := 0
  patRescued : Nat := 0
  patSteps : Nat := 0
  lateDays : Nat := 0
  dramLapS : Nat := 0
  sramLapMs : Nat := 0
  held : Nat := 0
  rescue : List (Nat × Rescue) := []
  hotTab : Tab (List Nat) := []
  evac : Tab Nat := []
  evacRows : Cnt := []
  overdue : List Nat := []
  lapOver : Bool := false
  scrubAt : Nat × Nat := (0, 0)
  scrubT : Nat := 0
  sramAt : Nat := 0
  sramT : Nat := 0
  dropped : Cnt := []
  cnt : Cnt := []
  deriving DecidableEq, Repr

/-! ### Security (08_encryption_integrity.md) -/

/-- Key slot states (R240, R338). -/
inductive KSt where
  | empty | loaded | faulted
  deriving DecidableEq, Repr, Inhabited

/-- A media key slot (R213, R240). Role: 0 node, 1 current, 2 old, 3 none. -/
structure KSlot where
  st : KSt := .empty
  role : Nat := 3
  range : Nat := 127
  keyid : Nat := 0
  deriving DecidableEq, Repr, Inhabited

/-- One copy of a key record (R212): the key's identity with its bytes wrapped under the root key, and whether its unwrap check
passes. -/
structure KRec where
  keyid : Nat := 0
  wrapped : List Byte := []
  seq : Nat := 0
  empty : Bool := true
  ok : Bool := true
  deriving DecidableEq, Repr, Inhabited

/-- The two copies of a key record (R212). -/
structure KPair where
  a : KRec := {}
  b : KRec := {}
  deriving DecidableEq, Repr, Inhabited

/-- Range states (R220, R240). -/
inductive RangeSt where
  | closed | opn | rekeying | closing
  deriving DecidableEq, Repr, Inhabited

/-- A protected range (R220). `erase` is the next frond of an erasing walk (R222); `slots` the former slots it keeps. -/
structure Range where
  st : RangeSt := .closed
  base : Nat := 0
  last : Nat := 0
  engineRead : Bool := false
  lock : Bool := false
  faulted : Bool := false
  cur : Nat := 0
  old : Nat := 0
  boundary : Nat := 0
  former : List Nat := []
  rewriting : List Nat := []
  next : Nat := 0
  again : List Nat := []
  rewritten : Nat := 0
  started : Nat := 0
  endId : Nat := 0
  deriving DecidableEq, Repr, Inhabited

/-- Security's inline part (R210–R240). -/
structure Sec where
  slots : Tab KSlot := []
  cushKey : Nat := 0
  cushLoaded : Bool := false
  ranges : Tab Range := []
  ver : Nat := 0
  frozen : List Nat := []
  frozenSec : Nat := 0
  frozenRun : Nat := 0
  pidx : Tab (BitVec 64) := []
  povf : Bool := false
  transitCopy : Option (Tab (BitVec 64) × Bool) := none
  zeroRetry : List (Nat × Nat) := []
  retried : Cnt := []
  cnt : Cnt := []
  deriving DecidableEq, Repr

/-! ### Host port (09_host_port.md) -/

/-- States of a snoop-filter entry (R253). -/
inductive SfSt where
  | s | a
  deriving DecidableEq, Repr, Inhabited

/-- Decoder states (R264). -/
inductive DecSt where
  | uncommitted | claiming | committed | refused
  deriving DecidableEq, Repr, Inhabited

/-- An HDM decoder (R245, R264): host base, size and skip in bytes; the window base follows from them. `granted` are the
members that granted the claim; `waitBi` says a decommit waits for its BIRsps; `commitT` is when it began. -/
structure Dec where
  base : Nat := 0
  size : Nat := 0
  skip : Nat := 0
  bi : Bool := false
  lock : Bool := false
  st : DecSt := .uncommitted
  reason : Nat := 0
  peer : Nat := 31
  peerDec : Nat := 0
  waiting : List Nat := []
  release : Bool := false
  removed : Nat := 0
  startT : Nat := 0
  deriving DecidableEq, Repr, Inhabited

/-- A back-invalidate: a victim entry, an engine snoop by its ring frond, or a decommit's line (R249, R254, R256). -/
inductive BiWhy where
  | victim
  | engine (frond : Nat)
  | decommit (n : Nat)
  deriving DecidableEq, Repr

/-- One entry of the victim buffer or a waiting snoop (R254). -/
structure Bi where
  line : Nat
  why : BiWhy
  sent : Bool := false
  conflict : Bool := false
  deriving DecidableEq, Repr

/-- An IDE stream (R257): `skid` is its mode, else containment. -/
structure Ide where
  keyed : Bool := false
  skid : Bool := false
  insecure : Bool := false
  deriving DecidableEq, Repr, Inhabited

/-- The host port (R241–R264). `snpAsks` are the queries for engine reads not yet answered: asker, its tag, ring frond. -/
structure Hst where
  up : Bool := false
  width : Nat := 0
  rate : Nat := 0
  flit : Nat := 0
  perst : Bool := true
  ready : Bool := false
  memActive : Bool := false
  decs : Tab Dec := []
  wins : List (Win × WinSt) := []
  cdatSeq : Nat := 0
  cdatChanged : Bool := false
  sf : Tab (CacheSet SfSt) := []
  bis : List Bi := []
  snpAsks : List (Nat × Nat × Nat) := []
  credHeld : Bool := false
  heldSlice : Bool := false
  sfPeak : Nat := 0
  thHigh : Nat := 3584
  thLow : Nat := 3072
  ide : Tab Ide := []
  viral : Bool := false
  viralOn : Bool := false
  refusedSec : Nat := 0
  cnt : Cnt := []
  deriving DecidableEq, Repr

/-! ### What the node sends -/

/-- One slice of the CDAT (R252): DPA base and length in bytes, read and write latency in ns, bandwidth in GB/s. -/
structure CdatRow where
  base : Nat
  length : Nat
  latency : Nat
  bandwidth : Nat := 110
  deriving DecidableEq, Repr

/-- What the configuration space answers (R244): the CXL device, Flex Bus and GPF DVSECs, MSI-X, the two BARs. -/
structure CfgSpace where
  classCode : Nat := 0x0502
  memCapable : Bool := true
  ioCapable : Bool := true
  cacheCapable : Bool := false
  hdmCount : Nat := 1
  viralCapable : Bool := true
  viralEnable : Bool
  rangeSize : Nat
  memActiveTimeout : Nat := 2
  memActive : Bool
  componentRegs : Nat := 0
  deviceRegs : Nat := 0x10000
  flit256 : Bool := true
  latencyOptimized : Bool := true
  gpfPhase2Us : Nat := 1000
  gpfPhase2Mw : Nat := 0
  msixVectors : Nat := 16
  bar0Size : Nat := 0x10000
  bar2Size : Nat := 0x1000000
  serial : Nat
  deriving DecidableEq, Repr

/-- The body of a ring cell: one of this node's own, by its header fields and payload words (R273), or one in transit. -/
inductive CellBody where
  | own (type dst tag line : Nat) (ringB : Bool) (status devload : Nat) (poison : Bool) (epoch keyid seq : Nat)
      (payload : List Nat)
  | transit (type : Nat) (c : Cell)
  deriving DecidableEq, Repr

/-- What the node sends to the outside. -/
inductive Out where
  | data (tag : Nat) (d : Line) (poison : Bool) (devload : Nat)
  | ndr (tag : Nat) (devload : Nat)
  | cell (side : Side) (fold : Bool) (b : CellBody) (wire : List Byte)
  | linkCredits (side : Side) (req rsp ctl : Nat)
  | frame (type : Nat) (bytes : List Byte)
  | bisnp (line : Nat) (invalidate : Bool)
  | done (tr : Transport) (opcode rc : Nat) (payload : List Byte)
  | busy (tr : Transport) (progress : List Nat)
  | msix (vec : Nat)
  | ibi
  | config (tag : Nat) (space : Option CfgSpace)
  | cdat (seq : Nat) (slices : List CdatRow)
  | spdm
  | gpf (phase : Nat)
  | viral
  | conflictDone (line : Nat)
  | reg (off v : Nat)
  | dbg (a : Nat) (data : Option Line)
  deriving DecidableEq, Repr

/-! ### Ring (10_sirain_ring.md) -/

/-- Port states (R297). -/
inductive PortSt where
  | down | training | up | draining | disabled | pending
  deriving DecidableEq, Repr, Inhabited

/-- Ring states (R297). -/
inductive RingSt where
  | alone | forming | intact | folded | parted | heldOut
  deriving DecidableEq, Repr, Inhabited

/-- A cell waiting at an outbound port (R272, R275): whether it is in transit, its class, virtual channel (0 REQ, 1 RSP,
2 CTL) and length in 32-byte units, FOLD, and the cell. -/
structure QCell where
  transit : Bool
  cls : Nat
  vc : Nat
  units : Nat
  fold : Bool := false
  body : CellBody
  deriving DecidableEq, Repr

/-- A ring port (R266, R297). Of its link: the cells that wait to leave, whether the last C0 cell sent was in transit
(R272), the units sent on each virtual channel whose credits have not come back, and those of the receive space here that
are free again and not yet returned (R275). -/
structure RPort where
  st : PortSt := .down
  peer : Option Nat := none
  retrains : Nat := 0
  plug : Bool := false
  en : Bool := true
  wrapped : Bool := false
  fec : Nat := 0
  fecMs : Nat := 0
  rejoin : Bool := false
  q : List QCell := []
  c0Transit : Bool := false
  used : Cnt := []
  back : Cnt := []
  deriving DecidableEq, Repr, Inhabited

/-- A remote request outstanding at the requester (R277, R291); `limit` and `holdMs` are SRN_TMO as it stood when the request
was sent first (R36); `route` is the path of its last attempt. -/
structure Remote where
  tag : Nat
  hostTag : Nat
  addr : Nat
  wr : Option WrBody := none
  owner : Nat
  attempts : Nat := 1
  sent : Bool := true
  usedA : Nat := 0
  usedB : Nat := 0
  holding : Bool := false
  delayed : Bool := false
  waited : Bool := false
  route : Option (Bool × Nat) := none
  causes : List Nat := []
  slice : Nat := 0
  limit : Nat := 4
  holdMs : Nat := 200
  deriving DecidableEq, Repr

/-- State of the ring cipher per source and epoch (R278): highest SEQ accepted and those of the window below it. -/
structure SeqWin where
  high : Nat := 0
  seen : List Nat := []
  deriving DecidableEq, Repr, Inhabited

/-- Write credits this requester holds toward an owner, by ring (R276). -/
structure Cred where
  a : Nat := 16
  b : Nat := 16
  deriving DecidableEq, Repr, Inhabited

/-- Splice and leave progress (R286, R287): the joining index, the step reached, the members whose MARK on the ring that
drains has been seen. -/
structure SpliceSt where
  index : Nat
  step : Nat := 1
  marks : List Nat := []
  leaving : Bool := false
  startT : Nat := 0
  deriving DecidableEq, Repr

/-- The Sirain ring (R265–R297). Of the rhizoid line (R281): the frames that wait for it, the one this node is sending, and
when that one ends. -/
structure Srn where
  index : Nat := 0
  indexed : Bool := false
  ringId : Nat := 0
  ring : RingSt := .alone
  west : RPort := {}
  east : RPort := {}
  bypassA : Bool := true
  bypassB : Bool := true
  holder : Nat := 0
  members : Tab Member := []
  dead : List (Nat × Nat) := []
  splice : Option SpliceSt := none
  spliceQ : List Nat := []
  heldReason : Nat := 0
  epoch : Nat := 0
  keyid : Nat := 0
  prevEpoch : Option Nat := none
  newKey : Option (Nat × Nat) := none
  keyCause : Nat := 0
  acks : List Nat := []
  seqNext : Nat := 0
  seqs : Tab SeqWin := []
  sessions : List Nat := []
  remotes : List Remote := []
  nextTag : Nat := 0
  applied : List (Nat × Nat) := []
  creds : Tab Cred := []
  owed : Cnt := []
  presents : List Pres := []
  presenting : Bool := false
  coldT : Nat := 0
  coldOpen : Bool := false
  indexRetry : Bool := false
  cue : Bool := false
  rejoin : Bool := false
  retryUs : Nat := 20
  attempts : Nat := 4
  holdMs : Nat := 200
  authSec : Nat := 0
  rlq : List (Nat × List Nat) := []
  rlCur : Option (Nat × List Nat) := none
  rlEnd : Nat := 0
  cnt : Cnt := []
  deriving DecidableEq, Repr

/-! ### Operator engines (11_operator_engines.md) -/

/-- States of an engine or queue (R322, R324); `faulted` is an engine's alone. -/
inductive UnitSt where
  | disabled | draining | enabled | pending | faulted
  deriving DecidableEq, Repr, Inhabited

/-- An engine (R324): `chunk` is the admission entry and chunk number in progress. -/
structure Eng where
  en : Bool := true
  st : UnitSt := .enabled
  chunk : Option (Nat × Nat) := none
  chunks : Nat := 0
  deriving DecidableEq, Repr, Inhabited

/-- The fields of OPE_ADMIT and OPE_FAN that software sets (R324). -/
structure OpeSet where
  pct : Nat := 80
  minTicks : Nat := 100
  margin : Nat := 1000
  cells : Nat := 32
  deriving DecidableEq, Repr, Inhabited

/-- A task queue (R300, R324): `sets` is what OPE_ADMIT and OPE_FAN held when each entry was rung, by slot. -/
structure Tq where
  st : UnitSt := .enabled
  sets : Tab OpeSet := []
  tail : Nat := 0
  head : Nat := 0
  lastTag : Nat := 0
  lastReason : Nat := 0
  deriving DecidableEq, Repr, Inhabited

/-- A packet that waits for room (R319): its admission entry, whether it is the LAST one, whether its close raises the queue's
vector, its words. -/
structure QPkt where
  entry : Nat
  last : Bool
  msi : Bool := false
  words : List Nat
  deriving DecidableEq, Repr

/-- A result queue (R318–R324): `words` are the words from RD to WR. -/
structure Rq where
  st : UnitSt := .disabled
  spill : Bool := false
  pktDef : Nat := 512
  vec : Nat := 0
  baseMib : Nat := 0
  sizeMib : Nat := 1
  rd : Nat := 0
  words : List Nat := []
  waiting : List QPkt := []
  ce : Nat := 0
  ue : Nat := 0
  ueMask : Nat := 0
  deriving DecidableEq, Repr, Inhabited

/-- A sub-task sent to an owner (R312–R314): its cell payload for a retry, the cells received and those not yet credited,
the share's bytes and CRC. -/
structure Sub where
  owner : Nat
  tag : Nat
  payload : List Nat := []
  attempts : Nat := 1
  acked : Bool := false
  ended : Bool := false
  cells : Nat := 0
  uncred : Nat := 0
  bytes : Nat := 0
  crc : Nat := 0
  limit : Nat := 4
  deriving DecidableEq, Repr

/-- Aggregate group (R307). -/
structure Grp where
  n : Nat := 0
  sum : Nat := 0
  mn : Nat := 0
  mx : Nat := 0
  ovf : Bool := false
  deriving DecidableEq, Repr, Inhabited

/-- An admitted task or sub-task (R302, R308, R312). `sub` is the requester and cell tag of a peer's sub-task, `lo` and
`size` its local share, `refused` the ranges sampled with ENGINE_READ 0, `outq` the result cells that await credits. -/
structure Task where
  entry : Nat
  tq : Nat
  qw : List Nat
  sub : Option (Nat × Nat) := none
  gather : List (Nat × Nat) := []
  deadline : Nat
  lo : Nat := 0
  size : Nat := 0
  chunks : Nat := 0
  next : Nat := 0
  done : Nat := 0
  pseq : Nat := 0
  bytesLeft : Nat := 0
  refused : List Nat := []
  examined : Nat := 0
  result : Nat := 0
  crcs : Cnt := []
  groups : Tab Grp := []
  subs : List Sub := []
  tagWords : List Nat := []
  outq : List (List Nat) := []
  cellsSent : Nat := 0
  credits : Nat := 32
  lastSent : Bool := false
  deriving DecidableEq, Repr

/-- The operator engines (R298–R324). -/
structure Ope where
  eng : Tab Eng := []
  tq : Tab Tq := []
  slots : Cnt := []
  rq : Tab Rq := []
  tasks : List Task := []
  rr : Nat := 0
  scratch : List Host.Cell := []
  asking : List (Nat × Nat) := []
  askTries : Cnt := []
  set : OpeSet := {}
  refSec : Nat := 0
  lateSec : Nat := 0
  cnt : Cnt := []
  deriving DecidableEq, Repr

/-! ### Cipher engine (12_cipher_engine.md) -/

/-- A cipher key slot (R325, R338). -/
structure CSlot where
  st : KSt := .empty
  len : Nat := 0
  engine : Bool := false
  exportable : Bool := false
  persist : Bool := false
  keyid : Nat := 0
  key : List Byte := []
  deriving DecidableEq, Repr, Inhabited

/-- Who asked for a cipher request (R332). -/
inductive COrigin where
  | firmware
  | host (tr : Transport)
  | engine (entry : Nat)
  deriving DecidableEq, Repr

/-- A cipher request (R333) with its operands at hand; a started one holds its key (R327). -/
structure CReq where
  origin : COrigin
  qw : List Nat
  aad : List Byte := []
  msg : List Byte := []
  core : Option Nat := none
  key : List Byte := []
  deriving DecidableEq, Repr

/-- The cipher engine (R325–R338). -/
structure Cph where
  slots : Tab CSlot := []
  queue : List CReq := []
  coresOff : List Nat := []
  dummyMax : Nat := 7
  peak : Nat := 0
  failSec : Nat := 0
  cnt : Cnt := []
  deriving DecidableEq, Repr

/-! ### Mailboxes (13_mailbox_commands.md) -/

/-- The work a long-running command still has to do (R342, R343). -/
inductive Job where
  | release (next last : Nat) (first : Nat)
  | eraseRange (n next last : Nat)
  | shed (next : Nat) (top : Nat)
  | scratch (next last : Nat)
  | sanitize (full : Bool)
  | scan (next last : Nat) (whole : Bool)
  | transit (left : Mode) (step : Nat)
  | pstWrite (part row rows : Nat) (data : List Byte)
  | fwPart (slot off : Nat) (last : Bool) (data : List Byte) (progOk hashOk sigOk : Bool)
  | activate (slot : Nat)
  | zeroize (slot : Nat)
  | cipher
  | storeTest
  | rekeyGroup (epoch : Nat)
  | leave
  | rejoin
  | hold (rc : Nat)
  | mode (m : Mode)
  | mem (k n : Nat)
  | memDone (rc : Nat) (out : List Byte)
  deriving DecidableEq, Repr

/-- The running command (R340, R361). -/
structure Running where
  tr : Transport
  opcode : Nat
  job : Job
  startT : Nat
  unit : Nat := 0
  done : Nat := 0
  total : Nat := 0
  lost : Bool := false
  deriving DecidableEq, Repr

/-- A record (R382). -/
structure Rec where
  code : Nat
  sev : Nat
  flags : Nat := 0
  seq : Nat := 0
  time : Nat := 0
  p0 : Nat := 0
  p1 : Nat := 0
  p2 : Nat := 0
  p3 : Nat := 0
  deriving DecidableEq, Repr, Inhabited

/-- An entry of a CXL event log (R347): its handle and the node's record. -/
structure CxlEv where
  handle : Nat
  r : Rec
  deriving DecidableEq, Repr

/-- The management complex's mailboxes (R339–R361). -/
structure Mbx where
  run : Option Running := none
  progOpcode : Nat := 0
  progUnit : Nat := 0
  progPermille : Nat := 0
  progMs : Nat := 0
  progDone : Nat := 0
  progTotal : Nat := 0
  latched : Option (Nat × Nat) := none
  lastOpcode : Nat := 0
  lastRet : Nat := 0
  lastTr : Nat := 0
  lastLost : Bool := false
  lastMs : Nat := 0
  eid : Nat := 0
  i3cDa : Nat := 0
  residual : Int := 0
  warnLog : List CxlEv := []
  failLog : List CxlEv := []
  fatalLog : List CxlEv := []
  logOvf : Cnt := []
  ovfT : Tab (Nat × Nat) := []
  nextHandle : Nat := 1
  policy : List Nat := [0, 0, 0, 0]
  alertEn : Nat := 0
  alertTh : List Nat := [0, 0, 0, 0, 0]
  alertCross : Bool := false
  fwNext : Option (Nat × Nat) := none
  fwStaged : Nat := 0
  scanRes : Option (Nat × Nat × Tab (BitVec 64)) := none
  poisonNext : Option (Nat × Nat × Nat) := none
  bellA : Bool := false
  bellB : Bool := false
  pwFails : Nat := 0
  cnt : Cnt := []
  deriving DecidableEq, Repr

/-! ### Parameter store and boot flash (14_parameter_store_boot_flash.md) -/

/-- One physical copy of a row (R363). -/
structure PCopy where
  data : BitVec 256 := 0
  count : Nat := 0
  seq : Nat := 0
  commit : Bool := true
  ok : Bool := true
  fixes : Nat := 0
  deriving DecidableEq, Repr, Inhabited

/-- The two copies of a row (R363); from the factory copy A governs. -/
structure PRow where
  a : PCopy := { seq := 1 }
  b : PCopy := {}
  deriving DecidableEq, Repr, Inhabited

/-- A lifetime counter's slot (R370). -/
structure LifeSlot where
  value : Nat := 0
  seq : Nat := 0
  valid : Bool := true
  deriving DecidableEq, Repr, Inhabited

/-- The thermal trip record of partition 1 (R362, R366): what record 0xB004 says of the trip (log entry 94). -/
structure Trip where
  point : Nat
  temp : Nat
  headroom : Nat
  orderly : Bool
  deriving DecidableEq, Repr

/-- A firmware write waiting for the parameter store (R366), by the value it stores. -/
inductive FwWrite where
  | genLimit (v : Nat)
  | verLimit (v : Nat)
  | writeRefused (b : Bool)
  | patrol (nsb start : Nat)
  | ringIndex (index : Option Nat) (ringId : Nat)
  | life (i : Nat)
  | anchor (nsb : Nat)
  | patrolLap (lastMin laps : Nat)
  | marker (sector : Option Nat)
  | keyRec (slot : Nat) (r : KRec)
  | cphRec (slot : Nat) (r : KRec) (c : CSlot)
  | range (n : Nat) (r : Range)
  | mapLimit (v : Nat)
  | slotState (slot st : Nat)
  | preferred (slot : Nat)
  | minSec (v : Nat)
  | dieFailed (die : Nat) (d : Die)
  | store (cm esr em : Nat)
  | frozen (fs : List Nat)
  | trip (t : Trip)
  | host (part row : Nat) (data : BitVec 256)
  deriving DecidableEq, Repr

/-- What the node partitions of the parameter store hold (R362), as values. -/
structure Nv where
  genLimit : Nat := 0
  verLimit : Nat := 0
  writeRefused : Bool := false
  patPos : Nat := 0
  patStart : Nat := 0
  index : Option Nat := none
  ringId : Option Nat := none
  mapLimit : Nat := 4294967296
  anchor : Option Nat := none
  lastMin : Nat := 0
  laps : Nat := 0
  slot1 : Nat := 1
  slot2 : Nat := 0
  preferred : Nat := 1
  minSec : Nat := 0
  marker : Option Nat := none
  dies : Tab Die := []
  keys : Tab KPair := [(0, { a := { keyid := 1, wrapped := wrapKey 0 1, seq := 1, empty := false } }),
    (64, { a := { keyid := 2, wrapped := wrapKey 0 2, seq := 1, empty := false } })]
  ranges : Tab Range := []
  cphKeys : Tab KPair := []
  cphAttr : Tab CSlot := []
  frozen : List Nat := []
  cm : Nat := 0
  esr : Nat := 0
  em : Nat := 0
  trip : Option Trip := none
  lastImage : Nat := 0
  serial : Nat := 0
  deriving DecidableEq, Repr

/-- The parameter store (R362–R370, R381). -/
structure Pst where
  nv : Nv := {}
  rows : Tab PRow := []
  life : Tab LifeSlot := []
  fwq : List FwWrite := []
  writing : Bool := false
  worn : List Nat := []
  rpw : Tab (Option (BitVec 256)) := []
  wpw : Tab (Option (BitVec 256)) := []
  maxCount : Cnt := []
  writes : Cnt := []
  hostRow : Bool := false
  auxMv : Nat := 0
  holdUj : Nat := 0
  cnt : Cnt := []
  deriving DecidableEq, Repr

/-- The boot flash (R371–R381). Slot bytes and log bytes are the programmed bytes (unlisted: erased). -/
structure Bfl where
  img : List Host.Cell := []
  log : List Host.Cell := []
  wptr : Nat := 51380224
  wp : Bool := false
  supplyMv : Nat := 1800
  erasing : Option Nat := none
  suspended : Bool := false
  eraseQ : List Nat := []
  programming : Bool := false
  page : List Rec := []
  running : Nat := 0
  version1 : Nat := 0
  version2 : Nat := 0
  sec1 : Nat := 0
  sec2 : Nat := 0
  preferred : Nat := 0
  state1 : Nat := 0
  state2 : Nat := 0
  div : Nat := 2
  dummy : Nat := 8
  octal : Bool := false
  cnt : Cnt := []
  deriving DecidableEq, Repr

/-! ### Event recorder (15_event_recorder.md) -/

/-- A post waiting in the posting buffer (R385): its port is its code's subsystem. -/
structure Post where
  code : Nat
  sev : Nat
  p0 : Nat
  p1 : Nat
  p2 : Nat
  p3 : Nat
  summary : Bool := false
  deriving DecidableEq, Repr

/-- What a spore or a retained save keeps of the recorder (R390). -/
structure Flush where
  recs : List Rec := []
  next : Nat := 0
  prot : List Rec := []
  deriving DecidableEq, Repr

/-- The event recorder (R382–R401). -/
structure Evr where
  buf : List Post := []
  port : Nat := 0
  lostBefore : Bool := false
  log : Tab Rec := []
  seqNext : Nat := 0
  wrapped : Bool := false
  prot : List Rec := []
  protDropped : Nat := 0
  protFull : Bool := false
  corrupt : List Nat := []
  flashQ : List Rec := []
  flashSkipped : Nat := 0
  frozen : Bool := false
  hold : List Rec := []
  frozenLost : Nat := 0
  epochSet : Bool := false
  compatEn : Bool := false
  compatLimit : Nat := 16
  compatMs : Nat := 1000
  compatEnNow : Bool := false
  compatLimitNow : Nat := 16
  compatMsNow : Nat := 1000
  codes : List (Nat × Nat × Nat) := []
  bins : Cnt := []
  binsLast : Cnt := []
  ext : Cnt := []
  extLast : Cnt := []
  winStart : Nat := 0
  lastStart : Nat := 0
  lastLen : Nat := 0
  winMs : Nat := 1000
  winMsNow : Nat := 1000
  selCls : Nat := 0
  selLast : Bool := false
  rdSeq : Nat := 0
  prdIdx : Nat := 0
  cnt : Cnt := []
  deriving DecidableEq, Repr

/-! ### Modes, power, clocks, thermal (16_modes_startup.md, 17_power_clocks_thermal.md, 18_connectors_electrical.md) -/

/-- Where Unfurl stands (R409): before step 7, after it, ended and listening (R411). -/
inductive UnfurlSt where
  | booting | noBoot | loaded | listening | done
  deriving DecidableEq, Repr, Inhabited

/-- What a spore or a retained save keeps (R144, R420, R423). -/
structure Save where
  dir : Tab Slot := []
  sparse : Tab Mask := []
  gen : Nat := 0
  tail : List JRec := []
  rescue : List (Nat × Rescue) := []
  pidx : Tab (BitVec 64) := []
  povf : Bool := false
  bounds : Cnt := []
  blogBuf : List BRec := []
  flush : Flush := {}
  us : Nat := 0
  deriving DecidableEq, Repr

/-- A thermal point (R444): temperature in 10⁻⁹ °C from the measured rails alone (log entry 35), the RW threshold and the one in force, headroom (none: null). -/
structure ThPoint where
  t : Int := 55000000000
  th : Nat
  thNow : Nat
  headroom : Option Nat := none
  deriving DecidableEq, Repr

/-- A rail and its monitor (R431, R432): last 1 ms mean in mW, conversions of the running step. -/
structure Rail where
  mw : Nat := 0
  sum : Nat := 0
  n : Nat := 0
  failed : Bool := false
  deriving DecidableEq, Repr, Inhabited

/-- Store states (R442). -/
inductive StoreSt where
  | charging | healthy | derated | failed
  deriving DecidableEq, Repr, Inhabited

/-- Subsystem 11, the modes and the pins. -/
structure Pwr where
  mode : Mode := .unfurl
  prev : Mode := .held
  target : Option Mode := none
  source : Nat := 0
  armed : Bool := false
  modeT : Nat := 0
  trigT : Option Nat := none
  unfurl : UnfurlSt := .booting
  awake : Bool := false
  transitLeft : Option Mode := none
  retained : Option Save := none
  spore : Option Save := none
  dumping : Bool := false
  persistLost : Bool := false
  rerun : Option Bool := none
  div : Nat := 8
  rootLock : Bool := false
  hostLock : Bool := false
  ringWLock : Bool := false
  ringELock : Bool := false
  backup : Bool := false
  rails : Tab Rail := []
  lHost : Nat := 200
  lHostPend : Nat := 200
  lAuto : Nat := 200
  lEff : Nat := 200
  unmet : Bool := false
  pHist : List Nat := []
  v12 : Nat := 0
  v12Low : Bool := false
  vbank : Nat := 0
  em : Nat := 0
  store : StoreSt := .charging
  short : Bool := false
  testing : Nat := 0
  testT : Nat := 0
  testDue : Bool := false
  cm : Nat := 0
  esr : Nat := 0
  inlet : Int := 45
  airflow : Nat := 0
  hostSet : Bool := false
  points : List ThPoint := [{ th := 100, thNow := 100 }, { th := 85, thNow := 85 },
    { th := 75, thNow := 75 }, { th := 60, thNow := 60 }]
  rearmed : Bool := false
  tripPoint : Nat := 7
  hours : Nat := 0
  tripHeld : Option Trip := none
  stopping : Bool := false
  pwrCnt : Cnt := []
  thmCnt : Cnt := []
  nodeReset : Bool := false
  stepped : Bool := false
  mgmtReset : Bool := false
  deriving DecidableEq, Repr

/-! ### The whole -/

/-- The subsystems as they powered down: what their registers return until they are powered again (R34). -/
structure Dark where
  time : Nat
  ldg : Ldg
  map : FMap
  rp : RdPath
  csh : Csh
  med : Med
  stw : Stw
  sec : Sec
  hst : Hst
  srn : Srn
  ope : Ope
  cph : Cph
  pwr : Pwr
  deriving DecidableEq, Repr

/-- The device: everything but the queue. `rootKey` is the identity of the key in the fuses (R210); `out` holds what was sent,
latest first; `free` counts the free values drawn. -/
structure Dev where
  variant : Variant := .A
  rootKey : Nat := 0
  time : Nat := 0
  ldg : Ldg := {}
  map : FMap := {}
  rp : RdPath := {}
  csh : Csh := {}
  med : Med := {}
  stw : Stw := {}
  sec : Sec := {}
  hst : Hst := {}
  srn : Srn := {}
  ope : Ope := {}
  cph : Cph := {}
  mbx : Mbx := {}
  pst : Pst := {}
  bfl : Bfl := {}
  evr : Evr := {}
  pwr : Pwr := {}
  dark : Option Dark := none
  out : List Out := []
  free : Nat := 0
  deriving DecidableEq, Repr

/-- The block: the device and the queue of the commands that wait, first in, first out. -/
structure State where
  dev : Dev := {}
  pending : List Instr := []
  deriving DecidableEq, Repr

/-- The node at its departure from Held, from the factory: mode Unfurl (R428), every register at its Reset column (R14),
the queue empty. -/
def State.reset : State := { dev := {}, pending := [] }

end Sys2Proof.Machine
end

