-- ==== Sys2Proof/Machine/Ops.lean ====
section
/-! DEFINITION. Machine/Ops.lean: the operations every subsystem shares: outcomes, records (R382–R395), free values,
time, the predicates over modes, and the parameter store's firmware queue (R365, R366). -/

namespace Sys2Proof.Machine

/-- What a meaning answers. -/
abbrev Ans := Host.Outcome State Fault Refusal

/-- Every command of the node goes on: its effect is on the device, never on the queue. -/
def run (f : Dev → Dev) (s : State) : Ans := .next { s with dev := f s.dev }

/-- Puts something among what the node has sent. -/
def emit (o : Out) (d : Dev) : Dev := { d with out := o :: d.out }

/-- Draws a free value: no claim can know it (log entry 2). -/
def draw (d : Dev) : Nat × Dev := (Config.freeValue d.free, { d with free := d.free + 1 })

/-- Milliseconds of a tick count (R9). -/
def msOf (ticks : Nat) : Nat := ticks / 100000

/-- The slice a tick lies in (R58). -/
def sliceOf (t : Nat) : Nat := t / 100

/-- Moves TIME to the next multiple of n ticks (log entry 8). -/
def alignUp (n t : Nat) : Nat := (t / n + 1) * n

/-! ### Posting -/

/-- A subsystem posts a record (R385, R387): 240 common entries, 16 more for severity 4; a post that finds no entry is
dropped and counted. -/
def post (code sev p0 p1 p2 p3 : Nat) (d : Dev) : Dev :=
  let n := d.evr.buf.length
  if n < 240 ∨ (sev = 4 ∧ n < 256) then
    { d with evr.buf := d.evr.buf ++ [{ code, sev, p0 := p0 % 2 ^ 32, p1 := p1 % 2 ^ 32, p2 := p2 % 2 ^ 32, p3 := p3 % 2 ^ 32 }] }
  else { d with evr.cnt := bump d.evr.cnt 2, evr.lostBefore := true }

/-- Posts when a condition holds. -/
def postIf (b : Bool) (code sev p0 p1 p2 p3 : Nat) (d : Dev) : Dev := if b then post code sev p0 p1 p2 p3 d else d

/-! ### Modes -/

/-- Memory is served (R402): Service, Capped, Quiet, Dormant. -/
def Mode.serves : Mode → Bool
  | .service | .capped | .quiet | .dormant => true
  | _ => false

/-- Background periods run (R402). -/
def Mode.periods : Mode → Bool
  | .service | .capped | .quiet | .maintenance => true
  | _ => false

/-- Engines take tasks (R402). -/
def Mode.engines : Mode → Bool
  | .service | .capped => true
  | _ => false

/-- A member of its ring and forwarding (R402). -/
def Mode.ringOn : Mode → Bool
  | .splice | .recovery | .service | .capped | .quiet | .dormant | .transit | .maintenance => true
  | _ => false

/-- Media and DRAM are powered (R402; in Held only a retained save's self-refresh). -/
def Mode.media : Mode → Bool
  | .off | .held | .transit | .halt => false
  | _ => true

/-- Node firmware runs: every mode with the management cores powered (R402). -/
def Mode.firmware : Mode → Bool
  | .off | .held => false
  | _ => true

/-- The code of a mode (R354). -/
def Mode.code : Mode → Nat
  | .off => 0 | .held => 1 | .unfurl => 2 | .splice => 3 | .recovery => 4 | .service => 5 | .capped => 6
  | .quiet => 7 | .dormant => 8 | .transit => 9 | .maintenance => 10 | .halt => 11

/-- The mode of a code (R354). -/
def Mode.ofCode : Nat → Option Mode
  | 0 => some .off | 1 => some .held | 2 => some .unfurl | 3 => some .splice | 4 => some .recovery
  | 5 => some .service | 6 => some .capped | 7 => some .quiet | 8 => some .dormant | 9 => some .transit
  | 10 => some .maintenance | 11 => some .halt | _ => none

/-- Background periods run (R402), during an entry to Transit as in the mode it leaves (R417), and never while AUX_3V3
holds the management complex in reset (R439), nor once a dump has begun (R419). -/
def Dev.periodsOn (d : Dev) : Bool := (d.pwr.mode.periods || d.pwr.transitLeft.isSome) && !d.pwr.mgmtReset && !d.pwr.dumping

/-- The recorder accepts and the registers answer: the management cores, or at least the recorder, are powered. -/
def Dev.on (d : Dev) : Bool := d.pwr.mode.firmware && !d.pwr.mgmtReset

/-- TN-1640-M: no ring, no engines (R2, R4). -/
def Dev.isM (d : Dev) : Bool := d.variant = .M

/-- Number of engines (R2). -/
def Dev.engines (d : Dev) : Nat := match d.variant with
  | .A => 16
  | .B => 8
  | .M => 0

/-- A 1 MiB block of BAR2 takes register accesses (R4, R33, R34, R402): none while the node is in Off or Held; in Halt the
management complex, the recorder, and the power block alone; not the cushion and the media in Transit; not the management
complex while AUX holds it in reset (R434); the ring's and the engines' blocks are absent on TN-1640-M. -/
def blockOn (blk : Nat) (d : Dev) : Bool :=
  !(d.isM && (blk = 7 || blk = 8)) && !(d.pwr.mgmtReset && blk = 10) && (match d.pwr.mode with
    | .off | .held => false
    | .halt => blk = 10 || blk = 12 || blk = 14
    | .transit => d.pwr.transitLeft.isSome || !(blk = 2 || blk = 3)
    | _ => true)

/-- A register write acts only while its block is powered (R34). -/
def gate (blk : Nat) (f : Dev → Dev) (d : Dev) : Dev := if blockOn blk d then f d else d

/-- Subsystems power down: what their registers return from now on is what they hold now (R34); those already down keep theirs. -/
def darken (d : Dev) : Dev :=
  let old := d.dark
  { d with dark := some {
      time := d.time, ldg := d.ldg, map := d.map, stw := d.stw, sec := d.sec, hst := d.hst, srn := d.srn, ope := d.ope,
      cph := d.cph, rp := (old.map (·.rp)).getD d.rp, csh := (old.map (·.csh)).getD d.csh, med := (old.map (·.med)).getD d.med,
      pwr := (old.map (·.pwr)).getD d.pwr } }

/-- The device as the registers of a block show it (R34). -/
def lit (blk : Nat) (d : Dev) : Dev :=
  if blockOn blk d then d
  else match d.dark with
    | some k => { d with
        time := k.time, ldg := k.ldg, map := k.map, rp := k.rp, csh := k.csh, med := k.med, stw := k.stw, sec := k.sec, hst := k.hst,
        srn := k.srn, ope := k.ope, cph := k.cph, pwr := k.pwr }
    | none => d

/-! ### The recorder -/

/-- Flash-log pages are programmed eight records at a time (R389); the write pointer's sector must have been erased. -/
def flashCanStart (d : Dev) : Bool :=
  d.bfl.page.isEmpty && !d.bfl.programming && !d.evr.flashQ.isEmpty
  && !((d.bfl.erasing = some (d.bfl.wptr / 65536)) || d.bfl.eraseQ.contains (d.bfl.wptr / 65536))

/-- Starts the page program of the first eight queued records, suspending a running erase (R377, R389). -/
def flashStart (d : Dev) : Dev :=
  if flashCanStart d then
    { d with
      bfl.page := d.evr.flashQ.take 8
      bfl.programming := true
      bfl.suspended := d.bfl.erasing.isSome
      bfl.cnt := if d.bfl.erasing.isSome && !d.bfl.suspended then bump d.bfl.cnt 2 else d.bfl.cnt }
  else d

/-- The page program starts as soon as eight records wait (R389). -/
def flashKick (d : Dev) : Dev := if 8 ≤ d.evr.flashQ.length then flashStart d else d

/-- Puts a stamped record into its slot of the log (R386). -/
def logPut (r : Rec) (d : Dev) : Dev :=
  let k := r.seq % 65536
  let ovw := (tget d.evr.log k).code ≠ 0
  { d with
    evr.log := tset d.evr.log k r
    evr.corrupt := d.evr.corrupt.filter (· ≠ k)
    evr.wrapped := d.evr.wrapped || decide (r.seq % 2 ^ 32 = 65535) || decide ovw
    evr.cnt := if ovw then bump d.evr.cnt 1 else d.evr.cnt }

/-- The log thaws: held records enter it in sequence order (R394). -/
def thaw (d : Dev) : Dev :=
  if d.evr.frozen then
    let d := d.evr.hold.foldl (fun d r => logPut r d) d
    { d with evr.frozen := false, evr.hold := [] }
  else d

/-- The CXL event log of a severity (R347): 1 Warning, 2 Failure, 3 Fatal; each holds 1,024 records. -/
def cxlPut (sev : Nat) (r : Rec) (d : Dev) : Dev :=
  let e : CxlEv := { handle := d.mbx.nextHandle, r }
  let nh := if d.mbx.nextHandle = 65535 then 1 else d.mbx.nextHandle + 1
  let irq (d : Dev) := match d.mbx.policy[sev - 1]? with
    | some p => if p % 4 = 1 then emit (.msix (1 + sev)) d else d
    | none => d
  let ovf := { d with
    mbx.logOvf := bump d.mbx.logOvf (sev - 1)
    mbx.ovfT := tset d.mbx.ovfT (sev - 1) (if tget d.mbx.logOvf (sev - 1) = 0 then (r.time, r.time)
      else ((tget d.mbx.ovfT (sev - 1)).1, r.time)) }
  match sev with
  | 2 => if d.mbx.warnLog.length < 1024 then
      irq { d with mbx.warnLog := d.mbx.warnLog ++ [e], mbx.nextHandle := nh } else ovf
  | 3 => if d.mbx.failLog.length < 1024 then
      irq { d with mbx.failLog := d.mbx.failLog ++ [e], mbx.nextHandle := nh } else ovf
  | 4 => if d.mbx.fatalLog.length < 1024 then
      irq { d with mbx.fatalLog := d.mbx.fatalLog ++ [e], mbx.nextHandle := nh } else ovf
  | _ => d

/-- The CXL event log of a severity has room for a record (R347). -/
def cxlRoom (d : Dev) : Nat → Bool
  | 2 => decide (d.mbx.warnLog.length < 1024)
  | 3 => decide (d.mbx.failLog.length < 1024)
  | 4 => decide (d.mbx.fatalLog.length < 1024)
  | _ => false

/-- Acceptance of one post (R385, R388, R389, R394, R347): SEQ and TIME are stamped, a severity 4 record is copied into
the protected area, the CXL log and the flash queue take theirs, and the record enters the log or the hold buffer. -/
def acceptRec (p : Post) (d : Dev) : Dev :=
  let full := p.sev = 4 ∧ 1024 ≤ d.evr.prot.length
  let protd := p.sev = 4 ∧ d.evr.prot.length < 1024
  let flags := b2n (decide protd) + 4 * b2n (!d.evr.epochSet) + 8 * b2n (cxlRoom d p.sev)
    + 16 * b2n d.evr.lostBefore + 32 * b2n p.summary
  let r : Rec := { code := p.code, sev := p.sev, flags, seq := d.evr.seqNext, time := d.time,
                   p0 := p.p0, p1 := p.p1, p2 := p.p2, p3 := p.p3 }
  let d := { d with
    evr.seqNext := (d.evr.seqNext + 1) % 2 ^ 32
    evr.lostBefore := false
    evr.cnt := bump (if protd then bump d.evr.cnt 4 else d.evr.cnt) 0
    evr.prot := if protd then d.evr.prot ++ [r] else d.evr.prot
    evr.protDropped := d.evr.protDropped + b2n (decide full)
    evr.protFull := d.evr.protFull || decide full }
  let d := cxlPut p.sev r d
  let q := d.evr.flashQ.length
  let d := if p.sev = 3 ∨ p.sev = 4 ∨ p.code = 0xA006 then
      if q < 4032 ∨ (p.sev = 4 ∧ q < 4096) then flashKick { d with evr.flashQ := d.evr.flashQ ++ [r] }
      else { d with evr.flashSkipped := d.evr.flashSkipped + 1 }
    else d
  if d.evr.frozen then { d with evr.hold := d.evr.hold ++ [r] } else logPut r d

/-- The rate limit of R395 on one post: suppressed, or accepted with its code counted. -/
def compatPass (p : Post) (d : Dev) : Bool × Dev :=
  if d.evr.compatEnNow ∧ p.sev < 4 ∧ !p.summary then
    match d.evr.codes.find? (·.1 = p.code) with
    | some (_, n, _) =>
      if n < d.evr.compatLimitNow then
        (true, { d with evr.codes := updWhere d.evr.codes (·.1 = p.code) fun c => (c.1, c.2.1 + 1, c.2.2) })
      else
        (false, { d with
          evr.codes := updWhere d.evr.codes (·.1 = p.code) fun c => (c.1, c.2.1, c.2.2 + 1)
          evr.cnt := bump d.evr.cnt 3 })
    | none =>
      if d.evr.codes.length < 512 then (true, { d with evr.codes := d.evr.codes ++ [(p.code, 1, 0)] }) else (true, d)
  else (true, d)

/-- One post leaves the buffer: the rate limit, then the frozen log's rules (R394), then acceptance. The first record
not copied into a full protected area posts 0xA004. -/
def acceptPost (p : Post) (d : Dev) : Dev :=
  let (ok, d) := compatPass p d
  if !ok then d
  else if d.evr.frozen ∧ p.sev < 4 ∧ 4080 ≤ d.evr.hold.length then
    { d with evr.cnt := bump d.evr.cnt 2, evr.lostBefore := true, evr.frozenLost := d.evr.frozenLost + 1 }
  else
    let d := if d.evr.frozen ∧ p.sev = 4 ∧ 4096 ≤ d.evr.hold.length then
        post 0xA005 1 d.evr.hold.length d.evr.frozenLost 1 0 (thaw d) else d
    let was := d.evr.protFull
    let s := d.evr.seqNext
    let d := acceptRec p d
    if d.evr.protFull ∧ !was then post 0xA004 3 p.code s 0 0 d else d

/-- The port served next, round-robin from the last (R385), among the subsystems 1–11 that have posts waiting. -/
def nextPort (d : Dev) : Option Nat :=
  ((List.range 11).map fun i => (d.evr.port + i) % 11 + 1).find? fun q => d.evr.buf.any fun p => p.code / 4096 = q

/-- One acceptance (R385): the oldest post of the next port. -/
def acceptOne (d : Dev) : Dev :=
  match nextPort d with
  | none => d
  | some q =>
    match d.evr.buf.find? fun p => p.code / 4096 = q with
    | none => d
    | some p => acceptPost p { d with evr.buf := d.evr.buf.erase p, evr.port := q % 11 }

/-- Accepts everything that waits, as the recorder does in the cycles before a flush or a mode change is seen. -/
def acceptAll (d : Dev) : Dev := iter acceptOne (d.evr.buf.length + 2) d

/-- The recorder's flush (R390). -/
def flushOf (d : Dev) : Flush :=
  { recs := (sortBy (fun r => (r.seq + 2 ^ 32 - d.evr.seqNext) % 2 ^ 32) (d.evr.log.map (·.2))) ++ d.evr.hold,
    next := d.evr.seqNext, prot := d.evr.prot }

/-! ### The mode -/

/-- The duration in record 0x9030 (R427; log entry 41): of a start-up stage, else from the trigger of the transition (R405). -/
def changeMs (cause : Nat) (d : Dev) : Nat :=
  if cause = 5 then msOf (d.time - d.pwr.modeT) else msOf (d.time - d.pwr.trigT.getD d.time)

/-- The new mode, its record 0x9030 (R403), and the thaw that any change of mode makes (R394). Time in Dormant does not count
for a lap (R77). -/
def enterMode (m : Mode) (cause : Nat) (d : Dev) : Dev :=
  let ms := changeMs cause d
  let old := d.pwr.mode
  post 0x9030 0 old.code m.code cause ms (thaw { d with
    map.lap := if old = .dormant then d.map.lap.map fun l => { l with startT := l.startT + (d.time - d.pwr.modeT) } else d.map.lap
    pwr.mode := m
    pwr.prev := old
    pwr.target := none
    pwr.trigT := none
    pwr.modeT := d.time })

/-! ### The parameter store's firmware writes -/

/-- The two checks of R365. -/
def supplyOk (d : Dev) : Bool := decide (3135 ≤ d.pst.auxMv) && decide (1500 ≤ d.pst.holdUj)

/-- The partition a firmware write goes to (R362). -/
def FwWrite.part : FwWrite → Nat
  | .slotState .. | .preferred .. | .minSec .. | .marker .. => 0
  | .life .. | .trip .. => 1
  | .keyRec .. | .range .. | .verLimit .. | .frozen .. => 2
  | .cphRec .. => 3
  | .mapLimit .. | .anchor .. => 4
  | .genLimit .. => 5
  | .ringIndex .. => 6
  | .patrol .. | .writeRefused .. | .patrolLap .. => 7
  | .dieFailed .. => 8
  | .store .. => 9
  | .host p _ _ => p

/-- The winning slot of a lifetime counter (R370). -/
def lifeBest (l : Tab LifeSlot) (i : Nat) : Nat × LifeSlot :=
  (List.range 8).foldl (fun best k =>
    let x := tget l (8 * i + k)
    if x.valid ∧ (best.2.seq < x.seq ∨ !best.2.valid) then (k, x) else best) (0, tget l (8 * i))

/-- The value of a lifetime counter: the valid slot with the highest sequence, or 0 (R370). -/
def lifeValue (l : Tab LifeSlot) (i : Nat) : Nat :=
  let b := (lifeBest l i).2
  if b.valid then b.value else 0

/-- An increment (R370). -/
def lifeInc (l : Tab LifeSlot) (i : Nat) : Tab LifeSlot :=
  let (w, b) := lifeBest l i
  if b.valid then tset l (8 * i + (w + 1) % 8) { value := b.value + 1, seq := b.seq + 1, valid := true }
  else tset l (8 * i) { value := 1, seq := 1, valid := true }

/-- Copy b of a record pair governs (R212): valid, and of the higher 16-bit sequence where both are (log entry 86). -/
def KPair.second (p : KPair) : Bool :=
  p.b.ok && (!p.a.ok || (decide (p.a.seq ≠ p.b.seq) && decide ((p.b.seq + 65536 - p.a.seq) % 65536 < 32768)))

/-- The governing copy of a record pair (R212): none when both fail their unwrap check. -/
def KPair.gov (p : KPair) : Option KRec := if p.second then some p.b else if p.a.ok then some p.a else none

/-- A write goes to the copy that does not hold the latest valid record (R212). -/
def KPair.put (p : KPair) (r : KRec) : KPair := if p.second then { p with a := r } else { p with b := r }

/-- The 16-bit sequence of the next record of a pair (R212). -/
def KPair.next (p : KPair) : Nat := ((if p.second then p.b else p.a).seq + 1) % 65536

/-- A row of a host partition takes a new copy (R363). -/
def PRow.put (r : PRow) (data : BitVec 256) : PRow :=
  let aGov := r.a.commit && r.a.ok && !(r.b.commit && r.b.ok && decide (r.b.seq = (r.a.seq + 1) % 4))
  let g := if aGov then r.a else r.b
  let c : PCopy := { data, count := g.count + 1, seq := (g.seq + 1) % 4, commit := true, ok := true }
  if aGov then { r with b := c } else { r with a := c }

/-- The governing copy of a row (R363): none when no copy is committed and decodable. -/
def PRow.gov (r : PRow) : Option PCopy :=
  let a := r.a.commit && r.a.ok
  let b := r.b.commit && r.b.ok
  if a && b then (if r.b.seq = (r.a.seq + 1) % 4 then some r.b else some r.a)
  else if a then some r.a else if b then some r.b else none

/-- The stored value takes effect: the row's new copy is committed (R363, R366). -/
def fwCommit (w : FwWrite) (d : Dev) : Dev :=
  match w with
  | .genLimit v => { d with pst.nv.genLimit := v }
  | .verLimit v => { d with pst.nv.verLimit := v }
  | .writeRefused b => { d with pst.nv.writeRefused := b }
  | .patrol n s => { d with pst.nv.patPos := n, pst.nv.patStart := s }
  | .ringIndex i r => { d with pst.nv.index := i, pst.nv.ringId := some r }
  | .life i => { d with pst.life := lifeInc d.pst.life i }
  | .trip t => { d with pst.nv.trip := some t }
  | .marker s => { d with pst.nv.marker := s }
  | .keyRec k r => { d with pst.nv.keys := tmod d.pst.nv.keys k fun p => p.put r, sec.retried := tset d.sec.retried k 0 }
  | .cphRec k r c => { d with sec.retried := tset d.sec.retried (65 + k) 0, pst.nv.cphKeys := tmod d.pst.nv.cphKeys k fun p => p.put r, pst.nv.cphAttr := tset d.pst.nv.cphAttr k c }
  | .range n r => { d with pst.nv.ranges := tset d.pst.nv.ranges n r }
  | .mapLimit v => { d with pst.nv.mapLimit := v }
  | .anchor k => { d with pst.nv.anchor := some k }
  | .patrolLap m n => { d with pst.nv.lastMin := m, pst.nv.laps := n }
  | .slotState s v => if s = 1 then { d with pst.nv.slot1 := v, bfl.state1 := v } else { d with pst.nv.slot2 := v, bfl.state2 := v }
  | .preferred s => { d with pst.nv.preferred := s, bfl.preferred := s }
  | .minSec v => { d with pst.nv.minSec := v }
  | .dieFailed n x => { d with pst.nv.dies := tset d.pst.nv.dies n x }
  | .store c e m => { d with pst.nv.cm := c, pst.nv.esr := e, pst.nv.em := m }
  | .frozen fs => { d with pst.nv.frozen := fs }
  | .host p r b => { d with pst.rows := tmod d.pst.rows (1024 * p + r) fun x => x.put b }

/-- The value of its partition a write stores, and over how many rows in rotation (R212, R367, R370). -/
def FwWrite.ident : FwWrite → Nat × Nat
  | .slotState s _ => (s, 1)
  | .preferred _ => (0, 1)
  | .minSec _ => (3, 1)
  | .marker _ => (4, 8)
  | .life i => (i, 8)
  | .trip _ => (8, 1)
  | .keyRec k _ => (k, 2)
  | .range n _ => (256 + n, 1)
  | .verLimit _ => (512, 8)
  | .frozen _ => (513, 1)
  | .cphRec k _ _ => (k, 2)
  | .mapLimit _ => (0, 1)
  | .anchor _ => (1, 1)
  | .patrolLap _ _ => (2, 1)
  | .genLimit _ => (0, 8)
  | .ringIndex _ _ => (0, 1)
  | .patrol _ _ => (0, 8)
  | .writeRefused _ => (1, 1)
  | .dieFailed n _ => (n, 1)
  | .store _ _ _ => (0, 1)
  | .host _ r _ => (r, 1)

/-- A row write is counted; the write that brings a row to 1,000,000 completes and marks its partition WORN (R363, R367).
The rows of the node partitions are not given: free. -/
def fwWrite (w : FwWrite) (d : Dev) : Dev :=
  let (i, rot) := w.ident
  let d := fwCommit w d
  let k := 65536 * w.part + i
  let n := match w with
    | .host p r _ => ((tget d.pst.rows (1024 * p + r)).gov.getD {}).count
    | _ => (tget d.pst.writes k + 1 + (rot - 1)) / rot
  let d := { d with
    pst.cnt := bump d.pst.cnt 0
    pst.writes := bump d.pst.writes k
    pst.maxCount := peak d.pst.maxCount w.part n }
  if n < 1000000 ∨ w.part ∈ d.pst.worn then d
  else
    let (v, d) := draw { d with pst.worn := d.pst.worn ++ [w.part] }
    post 0x9011 (if 12 ≤ w.part then 1 else 3) w.part (if 12 ≤ w.part then i else v % 1020) n 0 d

/-- A refused row: counted, recorded, nothing written (R365). The node partitions' row numbers are not given: free. -/
def supplyLow (part row : Nat) (d : Dev) : Dev :=
  post 0x9012 1 part row d.pst.auxMv d.pst.holdUj { d with pst.cnt := bump d.pst.cnt 4 }

/-- A command that writes the store runs (R366). -/
def pstBusy (d : Dev) : Bool := match d.mbx.run with
  | some r => r.opcode = 0xC601 || r.opcode = 0xC602
  | none => false

/-- A write refused for its supply that firmware asks for again (R128, R212, R283); an erase whose marker was refused stays in the
erase queue (R378). -/
def fwRefused (w : FwWrite) (d : Dev) : Dev := match w with
  | .genLimit _ => { d with csh.genRetry := true }
  | .ringIndex _ _ => { d with srn.indexRetry := true }
  | .keyRec k _ => { d with sec.zeroRetry := d.sec.zeroRetry ++ [(0, k)] }
  | .cphRec k _ _ => { d with sec.zeroRetry := d.sec.zeroRetry ++ [(1, k)] }
  | _ => d

/-- The store writes one row at a time: the front of the queue starts when the checks pass and no command that writes
the store runs (R365, R366); a refused or WORN row leaves the queue. -/
def pstStart (d : Dev) : Dev :=
  match d.pst.fwq with
  | [] => d
  | w :: rest =>
    if d.pst.writing || pstBusy d then d
    else if w.part ∈ d.pst.worn then { d with pst.fwq := rest, pst.cnt := bump d.pst.cnt 5 }
    else if supplyOk d then { d with pst.writing := true }
    else
      let (v, d) := draw d
      fwRefused w (supplyLow w.part (v % 1020) { d with pst.fwq := rest })

/-- Node firmware requests a write (R366). -/
def fwPut (w : FwWrite) (d : Dev) : Dev := pstStart { d with pst.fwq := d.pst.fwq ++ [w] }

/-- The writes of an entry into Halt go in at once, after the row in progress (R366). -/
def fwNow (w : FwWrite) (d : Dev) : Dev :=
  if w.part ∈ d.pst.worn then { d with pst.cnt := bump d.pst.cnt 5 }
  else if supplyOk d then fwWrite w d
  else let (v, d) := draw d; supplyLow w.part (v % 1020) d

end Sys2Proof.Machine
end

