-- ==== Sys2Proof/Machine/Operands.lean ====
section
/-! DEFINITION. Machine/Operands.lean: the address chain (R21–R26, R67, R69, R116–R126, R148–R156), the packing of map
entries, and the arithmetic of the row code and the published checks (R152, R155, R216, R117). -/

namespace Sys2Proof.Machine

/-! ### Ring addresses (R23) -/

/-- Ring index [47:44]. -/
def addrIndex (a : Nat) : Nat := bits a 47 44
/-- Frond number [43:12]. -/
def addrFrond (a : Nat) : Nat := bits a 43 12
/-- Line in frond [11:6]. -/
def addrLine (a : Nat) : Nat := bits a 11 6
/-- The ring address of a line. -/
def ringAddr (index f l : Nat) : Nat := index * 2 ^ 44 + f * 4096 + l * 64
/-- DPA[43:6] of a line, the LINE field of a cell (R273). -/
def lineNo (f l : Nat) : Nat := f * 64 + l

/-! ### Media slots and rows (R24–R26) -/

/-- SLOT [32:28]. -/
def slotSorus (s : Nat) : Nat := bits s 32 28
/-- SLOT [27:17]. -/
def slotBlock (s : Nat) : Nat := bits s 27 17
/-- SLOT [16:7]. -/
def slotPage (s : Nat) : Nat := bits s 16 7
/-- SLOT [6:5]. -/
def slotPlane (s : Nat) : Nat := bits s 6 5
/-- SLOT [4:0]. -/
def slotSect (s : Nat) : Nat := bits s 4 0
/-- Row number r: SLOT [27:0] (R26). -/
def slotRow (s : Nat) : Nat := bits s 27 0
/-- A media slot from its fields (R24). -/
def mkSlot (sorus block page plane sect : Nat) : Nat := sorus * 2 ^ 28 + block * 2 ^ 17 + page * 128 + plane * 32 + sect
/-- Position of data sector s or parity sector 16 + k in row r (R26). -/
def posOf (r s : Nat) : Nat := (s + r) % 20
/-- Sector index standing at a position of row r: the inverse of R26. -/
def sectAt (r p : Nat) : Nat := (p + 20 - r % 20) % 20
/-- Data sector of a line (R26). -/
def lineSect (l : Nat) : Nat := l / 4
/-- Line part of a line (R26). -/
def linePart (l : Nat) : Nat := l % 4
/-- Lane of a sorus and plane (R149). -/
def laneOf (sorus plane : Nat) : Nat := 4 * sorus + plane
/-- Lane of a media slot. -/
def slotLane (s : Nat) : Nat := laneOf (slotSorus s) (slotPlane s)
/-- Channel of a position of a sorus (R26). -/
def chanOf (sorus p : Nat) : Nat := sorus / 16 * 20 + p
/-- Die number 16·c + d at a position of a lane (R175). -/
def laneDie (lane p : Nat) : Nat := 16 * chanOf (lane / 4) p + lane / 4 % 16
/-- Key of a sorus-block in the table of sorus-blocks. -/
def sbKey (lane b : Nat) : Nat := lane * 1344 + b
/-- Key of the sorus-block that holds a media slot. -/
def slotSb (s : Nat) : Nat := sbKey (slotLane s) (slotBlock s)
/-- Index of a row inside its sorus-block, 0–32,767. -/
def slotIn (s : Nat) : Nat := slotPage s * 32 + slotSect s
/-- The media slot of row k of a page of a sorus-block. -/
def sbSlot (key page k : Nat) : Nat := mkSlot (key / 1344 / 4) (key % 1344) page (key / 1344 % 4) k
/-- Key of a physical plane-block (R158). -/
def pbKey (die plane n : Nat) : Nat := (die * 4 + plane) * 1344 + n
/-- The plane-block serving sorus-block b of a lane at position p: the substitute when one is named (R156). -/
def serving (m : Med) (lane b p : Nat) : Nat :=
  let k := pbKey (laneDie lane p) (lane % 4) b
  pbKey (laneDie lane p) (lane % 4) ((tget m.pb k).subst.getD b)

/-! ### Map entries (R64–R67) -/

/-- An entry as its 40 bits (R64). -/
def Entry.pack (e : Entry) : Nat :=
  e.slot % 2 ^ 33 + 2 ^ 33 * b2n e.v + 2 ^ 34 * b2n e.z + 2 ^ 35 * b2n e.c + 2 ^ 36 * b2n e.s + 2 ^ 37 * b2n e.p
    + 2 ^ 38 * (e.rsv % 4)

/-- The entry in 40 bits (R64). -/
def Entry.unpack (v : Nat) : Entry :=
  { slot := bits v 32 0, v := bit v 33, z := bit v 34, c := bit v 35, s := bit v 36, p := bit v 37, rsv := bits v 39 38 }

/-- The forms of R65. -/
inductive Form where
  | released | relCushion | relPoison | media | mediaCushion | mediaPoison | frondWide | bad
  deriving DecidableEq, Repr

/-- The form of an entry (R65), `bad` when it matches none, R25 and nonzero reserved bits included (R66). -/
def Entry.form (e : Entry) : Form :=
  if e.rsv ≠ 0 then .bad
  else if e.v && e.z then .bad
  else if e.z then
    if e.slot ≠ 0 || e.s then .bad
    else if e.p then (if e.c then .relPoison else .bad)
    else if e.c then .relCushion else .released
  else if e.v then
    if 1344 ≤ slotBlock e.slot then .bad
    else if e.p then .mediaPoison
    else if e.s && !e.c then .bad
    else if e.c then .mediaCushion else .media
  else if e.p && e.slot = 0 then .frondWide
  else .bad

/-- The entry with C and S ignored, as the conditional updates compare it (R73). -/
def Entry.core (e : Entry) : Entry := { e with c := false, s := false }

/-- The Frond-wide poison form (R65). -/
def frondWide : Entry := { slot := 0, v := false, z := false, p := true }

/-- Map line and entry of a frond (R67). -/
def mapLine (f : Nat) : Nat := f / 12
/-- Entry number of a frond in its line (R67). -/
def mapEnt (f : Nat) : Nat := f % 12
/-- A map line's twelve fronds; the last line has four (R67). -/
def lineFronds (m : Nat) : List Nat := (List.range 12).filterMap fun k => if 12 * m + k < 2 ^ 32 then some (12 * m + k) else none

/-- Channels of a map line and of its refresh parity (R120). -/
def mapChan (m : Nat) : Nat × Nat :=
  let q := m / 2
  let j := q % 4
  let rho := q / 4 % 3
  (3 * j + (m % 2 + rho) % 3, 3 * j + (2 + rho) % 3)

/-- Byte offset of a map line, and of its refresh parity, from the map's base in its channel (R120). -/
def mapOffset (m : Nat) : Nat := 64 * (m / 2 / 4)
/-- The other line of a map line's pair (R120). -/
def mapPartner (m : Nat) : Nat := if m % 2 = 0 then m + 1 else m - 1
/-- The mirror pair of a journal-tail record and its line within that pair's part of the tail: four records a line, line n
in pair n mod 6 (R74, R118). -/
def tailPlace (rec : Nat) : Nat × Nat := (rec / 4 % 6, rec / 4 / 6)

/-! ### Cushion placement (R122, R125, R126) -/

/-- Mirror pair of a frond. -/
def cushPair (f : Nat) : Nat := f % 6
/-- Directory set of a frond. -/
def cushSet (f : Nat) : Nat := f / 6 % 65536
/-- Tag of a frond. -/
def cushTag (f : Nat) : Nat := f / 393216
/-- Key of way w of a frond's set. -/
def cushKeyOf (f w : Nat) : Nat := cushPair f * 2 ^ 20 + 16 * cushSet f + w
/-- First key of the overflow directory. -/
def ovfBase : Nat := 6 * 2 ^ 20
/-- Pair and slot index of a slot key (R122, R125). -/
def slotPlace (k : Nat) : Nat × Nat :=
  if k < ovfBase then (k / 2 ^ 20, k % 2 ^ 20) else ((k - ovfBase) % 6, 1048576 + (k - ovfBase) / 6)
/-- Byte offset of a line of a slot in the cushion area of both channels of its pair (R122). -/
def cushOffset (k l : Nat) : Nat := 4096 * (slotPlace k).2 + 64 * l
/-- Set of a line in the sparse table (R126). -/
def sparseSet (f l : Nat) : Nat := f % 1024 * 64 + l
/-- First key of the sparse overflow. -/
def sparseOvf : Nat := 2 ^ 20

/-! ### Checks (R117, R152, R155, R216) -/

/-- Odd-parity check bit of a byte: set when its bits hold an even number of ones (R117). -/
def checkBit (b : Byte) : Bool := popBits b 8 % 2 = 0

/-- The 64 check bits of a line, bit i over byte i (R117). -/
def lineChk (l : Line) : BitVec 64 :=
  (List.range 64).foldl (fun m i => setBit m i (checkBit (BitVec.ofNat 8 (l.toNat / 256 ^ i)))) 0

/-- Bytes of a line as DRAM holds it whose check bit fails (R117). -/
def chkFail (l : Line) (chk : BitVec 64) : BitVec 64 := lineChk l ^^^ chk

/-- CRC, most significant bit first, over a list of bytes: HCRC of R152 with polynomial 0x1021 and initial 0xFFFF. -/
def crc16 (bs : List Byte) : Nat :=
  bs.foldl (fun c b => iter (fun c => if 32768 ≤ c then (c * 2 % 65536) ^^^ 0x1021 else c * 2) 8 (c ^^^ (b.toNat * 256))) 0xFFFF

/-- CRC-32C (R216): Castagnoli, reflected, initial and final value all ones. -/
def crc32c (bs : List Byte) : Nat :=
  (bs.foldl (fun c b => iter (fun c => if c % 2 = 1 then c / 2 ^^^ 0x82F63B78 else c / 2) 8 (c ^^^ b.toNat)) 0xFFFFFFFF)
    ^^^ 0xFFFFFFFF

/-- CRC-8 of a rhizoid frame (R282): polynomial 0x07, initial 0. -/
def crc8 (bs : List Byte) : Nat :=
  bs.foldl (fun c b => iter (fun c => if 128 ≤ c then (c * 2 % 256) ^^^ 0x07 else c * 2) 8 (c ^^^ b.toNat)) 0

/-- Multiplication in GF(2^16) modulo 0x1100B (R155). -/
def gmul (a b : Nat) : Nat :=
  ((List.range 16).foldl (fun x i =>
    let acc := if bit b (15 - i) then (fun v => v ^^^ a) else id
    let sh := x * 2
    acc (if 65536 ≤ sh then sh ^^^ 0x1100B else sh)) 0)

/-- Inverse in GF(2^16): a^(2^16 − 2). -/
def ginv (a : Nat) : Nat :=
  (iter (fun x => (gmul x.1 x.1, gmul x.2 (gmul x.1 x.1))) 15 (a, 1)).2

/-- Entry of the Cauchy part of the generator matrix (R155). -/
def qMat (i k : Nat) : Nat := ginv (16 ^^^ (i ^^^ k))

/-- Parity symbol k of a column of sixteen data symbols (R155). -/
def paritySym (k : Nat) (col : List Nat) : Nat :=
  (List.range 16).foldl (fun a i => a ^^^ gmul (qMat i k) (col.getD i 0)) 0

/-- Whether e errors and f erasures are within the row code (R107, R155). -/
def rsOk (e f : Nat) : Bool := decide (2 * e + f ≤ 4)

/-- The sixteen header bytes of a data sector (R152). -/
def headerOf (row : Row) (sindex : Nat) : List Byte :=
  let kind := match row.kind with
    | .host => 0 | .image => 1 | .journal => 2 | .anchor => 3 | .spore => 4 | .blog => 5 | .filler => 6
  let lp := bits row.lpoison.toNat (4 * sindex + 3) (4 * sindex)
  let v := row.frond % 2 ^ 32 + row.version % 2 ^ 56 * 2 ^ 32 + sindex % 32 * 2 ^ 88 + row.kslot % 64 * 2 ^ 93
    + lp * 2 ^ 99 + kind * 2 ^ 103 + b2n row.moved * 2 ^ 106
  let bs := toLe 14 v
  bs ++ toLe 2 (crc16 bs)

/-- The read-around sources (R97): free positions other than the target, parity dropped first P3 down, then data from the
highest sector index down, until sixteen remain. -/
def sources (r target : Nat) (busy : BitVec 20) : BitVec 20 :=
  let free := (List.range 20).filter fun s => !(busy.getLsbD (posOf r s)) && decide (posOf r s ≠ target)
  (free.take 16).foldl (fun m s => setBit m (posOf r s) true) 0

/-- Free positions besides the target (R98). -/
def freeCount (target : Nat) (busy : BitVec 20) : Nat :=
  ((List.range 20).filter fun p => !(busy.getLsbD p) && decide (p ≠ target)).length

/-! ### The bins of R397 -/

/-- The histogram bin of a value in cc. -/
def binOf (v : Nat) : Nat :=
  if v < 480 then v / 10
  else if 15728640 ≤ v then 63
  else 48 + ((List.range 15).filter fun k => decide (480 * 2 ^ (k + 1) ≤ v)).length

end Sys2Proof.Machine
end

