-- ==== Sys2Proof/Machine/Flags.lean ====
section
/-! DEFINITION. Machine/Flags.lean: what the node computes from its state and shows as a level, a state or a mask: slots
in use, guards and admission (R133–R138), DevLoad (R59), free space (R190–R192), ring state and paths (R269, R289),
busy planes (R92, R163), the four-busy rule. -/

namespace Sys2Proof.Machine

/-! ### Cushion -/

/-- A slot is matched and counted: Open or Sealed (R123, R124). -/
def Slot.held (s : Slot) : Bool := s.st = .opn || s.st = .sealed

/-- Allocated slots, main and overflow (R133, CSH_OCC_SLOTS). -/
def occ (d : Dev) : Nat := (d.csh.dir.filter fun x => x.2.held).length

/-- Overflow directory entries in use. -/
def occOvf (d : Dev) : Nat := (d.csh.dir.filter fun x => decide (ovfBase ≤ x.1) && decide (x.2.st ≠ .free)).length

/-- Sparse entries in use, overflow included. -/
def occSparse (d : Dev) : Nat := d.csh.sparse.length

/-- Sparse overflow entries in use. -/
def occSparseOvf (d : Dev) : Nat := (d.csh.sparse.filter fun x => decide (sparseOvf ≤ x.1)).length

/-- The write-queue guard: every channel's queue holds fewer than 512 lines (R133). -/
def wqGuard (d : Dev) : Bool := d.csh.wq.all fun x => decide (x.2 < 512)

/-- The guards that fail, in R133's row order, bit 0 the first row. -/
def guardMask (d : Dev) : Nat :=
  b2n (decide (d.csh.hw ≤ occ d)) + 2 * b2n (decide (7168 ≤ occOvf d)) + 4 * b2n (decide (7168 ≤ occSparseOvf d))
  + 8 * b2n (!wqGuard d) + 16 * b2n (decide (d.pst.nv.genLimit ≤ d.csh.gen + 2 ^ 20)) + 32 * b2n (decide (d.csh.d < occ d))

/-- The admission state, the first row of R135 that holds: 4 Exhausted-full, 3 Draining, 1 Withholding, 2 Paced, 0 Open. -/
def admitState (d : Dev) : Nat :=
  if d.stw.free = .exhausted ∧ d.csh.hw ≤ occ d then 4
  else if d.csh.d < occ d then 3
  else if guardMask d ≠ 0 then 1
  else if d.stw.free = .critical then 2
  else 0

/-- Whether a write credit may be returned now (R135). -/
def creditOk (d : Dev) : Bool :=
  match admitState d with
  | 0 => true
  | 2 => decide (0 < d.csh.pace)
  | 4 => wqGuard d
  | _ => false

/-- Dumpable capacity in slots for an energy in 0.01 J (R134): the usable energy less 4 J, at 0.45 J per GiB, rounded
down to half a GiB, at most 24 GiB. -/
def dumpable (em : Nat) : Nat :=
  -- 0.8 em − 5 J − 4 J, in 0.001 J; one half GiB costs 0.225 J
  min 48 ((8 * em - 9000) / 225) * 131072

/-- High-water in slots (R134). -/
def highWater (dSlots pct : Nat) : Nat := dSlots * pct / 100

/-- Energy of a dump of an occupancy in 0.01 J, rounded up: 4 J and 0.45 J per GiB (R144). -/
def dumpNeed (slots : Nat) : Nat := 400 + (45 * slots + 262143) / 262144

/-- The destage floor level (R138): 0 Low, 1 Mid, 2 High, 3 Drain. -/
def floorLevel (d : Dev) : Nat :=
  let o := occ d
  if d.csh.emptying then 3
  else if o = 0 then 0
  else if d.csh.d < o then 3
  else if d.csh.hw ≤ o then 2
  else if d.csh.hw ≤ 2 * o then 1
  else 0

/-- The floor in program sets of the level in force (R138). -/
def floorSets (d : Dev) : Nat :=
  match floorLevel d with
  | 0 => d.csh.fLowNow
  | 1 => d.csh.fMidNow
  | 2 => d.csh.fHighNow
  | _ => d.csh.fDrainNow

/-! ### Ledger -/

/-- The DevLoad level for the next slice (R59): the highest whose condition holds. -/
def devloadOf (d : Dev) : Nat :=
  let u := d.ldg.runB0 + 2 * d.ldg.runW + d.ldg.runF
  let o := occ d
  let oAt (p : Nat) : Bool := if d.csh.d = 0 then decide (0 < o) else decide (p * d.csh.d ≤ 100 * o)
  if d.ldg.guardFailed || d.csh.withholding || guardMask d ≠ 0 || d.hst.heldSlice || d.hst.credHeld
      || d.stw.free = .critical || d.stw.free = .exhausted
      || d.ldg.noCredit || decide (d.ldg.envNow < u) then 3
  else if decide (9600 * d.ldg.uModNow ≤ 100 * u) || oAt d.ldg.oModNow || d.stw.free = .lean then 2
  else if decide (9600 * d.ldg.uOptNow ≤ 100 * u) || oAt d.ldg.oOptNow then 1
  else 0

/-- The running slice misses the envelope (R55, R56). -/
def envMissed (d : Dev) : Bool :=
  d.ldg.noCredit || decide (d.ldg.envNow < d.ldg.runB0 + 2 * d.ldg.runW + d.ldg.runF)

/-! ### Free space -/

/-- The free-space state at a period start (R191), from N_ready, φ in basis points and I. -/
def freeState (old : Free) (reserve crit critExit lean leanExit nReady phi inv : Nat) : Free :=
  if (nReady ≤ reserve ∧ inv < 32768) ∨ (old = .exhausted ∧ nReady ≤ reserve + 32 ∧ inv < 65536) then .exhausted
  else if phi < crit ∨ ((old = .critical ∨ old = .exhausted) ∧ phi < critExit) then .critical
  else if phi < lean ∨ (old ≠ .normal ∧ phi < leanExit) then .lean
  else .normal

/-! ### Media -/

/-- A FAILED die counts as busy in each of its lanes (R163, R172). -/
def dieFailed (d : Dev) (lane p : Nat) : Bool := (tget d.med.dies (laneDie lane p)).failed

/-- Busy positions of a lane: running, suspended or stalled operations and FAILED dies (R92, R163). -/
def busyMask (d : Dev) (lane : Nat) : BitVec 20 :=
  (List.range 20).foldl (fun m p =>
    if dieFailed d lane p || d.med.ops.any fun o => o.lane = lane && o.pos = p then setBit m p true else m) 0

/-- Number of busy positions of a lane. -/
def busyCount (d : Dev) (lane : Nat) : Nat := popBits (busyMask d lane) 20

/-- Busy planes, suspended and stalled included (MED_BUSY_NOW). -/
def busyNow (d : Dev) : Nat := d.med.ops.length

/-- A lane with a FAILED die is Read-only (R165, R172). -/
def readOnlyLane (d : Dev) (lane : Nat) : Bool := (List.range 20).any fun p => dieFailed d lane p

/-- Positions of a lane with a suspended operation. -/
def suspMask (d : Dev) (lane : Nat) : BitVec 20 :=
  (List.range 20).foldl (fun m p =>
    if d.med.ops.any fun o => o.lane = lane && o.pos = p && o.suspended then setBit m p true else m) 0

/-- A position of a lane is pinned by a read (R93). -/
def pinnedAt (d : Dev) (lane p : Nat) : Bool :=
  d.rp.reqs.any fun r => r.pinned && slotLane r.entry.slot = lane && r.src.getLsbD p

/-! ### Ring -/

/-- Indexes of the Live members, in eastward order of position. -/
def liveOrder (d : Dev) : List Nat :=
  (sortBy (fun x => x.2.pos) (d.srn.members.filter fun x => x.2.st = .live)).map (·.1)

/-- The walk eastward from this node, leaving or not: the other Live members in order (R266, R269). -/
def eastWalk (d : Dev) : List Nat :=
  let o := (sortBy (fun x => x.2.pos) (d.srn.members.filter fun x =>
    decide (x.2.st = .live) || (decide (x.1 = d.srn.index) && decide (x.2.st = .leaving)))).map (·.1)
  let me := d.srn.index
  (o.dropWhile (· ≠ me)).drop 1 ++ o.takeWhile (· ≠ me)

/-- Whether the link between two neighbours is dead. -/
def deadLink (d : Dev) (a b : Nat) : Bool := d.srn.dead.any fun x => x = (a, b) || x = (b, a)

/-- Hops along a walk to a member, none when the walk crosses a dead link first or never meets it. -/
def hopsAlong (d : Dev) (dst : Nat) : Nat → List Nat → Nat → Option Nat
  | _, [], _ => none
  | at_, n :: rest, h =>
    if deadLink d at_ n then none
    else if n = dst then some (h + 1)
    else hopsAlong d dst n rest (h + 1)

/-- The one ring that a splice or leave routes new cells on (R286 steps 1 and 4, R287): ring B first, then ring A. -/
def spliceRing (d : Dev) : Option Bool := d.srn.splice.bind fun sp =>
  if sp.step ≤ 3 then some true else if sp.step ≤ 6 then some false else none

/-- The path to a member (R269): fewest links, ring A on a tie; (is it ring B, h). None: unreachable. A port that drains
or is disabled is routed away from (R294), as is the ring that a splice drains. -/
def pathTo (d : Dev) (dst : Nat) : Option (Bool × Nat) :=
  let shut (p : RPort) : Bool := p.st = .draining || p.st = .pending
  let e := if spliceRing d = some true || shut d.srn.east then none else hopsAlong d dst d.srn.index (eastWalk d) 0
  let w := if spliceRing d = some false || shut d.srn.west then none
    else hopsAlong d dst d.srn.index (eastWalk d).reverse 0
  match e, w with
  | some a, some b => if b < a then some (true, b) else some (false, a)
  | some a, none => some (false, a)
  | none, some b => some (true, b)
  | none, none => none

/-- This node is a Live member of a ring. -/
def isMember (d : Dev) : Bool := (tget d.srn.members d.srn.index).st = .live && d.pwr.mode.ringOn && !d.isM

/-- The ring's state from its dead links (R289). -/
def ringFromDead (n : Nat) : RingSt := if n = 0 then .intact else if n = 1 then .folded else .parted

/-- Live members. -/
def liveCount (d : Dev) : Nat := (liveOrder d).length

/-- The key holder: the Live member with the lowest index (R279). -/
def holderOf (d : Dev) : Nat := (tkeys d.srn.members fun m => m.st = .live).headD 0

/-- The deputy: the next lowest (R279). -/
def deputyOf (d : Dev) : Option Nat := (tkeys d.srn.members fun m => m.st = .live)[1]?

/-! ### Protected ranges -/

/-- The non-Closed range a frond lies in (R220). -/
def rangeOf (d : Dev) (f : Nat) : Option (Nat × Range) :=
  tfind d.sec.ranges fun _ r => decide (r.st ≠ .closed) && decide (r.base ≤ f) && decide (f ≤ r.last)

/-- A media key slot holds a key. -/
def slotLoaded (d : Dev) (k : Nat) : Bool := (tget d.sec.slots k).st = .loaded

/-- The slots whose KSLOT a line of the frond may carry (R220); while an erase runs, slot 0 or either former slot (R222). -/
def okSlots (d : Dev) (f : Nat) : List Nat :=
  match rangeOf d f with
  | none => [0]
  | some (_, r) => match r.st with
    | .rekeying | .closing => r.cur :: r.old :: r.former
    | _ => [r.cur]

/-- The key check of R94: the row's slot is one the range holds and the key in it is the one that enciphered the row. -/
def keyOk (d : Dev) (f : Nat) (row : Row) : Bool :=
  decide (row.kslot ∈ okSlots d f) && slotLoaded d row.kslot && decide ((tget d.sec.slots row.kslot).keyid = row.keyid)

end Sys2Proof.Machine
end

