-- ==== Sys2Proof/Machine/Sector.lean ====
section
/-! DEFINITION. Machine/Sector.lean: what the medium holds of a row: the enciphered lines (R215), the bytes of its data and
parity sectors (R151–R155), the parts a line read moves (R96), and the erasure decode of a read-around (R99). -/

namespace Sys2Proof.Machine

/-- The byte-valid mask of a line of a frond (R126). -/
def sparseMaskOf (d : Dev) (f l : Nat) : BitVec 64 :=
  ((d.csh.sparse.find? fun x => decide (x.2.frond = f) && decide (x.2.line = l)).map (·.2.mask)).getD 0

/-- KIND of a row (R153). -/
def kindCode : Kind → Nat
  | .host => 0 | .image => 1 | .journal => 2 | .anchor => 3 | .spore => 4 | .blog => 5 | .filler => 6

/-- The 96-bit IV of a line of a row (R215). -/
def rowIv (row : Row) (l : Nat) : Nat :=
  ((row.frond % 2 ^ 32 * 2 ^ 56 + row.version % 2 ^ 56) * 2 ^ 6 + l) * 4 + b2n (decide (row.kind ≠ .host))

/-- The 48-bit AAD of a line (R215): the ring address under a ring index for a host row. -/
def rowAad (row : Row) (index l : Nat) : Nat :=
  if row.kind = .host then ringAddr index (row.frond % 2 ^ 32) l
  else kindCode row.kind * 2 ^ 45 + row.frond % 2 ^ 32 * 4096 + l * 64

/-- The keystream of a line of a row under a key; a filler row is not encrypted (R215). -/
def rowStream (keyid : Nat) (row : Row) (l : Nat) : Line := if row.kind = .filler then 0 else gcmStream keyid (rowIv row l)

/-- The row as Security hands it to the media engine: `lines` in plaintext become ciphertext under the row's key (R215). -/
def rowSeal (row : Row) : Row :=
  { row with lines := (List.range 64).foldl (fun t l => tset t l (tget row.lines l ^^^ rowStream row.keyid row l)) [] }

/-- The plaintext of a line of a row from its ciphertext, under the key the row's slot holds now. -/
def rowOpen (d : Dev) (row : Row) (l : Nat) (ct : Line) : Line :=
  ct ^^^ rowStream (tget d.sec.slots row.kslot).keyid row l

/-- The plaintext of a line of a row. -/
def rowPlain (d : Dev) (row : Row) (l : Nat) : Line := rowOpen d row l (tget row.lines l)

/-- The stored tag of a line: the first eight bytes of the GCM tag over its ciphertext (R215). -/
def rowTag (keyid : Nat) (row : Row) (index l : Nat) : List Byte :=
  (gcmTag (fitTo 32 (Config.keyBytes keyid)) (toLe 12 (rowIv row l)).reverse (toLe 6 (rowAad row index l)).reverse
    (lineBytes (tget row.lines l))).take 8

/-- The twelve metadata bytes of a line: CRC-32C of its ciphertext, then its tag (R151); zero in a filler row (R153). -/
def lineMeta (row : Row) (l : Nat) : List Byte :=
  if row.kind = .filler then List.replicate 12 0
  else toLe 4 (crc32c (lineBytes (tget row.lines l))) ++ rowTag row.keyid row row.index l

/-- The tag check of R94: the stored tag is that of the ciphertext under the slot's key and the line's ring address now. -/
def tagOk (d : Dev) (row : Row) (l : Nat) : Bool :=
  decide (rowTag (tget d.sec.slots row.kslot).keyid row d.srn.index l = rowTag row.keyid row row.index l)

/-- The 320 bytes of a data sector (R151, R152). -/
def sectorBytes (row : Row) (s : Nat) : List Byte :=
  (List.range 4).flatMap (fun k => lineBytes (tget row.lines (4 * s + k)))
    ++ (List.range 4).flatMap (fun k => lineMeta row (4 * s + k)) ++ headerOf row s

/-- A parity sector (R154, R155). -/
def parityBytes (row : Row) (k : Nat) : List Byte :=
  let secs := (List.range 16).map (sectorBytes row)
  (List.range 160).flatMap fun j => toLe 2 (paritySym k (secs.map fun b => le b (2 * j) 2))

/-- The sector of a sector index, 16–19 for P0–P3. -/
def sectorOf (row : Row) (s : Nat) : List Byte := if s < 16 then sectorBytes row s else parityBytes row (s - 16)

/-- The 92 bytes a line read moves from a sector: part k, its metadata, the header (R96, R151). -/
def partBytes (b : List Byte) (k : Nat) : List Byte :=
  (b.drop (64 * k)).take 64 ++ (b.drop (256 + 12 * k)).take 12 ++ (b.drop 304).take 16

/-- The generator matrix (R155): column c, row i. -/
def gMat (i c : Nat) : Nat := if c < 16 then b2n (decide (i = c)) else qMat i (c - 16)

/-- One column of Gauss–Jordan elimination over GF(2^16). -/
def gaussStep (m : List (List Nat)) (c : Nat) : List (List Nat) :=
  let p := ((List.range m.length).find? fun r => decide (c ≤ r) && decide ((m.getD r []).getD c 0 ≠ 0)).getD c
  let m := (m.set p (m.getD c [])).set c (m.getD p [])
  let inv := ginv ((m.getD c []).getD c 0)
  let row := (m.getD c []).map (gmul inv)
  ((List.range m.length).map fun r =>
    if r = c then row else List.zipWith (fun x y => x ^^^ gmul ((m.getD r []).getD c 0) y) (m.getD r []) row)

/-- The coefficients λ of R99 for the source indices A (in ascending order) and target index t: column t of the inverse of
G_A, whose column j is column A[j] of G. -/
def lambdas (a : List Nat) (t : Nat) : List Nat :=
  let m := (List.range 16).map fun i => (a.map (gMat i)) ++ (List.range 16).map fun j => b2n (decide (i = j))
  ((List.range 16).foldl gaussStep m).map fun r => r.getD (16 + t) 0

/-- The target's 92-byte part from those of sixteen sources (R99). -/
def decodePart (a : List Nat) (t : Nat) (parts : List (List Byte)) : List Byte :=
  let lam := lambdas a t
  (List.range 46).flatMap fun j =>
    toLe 2 ((List.range 16).foldl (fun x i => x ^^^ gmul (lam.getD i 0) (le (parts.getD i []) (2 * j) 2)) 0)

/-- The source indices the decoder takes: sixteen of the positions read, by R97's order. -/
def chosen (r : Nat) (src : BitVec 20) : List Nat :=
  ((List.range 20).filter fun s => src.getLsbD (posOf r s)).take 16

/-- The ciphertext a line read delivers: the target's own part, or the decode of its sources (R96, R99). -/
def readPart (row : Row) (r l : Nat) (src : BitVec 20) : Line :=
  let t := lineSect l
  if src.getLsbD (posOf r t) then bytesLine (partBytes (sectorBytes row t) (linePart l))
  else
    let a := chosen r src
    bytesLine (decodePart a t (a.map fun s => partBytes (sectorOf row s) (linePart l)))

end Sys2Proof.Machine
end

