-- ==== Sys2Proof/Machine/Blocks.lean ====
section
/-! DEFINITION. Machine/Blocks.lean: versions (R230), the block log and its replay (R158–R161), sorus-blocks and their
opening (R189, R190), rows programmed outside program sets: the anchor log (R79) and the spore (R420). -/

namespace Sys2Proof.Machine

/-! ### Versions (R230) -/

/-- Takes n VERSIONs; within 2^39 of the stored limit the next limit is written (R230). Answers the first. -/
def verTake (n : Nat) (d : Dev) : Nat × Dev :=
  let v := d.sec.ver
  let lim := d.pst.nv.verLimit
  let d := { d with sec.ver := v + n }
  (v, if v + 2 ^ 39 < lim ∧ lim ≤ v + n + 2 ^ 39 then fwPut (.verLimit (lim + 2 ^ 40)) d else d)

/-- A program set may be assembled: SEC_VER is not within 2^20 of the stored limit (R230). -/
def verOk (d : Dev) : Bool := decide (d.sec.ver + 2 ^ 20 < d.pst.nv.verLimit)

/-! ### The block log (R160) -/

/-- Appends a record to the log buffer. -/
def blogAdd (type die plane block value : Nat) (d : Dev) : Dev :=
  { d with
    med.blogBuf := d.med.blogBuf ++ [⟨d.med.bseq, type, die, plane, block, value⟩]
    med.bseq := (d.med.bseq + 1) % 2 ^ 40 }

/-- One record for each of a sorus-block's twenty serving plane-blocks; intents carry the CYCLES after the attempt. -/
def blogSb (type key : Nat) (d : Dev) : Dev :=
  let lane := key / 1344
  (List.range 20).foldl (fun d p =>
    let k := serving d.med lane (key % 1344) p
    blogAdd type (laneDie lane p) (lane % 4) (k % 1344)
      (if type < 2 then min 16777215 ((tget d.med.pb k).cycles + 1) else 0) d) d

/-- A record is on media once it has left the buffer (R160). -/
def blogged (d : Dev) (q : Option Nat) : Bool := match q with
  | none => false
  | some s => !(d.med.blogBuf.any fun r => r.bseq = s)

/-- The sorus-block whose rows a physical plane-block holds: the one that a substitution entry names it for, else its own
number unless it is substituted away (R156, R158). -/
def servedBy (pb : Tab Pb) (die plane n : Nat) : Option Nat :=
  match pb.find? fun x => decide (x.1 / 1344 = die * 4 + plane) && decide (x.2.subst = some n) with
  | some x => some (x.1 % 1344)
  | none => if (tget pb (pbKey die plane n)).subst.isSome then none else some n

/-- Lane and position of a physical plane. -/
def planeAt (die plane : Nat) : Nat × Nat := (laneOf (die / 16 / 20 * 16 + die % 16) plane, die / 16 % 20)

/-- One block-log record replayed over a block table (R160, R161): an intent starts a reset of its position, a done record
ends it, an open record makes the sorus-block FULL, a spore record reserves it; a substitution's plane-block is a donor's (R156). -/
def blogApply (t : Tab Pb × Tab Sb) (r : BRec) : Tab Pb × Tab Sb :=
  let k := pbKey r.die r.plane r.block
  let (lane, pos) := planeAt r.die r.plane
  let pb (f : Pb → Pb) : Tab Pb := tmod t.1 k f
  let sb (f : Sb → Sb) : Tab Sb := match servedBy t.1 r.die r.plane r.block with
    | some b => tmod t.2 (sbKey lane b) f
    | none => t.2
  match r.type with
  | 0 => (pb fun x => { x with cycles := r.value }, sb fun b =>
      { b with st := .resetting, resetPos := b.resetPos.filter (· ≠ pos) ++ [pos], valid := [], programmed := false })
  | 1 => (pb fun x => { x with cycles := r.value, step := 0, progFails := x.progFails }, sb fun b =>
      let left := b.resetPos.filter (· ≠ pos)
      if b.st = .resetting ∧ left.isEmpty then {} else { b with resetPos := left })
  | 2 => (pb fun x => { x with subst := some r.value }, tmod t.2 (sbKey lane r.value) fun b => { b with donor := true })
  | 3 => (pb fun x => { x with bad := true }, t.2)
  | 4 => (pb fun x => { x with retired := true, grownBad := false }, t.2)
  | 5 => (t.1, sb fun b => { b with st := .spore })
  | 6 => (t.1, sb fun b => { b with st := .full, passLeft := List.range 20, programmed := true })
  | _ => t

/-- The block table that an image and a log give (R161). -/
def blogReplay (pb : Tab Pb) (sb : Tab Sb) (log : List BRec) : Tab Pb × Tab Sb := log.foldl blogApply (pb, sb)

/-! ### Sorus-blocks -/

/-- Rewrites a sorus-block's entry. -/
def sbMod (key : Nat) (f : Sb → Sb) (d : Dev) : Dev := { d with med.sb := tmod d.med.sb key f }

/-- Valid rows of a sorus-block. -/
def validCount (b : Sb) : Nat := b.valid.length

/-- It lies in the pool: no donor, no SPORE, its lane not Read-only (R190). -/
def inPool (d : Dev) (key : Nat) : Bool :=
  let b := tget d.med.sb key
  !b.donor && b.st ≠ .spore && !readOnlyLane d (key / 1344)

/-- It is READY and may be opened: no donor, not named for a kind of metadata already (R470). -/
def isReady (d : Dev) (key : Nat) : Bool :=
  (tget d.med.sb key).st = .ready && !(tget d.med.sb key).donor && !(d.med.metaOpen.any fun x => x.2 = key + 1)

/-- The Read-only lanes. -/
def roLanes (d : Dev) : List Nat := (List.range 128).filter (readOnlyLane d)

/-- N_pool (R190). -/
def nPool (d : Dev) : Nat :=
  172032 - 1344 * (roLanes d).length
    - (d.med.sb.filter fun x => (x.2.donor || x.2.st = .spore) && !readOnlyLane d (x.1 / 1344)).length

/-- N_ready (R190). -/
def nReady (d : Dev) : Nat :=
  nPool d - (d.med.sb.filter fun x => !x.2.donor && x.2.st ≠ .ready && x.2.st ≠ .spore && !readOnlyLane d (x.1 / 1344)).length

/-- The largest CYCLES among the plane-blocks that serve a sorus-block. -/
def sbCycles (d : Dev) (key : Nat) : Nat :=
  (List.range 20).foldl (fun m p => max m (tget d.med.pb (serving d.med (key / 1344) (key % 1344) p)).cycles) 0

/-- The smallest of them. -/
def sbCyclesMin (d : Dev) (key : Nat) : Nat :=
  (List.range 20).foldl (fun m p => min m (tget d.med.pb (serving d.med (key / 1344) (key % 1344) p)).cycles) (2 ^ 24)

/-- The key with the lowest measure, the first on a tie. -/
def lowestBy (m : Nat → Nat) (ks : List Nat) : Option Nat :=
  ks.foldl (fun b k => match b with
    | none => some k
    | some x => if m k < m x then some k else some x) none

/-- The READY sorus-block of a lane that opens next: one whose open records are logged, else the youngest (R189). -/
def openPick (d : Dev) (lane : Nat) : Option Nat :=
  let ks := ((List.range 1344).map (sbKey lane)).filter (isReady d)
  match ks.find? fun k => (tget d.med.sb k).openRec.isSome with
  | some k => some k
  | none => lowestBy (sbCycles d) ks

/-- Logs a sorus-block's open records (R160). -/
def openLog (key : Nat) (d : Dev) : Dev :=
  if (tget d.med.sb key).openRec.isSome then d
  else
    let d := blogSb 6 key d
    sbMod key (fun b => { b with openRec := some ((d.med.bseq + 2 ^ 40 - 1) % 2 ^ 40) }) d

/-- SPORE sorus-blocks of a lane. -/
def sporeCount (d : Dev) (lane : Nat) : Nat := (d.med.sb.filter fun x => x.1 / 1344 = lane && x.2.st = .spore).length

/-- The TIME at which the running sentinel sweep began (R195). -/
def sweepStart (d : Dev) : Nat := d.time / (d.stw.now.sentS * 100000000) * (d.stw.now.sentS * 100000000)

/-- Opens a READY sorus-block whose open records are on media. -/
def sbOpen (key : Nat) (kind : Kind) (d : Dev) : Dev :=
  let pbs := (List.range 20).map (serving d.med (key / 1344) (key % 1344))
  sbMod key (fun b => { b with st := .opn, kind, page := 0, buffer := kind = .host, openRec := none, xor := [] })
    { d with med.pb := pbs.foldl (fun t k => tmod t k fun x => { x with meas := sweepStart d }) d.med.pb }

/-! ### Rows as bytes (R74, R160) -/

/-- Lines of a row rebuilt from 64 values. -/
def linesOf (f : Nat → Line) : Tab Line := (List.range 64).foldl (fun t l => tset t l (f l)) ([] : Tab Line)

/-- A journal record as its sixteen bytes (R74). -/
def JRec.bytes (r : JRec) : List Byte := toLe 16 (r.frond + r.entry.pack * 2 ^ 32 + r.jseq % 2 ^ 56 * 2 ^ 72)

/-- A block-log record as its sixteen bytes (R160). -/
def BRec.bytes (r : BRec) : List Byte :=
  toLe 16 (r.bseq % 2 ^ 40 + r.type * 2 ^ 40 + r.die * 2 ^ 44 + r.plane * 2 ^ 54 + r.block * 2 ^ 56 + r.value % 2 ^ 24 * 2 ^ 67)

/-- The 64 lines of a byte list. -/
def linesOfBytes (b : List Byte) : Tab Line := linesOf fun l => bytesLine ((b.drop (64 * l)).take 64)

/-- A filler row (R142, R153). -/
def fillerRow : Row := { kind := .filler, frond := 2 ^ 32 - 1 }

/-! ### Rows programmed outside program sets -/

/-- Programs the next page of a sorus-block with up to 32 metadata rows under slot 0, fillers making up the rest. -/
def pageNow (key : Nat) (kind : Kind) (rows : List (Nat × Tab Line)) (d : Dev) : Dev :=
  let (v, d) := verTake rows.length d
  let page := (tget d.med.sb key).page
  let put (t : Tab Row) (k : Nat) (r : Row) : Tab Row := tset t (sbSlot key page k) r
  let mk (k : Nat) (x : Nat × Tab Line) : Row :=
    rowSeal { kind, frond := x.1, version := v + k, keyid := (tget d.sec.slots 0).keyid, lines := x.2 }
  let t := (rows.zipIdx).foldl (fun t (x : (Nat × Tab Line) × Nat) => put t x.2 (mk x.2 x.1)) d.med.rows
  let t := ((List.range 32).drop rows.length).foldl (fun t k => put t k fillerRow) t
  sbMod key (fun b => { b with page := page + 1, programmed := true }) { d with
    med.rows := t
    med.cnt := bump (bump d.med.cnt 0) 1 20 }

/-- The fields of an anchor row (R77, R412, R419) as its bytes, a clean row's after the rows of the poison index that it names
(R417); the manual names the fields and gives no layout (log entry 77). -/
def Anchor.bytes (a : Anchor) : List Byte :=
  let idx : List Nat := match a with
    | .clean p _ => p.flatMap fun (x : Nat × BitVec 64) => [x.1, x.2.toNat]
    | _ => []
  let own : List Nat := match a with
    | .image area lap js im jr => [0, area, lap, js, im.length] ++ im ++ [jr.length] ++ jr
    | .clean p ovf => [1, b2n ovf, p.length]
    | .sporeBegun => [2]
    | .sporeDone => [3]
    | .consumed => [4]
  fitTo ((idx.length + 511) / 512 * 4096) (idx.flatMap (toLe 8)) ++ own.flatMap (toLe 8)

/-- The sorus-block that takes the next anchor row: the one at hand, or the next one, whose location the parameter store
takes (R79). -/
def anchorBlock (d : Dev) : Option Nat × Dev :=
  match d.map.anchorSb with
  | some k => if (tget d.med.sb k).page < 1024 then (some k, d) else next (sbMod k (fun b => { b with st := .closed }) d)
  | none => next d
where
  /-- The youngest READY sorus-block of the lanes that are not Read-only (R189, R470). -/
  next (d : Dev) : Option Nat × Dev :=
    match lowestBy (sbCycles d) (((List.range 128).filter fun l => !readOnlyLane d l).filterMap (openPick d)) with
    | some k => (some k, fwPut (.anchor k) (sbOpen k .anchor (openLog k { d with map.anchorSb := some k })))
    | none => (none, d)

/-- The latest anchor row that is no image row (R79, R412). -/
def anchorLast (d : Dev) : Option Anchor :=
  ((d.map.anchors.map (·.2)).filter fun a => match a with
    | .image .. => false
    | _ => true).getLast?

/-- Appends an anchor row: on the log of the rows that read, and on media (R79). -/
def anchorPut (a : Anchor) (d : Dev) : Dev :=
  let n := d.map.anchorSeq
  let d := { d with map.anchors := d.map.anchors ++ [(n, a)], map.anchorSeq := n + 1 }
  let b := a.bytes
  match anchorBlock d with
  | (some k, d) => pageNow k .anchor ((List.range ((b.length + 4095) / 4096)).map fun i =>
      (n % 2 ^ 32, linesOfBytes (fitTo 4096 (b.drop (4096 * i))))) d
  | (none, d) => d

end Sys2Proof.Machine
end

