-- ==== Sys2Proof/Machine/Stop.lean ====
section
/-! DEFINITION. Machine/Stop.lean: ledger accounting (R37–R58, R397–R398), the saves of the dump, of Halt and of a node
reset (R144, R390, R420–R424), and the entry into Halt that every fatal fault takes. -/

namespace Sys2Proof.Machine

/-! ### Ledger accounting -/

/-- Counts and records a ledger overrun (R57). -/
def overrun (cause cls cc addr : Nat) (d : Dev) : Dev :=
  post 0x3010 (if cause = 15 then 3 else 2) cause (sat 32 cc) (addr / 65536) (addr % 65536 + cls * 65536)
    { d with
      ldg.ovr := bump d.ldg.ovr cause
      ldg.lastCause := cause
      ldg.lastCls := cls
      ldg.lastCc := sat 32 cc }

/-- Feeds the ledger lines that the node spent on a request (R37, R39, R54, R398). -/
def feedLines (lat : Lat) (d : Dev) : Dev :=
  (List.range 8).foldl (fun d i =>
    let v := lat.lines.getD i 0
    if v = 0 then d else
    { d with
      ldg.xtrmMax := peak d.ldg.xtrmMax i (sat 16 v)
      ldg.xtrmExc := if d.ldg.budNow.getD i 0 < v then bump d.ldg.xtrmExc i else d.ldg.xtrmExc
      evr.ext := peak d.evr.ext i v }) d

/-- Enters a measured time in the current histogram of its class (R396, R397). -/
def feedBin (cls v : Nat) (d : Dev) : Dev := { d with evr.bins := bump d.evr.bins (64 * cls + binOf v) }

/-- The bound of a request over h links, in cc (R40, R43). -/
def boundCc (h : Nat) : Nat := 400 + 96 * h

/-- One overrun for each cause (R41: every occurrence is counted). -/
def overruns (causes : List Nat) (cls cc addr : Nat) (d : Dev) : Dev :=
  causes.foldl (fun d c => overrun c cls cc addr d) d

/-- The causes under which a write that completed beyond the bound is counted (R56): 0x6 when its slice missed the envelope,
else its excluded causes, else 0xF. -/
def lateCauses (missed : Bool) (causes : List Nat) : List Nat :=
  if missed then [6] else if causes = [] then [15] else causes

/-- A completed request: its lines, its bin, and its judgement (R40–R42, R54, R56). A read is judged at once; a write
beyond the bound is judged with its slice. No bound is held in Dormant; an excluded cause counts there as well. -/
def account (cls : Nat) (lat : Lat) (causes : List Nat) (addr h slice : Nat) (d : Dev) : Dev :=
  let d := feedBin cls lat.total (feedLines lat d)
  let wr := cls % 2 = 1
  let late := decide (boundCc h < lat.total)
  if !d.pwr.mode.serves then d
  else if wr ∧ late ∧ d.pwr.mode ≠ .dormant then
    if slice = sliceOf d.time then { d with ldg.late := d.ldg.late ++ [⟨causes, cls, lat.total, addr⟩] }
    else overruns (lateCauses (decide (slice ∈ d.ldg.missSlices)) causes) cls lat.total addr d
  else if causes ≠ [] then overruns causes cls lat.total addr d
  else if late ∧ d.pwr.mode ≠ .dormant then overrun 15 cls lat.total addr d
  else d

/-- The causes a request starts with: a Dormant wake (R41). -/
def wakeCause (d : Dev) : List Nat := if d.pwr.mode = .dormant ∧ !d.pwr.awake then [4] else []

/-- A request is counted once under a cause that befalls it again. -/
def addCause (c : Nat) (cs : List Nat) : List Nat := if c ∈ cs then cs else cs ++ [c]

/-! ### Grants (R28, R45) -/

/-- The arbiter grants n DRAM bursts in a class; those of C0 count in B0 of the slice (R55). -/
def dramGrant (cls n : Nat) (d : Dev) : Dev :=
  { d with
    ldg.grants := bump d.ldg.grants (2 * cls) n
    ldg.runB0 := d.ldg.runB0 + (if cls = 0 then n else 0) }

/-- The arbiter grants n media operations in a class. -/
def mediaGrant (cls : Nat) (n : Nat) (d : Dev) : Dev := { d with ldg.grants := bump d.ldg.grants (2 * cls + 1) n }

/-! ### The end of a command (R340, R359, R361) -/

/-- Code of a transport (R361). -/
def trCode : Transport → Nat
  | .primary => 0 | .secondary => 1 | .vdm => 2 | .i3c => 3

/-- The completion of a command: on a CXL mailbox whose doorbell interrupt host software has enabled, with MSI-X vector 0 or 1
(R339). -/
def completion (tr : Transport) (opcode rc : Nat) (out : List Byte) (d : Dev) : Dev :=
  let d := emit (.done tr opcode rc out) d
  match tr with
  | .primary => if d.mbx.bellA then emit (.msix 0) d else d
  | .secondary => if d.mbx.bellB then emit (.msix 1) d else d
  | _ => d

/-- A command ends: its completion goes out unless a host-port reset lost it, and MBX_LAST and the counters follow. -/
def cmdEnd (tr : Transport) (opcode rc : Nat) (out : List Byte) (ms : Nat) (lost : Bool) (d : Dev) : Dev :=
  let d := { d with
    mbx.run := none
    mbx.lastOpcode := opcode
    mbx.lastRet := rc
    mbx.lastTr := trCode tr
    mbx.lastLost := lost
    mbx.lastMs := sat 24 ms
    mbx.cnt := bump d.mbx.cnt (trCode tr) }
  if lost then post 0x9002 1 opcode rc (trCode tr) 0 { d with mbx.cnt := bump d.mbx.cnt 6 }
  else completion tr opcode rc out d

/-- The running command ends with Aborted as the node enters Halt (R359); a Transfer FW leaves its slot invalid (R373). -/
def cmdAbort (entered : Mode) (d : Dev) : Dev :=
  match d.mbx.run with
  | none => d
  | some r =>
    let d := match r.job with
      | .fwPart slot .. => post 0x9020 1 slot 0 0 0 d
      | _ => d
    post 0x9003 2 r.opcode r.done (trCode r.tr) entered.code
      (cmdEnd r.tr r.opcode 0x12 [] (msOf (d.time - r.startT)) r.lost d)

/-! ### Saves -/

/-- A held slot as the spore keeps it and Recovery places it (R144, R145): Open, no read in flight, its lines as ciphertext;
a line with a byte that fails in both mirrors is Poisoned. `lost` names the lines whose cells failed so. -/
def saveSlot (lost : List (Nat × Nat)) (mask : Nat → BitVec 64) (s : Slot) : Slot :=
  { s with
    st := .opn
    readers := []
    lines := tbuild s.lines fun l (c : CLine) =>
      let m := if c.st = .sparse then mask l else BitVec.allOnes 64
      if lost.contains (s.frond, l) || decide (chkFail c.data c.chk &&& m ≠ 0) then { c with st := .poisoned } else c }

/-- What a spore or a retained save keeps (R144, R420, R423). -/
def saveOf (lost : List (Nat × Nat)) (d : Dev) : Save :=
  { dir := (d.csh.dir.filter fun x => x.2.held).map fun x =>
      (x.1, saveSlot lost (sparseMaskOf d x.2.frond) x.2)
    sparse := d.csh.sparse
    gen := d.csh.gen
    tail := d.map.tail
    rescue := d.stw.rescue
    pidx := d.sec.pidx
    povf := d.sec.povf
    bounds := (d.sec.ranges.map fun x => (x.1, x.2.boundary)).filter fun x => x.2 ≠ 0
    blogBuf := d.med.blogBuf
    flush := flushOf d }

/-- Writes have been admitted, so a stop saves the cushion (R422): the modes that served memory, and Maintenance. -/
def Mode.saves : Mode → Bool
  | .service | .capped | .quiet | .dormant | .maintenance => true
  | _ => false

/-- Programs in flight end, resets are aborted, sets are abandoned and their sorus-blocks take no further page (R173, R161). -/
def stopMedia (d : Dev) : Dev :=
  { d with
    med.ops := []
    med.cnt := bump d.med.cnt 15 d.med.sets.length
    med.sets := []
    med.sb := tmap d.med.sb fun k b =>
      if b.st = .opn then { b with st := .full, buffer := false }
      else { b with resetPos := b.resetPos ++ (d.med.ops.filter fun o => o.reset && decide (o.nsb = k)).map (·.pos) }
    med.lanes := tmap d.med.lanes fun _ l => { l with opn := none, st := if l.st = .readOnly then .readOnly else .idle }
    med.metaOpen := [] }

/-- A stop now saves the cushion: the mode, or the mode that an entry to Transit is leaving (R417, R422). -/
def Dev.saves (d : Dev) : Bool := (d.pwr.transitLeft.getD d.pwr.mode).saves

/-- Requests in flight are never answered, engines stop (R419, step 1): their tasks end ABORTED with cause MODE, and the
result queues are lost (R299). -/
def stopAdmission (d : Dev) : Dev :=
  let d := d.ope.tasks.foldl (fun d t =>
    post 0x8004 1 t.tq 2 (t.qw.getD 0 0 / 65536 % 65536) 0 { d with ope.cnt := bump d.ope.cnt 6 }) d
  { d with
    ope.rq := tmap d.ope.rq fun _ r => { r with words := [], waiting := [] }
    ope.asking := []
    cph.queue := []
    rp.reqs := []
    srn.remotes := []
    ope.tasks := []
    ope.eng := tmap d.ope.eng fun _ e => { e with chunk := none }
    mbx.run := none }

/-- What a stop now saves: the cushion, or a retained save that Recovery has not yet consumed; once Recovery has restored
the log, with the log of now (R422). -/
def saveNow (lost : List (Nat × Nat)) (d : Dev) : Option Save :=
  if d.saves then some (saveOf lost d)
  else d.pwr.retained.map fun s => if d.pwr.mode = .recovery then { s with flush := flushOf d } else s

/-- A slot's descriptor (R144): frond, GEN, the states of its lines, 64 bytes; its masks follow by reference. -/
def descBytes (s : Slot) : List Byte :=
  fitTo 64 (toLe 4 s.frond ++ toLe 8 s.gen ++ toLe 16 ((List.range 64).foldl (fun n l =>
    n + (match (tget s.lines l).st with
      | .absent => 0 | .full => 1 | .sparse => 2 | .poisoned => 3) * 4 ^ l) 0))

/-- The bytes of a spore in the order of R420: slots with their descriptors in ascending GEN, masks, journal tail, CSH_GEN; rescue list, poison
index, rekey boundaries; the block-log buffer; the recorder's flush. -/
def sporeBytes (s : Save) : List Byte :=
  ((sortBy (fun x => x.2.gen) s.dir).flatMap fun x => ((List.range 64).flatMap fun l => lineBytes (tget x.2.lines l).data) ++ descBytes x.2)
    ++ (s.sparse.flatMap fun x => toLe 4 x.2.frond ++ toLe 4 x.2.line ++ toLe 8 x.2.mask.toNat)
    ++ s.tail.flatMap JRec.bytes ++ toLe 8 s.gen
    ++ (s.rescue.flatMap fun x => toLe 4 x.1 ++ toLe 4 (match x.2 with
      | .recomputed => 0 | .poisoned => 1 | .parity => 2))
    ++ (s.pidx.flatMap fun x => toLe 4 x.1 ++ toLe 8 x.2.toNat) ++ toLe 1 (b2n s.povf)
    ++ (s.bounds.flatMap fun x => toLe 4 x.1 ++ toLe 4 x.2)
    ++ s.blogBuf.flatMap BRec.bytes
    ++ (s.flush.recs ++ s.flush.prot).flatMap fun r =>
      toLe 2 r.code ++ toLe 1 r.sev ++ toLe 1 r.flags ++ toLe 4 r.seq ++ toLe 8 r.time
        ++ toLe 4 r.p0 ++ toLe 4 r.p1 ++ toLe 4 r.p2 ++ toLe 4 r.p3

/-- The spore's rows: 32 a page over the SPORE sorus-blocks in ascending order, which become FULL (R159, R420). -/
def sporeRows (s : Save) (d : Dev) : Dev :=
  let b := sporeBytes s
  let rows := (List.range ((b.length + 4095) / 4096)).map fun i => (i, linesOfBytes (fitTo 4096 (b.drop (4096 * i))))
  let ks := (d.med.sb.filter fun x => x.2.st = .spore).map (·.1)
  (List.range ((rows.length + 32767) / 32768)).foldl (fun d j =>
    match ks[j]? with
    | none => d
    | some k =>
      let mine := (rows.drop (32768 * j)).take 32768
      let d := (List.range ((mine.length + 31) / 32)).foldl (fun d i => pageNow k .spore ((mine.drop (32 * i)).take 32) d)
        (sbMod k (fun b => { b with kind := .spore }) d)
      sbMod k (fun b => { b with st := .full }) d) d

/-- The spore's contents are programmed and verified: the anchor log gets its begun row and, when complete, its
completion row (R419, R420). In Transit and before Recovery ends the earlier source governs and nothing is written, but
for a retained save (R422, R426). -/
def writeSpore (complete : Bool) (lost : List (Nat × Nat)) (d : Dev) : Dev :=
  let d := acceptAll d
  match saveNow lost d with
  | none => { d with evr.cnt := tset d.evr.cnt 7 (flushOf d).recs.length }
  | some s =>
    let d := sporeRows s (anchorPut .sporeBegun d)
    { (if complete then anchorPut .sporeDone d else d) with
      evr.cnt := tset d.evr.cnt 7 s.flush.recs.length
      pwr.spore := some s
      pwr.retained := none }

/-- The host link goes down: record 0x1002 and the port's reset (R259), without the decoders' ring releases. -/
def hostDown (cause : Nat) (d : Dev) : Dev :=
  postIf d.hst.up 0x1002 1 cause 0 0 0
    { d with
      hst.up := false
      hst.memActive := false
      hst.decs := []
      hst.sf := []
      hst.bis := []
      hst.credHeld := false
      csh.credHost := 0
      csh.owedHost := 0 }

/-- Both bypass sets close; the node is no member (R267). -/
def bypassClose (d : Dev) : Dev :=
  { d with
    srn.bypassA := true
    srn.bypassB := true
    srn.ring := .alone
    srn.west.st := if d.srn.west.en then .down else .disabled
    srn.east.st := if d.srn.east.en then .down else .disabled
    srn.west.peer := none
    srn.east.peer := none
    srn.west.q := []
    srn.east.q := []
    srn.west.used := []
    srn.east.used := []
    srn.members := []
    srn.splice := none }

/-- Every lane enters Dump (R165, R419 step 4). -/
def lanesDump (d : Dev) : Dev :=
  { d with med.lanes := (List.range 128).foldl (fun t l => tmod t l fun x => { x with st := .dump }) d.med.lanes }

/-- The trip goes into partition 1 with its lifetime counter (R424, R445). -/
def tripStore (d : Dev) : Dev :=
  let d := match d.pwr.tripHeld with
    | some t => fwNow (.trip t) d
    | none => d
  fwNow (.life 3) { d with pwr.tripHeld := none }

/-- The entry into Halt (R424) for the cause code of a trip or fault record: the spore, lifetime counter 3 or 5, Viral and
the link, power-down of media and DRAM, the bypass sets, ALERT#, record 0x9035. -/
def haltEntry (code : Nat) (trip orderly complete : Bool) (d : Dev) : Dev :=
  if d.pwr.mode = .halt ∨ d.pwr.mode = .off ∨ d.pwr.mode = .held ∨ d.pwr.dumping then d else
  let link := d.hst.up
  let sporeOk := complete && (saveNow [] d).isSome
  let trip := trip || d.pwr.stopping
  let d := cmdAbort .halt (if trip then tripStore d else fwNow (.life 5) d)
  let d := hostDown 4 (if link && d.hst.viralOn then { emit .viral d with hst.viral := true } else d)
  let d := enterMode .halt (if trip then 2 else 3) (post 0x9035 4 code (b2n orderly) (b2n sporeOk) 0 d)
  -- the spore is that of the mode left; record 0x9035 lies within its flush
  let left := d.pwr.prev
  let d := writeSpore complete [] { d with pwr.mode := left }
  darken <| bypassClose (lanesDump (stopMedia (stopAdmission
    { d with pwr.mode := .halt, pwr.dumping := false, pwr.stopping := false, pwr.transitLeft := none, pwr.testing := 0 })))

/-- An orderly trip (R424): requests admitted before it complete and the engines' chunks end; then, or 200 ms after the trip, the
node enters Halt. -/
def tripFollow (d : Dev) : Dev :=
  if d.pwr.stopping && ((d.rp.reqs.isEmpty && d.srn.remotes.isEmpty && d.ope.eng.all fun x => x.2.chunk.isNone)
      || decide (20000000 ≤ d.time - d.pwr.trigT.getD d.time)) then haltEntry 0xB004 true true true d
  else d

/-- A fatal fault (R30, R98, R123, R157, R231, R253 …): its record, then Halt at once. A dump in progress goes on to Off
(log entry 36). In Halt the management cores and the recorder stay powered (R402): a lockstep mismatch is recorded there. -/
def fatal (code p0 p1 p2 p3 : Nat) (d : Dev) : Dev :=
  if d.pwr.mode = .halt then postIf (decide (code = 0x9004)) code 4 p0 p1 p2 p3 d
  else if d.pwr.mode = .off ∨ d.pwr.mode = .held then d
  else if d.pwr.dumping then post code 4 p0 p1 p2 p3 d
  else haltEntry code false false (code ≠ 0x4017) (post code 4 p0 p1 p2 p3 d)

end Sys2Proof.Machine
end

