-- ==== Sys2Proof/Machine/Mbx.lean ====
section
/-! DEFINITION. Machine/Mbx.lean: the executor: reach, busy, the checks of R341, short and long commands, progress
(R339–R345, R359, R361). -/

namespace Sys2Proof.Machine

/-! ### Return codes: the standard values of CXL 3.1 (log entry 6), and the vendor codes of R344 -/

/-- Success. -/
def rcOk : Nat := 0x0000
/-- Invalid Input. -/
def rcInput : Nat := 0x0002
/-- Unsupported. -/
def rcUnsupported : Nat := 0x0003
/-- Internal Error. -/
def rcInternal : Nat := 0x0004
/-- Busy. -/
def rcBusy : Nat := 0x0006
/-- FW Transfer in Progress. -/
def rcFwInProgress : Nat := 0x0008
/-- FW Transfer Out of Order. -/
def rcFwOrder : Nat := 0x0009
/-- FW Verification Failed. -/
def rcFwVerify : Nat := 0x000A
/-- Invalid Slot. -/
def rcSlot : Nat := 0x000B
/-- Activation Failed, FW Rolled Back. -/
def rcFwRolled : Nat := 0x000C
/-- Invalid Handle. -/
def rcHandle : Nat := 0x000E
/-- Invalid Physical Address. -/
def rcPhys : Nat := 0x000F
/-- Aborted. -/
def rcAborted : Nat := 0x0012
/-- Invalid Security State. -/
def rcSecState : Nat := 0x0013
/-- Invalid Payload Length. -/
def rcLength : Nat := 0x0016
/-- WORN. -/
def rcWorn : Nat := 0x0100
/-- PASSWORD. -/
def rcPassword : Nat := 0x0101
/-- SUPPLY_LOW. -/
def rcSupply : Nat := 0x0102
/-- RING_PARTED. -/
def rcParted : Nat := 0x0103
/-- PENDING. -/
def rcPending : Nat := 0x0104
/-- NO_KEY_SLOT. -/
def rcNoSlot : Nat := 0x0105
/-- REKEY_LIMIT. -/
def rcRekeyLimit : Nat := 0x0106
/-- RANGE_LOCKED. -/
def rcLocked : Nat := 0x0107
/-- WRONG_MODE. -/
def rcMode : Nat := 0x0108
/-- PROTECTED. -/
def rcProtected : Nat := 0x0109
/-- POISONED. -/
def rcPoisoned : Nat := 0x010A
/-- WRITE_PROTECTED. -/
def rcWp : Nat := 0x010B
/-- NOT_REARMED. -/
def rcNotRearmed : Nat := 0x010C

/-! ### Modes of a command (R345) -/

/-- The mode groups of R345. -/
structure Modes where
  s : Bool := false
  dor : Bool := false
  u : Bool := false
  t : Bool := false
  m : Bool := false
  h : Bool := false
  deriving DecidableEq, Repr

/-- Every mode. -/
def mAll : Modes := ⟨true, true, true, true, true, true⟩
/-- Every mode but Halt. -/
def mNotH : Modes := ⟨true, true, true, true, true, false⟩
/-- S, D, T, M. -/
def mSDTM : Modes := ⟨true, true, false, true, true, false⟩
/-- S, M. -/
def mSM : Modes := ⟨true, false, false, false, true, false⟩
/-- S, T, M. -/
def mSTM : Modes := ⟨true, false, false, true, true, false⟩
/-- U, M. -/
def mUM : Modes := ⟨false, false, true, false, true, false⟩
/-- S, D, M. -/
def mSDM : Modes := ⟨true, true, false, false, true, false⟩
/-- M. -/
def mM : Modes := ⟨false, false, false, false, true, false⟩
/-- H. -/
def mH : Modes := ⟨false, false, false, false, false, true⟩

/-- The transport allows the command in the node's mode (R341, check 2; R345). In Unfurl group U holds once CXL.io is served;
a command of every mode holds there throughout (log entry 32). -/
def modeOk (g : Modes) (tr : Transport) (d : Dev) : Bool := match d.pwr.mode with
  | .service | .capped | .quiet => g.s
  | .dormant => g.dor
  | .unfurl => g.u && (d.hst.ready || decide (g = mAll) || decide (g = mNotH))
  | .splice | .recovery => g.u
  | .transit => g.t
  | .maintenance => g.m
  | .halt => g.h && tr = .i3c
  | .off | .held => false

/-- The transport reaches the executor (R339), which is node firmware: none before it boots (R374). -/
def reachable (tr : Transport) (d : Dev) : Bool :=
  d.on && !d.pwr.dumping && !(d.pwr.mode = .unfurl && (d.pwr.unfurl = .booting || d.pwr.unfurl = .noBoot)) && (match tr with
  | .i3c => true
  | _ => d.hst.up && d.hst.ready && d.pwr.mode ≠ .halt)

/-! ### Progress (R343, R361) -/

/-- MBX_PROGRESS. -/
def progWord (d : Dev) : Nat :=
  d.mbx.progOpcode + d.mbx.progUnit * 2 ^ 16 + d.mbx.progPermille * 2 ^ 19 + sat 32 d.mbx.progMs * 2 ^ 32

/-- Progress registers for the running command. -/
def progSet (r : Running) (ms : Nat) (d : Dev) : Dev :=
  { d with
    mbx.progOpcode := r.opcode
    mbx.progUnit := r.unit
    mbx.progPermille := if r.total = 0 then 0 else min 1000 (1000 * r.done / r.total)
    mbx.progMs := ms
    mbx.progDone := r.done
    mbx.progTotal := r.total }

/-! ### The executor -/

/-- What a command does once its checks passed: it ends with a return code and output, or it runs on. -/
inductive Res where
  | done (rc : Nat) (out : List Byte)
  | long (j : Job) (unit total : Nat)
  deriving DecidableEq, Repr

/-- A long-running command is accepted (R342). -/
def cmdRun (tr : Transport) (opcode : Nat) (j : Job) (unit total : Nat) (d : Dev) : Dev :=
  let r : Running := { tr, opcode, job := j, startT := d.time, unit, total }
  progSet r 0 { d with mbx.run := some r }

/-- A command arrives (R340, R341): ignored or answered Busy while one runs; else the checks in order, a payload beyond the
transport's 4,096 bytes (R339) failing the third; else its body. -/
def command (opcode : Nat) (g : Modes) (ringOnly : Bool) (lenOk : Nat → Bool) (fieldsOk : List Byte → Bool)
    (body : List Byte → Dev → Res × Dev) (tr : Transport) (p : List Byte) (d : Dev) : Dev :=
  if !reachable tr d then d
  else match d.mbx.run with
    | some r =>
      if r.tr = tr ∧ (tr = .primary ∨ tr = .secondary) then d
      else
        let d := { d with mbx.cnt := bump d.mbx.cnt 4 }
        match tr with
        | .vdm | .i3c => emit (.busy tr [progWord d, d.mbx.progDone, d.mbx.progTotal]) d
        | _ => completion tr opcode rcBusy [] d
    | none =>
      let stop (rc : Nat) (d : Dev) : Dev := cmdEnd tr opcode rc [] 0 false d
      if ringOnly && d.isM then stop rcUnsupported d
      else if !modeOk g tr d then stop rcMode { d with mbx.cnt := bump d.mbx.cnt 5 }
      else if !lenOk p.length || decide (4096 < p.length) then stop rcLength d
      else if !fieldsOk p then stop rcInput d
      else match body p d with
        | (.done rc out, d) => cmdEnd tr opcode rc out 0 false d
        | (.long j unit total, d) => cmdRun tr opcode j unit total d

/-- Payload of a fixed length. -/
def len (n : Nat) : Nat → Bool := fun k => k = n

/-- Reserved bytes of a payload are zero. -/
def zeros (p : List Byte) (off n : Nat) : Bool := le p off n = 0

/-- A byte of a payload. -/
def byte (p : List Byte) (i : Nat) : Nat := le p i 1

/-- A short command's answer. -/
def ans (rc : Nat) (out : List Byte) (d : Dev) : Res × Dev := (.done rc out, d)

/-- An answer without output. -/
def ret (rc : Nat) (d : Dev) : Res × Dev := (.done rc [], d)

end Sys2Proof.Machine
end

