-- ==== Sys2Proof/Machine/Frond.lean ====
section
/-! DEFINITION. Machine/Frond.lean: the operations on one frond that every family shares: its map entry, the frond cache,
the journal (R64–R77), its cushion slot (R122–R129, R141, R143), the poison index and the rescue list (R200, R233–R236). -/

namespace Sys2Proof.Machine

/-! ### Tree pseudo-LRU of a 16-way set (R69, R253) -/

/-- The fifteen tree bits after a use of way w: each node on the way's path points away from it. Node n has the children
2n + 1 and 2n + 2; a set bit points to the upper half (log entry 9). -/
def plruTouch (t w : Nat) : Nat :=
  ((List.range 4).foldl (fun (x : Nat × Nat) k =>
    let up := bit w (3 - k)
    let v := if up then x.1 - x.1 / 2 ^ x.2 % 2 * 2 ^ x.2 else x.1 + (1 - x.1 / 2 ^ x.2 % 2) * 2 ^ x.2
    (v, 2 * x.2 + 1 + b2n up)) (t, 0)).1

/-- The way the tree points to. -/
def plruVictim (t : Nat) : Nat :=
  ((List.range 4).foldl (fun (x : Nat × Nat) _ =>
    let up := b2n (bit t x.2)
    (2 * x.1 + up, 2 * x.2 + 1 + up)) (0, 0)).1

/-- The way of a set that holds a tag. -/
def setFind {α : Type} (s : CacheSet α) (tag : Nat) : Option (Nat × α) :=
  (s.ways.findSome? fun x => x.2.bind fun y => if y.1 = tag then some (x.1, y.2) else none)

/-- Way to fill: the lowest invalid one, else the pseudo-LRU victim. -/
def setVictim {α : Type} (s : CacheSet α) : Nat :=
  match (List.range 16).find? fun w => (tget s.ways w).isNone with
  | some w => w
  | none => plruVictim s.plru

/-- Puts a tag and content into a way and marks it used. -/
def setPut {α : Type} [DecidableEq α] (s : CacheSet α) (w tag : Nat) (a : α) : CacheSet α :=
  { ways := tset s.ways w (some (tag, a)), plru := plruTouch s.plru w }

/-! ### Map entries and the frond cache -/

/-- The current entry of a frond. -/
def mapGet (d : Dev) (f : Nat) : Entry := tget d.map.ent f

/-- The 512 bits of a map line (R67). -/
def mapBits (d : Dev) (m : Nat) : BitVec 512 :=
  BitVec.ofNat 512 ((lineFronds m).foldl (fun a f => a + (mapGet d f).pack * 2 ^ (40 * mapEnt f)) 0
    + tget d.map.seq m * 2 ^ 480)

/-- A write of map line m also writes its refresh parity: the old parity XOR the old line XOR the new line (R120). `f` is
what it writes. -/
def parWrite (m : Nat) (f : Dev → Dev) (d : Dev) : Dev :=
  let d' := f d
  { d' with map.par := tmod d'.map.par (m / 2) fun p => p ^^^ mapBits d m ^^^ mapBits d' m }

/-- What the controller delivers for a map line whose channel refreshes: its partner XOR their parity line (R120). -/
def dodgeLine (d : Dev) (m : Nat) : BitVec 512 := mapBits d (mapPartner m) ^^^ tget d.map.par (m / 2)

/-- The parity lines of a map taken as it stands (R120): the pairs with a listed entry or count, and the last pair. -/
def parAll (d : Dev) : Tab (BitVec 512) :=
  let qs := (178956970 :: (d.map.ent.map fun (x : Nat × Entry) => mapLine x.1 / 2) ++ d.map.seq.map fun (x : Nat × Nat) => x.1 / 2).dedup
  qs.foldl (fun t q => tset t q (mapBits d (2 * q) ^^^ mapBits d (2 * q + 1))) []

/-- Writes an entry: the DRAM line with its LINE_SEQ and its parity line, and the cached way, in one operation (R68, R70,
R120). -/
def mapPut (f : Nat) (e : Entry) (d : Dev) : Dev :=
  if mapGet d f = e then d else
  parWrite (mapLine f) (fun d => { d with
    map.ent := tset d.map.ent f e
    map.seq := tset d.map.seq (mapLine f) ((tget d.map.seq (mapLine f) + 1) % 65536)
    map.cache := tmod d.map.cache (f % 65536) fun s =>
      match setFind s (f / 65536) with
      | some (w, _) => { s with ways := tset s.ways w (some (f / 65536, e)) }
      | none => s }) d

/-- A frond-cache probe: the entry on a hit (R69), counted. -/
def cacheProbe (f : Nat) (d : Dev) : Option Entry × Dev :=
  let s := tget d.map.cache (f % 65536)
  match setFind s (f / 65536) with
  | some (w, e) =>
    (some e, { d with
      map.cache := tset d.map.cache (f % 65536) { s with plru := plruTouch s.plru w }
      map.cnt := bump d.map.cnt 0 })
  | none => (none, { d with map.cnt := bump d.map.cnt 1 })

/-- On a miss only the requested frond's way is filled (R69). -/
def cacheFill (f : Nat) (d : Dev) : Dev :=
  { d with map.cache := tmod d.map.cache (f % 65536) fun s => setPut s (setVictim s) (f / 65536) (mapGet d f) }

/-- A way whose check bits fail is invalidated, counted and recorded; the lookup is a miss (R70). -/
def cacheBad (f : Nat) (d : Dev) : Dev :=
  let s := tget d.map.cache (f % 65536)
  match setFind s (f / 65536) with
  | some (w, _) =>
    post 0x3023 1 (f % 65536) w 0 0 { d with
      map.cache := tset d.map.cache (f % 65536) { s with ways := tset s.ways w none }
      map.cnt := bump d.map.cnt 2 }
  | none => d

/-! ### Journal (R74, R75) -/

/-- Room in the journal tail for one more record (R75). -/
def tailRoom (d : Dev) : Bool := decide (d.map.tail.length < 4194304)

/-- Appends a record: the whole entry with C and S cleared (R74). -/
def jAppend (f : Nat) (e : Entry) (d : Dev) : Dev :=
  { d with map.tail := d.map.tail ++ [⟨f, e.core, d.map.jseq⟩], map.jseq := d.map.jseq + 1 }

/-- A journaled update: its record first, then the entry (R75). -/
def mapJournal (f : Nat) (e : Entry) (d : Dev) : Dev := mapPut f e (jAppend f e d)

/-! ### Valid rows (R185) -/

/-- Marks a row of the media valid or invalid in its sorus-block's bitmap. -/
def rowMark (slot : Nat) (v : Bool) (d : Dev) : Dev :=
  { d with med.sb := tmod d.med.sb (slotSb slot) fun b => { b with valid := tset b.valid (slotIn slot) v } }

/-- A frond's entry moves from one form to another: the row it named is invalid, the row it names is valid. -/
def rowsMoved (old new : Entry) (d : Dev) : Dev :=
  let d := if old.v && (!new.v || decide (old.slot ≠ new.slot)) then rowMark old.slot false d else d
  if new.v then rowMark new.slot true d else d

/-! ### Poison index and rescue list -/

/-- Enters lines of a frond in the poison index (R236); a full index sets the overflow flag. -/
def pidxAdd (f : Nat) (mask : BitVec 64) (d : Dev) : Dev :=
  if mask = 0 then d
  else if tget d.sec.pidx f ≠ 0 ∨ d.sec.pidx.length < 65536 then { d with sec.pidx := tset d.sec.pidx f (tget d.sec.pidx f ||| mask) }
  else post 0x7022 1 f ((List.range 64).findIdx fun i => mask.getLsbD i) d.sec.pidx.length 0
    { d with sec.povf := true, sec.cnt := bump d.sec.cnt 11 (popBits mask 64) }

/-- A frond whose P clears leaves the index. -/
def pidxDrop (f : Nat) (d : Dev) : Dev := { d with sec.pidx := tset d.sec.pidx f 0 }

/-- Enters a frond in the rescue list; a full list takes nothing (R200). -/
def rescueAdd (f : Nat) (why : Rescue) (d : Dev) : Dev :=
  if d.stw.rescue.any (·.1 = f) then d
  else if d.stw.rescue.length < 65536 then { d with stw.rescue := d.stw.rescue ++ [(f, why)] }
  else post 0x6010 2 f (match why with
    | .recomputed => 0 | .poisoned => 1 | .parity => 2) 0 0 d

/-- A frond leaves the rescue list, and its poison staging entry is freed (R108, R200). -/
def rescueDrop (f : Nat) (d : Dev) : Dev :=
  { d with stw.rescue := d.stw.rescue.filter (·.1 ≠ f), rp.stage := tset d.rp.stage f 0 }

/-! ### Cushion slots -/

/-- The slot a frond holds, by its key (R123: Open or Sealed). -/
def slotFind (d : Dev) (f : Nat) : Option (Nat × Slot) := tfind d.csh.dir fun _ s => s.held && decide (s.frond = f)

/-- The state of a line in the directory (R124). -/
def lineSt (d : Dev) (f l : Nat) : LState := match slotFind d f with
  | some (_, s) => (tget s.lines l).st
  | none => .absent

/-- The keystream of a line of a slot under the cushion key (R127). -/
def cushStream (d : Dev) (gen f l : Nat) : Line := ctrStream d.sec.cushKey gen (lineNo f l)

/-- The cushion's copy of a line, as DRAM holds it. -/
def cushLine (d : Dev) (f l : Nat) : CLine := match slotFind d f with
  | some (_, s) => tget s.lines l
  | none => {}

/-- The sparse entry of a line (R126). -/
def sparseFind (d : Dev) (f l : Nat) : Option (Nat × Mask) :=
  tfind d.csh.sparse fun _ m => decide (m.frond = f) && decide (m.line = l) && decide (m.mask ≠ 0)

/-- The byte-valid mask of a line. -/
def sparseMask (d : Dev) (f l : Nat) : BitVec 64 := match sparseFind d f l with
  | some (_, m) => m.mask
  | none => 0

/-- Frees the sparse entry of a line. -/
def sparseFree (f l : Nat) (d : Dev) : Dev :=
  { d with csh.sparse := d.csh.sparse.filter fun x => !(x.2.frond = f && x.2.line = l) }

/-- Frees every sparse entry of a frond. -/
def sparseFreeAll (f : Nat) (d : Dev) : Dev := { d with csh.sparse := d.csh.sparse.filter fun x => x.2.frond ≠ f }

/-- Sets the mask of a line, allocating an entry: a free way of its set, else a free overflow entry (R126). DESIGN CHOICE:
the lowest free one (log entry 69). -/
def sparsePut (f l : Nat) (mask : BitVec 64) (d : Dev) : Dev :=
  match sparseFind d f l with
  | some (k, _) => { d with csh.sparse := tset d.csh.sparse k ⟨f, l, mask⟩ }
  | none =>
    let base := 16 * sparseSet f l
    let k := match (List.range 16).find? fun w => tget d.csh.sparse (base + w) = default with
      | some w => base + w
      | none => sparseOvf + ((List.range 8192).find? fun o => tget d.csh.sparse (sparseOvf + o) = default).getD 0
    { d with csh.sparse := tset d.csh.sparse k ⟨f, l, mask⟩, csh.cnt := bump d.csh.cnt 4 }

/-- Whether any line of a slot is Sparse: the S flag (R129). -/
def anySparse (s : Slot) : Bool := s.lines.any fun x => x.2.st = .sparse

/-- A map line is being recomputed, or waits for a free recompute: its probes and updates wait (R81). -/
def lineHeld (d : Dev) (f : Nat) : Bool := match tget d.map.err (mapLine f) with
  | some .recompute | some .waiting => true
  | _ => false

/-- Sets C and S of a frond from its slot (R72); not journaled. A line under recompute gets its flags from the directory at
the recompute's end (R68, R81). -/
def setFlags (f : Nat) (d : Dev) : Dev :=
  let e := mapGet d f
  if lineHeld d f then d else
  match slotFind d f with
  | some (_, s) => mapPut f { e with c := true, s := anySparse s } d
  | none => mapPut f { e with c := false, s := false } d

/-- The next generation; when the stored GEN_LIMIT less 2^39 is reached the next limit is requested (R128). -/
def genNext (d : Dev) : Nat × Dev :=
  let g := d.csh.gen + 1
  let d := { d with csh.gen := g }
  (g, if d.pst.nv.genLimit = g + 2 ^ 39 then fwPut (.genLimit (d.pst.nv.genLimit + 2 ^ 40)) d else d)

/-- Allocates a slot for a frond: the lowest Free way of its set (R122), else a free overflow entry (R125). DESIGN CHOICE:
the lowest-numbered free overflow entry (log entry 69). -/
def slotAlloc (f : Nat) (d : Dev) : Nat × Dev :=
  let way := (List.range 16).find? fun w => (tget d.csh.dir (cushKeyOf f w)).st = .free
  let k := match way with
    | some w => cushKeyOf f w
    | none => ovfBase + ((List.range 8192).find? fun o => (tget d.csh.dir (ovfBase + o)).st = .free).getD 0
  let (g, d) := genNext d
  let cnt := bump d.csh.cnt 2
  (k, { d with
    csh.dir := tset d.csh.dir k { frond := f, gen := g, st := .opn, born := d.time }
    csh.cnt := if way.isNone then bump cnt 3 else cnt })

/-- The frond's slot, allocated when it has none. -/
def slotGet (f : Nat) (d : Dev) : Nat × Dev := match slotFind d f with
  | some (k, _) => (k, d)
  | none => slotAlloc f d

/-- A slot that a destage frees or a release discards: Draining, and Free at once when no read holds it (R102, R124). -/
def slotDrain (k : Nat) (d : Dev) : Dev :=
  let s := tget d.csh.dir k
  let d := sparseFreeAll s.frond d
  if s.readers.isEmpty then { d with csh.dir := tset d.csh.dir k {} }
  else { d with csh.dir := tset d.csh.dir k { s with st := .draining } }

/-- Discards a frond's slot without destage (R143). -/
def slotDiscard (f : Nat) (d : Dev) : Dev := match slotFind d f with
  | some (k, _) => slotDrain k d
  | none => d

/-- A read takes its data: it leaves the slot's readers, and a Draining slot without readers turns Free (R102). -/
def slotUnread (k id : Nat) (d : Dev) : Dev :=
  let s := tget d.csh.dir k
  let s := { s with readers := s.readers.filter (· ≠ id) }
  { d with csh.dir := tset d.csh.dir k (if s.st = .draining && s.readers.isEmpty then {} else s) }

/-! ### The guards -/

/-- Credits are withheld now: by Draining, by a failing guard, or in Exhausted-full by the write-queue guard alone (R133,
R135). -/
def withholds (d : Dev) : Bool := match admitState d with
  | 1 | 3 => true
  | 4 => !wqGuard d
  | _ => false

/-- Evaluates the guards and the admission state; each change from returning to withholding posts 0x4010 once (R133). -/
def admitEval (d : Dev) : Dev :=
  let g := guardMask d
  let st := admitState d
  let d := { d with csh.guards := g, csh.admitted := st, ldg.guardFailed := d.ldg.guardFailed || decide (g ≠ 0) }
  if withholds d ∧ !d.csh.withholding then
    post 0x4010 0 (occ d) d.csh.hw g st { d with csh.withholding := true }
  else if !withholds d then { d with csh.withholding := false } else d

/-! ### Map updates (R71–R73) -/

/-- An update of the frond applies at once: the tail has room, no earlier update of the frond waits, and its line is not
being recomputed (R71, R76, R81). -/
def updClear (d : Dev) (f : Nat) : Bool := tailRoom d && !lineHeld d f && d.map.updq.all fun u => u.frond ≠ f

/-- An update reaches the pipeline: it applies now, or it waits in the update queue behind what holds it (R71, R76, R81); a
wait for a full tail is counted and recorded once. -/
def updAsk (u : Upd) (now : Dev → Dev) (d : Dev) : Dev :=
  if updClear d u.frond then now d
  else if tailRoom d then { d with map.updq := d.map.updq ++ [u] }
  else post 0x3025 1 d.map.tail.length d.map.jseq 0 0 { d with
    map.updq := d.map.updq ++ [{ u with waited := true }]
    map.cnt := bump d.map.cnt 7 }

/-- Frond-wide poison of a frond by a journaled update: no row, C and S kept (R83, R136, R231). -/
def makeFrondWide (f : Nat) (d : Dev) : Dev :=
  updAsk { frond := f, op := .frondWide } (fun d =>
    let e := mapGet d f
    let n : Entry := { frondWide with c := e.c, s := e.s }
    pidxAdd f (BitVec.allOnes 64) (rowsMoved e n (mapJournal f n d))) d

/-- Sets P of a frond by a journaled update. -/
def setPoison (f : Nat) (d : Dev) : Dev :=
  let e := mapGet d f
  if e.p then d else updAsk { frond := f, op := .setP } (mapJournal f { e with p := true }) d

/-- Enters a poisoned line in the staging table: 256 fronds, one mask each (R109). Answers whether it is staged. -/
def stagePoison (f l : Nat) (d : Dev) : Bool × Dev :=
  if tget d.rp.stage f ≠ 0 ∨ d.rp.stage.length < 256 then
    (true, { d with rp.stage := tset d.rp.stage f (tget d.rp.stage f ||| BitVec.ofNat 64 (2 ^ l)) })
  else (false, { d with rp.full := d.rp.full + 1 })

/-- Clears P of a frond by a journaled update; the frond leaves the poison index (R235, R236). -/
def clearPoisonBit (f : Nat) (d : Dev) : Dev :=
  let e := mapGet d f
  if e.p then updAsk { frond := f, op := .clearP } (fun d => pidxDrop f (mapJournal f { e with p := false } d)) d
  else pidxDrop f d

/-- A row that Shed Capacity releases adds to I at once when its sorus-block is CLOSED in the pool (R190, R194). -/
def shedRow (shed : Bool) (f : Nat) (d : Dev) : Dev :=
  let e := mapGet d f
  let b := tget d.med.sb (slotSb e.slot)
  if shed && e.v && decide (b.st = .closed) && decide (b.kind = .host) && inPool d (slotSb e.slot) then
    { d with stw.invalid := d.stw.invalid + 1 } else d

/-- Releases a frond (R84) with one update: its slot is discarded, the Released form is written and journaled, its row is
invalid. -/
def releaseNow (shed : Bool) (f : Nat) (d : Dev) : Dev :=
  pidxDrop f (rowsMoved (mapGet d f) {} (mapJournal f {} (slotDiscard f (shedRow shed f d))))

/-- A frond is released in its turn (R71, R84); one already Released that holds no slot is passed over. -/
def releaseFrond (shed : Bool) (f : Nat) (d : Dev) : Dev :=
  if (mapGet d f).core = {} ∧ (slotFind d f).isNone then d
  else updAsk { frond := f, op := .release shed } (releaseNow shed f) d

end Sys2Proof.Machine
end

