-- ==== Sys2Proof/Machine/RingOps.lean ====
section
/-! DEFINITION. Machine/RingOps.lean: cells and remote requests as every family uses them (R269–R280, R291), and the
window and group-key operations of the ring (R247, R249, R280). -/

namespace Sys2Proof.Machine

/-! ### The form of a cell (R273, R274, R278) -/

/-- CLASS of a cell type (R274). -/
def cellCls (type : Nat) : Nat :=
  if type ≤ 2 then 0 else if type ≤ 4 then 1 else if 8 ≤ type ∧ type ≤ 12 then 3 else 6

/-- Virtual channel of a cell type (R275): 0 REQ, 1 RSP, 2 CTL. -/
def cellVc (type : Nat) : Nat :=
  if type ∈ [0x01, 0x03, 0x08, 0x0B] then 0 else if type ∈ [0x02, 0x04, 0x09, 0x0A, 0x0C] then 1 else 2

/-- The type is one of R274. -/
def cellTypeOk (type : Nat) : Bool := decide (type ∈ [1, 2, 3, 4, 5, 6, 8, 9, 10, 11, 12]) || (decide (16 ≤ type) && decide (type ≤ 24))

/-- The type travels under the ring cipher (R274). -/
def cellCipher (type : Nat) : Bool := !decide (type ∈ [0x15, 0x16, 0x17])

/-- PLEN of a cell: by type, a partial write by its enables, a sub-task by its words (R274). -/
def cellPlen (type : Nat) (payload : List Nat) : Nat :=
  if type = 3 then (if payload.getD 1 0 = 2 ^ 64 - 1 then 0 else 1)
  else if type = 8 then (if payload.length ≤ 16 then 1 else 2)
  else if type ∈ [0x09, 0x14, 0x15] then 2 else 0

/-- Units of 32 bytes of a cell (R273). -/
def plenUnits (plen : Nat) : Nat := 1 + 2 ^ (plen + 1)

/-- The payload bytes: a line first where the type carries one, else 64-bit words. -/
def cellPayload (type : Nat) (payload : List Nat) : List Byte :=
  fitTo (64 * 2 ^ cellPlen type payload)
    (if type = 2 then toLe 64 (payload.getD 0 0)
     else if type = 3 then toLe 64 (payload.getD 0 0) ++ (if cellPlen type payload = 0 then [] else toLe 8 (payload.getD 1 0))
     else payload.flatMap (toLe 8))

/-- Header bits [167:0] (R273). -/
def cellHead (src : Nat) (ttl : Nat) (fold : Bool) : CellBody → Nat
  | .own type dst tag line ringB status devload poison epoch _ seq payload =>
    type + cellPlen type payload * 2 ^ 5 + b2n ringB * 2 ^ 7 + src * 2 ^ 8 + dst % 16 * 2 ^ 12 + ttl * 2 ^ 16
      + b2n fold * 2 ^ 21 + b2n poison * 2 ^ 22 + devload * 2 ^ 23 + cellCls type * 2 ^ 25 + epoch * 2 ^ 28
      + tag % 2 ^ 16 * 2 ^ 32 + line % 2 ^ 38 * 2 ^ 48 + status % 2 ^ 16 * 2 ^ 88 + seq % 2 ^ 64 * 2 ^ 104
  | .transit type c =>
    type + c.plen * 2 ^ 5 + b2n c.ringB * 2 ^ 7 + c.src * 2 ^ 8 + c.dst * 2 ^ 12 + ttl * 2 ^ 16
      + b2n fold * 2 ^ 21 + b2n c.poison * 2 ^ 22 + c.devload * 2 ^ 23 + cellCls type * 2 ^ 25 + c.epoch * 2 ^ 28
      + c.tag * 2 ^ 32 + c.line * 2 ^ 48 + c.status * 2 ^ 88 + c.seq * 2 ^ 104

/-- The bytes of an own cell (R273, R278): the payload enciphered under the group key with IV SRC ‖ SEQ, header bits
[167:0] with TTL and FOLD zero as AAD, ICV the first eight tag bytes, and HCRC over bytes 0–29. A cell in transit keeps
its ciphertext and ICV, which no transit member reads, and gets a new HCRC. -/
def cellWire (src : Nat) (fold : Bool) (b : CellBody) : List Byte :=
  match b with
  | .own type _ _ _ _ _ _ _ _ keyid seq payload =>
    let key := fitTo 32 (Config.keyBytes keyid)
    let iv := (toLe 12 (src * 2 ^ 64 + seq % 2 ^ 64)).reverse
    let pl := cellPayload type payload
    let ct := if cellCipher type then gcmCtr key iv pl else pl
    let icv := if cellCipher type then (gcmTag key iv (toLe 21 (cellHead src 0 false b)) ct).take 8 else List.replicate 8 0
    let h := toLe 21 (cellHead src 31 fold b) ++ icv ++ [0]
    h ++ toLe 2 (crc16 h) ++ ct
  | .transit _ c =>
    let h := toLe 21 (cellHead c.src c.ttl fold b) ++ toLe 8 c.icv ++ [0]
    h ++ toLe 2 (crc16 h) ++ c.ct

/-! ### Outbound ports (R271, R272, R275) -/

/-- The port of a side. -/
def portOf (d : Dev) : Side → RPort
  | .west => d.srn.west
  | .east => d.srn.east

/-- Rewrites the port of a side. -/
def portMod (side : Side) (f : RPort → RPort) (d : Dev) : Dev :=
  match side with
  | .west => { d with srn.west := f d.srn.west }
  | .east => { d with srn.east := f d.srn.east }

/-- The other side. -/
def otherSide (s : Side) : Side := match s with
  | .west => .east
  | .east => .west

/-- The code of a side in records: 0 West, 1 East. -/
def sideCode : Side → Nat
  | .west => 0
  | .east => 1

/-- The port a ring leaves by: ring A at East, ring B at West (R266). -/
def ringSide (ringB : Bool) : Side := if ringB then .west else .east

/-- A cell waits at the port of its ring, or is turned at a wrap onto the other ring, with FOLD set (R288). -/
def queueCell (ringB : Bool) (q : QCell) (d : Dev) : Dev :=
  let s := ringSide ringB
  if (portOf d s).wrapped then portMod (otherSide s) (fun p => { p with q := p.q ++ [{ q with fold := true }] }) d
  else portMod s (fun p => { p with q := p.q ++ [q] }) d

/-- Rank of a waiting cell at a cell boundary (R272): a transit C0 cell, unless a local one waits and the last C0 cell was
in transit; a local C0 cell; other transit cells; other local cells in class order. -/
def cellRank (lastTransit : Bool) (c : QCell) : Nat :=
  if c.cls = 0 then (if c.transit then 1 else if lastTransit then 0 else 2)
  else if c.transit then 3 else 3 + c.cls

/-- The link's credits take the cell (R275): its channel's units not yet returned leave room in the neighbour's space. -/
def linkFits (p : RPort) (c : QCell) : Bool := decide (tget p.used c.vc + c.units ≤ 9 + Config.linkUnits c.vc)

/-- The cell that leaves next: of those the credits take, the lowest rank, the oldest of it. -/
def nextCell (p : RPort) : Option QCell :=
  let can := p.q.filter (linkFits p)
  ((List.range 10).findSome? fun r => can.find? fun c => decide (cellRank p.c0Transit c = r))

/-- Cells leave a port while a budget of units lasts. -/
def portSend (side : Side) : Nat → Nat → Dev → Dev
  | 0, _, d => d
  | fuel + 1, budget, d =>
    match nextCell (portOf d side) with
    | none => d
    | some c =>
      if budget < c.units then d else
      portSend side fuel (budget - c.units) (emit (.cell side c.fold c.body (cellWire d.srn.index c.fold c.body))
        (portMod side (fun p => { p with
          q := p.q.erase c
          c0Transit := if c.cls = 0 then c.transit else p.c0Transit
          used := bump p.used c.vc c.units
          back := p.back }) d))

/-- Space of a received cell, or of one that has left in transit, is free again and returned in link control words. -/
def linkFree (side : Side) (vc units : Nat) (d : Dev) : Dev := portMod side (fun p => { p with back := bump p.back vc units }) d

/-- One tick at a port (log entry 74): the neighbour returns what it will of the credits outstanding, this node returns the
space that is free again, and cells leave at 100 GB/s, 31 units in a tick (R266). -/
def portTick (side : Side) (d : Dev) : Dev :=
  let p := portOf d side
  let d := if p.used = [] then d else
    let (v, d) := draw d
    portMod side (fun p => { p with used := (List.range 3).foldl (fun t i => tset t i (tget p.used i - v / 64 ^ i % 64)) [] }) d
  let d := if p.back = [] then d else
    emit (.linkCredits side (tget p.back 0) (tget p.back 1) (tget p.back 2)) (portMod side (fun p => { p with back := [] }) d)
  portSend side p.q.length 31 d

/-! ### The rhizoid line (R281, R282) -/

/-- Bytes of the payload fields of a frame type, in the order of R282 (log entry 75). -/
def frameWidths : Nat → List Nat
  | 0x01 => [1, 1, 1] | 0x02 => [1, 1] | 0x03 => [1] | 0x10 => [8, 8, 1, 1, 1] | 0x11 => [8, 1, 8] | 0x12 => [8, 1]
  | 0x20 => [8, 1] | 0x21 => [1] | 0x22 => [1, 1, 1] | 0x23 => [1] | 0x3F => [1, 1] | _ => []

/-- The bytes of a frame (R282): TYPE, SRC, LEN, payload and CRC-8. -/
def frameBytes (d : Dev) (type : Nat) (payload : List Nat) : List Byte :=
  let pl := (List.zipWith toLe (frameWidths type) payload).flatten
  let b := [BitVec.ofNat 8 type, BitVec.ofNat 8 (if d.srn.indexed then d.srn.index else 16), BitVec.ofNat 8 pl.length] ++ pl
  b ++ [BitVec.ofNat 8 (crc8 b)]

/-- A frame waits for the rhizoid line (R281). -/
def frame (type : Nat) (payload : List Nat) (d : Dev) : Dev :=
  if d.isM then d else { d with srn.rlq := d.srn.rlq ++ [(type, payload)] }

/-- A frame of another node has come over the line whole. One that this node was sending has lost to it when its type is
not lower: it stops and is tried again after the stop (R281). -/
def lineSeen (type : Nat) (d : Dev) : Dev :=
  match d.srn.rlCur with
  | some f => if type ≤ f.1 then { d with srn.rlCur := none, srn.rlq := f :: d.srn.rlq } else d
  | none => d

/-- One tick of the line: a frame that no lower type has beaten ends after 400 µs (R282), and the next one starts. -/
def lineTick (d : Dev) : Dev :=
  match d.srn.rlCur with
  | some f => if d.srn.rlEnd ≤ d.time then emit (.frame f.1 (frameBytes d f.1 f.2)) { d with srn.rlCur := none } else d
  | none => match d.srn.rlq with
    | [] => d
    | f :: q => { d with srn.rlCur := some f, srn.rlq := q, srn.rlEnd := d.time + 40000 }

/-! ### Cells -/

/-- Injects a cell (R273): SEQ counts one per cell, SRN_CNT_0 counts it, and it waits at the port of the ring given. -/
def sendCell (type dst tag line : Nat) (ringB : Bool) (status : Nat) (poison : Bool) (payload : List Nat) (d : Dev) : Dev :=
  queueCell ringB { transit := false, cls := cellCls type, vc := cellVc type, units := plenUnits (cellPlen type payload),
                    body := .own type dst tag line ringB status d.ldg.devload poison d.srn.epoch d.srn.keyid d.srn.seqNext payload }
    { d with srn.seqNext := d.srn.seqNext + 1, srn.cnt := bump d.srn.cnt 0 }

/-- The ring a cell to a member leaves on (R269); ring A when there is no path. -/
def ringTo (d : Dev) (dst : Nat) : Bool := match pathTo d dst with
  | some (b, _) => b
  | none => false

/-- A cell to one member along its path. -/
def cellTo (type dst tag line status : Nat) (payload : List Nat) (d : Dev) : Dev :=
  sendCell type dst tag line (ringTo d dst) status false payload d

/-- The other Live members. -/
def peers (d : Dev) : List Nat := eastWalk d

/-- A cell to every other Live member. -/
def cellAll (type status : Nat) (payload : List Nat) (d : Dev) : Dev :=
  (peers d).foldl (fun d m => cellTo type m 0 0 status payload d) d

/-- A window as the payload of the WIN cells (R247, R274). -/
def winWords (w : Win) : List Nat := [w.base, w.size, w.port, w.dec, b2n w.db]

/-- The side a cell arrives at: the ring it was injected on, or the other once it was turned (R266, R288). -/
def arriveSide (c : Cell) : Side := if c.ringB ≠ c.fold then .east else .west

/-- A cell accepted at its destination (R273, R278): header good, type fit, ICV good, not a replay. Answers whether it is
accepted; discards are counted in SRN_CNT_5 to SRN_CNT_7. Its receive space is free again (R275). Once a dump has begun
only memory requests are accepted, for their NAK (R419). -/
def acceptCell (c : Cell) (type : Nat) (cipher : Bool) (d : Dev) : Bool × Dev :=
  if !d.pwr.mode.ringOn || d.isM || (d.pwr.dumping && type ≠ 1 && type ≠ 3) then (false, d) else
  let d := linkFree (arriveSide c) (cellVc type) (plenUnits c.plen) d
  if !c.hdrOk || c.plen = 3 then (false, { d with srn.cnt := bump d.srn.cnt 5 })
  else if !cipher then (true, { d with srn.cnt := bump d.srn.cnt 1 })
  else if !c.icvOk || !(c.epoch = d.srn.epoch || d.srn.prevEpoch = some c.epoch) then
    let sec := d.time / 100000000 + 1
    let first := decide (d.srn.authSec ≠ sec)
    (false, postIf first 0x200B 2 c.src type c.seq 1 { d with srn.cnt := bump d.srn.cnt 6, srn.authSec := sec })
  else
    let k := c.src * 4 + c.epoch
    let w := tget d.srn.seqs k
    let fresh := w.seen.isEmpty && w.high = 0
    if !fresh && (decide (c.seq + 1024 < w.high) || decide (c.seq ∈ w.seen)) then
      (false, { d with srn.cnt := bump d.srn.cnt 7 })
    else
      let high := max w.high c.seq
      (true, { d with
        srn.seqs := tset d.srn.seqs k { high, seen := (c.seq :: w.seen).filter fun q => decide (high ≤ q + 1024) }
        srn.cnt := bump d.srn.cnt 1 })

/-! ### Snoop queries of engine reads (R256, R309) -/

/-- A ring frond with a line that the host may hold modified, whose victim entry awaits its BIRsp, or whose write-back has not
landed at its owner. -/
def snpBlocked (d : Dev) (rf : Nat) : Bool :=
  (d.hst.bis.any fun b => b.line / 64 = rf && (match b.why with
    | .victim | .engine _ => true
    | .decommit _ => false))
  || d.srn.remotes.any fun r => r.wr.isSome && decide (65536 ≤ r.hostTag) && decide (r.addr / 4096 = rf)

/-- The queries that nothing holds back any more are answered: to this node's engines, or by SNP_DONE. -/
def snpAnswer (d : Dev) : Dev :=
  let (held, ready) := d.hst.snpAsks.partition fun x => snpBlocked d x.2.2
  ready.foldl (fun d (x : Nat × Nat × Nat) =>
    if x.1 = d.srn.index then { d with ope.asking := d.ope.asking.filter fun y => !(y = (x.2.1, x.2.2 % 2 ^ 32)) }
    else cellTo 0x0C x.1 x.2.1 (x.2.2 % 2 ^ 32 * 64) 0 [] d) { d with hst.snpAsks := held }

/-! ### Remote requests at the requester (R276, R277, R291) -/

/-- Takes a write credit toward an owner on a ring, when one is left. -/
def creditTake (owner : Nat) (ringB : Bool) (d : Dev) : Option Dev :=
  let c := tget d.srn.creds owner
  if ringB then (if 0 < c.b then some { d with srn.creds := tset d.srn.creds owner { c with b := c.b - 1 } } else none)
  else (if 0 < c.a then some { d with srn.creds := tset d.srn.creds owner { c with a := c.a - 1 } } else none)

/-- Restores write credits toward an owner, at most 16 a ring. -/
def creditGive (owner a b : Nat) (d : Dev) : Dev :=
  { d with srn.creds := tmod d.srn.creds owner fun c => { a := min 16 (c.a + a), b := min 16 (c.b + b) } }

/-- One attempt of a remote request along the current route: held when the owner cannot be reached (R291), delayed when a
write finds no credit on its ring (R276), else sent with a new SEQ and the same TAG. -/
def remoteSend (r : Remote) (d : Dev) : Remote × Dev :=
  let live := (tget d.srn.members r.owner).st = .live
  match (if live then pathTo d r.owner else none) with
  | none => ({ r with holding := true, sent := false }, d)
  | some (b, _) =>
    let line := lineNo (addrFrond r.addr) (addrLine r.addr)
    match r.wr with
    | none => ({ r with holding := false, sent := true, route := pathTo d r.owner }, sendCell 0x01 r.owner r.tag line b 0 false [] d)
    | some w =>
      match creditTake r.owner b d with
      | none => ({ r with delayed := true, waited := true, sent := false }, d)
      | some d =>
        ({ r with holding := false, delayed := false, sent := true, route := pathTo d r.owner,
                  usedA := r.usedA + b2n (!b), usedB := r.usedB + b2n b },
          sendCell 0x03 r.owner r.tag line b 0 w.poison [w.data.toNat, w.be.toNat] d)

/-- Replaces a remote request by its TAG. -/
def remotePut (r : Remote) (d : Dev) : Dev := { d with srn.remotes := updWhere d.srn.remotes (·.tag = r.tag) fun _ => r }

/-- A host request whose owner is another member goes onto the ring (R269). -/
def remoteStart (hostTag addr : Nat) (wr : Option WrBody) (causes : List Nat) (d : Dev) : Dev :=
  let r : Remote := { tag := d.srn.nextTag, hostTag, addr, wr, owner := addrIndex addr, causes, slice := sliceOf d.time,
                      limit := d.srn.attempts, holdMs := d.srn.holdMs }
  let d := { d with srn.nextTag := (d.srn.nextTag + 1) % 65536 }
  let (r, d) := remoteSend r d
  { d with srn.remotes := d.srn.remotes ++ [r] }

/-- Every held or delayed request is tried again, as when an owner becomes reachable or credits return. -/
def remoteRetryAll (d : Dev) : Dev :=
  d.srn.remotes.foldl (fun d r =>
    if r.holding || r.delayed then let (r, d) := remoteSend { r with delayed := false } d; remotePut r d else d) d

/-- A topology change: the requests outstanding whose route it changed are counted under cause 0x5 (R292); held ones are tried
on the new routes. -/
def topoChange (d : Dev) : Dev :=
  let mark (r : Remote) : Remote :=
    if r.sent && decide (r.route ≠ pathTo d r.owner) then { r with causes := addCause 5 r.causes } else r
  remoteRetryAll { d with srn.remotes := d.srn.remotes.map mark }

/-- h of the path to a member, 0 when there is none (SRN_MEMBER_H, R43). -/
def hopsTo (d : Dev) (dst : Nat) : Nat := match pathTo d dst with
  | some (_, h) => h
  | none => 0

/-- A requester has left: its sub-tasks end here ABORTED, cause REQUESTER, and send nothing more (R314). -/
def subsGone (index : Nat) (d : Dev) : Dev :=
  let gone := d.ope.tasks.filter fun t => (t.sub.map (·.1)) = some index
  let d := gone.foldl (fun d t =>
    post 0x8004 1 t.tq 5 (t.qw.getD 0 0 / 65536 % 65536) 0 { d with
      ope.cnt := bump d.ope.cnt 6
      ope.eng := tmap d.ope.eng fun _ e => if (e.chunk.map (·.1)) = some t.entry then { e with chunk := none } else e
      ope.asking := d.ope.asking.filter fun x => x.1 ≠ t.entry }) d
  { d with ope.tasks := d.ope.tasks.filter fun t => (t.sub.map (·.1)) ≠ some index }

/-! ### The group key (R280) -/

/-- A fresh KEYID: nonzero, below 2^32, and no key loaded in a media slot, the cushion slot or a cipher slot has it (R211). -/
def freshKeyid (d : Dev) : Nat × Dev :=
  let used := d.sec.cushKey :: (d.sec.slots.map (·.2.keyid) ++ d.cph.slots.map (·.2.keyid) ++ [d.srn.keyid])
  let (v, d) := draw d
  let start := v % (2 ^ 32 - 1) + 1
  let cand := (List.range (used.length + 1)).map fun i => (start - 1 + i) % (2 ^ 32 - 1) + 1
  ((cand.find? fun k => !(used.contains k)).getD start, { d with sec.cnt := bump d.sec.cnt 5 })

/-- The holder starts a new epoch: EPOCH + 1 modulo 4, a new key, sent to every member, whose acknowledgements are then
awaited; alone it switches at once (R280). Cause for record 0x200A: 0 leave, 1 SEQ, 2 command, 3 new holder. -/
def epochSwitch (epoch keyid cause : Nat) (d : Dev) : Dev :=
  post 0x200A 0 epoch keyid d.srn.holder cause { d with
    srn.prevEpoch := some d.srn.epoch
    srn.epoch := epoch
    srn.keyid := keyid
    srn.newKey := none
    srn.acks := []
    srn.seqs := d.srn.seqs.filter fun x => x.1 % 4 ≠ epoch
    srn.seqNext := 0 }

/-- See `epochSwitch`. -/
def epochStart (cause : Nat) (d : Dev) : Dev :=
  if d.srn.newKey.isSome then d else
  let (k, d) := freshKeyid d
  let e := (d.srn.epoch + 1) % 4
  if (peers d).isEmpty then epochSwitch e k cause d
  else cellAll 0x15 0 [1, e, k] { d with srn.newKey := some (e, k), srn.acks := peers d, srn.keyCause := cause }

/-- A request for a new epoch (0xC002, SRN_CTL_GROUP_REKEY): the holder starts it, another member asks the holder. -/
def epochAsk (d : Dev) : Dev :=
  if !isMember d then d
  else if holderOf d = d.srn.index then epochStart 2 d
  else cellTo 0x15 (holderOf d) 0 0 0 [4] d

/-! ### One tick of TIME -/

/-- Receive space held for the responses this node is owed, in units (R275): a read's or a write's, a snoop answer's, and
of each sub-task the result cells it may still send and its end. No response is ever refused for want of space. -/
def rspReserved (d : Dev) : Nat :=
  3 * d.srn.remotes.length + 3 * d.ope.asking.length
    + (d.ope.tasks.map fun t => ((t.subs.filter fun s => !s.ended).map fun s => 9 * (d.ope.set.cells - s.uncred) + 3).sum).sum

/-- The holder starts a new epoch when a SEQ passes 2^63 (R280). -/
def seqWatch (d : Dev) : Dev :=
  if isMember d && decide (holderOf d = d.srn.index)
      && (decide (2 ^ 63 < d.srn.seqNext) || d.srn.seqs.any fun x => decide (x.1 % 4 = d.srn.epoch) && decide (2 ^ 63 < x.2.high))
  then epochStart 1 d else d

/-- The ring's part of a tick: both ports, the rhizoid line, the watch over SEQ. -/
def linkTick (d : Dev) : Dev :=
  if d.isM then d else lineTick (if d.pwr.mode.ringOn then seqWatch (portTick .east (portTick .west d)) else d)

/-- One tick of TIME passes: what an idle step does (log entry 1). -/
def tick (s : State) : State := { s with dev := tripFollow (linkTick { s.dev with time := s.dev.time + 1 }) }

/-! ### CDAT (R252) -/

/-- The table is rebuilt when the ring forms, splices, wraps or parts. -/
def cdatRebuild (d : Dev) : Dev :=
  if d.isM then d else
  let n := d.hst.cdatSeq + 1
  post 0x1050 0 n (1 + ((peers d).filter fun m => (pathTo d m).isSome).length) 0 0
    { d with hst.cdatSeq := n, hst.cdatChanged := true }

/-! ### Windows (R247, R249) -/

/-- Removes the window of a port's decoder from the window table. -/
def winDrop (port dec : Nat) (d : Dev) : Dev :=
  { d with hst.wins := d.hst.wins.filter fun x => !(x.1.port = port && x.1.dec = dec) }

/-- Two windows overlap (R22). -/
def winOverlap (a b : Win) : Bool := decide (a.base < b.base + b.size) && decide (b.base < a.base + a.size)

/-- Enters a window in the window table, replacing the same decoder's; at most 64 windows (R247). -/
def winPut (w : Win) (st : WinSt) (d : Dev) : Dev :=
  let d := winDrop w.port w.dec d
  if d.hst.wins.length < 64 then { d with hst.wins := d.hst.wins ++ [(w, st)] } else d

/-- The release cell of a window to every member, and its removal here (R249). -/
def winRelease (w : Win) (d : Dev) : Dev := winDrop w.port w.dec (cellAll 0x13 0 (winWords w) d)

/-- The window base of decoder n in ring space: skips and sizes below it plus its own skip (R245). -/
def decWinBase (d : Dev) (n : Nat) : Nat :=
  (List.range n).foldl (fun a i => a + (tget d.hst.decs i).skip + (tget d.hst.decs i).size) 0 + (tget d.hst.decs n).skip

/-- The window of decoder n. -/
def decWin (d : Dev) (n : Nat) : Win :=
  let x := tget d.hst.decs n
  { base := decWinBase d n / 2 ^ 28, size := x.size / 2 ^ 28, port := d.srn.index, dec := n, db := x.bi }

end Sys2Proof.Machine
end

