-- ==== Sys2Proof/Machine/Cipher.lean ====
section
/-! DEFINITION. Machine/Cipher.lean: the cipher engine's key slots and their commands, and the checks and the start of its
requests (R325–R334). -/

namespace Sys2Proof.Machine

/-! ### Key slots (R325–R328) -/

/-- A slot holds a key. -/
def cSlotOk (d : Dev) (k : Nat) : Bool := (tget d.cph.slots k).st = .loaded

/-- The key a KEK slot may wrap and unwrap with: Loaded with LEN 256 (R326). -/
def kekOf (d : Dev) (k : Nat) : Option (List Byte) :=
  let x := tget d.cph.slots k
  if x.st = .loaded ∧ x.len = 2 ∧ k < 24 then some x.key else none

/-- The attributes of 0xC210 and 0xC211 as a slot. -/
def attrSlot (attr keyid : Nat) (key : List Byte) : CSlot :=
  { st := .loaded, len := attr % 4, engine := bit attr 2, exportable := bit attr 3, persist := bit attr 4, keyid, key }

/-- A key is loaded into an Empty slot: its record when it persists, CPH_CNT_7, record 0x7040 (R326, R328). -/
def cphLoad (k attr how : Nat) (key : Nat → List Byte) (d : Dev) : Res × Dev :=
  let go (d : Dev) : Res × Dev :=
    let (id, d) := freshKeyid d
    let x := attrSlot attr id (key id)
    let d := if x.persist then
        fwWrite (.cphRec k { keyid := id, wrapped := keyWrap (fitTo 32 (Config.keyBytes d.rootKey)) x.key,
                             seq := (tget d.pst.nv.cphKeys k).next, empty := false } { x with key := [] }) d else d
    ans rcOk (toLe 4 id) (post 0x7040 0 k how id attr
      { d with cph.slots := tset d.cph.slots k x, cph.cnt := bump d.cph.cnt 7 })
  if bit attr 4 then
    if 3 ∈ d.pst.worn then ret rcWorn { d with pst.cnt := bump d.pst.cnt 5 }
    else if supplyOk d then go d
    else let (v, d) := draw d; ret rcSupply (supplyLow 3 (v % 1020) d)
  else go d

/-- CPH_KEY_GENERATE (R326). -/
def cphGenerate (p : List Byte) (d : Dev) : Res × Dev :=
  let k := byte p 0
  let attr := byte p 1
  if (tget d.cph.slots k).st ≠ .empty then ret rcInput d
  else cphLoad k attr 0 (fun id => fitTo (keyLen (attr % 4)) (Config.keyBytes id)) d

/-- Meaning of CPH_KEY_GENERATE (R326, R352). -/
def execCphKeyGenerate (tr : Transport) (p : List Byte) (s : State) : Ans :=
  run (command 0xC210 mSDTM false (len 2) (fun p => byte p 0 < 24 && byte p 1 < 32) cphGenerate tr p) s

/-- A plaintext key may come only under a CXL.io IDE stream that is not Insecure, or a secured SPDM session (R326). -/
def importSafe (tr : Transport) (secured : Bool) (d : Dev) : Bool := secured && (match tr with
  | .vdm | .i3c => true
  | _ => [1, 2].any fun k => (tget d.hst.ide k).keyed && !(tget d.hst.ide k).insecure)

/-- CPH_KEY_IMPORT (R326): the checks of its own, a refusal recorded. -/
def cphImport (tr : Transport) (secured : Bool) (p : List Byte) (d : Dev) : Res × Dev :=
  let k := byte p 0
  let attr := byte p 1
  let form := byte p 2
  let n := le p 4 2
  let bytes := (p.drop 8).take n
  let refuse (rc : Nat) (d : Dev) : Res × Dev := ret rc (post 0x7043 1 k form rc 0 d)
  if (tget d.cph.slots k).st ≠ .empty then refuse rcInput d
  else if form = 1 then
    match kekOf d (byte p 3) with
    | none => refuse rcInput d
    | some kek => match keyUnwrap kek bytes with
      | none => refuse rcInput d
      | some key => cphLoad k attr 1 (fun _ => fitTo (keyLen (attr % 4)) key) d
  else if importSafe tr secured d then cphLoad k attr 1 (fun _ => bytes) d
  else refuse rcSecState d

/-- Meaning of CPH_KEY_IMPORT (R326, R352). -/
def execCphKeyImport (tr : Transport) (p : List Byte) (secured : Bool) (s : State) : Ans :=
  run (command 0xC211 mSDTM false (fun n => 8 ≤ n && n = 8 + le p 4 2)
    (fun p => byte p 0 < 24 && byte p 1 < 32 && byte p 2 < 2 && byte p 3 < 32 && zeros p 6 2
      && le p 4 2 = keyLen (byte p 1 % 4) + (if byte p 2 = 1 then 8 else 0))
    (cphImport tr secured) tr p) s

/-- CPH_KEY_WRAP (R326). -/
def cphWrap (p : List Byte) (d : Dev) : Res × Dev :=
  let x := tget d.cph.slots (byte p 0)
  match kekOf d (byte p 1) with
  | none => ret rcInput d
  | some kek =>
    if x.st ≠ .loaded ∨ !x.exportable then ret rcInput d
    else ans rcOk (keyWrap kek x.key) d

/-- Meaning of CPH_KEY_WRAP (R326, R352). -/
def execCphKeyWrap (tr : Transport) (p : List Byte) (s : State) : Ans :=
  run (command 0xC214 mSDTM false (len 2) (fun p => byte p 0 < 24 && byte p 1 < 24) cphWrap tr p) s

/-! ### Requests (R332–R334) -/

/-- Quadword i of a descriptor. -/
def CReq.q (r : CReq) (i : Nat) : Nat := r.qw.getD i 0

/-- Key slot of a request. -/
def CReq.slot (r : CReq) : Nat := bits (r.q 0) 4 0
/-- Mode. -/
def CReq.mode (r : CReq) : Nat := bits (r.q 0) 8 5
/-- Direction: decrypt or verify. -/
def CReq.dec (r : CReq) : Bool := bit (r.q 0) 9
/-- TAGLEN field. -/
def CReq.tagF (r : CReq) : Nat := bits (r.q 0) 17 14
/-- DU_LOG2 field. -/
def CReq.du (r : CReq) : Nat := bits (r.q 0) 21 18
/-- Message bytes. -/
def CReq.n (r : CReq) : Nat := bits (r.q 1) 26 0
/-- AAD bytes. -/
def CReq.aadN (r : CReq) : Nat := bits (r.q 1) 47 32
/-- The sixteen IV bytes. -/
def CReq.iv (r : CReq) : List Byte := toLe 8 (r.q 5) ++ toLe 8 (r.q 6)

/-- Code of an origin in record 0x7042, and its counter. -/
def COrigin.code : COrigin → Nat
  | .firmware => 0 | .host _ => 1 | .engine _ => 2

/-- A host descriptor is well formed (R330, R331, R333): kinds, reserved bits, operand limits. -/
def descOk (r : CReq) (inl : Nat) : Bool :=
  let src := bits (r.q 0) 11 10
  let dst := bits (r.q 0) 13 12
  decide (src < 2) && decide (dst < 2) && bits (r.q 0) 31 22 = 0 && bits (r.q 0) 63 48 = 0
  && bits (r.q 1) 31 27 = 0 && bits (r.q 1) 63 48 = 0 && decide (r.q 2 < 2 ^ 48) && decide (r.q 3 < 2 ^ 48)
  && decide (r.q 4 < 2 ^ 33) && r.q 7 = 0 && decide (r.mode ≤ 5) && tagLenOk r.mode r.tagF && ivOk r.mode r.iv
  && (r.mode = 3 || r.aadN = 0) && (r.du = 0 || (decide (9 ≤ r.du) && decide (r.du ≤ 15)))
  && (if src = 0 then r.q 2 = 0 && r.q 4 = 0 && decide (r.aadN + r.n ≤ 4032) && decide (inl = r.aadN + r.n)
      else decide (r.q 2 + r.n ≤ 2 ^ 33) && decide (r.q 4 + r.aadN ≤ 2 ^ 33) && inl = 0)
  && (if dst = 0 then r.q 3 = 0 else decide (r.q 3 + outMax r.mode r.dec r.n r.tagF ≤ 2 ^ 33))

/-- The key serves the request (R325, R329): Loaded, for its origin, a LEN that fits, unequal XTS halves. -/
def keyFits (d : Dev) (r : CReq) (engine : Bool) : Bool :=
  let x := tget d.cph.slots r.slot
  x.st = .loaded && lenFits r.mode x.len && (if engine then x.engine else decide (r.slot < 24))
  && !(r.mode = 4 && x.key.take (x.key.length / 2) = x.key.drop (x.key.length / 2))

/-- The status a host request has before any work (R329–R334), the first that holds: FORMAT, KEY, LENGTH, else OK. -/
def preStatus (d : Dev) (r : CReq) (inl : Nat) : Nat :=
  if !descOk r inl then 5
  else if !keyFits d r false then 4
  else if !lengthOk r.mode r.dec r.n r.tagF r.du then 3
  else if bits (r.q 0) 13 12 = 0 ∧ 4064 < outMax r.mode r.dec r.n r.tagF then 3
  else 0

/-- The counters of an ending (R338). -/
def cphCount (o : COrigin) (status : Nat) (d : Dev) : Dev :=
  let c := bump d.cph.cnt o.code
  { d with cph.cnt := match status with
      | 1 => bump c 3
      | 2 => bump c 4
      | 3 | 4 | 5 => bump c 5
      | 6 => bump c 6
      | _ => c }

/-- The largest use of the queue is kept (CPH_QUEUE_PEAK). -/
def cphEnq (r : CReq) (d : Dev) : Dev :=
  { d with cph.queue := d.cph.queue ++ [r], cph.peak := max d.cph.peak (d.cph.queue.length + 1) }

/-- CPH_REQUEST (R332–R334): refused before any work, or queued until a core ends it. -/
def cphRequest (tr : Transport) (p : List Byte) (d : Dev) : Res × Dev :=
  let r : CReq := { origin := .host tr, qw := (List.range 8).map fun i => le p (8 * i) 8,
                    aad := (p.drop 64).take (bits (le p 8 8) 47 32), msg := p.drop (64 + bits (le p 8 8) 47 32) }
  let scr := bits (r.q 0) 11 10 ≠ 0 ∨ bits (r.q 0) 13 12 ≠ 0
  if d.pwr.mode = .transit ∧ scr then ret rcBusy d
  else
    let st := preStatus d r (p.length - 64)
    if st ≠ 0 then ret rcInput (cphCount r.origin st d)
    else if 8 ≤ d.cph.coresOff.length then ret rcInternal (cphCount r.origin 6 d)
    else (.long .cipher 2 r.n, cphEnq r d)

/-- Meaning of CPH_REQUEST (R332, R352). -/
def execCphRequest (tr : Transport) (p : List Byte) (s : State) : Ans :=
  run (command 0xC213 mSDTM false (fun n => 64 ≤ n) (fun _ => true) (cphRequest tr) tr p) s

/-- Reads scratch bytes (R311). -/
def scratchRead (d : Dev) (off n : Nat) : List Byte := (List.range n).map fun i => tget d.ope.scratch (off + i)

/-- Writes scratch bytes, the list staying canonical. -/
def scratchWrite (off : Nat) (b : List Byte) (d : Dev) : Dev :=
  { d with ope.scratch := b.zipIdx.foldl (fun t (x : Byte × Nat) => tset t (off + x.2) x.1) d.ope.scratch }

/-- Order of an origin at a free core (R332). -/
def COrigin.rank : COrigin → Nat
  | .firmware => 0 | .host _ => 1 | .engine _ => 2

/-- CIPHER_REQUEST_START: a free core takes the oldest waiting request of the highest origin, with its key and operands. -/
def cipherStart (core : Nat) (d : Dev) : Dev :=
  if 8 ≤ core ∨ core ∈ d.cph.coresOff ∨ (d.cph.queue.any fun r => r.core = some core) then d
  else
    match (sortBy (fun x : CReq × Nat => x.1.origin.rank) ((d.cph.queue.zipIdx).filter fun x => x.1.core.isNone)).head? with
    | none => d
    | some (r, i) =>
      let scr := bits (r.q 0) 11 10 = 1
      { d with
        cph.queue := d.cph.queue.set i { r with
          core := some core
          key := (tget d.cph.slots r.slot).key
          aad := if scr then scratchRead d (r.q 4) r.aadN else r.aad
          msg := if scr then scratchRead d (r.q 2) r.n else r.msg } }

/-- Meaning of CIPHER_REQUEST_START (R332). -/
def execCipherRequestStart (core : Nat) (s : State) : Ans := run (cipherStart core) s

end Sys2Proof.Machine
end

