-- ==== Sys2Proof/Machine/LinePath.lean ====
section
/-! DEFINITION. Machine/LinePath.lean: the shared operations of a line's way through the node: the snoop filter
(R253–R255), the cushion write (R129, R136, R232), the route choice (R91, R97), and the ends of requests. -/

namespace Sys2Proof.Machine

/-! ### The snoop filter -/

/-- Set and tag of a line (R253). -/
def sfSet (a : Nat) : Nat := bits a 22 6
/-- Tag of a line (R253). -/
def sfTag (a : Nat) : Nat := bits a 47 23

/-- The state of a line in the filter. -/
def sfLook (d : Dev) (a : Nat) : Option (Nat × SfSt) := setFind (tget d.hst.sf (sfSet a)) (sfTag a)

/-- Entries in the victim buffer. -/
def victims (d : Dev) : Nat := (d.hst.bis.filter fun b => b.why = .victim).length

/-- Valid snoop-filter entries (HST_SF_USED). -/
def sfUsed (d : Dev) : Nat := d.hst.sf.foldl (fun n s => n + s.2.ways.length) 0

/-- Request credits are withheld from the high threshold on until the low one is reached (R255). -/
def sfThresholds (d : Dev) : Dev :=
  let v := victims d
  let d := { d with hst.sfPeak := max d.hst.sfPeak v }
  if d.hst.credHeld then (if v ≤ d.hst.thLow then { d with hst.credHeld := false } else d)
  else if d.hst.thHigh ≤ v then
    post 0x1020 1 v (sfUsed d) 0 0 { d with hst.credHeld := true, hst.heldSlice := true }
  else d

/-- Deallocates a line's entry. -/
def sfDrop (a : Nat) (d : Dev) : Dev :=
  match sfLook d a with
  | some (w, _) => { d with hst.sf := tmod d.hst.sf (sfSet a) fun s => { s with ways := tset s.ways w none } }
  | none => d

/-- Sets a line's state, allocating a way; a full set evicts its pseudo-LRU way into the victim buffer (R253, R254). -/
def sfPut (a : Nat) (st : SfSt) (d : Dev) : Dev :=
  let s := tget d.hst.sf (sfSet a)
  match setFind s (sfTag a) with
  | some (w, _) => { d with hst.sf := tset d.hst.sf (sfSet a) (setPut s w (sfTag a) st) }
  | none =>
    let w := setVictim s
    let d' := { d with hst.sf := tset d.hst.sf (sfSet a) (setPut s w (sfTag a) st) }
    match tget s.ways w with
    | some (t, _) =>
      sfThresholds { d' with
        hst.bis := d.hst.bis ++ [{ line := t * 2 ^ 17 + sfSet a, why := .victim }]
        hst.cnt := bump d.hst.cnt 2 }
    | none => d'

/-- The entry after a request, by its MetaValue (R253). `rd`: MemRd or MemRdData; `wrq`: MemWr; neither: MemClnEvct. -/
def sfAfter (rd wrq : Bool) (mv : Meta) (a : Nat) (d : Dev) : Dev :=
  let cur := (sfLook d a).map (·.2)
  match mv with
  | .a => if rd || wrq then sfPut a .a d else d
  | .s => if rd then sfPut a (if cur = some .a then .a else .s) d else if wrq then sfPut a .s d else d
  | .i => sfDrop a d
  | .noop => if rd && cur.isNone then sfPut a .a d else match cur with
    | some st => sfPut a st d
    | none => d

/-! ### Requests at the host port -/

/-- The decoder that maps a host address, committed (R21). -/
def decFind (d : Dev) (a : Nat) : Option (Nat × Dec) :=
  tfind d.hst.decs fun _ x => decide (x.st = .committed) && decide (x.base ≤ a) && decide (a < x.base + x.size)

/-- A request refused by mode or without a decoder: counted, and recorded first in each 1 s (R250, R261). -/
def notServed (cause a : Nat) (d : Dev) : Dev :=
  let sec := d.time / 100000000 + 1
  postIf (decide (d.hst.refusedSec ≠ sec)) 0x1040 1 cause (a / 2 ^ 32) a d.pwr.mode.code
    { d with hst.cnt := bump d.hst.cnt 4, hst.refusedSec := sec }

/-- An answer to a host tag (16 bits); a request whose port was reset, or a write-back, has no host tag (2^16) and is
never answered (R259). -/
def toHost (tag : Nat) (o : Out) (d : Dev) : Dev := if tag < 65536 then emit o d else d

/-- A read answered with poison: the Poison bit and 64 zero bytes (R112). -/
def poisonHost (tag : Nat) (d : Dev) : Dev := toHost tag (.data tag 0 true d.ldg.devload) d

/-- A completion. -/
def ndrHost (tag : Nat) (d : Dev) : Dev := toHost tag (.ndr tag d.ldg.devload) d

/-- The write credit of a completed host write returns with the completion, or is withheld (R133, R135). -/
def hostCredit (tag : Nat) (d : Dev) : Dev :=
  if 65536 ≤ tag then d
  else if creditOk d then { d with csh.pace := if admitState d = 2 then d.csh.pace - 1 else d.csh.pace }
  else { d with csh.credHost := d.csh.credHost - 1, csh.owedHost := d.csh.owedHost + 1 }

/-- IDE check of a request on the CXL.mem stream (R257): the failing epoch and every later request are dropped. -/
def ideDrops (fx : ReqFx) (d : Dev) : Bool := fx.ideBad || (tget d.hst.ide 0).insecure

/-- A dropped request is counted; a failure sets the stream Insecure and is recorded. -/
def ideDrop (fx : ReqFx) (d : Dev) : Dev :=
  let was := (tget d.hst.ide 0).insecure
  postIf (fx.ideBad && !was) 0x1030 3 0 1 0 0
    { d with hst.ide := tmod d.hst.ide 0 fun i => { i with insecure := true }, hst.cnt := bump d.hst.cnt 6 }

/-! ### Requests in the node -/

/-- Replaces a request. -/
def reqPut (r : Req) (d : Dev) : Dev := { d with rp.reqs := updWhere d.rp.reqs (·.id = r.id) fun _ => r }

/-- Finds a request. -/
def reqGet (d : Dev) (id : Nat) : Option Req := d.rp.reqs.find? (·.id = id)

/-- Removes a request: its pin lifts and its slot's reader leaves (R93, R102). -/
def reqDrop (r : Req) (d : Dev) : Dev :=
  let d := { d with rp.reqs := d.rp.reqs.filter (·.id ≠ r.id) }
  match r.key with
  | some k => slotUnread k r.id d
  | none => d

/-- The requester as record 0x3026 names it: a peer's ring index, or 0xFF for this node's own host. -/
def Origin.who : Origin → Nat
  | .ring s _ _ => s
  | .host _ | .back _ => 255

/-- Traffic class of a request at this node (R396). -/
def Req.cls (r : Req) : Nat := match r.org with
  | .host _ => b2n r.wr.isSome
  | .ring .. => 2 + b2n r.wr.isSome
  | .back c => c

/-- The arbiter's class of a request's accesses (R45): C0 for the host's and the ring's, C3 for engines, C5 for management
DMA, C2 for the rest of the node's own. -/
def Req.grantCls (r : Req) : Nat := match r.org with
  | .host _ | .ring .. => 0
  | .back c => if c = 4 then 3 else if c = 6 then 5 else 2

/-- The packed parameter of R114: line, route, class. -/
def Req.packed (r : Req) : Nat := r.line + r.route * 256 + r.cls * 65536

/-- The ring address of a request owned here. -/
def Req.addr (d : Dev) (r : Req) : Nat := ringAddr d.srn.index r.frond r.line

/-- A read ends: data or poison to its requester, and its account (R40, R60, R112). The owner of a ring read counts it under
the causes it met here (R106, R107; log entry 70). -/
def finishRead (r : Req) (data : Line) (poison : Bool) (lat : Lat) (d : Dev) : Dev :=
  let d := reqDrop r d
  let data := if poison then 0 else data
  match r.org with
  | .host tag =>
    account 0 lat r.causes (r.addr d) 0 r.slice
      (toHost tag (.data tag data poison d.ldg.devload) { d with hst.cnt := bump d.hst.cnt 0 })
  | .ring src tag _ =>
    overruns r.causes 2 lat.total (r.addr d)
      (feedLines lat (sendCell 0x02 src tag (lineNo r.frond r.line) (ringTo d src) 0 poison [data.toNat] d))
  | .back _ => d

/-- A write ends: the completion and credit to the host, or a WR_ACK with its credit to the requester (R131, R276). -/
def finishWrite (r : Req) (lat : Lat) (d : Dev) : Dev :=
  let d := admitEval (reqDrop r d)
  match r.org with
  | .host tag =>
    account 1 lat r.causes (r.addr d) 0 r.slice
      (hostCredit tag (ndrHost tag { d with hst.cnt := bump d.hst.cnt 1 }))
  | .ring src tag ringB =>
    let ok := creditOk d
    let d := { d with srn.applied := d.srn.applied ++ [(src * 65536 + tag, d.time)] }
    let d := if ok then { d with csh.pace := if admitState d = 2 then d.csh.pace - 1 else d.csh.pace } else if ringB then
        { d with csh.credE := d.csh.credE - 1, csh.owedE := d.csh.owedE + 1, srn.owed := bump d.srn.owed (src * 2 + 1) }
      else { d with csh.credW := d.csh.credW - 1, csh.owedW := d.csh.owedW + 1, srn.owed := bump d.srn.owed (src * 2) }
    overruns r.causes 3 lat.total (r.addr d)
      (feedLines lat (sendCell 0x04 src tag (lineNo r.frond r.line) (ringTo d src) (b2n ok) false [] d))
  | .back _ => d

/-! ### The cushion write -/

/-- The line state after a write (R129). -/
def stAfter (old : LState) (z full poison : Bool) (mask be : BitVec 64) : LState :=
  if poison then .poisoned
  else if full then .full
  else match old with
    | .full => .full
    | .poisoned => .poisoned
    | .sparse => if mask ||| be = BitVec.allOnes 64 then .full else .sparse
    | .absent => if z then .full else .sparse

/-- What DRAM holds of a line after a write of its enabled bytes: their ciphertext and their check bits (R117, R127). A
partial write on a Released frond's absent line writes all 64 bytes, zeros where it is not enabled (R129). -/
def lineStore (old : CLine) (w : WrBody) (zeros : Bool) (ks : Line) (st : LState) : CLine :=
  let en := if zeros then BitVec.allOnes 64 else w.be
  let data := mergeLine old.data ((if zeros then mergeLine 0 w.data w.be else w.data) ^^^ ks) en
  { st, data, chk := (old.chk &&& ~~~ en) ||| (lineChk data &&& en) }

/-- A full-line write covers a line for the reads that looked it up before (R103). -/
def reqsCover (f l : Nat) (d : Dev) : Dev :=
  { d with rp.reqs := updWhere d.rp.reqs (fun r => r.frond = f && r.line = l) fun r => { r with covered := true } }

/-- A line lands in the cushion: slot and sparse entry allocated as needed, both mirror queues entered, DIRTY set, flags
updated (R129–R131). A poisoned write enters as Poisoned and sets P (R258). -/
def cushWrite (f l : Nat) (w : WrBody) (d : Dev) : Dev :=
  let full := w.be = BitVec.allOnes 64
  let z := (mapGet d f).z
  let (k, d) := slotGet f d
  let s := tget d.csh.dir k
  let old := tget s.lines l
  let mask := sparseMask d f l
  let st := stAfter old.st z full w.poison mask w.be
  let line := lineStore old w (old.st = .absent && z && !full) (cushStream d s.gen f l) st
  let d := if full then reqsCover f l d else d
  let d := if st = .sparse then sparsePut f l (mask ||| w.be) d else sparseFree f l d
  let p := (slotPlace k).1
  let cnt := bump d.csh.cnt (if full then 0 else 1)
  let d := setFlags f { d with
    csh.dir := tset d.csh.dir k { s with lines := tset s.lines l line, dirty := true }
    csh.wq := bump (bump d.csh.wq (2 * p)) (2 * p + 1)
    ldg.grants := bump d.ldg.grants 2 2
    csh.cnt := if !full && old.st = .absent && z && !w.poison then bump cnt 5 else cnt }
  if w.poison then setPoison f (pidxAdd f (BitVec.ofNat 64 (2 ^ l)) d) else d

/-- A write needs a directory way, an overflow entry or a sparse entry (R136). -/
def needsAlloc (d : Dev) (f l : Nat) (w : WrBody) : Bool :=
  (slotFind d f).isNone ||
    (!w.poison && w.be ≠ BitVec.allOnes 64 && lineSt d f l = .absent && !(mapGet d f).z)

/-- A frond at or above MAP_LIMIT: counted and recorded (R87). -/
def beyondLimit (a : Nat) (wr : Bool) (who : Nat) (d : Dev) : Dev :=
  post 0x3026 2 (a / 65536) (a % 65536) (b2n wr) who { d with map.cnt := bump d.map.cnt 8 }

/-- A write to a frozen frond: completed, discarded, counted; recorded first in each 1 s (R232). -/
def frozenWrite (f a cls : Nat) (d : Dev) : Dev :=
  let sec := d.time / 100000000 + 1
  let run := if d.sec.frozenSec = sec then d.sec.frozenRun + 1 else 1
  postIf (decide (d.sec.frozenSec ≠ sec)) 0x7033 2 f (a / 65536) (a % 65536 + cls * 65536) run
    { d with sec.cnt := bump d.sec.cnt 13, sec.frozenSec := sec, sec.frozenRun := run }

/-- A write discarded in Exhausted-full (R136), with the persistent WRITE_REFUSED status at the first (R193). -/
def exhaustedWrite (f a cls : Nat) (d : Dev) : Dev :=
  let d := post 0x4015 3 (a / 65536) (a % 65536 + cls * 65536) f 0
    { makeFrondWide f d with csh.cnt := bump (makeFrondWide f d).csh.cnt 10 }
  if d.stw.refused then d
  else post 0x6011 3 f 0 0 0 (fwPut (.writeRefused true) { d with stw.refused := true })

/-- The write after its probe, by the first rule that applies: beyond the limit (R87), frozen (R232), Exhausted-full
(R136), or into the cushion (R129). A line from the host port or the ring counts in W (R55); DESIGN CHOICE: it is admitted in
the slice in which its probe ends (log entry 71). -/
def writeLine (f l : Nat) (w : WrBody) (a cls who : Nat) (d : Dev) : Dev :=
  if d.map.limit ≤ f then beyondLimit a true who d
  else
    let d := if cls < 4 then { d with ldg.runW := d.ldg.runW + 1 } else d
    if f ∈ d.sec.frozen then frozenWrite f a cls d
    else if admitState d = 4 ∧ needsAlloc d f l w then exhaustedWrite f a cls d
    else cushWrite f l w d

/-! ### The read routes -/

/-- The refresh window a channel lies in now (R119). -/
def refreshing (d : Dev) (ch : Nat) : Bool := decide (ch % 3 = d.csh.rfWindow % 3)

/-- The channels that serve a read of map line m: its own, or while that one refreshes the other two of its triple (R120). -/
def mapChans (d : Dev) (m : Nat) : List Nat :=
  if refreshing d (mapChan m).1 then [(mapChan (mapPartner m)).1, (mapChan m).2] else [(mapChan m).1]

/-- C0 reads queued at a channel: cushion reads on that mirror and map-line reads (R45, R101). -/
def c0Queue (d : Dev) (ch : Nat) : Nat :=
  (d.rp.reqs.filter fun r => (r.cu ≠ 0 && (match r.key with
      | some k => decide (2 * (slotPlace k).1 + r.mirror = ch)
      | none => false))
    || (r.stage = .mapRead && (mapChans d (mapLine r.frond)).contains ch)).length

/-- The mirror a cushion read takes: never a refreshing one, else the shorter C0 queue, even on a tie (R101, R121). -/
def mirrorOf (d : Dev) (k : Nat) : Nat :=
  let p := (slotPlace k).1
  let q (m : Nat) := c0Queue d (2 * p + m)
  if refreshing d (2 * p) then 1 else if refreshing d (2 * p + 1) then 0 else if q 1 < q 0 then 1 else 0

/-- A probe looks its frond up (R91, R102, R113): the entry, the staging table and, for a read, the directory's state of the
line with the cushion copy as it stands; a slot whose line it may read is held for it. -/
def lookup (r : Req) (d : Dev) : Req × Dev :=
  let d := match r.key with
    | some k => slotUnread k r.id d
    | none => d
  let r := { r with entry := mapGet d r.frond, staged := (tget d.rp.stage r.frond).getLsbD r.line, key := none, snap := {},
                    snapMask := 0, covered := false }
  match (if r.wr.isSome then none else slotFind d r.frond) with
  | none => (r, d)
  | some (k, s) =>
    let x := tget s.lines r.line
    if x.st = .absent then (r, d)
    else
      ({ r with key := some k, snap := x, snapMask := sparseMask d r.frond r.line, gen := s.gen },
        { d with csh.dir := tset d.csh.dir k { s with readers := r.id :: s.readers } })

/-- The route of R91 from what the probe looked up, before the planes are looked at: 2 cushion, 5 poison, 3 overlay, 4 zeros,
0 media. -/
def routeOf (r : Req) : Nat :=
  match r.snap.st with
  | .full | .poisoned => 2
  | st =>
    if r.entry.form = .frondWide then 5
    else if r.entry.p ∧ r.staged then 5
    else if st = .sparse then 3
    else if r.entry.z then 4
    else 0

/-- Chooses the planes of a media read and pins them (R91 rows 7–8, R93, R97); an uncorrectable substitution entry (R157) and
fewer than sixteen free sources (R98) are fatal faults and no read. -/
def mediaPlan (r : Req) (d : Dev) : Option Req × Dev :=
  let lane := slotLane r.entry.slot
  let row := slotRow r.entry.slot
  let busy := busyMask d lane
  let t := posOf row (lineSect r.line)
  let around := busy.getLsbD t
  if let some e := r.subst then (none, fatal 0x500B lane e 0 0 d)
  else if around ∧ freeCount t busy < 16 then
    (none, fatal 0x5043 (slotSorus r.entry.slot) (slotPlane r.entry.slot) busy.toNat 0 d)
  else
    let src := if around then sources row t busy else BitVec.ofNat 20 (2 ^ t)
    let route := if r.route = 3 then 3 else b2n around
    (some { r with stage := .media, src, route, pinned := true },
      mediaGrant r.grantCls (popBits src 20) { d with rp.cnt := bump d.rp.cnt (b2n around) })

/-- The media read of a request starts. -/
def mediaStart (r : Req) (d : Dev) : Dev := match mediaPlan r d with
  | (some r, d) => reqPut r d
  | (none, d) => d

/-- The cushion read of a request is issued on the mirror of R101. -/
def cushionStart (r : Req) (d : Dev) : Req × Dev :=
  match r.key with
  | none => (r, d)
  | some k => ({ r with cu := 1, mirror := mirrorOf d k }, dramGrant r.grantCls 1 d)

/-- A probe has its entry: exactly one route (R91). Zeros and poison end at once; the others await their parts. A write
goes to the cushion and completes. -/
def proceed (r : Req) (lat : Lat) (d : Dev) : Dev :=
  match r.wr with
  | some w => finishWrite r lat (writeLine r.frond r.line w (r.addr d) r.cls
      r.org.who d)
  | none =>
    let route := routeOf r
    let r := { r with route }
    match route with
    | 2 =>
      let (r, d) := cushionStart { r with stage := .cushion } d
      reqPut r { d with rp.cnt := bump d.rp.cnt 2 }
    | 5 => finishRead r 0 true lat { d with rp.cnt := bump d.rp.cnt 5 }
    | 4 => finishRead r 0 false lat { d with rp.cnt := bump d.rp.cnt 4 }
    | 3 =>
      let (r, d) := cushionStart r d
      mediaStart r (reqPut r { d with rp.cnt := bump d.rp.cnt 3 })
    | _ => mediaStart r d

/-- One DRAM read of a frond's map line in a class (R120): around a refresh it takes the partner and the parity line. -/
def mapBurst (cls f : Nat) (d : Dev) : Dev :=
  let dodge := refreshing d (mapChan (mapLine f)).1
  dramGrant cls (if dodge then 2 else 1) { d with csh.cnt := if dodge then bump d.csh.cnt 13 else d.csh.cnt }

/-- The bytes of a frond's entry in its map line (R67). -/
def entMask (f : Nat) : BitVec 64 := maskBytes (5 * mapEnt f) 5

/-- The bytes of a map line's entries that match no form: they count as failing parity (R25, R66). -/
def formMask (d : Dev) (m : Nat) : BitVec 64 :=
  (lineFronds m).foldl (fun a f => if (mapGet d f).form = .bad then a ||| entMask f else a) 0

/-- A map line failed parity: counted; its error sequence starts with the refetch unless it runs already (R81). -/
def lineErr (m : Nat) (bad : BitVec 64) (d : Dev) : Dev :=
  { d with
    map.cnt := bump d.map.cnt 3
    map.err := if (tget d.map.err m).isSome then d.map.err else tset d.map.err m (some (.refetch bad)) }

/-- An older request of the frond stands at its probe: the pipeline takes the probes of a frond in order (R71, R113). -/
def probeBehind (d : Dev) (r : Req) : Bool :=
  d.rp.reqs.any fun q => q.frond = r.frond && decide (q.id < r.id) && (q.stage = .mapRead || q.stage = .mapWait)

/-- A request enters the node's probe (R69, R81, R87): beyond the limit it is answered at once; a frond-cache hit
proceeds; a miss awaits the DRAM map line; a line being recomputed, and an entry that matches no form, hold the probe (cause
0x3). The way whose directory entry is bad is a free value. -/
def enterProbe (r : Req) (fx : ReqFx) (lat : Lat) (d : Dev) : Dev :=
  let a := r.addr d
  let d := { d with rp.nextId := d.rp.nextId + 1 }
  if fx.dirBad then
    let (v, d) := draw d
    fatal 0x4017 (cushPair r.frond) (cushSet r.frond) (v % 16) 0 d
  else if d.map.limit ≤ r.frond then
    let d := beyondLimit a r.wr.isSome r.org.who d
    if r.wr.isSome then finishWrite r lat d else finishRead r 0 true lat d
  else
    let d := if fx.wayBad then cacheBad r.frond d else d
    let r := { r with subst := fx.substBad }
    let (hit, d) := cacheProbe r.frond d
    let (r, d) := lookup r d
    let wait (r : Req) (d : Dev) : Dev := { d with rp.reqs := d.rp.reqs ++ [r] }
    if lineHeld d r.frond then wait { r with stage := .mapWait, causes := addCause 3 r.causes } d
    else if r.entry.form = .bad then
      wait { r with stage := .mapWait, causes := addCause 3 r.causes } (lineErr (mapLine r.frond) (entMask r.frond) d)
    else if hit.isSome then
      if probeBehind d r then wait { r with stage := .mapRead } d else proceed r lat (wait r d)
    else wait { r with stage := .mapRead } (mapBurst 0 r.frond d)

end Sys2Proof.Machine
end

