-- ==== Sys2Proof/Machine/HostMem.lean ====
section
/-! DEFINITION. Machine/HostMem.lean: the meanings of the host memory requests, of the read path's events (R81, R94–R110),
of the DRAM and credit events (R119, R133) and of the slice boundary (R55–R59). -/

namespace Sys2Proof.Machine

/-! ### Requests from the host -/

/-- A CXL.mem request reaches its ring address (R21, R250, R253, R257, R261), or is answered on the way: `refuse` is what
its requester gets. -/
def hostEnter (rd wrq : Bool) (addr : Nat) (mv : Meta) (fx : ReqFx) (refuse : Dev → Dev) (go : Nat → List Nat → Dev → Dev)
    (d : Dev) : Dev :=
  if !d.hst.up || d.pwr.dumping || d.pwr.stopping then d
  else if ideDrops fx d then refuse (ideDrop fx d)
  else if !d.pwr.mode.serves then refuse (notServed 1 addr d)
  else match decFind d addr with
    | none => refuse (notServed 0 addr d)
    | some (n, x) =>
      let a := decWinBase d n + (addr - x.base)
      let cause := wakeCause d
      let d := if d.pwr.mode = .dormant then { d with pwr.awake := true } else d
      if x.bi ∧ fx.sfBad then let (v, d) := draw d; fatal 0x1021 (sfSet a) (v % 16) 0 0 d
      else go a cause (if x.bi then sfAfter rd wrq mv a d else d)

/-- A host read of the port: local reads enter the probe, others the ring (R40, R43). -/
def readStart (tag addr : Nat) (mv : Meta) (fx : ReqFx) (lat : Lat) : Dev → Dev :=
  hostEnter true false addr mv fx (if fx.ideBad then ndrHost tag else poisonHost tag) fun a cause d =>
    if addrIndex a = d.srn.index then
      enterProbe { id := d.rp.nextId, org := .host tag, frond := addrFrond a, line := addrLine a, stage := .mapRead,
                   causes := cause, slice := sliceOf d.time } fx lat d
    else remoteStart tag a none cause d

/-- A read of this tag that is still on its way is dropped, with a completion and no data (R257). -/
def readCancel (tag : Nat) (d : Dev) : Dev :=
  match d.rp.reqs.find? fun r => decide (r.org = .host tag) with
  | some r => ndrHost tag (reqDrop r d)
  | none =>
    if d.srn.remotes.any fun r => decide (r.hostTag = tag) then
      ndrHost tag { d with srn.remotes := updWhere d.srn.remotes (·.hostTag = tag) fun r => { r with hostTag := 65536 } }
    else d

/-- CXL_MEM_READ: in skid mode a read starts before its MAC is checked, and a failed MAC drops it then (R257). -/
def hostRead (tag addr : Nat) (mv : Meta) (fx : ReqFx) (lat : Lat) (d : Dev) : Dev :=
  let i := tget d.hst.ide 0
  if fx.ideBad ∧ i.skid ∧ !i.insecure ∧ d.hst.up ∧ !d.pwr.dumping ∧ !d.pwr.stopping then
    ideDrop fx (readCancel tag (readStart tag addr mv { fx with ideBad := false } lat d))
  else readStart tag addr mv fx lat d

/-- Meaning of CXL_MEM_READ (R40, R69, R91, R250, R253). -/
def execCxlMemRead (tag addr : Nat) (mv : Meta) (fx : ReqFx) (lat : Lat) (s : State) : Ans := run (hostRead tag addr mv fx lat) s

/-- Host writes in flight: each uses one of the credits outstanding (CSH_ADMIT_CRED_HOST, R147). -/
def hostWrites (d : Dev) : Nat :=
  (d.rp.reqs.filter fun r => r.wr.isSome && (match r.org with
    | .host t => decide (t < 65536)
    | _ => false)).length
  + (d.srn.remotes.filter fun r => r.wr.isSome && decide (r.hostTag < 65536)).length

/-- CXL_MEM_WRITE: a write that arrives on no granted credit misses the envelope (R55); refused by its decoder or the mode, it
completes with its credit as any write does (R133). -/
def hostWrite (tag addr : Nat) (mv : Meta) (w : WrBody) (fx : ReqFx) (lat : Lat) (d : Dev) : Dev :=
  hostEnter false true addr mv fx (fun d => hostCredit tag (ndrHost tag (admitEval d))) (fun a cause d =>
    let d := { d with ldg.noCredit := d.ldg.noCredit || decide (d.csh.credHost ≤ hostWrites d) }
    if addrIndex a = d.srn.index then
      enterProbe { id := d.rp.nextId, org := .host tag, frond := addrFrond a, line := addrLine a, wr := some w,
                   stage := .mapRead, causes := cause, slice := sliceOf d.time } fx lat d
    else remoteStart tag a (some w) cause d) d

/-- Meaning of CXL_MEM_WRITE (R39, R129–R131, R136, R232). -/
def execCxlMemWrite (tag addr : Nat) (mv : Meta) (data : Line) (be : BitVec 64) (poison : Bool) (fx : ReqFx) (lat : Lat)
    (s : State) : Ans := run (hostWrite tag addr mv ⟨data, be, poison⟩ fx lat) s

/-- Meaning of MEMCLNEVCT (R253): only the snoop filter changes. -/
def execMemclnevct (tag addr : Nat) (mv : Meta) (sfBad : Bool) (s : State) : Ans :=
  run (hostEnter false false addr mv ⟨sfBad, false, false, false, none⟩ (ndrHost tag) fun _ _ d => ndrHost tag d) s

/-! ### Map lines (R81, R83) -/

/-- MAP_PEEK has its entry (R90). -/
def peekDone (d : Dev) : Dev :=
  { d with map.peekEnt := mapGet d d.map.peek, map.peekSeq := tget d.map.seq (mapLine d.map.peek), map.peekValid := true,
           map.peekWait := false }

/-- A map line's error sequence ends (R81): the requests that waited for it probe it again, and a peek that waited is taken. -/
def lineRelease (m : Nat) (d : Dev) : Dev :=
  let d := { d with map.err := tset d.map.err m none }
  let d := (d.rp.reqs.filter fun r => r.stage = .mapWait && mapLine r.frond = m).foldl (fun d r =>
    let (r, d) := lookup { r with stage := .mapRead } d
    reqPut r (mapBurst 0 r.frond d)) d
  if d.map.peekWait && decide (mapLine d.map.peek = m) then peekDone d else d

/-- Bytes in which two lines differ. -/
def byteDiff (a b : BitVec 512) : BitVec 64 :=
  (List.range 64).foldl (fun m i => setBit m i (decide ((a ^^^ b).toNat / 256 ^ i % 256 ≠ 0))) 0

/-- Failing bytes of a map line as it is delivered (R66, R81, R120): those the DRAM read reports, those of entries that match
no form, and around a refresh those in which the XOR of partner and parity is not the line. -/
def mapFail (d : Dev) (m : Nat) (bad : BitVec 64) : BitVec 64 :=
  bad ||| formMask d m ||| (if refreshing d (mapChan m).1 then byteDiff (dodgeLine d m) (mapBits d m) else 0)

/-- The DRAM read of a map line returns (R81, R66): in the order of its frond's probes. A failing entry, and a line that is
being recomputed meanwhile, hold the request. -/
def mapReadDone (id : Nat) (bad : BitVec 64) (lat : Lat) (d : Dev) : Dev :=
  match reqGet d id with
  | none => d
  | some r =>
    if r.stage ≠ .mapRead ∨ probeBehind d r then d else
    let m := mapLine r.frond
    let bad := mapFail d m bad
    let d := if bad ≠ 0 then lineErr m bad d else d
    if bad &&& entMask r.frond ≠ 0 ∨ lineHeld d r.frond then
      reqPut { r with stage := .mapWait, causes := addCause 3 r.causes } d
    else proceed r lat (cacheFill r.frond d)

/-- Meaning of MAP_LINE_READ_DONE (R81). -/
def execMapLineReadDone (id : Nat) (bad : BitVec 64) (lat : Lat) (s : State) : Ans := run (mapReadDone id bad lat) s

/-- Recomputes running (R81: at most four at once). -/
def recomputes (d : Dev) : Nat := (d.map.err.filter fun x => x.2 = some .recompute).length

/-- The refetch of a map line returns: it passes, or it failed parity too and the line is recomputed (R81). -/
def mapRefetchDone (m : Nat) (bad : BitVec 64) (d : Dev) : Dev :=
  match tget d.map.err m with
  | some (.refetch mask) =>
    let d := dramGrant 0 1 d
    if mapFail d m bad = 0 then
      lineRelease m (post 0x3020 1 m (mask.toNat % 2 ^ 32) (mask.toNat / 2 ^ 32) 0 { d with map.cnt := bump d.map.cnt 4 })
    else { d with
      map.cnt := bump d.map.cnt 3
      map.err := tset d.map.err m (some (if recomputes d < 4 then .recompute else .waiting)) }
  | _ => d

/-- Meaning of MAP_LINE_REFETCH_DONE (R81). -/
def execMapLineRefetchDone (m : Nat) (bad : BitVec 64) (s : State) : Ans := run (mapRefetchDone m bad) s

/-- The journal records the node holds, media first, then the tail (R78). -/
def journal (d : Dev) : List JRec := d.map.mediaJ ++ d.map.tail

/-- The latest complete image and the other one (R77). -/
def imgLatest (d : Dev) : Img := if d.map.area = 0 then d.map.img0 else d.map.img1
/-- See `imgLatest`. -/
def imgOlder (d : Dev) : Img := if d.map.area = 0 then d.map.img1 else d.map.img0

/-- The entry a frond has by an image and the records with JSEQ ≥ J_s (R80, R81). -/
def entryFrom (img : Img) (js : List JRec) (f : Nat) : Entry :=
  js.foldl (fun e r => if r.frond = f ∧ img.js ≤ r.jseq then r.entry else e) (tget img.ent f)

/-- C and S of an entry as the directory gives them. -/
def withFlags (d : Dev) (f : Nat) (e : Entry) : Entry := match slotFind d f with
  | some (_, s) => { e with c := true, s := anySparse s }
  | none => { e with c := false, s := false }

/-- Writes the twelve entries of a line and its LINE_SEQ at once (R68). -/
def lineWrite (m : Nat) (ents : List (Nat × Entry)) (seq : Nat) (d : Dev) : Dev :=
  parWrite m (fun d => { d with map.seq := tset d.map.seq m (seq % 65536) }) (ents.foldl (fun d x => mapPut x.1 x.2 d) d)

/-- Recompute ends (R81, R68): the line is taken from an image and the journal, or it is rebuilt by R83. DESIGN CHOICE: the
LINE_SEQ of a line rebuilt from no image is the count it had, plus one (log entry 72). -/
def mapRecomputeDone (m : Nat) (latestOk olderOk : Bool) (us : Nat) (d : Dev) : Dev :=
  if tget d.map.err m ≠ some .recompute then d else
  let js := journal d
  let spans (i : Img) := i.complete && decide (d.map.jseq - js.length ≤ i.js)
  let img := if latestOk then some (imgLatest d, d.map.area)
    else if olderOk && spans (imgOlder d) then some (imgOlder d, 1 - d.map.area) else none
  let fs := lineFronds m
  let d := match img with
    | some (i, area) =>
      let n := (js.filter fun r => decide (mapLine r.frond = m) && decide (i.js ≤ r.jseq)).length
      let ents := fs.map fun f => (f, withFlags d f (entryFrom i js f))
      let fl := (ents.filter fun x => decide (x.2 ≠ entryFrom i js x.1)).length
      post 0x3021 2 m n us area (lineWrite m ents (tget i.seq m + n + fl) { d with map.cnt := bump d.map.cnt 5 })
    | none =>
      let base := (imgLatest d).js
      let last (f : Nat) := (js.filter fun r => decide (r.frond = f) && decide (base ≤ r.jseq)).getLast?
      let ent (f : Nat) : Entry := match last f with
        | some r => r.entry
        | none => if f < d.map.limit then frondWide else {}
      let lost := fs.filter fun f => (last f).isNone && decide (f < d.map.limit)
      let d' := lineWrite m (fs.map fun f => (f, withFlags d f (ent f))) (tget d.map.seq m + 1) d
      let d' := lost.foldl (fun d f => pidxAdd f (BitVec.allOnes 64) d)
        (lost.foldl (fun x f => rowsMoved (mapGet d f) frondWide x) d')
      post 0x3022 3 m lost.length 0 0 { d' with map.cnt := bump d'.map.cnt 6 lost.length }
  let d := lineRelease m d
  match d.map.err.find? fun x => x.2 = some .waiting with
  | some (m', _) => { d with map.err := tset d.map.err m' (some .recompute) }
  | none => d

/-- Meaning of MAP_LINE_RECOMPUTE_DONE (R81, R83). -/
def execMapLineRecomputeDone (m : Nat) (latestOk olderOk : Bool) (us : Nat) (s : State) : Ans :=
  run (mapRecomputeDone m latestOk olderOk us) s

/-! ### Cushion reads (R101–R104, R126) -/

/-- The deciphered bytes of the cushion copy a read looked up (R95, R127). -/
def snapPlain (r : Req) (d : Dev) : Line := r.snap.data ^^^ cushStream d r.gen r.frond r.line

/-- Both parts of an overlay are there: the masked bytes over the media line, poison when either ended so (R104). -/
def overlay (r : Req) (lat : Lat) (d : Dev) : Dev :=
  match r.md with
  | some (line, p) =>
    if r.cu = 0 then finishRead r (mergeLine line (snapPlain r d) r.snapMask) (p || r.cuPoison) lat d else reqPut r d
  | none => reqPut r d

/-- The cushion part ends, with or without poison: a full line's read is answered, an overlay waits for its media part. -/
def cushionPart (r : Req) (poison : Bool) (lat : Lat) (d : Dev) : Dev :=
  let r := { r with cu := 0, cuPoison := r.cuPoison || poison }
  if r.stage = .cushion ∨ r.stage = .mirror then finishRead r (snapPlain r d) poison lat d else overlay r lat d

/-- A cushion line whose bytes cannot be had is marked Poisoned, if its slot still holds what was read and no full-line write
has covered it (R103, R126, R233). -/
def cushionPoison (r : Req) (mask : BitVec 64) (d : Dev) : Dev :=
  let d := post 0x4041 3 r.frond r.packed (mask.toNat % 2 ^ 32) (mask.toNat / 2 ^ 32) { d with rp.cnt := bump d.rp.cnt 13 }
  match slotFind d r.frond with
  | some (k, s) =>
    if r.key = some k ∧ s.gen = r.gen ∧ !r.covered then
      setFlags r.frond (sparseFree r.frond r.line (pidxAdd r.frond (BitVec.ofNat 64 (2 ^ r.line))
        { d with csh.dir := tset d.csh.dir k { s with lines := tmod s.lines r.line fun x => { x with st := .poisoned } } }))
    else d
  | none => d

/-- The first mirror's read failed in some bytes: the other mirror is read, a refetch counted under cause 0x1 (R103). -/
def mirrorPlan (r : Req) (bad : BitVec 64) (d : Dev) : Req × Dev :=
  ({ r with cu := 2, cuBad := bad, mirror := 1 - r.mirror, causes := addCause 1 r.causes,
            stage := if r.stage = .cushion then .mirror else r.stage }, dramGrant r.grantCls 1 d)

/-- The other mirror's read returns: the line is rebuilt byte by byte, or it is poisoned (R103). Answers whether it is. -/
def mirrorCheck (r : Req) (bad : BitVec 64) (d : Dev) : Bool × Dev :=
  let both := r.cuBad &&& (bad ||| chkFail r.snap.data r.snap.chk)
  let d := { d with rp.cnt := bump d.rp.cnt 12 }
  if both = 0 then (false, post 0x4040 1 r.frond r.packed (r.cuBad.toNat % 2 ^ 32) (r.cuBad.toNat / 2 ^ 32) d)
  else (true, cushionPoison r both d)

/-- The first mirror's read returns (R101, R103, R126). -/
def cushionReadDone (id : Nat) (bad : BitVec 64) (maskBad : Bool) (lat : Lat) (d : Dev) : Dev :=
  match reqGet d id with
  | none => d
  | some r =>
    let bad := bad ||| chkFail r.snap.data r.snap.chk
    if r.cu ≠ 1 then d
    else if r.snap.st = .poisoned then cushionPart r true lat d
    else if maskBad ∧ r.snap.st = .sparse then
      cushionPart r true lat (cushionPoison r (BitVec.allOnes 64) d)
    else if bad = 0 then cushionPart r false lat d
    else
      let (r, d) := mirrorPlan r bad d
      reqPut r d

/-- Meaning of CUSHION_READ_DONE (R101, R103). -/
def execCushionReadDone (id : Nat) (bad : BitVec 64) (maskBad : Bool) (lat : Lat) (s : State) : Ans :=
  run (cushionReadDone id bad maskBad lat) s

/-- The other mirror's read returns for a request (R103). -/
def cushionMirrorDone (id : Nat) (bad : BitVec 64) (lat : Lat) (d : Dev) : Dev :=
  match reqGet d id with
  | none => d
  | some r =>
    if r.cu ≠ 2 then d else
    let (p, d) := mirrorCheck r bad d
    cushionPart r p lat d

/-- Meaning of CUSHION_MIRROR_REFETCH_DONE (R103). -/
def execCushionMirrorRefetchDone (id : Nat) (bad : BitVec 64) (lat : Lat) (s : State) : Ans :=
  run (cushionMirrorDone id bad lat) s

/-! ### Media reads (R94–R100, R106–R110) -/

/-- The row a request reads. -/
def reqRow (d : Dev) (r : Req) : Row := tget d.med.rows r.entry.slot

/-- A read-around: more than one source. -/
def Req.around (r : Req) : Bool := decide (1 < popBits r.src 20)

/-- Failing data positions among those read (R100); parity carries no check of its own. -/
def badData (r : Req) (bad : BitVec 20) : BitVec 20 :=
  (List.range 20).foldl (fun m p =>
    if bad.getLsbD p && r.src.getLsbD p && decide (sectAt (slotRow r.entry.slot) p < 16) then setBit m p true else m) 0

/-- The line's own checks (R94): the header names the frond, the range holds the key, the CRC and the tag match. -/
def lineOk (d : Dev) (r : Req) (lineBad : Bool) : Bool :=
  let row := reqRow d r
  !lineBad && decide (row.kind = .host) && decide (row.frond = r.frond) && keyOk d r.frond row && tagOk d row r.line

/-- The failing checks are counted; the first key-slot failure of a read is recorded (R220, SEC_CNT_0 to 2). -/
def checkCount (r : Req) (lineBad : Bool) (d : Dev) : Req × Dev :=
  let d := if lineBad then { d with sec.cnt := bump (bump d.sec.cnt 1) 2 } else d
  if keyOk d r.frond (reqRow d r) then (r, d)
  else
    let d := { d with sec.cnt := bump d.sec.cnt 0 }
    if r.mismatch then (r, d)
    else ({ r with mismatch := true },
      post 0x7012 2 r.frond r.line (reqRow d r).kslot (((rangeOf d r.frond).map (·.1)).getD 127) d)

/-- The line a passed media read delivers, decoded from the sources when it read around and deciphered, and whether its header
poison bit is set (R94, R99). -/
def mediaLine (r : Req) (d : Dev) : Line × Bool :=
  let row := reqRow d r
  (rowOpen d row r.line (readPart row (slotRow r.entry.slot) r.line (r.src &&& ~~~ r.failed)), row.lpoison.getLsbD r.line)

/-- The media part of a request's read ends: with its line, or with poison. -/
def mediaPart (r : Req) (x : Line × Bool) (lat : Lat) (d : Dev) : Dev :=
  let r := { r with pinned := false }
  if r.route = 3 then overlay { r with md := some x } lat d else finishRead r x.1 x.2 lat d

/-- What the latest read of the error sequence was (MED_RD_LAST). -/
def readLast (r : Req) (stage : Nat) (d : Dev) : Dev :=
  { d with rp.lastFrond := r.frond, rp.lastLine := r.line, rp.lastStage := stage, rp.lastRoute := r.route, rp.lastCls := r.cls }

/-- The read-reference step of a position of the row's plane-block. -/
def stepAt (d : Dev) (slot p : Nat) : Nat := (tget d.med.pb (serving d.med (slotLane slot) (slotBlock slot) p)).step

/-- The first read's checks (R94, R100): whether it passed, and the positions known to have failed. -/
def firstCheck (r : Req) (badParts : BitVec 20) (lineBad : Bool) (d : Dev) : Bool × BitVec 20 × Req × Dev :=
  let fail := if r.around then badData r badParts else badParts &&& r.src
  let d := if r.around then { d with rp.cnt := bump d.rp.cnt 11 (popBits fail 20) } else d
  if fail ≠ 0 then (false, fail, r, d)
  else if lineOk d r lineBad then (true, 0, r, d)
  else
    let (r, d) := checkCount r lineBad d
    (false, if r.around then 0 else r.src, r, d)

/-- The one refetch of a line (R106): a plain read again at the next step while its plane is free, else around at the sources'
current steps; a read-around takes every failed source, or with none known all of them, at its next step and every free
position not read before at its current one. None: fewer than sixteen sources are left, a fatal fault (R98). -/
def refetchPlan (r : Req) (failed : BitVec 20) (d : Dev) : Option Req × Dev :=
  let lane := slotLane r.entry.slot
  let row := slotRow r.entry.slot
  let busy := busyMask d lane
  let t := posOf row (lineSect r.line)
  let d := { d with rp.cnt := bump d.rp.cnt 6 }
  let r := { r with stage := .refetch, failed, causes := addCause 1 r.causes }
  let go (r : Req) (d : Dev) : Option Req × Dev := (some r, mediaGrant r.grantCls (popBits r.src 20) d)
  if r.around then go { r with next := if failed = 0 then r.src else failed, src := r.src ||| (~~~ busy) } d
  else if !busy.getLsbD t then go { r with next := r.src } d
  else if freeCount t busy < 16 then
    (none, fatal 0x5043 (slotSorus r.entry.slot) (slotPlane r.entry.slot) busy.toNat 0 d)
  else go { r with src := sources row t busy, next := 0 } d

/-- The refetch step that record 0x5040 names (R106, R114): of the lowest position read at its next step that step, else the
current step of the lowest source. DESIGN CHOICE where sources stand at different steps (log entry 73). -/
def refetchStep (r : Req) (d : Dev) : Nat :=
  match (List.range 20).find? fun p => r.next.getLsbD p with
  | some p => min 15 (stepAt d r.entry.slot p + 1)
  | none => stepAt d r.entry.slot (((List.range 20).find? fun p => r.src.getLsbD p).getD 0)

/-- A refetch that passed for a reader other than patrol calls an overdue-class measurement of the plane-blocks that it read at
their next step (R195). -/
def overdueAdd (slot : Nat) (ps : BitVec 20) (d : Dev) : Dev :=
  let ks := ((List.range 20).filter fun p => ps.getLsbD p).map fun p => serving d.med (slotLane slot) (slotBlock slot) p
  { d with stw.overdue := d.stw.overdue ++ ks.filter fun k => !(d.stw.overdue.contains k) }

/-- The refetch's checks (R100, R106): passed with sixteen good parts and the line good; counted and recorded. -/
def refetchCheck (r : Req) (badParts : BitVec 20) (lineBad : Bool) (d : Dev) : Bool × Req × Dev :=
  let fail := if r.around then badData r badParts else badParts &&& r.src
  let d := if r.around then { d with rp.cnt := bump d.rp.cnt 11 (popBits fail 20) } else d
  let good := if r.around then decide (16 ≤ popBits (r.src &&& ~~~ fail) 20) else decide (fail = 0)
  let first := r.failed
  let r := { r with failed := fail }
  if good && lineOk d r lineBad then
    (true, r, post 0x5040 1 r.frond r.packed (first.toNat + refetchStep r d * 2 ^ 24) 0
      (readLast r 1 (overdueAdd r.entry.slot (if r.next = 0 then r.src else r.next) { d with rp.cnt := bump d.rp.cnt 7 })))
  else
    let (r, d) := if good then checkCount r lineBad d else (r, d)
    (false, r, d)

/-- The recompute of a row starts: every free position is read (R107). -/
def recomputePlan (r : Req) (d : Dev) : Req × Dev :=
  let src := ~~~ busyMask d (slotLane r.entry.slot)
  ({ r with stage := .recompute, src, causes := addCause 2 r.causes },
    mediaGrant r.grantCls (popBits src 20) { d with rp.cnt := bump d.rp.cnt 8 })

/-- The positions of a lane whose dies are FAILED (R107). -/
def deadMask (d : Dev) (lane : Nat) : BitVec 20 :=
  (List.range 20).foldl (fun m p => if dieFailed d lane p then setBit m p true else m) 0

/-- A recompute pass's checks (R107): within 2e + f ≤ 4 and passing R94 it serves; counted, recorded, and the frond goes on
the rescue list. -/
def recomputeCheck (r : Req) (badParts : BitVec 20) (errs : Nat) (lineBad : Bool) (us : Nat) (d : Dev) : Bool × Req × Dev :=
  let fail := badData r badParts
  let f := popBits (~~~ r.src ||| fail) 20
  let r := { r with failed := fail }
  if rsOk errs f && lineOk d r lineBad then
    (true, r, post 0x5041 2 r.frond r.packed (errs % 16 + f % 16 * 16 + (if r.stage = .second then 2 else 1) * 256) us
      (readLast r 2 (rescueAdd r.frond .recomputed { d with rp.cnt := bump d.rp.cnt 9 })))
  else
    let (r, d) := if rsOk errs f then checkCount r lineBad d else (r, d)
    (false, r, d)

/-- Whether positions other than those of FAILED dies were busy in a first pass that failed (R107, step 3). -/
def secondDue (r : Req) (d : Dev) : Bool :=
  decide (r.stage = .recompute) && decide (r.src ||| deadMask d (slotLane r.entry.slot) ≠ BitVec.allOnes 20)

/-- The second pass waits for the operations at those positions, which no operation may enter anew (R93, R107). -/
def secondPlan (r : Req) (d : Dev) : Req :=
  let dead := deadMask d (slotLane r.entry.slot)
  { r with stage := .second, busyAt := ~~~ (r.src ||| dead), src := ~~~ dead }

/-- The recompute failed for good: the line is poisoned and staged, P is asked for, the rescue list takes the frond (R108,
R110, R233). -/
def poisonLine (r : Req) (us : Nat) (d : Dev) : Dev :=
  let (st, d) := stagePoison r.frond r.line d
  let d := { d with
    map.updq := d.map.updq ++ [{ frond := r.frond, op := .setP, cond := some r.entry, why := .poison r.line }]
    rp.cnt := bump d.rp.cnt 10 }
  let d := pidxAdd r.frond (BitVec.ofNat 64 (2 ^ r.line)) (rescueAdd r.frond .poisoned d)
  post 0x5042 3 r.frond r.packed (b2n st) us (readLast r 3 d)

/-- The refetch of a request's read is issued, or the node halts. -/
def refetch (r : Req) (failed : BitVec 20) (d : Dev) : Dev := match refetchPlan r failed d with
  | (some r, d) => reqPut r d
  | (none, d) => d

/-- Sensed line parts arrive (R94, R99, R100). -/
def mediaReadDone (id : Nat) (badParts : BitVec 20) (lineBad : Bool) (lat : Lat) (d : Dev) : Dev :=
  match reqGet d id with
  | none => d
  | some r =>
    if r.stage ≠ .media then d else
    match firstCheck r badParts lineBad d with
    | (true, _, r, d) => mediaPart r (mediaLine r d) lat d
    | (false, fail, r, d) => refetch r fail d

/-- Meaning of MEDIA_READ_DONE (R94, R96, R99). -/
def execMediaReadDone (id : Nat) (badParts : BitVec 20) (lineBad : Bool) (lat : Lat) (s : State) : Ans :=
  run (mediaReadDone id badParts lineBad lat) s

/-- The refetch returns (R106). -/
def refetchDone (id : Nat) (badParts : BitVec 20) (lineBad : Bool) (lat : Lat) (d : Dev) : Dev :=
  match reqGet d id with
  | none => d
  | some r =>
    if r.stage ≠ .refetch then d else
    match refetchCheck r badParts lineBad d with
    | (true, r, d) => mediaPart r (mediaLine r d) lat d
    | (false, r, d) =>
      let (r, d) := recomputePlan r d
      reqPut r d

/-- Meaning of READ_REFETCH_DONE (R106). -/
def execReadRefetchDone (id : Nat) (badParts : BitVec 20) (lineBad : Bool) (lat : Lat) (s : State) : Ans :=
  run (refetchDone id badParts lineBad lat) s

/-- A recompute pass of a request ends (R107): the line is served, the second pass waits for busy positions, or the line is
poisoned. A second pass comes only once the operations it waits for have ended. -/
def recomputeDone (id : Nat) (st : Stage) (badParts : BitVec 20) (errs : Nat) (lineBad : Bool) (us : Nat) (lat : Lat)
    (d : Dev) : Dev :=
  match reqGet d id with
  | none => d
  | some r =>
    if r.stage ≠ st ∨ (st = .second ∧ r.busyAt &&& busyMask d (slotLane r.entry.slot) ≠ 0) then d else
    match recomputeCheck r badParts errs lineBad us d with
    | (true, r, d) => mediaPart r (mediaLine r d) lat d
    | (false, r, d) =>
      if secondDue r d then reqPut (secondPlan r d) d
      else mediaPart r (0, true) lat (poisonLine r us d)

/-- Meaning of READ_RECOMPUTE_DONE (R107, R108). -/
def execReadRecomputeDone (id : Nat) (badParts : BitVec 20) (errs : Nat) (lineBad : Bool) (us : Nat) (lat : Lat) (s : State) : Ans :=
  run (recomputeDone id .recompute badParts errs lineBad us lat) s

/-- Meaning of RECOMPUTE_SECOND_PASS (R107, R108). -/
def execRecomputeSecondPass (id : Nat) (badParts : BitVec 20) (errs : Nat) (lineBad : Bool) (us : Nat) (lat : Lat) (s : State) : Ans :=
  run (recomputeDone id .second badParts errs lineBad us lat) s

/-! ### Reads off the response path (R103, R106–R111, R140): engines, management DMA, destages, moves -/

/-- What a line meets: as the command names it, else nothing. -/
def troubleAt (ts : Trouble) (f l : Nat) : SeqFx :=
  ((ts.find? fun x => x.1 = f && x.2.1 = l).map (·.2.2)).getD {}

/-- A media read to its end, by plain read or read-around, with the whole error sequence: the line, or poison. -/
def backMedia (r : Req) (fx : SeqFx) (d : Dev) : (Line × Bool) × Dev :=
  match mediaPlan { r with subst := fx.substBad } d with
  | (none, d) => ((0, true), d)
  | (some r, d) =>
    match firstCheck r fx.first fx.firstBad d with
    | (true, _, r, d) => (mediaLine r d, d)
    | (false, fail, r, d) =>
      match refetchPlan r fail d with
      | (none, d) => ((0, true), d)
      | (some r, d) =>
        match refetchCheck r fx.second fx.secondBad d with
        | (true, r, d) => (mediaLine r d, d)
        | (false, r, d) =>
          let (r, d) := recomputePlan r d
          match recomputeCheck r fx.third fx.thirdErrs fx.thirdBad fx.us d with
          | (true, r, d) => (mediaLine r d, d)
          | (false, r, d) =>
            if secondDue r d then
              match recomputeCheck (secondPlan r d) fx.fourth fx.fourthErrs fx.fourthBad fx.us d with
              | (true, r, d) => (mediaLine r d, d)
              | (false, r, d) => ((0, true), poisonLine r fx.us d)
            else ((0, true), poisonLine r fx.us d)

/-- A cushion copy read to its end across the mirrors (R103, R126): its deciphered line, poison when it cannot be had. -/
def backCushion (r : Req) (fx : SeqFx) (d : Dev) : (Line × Bool) × Dev :=
  let (r, d) := cushionStart r d
  let bad := fx.mir1 ||| chkFail r.snap.data r.snap.chk
  if r.snap.st = .poisoned then ((snapPlain r d, true), d)
  else if fx.maskBad ∧ r.snap.st = .sparse then ((0, true), cushionPoison r (BitVec.allOnes 64) d)
  else if bad = 0 then ((snapPlain r d, false), d)
  else
    let (r, d) := mirrorPlan r bad d
    let (p, d) := mirrorCheck r fx.mir2 d
    ((snapPlain r d, p), d)

/-- A line read of an internal class to its end, by the route table (R91): probe, route, parts and error sequence. -/
def backRead (cls f l : Nat) (ts : Trouble) (d : Dev) : (Line × Bool) × Dev :=
  let fx := troubleAt ts f l
  let (hit, d) := cacheProbe f d
  let r0 : Req := { id := d.rp.nextId, org := .back cls, frond := f, line := l, stage := .media }
  let d := if hit.isSome then d else cacheFill f (mapBurst r0.grantCls f d)
  let d := { d with rp.nextId := d.rp.nextId + 1 }
  let (r, d) := lookup r0 d
  let r := { r with route := routeOf r }
  let (x, d) := match r.route with
    | 2 => backCushion r fx { d with rp.cnt := bump d.rp.cnt 2 }
    | 5 => ((0, true), { d with rp.cnt := bump d.rp.cnt 5 })
    | 4 => ((0, false), { d with rp.cnt := bump d.rp.cnt 4 })
    | 3 =>
      let (c, d) := backCushion r fx { d with rp.cnt := bump d.rp.cnt 3 }
      let (m, d) := backMedia r fx d
      ((mergeLine m.1 c.1 r.snapMask, m.2 || c.2), d)
    | _ => backMedia r fx d
  (x, match r.key with
    | some k => slotUnread k r.id d
    | none => d)

/-- The map lines of the fronds a command reads are good (R66, R81): no error sequence holds them; one whose entry matches no
form starts its sequence, and the read waits for it. -/
def probesWait (fs : List Nat) (d : Dev) : Bool × Dev :=
  let d := fs.foldl (fun d f =>
    if (mapGet d f).form = .bad ∧ (tget d.map.err (mapLine f)).isNone then lineErr (mapLine f) (entMask f) d else d) d
  (fs.any fun f => lineHeld d f || decide ((mapGet d f).form = .bad), d)

/-! ### Credits and DRAM (R119, R133) -/

/-- A withheld write credit goes back (R133, R276); a ring port's goes in a CRD_RET. -/
def creditReturn (port : Port) (d : Dev) : Dev :=
  let d := admitEval d
  if !creditOk d then d else
  let d := { d with csh.pace := if admitState d = 2 then d.csh.pace - 1 else d.csh.pace }
  let ring (b : Bool) (d : Dev) : Dev :=
    match d.srn.owed.find? fun x => decide (x.1 % 2 = b2n b) with
    | none => d
    | some (k, n) =>
      sendCell 0x05 (k / 2) 0 0 b 1 false [] { d with srn.owed := tset d.srn.owed k (n - 1) }
  match port with
  | .host => if d.csh.owedHost = 0 then d else { d with csh.owedHost := d.csh.owedHost - 1, csh.credHost := d.csh.credHost + 1 }
  | .west => if d.csh.owedW = 0 then d else ring false { d with csh.owedW := d.csh.owedW - 1, csh.credW := d.csh.credW + 1 }
  | .east => if d.csh.owedE = 0 then d else ring true { d with csh.owedE := d.csh.owedE - 1, csh.credE := d.csh.credE + 1 }

/-- Meaning of CREDIT_RETURN (R133). -/
def execCreditReturn (port : Port) (s : State) : Ans := run (creditReturn port) s

/-- Meaning of DRAM_WRITE_QUEUE_ISSUE (R133): one queued line of the channel goes to DRAM. -/
def execDramWriteQueueIssue (ch : Nat) (s : State) : Ans :=
  run (fun d => admitEval { d with csh.wq := tmod d.csh.wq ch fun n => n - 1 }) s

/-- Meaning of DRAM_REFRESH_WINDOW (R119): the next window of 65 ticks opens, its phase by TIME. -/
def execDramRefreshWindow (s : State) : Ans :=
  run (fun d => let t := alignUp 65 d.time
    { d with time := t, csh.rfWindow := t / 65 % 3 }) s

/-! ### The slice boundary (R55–R59, R36) -/

/-- The slice is judged: the envelope, then the late writes (R56, R58). -/
def sliceJudge (d : Dev) : Dev :=
  let n := sliceOf d.time
  let miss := envMissed d
  let ms := (if miss then n :: d.ldg.missSlices else d.ldg.missSlices).filter fun k => decide (n < k + 1000)
  let g := n / 1000 + 1
  let d := if miss then
      postIf (decide (d.ldg.groupPosted ≠ g)) 0x3011 1 ms.length d.ldg.runB0 d.ldg.runW d.ldg.runF
        { d with ldg.envMiss := d.ldg.envMiss + 1, ldg.groupPosted := g }
    else d
  let d := d.ldg.late.foldl (fun d w =>
    overruns (lateCauses miss w.causes) w.cls w.cc w.addr d) d
  { d with ldg.late := [], ldg.missSlices := ms }

/-- The energy D is computed from: the measurement, less 5 % while the store is derated by its age (R442). -/
def effEm (d : Dev) (em : Nat) : Nat := if d.csh.derate then em * 95 / 100 else em

/-- A new measurement or percentage takes effect at the boundary (R134). -/
def sliceCapacity (d : Dev) : Dev :=
  let pct := d.csh.hwPct
  match d.csh.pendEm with
  | none => { d with csh.hw := highWater d.csh.d pct }
  | some meas =>
    let em := effEm d meas
    let nd := dumpable em
    let nh := highWater nd pct
    let old := d.csh.d
    postIf (decide (old ≠ nd)) 0x4016 0 old nd nh em { d with csh.em := meas, csh.d := nd, csh.hw := nh, csh.pendEm := none }

/-- Slots the store covers without derating (R137). -/
def coverable (d : Dev) : Nat := (10 * effEm d d.csh.em - 4000) * 262144 / 450

/-- The cushion enters Draining while occupancy stands above D, from the first slice of Service on (R137, R145): record 0x4011
at entry, 0x4012 when the store comes to fall short of the occupancy. -/
def drainEdge (d : Dev) : Dev :=
  let o := occ d
  let above := decide (d.csh.d < o) && (d.pwr.mode.serves || d.pwr.mode = .maintenance)
  let short := above && decide (coverable d < o)
  let d := postIf (above && !d.csh.overD) 0x4011 2 o d.csh.d (effEm d d.csh.em) 0 d
  let d := postIf (short && !d.pwr.short) 0x4012 3 o (coverable d) (effEm d d.csh.em) 0 d
  { d with csh.overD := above, pwr.short := short }

/-- SLICE_BOUNDARY. -/
def sliceBoundary (d : Dev) : Dev :=
  let d := sliceJudge d
  let lvl := devloadOf d
  let d := sliceCapacity { d with
    time := alignUp 100 d.time
    ldg.devload := lvl
    ldg.sliceB0 := d.ldg.runB0
    ldg.sliceW := d.ldg.runW
    ldg.sliceF := d.ldg.runF
    ldg.runB0 := 0
    ldg.runW := 0
    ldg.runF := 0
    ldg.noCredit := false
    ldg.guardFailed := false
    ldg.budNow := d.ldg.bud
    ldg.envNow := d.ldg.env
    ldg.uOptNow := d.ldg.uOpt
    ldg.uModNow := d.ldg.uMod
    ldg.oOptNow := d.ldg.oOpt
    ldg.oModNow := d.ldg.oMod
    hst.cnt := if d.hst.heldSlice || d.hst.credHeld then bump d.hst.cnt 5 else d.hst.cnt
    hst.heldSlice := d.hst.credHeld }
  admitEval (drainEdge d)

/-- Meaning of SLICE_BOUNDARY (R55–R59). -/
def execSliceBoundary (s : State) : Ans := run sliceBoundary s

end Sys2Proof.Machine
end

