-- ==== Sys2Proof/Machine/Ring.lean ====
section
/-! DEFINITION. Machine/Ring.lean: the Sirain ring: memory cells at owner and requester (R274–R277, R291), forwarding and
folding (R271–R273, R288–R290), membership, cold-form, splice and leave (R279–R287, R293), port control (R294). -/

namespace Sys2Proof.Machine

/-! ### Memory cells -/

/-- Ring writes in flight that arrived on a ring: each uses one of the credits outstanding at its port (R147, R276). -/
def ringWrites (ringB : Bool) (d : Dev) : Nat :=
  (d.rp.reqs.filter fun r => r.wr.isSome && (match r.org with
    | .ring _ _ b => b = ringB
    | _ => false)).length

/-- An owned request is answered by NAK while the node dumps, stops, or is no member (R277, R290, R424), else served or answered by mode. -/
def ringEnter (c : Cell) (type : Nat) (wr : Option WrBody) (fx : ReqFx) (lat : Lat) (d : Dev) : Dev :=
  let (ok, d) := acceptCell c type true d
  if !ok then d
  else
    let back := ringTo d c.src
    if d.pwr.dumping || d.pwr.stopping then sendCell 0x06 c.src c.tag c.line back 1 false [] d
    else if !isMember d then sendCell 0x06 c.src c.tag c.line back 2 false [] d
    else if !d.pwr.mode.serves then
      match wr with
      | none => sendCell 0x02 c.src c.tag c.line back 0 true [0] d
      | some _ => sendCell 0x04 c.src c.tag c.line back 257 false [] d
    else if wr.isSome && d.srn.applied.any fun x => x.1 = c.src * 65536 + c.tag then
      sendCell 0x04 c.src c.tag c.line back 1 false [] { d with srn.cnt := bump d.srn.cnt 10 }
    else
      let causes := wakeCause d
      let d := if d.pwr.mode = .dormant then { d with pwr.awake := true } else d
      let noCred := wr.isSome && decide ((if c.ringB then d.csh.credE else d.csh.credW) ≤ ringWrites c.ringB d)
      enterProbe { id := d.rp.nextId, org := .ring c.src c.tag c.ringB, frond := c.line / 64, line := c.line % 64, wr,
                   stage := .mapRead, causes, slice := sliceOf d.time } fx lat
        { d with ldg.noCredit := d.ldg.noCredit || noCred }

/-- Meaning of RD_REQ (R274): the owner's probe in class C0. -/
def execRdReq (c : Cell) (fx : ReqFx) (lat : Lat) (s : State) : Ans := run (ringEnter c 0x01 none fx lat) s

/-- Meaning of WR_REQ (R276): applied once for each TAG. -/
def execWrReq (c : Cell) (data : Line) (be : BitVec 64) (fx : ReqFx) (lat : Lat) (s : State) : Ans :=
  run (ringEnter c 0x03 (some ⟨data, be, c.poison⟩) fx lat) s

/-- The outstanding remote request of a TAG. -/
def remoteGet (d : Dev) (tag : Nat) : Option Remote := d.srn.remotes.find? (·.tag = tag)

/-- Removes a remote request. -/
def remoteDrop (tag : Nat) (d : Dev) : Dev := { d with srn.remotes := d.srn.remotes.filter (·.tag ≠ tag) }

/-- A response cell ends its request at the requester: data or completion to the host with the higher DevLoad (R60). -/
def rdRsp (c : Cell) (data : Line) (lat : Lat) (d : Dev) : Dev :=
  let (ok, d) := acceptCell c 0x02 true d
  if !ok then d else
  match remoteGet d c.tag with
  | none => d
  | some r =>
    if r.wr.isSome then d else
    account 2 lat r.causes r.addr (hopsTo d r.owner) r.slice
      (toHost r.hostTag (.data r.hostTag (if c.poison then 0 else data) c.poison (max d.ldg.devload c.devload))
        { remoteDrop c.tag d with hst.cnt := bump (remoteDrop c.tag d).hst.cnt 0 })

/-- Meaning of RD_RSP (R274, R60, R112). -/
def execRdRsp (c : Cell) (data : Line) (lat : Lat) (s : State) : Ans := run (rdRsp c data lat) s

/-- The first WR_ACK of a TAG: the write completes, the credits of its other attempts are restored, and those the cell
returns go to the ring of the last attempt (R276, log entry 24). -/
def wrAck (c : Cell) (lat : Lat) (d : Dev) : Dev :=
  let (ok, d) := acceptCell c 0x04 true d
  if !ok then d else
  match remoteGet d c.tag with
  | none => d
  | some r =>
    if r.wr.isNone then d else
    let n := c.status % 256
    let lastB := decide (0 < r.usedB)
    let d := creditGive r.owner (r.usedA - b2n (!lastB) + (if lastB then 0 else n)) (r.usedB - b2n lastB + (if lastB then n else 0)) d
    let d := account 3 lat (if r.causes = [] ∧ r.waited ∧ boundCc (hopsTo d r.owner) < lat.total then [6] else r.causes) r.addr (hopsTo d r.owner) r.slice
      (toHost r.hostTag (.ndr r.hostTag (max d.ldg.devload c.devload)) (hostCredit r.hostTag (admitEval
        { remoteDrop c.tag d with hst.cnt := bump (remoteDrop c.tag d).hst.cnt 1 })))
    snpAnswer (remoteRetryAll d)

/-- Meaning of WR_ACK (R276). -/
def execWrAck (c : Cell) (lat : Lat) (s : State) : Ans := run (wrAck c lat) s

/-- Meaning of CRD_RET (R276): the returned credits, and the writes they let go. -/
def execCrdRet (c : Cell) (s : State) : Ans :=
  run (fun d => let (ok, d) := acceptCell c 0x05 true d
    if !ok then d
    else remoteRetryAll (creditGive c.src (if c.ringB then 0 else c.status) (if c.ringB then c.status else 0) d)) s

/-- A cell for another member (R271–R273): its header CRC, type and PLEN, its TTL; it waits at the port it leaves by, turned
at a wrap, and its receive space is free once it has left. -/
def forwardCell (type : Nat) (c : Cell) (d : Dev) : Dev :=
  let ringB := c.ringB ≠ c.fold
  if !d.pwr.mode.ringOn || d.isM || (if ringB then d.srn.bypassB else d.srn.bypassA) then d else
  let d := linkFree (arriveSide c) (cellVc type) (plenUnits c.plen) d
  if !c.hdrOk || !cellTypeOk type || c.plen = 3 then { d with srn.cnt := bump d.srn.cnt 5 }
  else if c.ttl ≤ 1 then { d with srn.cnt := bump d.srn.cnt 8 }
  else
    queueCell ringB { transit := true, cls := cellCls type, vc := cellVc type, units := plenUnits c.plen, fold := c.fold,
                      body := .transit type { c with ttl := c.ttl - 1 } } { d with srn.cnt := bump d.srn.cnt 2 }

/-- Meaning of CELL_FORWARD (R271, R273). -/
def execCellForward (type : Nat) (c : Cell) (s : State) : Ans := run (forwardCell type c) s

/-- A retry of R277: a new attempt with the same TAG under its cause, or the hold when the attempts are used up. -/
def remoteRetry (tag : Nat) (topo : Bool) (d : Dev) : Dev :=
  match remoteGet d tag with
  | none => d
  | some r =>
    if !r.sent then d
    else if r.limit ≤ r.attempts then remotePut { r with holding := true, sent := false } d
    else
      let (r, d) := remoteSend { r with attempts := r.attempts + 1, causes := addCause (if topo then 5 else 7) r.causes } { d with srn.cnt := bump d.srn.cnt 9 }
      remotePut r d

/-- The hold of R291 ends: poison to the read, a completion without effect to the write, record 0x200C. -/
def ownerUnreachable (tag : Nat) (lat : Lat) (d : Dev) : Dev :=
  match remoteGet d tag with
  | none => d
  | some r =>
    if !r.holding then d else
    let wr := r.wr.isSome
    let cls := 2 + b2n wr
    let d := remoteDrop tag d
    let d := { d with srn.cnt := bump d.srn.cnt (if wr then 12 else 11) }
    let d := post 0x200C 3 (r.addr / 65536) (r.addr % 65536 + cls * 65536) (b2n wr) r.holdMs d
    snpAnswer <| account cls lat r.causes r.addr 0 r.slice (if wr then hostCredit r.hostTag (ndrHost r.hostTag d) else poisonHost r.hostTag d)

/-- Meaning of OWNER_UNREACHABLE (R291). -/
def execOwnerUnreachable (tag : Nat) (lat : Lat) (s : State) : Ans := run (ownerUnreachable tag lat) s

/-- Meaning of WRITE_TAG_EXPIRY (R277): the owner forgets an applied TAG. -/
def execWriteTagExpiry (src tag : Nat) (s : State) : Ans :=
  run (fun d => { d with srn.applied := d.srn.applied.filter fun x => x.1 ≠ src * 65536 + tag }) s

/-! ### Ports and links -/

/-- The code of the ring state (SRN_STATUS_RING). -/
def RingSt.code : RingSt → Nat
  | .alone => 0 | .forming => 1 | .intact => 2 | .folded => 3 | .parted => 4 | .heldOut => 5

/-- The credits of a ring's inbound port: 16 for each other member, less those withheld (R276, R147). -/
def credPorts (d : Dev) : Dev :=
  let n := 16 * (peers d).length
  let owed (b : Nat) : Nat := ((d.srn.owed.filter fun x => decide (x.1 % 2 = b)).map (·.2)).sum
  { d with csh.credW := n - owed 0, csh.credE := n - owed 1, csh.owedW := owed 0, csh.owedE := owed 1 }

/-- The pools toward these members are 16 on each ring again (R276). -/
def credRestore (ms : List Nat) (d : Dev) : Dev :=
  credPorts { d with
    srn.creds := d.srn.creds.filter fun x => decide (x.1 ∉ ms)
    srn.owed := d.srn.owed.filter fun x => decide (x.1 / 2 ∉ ms) }

/-- The pools toward the members that a change of the ring has brought back (R276). -/
def credBack (old d : Dev) : Dev := credRestore ((peers d).filter fun m => (pathTo old m).isNone && (pathTo d m).isSome) d

/-- Every pool is full, as the ring forms (R276). -/
def credReset (d : Dev) : Dev := credPorts { d with srn.creds := [], srn.owed := [] }

/-- An enabled port begins to train; a disabled one stays so (R294). -/
def portTrain (side : Side) : Dev → Dev :=
  portMod side fun p => if p.en then { p with st := .training, retrains := p.retrains + 1 } else { p with st := .disabled }

/-- An ECHO to the next member on a ring: this node's serial and position (R285 step 4, R286 steps 3 and 6). -/
def echoSend (ringB : Bool) (d : Dev) : Dev :=
  match (if ringB then (peers d).getLast? else (peers d).head?) with
  | some m => sendCell 0x16 m 0 0 ringB 0 false [d.pst.nv.serial, (tget d.srn.members d.srn.index).pos] d
  | none => d

/-- The ring state follows from its dead links; two or more part it (R289). -/
def ringUpdate (d : Dev) : Dev :=
  if d.srn.ring = .heldOut ∨ d.srn.ring = .forming then d else
  let st := if (peers d).isEmpty then .alone else ringFromDead d.srn.dead.length
  let was := d.srn.ring
  let d := { d with srn.ring := st }
  let d := if st = .parted ∧ was ≠ .parted then
      post 0x2007 3 d.srn.dead.length (1 + ((peers d).filter fun m => (pathTo d m).isSome).length) 0 0 d else d
  cdatRebuild d

/-- A link becomes dead (R288, R289). -/
def deadAdd (a b : Nat) (d : Dev) : Dev := if deadLink d a b then d else { d with srn.dead := d.srn.dead ++ [(a, b)] }

/-- A link is restored. -/
def deadDrop (a b : Nat) (d : Dev) : Dev := { d with srn.dead := d.srn.dead.filter fun x => !(x = (a, b) || x = (b, a)) }

/-- The cells that wait at a port whose link is dead are turned onto the other ring, with FOLD set (R288). -/
def portTurn (side : Side) (d : Dev) : Dev :=
  let q := (portOf d side).q.map fun c => { c with fold := true }
  portMod (otherSide side) (fun p => { p with q := p.q ++ q }) (portMod side (fun p => { p with q := [], used := [] }) d)

/-- The splice is aborted: the joining node closes its sets, the record and the counter (R293). -/
def spliceStop (cause : Nat) (d : Dev) : Dev :=
  match d.srn.splice with
  | none => d
  | some sp =>
    if sp.leaving then { d with srn.splice := none } else
    let d := post 0x2003 1 sp.index sp.step cause 0 { d with srn.cnt := bump d.srn.cnt 15, srn.splice := none }
    if sp.index = d.srn.index ∧ !isMember d then { d with srn.bypassA := true, srn.bypassB := true }
    else { d with srn.members := tmod d.srn.members sp.index fun m => if m.st = MemSt.joining then default else m }

/-- A splice that cannot go on: the holder says so to all, with its index, step and cause (R293). -/
def spliceAbort (cause : Nat) (d : Dev) : Dev :=
  match d.srn.splice with
  | some sp =>
    let d := spliceStop cause d
    if !sp.leaving && holderOf d = d.srn.index then frame 0x22 [sp.index, sp.step, cause] d else d
  | none => d

/-- A link of this node is dead: the port wraps, TOPO cells and a WRAP frame announce it, the fold is recorded (R288). -/
def linkDead (side : Side) (d : Dev) : Dev :=
  if d.isM || !d.pwr.mode.ringOn then d else
  match (portOf d side).peer with
  | none => portMod side (fun p => { p with st := if p.en then .down else .disabled }) d
  | some peer =>
    let d := portTurn side (portMod side (fun p => { p with st := .down, wrapped := true, fec := 0 }) d)
    let d := spliceAbort 0 d
    let d := ringUpdate (deadAdd d.srn.index peer d)
    let d := topoChange (cellAll 0x18 0 [d.srn.index, peer] d)
    post 0x2005 2 (sideCode side) peer d.srn.ring.code 0
      (frame 0x01 [d.srn.index, peer, (sideCode side)] { d with srn.cnt := bump d.srn.cnt 13 })

/-- Meaning of LINK_LOSS_OF_LOCK (R288). -/
def execLinkLossOfLock (side : Side) (s : State) : Ans := run (linkDead side) s

/-- Meaning of FEC_UNCORRECTABLE (R266, R288): counted; sixteen within 1 ms declare the link dead. `corrected`: codewords
corrected since the last such event. -/
def execFecUncorrectable (side : Side) (corrected : Nat) (s : State) : Ans :=
  run (fun d =>
    if d.isM || !d.pwr.mode.ringOn then d else
    let p := portOf d side
    let ms := msOf d.time + 1
    let n := if p.fecMs = ms then p.fec + 1 else 1
    let first := decide (p.fecMs = 0) || decide ((p.fecMs - 1) / 1000 ≠ (ms - 1) / 1000)
    let d := portMod side (fun p => { p with fec := n, fecMs := ms }) { d with srn.cnt := bump (bump d.srn.cnt 4) 3 corrected }
    let d := postIf first 0x200D 1 (sideCode side) 1 corrected 0 d
    if 16 ≤ n then linkDead side d else d) s

/-- Meaning of LINK_RETRAIN_ATTEMPT (R288): an enabled port with a dead link trains again. -/
def execLinkRetrainAttempt (side : Side) (s : State) : Ans :=
  run (fun d =>
    let p := portOf d side
    if d.isM || !d.pwr.mode.ringOn || !p.en || p.st = .up then d
    else portMod side (fun p => { p with st := .training, retrains := p.retrains + 1 }) d) s

/-- A member is gone: orderly or sudden (R296); its sub-tasks end (R314); the deputy may become holder, and the holder starts a new epoch, with a key that
no member has left with (R280). -/
def memberGone (index how : Nat) (d : Dev) : Dev :=
  if (tget d.srn.members index).st = .absent then d else
  let was := d.srn.holder
  let d := subsGone index d
  let d := credRestore [index] { d with srn.members := tset d.srn.members index default, hst.wins := d.hst.wins.filter fun x => x.1.port ≠ index }
  let d := { d with srn.holder := holderOf d, srn.sessions := d.srn.sessions.filter (· ≠ index) }
  let d := post 0x2004 1 index how (liveCount d) 0 d
  if holderOf d = d.srn.index ∧ isMember d then
    if was = index then
      -- the deputy is holder now: it aborts a splice in progress and opens a session with the new deputy
      let d := spliceAbort 1 d
      let d := match deputyOf d with
        | some q => cellTo 0x15 q 0 0 0 [0] d
        | none => d
      epochStart 3 { d with srn.newKey := none }
    else epochStart 0 { d with srn.newKey := none }
  else d

/-- A link trains (R288, R290): the neighbours unwrap; a new neighbour means that the old one left suddenly. In a splice
the step advances, and an ECHO goes out on the ring that is up (R286). The duration covers the drains of an unwrap (log entry 98). -/
def linkTrained (side : Side) (peer ms : Nat) (d : Dev) : Dev :=
  if d.isM || !d.pwr.mode.ringOn || !(portOf d side).en then d else
  let before := d
  let old := (portOf d side).peer
  let was := (portOf d side).wrapped
  let d := portMod side (fun p => { p with st := .up, peer := some peer, wrapped := false }) d
  let d := match d.srn.splice with
    | some sp => if sp.step = 2 ∨ sp.step = 5 then echoSend (sp.step = 5) { d with srn.splice := some { sp with step := sp.step + 1 } } else d
    | none => d
  if !was then d else
  let d := match old with
    | some o =>
      let d := deadDrop d.srn.index o d
      if o ≠ peer ∧ (tget d.srn.members o).st = .live then memberGone o 1 d else d
    | none => d
  let d := ringUpdate (deadDrop d.srn.index peer d)
  let d := topoChange (credBack before (cellAll 0x18 1 [d.srn.index, peer] d))
  post 0x2006 0 (sideCode side) peer d.srn.ring.code ms (frame 0x02 [d.srn.index, peer] d)

/-- Meaning of LINK_TRAINED (R288). -/
def execLinkTrained (side : Side) (peer ms : Nat) (s : State) : Ans := run (linkTrained side peer ms) s

/-- Meaning of LINK_TRAINING_FAILED (R288, R285): the link is dead, and the ring forms or stays folded around it; a splice that
needs it is aborted, cause 2 (R296). -/
def execLinkTrainingFailed (side : Side) (s : State) : Ans :=
  run (fun d =>
    if (portOf d side).wrapped || d.isM then portMod side (fun p => { p with st := .down }) d
    else linkDead side (if d.srn.splice.isSome ∧ (portOf d side).st = .training then spliceAbort 2 d else d)) s

/-- A TOPO cell (R274): 0 wrap, 1 unwrap, 2 leave. -/
def topoCell (c : Cell) (a b : Nat) (d : Dev) : Dev :=
  let (ok, d) := acceptCell c 0x18 true d
  if !ok then d else
  match c.status with
  | 0 => topoChange (ringUpdate (deadAdd a b d))
  | 1 => topoChange (credBack d (ringUpdate (deadDrop a b d)))
  | _ => topoChange (ringUpdate (memberGone a 0 d))

/-- Meaning of TOPO (R288). -/
def execTopo (c : Cell) (a b : Nat) (s : State) : Ans := run (topoCell c a b) s

/-- MARK on ring A to every other member (R286, step 1). -/
def marksA (d : Dev) : Dev := (peers d).foldl (fun d m => sendCell 0x17 m 0 0 false 0 false [] d) d

/-- Meaning of WRAP (R282, R288): the frame confirms the fold. -/
def execWrap (a b : Nat) (_side : Side) (s : State) : Ans :=
  run (fun d => let d := lineSeen 0x01 d
    if !d.pwr.mode.ringOn || d.isM || deadLink d a b then d else topoChange (ringUpdate (deadAdd a b d))) s

/-- Meaning of UNWRAP (R282, R288). -/
def execUnwrap (a b : Nat) (s : State) : Ans :=
  run (fun d => let d := lineSeen 0x02 d
    if !d.pwr.mode.ringOn || d.isM || !deadLink d a b then d else topoChange (credBack d (ringUpdate (deadDrop a b d)))) s

/-- Meaning of LEAVE (R282, R287): the member is leaving. -/
def execLeave (index : Nat) (s : State) : Ans :=
  run (fun d => let d := lineSeen 0x03 d
    if !d.pwr.mode.ringOn || d.isM then d
    else
      let d := { d with
        srn.members := tmod d.srn.members index fun m => if m.st = .live then { m with st := .leaving } else m
        srn.splice := some { index, leaving := true, startT := d.time } }
      if isMember d then topoChange (marksA d) else d) s

/-- Meaning of PLUG_PRESENCE: the cage's presence pin. An absent plug takes the link with it. -/
def execPlugPresence (side : Side) (present : Bool) (s : State) : Ans :=
  run (fun d => if d.isM then d else
    let was := (portOf d side).st
    let d := portMod side (fun p => { p with plug := present }) d
    if !present ∧ was = .up then linkDead side d else d) s

/-! ### Keys (R279, R280) -/

/-- What an SPDM message of a member does: the group key, its acknowledgement, the switch; any other message is answered. -/
def spdmMsg (m : SpdmMsg) (d : Dev) : Dev :=
  match m with
  | .message => emit .spdm d
  | .groupKey e k => cellTo 0x15 d.srn.holder 0 0 0 [2, d.srn.index] { d with srn.newKey := some (e, k) }
  | .keyAck mem =>
    match d.srn.newKey with
    | none => d
    | some (e, k) =>
      let left := d.srn.acks.filter (· ≠ mem)
      let d := { d with srn.acks := left }
      if left.isEmpty ∧ holderOf d = d.srn.index then epochSwitch e k d.srn.keyCause (cellAll 0x15 0 [3, e, d.srn.keyCause] d) else d
  | .switch e cause =>
    match d.srn.newKey with
    | some (e', k) => if e' = e then epochSwitch e k cause d else d
    | none => d

/-- Meaning of EPOCH_KEY_ERASE (R280): the previous epoch is accepted no more. -/
def execEpochKeyErase (s : State) : Ans := run (fun d => { d with srn.prevEpoch := none }) s

/-- Meaning of SRN_CTL_GROUP_REKEY (R280). -/
def execSrnCtlGroupRekey (s : State) : Ans := run (gate 7 epochAsk) s

/-! ### Indexes and the cold-form (R283–R285) -/

/-- The map is fresh by R88. -/
def mapFresh (d : Dev) : Bool := d.map.ent.isEmpty && d.map.tail.isEmpty && d.map.mediaJ.isEmpty

/-- This node's PRESENT frame. -/
def ownPresent (d : Dev) : Pres :=
  { serial := d.pst.nv.serial, ringId := d.pst.nv.ringId.getD 0, hasId := d.pst.nv.ringId.isSome,
    index := d.pst.nv.index, variant := (match d.variant with
      | .A => 0 | .B => 1 | .M => 2), fresh := mapFresh d }

/-- The RING_ID stored by the most nodes, the lower value on a tie (R283, rule 1). -/
def ringIdOf (ps : List Pres) : Option Nat :=
  let ids := (ps.filter (·.hasId)).map (·.ringId)
  let n (i : Nat) := (ids.filter (· = i)).length
  ids.foldl (fun b i => match b with
    | none => some i
    | some j => if n j < n i ∨ (n i = n j ∧ i < j) then some i else some j) none

/-- What the claims give a node: an index, or a reason to be held out (1 INDEX_CONFLICT, 3 FULL). -/
inductive ClaimRes where
  | index (i : Nat)
  | out (reason : Nat)
  deriving DecidableEq, Repr

/-- Rank of a claimant: 1 or 2 (R283, rule 2), 0 for a node of rule 4. -/
def claimRank (rid : Option Nat) (p : Pres) : Nat :=
  if p.index.isNone || !p.hasId then 0
  else if some p.ringId = rid then 1
  else if p.fresh then 0 else 2

/-- Rule 3 for a claimant. -/
def claim3 (rid : Option Nat) (ps : List Pres) (p : Pres) : ClaimRes :=
  let same := ps.filter fun q => q.index = p.index && claimRank rid q ≠ 0
  let firsts := same.filter fun q => claimRank rid q = 1
  if same.length = 1 ∨ (firsts.length = 1 ∧ claimRank rid p = 1) then .index (p.index.getD 0) else .out 1

/-- All claims resolved from one set of PRESENT frames (R283, rules 2–5): (serial, result). -/
def resolveClaims (ps : List Pres) : List (Nat × ClaimRes) :=
  let rid := ringIdOf ps
  let claimants := ps.filter fun p => claimRank rid p ≠ 0
  let first := claimants.map fun p => (p.serial, claim3 rid ps p)
  let named := claimants.filterMap (·.index)
  let rest := sortBy (·.serial) (ps.filter fun p => claimRank rid p = 0)
  let free := (List.range 16).filter fun i => !(named.contains i)
  first ++ (rest.zipIdx.map fun (p, k) => (p.serial, match free[k]? with
    | some i => .index i
    | none => .out 3))

/-- The node is held out (R267, R283). -/
def heldOut (reason : Nat) (d : Dev) : Dev :=
  post 0x2008 2 d.pst.nv.serial reason (d.pst.nv.index.getD 31) 0
    { bypassClose d with srn.ring := .heldOut, srn.heldReason := reason, srn.coldOpen := false }

/-- The node takes an index and RING_ID and persists them (R283). -/
def indexTake (i rid : Nat) (d : Dev) : Dev :=
  let kept := d.pst.nv.index = some i ∧ d.pst.nv.ringId = some rid
  let d := { d with srn.index := i, srn.indexed := true, srn.ringId := rid }
  let d := if kept then d else fwPut (.ringIndex (some i) rid) d
  post 0x2009 0 i rid (b2n !kept) 0 (frame 0x11 [d.pst.nv.serial, i, rid] d)

/-- Position eastward of an index until TABLE cells give the ring's order (log entry 25). -/
def posGuess (me i : Nat) : Nat := (i + 16 - me) % 16

/-- The ring forms (R285, step 6): tables, routes, the epoch 0 key, which the holder generates and sends to all, CDAT,
record 0x2001. -/
def ringFormed (ms : Nat) (d : Dev) : Dev :=
  let d := { d with
    srn.members := tmap d.srn.members fun _ (m : Member) => if m.st = MemSt.joining then { m with st := .live } else m
    srn.epoch := 0
    srn.seqNext := 0
    srn.seqs := []
    srn.presenting := false
    srn.ring := .intact }
  let d := if holderOf d = d.srn.index then
      let (k, d) := freshKeyid d
      cellAll 0x15 0 [1, 0, k] { d with srn.keyid := k }
    else d
  let d := ringUpdate { d with srn.holder := holderOf d }
  post 0x2001 0 (liveCount d) d.srn.ring.code d.srn.holder ms (credReset d)

/-- Members and joining nodes that this node must hold a session with: holder and deputy; they, with every other (R279). -/
def sessionsDone (d : Dev) : Bool :=
  let ms := tkeys d.srn.members fun m => m.st ≠ .heldOut
  let need := if d.srn.ring = .forming && decide (d.srn.index ∈ ms.take 2) then ms else ms.take 2
  need.all fun m => decide (m = d.srn.index) || decide (m ∈ d.srn.sessions)

/-- The ring forms once the sessions are open and the holder's key is here (R285, steps 5 and 6). -/
def formReady (ms : Nat) (d : Dev) : Dev :=
  let first := (tkeys d.srn.members fun m => m.st ≠ .heldOut).headD 0
  if d.srn.ring = .forming && sessionsDone d && (decide (first = d.srn.index) || d.srn.keyid ≠ 0) then ringFormed ms d else d

/-- An SPDM message (R279, R280): a node that is no member yet takes the key of the epoch in force. -/
def spdmArrives (m : SpdmMsg) (d : Dev) : Dev :=
  match m with
  | .groupKey e k =>
    if isMember d then spdmMsg m d
    else formReady (msOf (d.time - d.srn.coldT)) { d with srn.epoch := e, srn.keyid := k, srn.seqNext := 0, srn.seqs := [] }
  | _ => spdmMsg m d

/-- Meaning of SPDM_CELL (R279, R280). -/
def execSpdmCell (c : Cell) (m : SpdmMsg) (s : State) : Ans :=
  run (fun d => let (ok, d) := acceptCell c 0x15 false d
    if ok then spdmArrives m d else d) s

/-- Meaning of SPDM_FRAME (R279, R282): the same over the rhizoid line. -/
def execSpdmFrame (m : SpdmMsg) (s : State) : Ans :=
  run (fun d => let d := lineSeen 0x30 d
    if d.isM || !d.pwr.mode.ringOn then d else spdmArrives m d) s

/-- The PRESENT window closes (R285, step 2): claims are resolved, this node's result applies, admitted nodes open both
sets and train; a node alone has ended its cold-form (log entry 42). -/
def presentClose (d : Dev) : Dev :=
  if !d.srn.coldOpen then d else
  let own := ownPresent d
  let ps := sortBy (·.serial) (own :: d.srn.presents.filter fun p => p.serial ≠ own.serial)
  let res := resolveClaims ps
  let (rid, d) := match ringIdOf ps with
    | some r => (r, d)
    | none => let (v, d) := draw d; (v % 2 ^ 64, d)
  let d := { d with srn.coldOpen := false, srn.presenting := false }
  match (res.find? fun x => x.1 = own.serial).map (fun x => x.2) with
  | some (ClaimRes.index i) =>
    let d := indexTake i rid d
    let mem := res.foldl (fun (t : Tab Member) x => match x.2 with
      | .index j => tset t j { st := if ps.length = 1 then .live else .joining, pos := posGuess i j, serial := x.1,
                               variant := ((ps.find? (·.serial = x.1)).map (·.variant)).getD 0 }
      | .out _ => t) ([] : Tab Member)
    let d := { d with srn.members := mem, srn.bypassA := false, srn.bypassB := false, srn.epoch := 0, srn.keyid := 0, srn.holder := 0 }
    let d := { d with srn.holder := (tkeys mem fun _ => true).headD 0 }
    if ps.length = 1 then ringFormed (msOf (d.time - d.srn.coldT)) d
    else portTrain .west (portTrain .east { d with srn.ring := .forming })
  | some (ClaimRes.out r) => frame 0x12 [own.serial, r] (heldOut r d)
  | none => d

/-- Meaning of PRESENT_WINDOW_CLOSE (R283, R285). -/
def execPresentWindowClose (s : State) : Ans := run presentClose s

/-- Meaning of PRESENT (R282, R285): the first frame opens the 100 ms window; the frame joins the set. -/
def execPresent (p : Pres) (s : State) : Ans :=
  run (fun d =>
    let d := lineSeen 0x10 d
    if d.isM || d.pwr.mode ≠ .recovery || d.srn.ring ≠ .alone || d.srn.indexed && isMember d then d
    else
      let d := if d.srn.coldOpen then d else { d with srn.coldOpen := true, srn.coldT := d.time }
      { d with srn.presents := p :: d.srn.presents.filter fun q => q.serial ≠ p.serial }) s

/-- Meaning of PRESENT_TIMER (R285): every 10 ms a node of the cold-form sends its PRESENT. -/
def execPresentTimer (s : State) : Ans :=
  run (fun d =>
    if !d.srn.presenting || d.isM then d
    else
      let p := ownPresent d
      let d := if d.srn.coldOpen then d else { d with srn.coldOpen := true, srn.coldT := d.time }
      frame 0x10 [p.serial, p.ringId, p.index.getD 31, p.variant, b2n p.fresh] d) s

/-- A frame that tells a listening node that a ring forms or stands (R411). -/
def cueFrame (d : Dev) : Dev := if d.pwr.unfurl = .listening then { d with srn.cue := true } else d

/-- Meaning of CLAIM (R283): another node takes an index; a node without RING_ID learns it. -/
def execClaim (serial index ringId : Nat) (s : State) : Ans :=
  run (fun d =>
    if d.isM then d else
    let d := cueFrame (lineSeen 0x11 d)
    if !(d.pwr.mode.ringOn ∨ d.pwr.unfurl = .listening) ∨ serial = d.pst.nv.serial then d
    else
      let d := if (d.srn.ring = .forming ∧ d.pst.nv.ringId.isNone) ∨ d.pwr.unfurl = .listening then { d with srn.ringId := ringId } else d
      { d with srn.members := tmod d.srn.members index fun m =>
          if m.st = .absent then { m with st := .joining, serial, pos := posGuess d.srn.index index } else { m with serial } }) s

/-- Meaning of HEARTBEAT (R282): a cue for a listening node; it, or a splicing one, learns of a Live member by it. -/
def execHeartbeat (index _epoch : Nat) (s : State) : Ans :=
  run (fun d => if d.isM then d else
    let d := cueFrame (lineSeen 0x3F d)
    if d.pwr.unfurl = .listening ∨ d.pwr.mode = .splice then
      { d with srn.members := tmod d.srn.members index fun m =>
          if m.st = .absent then { m with st := .live, pos := posGuess d.srn.index index } else m }
    else d) s

/-- Meaning of HEARTBEAT_TIMER (R282, R411): a member, or a node of a cold-form after its window, sends HEARTBEAT. -/
def execHeartbeatTimer (s : State) : Ans :=
  run (fun d => if isMember d || d.srn.ring = .forming then frame 0x3F [d.srn.index, d.srn.epoch] d else d) s

/-- Meaning of COLD_FORM_LINKS_UP (R285, step 4): which links trained, each then tried by an ECHO; a link that did not is dead. -/
def execColdFormLinksUp (westUp eastUp : Bool) (s : State) : Ans :=
  run (fun d =>
    if d.srn.ring ≠ .forming then d else
    let o := (sortBy (fun x => x.2.pos) (d.srn.members.filter fun x => x.2.st ≠ .heldOut)).map (·.1)
    let e := o[1]?
    let w := o.getLast?
    let d := { d with
      srn.west := { d.srn.west with st := if westUp then .up else .down, peer := w, wrapped := !westUp }
      srn.east := { d.srn.east with st := if eastUp then .up else .down, peer := e, wrapped := !eastUp } }
    let d := match w with
      | some p => if westUp then sendCell 0x16 p 0 0 true 0 false [d.pst.nv.serial, 0] d else deadAdd d.srn.index p d
      | none => d
    match e with
      | some p => if eastUp then sendCell 0x16 p 0 0 false 0 false [d.pst.nv.serial, 0] d else deadAdd d.srn.index p d
      | none => d) s

/-- Meaning of RING_INDEX_WRITE_RETRY (R283): the refused write is requested again. -/
def execRingIndexWriteRetry (s : State) : Ans :=
  run (fun d => if d.srn.indexRetry then
    fwPut (.ringIndex (if d.srn.indexed then some d.srn.index else none) d.srn.ringId) { d with srn.indexRetry := false } else d) s

/-! ### Splice and leave (R286, R287, R293) -/

/-- The holder grants the next splice (R286). -/
def spliceGrant (d : Dev) : Dev :=
  match d.srn.spliceQ with
  | i :: q =>
    if d.srn.splice.isNone ∧ holderOf d = d.srn.index then
      let d := frame 0x21 [i] { d with srn.spliceQ := q, srn.splice := some { index := i, startT := d.time } }
      topoChange (marksA d)
    else d
  | [] => d

/-- Meaning of SPLICE_REQ (R286): queued at the holder, granted one at a time. -/
def execSpliceReq (serial index : Nat) (s : State) : Ans :=
  run (fun d =>
    let d := lineSeen 0x20 d
    if !isMember d then d else
    let d := { d with srn.members := tmod d.srn.members index fun m =>
      if m.st = .live then m else { m with st := .joining, serial, pos := posGuess d.srn.index index } }
    if holderOf d = d.srn.index then spliceGrant { d with srn.spliceQ := d.srn.spliceQ ++ [index] } else d) s

/-- Meaning of SPLICE_GO (R286, step 1): members route on ring B only and send MARK on ring A. -/
def execSpliceGo (index : Nat) (s : State) : Ans :=
  run (fun d =>
    if d.isM then d else
    let d := cueFrame (lineSeen 0x21 d)
    if !d.pwr.mode.ringOn then d
    else
      let d := { d with srn.splice := some { index, startT := d.time } }
      if isMember d then topoChange (marksA d) else d) s

/-- Every MARK of a drain has been seen: those of the other members (R286). -/
def marksDone (sp : SpliceSt) (d : Dev) : Bool := (peers d).all fun m => decide (m = sp.index) || decide (m ∈ sp.marks)

/-- Routes new cells on ring A only and sends MARK on ring B to every other member (R286, step 4). -/
def markB (sp : SpliceSt) (d : Dev) : Dev :=
  (peers d).foldl (fun d m => sendCell 0x17 m 0 0 true 0 false [] d) { d with srn.splice := some { sp with step := 4 } }

/-- A MARK is seen; once every one is, the ring is empty (R286 steps 2 and 5, R287): the joining or leaving node opens or
closes that set. A member away from the splice learns by the first MARK on ring B that ring A is up (log entry 76). -/
def markCell (src : Nat) (ringB : Bool) (d : Dev) : Dev :=
  match d.srn.splice with
  | none => d
  | some sp =>
    let mine := sp.index = d.srn.index
    let d := { d with srn.cnt := bump d.srn.cnt 1 }
    let d := if ringB ∧ !mine ∧ (sp.step = 2 ∨ sp.step = 3) then markB { sp with marks := [] } d else d
    let step := if ringB ∧ !mine ∧ (sp.step = 2 ∨ sp.step = 3) then 4 else sp.step
    let sp := { sp with step, marks := src :: (if step = sp.step then sp.marks else []) }
    let d := { d with srn.splice := some sp }
    if !marksDone sp d then d
    else if !ringB ∧ sp.step = 1 then
      let d := { d with srn.splice := some { sp with step := 2, marks := [] } }
      if !mine then d
      else if sp.leaving then
        markB { sp with marks := [] } (cellAll 0x18 2 [d.srn.index, d.srn.index] { d with srn.bypassA := true })
      else portTrain .west { d with srn.bypassA := false }
    else if ringB ∧ sp.step = 4 then
      let d := { d with srn.splice := some { sp with step := 5, marks := [] } }
      if !mine then (if sp.leaving then topoChange { d with srn.splice := none } else d)
      else if sp.leaving then { bypassClose d with srn.splice := none, srn.remotes := d.srn.remotes.map fun r => { r with holding := true, sent := false } }
      else portTrain .east { d with srn.bypassB := false }
    else d

/-- Meaning of MARK (R286, R287, R294). -/
def execMark (src : Nat) (ringB : Bool) (s : State) : Ans :=
  run (fun d => if !d.pwr.mode.ringOn || d.isM then d else markCell src ringB d) s

/-- The rows of both tables as TABLE cells carry them: a member's or a window's fields (R265). -/
def tableRows (d : Dev) : List (List Nat) :=
  d.srn.members.map (fun x => [0, x.1, (match x.2.st with
    | .absent => 0 | .heldOut => 1 | .joining => 2 | .live => 3 | .leaving => 4), x.2.pos, x.2.serial, x.2.variant, 0])
  ++ d.hst.wins.map fun x => 1 :: winWords x.1 ++ [if x.2 = .claiming then 1 else 2]

/-- A neighbour of the joining node sends it both tables, four rows a cell (R265, R286 step 7). -/
def tableSend (sp : SpliceSt) (d : Dev) : Dev :=
  if !isMember d ∨ !(d.srn.west.peer = some sp.index ∨ d.srn.east.peer = some sp.index) then d else
  let rows := tableRows d
  (List.range ((rows.length + 3) / 4)).foldl (fun d i =>
    let part := (rows.drop (4 * i)).take 4
    sendCell 0x14 sp.index 0 0 (d.srn.west.peer = some sp.index) part.length false part.flatten d) d

/-- Meaning of ECHO (R285 step 4, R286 steps 3 and 6): the neighbour's serial is confirmed against the member table. -/
def execEcho (side : Side) (serial : Nat) (s : State) : Ans :=
  run (fun d =>
    if d.isM || !d.pwr.mode.ringOn then d else
    let d := match tfind d.srn.members fun _ m => m.serial = serial with
      | some (i, _) => portMod side (fun p => { p with peer := some i }) { d with srn.cnt := bump d.srn.cnt 1 }
      | none => d
    match d.srn.splice with
    | some sp =>
      if sp.step = 3 then markB { sp with marks := [] } d
      else if sp.step = 6 then tableSend sp { d with srn.splice := some { sp with step := 7 } } else d
    | none => d) s

/-- Meaning of TABLE (R265, R286 step 7): both tables replace the copies held. -/
def execTable (c : Cell) (members : List (Nat × Member)) (windows : List (Win × WinSt)) (s : State) : Ans :=
  run (fun d =>
    let (ok, d) := acceptCell c 0x14 true d
    if !ok then d else
    let m := members.foldl (fun t x => tset t x.1 x.2) ([] : Tab Member)
    let d := { d with
      srn.members := m
      hst.wins := windows.take 64
      srn.splice := d.srn.splice.map fun (sp : SpliceSt) => if sp.step = 7 then { sp with step := 8 } else sp }
    topoChange (ringUpdate { d with srn.holder := holderOf d })) s

/-- Meaning of SPLICE_ABORT (R293). -/
def execSpliceAbort (index step cause : Nat) (s : State) : Ans :=
  run (fun d =>
    let d := lineSeen 0x22 d
    if d.isM || !d.pwr.mode.ringOn then d else
    spliceStop cause { d with srn.splice := some { index, step, startT := 0 } }) s

/-- Meaning of SPLICE_REQUEST_AGAIN (R293). -/
def execSpliceRequestAgain (s : State) : Ans :=
  run (fun d => if (d.pwr.mode = .splice ∨ d.srn.rejoin) ∧ d.srn.splice.isNone then frame 0x20 [d.pst.nv.serial, d.srn.index] d else d) s

/-- A splice is done at a member: the node is Live, credits are 16 again, routes and CDAT follow (R276, R286 step 8). -/
def spliceDone (index ms : Nat) (d : Dev) : Dev :=
  let d := { d with
    srn.members := tmod d.srn.members index fun m => { m with st := .live }
    srn.splice := none
    srn.cnt := bump d.srn.cnt 14 }
  let d := { d with srn.holder := holderOf d, srn.ring := if d.srn.ring = .alone then .intact else d.srn.ring }
  let d := topoChange (credRestore [index] (ringUpdate d))
  spliceGrant (post 0x2002 0 index ms (liveCount d) 0 d)

/-- A member leaves (R287): LEAVE goes out and ring A drains first; alone, both sets close at once. -/
def leaveStart (d : Dev) : Dev :=
  let d := frame 0x03 [d.srn.index] { d with srn.members := tmod d.srn.members d.srn.index fun m => { m with st := .leaving } }
  if (peers d).isEmpty then bypassClose d
  else marksA { d with srn.splice := some { index := d.srn.index, leaving := true, startT := d.time } }

/-- This node is leaving the ring. -/
def leaving (d : Dev) : Bool := d.srn.splice.any fun sp => sp.leaving && decide (sp.index = d.srn.index)

/-- Disables a port by draining and folding, or enables it (R294); disabling the second port is a leave (R287). -/
def portEnable (side : Side) (en : Bool) (d : Dev) : Dev :=
  if d.isM then d else
  let p := portOf d side
  let d := portMod side (fun p => { p with en }) d
  if en then
    match p.st with
    | .disabled => if d.srn.bypassA ∧ d.srn.bypassB then portMod side (fun p => { p with st := .down }) d else portTrain side d
    | .draining => portMod side (fun p => { p with st := .pending }) d
    | _ => d
  else
    if isMember d && !(portOf d (otherSide side)).en && p.en then leaveStart (portMod side (fun p => { p with st := .draining }) d) else
    match p.st with
    | .up => topoChange (sendCell 0x17 (p.peer.getD 0) 0 0 (side = .west) 0 false [] (portMod side (fun p => { p with st := .draining }) d))
    | .pending => portMod side (fun p => { p with st := .draining }) d
    | .draining => d
    | _ => portMod side (fun p => { p with st := .disabled }) d

/-- Meaning of SRN_CTL_PORT_EN (R294). -/
def execSrnCtlPortEn (side : Side) (en : Bool) (s : State) : Ans := run (gate 7 (portEnable side en)) s

/-- The drain of a port ends: it folds and reads Disabled, or the latched enable applies (R294); a rejoin that waited for the drain sends its request. -/
def portDrainEnd (side : Side) (d : Dev) : Dev :=
  let p := portOf d side
  let d := match p.st with
    | .draining =>
      portMod side (fun p => { p with st := .disabled }) (if leaving d then d else linkDead side d)
    | .pending => portTrain side d
    | _ => d
  if p.rejoin then frame 0x20 [d.pst.nv.serial, d.srn.index] (portMod side (fun p => { p with rejoin := false }) { d with srn.rejoin := true })
  else d

/-- Meaning of PORT_DRAIN_END (R294). -/
def execPortDrainEnd (side : Side) (s : State) : Ans := run (portDrainEnd side) s

end Sys2Proof.Machine
end

