-- ==== Sys2Proof/Machine/HostPort.lean ====
section
/-! DEFINITION. Machine/HostPort.lean: the host link and its resets (R241–R244, R251, R257–R260), decoders and the ring's
window claims (R245–R249), back-invalidates and the snoop queries of engine reads (R254–R256, R309). -/

namespace Sys2Proof.Machine

/-! ### Decoders and windows (R245–R249) -/

/-- Rewrites a decoder. -/
def decMod (n : Nat) (f : Dec → Dec) (d : Dev) : Dev := { d with hst.decs := tmod d.hst.decs n f }

/-- A refused commit (R246): the reason, HST_CNT_7, record 0x1011. Peer 31: none. -/
def decRefuse (n reason peer peerDec : Nat) (d : Dev) : Dev :=
  post 0x1011 1 n reason (if peer = 31 then 255 else peer) (if peer = 31 then 255 else peerDec)
    (decMod n (fun x => { x with st := .refused, reason, peer, peerDec := if peer = 31 then 0 else peerDec, waiting := [] })
      { d with hst.cnt := bump d.hst.cnt 7 })

/-- Rule 6 for this node's slice: the part of a window that lies in it ends at or below MAP_LIMIT. -/
def sliceFits (d : Dev) (w : Win) : Bool :=
  let lo := d.srn.index * 65536
  let top := min (w.base + w.size) (lo + 65536)
  decide (top ≤ max lo w.base) || decide ((top - lo) * 65536 ≤ d.map.limit)

/-- Ring indexes that a window reaches. -/
def winIndexes (w : Win) : List Nat := span (w.base / 65536) ((w.base + w.size - 1) / 65536)

/-- An index is claimed by a member of the ring; on TN-1640-M index 0 alone (R4, R245). -/
def claimed (d : Dev) (i : Nat) : Bool := i = d.srn.index || (tget d.srn.members i).st = .live

/-- A window of the table that overlaps another port's or decoder's. -/
def winConflict (d : Dev) (w : Win) : Option Win :=
  (d.hst.wins.find? fun x => winOverlap x.1 w && !(x.1.port = w.port && x.1.dec = w.dec)).map (·.1)

/-- Rules 1 to 4, the first that fails (R246). -/
def decLocal (d : Dev) (n base size skip : Nat) (bi : Bool) (iw : Nat) : Option Nat :=
  let top := decWinBase d n + size
  if (List.range n).any fun i => (tget d.hst.decs i).st ≠ .committed then some 1
  else if base % 2 ^ 28 ≠ 0 ∨ size % 2 ^ 28 ≠ 0 ∨ skip % 2 ^ 28 ≠ 0 ∨ size = 0 ∨ iw ≠ 0 then some 2
  else if bi ∧ d.isM then some 3
  else if (if d.isM then 2 ^ 44 else 2 ^ 48) < top then some 4
  else none

/-- Rules 5 to 8 as this node's own tables answer them. -/
def winCheck (d : Dev) (w : Win) : Nat × Nat × Nat :=
  if (winIndexes w).any fun i => !claimed d i then (5, 31, 0)
  else if !sliceFits d w then (6, 31, 0)
  else if !d.isM && (d.srn.ring = .parted || (peers d).any fun m => (pathTo d m).isNone) then (7, 31, 0)
  else match winConflict d w with
    | some x => (8, x.port, x.dec)
    | none => (0, 31, 0)

/-- A claim that every member granted: the window is Committed everywhere (R247, steps 3 and 4). -/
def decCommitted (n : Nat) (d : Dev) : Dev :=
  let w := decWin d n
  let d := winPut w .committed (cellAll 0x12 0 (winWords w) d)
  post 0x1010 0 n (w.base * 4096) w.size (b2n w.db)
    (decMod n (fun x => { x with st := .committed, reason := 0, peer := 31, peerDec := 0, waiting := [] }) d)

/-- Commit = 1 (R246, R247): the first of rules 1 to 6 that this node's own tables break refuses it; else a claim cell goes to
every member, and of the reasons gathered, this node's included, the lowest decides. A decoder claiming or committed keeps its
registers, so the write does nothing. `lock`: Lock On Commit. -/
def decCommit (n base size skip : Nat) (bi : Bool) (iw : Nat) (lock : Bool) (d : Dev) : Dev :=
  let x := tget d.hst.decs n
  if 4 ≤ n ∨ !d.hst.up ∨ x.st = .committed ∨ x.st = .claiming then d
  else
    let d := decMod n (fun _ => { base, size, skip, bi, lock, startT := d.time }) d
    match decLocal d n base size skip bi iw with
    | some r => decRefuse n r 31 0 d
    | none =>
      let w := decWin d n
      let (r, p, q) := winCheck d w
      if r = 5 ∨ r = 6 then decRefuse n r p q d
      else if (peers d).isEmpty then (if r = 0 then decCommitted n d else decRefuse n r p q d)
      else
        let d := decMod n (fun x => { x with st := .claiming, reason := r, peer := p, peerDec := q, waiting := peers d }) (winPut w .claiming d)
        (peers d).foldl (fun d m => cellTo 0x10 m n 0 0 (winWords w) d) d

/-- Meaning of HDM_DECODER_COMMIT (R246, R247). -/
def execHdmDecoderCommit (n base size skip : Nat) (bi : Bool) (iw : Nat) (lock : Bool) (s : State) : Ans :=
  run (decCommit n base size skip bi iw lock) s

/-- A decoder whose claim fails: the release cell, then the refusal. -/
def decFail (n reason peer peerDec : Nat) (d : Dev) : Dev := decRefuse n reason peer peerDec (winRelease (decWin d n) d)

/-- A claim at a member (R247): its MAP_LIMIT and its table; against its own claim the lower ring index wins. -/
def winClaim (c : Cell) (w : Win) (d : Dev) : Dev :=
  let (ok, d) := acceptCell c 0x10 true d
  if !ok then d else
  let answer (st : Nat) (pl : List Nat) (d : Dev) : Dev := cellTo 0x11 c.src c.tag 0 st pl d
  if !sliceFits d w then answer 6 (winWords w) d
  else
    let hits := d.hst.wins.filter fun x => winOverlap x.1 w && !(x.1.port = w.port && x.1.dec = w.dec)
    let wins := hits.filter fun x => !(x.2 = .claiming && decide (w.port < x.1.port))
    match wins with
    | x :: _ => answer 8 (winWords x.1) d
    | [] =>
      let mine := hits.filter fun x => x.1.port = d.srn.index
      let d := mine.foldl (fun d x => decFail x.1.dec 8 w.port w.dec d) d
      answer 0 (winWords w) (winPut w .claiming d)

/-- Meaning of WIN_CLAIM (R247). -/
def execWinClaim (c : Cell) (w : Win) (s : State) : Ans := run (winClaim c w) s

/-- A reply (R247): reasons are gathered until every member answered; the lowest decides. A conflict carries the window that
holds the space, whose port and decoder HST_DEC_PEER names (R246). -/
def winReplied (c : Cell) (w : Win) (d : Dev) : Dev :=
  let (ok, d) := acceptCell c 0x11 true d
  if !ok then d else
  let n := c.tag % 4
  let x := tget d.hst.decs n
  if x.st ≠ .claiming ∨ c.src ∉ x.waiting then d
  else
    let better := c.status ≠ 0 && (x.reason = 0 || decide (c.status < x.reason))
    let d := decMod n (fun x =>
      let x := { x with waiting := x.waiting.filter (· ≠ c.src) }
      if better then { x with reason := c.status, peer := if c.status = 8 then w.port else 31, peerDec := w.dec } else x) d
    let x := tget d.hst.decs n
    if !x.waiting.isEmpty then d
    else if x.reason = 0 then decCommitted n d
    else decFail n x.reason x.peer x.peerDec d

/-- Meaning of WIN_REPLY (R247). -/
def execWinReply (c : Cell) (w : Win) (s : State) : Ans := run (winReplied c w) s

/-- Meaning of WIN_CLAIM_REPLY_TIMEOUT (R247): a member has not replied; the commit fails with reason 7 at the latest. -/
def execWinClaimReplyTimeout (n : Nat) (s : State) : Ans :=
  run (fun d =>
    let x := tget d.hst.decs n
    if x.st ≠ .claiming then d
    else if x.reason ≠ 0 ∧ x.reason < 7 then decFail n x.reason x.peer x.peerDec d
    else decFail n 7 31 0 d) s

/-- Meaning of WIN_COMMIT (R247). -/
def execWinCommit (c : Cell) (w : Win) (s : State) : Ans :=
  run (fun d => let (ok, d) := acceptCell c 0x12 true d
    if ok then winPut w .committed d else d) s

/-- Meaning of WIN_RELEASE (R249). -/
def execWinRelease (c : Cell) (w : Win) (s : State) : Ans :=
  run (fun d => let (ok, d) := acceptCell c 0x13 true d
    if ok then winDrop w.port w.dec d else d) s

/-! ### Decommit (R249) -/

/-- Steps 2 and 3 of R249. -/
def decRelease (n : Nat) (d : Dev) : Dev :=
  let x := tget d.hst.decs n
  let w := decWin d n
  post 0x1012 0 n (w.base * 4096) x.removed ((d.time - x.startT) / 100)
    (decMod n (fun x => { x with st := .uncommitted, reason := 0, peer := 31, peerDec := 0, waiting := [], release := false })
      (winRelease w d))

/-- Lines of the snoop filter that lie in a window. -/
def sfLines (d : Dev) (w : Win) : List Nat :=
  d.hst.sf.flatMap fun s => s.2.ways.filterMap fun y => y.2.bind fun z =>
    let line := z.1 * 2 ^ 17 + s.1
    if decide (w.base ≤ line / 2 ^ 22) && decide (line / 2 ^ 22 < w.base + w.size) then some line else none

/-- Commit = 0 (R249): an HDM-DB window's entries are back-invalidated first; a claim in progress is withdrawn. -/
def decDecommit (n : Nat) (d : Dev) : Dev :=
  let x := tget d.hst.decs n
  match x.st with
  | .committed =>
    if x.release then d else
    let lines := if x.bi then sfLines d (decWin d n) else []
    let d := decMod n (fun x => { x with release := true, removed := lines.length, startT := d.time }) d
    if lines.isEmpty then decRelease n d
    else { d with hst.bis := d.hst.bis ++ lines.map fun l => { line := l, why := .decommit n } }
  | .claiming => decMod n (fun x => { x with st := .uncommitted, waiting := [], reason := 0 }) (winRelease (decWin d n) d)
  | _ => decMod n (fun x => { x with st := .uncommitted, reason := 0, peer := 31, peerDec := 0 }) d

/-- Meaning of HDM_DECODER_DECOMMIT (R249). A decoder locked at its commit keeps its registers until a reset of the port
(R245, log entry 91). -/
def execHdmDecoderDecommit (n : Nat) (s : State) : Ans :=
  run (fun d => if 4 ≤ n ∨ !d.hst.up ∨ (tget d.hst.decs n).lock ∧ (tget d.hst.decs n).st = .committed then d else decDecommit n d) s

/-! ### Snoop queries of engine reads (R256, R309) -/

/-- A query for a ring frond: BISnpData for every line in state A (R309). -/
def snpAsk (src tag rf : Nat) (d : Dev) : Dev :=
  let lines := ((List.range 64).map (rf * 64 + ·)).filter fun l => ((sfLook d (l * 64)).map (·.2)) = some .a
  let new := lines.filter fun l => !(d.hst.bis.any fun b => b.line = l && b.why = .engine rf)
  snpAnswer { d with
    hst.bis := d.hst.bis ++ new.map fun l => { line := l, why := .engine rf }
    hst.snpAsks := d.hst.snpAsks ++ [(src, tag, rf)] }

/-- Meaning of SNP_QRY (R309): the queried line lies in the asker's slice. -/
def execSnpQry (c : Cell) (s : State) : Ans :=
  run (fun d => let (ok, d) := acceptCell c 0x0B true d
    if ok then snpAsk c.src c.tag (c.src * 2 ^ 32 + c.line / 64) d else d) s

/-- Meaning of SNP_DONE (R309): the engine may read the frond. -/
def execSnpDone (c : Cell) (s : State) : Ans :=
  run (fun d => let (ok, d) := acceptCell c 0x0C true d
    if ok then { d with ope.asking := d.ope.asking.filter fun y => !(y = (c.tag, c.line / 64)) } else d) s

/-! ### Back-invalidates (R254) -/

/-- BISNP_SEND: the oldest waiting back-invalidate takes a free BI credit. -/
def bisnpSend (d : Dev) : Dev :=
  if !d.hst.up then d else
  match d.hst.bis.findIdx? fun b => !b.sent with
  | none => d
  | some i => match d.hst.bis[i]? with
    | none => d
    | some b =>
      let inv := match b.why with
        | .engine _ => false
        | _ => true
      emit (.bisnp b.line inv) { d with
        hst.bis := d.hst.bis.set i { b with sent := true }
        hst.cnt := bump d.hst.cnt 3 }

/-- Meaning of BISNP_SEND (R254). -/
def execBisnpSend (s : State) : Ans := run bisnpSend s

/-- Data that the host writes back lands at its owner, as a full-line write. -/
def writeBack (line : Nat) (data : Line) (d : Dev) : Dev :=
  let a := line * 64
  let w : WrBody := ⟨data, BitVec.allOnes 64, false⟩
  if addrIndex a = d.srn.index then admitEval (writeLine (addrFrond a) (addrLine a) w a 1 255 d)
  else remoteStart 65536 a (some w) [] d

/-- BIRSP: the entry it answers is retired, and what waited for it goes on (R249, R254, R256). -/
def birsp (line : Nat) (wb : Option Line) (d : Dev) : Dev :=
  match d.hst.bis.find? fun b => b.line = line && b.sent with
  | none => d
  | some b =>
    let d := { d with hst.bis := d.hst.bis.erase b }
    let d := match wb with
      | some data => writeBack line data d
      | none => d
    let d := match b.why with
      | .victim => sfThresholds d
      | .engine _ => match sfLook d (line * 64) with
        | some (_, .a) => sfPut (line * 64) .s d
        | _ => d
      | .decommit n =>
        let d := sfDrop (line * 64) d
        if d.hst.bis.any fun x => x.why = .decommit n then d else decRelease n d
    snpAnswer d

/-- Meaning of BIRSP (R254). -/
def execBirsp (line : Nat) (writeBack : Option Line) (s : State) : Ans := run (birsp line writeBack) s

/-- Meaning of BICONFLICT (R254): the conflict handshake of a line whose BIRsp is awaited. -/
def execBiconflict (line : Nat) (s : State) : Ans :=
  run (fun d => match d.hst.bis.findIdx? fun b => b.line = line && b.sent && !b.conflict with
    | none => d
    | some i => match d.hst.bis[i]? with
      | none => d
      | some b => emit (.conflictDone line) { d with hst.bis := d.hst.bis.set i { b with conflict := true } }) s

/-! ### The link and its resets (R241, R242, R259, R260) -/

/-- The port alone is reset (R259): decoders released on the ring, snoop filter and victim buffer emptied, withheld credits
returned; reads in flight are dropped, admitted writes complete unanswered, a running command loses its completion. -/
def portReset (cause : Nat) (d : Dev) : Dev :=
  if !d.hst.up then d else
  let lines (n : Nat) : Nat := if (tget d.hst.decs n).bi then (sfLines d (decWin d n)).length else 0
  let d := (List.range 4).foldl (fun d n => match (tget d.hst.decs n).st with
    | .committed => decRelease n (decMod n (fun x => if x.release then x else { x with removed := lines n, startT := d.time }) d)
    | .claiming => winRelease (decWin d n) d
    | _ => d) d
  let mine := d.rp.reqs.filter fun r => match r.org with
    | .host _ => true
    | .ring .. | .back _ => false
  let d := mine.foldl (fun d r =>
    let d := match r.wr with
      | some w => writeLine r.frond r.line w (r.addr d) r.cls r.org.who d
      | none => d
    reqDrop r d) d
  let asks := d.hst.snpAsks
  let d := hostDown cause { d with
    hst.bis := []
    hst.width := 0
    hst.rate := 0
    hst.flit := 0
    srn.remotes := d.srn.remotes.map fun r => { r with hostTag := 65536 }
    mbx.run := d.mbx.run.map fun r => if r.tr = .i3c then r else { r with lost := true } }
  admitEval (snpAnswer { d with hst.snpAsks := asks })

/-- Meaning of LINK_UP (R241, R242, R259): 512 credits are offered; a narrower or slower link is recorded. -/
def execLinkUp (width rate flit : Nat) (s : State) : Ans :=
  run (fun d =>
    if d.hst.up ∨ d.hst.perst ∨ !d.pwr.mode.firmware ∨ d.pwr.mode = .halt then d
    else
      let d := post 0x1001 0 width rate flit 0 { d with
        hst.up := true
        hst.width := width
        hst.rate := rate
        hst.flit := flit
        hst.memActive := d.pwr.mode.serves
        csh.credHost := 512
        csh.owedHost := 0 }
      postIf (decide (width < 16) || decide (rate < 64)) 0x1003 1 width rate 0 0 d) s

/-- Meaning of LINK_DOWN (R259). -/
def execLinkDown (s : State) : Ans := run (portReset 3) s

/-- Meaning of PERST_ASSERTED (R259, R260). -/
def execPerstAsserted (s : State) : Ans :=
  run (fun d => { portReset 0 d with hst.perst := true, hst.ready := false }) s

/-- Meaning of PERST_DEASSERTED (R260): the function becomes ready once the node is powered and its firmware runs. -/
def execPerstDeasserted (s : State) : Ans :=
  run (fun d => { d with
    hst.perst := false
    hst.ready := d.hst.ready || (d.pwr.mode.firmware && d.pwr.mode ≠ .halt && d.pwr.unfurl ≠ .booting && d.pwr.unfurl ≠ .noBoot) }) s

/-- Meaning of HOT_RESET (R259). -/
def execHotReset (s : State) : Ans := run (portReset 1) s

/-- Meaning of CXL_RESET (R259). -/
def execCxlReset (s : State) : Ans := run (portReset 2) s

/-- The configuration space (R244, R245). -/
def cfgSpace (d : Dev) : CfgSpace :=
  { viralEnable := d.hst.viralOn, rangeSize := if d.isM then 2 ^ 44 else 2 ^ 48, memActive := d.hst.memActive, serial := d.pst.nv.serial }

/-- Meaning of CONFIG_REQUEST (R244, R260): Retry Status until the function is ready, then served. `viral`: a write of
Viral_Enable in the CXL Device DVSEC (R258). -/
def execConfigRequest (tag : Nat) (viral : Option Bool) (s : State) : Ans :=
  run (fun d =>
    if !d.hst.up then d
    else if !d.hst.ready then emit (.config tag none) d
    else
      let d := { d with hst.viralOn := viral.getD d.hst.viralOn }
      emit (.config tag (some (cfgSpace d))) d) s

/-- The slices of the CDAT (R252); a peer's MAP_LIMIT is free. -/
def cdatRows (d : Dev) : List CdatRow :=
  let live := if d.isM then [] else (peers d).filter fun m => (pathTo d m).isSome
  let row (i limit h : Nat) : CdatRow := { base := i * 2 ^ 44, length := limit * 4096, latency := 250 + 60 * h }
  row d.srn.index d.map.limit 0 :: live.map fun m => row m (Config.peerLimit m d.hst.cdatSeq) (hopsTo d m)

/-- Meaning of DOE_CDAT_READ (R252). -/
def execDoeCdatRead (s : State) : Ans :=
  run (fun d => if !d.hst.up ∨ !d.hst.ready then d else emit (.cdat d.hst.cdatSeq (cdatRows d)) d) s

/-- Meaning of DOE_SPDM (R244, R339): served even while a command runs. -/
def execDoeSpdm (s : State) : Ans := run (fun d => if d.hst.up ∧ d.hst.ready then emit .spdm d else d) s

/-- Meaning of IDE_KM (R257): the stream has keys, its mode, and is secure again (log entry 100). -/
def execIdeKm (stream : Nat) (skid : Bool) (s : State) : Ans :=
  run (fun d => if d.hst.up ∧ d.hst.ready ∧ stream < 3 then
    { d with hst.ide := tset d.hst.ide stream { keyed := true, skid, insecure := false } } else d) s

/-- Meaning of GPF_PHASE1 (R251): complete at once. -/
def execGpfPhase1 (s : State) : Ans := run (fun d => if d.hst.up then emit (.gpf 1) d else d) s

/-- Meaning of GPF_PHASE2 (R251): complete with no media work. -/
def execGpfPhase2 (s : State) : Ans := run (fun d => if d.hst.up then emit (.gpf 2) d else d) s

end Sys2Proof.Machine
end

