-- ==== Sys2Proof/Machine/Engines.lean ====
section
/-! DEFINITION. Machine/Engines.lean: tasks, from doorbell and admission through chunks to their endings (R298–R310,
R315–R322), fan-out over the ring (R312–R314), result queues (R318–R321). -/

namespace Sys2Proof.Machine

/-! ### Descriptor fields (R303–R305) -/

/-- Quadword w of a task. -/
def Task.q (t : Task) (w : Nat) : Nat := t.qw.getD w 0
/-- OPCODE. -/
def opcodeOf (q : List Nat) : Nat := bits (q.getD 0 0) 7 0
/-- RQ. -/
def rqOf (q : List Nat) : Nat := bits (q.getD 0 0) 13 8
/-- OUT. -/
def outOf (q : List Nat) : Nat := bits (q.getD 0 0) 15 14
/-- TASK_TAG. -/
def tagOf (q : List Nat) : Nat := bits (q.getD 0 0) 31 16
/-- NPRED. -/
def npredOf (q : List Nat) : Nat := bits (q.getD 0 0) 34 32
/-- FANOUT. -/
def fanOf (q : List Nat) : Bool := bit (q.getD 0 0) 36
/-- MSI. -/
def msiOf (q : List Nat) : Bool := bit (q.getD 0 0) 37
/-- Record size in bytes. -/
def recOf (q : List Nat) : Nat := 2 ^ bits (q.getD 0 0) 41 38
/-- PKT_MAX. -/
def pktOf (q : List Nat) : Nat := bits (q.getD 0 0) 60 48
/-- SRC. -/
def srcOf (q : List Nat) : Nat := q.getD 2 0
/-- COUNT. -/
def countOf (q : List Nat) : Nat := q.getD 3 0
/-- HMODE of HASH. -/
def hmodeOf (q : List Nat) : Nat := bits (q.getD 13 0) 1 0

/-- COUNT is in bytes: COPY, CIPHER, HASH with HMODE 0 (R305). -/
def byteOp (q : List Nat) : Bool :=
  opcodeOf q = 6 || opcodeOf q = 8 || (opcodeOf q = 7 && hmodeOf q = 0)

/-- Bytes of the source. -/
def srcBytes (q : List Nat) : Nat := if byteOp q then countOf q else countOf q * recOf q

/-- A column control (R304). -/
structure Col where
  off : Nat
  width : Nat
  signed : Bool
  op : Nat
  present : Bool
  deriving DecidableEq, Repr

/-- The column of sixteen control bits. -/
def colOf (c : Nat) : Col :=
  { off := bits c 7 0, width := 2 ^ bits c 9 8, signed := bit c 10, op := bits c 14 11, present := bit c 15 }

/-- A column lies aligned inside the record. -/
def Col.inside (c : Col) (rb : Nat) : Bool := decide (c.off % c.width = 0) && decide (c.off + c.width ≤ rb)

/-- A key or value column: no operator, no PRESENT. -/
def Col.plain (c : Col) (rb : Nat) : Bool := c.inside rb && c.op = 0 && !c.present

/-- The column's bytes as an unsigned number. -/
def Col.get (c : Col) (rb : List Byte) : Nat := le rb c.off c.width

/-- A value at a column's signedness. -/
def Col.int (c : Col) (v : Nat) : Int :=
  let w := 8 * c.width
  let v := v % 2 ^ w
  if c.signed && decide (2 ^ (w - 1) ≤ v) then (v : Int) - (2 ^ w : Nat) else v

/-- A value extended to 64 bits at the column's signedness (R305). -/
def Col.ext (c : Col) (v : Nat) : Nat := (c.int v % ((2 : Int) ^ 64)).toNat

/-- A predicate on a column value (R304). -/
def Col.holds (c : Col) (v a b : Nat) : Bool :=
  let x := c.int v
  let A := c.int a
  let B := c.int b
  match c.op with
  | 0 => decide (x = A)
  | 1 => decide (x ≠ A)
  | 2 => decide (x < A)
  | 3 => decide (x ≤ A)
  | 4 => decide (A < x)
  | 5 => decide (A ≤ x)
  | 6 => decide (A ≤ x) && decide (x ≤ B)
  | 7 => decide (x < A) || decide (B < x)
  | _ => decide ((v % 2 ^ (8 * c.width)) &&& (b % 2 ^ (8 * c.width)) = a % 2 ^ (8 * c.width))

/-- Predicate p of a descriptor. -/
def predCol (q : List Nat) (p : Nat) : Col := colOf (bits (q.getD 4 0) (16 * p + 15) (16 * p))

/-- A record passes (R304). -/
def passes (q : List Nat) (rb : List Byte) : Bool :=
  let n := npredOf q
  let h (p : Nat) : Bool := (predCol q p).holds ((predCol q p).get rb) (q.getD (5 + 2 * p) 0) (q.getD (6 + 2 * p) 0)
  n = 0 || (if bit (q.getD 0 0) 35 then (List.range n).any h else (List.range n).all h)

/-! ### Field checks (R301, check 3) -/

/-- The predicates in use are valid, the others zero. -/
def predsOk (q : List Nat) : Bool :=
  decide (npredOf q ≤ 4) && (List.range 4).all fun p =>
    if p < npredOf q then (predCol q p).inside (recOf q) && decide ((predCol q p).op ≤ 8) && !(predCol q p).present
    else bits (q.getD 4 0) (16 * p + 15) (16 * p) = 0 && q.getD (5 + 2 * p) 0 = 0 && q.getD (6 + 2 * p) 0 = 0

/-- The projection controls of QW13: present columns valid, absent ones zero. -/
def projOk (q : List Nat) : Bool :=
  (List.range 4).all fun i =>
    let c := bits (q.getD 13 0) (16 * i + 15) (16 * i)
    if (colOf c).present then (colOf c).inside (recOf q) && (colOf c).op = 0 else c = 0

/-- The opcode's own fields; `sub` leaves out QW15, which holds ORD_BASE in a sub-task (R312). -/
def opFieldsOk (q : List Nat) (sub : Bool) : Bool :=
  let q13 := q.getD 13 0
  let q14 := q.getD 14 0
  let z15 := sub || q.getD 15 0 = 0
  let rb := recOf q
  match opcodeOf q with
  | 1 => (if outOf q = 2 then projOk q else q13 = 0) && q14 = 0 && z15
  | 3 => decide (q13 < 2 ^ 33) && q13 % 8 = 0 && q14 = 0 && z15 && !(fanOf q && decide (128 < rb))
  | 4 => (colOf (bits q13 15 0)).plain rb && (colOf (bits q13 31 16)).plain rb && decide (1 ≤ bits q13 44 32)
      && decide (bits q13 44 32 ≤ 4096) && bits q13 63 45 = 0 && z15 && outOf q = 0
  | 5 => (colOf (bits q13 15 0)).plain rb && decide (13 ≤ bits q13 20 16) && decide (bits q13 20 16 ≤ 29)
      && bits q13 63 24 = 0 && decide (q14 < 2 ^ 33) && q14 % 2 ^ (bits q13 20 16 - 3) = 0 && z15
  | 6 => countOf q % 64 = 0 && decide (q13 < 2 ^ 33) && q13 % 64 = 0 && q14 = 0 && z15 && outOf q = 0 && npredOf q = 0
  | 7 => decide (hmodeOf q ≤ 2) && bits q13 15 2 = 0 && bits q13 63 32 = 0
      && (if hmodeOf q = 2 then (colOf (bits q13 31 16)).plain rb else bits q13 31 16 = 0)
      && q14 = 0 && z15 && outOf q = 0 && npredOf q = 0
  | 8 => bits q13 63 44 = 0 && (bit q13 10 || bits q13 43 11 = 0) && outOf q = 0 && npredOf q = 0
  | _ => false

/-- Every field is valid by R303 to R307, with reserved bits zero. -/
def formatOk (q : List Nat) (sub : Bool) : Bool :=
  let q0 := q.getD 0 0
  bits q0 47 42 = 0 && bits q0 63 61 = 0 && decide (outOf q ≠ 3) && (pktOf q = 0 || (decide (8 ≤ pktOf q) && decide (pktOf q ≤ 4096)))
  && decide (srcOf q < 2 ^ 48) && decide (countOf q < 2 ^ 48) && decide (0 < countOf q)
  && (byteOp q || (decide (3 ≤ bits q0 41 38) && decide (bits q0 41 38 ≤ 8)))
  && (opcodeOf q = 3 || srcOf q % (if byteOp q then 64 else recOf q) = 0)
  && predsOk q && opFieldsOk q sub

/-! ### Range, scratch, cipher and load checks (R301, R302) -/

/-- The local slice of the ring space [lo, hi) as (start, bytes). -/
def localShare (d : Dev) (q : List Nat) : Nat × Nat :=
  let lo := max (srcOf q) (d.srn.index * 2 ^ 44)
  let hi := min (srcOf q + srcBytes q) ((d.srn.index + 1) * 2 ^ 44)
  if opcodeOf q = 3 ∨ hi ≤ lo then (lo, 0) else (lo, hi - lo)

/-- Ring indexes of the source. -/
def srcOwners (q : List Nat) : List Nat := span (srcOf q / 2 ^ 44) ((srcOf q + srcBytes q - 1) / 2 ^ 44)

/-- Check 4. A GATHER's source is its list, whose entries are judged as they are read (R310). -/
def rangeOk (d : Dev) (q : List Nat) (sub : Bool) : Bool :=
  opcodeOf q = 3 || (
    decide (srcOf q + srcBytes q ≤ 2 ^ 48)
    && (srcOwners q).all fun o =>
      let lim := if o = d.srn.index then d.map.limit else Config.peerLimit o d.hst.cdatSeq
      (o = d.srn.index || (!sub && fanOf q && (tget d.srn.members o).st = .live))
      && (opcodeOf q ≠ 8 || decide ((srcOwners q).length = 1))
      && decide (min (srcOf q + srcBytes q) ((o + 1) * 2 ^ 44) - o * 2 ^ 44 ≤ lim * 4096))

/-- A scratch span is inside the scratch and outside every enabled spill region. -/
def scratchFree (d : Dev) (off n : Nat) : Bool :=
  decide (off + n ≤ 2 ^ 33) && d.ope.rq.all fun x =>
    !(x.2.spill && x.2.st ≠ .disabled) || decide (off + n ≤ x.2.baseMib * 2 ^ 20)
      || decide ((x.2.baseMib + x.2.sizeMib) * 2 ^ 20 ≤ off)

/-- Check 5: every scratch operand. -/
def scratchOk (d : Dev) (q : List Nat) (sub : Bool) : Bool :=
  let q13 := q.getD 13 0
  match opcodeOf q with
  | 3 => sub || scratchFree d q13 (8 * countOf q)
  | 5 => scratchFree d (q.getD 14 0) (2 ^ (bits q13 20 16 - 3))
  | 6 => scratchFree d q13 (countOf q)
  | 8 => !bit q13 10 || scratchFree d (bits q13 43 11) (outMax (bits q13 8 5) (bit q13 9) (countOf q) 0)
  | _ => true

/-- The cipher request of a CIPHER task (R333): scratch or queue output, TAGLEN and data unit zero. -/
def taskReq (entry : Nat) (q : List Nat) (msg : List Byte) : CReq :=
  let q13 := q.getD 13 0
  { origin := .engine entry
    qw := [bits q13 4 0 + bits q13 8 5 * 32 + b2n (bit q13 9) * 512 + 2048 + (if bit q13 10 then 4096 else 8192), countOf q,
           srcOf q, bits q13 43 11, 0, q.getD 14 0, q.getD 15 0, 0]
    msg }

/-- Check 6. -/
def cipherOk (d : Dev) (q : List Nat) : Bool :=
  opcodeOf q ≠ 8 || (
    let r := taskReq 0 q []
    decide (r.mode ≤ 5) && keyFits d r true && lengthOk r.mode r.dec (countOf q) 0 0 && ivOk r.mode r.iv)

/-- A record opcode's list entry i (R305): a ring address from scratch. -/
def listEntry (d : Dev) (q : List Nat) (i : Nat) : Nat := le (scratchRead d (q.getD 13 0 + 8 * i) 8) 0 8

/-- Lines a span touches. -/
def linesSpan (a n : Nat) : List Nat := if n = 0 then [] else span (a / 64) ((a + n - 1) / 64)

/-- b_local of R302: bytes the task reads on this node. -/
def bLocal (d : Dev) (q : List Nat) (g : List (Nat × Nat)) : Nat :=
  if opcodeOf q = 3 then g.foldl (fun n x => n + 64 * (linesSpan x.1 (recOf q)).length) 0
  else (localShare d q).2

/-- Engines that are Enabled. -/
def enginesOn (d : Dev) : Nat := ((List.range d.engines).filter fun e => (tget d.ope.eng e).st = .enabled).length

/-- Admission by the prediction of R302; the clock fraction is 8 over the ENGINE divisor (R438). -/
def loadOk (p : OpeSet) (d : Dev) (b deadline : Nat) : Bool :=
  let ahead := (d.ope.tasks.filter fun t => t.deadline ≤ deadline).foldl (fun n t => n + t.bytesLeft) 0
  let den := 256 * enginesOn d * 8 * p.pct
  decide (0 < den) && decide (d.time + ((ahead + b) * 100 * d.pwr.div + den - 1) / den < deadline)

/-- Queues of the variant (R298). -/
def queues (d : Dev) : Nat := 4 * d.engines

/-- The first check of R301 that fails, as its reason, by the settings in force when the entry was rung (R36, R324). -/
def admitReason (p : OpeSet) (d : Dev) (tq : Nat) (q : List Nat) (g : List (Nat × Nat)) (deadline : Nat) (sub : Bool) : Option Nat :=
  if !d.pwr.mode.engines then some 1
  else if enginesOn d = 0 || (!sub && ((tget d.ope.tq tq).st ≠ .enabled || decide (queues d ≤ rqOf q)
      || (tget d.ope.rq (rqOf q)).st ≠ .enabled)) then some 2
  else if !formatOk q sub then some 3
  else if !rangeOk d q sub then some 4
  else if !scratchOk d q sub then some 5
  else if !cipherOk d q then some 6
  else if deadline < d.time + p.minTicks then some 7
  else if decide (1024 ≤ d.ope.tasks.length)
      || (opcodeOf q = 4 && decide (64 ≤ (d.ope.tasks.filter fun t => opcodeOf t.qw = 4).length))
      || !loadOk p d (bLocal d q g) deadline then some 8
  else none

/-! ### Result queues (R318–R321) -/

/-- Capacity in words (R318). -/
def rqCap (r : Rq) : Nat := if r.spill then r.sizeMib * 131072 else 8192

/-- Modulus of RD and WR: twice the capacity. -/
def rqMod (r : Rq) : Nat := 2 * rqCap r

/-- Rewrites a queue. -/
def rqMod1 (n : Nat) (f : Rq → Rq) (d : Dev) : Dev := { d with ope.rq := tmod d.ope.rq n f }

/-- A packet of the node's own (R320): words with W0 and W1 filled in. -/
def packet (d : Dev) (tq : Nat) (q : List Nat) (pseq status reason src : Nat) (last peer : Bool) (ord : Nat) (data : List Nat) :
    List Nat :=
  let n := data.length + 3
  let w1 := tagOf q + tq % 64 * 2 ^ 16 + opcodeOf q * 2 ^ 22 + pseq % 65536 * 2 ^ 32 + status % 16 * 2 ^ 48
    + reason % 16 * 2 ^ 52 + src % 16 * 2 ^ 56
  let _ := d
  (n + b2n last * 2 ^ 14 + b2n peer * 2 ^ 15) :: w1 :: ord % 2 ^ 48 :: data

/-- A void packet of the reserved words (R315): W0 holds VOID. -/
def voidPacket (p : QPkt) : QPkt := { p with words := [3 + 2 ^ 13, p.words.getD 1 0, p.words.getD 2 0], last := false, msi := false }

/-- Writes a packet, or leaves it waiting while another waits or no room is left (R319). Answers whether it was written. -/
def rqPush (n : Nat) (p : QPkt) (d : Dev) : Bool × Dev :=
  let r := tget d.ope.rq n
  if r.waiting.isEmpty ∧ r.words.length + p.words.length ≤ rqCap r then
    (true, rqMod1 n (fun r => { r with words := r.words ++ p.words }) d)
  else (false, rqMod1 n (fun r => { r with waiting := r.waiting ++ [p] }) d)

/-- The queue's vector, once a LAST packet with MSI has closed (R320). -/
def rqMsi (n : Nat) (q : List Nat) (d : Dev) : Dev := if msiOf q then emit (.msix (tget d.ope.rq n).vec) d else d

/-! ### Endings (R314–R317) -/

/-- Rewrites a task. -/
def taskMod (entry : Nat) (f : Task → Task) (d : Dev) : Dev :=
  { d with ope.tasks := updWhere d.ope.tasks (·.entry = entry) f }

/-- A task by its entry. -/
def taskGet (d : Dev) (entry : Nat) : Option Task := d.ope.tasks.find? (·.entry = entry)

/-- The counter of a status (R324). -/
def statusCnt : Nat → Nat
  | 0 => 2 | 1 => 3 | 2 => 1 | 3 => 4 | 4 => 5 | _ => 6

/-- TASK_END of a sub-task to its requester (R313); a CIPHER task's tag follows the five quadwords (log entry 92). -/
def taskEndCell (t : Task) (status reason fault : Nat) (d : Dev) : Dev := match t.sub with
  | some (src, tag) =>
    cellTo 0x0A src tag 0 (status + reason * 16) ([t.cellsSent, t.examined, t.result, fault, t.size] ++ t.tagWords) d
  | none => d

/-- What a task leaves behind when it leaves the table: engines free, queries withdrawn, its cipher request ended ABORTED. -/
def taskDrop (entry : Nat) (d : Dev) : Dev :=
  let gone := (d.cph.queue.filter fun r => r.origin = .engine entry).length
  { d with
    cph.cnt := if gone = 0 then d.cph.cnt else bump d.cph.cnt 2 gone
    ope.tasks := d.ope.tasks.filter (·.entry ≠ entry)
    ope.eng := tmap d.ope.eng fun _ e => if (e.chunk.map (·.1)) = some entry then { e with chunk := none } else e
    ope.asking := d.ope.asking.filter fun x => x.1 ≠ entry
    cph.queue := d.cph.queue.filter fun r => r.origin ≠ .engine entry }

/-- Words of the LAST packet after W2 (R320). -/
def lastWords (t : Task) (fault word : Nat) : List Nat := [t.examined, fault, word] ++ t.tagWords

/-- The records of an ending other than OK (R323). Range protection refused the read at the node that answers for the line
(R221): its ranges, its record 0x7011 and its SEC_CNT_3 alone; `own` says it was this one. -/
def endRecord (own : Bool) (t : Task) (status reason fault : Nat) (d : Dev) : Dev :=
  let sec := d.time / 100000000 + 1
  match status with
  | 1 => postIf (decide (d.ope.lateSec ≠ sec)) 0x8002 1 t.tq (tagOf t.qw) t.done (t.chunks - t.done)
      { d with ope.lateSec := sec }
  | 2 => postIf (decide (d.ope.refSec ≠ sec)) 0x8001 0 t.tq reason (tagOf t.qw) (b2n t.sub.isSome) { d with ope.refSec := sec }
  | 3 => post 0x8003 1 t.tq status (fault / 65536) (fault % 65536) d
  | 4 => post 0x8003 1 t.tq status (fault / 65536) (fault % 65536)
      (if own then post 0x7011 1 (((rangeOf d (addrFrond fault)).map (·.1)).getD 127) (fault / 65536) (fault % 65536)
        (if t.sub.isSome then 255 else t.tq) { d with sec.cnt := bump d.sec.cnt 3 } else d)
  | _ => post 0x8004 1 t.tq reason (tagOf t.qw) 0 d

/-- An ending other than OK (R315, R316): open packets turn void, open sub-tasks are aborted, the LAST packet or TASK_END
goes out. `src` names the owner of a peer's status. -/
def taskStop (entry status reason src fault : Nat) (d : Dev) : Dev :=
  match taskGet d entry with
  | none => d
  | some t =>
    let d := taskDrop entry d
    let rq := rqOf t.qw
    let open_ := ((tget d.ope.rq rq).waiting.filter fun p => p.entry = entry).length
    let d := if t.sub.isSome then d else
      rqMod1 rq (fun r => { r with waiting := r.waiting.map fun p => if p.entry = entry then voidPacket p else p })
        { d with ope.cnt := bump d.ope.cnt 13 open_ }
    let d := (t.subs.filter fun s => !s.ended).foldl (fun d s => cellTo 0x08 s.owner s.tag 0 0 [0xF1] d) d
    let d := { d with ope.cnt := bump d.ope.cnt (statusCnt status) }
    let d := endRecord (decide (src = d.srn.index)) t status reason fault d
    if t.sub.isSome then taskEndCell t status reason fault d
    else
      let p : QPkt := { entry := 1024, last := true, msi := msiOf t.qw,
                        words := packet d t.tq t.qw t.pseq status reason src true false 0 (lastWords t fault t.result) }
      let (w, d) := rqPush rq p d
      if w then rqMsi rq t.qw d else d

/-- Every running task ends ABORTED by a change of mode (R299). -/
def tasksModeEnd (d : Dev) : Dev := d.ope.tasks.foldl (fun d t => taskStop t.entry 5 2 d.srn.index 0 d) d

/-- A refusal (R301): BUSY in a LAST packet of the named queue, or in the task queue's registers. -/
def taskRefuse (tq : Nat) (q : List Nat) (reason : Nat) (d : Dev) : Dev :=
  let sec := d.time / 100000000 + 1
  let d := postIf (decide (d.ope.refSec ≠ sec)) 0x8001 0 tq reason (tagOf q) 0
    { d with ope.cnt := bump d.ope.cnt 1, ope.refSec := sec }
  let rq := rqOf q
  if decide (queues d ≤ rq) || (tget d.ope.rq rq).st ≠ .enabled then
    { d with ope.tq := tmod d.ope.tq tq fun x => { x with lastTag := tagOf q, lastReason := reason } }
  else
    let (w, d) := rqPush rq { entry := 1024, last := true, msi := msiOf q,
                              words := packet d tq q 0 2 reason d.srn.index true false 0 [0, 0, 0] } d
    if w then rqMsi rq q d else d

/-! ### Fan-out (R312) -/

/-- The lowest free admission entry. -/
def freeEntry (d : Dev) : Nat := ((List.range 1024).find? fun e => (taskGet d e).isNone).getD 0

/-- Sends one sub-task and enters it in the task. -/
def subSend (entry owner : Nat) (qw : List Nat) (entries : List (Nat × Nat)) (d : Dev) : Dev :=
  let tag := entry + tget d.ope.cnt 7 % 64 * 1024
  let payload := qw ++ entries.flatMap fun x => [x.1, x.2]
  let d := cellTo 0x08 owner tag 0 0 payload { d with ope.cnt := bump d.ope.cnt 7 }
  taskMod entry (fun t => { t with subs := t.subs ++ [{ owner, tag, payload, limit := d.srn.attempts }] }) d

/-- The sub-descriptor of an owner's share (R312). -/
def subDesc (d : Dev) (q : List Nat) (deadline lo n : Nat) : List Nat :=
  let q := (q.set 1 (deadline - d.time)).set 2 lo
  q.set 3 (if byteOp q then n else n / recOf q)

/-- The sub-tasks of an admitted fan-out task: one per owner, or batches of eight GATHER entries. -/
def fanOut (entry : Nat) (q : List Nat) (deadline : Nat) (remote : List (Nat × Nat)) (d : Dev) : Dev :=
  if !fanOf q then d
  else if opcodeOf q = 3 then
    (peers d).foldl (fun d o =>
      let xs := remote.filter fun x => addrIndex x.1 = o
      (List.range ((xs.length + 7) / 8)).foldl (fun d b =>
        let part := (xs.drop (8 * b)).take 8
        subSend entry o ((q.set 1 (deadline - d.time)).set 3 part.length) part d) d) d
  else
    ((srcOwners q).filter (· ≠ d.srn.index)).foldl (fun d o =>
      let lo := max (srcOf q) (o * 2 ^ 44)
      let hi := min (srcOf q + srcBytes q) ((o + 1) * 2 ^ 44)
      let s0 := subDesc d q deadline lo (hi - lo)
      let s := if opcodeOf q = 8 then s0 else s0.set 15 (if byteOp q then lo - srcOf q else (lo - srcOf q) / recOf q)
      let s := if opcodeOf q = 6 then s.set 13 (q.getD 13 0 + (lo - srcOf q)) else s
      subSend entry o s [] d) d

/-! ### Admission (R301, R302) -/

/-- Chunks of a local share (R308). -/
def chunkCount (q : List Nat) (lo size : Nat) : Nat :=
  if opcodeOf q = 3 then (countOf q + 255) / 256
  else if size = 0 then 0
  else if opcodeOf q = 8 then 1
  else (lo + size - 1) / 2 ^ 20 - lo / 2 ^ 20 + 1

/-- Ranges that engines may not read now (R310). -/
def closedToEngines (d : Dev) : List Nat :=
  (d.sec.ranges.filter fun x => x.2.st ≠ .closed && !x.2.engineRead).map (·.1)

/-- The entries of a GATHER that run here, and those that go to peers; an entry no sub-task can take stays and faults (R310). -/
def gatherSplit (d : Dev) (q : List Nat) : List (Nat × Nat) × List (Nat × Nat) :=
  if opcodeOf q ≠ 3 then ([], [])
  else ((List.range (countOf q)).map fun i => (listEntry d q i, i)).partition fun x =>
    !(fanOf q && decide (x.1 < 2 ^ 48) && addrIndex x.1 ≠ d.srn.index && (peers d).contains (addrIndex x.1))

/-- Enters a task. -/
def taskAdmit (p : OpeSet) (tq : Nat) (q : List Nat) (sub : Option (Nat × Nat)) (g : List (Nat × Nat)) (deadline : Nat) (d : Dev) : Nat × Dev :=
  let e := freeEntry d
  let (lo, size) := localShare d q
  let t : Task := { entry := e, tq, qw := q, sub, gather := g, deadline, lo, size, chunks := chunkCount q lo size,
                    bytesLeft := bLocal d q g, refused := closedToEngines d, credits := p.cells }
  (e, { d with ope.tasks := d.ope.tasks ++ [t], ope.cnt := bump d.ope.cnt 0 })

/-! ### The end of a share (R305, R307, R313–R316) -/

/-- CRC-32C of two strings in a row from those of each (R305). -/
def crcJoin (c1 c2 n : Nat) : Nat :=
  iter (fun c => iter (fun c => if c % 2 = 1 then c / 2 ^^^ 0x82F63B78 else c / 2) 8 c) n c1 ^^^ c2

/-- The address span of chunk i of a task. -/
def chunkSpan (t : Task) (i : Nat) : Nat × Nat :=
  let a := (t.lo / 2 ^ 20 + i) * 2 ^ 20
  let lo := max t.lo a
  let hi := min (t.lo + t.size) (a + 2 ^ 20)
  (lo, hi - lo)

/-- HMODE 0: the CRC of the task's own share, in address order. -/
def ownCrc (t : Task) : Nat :=
  (List.range t.chunks).foldl (fun c i => crcJoin c (tget t.crcs i) (chunkSpan t i).2) 0

/-- HMODE 0: the whole source's CRC from the shares by owner. -/
def wholeCrc (me : Nat) (t : Task) : Nat :=
  let parts := sortBy (fun x => x.1) ((me, ownCrc t, t.size) :: t.subs.map fun s => (s.owner, s.crc, s.bytes))
  parts.foldl (fun c x => crcJoin c x.2.1 x.2.2) 0

/-- The data words of a group (R307). -/
def grpWords (g : Nat × Grp) : List Nat := [g.1 % 4096 + b2n g.2.ovf * 4096, g.2.n, g.2.sum, g.2.mn, g.2.mx]

/-- Cuts items into packets of at most cap data words: whole items, an item that is too long by itself cut (R320). -/
def packItems (cap : Nat) (items : List (Nat × List Nat)) : List (Nat × List Nat) :=
  let flush (a : List (Nat × List Nat)) (o : Nat) (w : List Nat) := if w.isEmpty then a else a ++ [(o, w)]
  let r := items.foldl (fun (a : List (Nat × List Nat) × Nat × List Nat) (x : Nat × List Nat) =>
    if a.2.2.length + x.2.length ≤ cap then (a.1, (if a.2.2.isEmpty then x.1 else a.2.1), a.2.2 ++ x.2)
    else
      let done := flush a.1 a.2.1 a.2.2
      if x.2.length ≤ cap then (done, x.1, x.2)
      else (done ++ (List.range ((x.2.length + cap - 1) / cap)).map (fun i => (x.1, (x.2.drop (cap * i)).take cap)), 0, []))
    ([], 0, [])
  flush r.1 r.2.1 r.2.2

/-- Largest packet of a task in words (R303, R324). -/
def pktMax (d : Dev) (q : List Nat) : Nat := if pktOf q = 0 then max 8 (tget d.ope.rq (rqOf q)).pktDef else pktOf q

/-- Sends the result cells of a sub-task that its credits allow (R313). Answers how many went. -/
def cellsFlush (entry : Nat) (d : Dev) : Nat × Dev :=
  match taskGet d entry with
  | none => (0, d)
  | some t => match t.sub with
    | none => (0, d)
    | some (src, tag) =>
      let n := min t.credits t.outq.length
      let d := (t.outq.take n).foldl (fun d c => cellTo 0x09 src tag 0 (c.length - 2) c d) d
      (n, taskMod entry (fun t => { t with outq := t.outq.drop n, credits := t.credits - n, cellsSent := t.cellsSent + n }) d)

/-- Output of a task: packets in its queue, or result cells of at most thirty words (R308, R313). -/
def taskOut (entry : Nat) (items : List (Nat × List Nat)) (d : Dev) : Dev :=
  match taskGet d entry with
  | none => d
  | some t =>
    if t.sub.isSome then
      let ps := packItems 30 items
      let cells := ps.zipIdx.map fun (x, i) =>
        (packet d t.tq t.qw (t.pseq + i) 0 0 d.srn.index false false x.1 x.2).drop 1
      (cellsFlush entry (taskMod entry (fun t => { t with outq := t.outq ++ cells, pseq := t.pseq + ps.length }) d)).2
    else
      let ps := packItems (pktMax d t.qw - 3) items
      let d := ps.zipIdx.foldl (fun d (x : (Nat × List Nat) × Nat) =>
        (rqPush (rqOf t.qw) { entry, last := false,
                              words := packet d t.tq t.qw (t.pseq + x.2) 0 0 d.srn.index false false x.1.1 x.1.2 } d).2) d
      taskMod entry (fun t => { t with pseq := t.pseq + ps.length }) d

/-- The task ends OK when its share and every sub-task have ended; the LAST packet must be written before the deadline
(R314, R315). A sub-task ends once its cells are out. -/
def taskCheck (entry : Nat) (d : Dev) : Dev :=
  match taskGet d entry with
  | none => d
  | some t =>
    if t.done < t.chunks ∨ t.lastSent ∨ t.subs.any fun s => !s.ended then d
    else if d.time ≥ t.deadline then taskStop entry 1 0 d.srn.index 0 d
    else
      let agg := opcodeOf t.qw = 4 && !t.groups.isEmpty
      let d := if agg then
          taskOut entry (t.groups.map fun g => (0, grpWords g)) (taskMod entry (fun t => { t with groups := [] }) d)
        else d
      match taskGet d entry with
      | none => d
      | some t =>
        if t.sub.isSome then
          if !t.outq.isEmpty then d
          else
            let t := if opcodeOf t.qw = 7 ∧ hmodeOf t.qw = 0 then { t with result := ownCrc t } else t
            taskEndCell t 0 0 0 (taskDrop entry { d with ope.cnt := bump d.ope.cnt 2 })
        else
          let word := if opcodeOf t.qw = 7 ∧ hmodeOf t.qw = 0 then wholeCrc d.srn.index t else t.result
          let p : QPkt := { entry, last := true, msi := msiOf t.qw,
                            words := packet d t.tq t.qw t.pseq 0 0 d.srn.index true false 0 (lastWords t 0 word) }
          let (w, d) := rqPush (rqOf t.qw) p d
          if w then rqMsi (rqOf t.qw) t.qw (taskDrop entry { d with ope.cnt := bump d.ope.cnt 2 })
          else taskMod entry (fun t => { t with lastSent := true }) d

/-- The next queue with a rung descriptor, round-robin. -/
def nextTq (d : Dev) : Option Nat :=
  ((List.range (queues d)).map fun i => (d.ope.rr + i) % queues d).find? fun q =>
    (tget d.ope.tq q).head ≠ (tget d.ope.tq q).tail

/-- TASK_DECIDE (R301): the descriptor is read once, HEAD advances, and it is admitted or refused. -/
def taskDecide (d : Dev) : Dev :=
  match nextTq d with
  | none => d
  | some tq =>
    let h := (tget d.ope.tq tq).head
    let q := (List.range 16).map fun w => tget d.ope.slots ((tq * 16 + h % 16) * 16 + w)
    let d := { d with
      ope.tq := tmod d.ope.tq tq fun x => { x with head := (h + 1) % 32 }
      ope.rr := (tq + 1) % queues d }
    let p := tget (tget d.ope.tq tq).sets (h % 16)
    let (g, remote) := gatherSplit d q
    match admitReason p d tq q g (q.getD 1 0) false with
    | some r => taskRefuse tq q r d
    | none =>
      let (e, d) := taskAdmit p tq q none g (q.getD 1 0) d
      taskCheck e (fanOut e q (q.getD 1 0) remote d)

/-- Meaning of TASK_DECIDE (R301, R312). -/
def execTaskDecide (s : State) : Ans := run (fun d => if d.isM || d.pwr.dumping || d.pwr.stopping || !blockOn 8 d then d else taskDecide d) s

/-- OPE_TQ_DB (R300): the new TAIL covers 1 to 16 entries and does not move backward, or the write is ignored. The entries rung
take the settings of now (R36, R324). -/
def doorbell (q tail : Nat) (d : Dev) : Dev :=
  if queues d ≤ q then d else
  let x := tget d.ope.tq q
  let tail := tail % 32
  let n := (tail + 32 - x.head) % 32
  if n ≤ 16 ∧ (x.tail + 32 - x.head) % 32 ≤ n then 
    { d with ope.tq := tmod d.ope.tq q fun x => { x with
        tail
        sets := (List.range ((tail + 32 - x.tail) % 32)).foldl (fun s i => tset s ((x.tail + i) % 16) d.ope.set) x.sets } }
  else post 0x8007 1 q tail x.head x.tail { d with ope.cnt := bump d.ope.cnt 14 }

/-- Meaning of OPE_TQ_DB_TAIL (R300). -/
def execOpeTqDbTail (q tail : Nat) (s : State) : Ans := run (gate 8 (doorbell q tail)) s

/-! ### Chunks (R308–R310) -/

/-- The bytes of a ring span, from the lines a chunk has read. -/
def ringBytes (g : Tab Line) (a n : Nat) : List Byte :=
  (((linesSpan a n).flatMap fun k => lineBytes (tget g k)).drop (a % 64)).take n

/-- A line as an engine reads it (R310, R87, R221, R91): the status it ends the task with, if any, and its bytes. The time from
request to data, which the recorder's class 4 counts (R396), is free (log entry 89). -/
def engLine (t : Task) (ts : Trouble) (k : Nat) (d : Dev) : Option Nat × Line × Dev :=
  let f := k / 64 % 2 ^ 32
  if k / 2 ^ 38 ≠ d.srn.index then (some 3, 0, d)
  else if d.map.limit ≤ f then (some 3, 0, beyondLimit (k * 64) false d.srn.index d)
  else if (rangeOf d f).any fun x => t.refused.contains x.1 then (some 4, 0, d)
  else
    let (x, d) := backRead 4 f (k % 64) ts d
    let (v, d) := draw d
    let d := feedBin 4 v d
    (if x.2 then some 3 else none, x.1, d)

/-- A chunk's lines in order, up to the first that cannot be read: that line, its place and the status; what was read. -/
def engLines (t : Task) (ts : Trouble) : List Nat → Nat → Tab Line → Dev → Option (Nat × Nat × Nat) × Tab Line × Dev
  | [], _, g, d => (none, g, d)
  | k :: ks, n, g, d => match engLine t ts k d with
    | (some st, _, d) => (some (k, n, st), g, d)
    | (none, x, d) => engLines t ts ks (n + 1) (tset g k x) d

/-- Entries of chunk i of a GATHER. -/
def gatherPart (t : Task) (i : Nat) : List (Nat × Nat) :=
  if t.sub.isSome then t.gather else t.gather.filter fun x => x.2 / 256 = i

/-- The lines chunk i reads, in order. -/
def chunkLines (t : Task) (i : Nat) : List Nat :=
  if opcodeOf t.qw = 3 then (gatherPart t i).flatMap fun x => linesSpan x.1 (recOf t.qw)
  else if opcodeOf t.qw = 8 then linesSpan t.lo t.size
  else linesSpan (chunkSpan t i).1 (chunkSpan t i).2

/-- The host port whose HDM-DB window maps a line, if any (R309). -/
def snpPort (d : Dev) (k : Nat) : Option Nat :=
  (d.hst.wins.find? fun x => x.2 = .committed && x.1.db && decide (x.1.base ≤ k / 2 ^ 22) && decide (k / 2 ^ 22 < x.1.base + x.1.size)).map
    (·.1.port)

/-- One query per frond of a chunk that lies in an HDM-DB window (R309). -/
def snpStart (entry : Nat) (ks : List Nat) (d : Dev) : Dev :=
  ((ks.map (· / 64)).dedup).foldl (fun d rf =>
    match snpPort d (rf * 64) with
    | none => d
    | some port =>
      let d := { d with ope.asking := d.ope.asking ++ [(entry, rf % 2 ^ 32)], ope.cnt := bump d.ope.cnt 12,
                        ope.askTries := tset d.ope.askTries entry 1 }
      if port = d.srn.index then snpAsk port entry rf d
      else cellTo 0x0B port entry (rf % 2 ^ 32 * 64) 0 [] d) d

/-- CHUNK_START: a free engine takes the next chunk of the entry with the earliest deadline (R308). -/
def chunkStart (e : Nat) (d : Dev) : Dev :=
  if d.pwr.stopping ∨ d.engines ≤ e ∨ (tget d.ope.eng e).st ≠ .enabled ∨ (tget d.ope.eng e).chunk.isSome then d
  else
    match (sortBy (·.deadline) (d.ope.tasks.filter fun t => t.next < t.chunks)).head? with
    | none => d
    | some t =>
      let d := taskMod t.entry (fun t => { t with next := t.next + 1 })
        { d with ope.eng := tmod d.ope.eng e fun x => { x with chunk := some (t.entry, t.next) } }
      snpStart t.entry ((chunkLines t t.next).filter fun k => k / 2 ^ 38 = d.srn.index) d

/-- Meaning of CHUNK_START (R308, R309). -/
def execChunkStart (e : Nat) (s : State) : Ans := run (chunkStart e) s

/-- What a chunk yields: records or bytes examined, its part of the result word, output items by ordinal, groups, CRC,
bytes for scratch. -/
structure ChunkOut where
  examined : Nat := 0
  result : Nat := 0
  items : List (Nat × List Nat) := []
  groups : Tab Grp := []
  crc : Nat := 0
  copy : Option (Nat × List Byte) := none
  deriving DecidableEq, Repr

/-- h1 and h2 of R306. -/
def bloomHash (key : Nat) : Nat × Nat :=
  let k := toLe 8 key
  (crc32c k, crc32c (k ++ [0xA5]) ||| 1)

/-- A key probes positive (R306). -/
def bloomHit (d : Dev) (q : List Nat) (key : Nat) : Bool :=
  let q13 := q.getD 13 0
  let (h1, h2) := bloomHash key
  (List.range (bits q13 23 21 + 1)).all fun i =>
    let b := (h1 + i * h2) % 2 ^ bits q13 20 16
    (tget d.ope.scratch (q.getD 14 0 + b / 8)).getLsbD (b % 8)

/-- Adds a value to a group (R307): sum modulo 2^64, extremes and overflow at the column's signedness. -/
def Grp.add (g : Grp) (c : Col) (v : Nat) : Grp :=
  let x := c.ext v
  let s (a : Nat) : Int := if c.signed && decide (2 ^ 63 ≤ a) then (a : Int) - (2 ^ 64 : Nat) else a
  let t := s g.sum + s x
  let over_ := if c.signed then decide (t < -(2 ^ 63 : Nat)) || decide ((2 ^ 63 : Nat) ≤ t) else decide (2 ^ 64 ≤ g.sum + x)
  { n := g.n + 1, sum := (g.sum + x) % 2 ^ 64,
    mn := if g.n = 0 ∨ s x < s g.mn then x else g.mn,
    mx := if g.n = 0 ∨ s g.mx < s x then x else g.mx,
    ovf := g.ovf || over_ }

/-- Merges a partial group into the master's. -/
def Grp.merge (signed : Bool) (a b : Grp) : Grp :=
  let s (v : Nat) : Int := if signed && decide (2 ^ 63 ≤ v) then (v : Int) - (2 ^ 64 : Nat) else v
  let t := s a.sum + s b.sum
  let over_ := if signed then decide (t < -(2 ^ 63 : Nat)) || decide ((2 ^ 63 : Nat) ≤ t) else decide (2 ^ 64 ≤ a.sum + b.sum)
  if a.n = 0 then b else if b.n = 0 then a
  else { n := a.n + b.n, sum := (a.sum + b.sum) % 2 ^ 64, mn := if s b.mn < s a.mn then b.mn else a.mn,
         mx := if s a.mx < s b.mx then b.mx else a.mx, ovf := a.ovf || b.ovf || over_ }

/-- Projection words (R305). -/
def projWords (q : List Nat) (rb : List Byte) : List Nat :=
  (List.range 4).filterMap fun i =>
    let c := colOf (bits (q.getD 13 0) (16 * i + 15) (16 * i))
    if c.present then some (c.ext (c.get rb)) else none

/-- The words of one record's output, by opcode; none when it yields nothing (R305). -/
def recordItem (q : List Nat) (ord : Nat) (rb : List Byte) : List Nat := match opcodeOf q with
  | 1 => match outOf q with
    | 0 => []
    | 1 => [ord]
    | _ => ord :: projWords q rb
  | 3 => ord :: (List.range (recOf q / 8)).map fun i => le rb (8 * i) 8
  | 5 => if outOf q = 0 then [] else [ord]
  | _ => []

/-- One record's contribution (R305–R307). -/
def recordStep (d : Dev) (q : List Nat) (o : ChunkOut) (ord : Nat) (rb : List Byte) : ChunkOut :=
  let q13 := q.getD 13 0
  let o := { o with examined := o.examined + 1 }
  let hit (o : ChunkOut) : ChunkOut :=
    let w := recordItem q ord rb
    { o with result := o.result + 1, items := if w.isEmpty then o.items else o.items ++ [(ord, w)] }
  match opcodeOf q with
  | 7 =>
    let w := if hmodeOf q = 1 then crc32c rb
      else let h := bloomHash ((colOf (bits q13 31 16)).get rb); h.2 * 2 ^ 32 + h.1
    { o with items := o.items ++ [(ord, [w])] }
  | 4 =>
    if !passes q rb then o
    else
      let kc := colOf (bits q13 15 0)
      let vc := colOf (bits q13 31 16)
      let n := bits q13 44 32
      let g := if n = 1 then 0 else (kc.ext (kc.get rb) + 2 ^ 64 - q.getD 14 0 % 2 ^ 64) % 2 ^ 64
      if g < n then { o with groups := tmod o.groups g fun x => x.add vc (vc.get rb) }
      else { o with result := o.result + 1 }
  | 5 =>
    let kc := colOf (bits q13 15 0)
    if passes q rb && bloomHit d q (kc.get rb) then hit o else o
  | _ => if passes q rb then hit o else o

/-- Work of chunk i on the lines it read. -/
def chunkWork (d : Dev) (g : Tab Line) (t : Task) (i : Nat) : ChunkOut :=
  let q := t.qw
  let base := if t.sub.isSome then t.q 15 else 0
  if opcodeOf q = 3 then
    (gatherPart t i).foldl (fun o x => recordStep d q o x.2 (ringBytes g x.1 (recOf q))) {}
  else
    let (lo, n) := chunkSpan t i
    match byteOp q, opcodeOf q with
    | true, 6 => { examined := n, result := n, copy := some (t.q 13 + (lo - srcOf q), ringBytes g lo n) }
    | true, _ => { examined := n, crc := crc32c (ringBytes g lo n) }
    | false, _ =>
      (List.range (n / recOf q)).foldl (fun o k =>
        let a := lo + k * recOf q
        recordStep d q o (base + (a - srcOf q) / recOf q) (ringBytes g a (recOf q))) {}

/-- The local fronds of a chunk's lines. -/
def chunkFronds (d : Dev) (ks : List Nat) : List Nat :=
  ((ks.filter fun k => decide (k / 2 ^ 38 = d.srn.index) && decide (k / 64 % 2 ^ 32 < d.map.limit)).map fun k => k / 64 % 2 ^ 32).dedup

/-- The work of a chunk whose lines were all read (R305–R308). -/
def chunkDone (e i : Nat) (t : Task) (ks : List Nat) (g : Tab Line) (d : Dev) : Dev :=
  let d := { d with
    ope.eng := tmod d.ope.eng e fun x => { x with chunk := none, chunks := x.chunks + 1 }
    ope.cnt := bump (bump d.ope.cnt 10) 11 ks.length }
  if opcodeOf t.qw = 8 then
    if 8 ≤ d.cph.coresOff.length then taskStop t.entry 3 0 d.srn.index 0 (cphCount (.engine t.entry) 6 d) else
    cphEnq (taskReq t.entry t.qw (ringBytes g t.lo t.size))
      (taskMod t.entry (fun t => { t with examined := t.size, bytesLeft := 0 }) d)
  else
    let o := chunkWork d g t i
    let vs := (colOf (bits (t.q 13) 31 16)).signed
    let d := match o.copy with
      | some (off, b) => scratchWrite off b d
      | none => d
    let left := if opcodeOf t.qw = 3 then 64 * ks.length else (chunkSpan t i).2
    let d := taskMod t.entry (fun t => { t with
      done := t.done + 1
      examined := t.examined + o.examined
      result := t.result + o.result
      bytesLeft := t.bytesLeft - left
      crcs := tset t.crcs i o.crc
      groups := o.groups.foldl (fun g x => tmod g x.1 fun y => Grp.merge vs y x.2) t.groups }) d
    taskCheck t.entry (taskOut t.entry o.items d)

/-- The writer waits with 512 words of the task's output buffered, and stalls (R319). -/
def stalled (t : Task) (d : Dev) : Bool :=
  t.sub.isNone && decide (512 ≤ (((tget d.ope.rq (rqOf t.qw)).waiting.filter fun p => p.entry = t.entry).map (·.words.length)).sum)

/-- CHUNK_END of an engine's chunk (R308–R310): waits for room for its output, for its snoop answers, for map lines under an error sequence and, for
CIPHER, for a free descriptor; the first line that cannot be read, or a scratch byte that fails its check, ends the task. -/
def chunkEnd (e : Nat) (ts : Trouble) (scr : Option Nat) (d : Dev) : Dev :=
  match (tget d.ope.eng e).chunk with
  | none => d
  | some (entry, i) =>
    match taskGet d entry with
    | none => d
    | some t =>
      let ks := chunkLines t i
      let engines := (d.cph.queue.filter fun r => r.origin.code = 2).length
      if stalled t d || (d.ope.asking.any fun x => x.1 = entry && ks.any fun k => k / 64 % 2 ^ 32 = x.2) then d
      else if opcodeOf t.qw = 8 ∧ 239 ≤ engines then d
      else
        let (w, d) := probesWait (chunkFronds d ks) d
        if w then d
        else match engLines t ts ks 0 [] d with
        | (some (k, n, st), _, d) =>
          taskStop entry st 0 d.srn.index (if opcodeOf t.qw = 3 then k * 64 else max (k * 64) t.lo)
            { d with ope.cnt := bump d.ope.cnt 11 n }
        | (none, g, d) => match scr with
          | some x => taskStop entry 3 0 d.srn.index (x % 2 ^ 63 + 2 ^ 63) d
          | none => chunkDone e i t ks g d

/-- Meaning of CHUNK_END (R305–R310). -/
def execChunkEnd (e : Nat) (ts : Trouble) (scr : Option Nat) (s : State) : Ans := run (chunkEnd e ts scr) s

/-- Meaning of DEADLINE_EXPIRY (R315): the deadline arrives first. -/
def execDeadlineExpiry (entry : Nat) (s : State) : Ans :=
  run (fun d => match taskGet d entry with
    | none => d
    | some t => taskStop entry 1 0 d.srn.index 0 { d with time := max d.time t.deadline }) s

/-- Meaning of ENGINE_FAULTED (R317). -/
def execEngineFaulted (e : Nat) (s : State) : Ans :=
  run (fun d => if d.engines ≤ e then d else
    let ch := (tget d.ope.eng e).chunk
    let d := post 0x8008 3 e ((ch.map (·.1)).getD 0) 0 0
      { d with ope.eng := tmod d.ope.eng e fun x => { x with st := .faulted, chunk := none } }
    match ch with
    | some (entry, _) => taskStop entry 5 4 d.srn.index 0 d
    | none => d) s

/-! ### Queues: room, reading, enabling (R319–R322) -/

/-- Waiting packets enter while they fit; a LAST packet that closes before its deadline ends its task OK (R319, R315). -/
def rqFlush (r : Nat) (d : Dev) : Dev :=
  iter (fun d =>
    let x := tget d.ope.rq r
    match x.waiting with
    | [] => d
    | p :: rest =>
      if rqCap x < x.words.length + p.words.length then d
      else
        let late := match taskGet d p.entry with
          | some t => p.last && decide (t.deadline ≤ d.time)
          | none => false
        if late then taskStop p.entry 1 0 d.srn.index 0 d
        else
          let d := rqMod1 r (fun x => { x with words := x.words ++ p.words, waiting := rest }) d
          let d := if p.msi then emit (.msix x.vec) d else d
          if p.last && (taskGet d p.entry).isSome then taskDrop p.entry { d with ope.cnt := bump d.ope.cnt 2 } else d) (tget d.ope.rq r).waiting.length d

/-- Meaning of RESULT_QUEUE_STALL_END (R319). -/
def execResultQueueStallEnd (r : Nat) (s : State) : Ans := run (rqFlush r) s

/-- A write of RD (R321): not backward, not past WR; the words passed are consumed; `ce` words were corrected as they were read,
and the window's uncorrectable words are those named (R318). -/
def rqRead (r rd ce : Nat) (bad : List Nat) (d : Dev) : Dev :=
  if queues d ≤ r then d else
  let x := tget d.ope.rq r
  let n := (rd % 2 ^ 24 + rqMod x - x.rd % rqMod x) % rqMod x
  if rqMod x ≤ rd % 2 ^ 24 ∨ x.words.length < n then d
  else
    let left := x.words.length - n
    let bs := (bad.filter fun k => decide (k < 16) && decide (k < left)).dedup
    let d := rqMod1 r (fun x => { x with
      rd := rd % 2 ^ 24
      words := x.words.drop n
      ce := x.ce + ce
      ue := x.ue + bs.length
      ueMask := bs.foldl (fun m k => m ||| 2 ^ k) 0 }) { d with ope.cnt := bump d.ope.cnt 15 ce }
    bs.foldl (fun d k => post 0x8006 2 r ((rd + k) % rqMod x) (b2n (x.spill && decide (32 < left))) 0 d) d

/-- Meaning of OPE_RQ_PTR_RD (R318, R321). -/
def execOpeRqPtrRd (r rd ce : Nat) (bad : List Nat) (s : State) : Ans := run (gate 8 (rqRead r rd ce bad)) s

/-- The state after a write of EN (R322); `idle`: nothing is left to drain. -/
def enWrite (en idle : Bool) : UnitSt → UnitSt
  | .enabled => if en then .enabled else if idle then .disabled else .draining
  | .pending => if en then .pending else .draining
  | .draining => if en then .pending else .draining
  | .disabled => if en then .enabled else .disabled
  | .faulted => .faulted

/-- No descriptor rung, no task admitted. -/
def tqIdle (d : Dev) (q : Nat) : Bool :=
  (tget d.ope.tq q).head = (tget d.ope.tq q).tail && !(d.ope.tasks.any fun t => t.sub.isNone && t.tq = q)

/-- No admitted task names the queue. -/
def rqIdle (d : Dev) (r : Nat) : Bool := !(d.ope.tasks.any fun t => t.sub.isNone && rqOf t.qw = r)

/-- OPE_ENG_EN. -/
def engEnable (e : Nat) (en : Bool) (d : Dev) : Dev :=
  if d.engines ≤ e then d
  else { d with ope.eng := tmod d.ope.eng e fun x => { x with en, st := enWrite en x.chunk.isNone x.st } }

/-- Meaning of OPE_ENG_EN (R322). -/
def execOpeEngEn (e : Nat) (en : Bool) (s : State) : Ans := run (gate 8 (engEnable e en)) s

/-- OPE_TQ_CTL_EN. -/
def tqEnable (q : Nat) (en : Bool) (d : Dev) : Dev :=
  if queues d ≤ q then d
  else { d with ope.tq := tmod d.ope.tq q fun x => { x with st := enWrite en (tqIdle d q) x.st } }

/-- Meaning of OPE_TQ_CTL_EN (R322). -/
def execOpeTqCtlEn (q : Nat) (en : Bool) (s : State) : Ans := run (gate 8 (tqEnable q en)) s

/-- OPE_RQ_CFG_EN. -/
def rqEnable (r : Nat) (en : Bool) (d : Dev) : Dev :=
  if queues d ≤ r then d else rqMod1 r (fun x => { x with st := enWrite en (rqIdle d r) x.st }) d

/-- Meaning of OPE_RQ_CFG_EN (R322). -/
def execOpeRqCfgEn (r : Nat) (en : Bool) (s : State) : Ans := run (gate 8 (rqEnable r en)) s

/-- A drain ends: Disabled, or the latched enable (R322). -/
def drained : UnitSt → UnitSt
  | .draining => .disabled
  | .pending => .enabled
  | x => x

/-- Meaning of UNIT_DRAIN_END (R322). -/
def execUnitDrainEnd (u : OpeUnit) (s : State) : Ans :=
  run (fun d => match u with
    | .engine e => if (tget d.ope.eng e).chunk.isSome then d
      else { d with ope.eng := tmod d.ope.eng e fun x => { x with st := drained x.st } }
    | .taskQueue q => if !tqIdle d q then d
      else { d with ope.tq := tmod d.ope.tq q fun x => { x with st := drained x.st } }
    | .resultQueue r => if !rqIdle d r then d else rqMod1 r (fun x => { x with st := drained x.st }) d) s

/-- Every admitted task of a queue ends ABORTED, cause HOST (R317). -/
def tqAbort (q : Nat) (d : Dev) : Dev :=
  if queues d ≤ q then d
  else (d.ope.tasks.filter fun t => t.sub.isNone && t.tq = q).foldl (fun d t => taskStop t.entry 5 1 d.srn.index 0 d) d

/-- Meaning of OPE_TQ_CTL_ABORT (R317). -/
def execOpeTqCtlAbort (q : Nat) (s : State) : Ans := run (gate 8 (tqAbort q)) s

/-! ### Sub-tasks (R312–R314) -/

/-- The task here that runs a peer's sub-task. -/
def subTask (d : Dev) (src tag : Nat) : Option Task := d.ope.tasks.find? fun t => t.sub = some (src, tag)

/-- An empty RESULT cell: the acknowledgement of a TASK cell (R313). -/
def subAck (c : Cell) (d : Dev) : Dev := cellTo 0x09 c.src c.tag 0 0 [] d

/-- TASK at its owner (R312, R313): acknowledged; admitted once, or refused by TASK_END with BUSY. -/
def taskCell (c : Cell) (qw : List Nat) (entries : List (Nat × Nat)) (d : Dev) : Dev :=
  let (ok, d) := acceptCell c 0x08 true d
  if !ok then d
  else if d.pwr.dumping ∨ d.pwr.stopping ∨ !isMember d then
    sendCell 0x06 c.src c.tag 0 (ringTo d c.src) (if d.pwr.dumping || d.pwr.stopping then 1 else 2) false [] d
  else if (subTask d c.src c.tag).isSome then subAck c d
  else
    let d := { d with ope.cnt := bump d.ope.cnt 8 }
    let q := (List.range 16).map fun i => qw.getD i 0
    let deadline := d.time + q.getD 1 0 - d.ope.set.margin
    match admitReason d.ope.set d 0 q entries deadline true with
    | some r =>
      let sec := d.time / 100000000 + 1
      let d := postIf (decide (d.ope.refSec ≠ sec)) 0x8001 0 0 r (tagOf q) 1 { d with ope.cnt := bump d.ope.cnt 1, ope.refSec := sec }
      cellTo 0x0A c.src c.tag 0 (2 + r * 16) [0, 0, 0, 0, 0] (subAck c d)
    | none =>
      let (e, d) := taskAdmit d.ope.set 0 q (some (c.src, c.tag)) entries deadline d
      taskCheck e (subAck c d)

/-- Meaning of TASK (R312, R313). -/
def execTask (c : Cell) (qw : List Nat) (entries : List (Nat × Nat)) (s : State) : Ans := run (taskCell c qw entries) s

/-- CREDIT at the owner (R313): the cells it lets go answer it, else an empty RESULT cell does. -/
def creditCell (c : Cell) (n : Nat) (d : Dev) : Dev :=
  let (ok, d) := acceptCell c 0x08 true d
  if !ok then d else
  match subTask d c.src c.tag with
  | none => subAck c d
  | some t =>
    let (k, d) := cellsFlush t.entry (taskMod t.entry (fun t => { t with credits := t.credits + n }) d)
    taskCheck t.entry (if k = 0 then subAck c d else d)

/-- Meaning of CREDIT (R313). -/
def execCredit (c : Cell) (n : Nat) (s : State) : Ans := run (creditCell c n) s

/-- Meaning of ABORT (R313): the owner discards the sub-task's remaining output. -/
def execAbort (c : Cell) (s : State) : Ans :=
  run (fun d => let (ok, d) := acceptCell c 0x08 true d
    if !ok then d else match subTask d c.src c.tag with
      | none => subAck c d
      | some t => subAck c (post 0x8004 1 t.tq 5 (tagOf t.qw) 0 (taskDrop t.entry { d with ope.cnt := bump d.ope.cnt 6 }))) s

/-- The requesting task of a cell tag, with the sub-task. -/
def subOf (d : Dev) (src tag : Nat) : Option (Task × Sub) :=
  d.ope.tasks.findSome? fun t => (t.subs.find? fun s => s.owner = src && s.tag = tag).map fun s => (t, s)

/-- Rewrites a sub-task of a task. -/
def subMod (entry tag : Nat) (f : Sub → Sub) (d : Dev) : Dev :=
  taskMod entry (fun t => { t with subs := updWhere t.subs (·.tag = tag) f }) d

/-- Groups from the words of a result cell (R307). -/
def groupsOf (ws : List Nat) : List (Nat × Grp) :=
  (List.range (ws.length / 5)).map fun i =>
    (ws.getD (5 * i) 0 % 4096, { n := ws.getD (5 * i + 1) 0, sum := ws.getD (5 * i + 2) 0, mn := ws.getD (5 * i + 3) 0,
                                 mx := ws.getD (5 * i + 4) 0, ovf := bit (ws.getD (5 * i) 0) 12 })

/-- RESULT at the requester (R313): a packet with PEER, or groups merged; credits return in steps of eight. -/
def resultCell (c : Cell) (words : List Nat) (d : Dev) : Dev :=
  let (ok, d) := acceptCell c 0x09 true d
  if !ok then d else
  match subOf d c.src c.tag with
  | none => d
  | some (t, sb) =>
    let d := subMod t.entry c.tag (fun s => { s with acked := true }) d
    let data := (words.drop 2).take (min 30 c.status)
    if data.isEmpty ∨ sb.ended then d
    else
      let d := if opcodeOf t.qw = 4 then
          let vs := (colOf (bits (t.q 13) 31 16)).signed
          taskMod t.entry (fun t => { t with groups := (groupsOf data).foldl (fun g x => tmod g x.1 fun y => Grp.merge vs y x.2) t.groups }) d
        else
          let w0 := data.length + 3 + 2 ^ 15
          let w1 := tagOf t.qw + t.tq % 64 * 2 ^ 16 + opcodeOf t.qw * 2 ^ 22 + bits (words.getD 0 0) 47 32 * 2 ^ 32 + c.src % 16 * 2 ^ 56
          (rqPush (rqOf t.qw) { entry := t.entry, last := false, words := w0 :: w1 :: words.getD 1 0 :: data } d).2
      let n := sb.uncred + 1
      if 8 ≤ n then
        cellTo 0x08 c.src c.tag 0 0 [0xF0, n] (subMod t.entry c.tag (fun s => { s with cells := s.cells + 1, uncred := 0, acked := false, attempts := 1, limit := d.srn.attempts, payload := [0xF0, n] }) d)
      else subMod t.entry c.tag (fun s => { s with cells := s.cells + 1, uncred := n }) d

/-- Meaning of RESULT (R313). -/
def execResult (c : Cell) (words : List Nat) (s : State) : Ans := run (resultCell c words) s

/-- A sub-task is lost: its task ends ABORTED, cause SUB_LOST (R314). -/
def subLost (t : Task) (sb : Sub) (cells : Nat) (d : Dev) : Dev :=
  taskStop t.entry 5 3 sb.owner 0 (post 0x8005 2 sb.owner sb.tag cells sb.cells { d with ope.cnt := bump d.ope.cnt 9 })

/-- TASK_END at the requester (R314). -/
def taskEnded (c : Cell) (cells examined word fault bytes : Nat) (tag : List Nat) (d : Dev) : Dev :=
  let (ok, d) := acceptCell c 0x0A true d
  if !ok then d else
  match subOf d c.src c.tag with
  | none => d
  | some (t, sb) =>
    if sb.ended then d else
    let st := c.status % 16
    let d := subMod t.entry c.tag (fun s => { s with ended := true, acked := true, bytes, crc := word }) d
    let d := taskMod t.entry (fun t => { t with
      examined := t.examined + examined
      tagWords := if tag = [] then t.tagWords else tag
      result := if opcodeOf t.qw = 7 ∧ hmodeOf t.qw = 0 then t.result else t.result + word }) d
    if st ≠ 0 then taskStop t.entry st (if st = 2 then 9 else c.status / 16 % 16) c.src fault d
    else if sb.cells < cells then subLost t sb cells d
    else taskCheck t.entry d

/-- Meaning of TASK_END (R313, R314). -/
def execTaskEnd (c : Cell) (cells examined word fault bytes : Nat) (tag : List Nat) (s : State) : Ans :=
  run (taskEnded c cells examined word fault bytes tag) s

/-- The retry timer of a TASK or CREDIT (R277, R314): sent again, or lost when its attempts are used up. -/
def subRetry (tag : Nat) (d : Dev) : Dev :=
  match d.ope.tasks.findSome? fun t => (t.subs.find? fun s => s.tag = tag && !s.acked && !s.ended).map fun s => (t, s) with
  | none => d
  | some (t, sb) =>
    if sb.limit ≤ sb.attempts then subLost t sb 0 d
    else
      let d := cellTo 0x08 sb.owner sb.tag 0 0 sb.payload { d with srn.cnt := bump d.srn.cnt 9 }
      subMod t.entry tag (fun s => { s with attempts := s.attempts + 1 }) d

/-- The retry timer of a task's snoop queries (R277): those unanswered are sent again while attempts are left. -/
def snpRetry (entry : Nat) (d : Dev) : Dev :=
  let tries := tget d.ope.askTries entry
  if d.srn.attempts ≤ tries then d else
  (d.ope.asking.filter (·.1 = entry)).foldl (fun d x =>
    match snpPort d ((d.srn.index * 2 ^ 32 + x.2) * 64) with
    | some port => if port = d.srn.index then d
      else cellTo 0x0B port entry (x.2 * 64) 0 [] { d with srn.cnt := bump d.srn.cnt 9 }
    | none => d) { d with ope.askTries := tset d.ope.askTries entry (tries + 1) }

/-- Meaning of REQUEST_RETRY (R277, R314), by the type of the cell unanswered: a sub-task's TASK or CREDIT, a snoop query, else
a memory request. -/
def execRequestRetry (type tag : Nat) (topo : Bool) (s : State) : Ans :=
  run (fun d => if type = 0x08 then subRetry tag d else if type = 0x0B then snpRetry tag d else remoteRetry tag topo d) s

/-- Meaning of NAK (R277, R291, R314): the attempts end; a memory request is held, a sub-task is lost. -/
def execNak (c : Cell) (s : State) : Ans :=
  run (fun d => let (ok, d) := acceptCell c 0x06 true d
    if !ok then d else
    match (remoteGet d c.tag).filter fun r => r.owner = c.src && lineNo (addrFrond r.addr) (addrLine r.addr) % 2 ^ 38 = c.line with
      | some r => remotePut { r with holding := true, sent := false } d
      | none => match subOf d c.src c.tag with
        | some (t, sb) => if sb.acked || sb.ended then d else subLost t sb 0 d
        | none => d) s

/-! ### Cipher requests of tasks and hosts (R327, R334, R336) -/

/-- The words of a byte string, eight bytes each, the last padded with zeros. -/
def wordsOf (b : List Byte) : List Nat := (List.range ((b.length + 7) / 8)).map fun i => le b (8 * i) 8

/-- A request's ending for a CIPHER task (R334). -/
def cipherTaskEnd (entry : Nat) (r : CReq) (res : CRes) (d : Dev) : Dev :=
  match taskGet d entry with
  | none => d
  | some t =>
    let toScratch := bits (r.q 0) 13 12 = 1
    let d := if toScratch then scratchWrite (r.q 3) res.out d else d
    match res.status with
    | 0 =>
      let d := taskMod entry (fun t => { t with
        done := t.done + 1
        result := res.out.length
        tagWords := if res.tag.isEmpty then [] else [le res.tag 0 8, le res.tag 8 8] }) d
      let ws := wordsOf res.out
      let cap := if t.sub.isSome then 30 else pktMax d t.qw - 3
      let items := if toScratch then [] else
        (List.range ((ws.length + cap - 1) / cap)).map fun i => (8 * cap * i, (ws.drop (cap * i)).take cap)
      taskCheck entry (taskOut entry items d)
    | 4 => taskStop entry 5 1 d.srn.index 0 d
    | 7 => taskStop entry 5 1 d.srn.index 0 d
    | 6 => taskStop entry 3 0 d.srn.index 0 d
    | st => taskStop entry 3 0 d.srn.index (st + 2 ^ 62) d

/-- A request's ending for the host (R334): its completion ends command 0xC213. -/
def cipherHostEnd (tr : Transport) (r : CReq) (res : CRes) (d : Dev) : Dev :=
  let inl := bits (r.q 0) 13 12 = 0
  let ok := res.status = 0
  let d := if inl then d else scratchWrite (r.q 3) res.out d
  let rc := match res.status with
    | 0 | 1 | 2 => rcOk
    | 6 => rcInternal
    | _ => rcInput
  let n := if ok then res.out.length else 0
  let out := toLe 8 (res.status + bits (r.q 0) 47 32 * 65536) ++ toLe 8 n ++ fitTo 16 res.tag
    ++ (if inl && ok then res.out else [])
  match d.mbx.run with
  | some c => if c.job = .cipher then
      cmdEnd tr c.opcode rc (if rc = rcOk then out else []) (msOf (d.time - c.startT)) c.lost d else d
  | none => d

/-- A request leaves the queue with an ending (R331, R334): counted, a failed check recorded first in each 1 s. -/
def cipherFinish (r : CReq) (res : CRes) (d : Dev) : Dev :=
  let d := cphCount r.origin res.status { d with cph.queue := d.cph.queue.erase r }
  let sec := d.time / 100000000 + 1
  let bad := res.status = 1 ∨ res.status = 2
  let d := if bad then
      postIf (decide (d.cph.failSec ≠ sec)) 0x7042 1 r.origin.code res.status r.slot (bits (r.q 0) 47 32) { d with cph.failSec := sec }
    else d
  match r.origin with
  | .firmware => d
  | .host tr => cipherHostEnd tr r res d
  | .engine entry => cipherTaskEnd entry r res d

/-- CIPHER_REQUEST_DONE: the core's request ends (R329–R334). -/
def cipherDone (core : Nat) (d : Dev) : Dev :=
  match d.cph.queue.find? fun r => r.core = some core with
  | none => d
  | some r =>
    let res : CRes := if r.key = [] then { status := 4 }
      else cipherWork r.mode r.dec r.key r.iv r.aad r.msg r.tagF r.du
    cipherFinish r res d

/-- Meaning of CIPHER_REQUEST_DONE (R334). -/
def execCipherRequestDone (core : Nat) (s : State) : Ans := run (cipherDone core) s

/-- Meaning of CIPHER_CORE_DISABLED (R336): its request ends with FAULT; when no core remains, every request does. -/
def execCipherCoreDisabled (core : Nat) (parity : Bool) (s : State) : Ans :=
  run (fun d =>
    if 8 ≤ core ∨ core ∈ d.cph.coresOff then d else
    let d := { d with cph.coresOff := d.cph.coresOff ++ [core] }
    let d := post 0x7045 3 core (b2n parity) (8 - d.cph.coresOff.length) 0 d
    let mine := d.cph.queue.filter fun r => r.core = some core || decide (8 ≤ d.cph.coresOff.length)
    mine.foldl (fun d r => cipherFinish r { status := 6 } d) d) s

/-- CPH_KEY_ZEROIZE (R327): waiting requests on the slot end with KEY, started ones hold the command. -/
def cphZeroize (p : List Byte) (d : Dev) : Res × Dev :=
  let k := byte p 0
  let x := tget d.cph.slots k
  let waiting := d.cph.queue.filter fun r => r.core.isNone && r.slot = k
  let started := d.cph.queue.any fun r => r.core.isSome && r.slot = k
  let d := { d with cph.slots := tset d.cph.slots k {} }
  let d := waiting.foldl (fun d r => cipherFinish r { status := 4 } d) d
  let d := post 0x7041 0 k x.keyid waiting.length 0 d
  let d := if x.persist then
      fwPut (.cphRec k { seq := (tget d.pst.nv.cphKeys k).next } {}) d else d
  if started then (.long (.zeroize k) 0 1, d) else ret rcOk d

/-- Meaning of CPH_KEY_ZEROIZE (R326, R327). -/
def execCphKeyZeroize (tr : Transport) (p : List Byte) (s : State) : Ans :=
  run (command 0xC212 mSDTM false (len 1) (fun p => byte p 0 < 24) cphZeroize tr p) s

end Sys2Proof.Machine
end

