-- ==== Sys2Proof/Machine/Media.lean ====
section
/-! DEFINITION. Machine/Media.lean: program sets, resets and substitution as every owner of media rows uses them, and the reads of
rows that move (R156–R173, R187–R189, R203–R204, R225, R231, R470–R471). -/

namespace Sys2Proof.Machine

/-! ### Key slots (R225, R231) -/

/-- The slot that encrypts a host frond's row (R225). -/
def kslotFor (d : Dev) (f : Nat) : Nat := match rangeOf d f with
  | none => 0
  | some (_, r) => r.cur

/-- The frond becomes read-only and poisoned (R231, R232); a full table is a fatal fault. -/
def freeze (f : Nat) (d : Dev) : Dev :=
  if f ∈ d.sec.frozen then d
  else if 1024 ≤ d.sec.frozen.length then fatal 0x7032 f (d.sec.ver % 2 ^ 32) (d.sec.ver / 2 ^ 32) 0 d
  else
    let d := setFlags f (makeFrondWide f (slotDiscard f d))
    let d := postIf d.sec.frozen.isEmpty 0x7032 3 f (d.sec.ver % 2 ^ 32) (d.sec.ver / 2 ^ 32) 0 d
    fwPut (.frozen (d.sec.frozen ++ [f])) { d with
      sec.frozen := d.sec.frozen ++ [f]
      sec.cnt := bump d.sec.cnt 12 }

/-! ### Substitution (R156, R157, R204) -/

/-- Substitution entries in use in a lane's bank. -/
def bankUsed (d : Dev) (lane : Nat) : Nat :=
  (d.med.pb.filter fun x => x.2.subst.isSome && decide (x.1 / 1344 % 4 = lane % 4)
    && (List.range 20).any fun p => laneDie lane p = x.1 / 1344 / 4).length

/-- A free plane-block, at a position of a lane, of a donor that holds no rows. -/
def donorFor (d : Dev) (lane p : Nat) : Option Nat :=
  let dp := laneDie lane p * 4 + lane % 4
  ((d.med.sb.filter fun x => x.1 / 1344 = lane && x.2.donor && x.2.st = .ready).map fun x => x.1 % 1344).find? fun n =>
    let b := tget d.med.pb (dp * 1344 + n)
    !b.bad && !b.retired && !(d.med.pb.any fun x => x.1 / 1344 = dp && x.2.subst = some n)

/-- Turns the lane's READY sorus-block with the highest number into a donor (R204). -/
def donorConvert (lane : Nat) (d : Dev) : Option Dev :=
  match ((List.range 1344).reverse.map (sbKey lane)).find? (isReady d) with
  | none => none
  | some k =>
    let d := sbMod k (fun b => { b with donor := true, openRec := none }) d
    some (post 0x600A 1 lane (k % 1344) (d.med.sb.filter fun x => x.1 / 1344 = lane && x.2.donor).length 0
      { d with stw.cnt := bump d.stw.cnt 10 })

/-- The sorus-block has no usable plane-block at a position: closed to programs, a donor (R156, last row). It lends nothing
before its rows have left it. -/
def sbLost (key p : Nat) (full : Bool) (d : Dev) : Dev :=
  postIf full 0x5009 3 (key / 1344) (key % 1344) p 0
    (sbMod key (fun b => { b with
      donor := true
      st := if b.valid.isEmpty then .ready else b.st
      resetPos := []
      intent := none
      openRec := none
      buffer := false }) d)

/-- Substitutes the plane-block that serves a position of a sorus-block. Answers whether one was found. -/
def substitute (key p : Nat) (d : Dev) : Bool × Dev :=
  let lane := key / 1344
  let b := key % 1344
  let put (n : Nat) (d : Dev) : Dev :=
    let k := pbKey (laneDie lane p) (lane % 4) b
    post 0x5008 1 (laneDie lane p) (lane % 4) b n
      (blogAdd 2 (laneDie lane p) (lane % 4) b n { d with
        med.pb := tmod d.med.pb k fun x => { x with subst := some n }
        med.cnt := bump d.med.cnt 12 })
  let fresh := (tget d.med.pb (pbKey (laneDie lane p) (lane % 4) b)).subst.isNone
  if fresh && decide (1024 ≤ bankUsed d lane) then (false, sbLost key p true d)
  else match donorFor d lane p with
    | some n => (true, put n d)
    | none => match donorConvert lane d with
      | none => (false, sbLost key p false d)
      | some d => match donorFor d lane p with
        | some n => (true, put n d)
        | none => (false, sbLost key p false d)

/-! ### Waves (R163–R166) -/

/-- Starts operations on positions of a lane when none is pinned and the limits allow (R163, R164), granted in their class. -/
def opsStart (lane nsb : Nat) (ps : List Nat) (reset : Bool) (cls : Nat) (d : Dev) : Option Dev :=
  if ps.any (pinnedAt d lane) || decide (4 < busyCount d lane + ps.length) || decide (d.med.limit < busyNow d + ps.length) then none
  else
    let ops := d.med.ops ++ ps.map fun p => { lane, pos := p, reset, nsb, startT := d.time }
    some (mediaGrant cls ps.length { d with
      med.ops := ops
      med.peak := max d.med.peak ops.length
      med.cnt := bump d.med.cnt (if reset then 2 else 1) ps.length })

/-- The next wave of a lane's set starts, or waits for a pin (R166). -/
def waveStart (lane : Nat) (d : Dev) : Dev :=
  match d.med.sets.find? (·.lane = lane) with
  | none => d
  | some st =>
    if (d.med.ops.any fun o => o.lane = lane) || decide (5 ≤ st.wave) then d
    else
      let ps := (List.range 4).map (4 * st.wave + ·)
      let put (w : Bool) (d : Dev) : Dev := { d with med.sets := updWhere d.med.sets (·.lane = lane) fun s => { s with waited := w } }
      match opsStart lane st.nsb ps false st.cls d with
      | some d => put false { d with ldg.runF := d.ldg.runF + (if st.destage then 640 else 0) }
      | none => if st.waited then d
        else put true { d with med.cnt := if ps.any (pinnedAt d lane) then bump d.med.cnt 14 else d.med.cnt }

/-- Every waiting wave is tried. -/
def waveKick (d : Dev) : Dev := (d.med.sets.map (·.lane)).foldl (fun d l => waveStart l d) d

/-- A sorus-block becomes FULL: its verify passes are due (R159, R169). -/
def sbFull (key : Nat) (d : Dev) : Dev :=
  let d := sbMod key (fun b => { b with st := .full, fullAt := d.time, passLeft := List.range 20 }) d
  let lane := key / 1344
  { d with
    med.lanes := tmod d.med.lanes lane fun l => if l.opn = some (key % 1344) then { l with opn := none } else l
    med.metaOpen := d.med.metaOpen.filter fun x => x.2 ≠ key + 1 }

/-! ### What stands on media -/

/-- The row of which a media slot holds the sector of a position: a verified row, or one of a set whose wave there has passed
program verify (R166, R171). -/
def rowAt (d : Dev) (slot p : Nat) : Option Row :=
  let r := tget d.med.rows slot
  let q := tget d.med.part slot
  if r ≠ default then some r else if q.mask.getLsbD p then some q.row else none

/-- The bytes of the plane page that 32 rows give a position. -/
def pageOf (rows : Nat → Option Row) (slot : Nat → Nat) (p : Nat) : BitVec 81920 :=
  BitVec.ofNat 81920 (le ((List.range 32).flatMap fun k => match rows k with
    | some r => sectorOf r (sectAt (slotRow (slot k)) p)
    | none => List.replicate 320 0) 0 10240)

/-- A plane page of a sorus-block as it stands on media at a position. -/
def pageAt (d : Dev) (key page p : Nat) : BitVec 81920 :=
  pageOf (fun k => rowAt d (sbSlot key page k) p) (sbSlot key page) p

/-- The pages whose programs have passed verify: their sectors stand on media, and enter the open-block parity (R166, R168,
R171). -/
def pagesVerified (st : PSet) (ps : List Nat) (d : Dev) : Dev :=
  let m : BitVec 20 := ps.foldl (fun m p => setBit m p true) 0
  let put (t : Tab Part) (x : SetRow × Nat) : Tab Part :=
    tmod t (sbSlot st.nsb st.page x.2) fun q => { row := x.1.row, mask := q.mask ||| m }
  let row (k : Nat) : Option Row := (st.rows[k]?).map (·.row)
  sbMod st.nsb (fun b => if !b.buffer then b else
      { b with xor := ps.foldl (fun t p => tmod t p fun x => x ^^^ pageOf row (sbSlot st.nsb st.page) p) b.xor })
    { d with med.part := st.rows.zipIdx.foldl put d.med.part }

/-- The failing page of a position is rebuilt from the open-block parity and every other page, and passes the check against
its rows (R169). -/
def pageRebuilt (d : Dev) (key page p : Nat) : Bool :=
  let b := tget d.med.sb key
  b.buffer && decide (((List.range b.page).filter (· ≠ page)).foldl (fun x n => x ^^^ pageAt d key n p) (tget b.xor p)
    = pageAt d key page p)

/-! ### Opening (R160, R168, R189, R470) -/

/-- FULL sorus-blocks of a lane that hold open-block parity and await their pass (R168). -/
def awaiting (d : Dev) (lane : Nat) : Nat :=
  (d.med.sb.filter fun x => x.1 / 1344 = lane && x.2.st = .full && x.2.kind = .host && !x.2.passLeft.isEmpty).length

/-- The host sorus-block of a lane for its next set: the OPEN one, else a READY one that may be opened; the open records of the
next are logged ahead (R160, R189). `floor`: housekeeping or the deficit part, which alone may open at the reserve. -/
def hostOpen (lane : Nat) (floor : Bool) (d : Dev) : Option Nat × Dev :=
  match (tget d.med.lanes lane).opn with
  | some b =>
    let d := if 1008 ≤ (tget d.med.sb (sbKey lane b)).page then (match openPick d lane with
      | some k => openLog k d
      | none => d) else d
    (some (sbKey lane b), d)
  | none =>
    if decide (1 < awaiting d lane) || (!floor && decide (nReady d ≤ d.stw.now.gcReserve)) then (none, d)
    else match openPick d lane with
      | none => (none, d)
      | some k => if blogged d (tget d.med.sb k).openRec then (some k, d) else (none, openLog k d)

/-- The metadata sorus-block of a kind, named when it needs one (R470). The block log's own opens with the set that carries its
open records (log entry 26). -/
def metaOpen (kind : Kind) (lane : Nat) (d : Dev) : Option Nat × Dev :=
  let c := kindCode kind
  match tget d.med.metaOpen c with
  | k + 1 => (if k / 1344 = lane then some k else none, d)
  | 0 =>
    let lanes := (List.range 128).filter fun l => !readOnlyLane d l
    let ks := lanes.filterMap (openPick d)
    match (match ks.find? fun k => (tget d.med.sb k).openRec.isSome && (tget d.med.sb k).kind = kind && kind ≠ .host with
      | some k => some k
      | none => lowestBy (sbCycles d) ks) with
    | none => (none, d)
    | some k =>
      if kind = .blog ∨ blogged d (tget d.med.sb k).openRec then
        let d := if kind = .blog then openLog k d else d
        (if k / 1344 = lane then some k else none, { d with med.metaOpen := tset d.med.metaOpen c (k + 1) })
      else (none, sbMod k (fun b => { b with kind }) (openLog k d))

/-! ### Rows of a set (R166, R187, R471) -/

/-- A host row to be programmed: its frond, lines, poison bits, MOVED, the entry it was planned from and why. -/
structure HRow where
  frond : Nat
  lines : Tab Line
  lp : BitVec 64
  moved : Bool
  cond : Entry
  why : UpdWhy
  deriving DecidableEq, Repr

/-- Starts a program set with its rows in slot order, fillers making up the 32 (R166, R471); fillers are counted. A READY
sorus-block becomes OPEN with its first set (R159). -/
def setStart (lane key : Nat) (kind : Kind) (cls n : Nat) (floorDestage : Bool) (rows : List SetRow) (d : Dev) : Dev :=
  let fill := 32 - rows.length
  let rows := rows ++ List.replicate fill { row := fillerRow }
  let fresh := (tget d.med.sb key).st = .ready
  let d := if fresh then sbOpen key kind d else d
  waveStart lane { d with
    med.sets := d.med.sets ++ [{ lane, nsb := key, page := (tget d.med.sb key).page, kind, cls, n, rows, destage := floorDestage }]
    med.lanes := tmod d.med.lanes lane fun l =>
      { l with st := .programming, opn := if fresh ∧ kind = .host then some (key % 1344) else l.opn }
    csh.cnt := if kind = .host then bump d.csh.cnt 12 fill else d.csh.cnt }

/-- Assembles host rows under their key slots with new VERSIONs and starts the set (R225, R230); rows that would need a VERSION
of the reserve freeze their fronds (R231). -/
def hostSet (lane key cls : Nat) (floorDestage : Bool) (rows : List HRow) (d : Dev) : Dev :=
  let fit := 2 ^ 56 - 2 ^ 32 - d.sec.ver
  let d := (rows.drop fit).foldl (fun d r => freeze r.frond d) d
  let rows := rows.take fit
  if rows.isEmpty then d
  else
    let page := (tget d.med.sb key).page
    let (v, d) := verTake rows.length d
    let mk (r : HRow) (k : Nat) : SetRow :=
      let ks := kslotFor d r.frond
      let slot := sbSlot key page k
      { row := rowSeal { kind := .host, frond := r.frond, version := v + k, kslot := ks, keyid := (tget d.sec.slots ks).keyid,
                         index := d.srn.index, lpoison := r.lp, moved := r.moved, lines := r.lines }
        upd := some { frond := r.frond, op := if r.moved then .moveRow slot (r.lp ≠ 0) else .setRow slot (r.lp ≠ 0),
                      cond := some r.cond, why := r.why } }
    setStart lane key .host cls 0 floorDestage (rows.zipIdx.map fun (r, k) => mk r k) d

/-- Assembles metadata rows under slot 0 and starts the set in class C2; a spent reserve is fatal (R215, R231). -/
def metaSet (lane key : Nat) (kind : Kind) (n : Nat) (rows : List (Nat × Tab Line)) (d : Dev) : Dev :=
  if 2 ^ 56 ≤ d.sec.ver + rows.length then fatal 0x7032 (2 ^ 32 - 1) (d.sec.ver % 2 ^ 32) (d.sec.ver / 2 ^ 32) 0 d
  else
    let (v, d) := verTake rows.length d
    setStart lane key kind 2 n false (rows.zipIdx.map fun ((f, ls), k) =>
      { row := rowSeal { kind, frond := f, version := v + k, keyid := (tget d.sec.slots 0).keyid, lines := ls } }) d

/-- A line of a map image (R67, R77): twelve 40-bit entries, LINE_SEQ, two reserved bytes. -/
def mapImageLine (d : Dev) (m : Nat) : Line := mapBits d m

/-! ### Reads for moves and destages (R110, R140, R187, R229) -/

/-- A line of a frond's row by its entry, read off the response path to the end of its error sequence: the line, and whether
it ends in poison. -/
def oldLine (f l : Nat) (e : Entry) (fx : SeqFx) (d : Dev) : (Line × Bool) × Dev :=
  backMedia { id := d.rp.nextId, org := .back 5, frond := f, line := l, stage := .media, entry := e } fx
    { d with rp.nextId := d.rp.nextId + 1 }

/-- The entry that an update is planned from, once the P updates that its own reads have asked for stand (R73, R108). -/
def planEntry (e : Entry) (asked : Bool) : Entry := if asked then { e with p := true } else e

/-- A frond's row as a move rewrites it (R187 step 2): its lines, read one by one, and the poison bits that the row, the staging
table and these reads give. -/
def moveRow (f : Nat) (ts : Trouble) (why : UpdWhy) (d : Dev) : HRow × Dev :=
  let e := mapGet d f
  let staged := tget d.rp.stage f
  let was := (tget d.med.rows e.slot).lpoison
  let read (a : HRow × Dev) (l : Nat) : HRow × Dev :=
    let ((line, p), d) := oldLine f l e (troubleAt ts f l) a.2
    ({ a.1 with
       lines := tset a.1.lines l line
       lp := if p || staged.getLsbD l then setBit a.1.lp l true else a.1.lp
       cond := planEntry a.1.cond (p && !was.getLsbD l) }, d)
  (List.range 64).foldl read ({ frond := f, lines := [], lp := 0, moved := true, cond := e, why }, d)

/-- Valid rows of a sorus-block in ascending order, as the fronds whose entries name them. -/
def sbFronds (d : Dev) (key : Nat) : List Nat :=
  let b := tget d.med.sb key
  (b.valid.filter (·.2)).filterMap fun x =>
    let slot := sbSlot key (x.1 / 32) (x.1 % 32)
    let f := (tget d.med.rows slot).frond
    if (mapGet d f).v ∧ (mapGet d f).slot = slot then some f else none

/-- The updates of sets in flight and those queued. -/
def updsAhead (d : Dev) : List Upd := d.med.sets.flatMap (fun s => s.rows.filterMap (·.upd)) ++ d.map.updq

/-- Fronds that a set in flight or a queued update already moves. -/
def inFlight (d : Dev) (f : Nat) : Bool := (updsAhead d).any fun u => u.frond = f

/-- A destage of the frond is in flight (R139). -/
def destaging (d : Dev) (f : Nat) : Bool := (updsAhead d).any fun u => decide (u.frond = f) && (match u.why with
  | .destage .. => true
  | _ => false)

/-! ### Resets (R159, R160, R187, R203) -/

/-- Retires the worn or grown-bad plane-blocks of a sorus-block that is to be reset, before its intents are logged, so that
those name the substitutes (R160, R203); a sorus-block that finds none becomes a donor (R156). -/
def retireWorn (key : Nat) (d : Dev) : Dev :=
  let lane := key / 1344
  (List.range 20).foldl (fun d p =>
    let k := serving d.med lane (key % 1344) p
    let x := tget d.med.pb k
    if !(tget d.med.sb key).donor && (decide (d.stw.now.retire ≤ x.cycles) || x.grownBad) then
      let d := blogAdd 4 (laneDie lane p) (lane % 4) (k % 1344) 0 { d with
        med.pb := tset d.med.pb k { x with retired := true, grownBad := false }
        stw.cnt := bump d.stw.cnt 9 }
      (substitute key p (post 0x6009 1 (laneDie lane p) (lane % 4) (k % 1344) x.cycles d)).2
    else d) d

/-- The reset intents of a sorus-block are logged, for the plane-blocks that serve it once the worn ones are retired. -/
def intentPut (key : Nat) (d : Dev) : Dev :=
  let d := retireWorn key d
  if (tget d.med.sb key).donor then d
  else
    let d := blogSb 0 key d
    sbMod key (fun b => { b with intent := some ((d.med.bseq + 2 ^ 40 - 1) % 2 ^ 40) }) d

/-- The reset intent of an emptied sorus-block (R187, step 5); a host sorus-block emptied as a victim, or by other means with
no role, is a victim completed (R194). -/
def intentLog (key : Nat) (d : Dev) : Dev :=
  let b := tget d.med.sb key
  if b.st = .closed ∧ b.valid.isEmpty ∧ b.intent.isNone ∧ !b.donor ∧ !readOnlyLane d (key / 1344) then
    let victim := decide (b.kind = .host) && (decide (b.role = .victim) || decide (b.role = .none))
    intentPut key { d with stw.cnt := if victim then bump d.stw.cnt 2 else d.stw.cnt }
  else d

/-- The sorus-blocks whose intents are on media are RESETTING (R159). -/
def intentsOn (d : Dev) : Dev :=
  { d with med.sb := tmap d.med.sb fun _ b =>
      if b.st = .closed ∧ b.valid.isEmpty ∧ blogged d b.intent then
        { b with st := .resetting, resetPos := List.range 20, role := .none, programmed := false }
      else b }

/-- The intent of a position's plane-block still waits in the log buffer (R160). -/
def intentWaits (d : Dev) (key p : Nat) : Bool :=
  let k := serving d.med (key / 1344) (key % 1344) p
  d.med.blogBuf.any fun r => r.type = 0 && r.die = laneDie (key / 1344) p && r.plane = key / 1344 % 4 && r.block = k % 1344

/-- The positions of a RESETTING sorus-block that its next wave may take (R160, R165): no read in flight holds a row of it. -/
def resetNext (d : Dev) (key : Nat) : List Nat :=
  let b := tget d.med.sb key
  if b.st ≠ .resetting ∨ d.rp.reqs.any (fun r => r.entry.v && slotSb r.entry.slot = key) then []
  else (b.resetPos.filter fun p => !intentWaits d key p).take (4 - busyCount d (key / 1344))

/-- Starts the next reset wave of a sorus-block (R165, R187 step 6), or leaves it waiting for a pin (R93). -/
def resetStart (key : Nat) (d : Dev) : Dev :=
  let lane := key / 1344
  let ps := resetNext d key
  if ps.isEmpty then d
  else match opsStart lane key ps true 2 d with
    | some d => sbMod key (fun b => { b with resetPos := b.resetPos.filter (· ∉ ps), waited := false, programmed := false })
        { d with
          med.rows := d.med.rows.filter fun x => slotSb x.1 ≠ key
          med.part := d.med.part.filter fun x => slotSb x.1 ≠ key
          med.lanes := tmod d.med.lanes lane fun l => { l with st := .resetting } }
    | none =>
      if (tget d.med.sb key).waited || !(ps.any (pinnedAt d lane)) then d
      else sbMod key (fun b => { b with waited := true }) { d with med.cnt := bump d.med.cnt 14 }

/-- The resets that wait for a pin are tried, on lanes that may start them. -/
def resetKick (d : Dev) : Dev :=
  (d.med.sb.filter (·.2.waited)).foldl (fun d x => match (tget d.med.lanes (x.1 / 1344)).st with
    | .idle | .resetting => if readOnlyLane d (x.1 / 1344) then d else resetStart x.1 d
    | _ => d) d

/-- A sorus-block whose every plane-block is reset: SPORE while its lane holds fewer than two, else READY (R189). Its old
life's bucket is forgotten (R186). -/
def resetEnd (key : Nat) (d : Dev) : Dev :=
  let b := tget d.med.sb key
  if b.st ≠ .resetting ∨ !b.resetPos.isEmpty ∨ (d.med.ops.any fun o => o.reset && o.nsb = key) then d
  else
    let d := { d with stw.cnt := bump d.stw.cnt 8, stw.buckets := tset d.stw.buckets key 0 }
    if sporeCount d (key / 1344) < 2 then blogSb 5 key { d with med.sb := tset d.med.sb key { st := .spore } }
    else { d with med.sb := tset d.med.sb key {} }

/-! ### Candidates and victims (R186) -/

/-- A candidate of garbage collection: CLOSED, not full of valid rows, host rows only. -/
def isCand (d : Dev) (k : Nat) (b : Sb) : Bool :=
  b.st = .closed && decide (validCount b < 32768) && b.kind = .host && !b.donor && !b.out && b.intent.isNone
    && !readOnlyLane d (k / 1344)

/-- The bucket of a candidate by its score W (R186). -/
def bucketNow (d : Dev) (b : Sb) : Nat :=
  let a := min 768 ((d.time - b.closedAt) / 360000000000)
  validCount b * 256 / (256 + a) / 64

/-- The bucket a candidate is held in: that of the last hourly re-bucketing, else its score's. -/
def bucketOf (d : Dev) (k : Nat) (b : Sb) : Nat :=
  match tget d.stw.buckets k with
  | 0 => bucketNow d b
  | n + 1 => n

/-- The candidates with their buckets. -/
def cands (d : Dev) : List (Nat × Sb) := d.med.sb.filter fun x => isCand d x.1 x.2

/-- The next victim: lowest bucket, earliest CLOSED time, lowest number. -/
def nextVictim (d : Dev) : Option Nat :=
  ((cands d).filter fun x => x.2.role = .none || x.2.role = .refresh || x.2.role = .wear).foldl (fun r (x : Nat × Sb) =>
    match r with
    | none => some x
    | some y =>
      let bx := bucketOf d x.1 x.2
      let bY := bucketOf d y.1 y.2
      if bx < bY ∨ (bx = bY ∧ x.2.closedAt < y.2.closedAt) then some x else r) (none : Option (Nat × Sb)) |>.map (·.1)

/-- A victim in progress, taken when there is none (R186, R188). -/
def victimTake (d : Dev) : Dev :=
  let cur (d : Dev) : Option (Nat × Sb) := d.med.sb.find? fun x => x.2.role = .victim && !x.2.valid.isEmpty
  let d := match cur d, nextVictim d with
    | none, some k => sbMod k (fun b => { b with role := .victim }) d
    | _, _ => d
  { d with stw.victim := ((cur d).map (·.1)).getD 262143 }

/-- The lane is Idle again when nothing of it runs (R165). -/
def laneIdle (lane : Nat) (d : Dev) : Dev :=
  if (d.med.ops.any fun o => o.lane = lane) || (d.med.sets.any fun s => s.lane = lane) then d
  else { d with med.lanes := tmod d.med.lanes lane fun l => if l.st = .readOnly then l else { l with st := .idle } }

end Sys2Proof.Machine
end

