-- ==== Sys2Proof/Machine/Lanes.lean ====
section
/-! DEFINITION. Machine/Lanes.lean: map updates (R71–R76, R141), the offers of Idle lanes with the sets and resets they
start (R139–R142, R165–R171, R183, R187), their ends, suspensions and dies (R170–R172). -/

namespace Sys2Proof.Machine

/-! ### Map updates (R71–R76, R110, R141, R200, R226) -/

/-- A destaged frond's slot after its update (R141): the one that was sealed, by its key and GEN. -/
def destageDone (key gen : Nat) (u : Upd) (applied : Bool) (d : Dev) : Dev :=
  let s := tget d.csh.dir key
  if s.st ≠ .sealed ∨ s.frond ≠ u.frond ∨ s.gen ≠ gen then d
  else if applied && !s.dirty then
    setFlags u.frond { slotDrain key d with
      csh.cnt := bump (slotDrain key d).csh.cnt 6
      csh.destaged := d.csh.destaged + s.lines.length }
  else
    { d with
      csh.dir := tset d.csh.dir key { s with st := .opn }
      csh.cnt := if applied then bump d.csh.cnt 7 else d.csh.cnt }

/-- A destage of a frond enters the table of hot fronds (R205): 65,536 fronds, each with its destages of the last second. DESIGN
CHOICE: a full table tracks no new frond (log entry 79). -/
def hotMark (f : Nat) (d : Dev) : Dev :=
  let live := tmap d.stw.hotTab fun _ ts => ts.filter fun t => decide (d.time < t + 100000000)
  { d with stw.hotTab :=
      if (tget live f).isEmpty && decide (65536 ≤ live.length) then live else tset live f (tget live f ++ [d.time]) }

/-- A rescue rewrite ended (R108, R110, R200): the entry leaves the list; the staging entry is freed once the map names another
row than the one that failed. -/
def rescueDone (u : Upd) (applied : Bool) (d : Dev) : Dev :=
  let e := mapGet d u.frond
  let same := !applied && e.v && decide (some e.slot = u.cond.map (·.slot))
  { d with
    stw.rescue := d.stw.rescue.filter (·.1 ≠ u.frond)
    rp.stage := if same then d.rp.stage else tset d.rp.stage u.frond 0 }

/-- The lowest frond of a range that its walk has not done (R226). -/
def rekeyBound (r : Range) : Nat := (r.rewriting ++ r.again).foldl min r.next

/-- The boundary after a step of the walk; `endId` bounds the reads that came before it passed LAST (R226, R227). -/
def rekeyStep (d : Dev) (r : Range) : Range :=
  let b := rekeyBound r
  { r with boundary := b, endId := if r.last < b ∧ r.boundary ≤ r.last then d.rp.nextId else r.endId }

/-- A rekey rewrite's update ended: the frond is done, or it is examined again (R226). -/
def rekeyMoved (n f : Nat) (applied : Bool) (d : Dev) : Dev :=
  { d with
    sec.ranges := tmod d.sec.ranges n fun r =>
      let r := { r with
        rewriting := r.rewriting.filter (· ≠ f)
        again := if applied then r.again else r.again ++ [f]
        rewritten := r.rewritten + b2n applied }
      rekeyStep d r
    sec.cnt := bump d.sec.cnt (if applied then 6 else 8) }

/-- What follows an update that applied or was discarded, by who asked for it. -/
def updDone (u : Upd) (applied : Bool) (d : Dev) : Dev :=
  let moved (c : Nat) (d : Dev) : Dev := if applied then { d with stw.cnt := bump d.stw.cnt c } else d
  match u.why with
  | .destage key g => destageDone key g u applied (if applied then hotMark u.frond d else d)
  | .gc => moved 3 d
  | .wear => moved 4 d
  | .refresh => moved 5 d
  | .evacuate => moved 7 d
  | .rescue => rescueDone u applied (moved 6 d)
  | .rekey n => rekeyMoved n u.frond applied d
  | .poison l =>
    if applied then d
    else
      let m := setBit (tget d.rp.stage u.frond) l false
      let d := { d with rp.stage := tset d.rp.stage u.frond m }
      if m = 0 then rescueDrop u.frond d else d
  | .host => d

/-- The entry an update writes (R65, R71). -/
def updEntry (op : UpdOp) (e : Entry) : Entry := match op with
  | .setRow s p => { e with slot := s, v := true, z := false, p }
  | .moveRow s p => { e with slot := s, v := true, z := false, p }
  | .setP => { e with p := true }
  | .clearP => { e with p := false }
  | .frondWide => { frondWide with c := e.c, s := e.s }
  | .release _ => {}

/-- The condition of R73: the entry, C and S ignored, is the one the update was planned from; a destage's slot is still the one
it sealed (R143). -/
def condOk (d : Dev) (u : Upd) : Bool :=
  (match u.cond with
    | none => true
    | some c => decide ((mapGet d u.frond).core = c.core))
  && (match u.why with
    | .destage k g => let s := tget d.csh.dir k
      decide (s.st = .sealed) && decide (s.frond = u.frond) && decide (s.gen = g)
    | _ => true)

/-- Applies one update: record first, then entry and cache, valid rows, poison index (R73–R75, R185, R236). -/
def updApply (u : Upd) (d : Dev) : Dev :=
  if !condOk d u then
    let mv := match u.op with
      | .setRow .. | .moveRow .. => true
      | _ => false
    updDone u false { d with map.cnt := if mv then bump d.map.cnt 9 else d.map.cnt }
  else
    let d := match u.op with
      | .release shed => slotDiscard u.frond (shedRow shed u.frond d)
      | _ => d
    let old := mapGet d u.frond
    let e := updEntry u.op old
    let d := rowsMoved old e (mapJournal u.frond e d)
    let d := match u.op with
      | .setRow s p | .moveRow s p =>
        if p then pidxAdd u.frond (tget d.med.rows s).lpoison d else pidxDrop u.frond d
      | .frondWide => pidxAdd u.frond (BitVec.allOnes 64) d
      | .clearP | .release _ => pidxDrop u.frond d
      | .setP => d
    let d := updDone u true d
    let d := if u.why = .evacuate then { d with stw.evacRows := bump d.stw.evacRows (slotLane old.slot) } else d
    if !old.v then d
    else if (tget d.med.sb (slotSb old.slot)).role = .victim then victimTake (intentLog (slotSb old.slot) d)
    else intentLog (slotSb old.slot) d

/-- The update whose line is not being recomputed and which comes first (R71, R81). -/
def updFront (d : Dev) : Option Nat :=
  d.map.updq.findIdx? fun u => match tget d.map.err (mapLine u.frond) with
    | some .recompute | some .waiting => false
    | _ => true

/-- MAP_UPDATE_APPLY: the next update applies; with the tail full it waits, counted and recorded once (R76). -/
def mapUpdateApply (d : Dev) : Dev :=
  if d.pwr.dumping then d else
  match updFront d with
  | none => d
  | some i =>
    match d.map.updq[i]? with
    | none => d
    | some u =>
      if tailRoom d then admitEval (updApply u { d with map.updq := d.map.updq.eraseIdx i })
      else if u.waited then d
      else post 0x3025 1 d.map.tail.length d.map.jseq 0 0 { d with
        map.updq := d.map.updq.set i { u with waited := true }
        map.cnt := bump d.map.cnt 7 }

/-- Meaning of MAP_UPDATE_APPLY (R71–R76). -/
def execMapUpdateApply (s : State) : Ans := run mapUpdateApply s

/-- Meaning of MAP_LAP_LATE (R77): a lap beyond 10 s is counted and recorded once. -/
def execMapLapLate (s : State) : Ans :=
  run (fun d => match d.map.lap with
    | none => d
    | some l => if l.late then d else
      post 0x3024 2 (d.map.lapSeq + 1) (msOf (d.time - l.startT)) l.fronds 0 { d with
        map.lap := some { l with late := true }
        map.cnt := bump d.map.cnt 10 }) s

/-! ### Destage (R139–R142, R205) -/

/-- The frond is hot (R205): destaged often enough within the last second. -/
def isHot (d : Dev) (f : Nat) : Bool :=
  decide (d.stw.now.hot ≤ ((tget d.stw.hotTab f).filter fun t => decide (d.time < t + 100000000)).length)

/-- A slot may be sealed (R139, R205). -/
def sealOk (d : Dev) (s : Slot) : Bool :=
  let lvl := floorLevel d
  let us := (d.time - s.born) / 100
  let old := decide (d.stw.now.holdMs ≤ us / 1000)
  s.st = .opn && (decide (lvl = 3) ||
    (if d.stw.gov = 2 then old
     else (decide (lvl ≠ 0) || decide (d.csh.minAgeNow ≤ us))
      && (!(isHot d s.frond && (decide (lvl ≤ 1) || decide (d.stw.gov = 1))) || old)))

/-- Ways not Free in the set of a slot key. -/
def setWays (d : Dev) (k : Nat) : Nat := (d.csh.dir.filter fun x => x.1 / 16 = k / 16).length

/-- The slots that destage may seal, in the order of R139; a frond has one destage in flight. DESIGN CHOICE: the first two groups
are taken in ascending GEN too (log entry 80). -/
def sealable (d : Dev) : List (Nat × Slot) :=
  let xs := d.csh.dir.filter fun x => sealOk d x.2 && !destaging d x.2.frond
  let g (x : Nat × Slot) : Nat := x.2.gen
  let a := xs.filter fun x => ovfBase ≤ x.1
  let b := xs.filter fun x => x.1 < ovfBase && 14 ≤ setWays d x.1
  let c := xs.filter fun x => x.1 < ovfBase && setWays d x.1 < 14
  sortBy g a ++ sortBy g b ++ sortBy g c

/-- A destage set can be formed: 32 slots, or fewer at the Drain level (R142). -/
def destageReady (d : Dev) : Bool :=
  let n := (sealable d).length
  decide (32 ≤ n) || (decide (floorLevel d = 3) && decide (0 < n))

/-- Code of a line state (R124). -/
def LState.code : LState → Nat
  | .absent => 0 | .full => 1 | .sparse => 2 | .poisoned => 3

/-- What a line of a frond's new row holds (R140): its content, its poison bit, whether this destage poisons it, and whether its
read asked for P. -/
structure Gathered where
  line : Line
  p : Bool := false
  fresh : Bool := false
  asked : Bool := false
  deriving DecidableEq, Repr

/-- Line l of a frond's new row, read from the cushion slot at a key and from the old row (R140). -/
def gatherLine (key : Nat) (s : Slot) (e : Entry) (ts : Trouble) (l : Nat) (d : Dev) : Gathered × Dev :=
  let f := s.frond
  let fx := troubleAt ts f l
  let was := (tget d.med.rows e.slot).lpoison.getLsbD l
  let pre := was || (e.p && (tget d.rp.stage f).getLsbD l)
  let wide := decide (e.form = .frondWide)
  let c := tget s.lines l
  let m := sparseMask d f l
  let cush (d : Dev) : (Line × Bool) × Dev :=
    backCushion { id := d.rp.nextId, org := .back 5, frond := f, line := l, stage := .cushion, entry := e, route := 2,
                  key := some key, snap := c, snapMask := m, gen := s.gen } fx d
  match c.st with
  | .full =>
    let ((x, p), d) := cush d
    ({ line := x, p, fresh := p }, d)
  | .poisoned =>
    let ((x, _), d) := cush d
    ({ line := x, p := true }, d)
  | .sparse =>
    let ((x, p), d) := cush d
    if e.v then
      let ((o, po), d) := oldLine f l e fx d
      ({ line := mergeLine o x m, p := po || pre || p, fresh := po || pre || p, asked := po && !was }, d)
    else ({ line := mergeLine 0 x m, p := wide || p, fresh := wide || p }, d)
  | .absent =>
    if e.v then
      let ((o, po), d) := oldLine f l e fx d
      ({ line := o, p := po || pre, fresh := po && !pre, asked := po && !was }, d)
    else ({ line := 0, p := wide }, d)

/-- Seals a slot and gathers its frond's row line by line (R139, R140). -/
def gather (key : Nat) (ts : Trouble) (d : Dev) : HRow × Dev :=
  let s := tget d.csh.dir key
  let e := mapGet d s.frond
  let step (a : HRow × Dev) (l : Nat) : HRow × Dev :=
    let (g, d) := gatherLine key s e ts l a.2
    let d := if g.fresh then
        pidxAdd s.frond (BitVec.ofNat 64 (2 ^ l)) (post 0x4013 2 s.frond l (tget s.lines l).st.code 0
          { d with csh.cnt := bump d.csh.cnt 8 }) else d
    ({ a.1 with
       lines := tset a.1.lines l g.line
       lp := if g.p then setBit a.1.lp l true else a.1.lp
       cond := planEntry a.1.cond g.asked }, d)
  (List.range 64).foldl step
    ({ frond := s.frond, lines := [], lp := 0, moved := false, cond := e, why := .destage key s.gen },
     { d with csh.dir := tset d.csh.dir key { s with st := .sealed, dirty := false } })

/-! ### Reservations (R179, R180, R183) -/

/-- Reset waves that a lane's RESETTING sorus-blocks still need (R165). -/
def resetWaves (d : Dev) (lane : Nat) : Nat :=
  if readOnlyLane d lane then 0
  else (d.med.sb.filter fun x => x.1 / 1344 = lane && x.2.st = .resetting).foldl (fun n x => n + (x.2.resetPos.length + 3) / 4) 0

/-- The plan's keys: 20 block log, 21 journal, 22 lap, 23 spore, 24 rescue, 25 escalated, 26 evacuation, 27 resets (R180);
3 to 9 the steps of R179. Whether a reservation finds work that can use it. -/
def hasWork (d : Dev) (key : Nat) : Bool :=
  let role (r : Role) : Bool := d.med.sb.any fun x => x.2.role = r && !x.2.valid.isEmpty
  match key with
  | 20 => decide (0 < d.med.blogAt)
  | 21 => decide (8192 ≤ d.map.tail.length)
  | 22 => d.map.lap.isSome
  | 24 => !d.stw.rescue.isEmpty
  | 25 => role .escalated
  | 26 => role .evac
  | 23 => (List.range 128).any fun l => decide (sporeCount d l < 2) && decide (0 < resetWaves d l)
  | 27 => (List.range 128).any fun l => decide (2 ≤ sporeCount d l) && decide (0 < resetWaves d l)
  | 3 | 8 => role .victim
  | 4 | 9 => destageReady d
  | 5 => role .refresh
  | 6 => d.sec.ranges.any fun x => !x.2.rewriting.isEmpty
  | 7 => role .wear
  | _ => false

/-- The reservation that pays for an offer: the first of the consumer's own with slots left; for work of a step of class C4 else
one of steps 2 to 4 that finds no work, unless an earlier step can use it (R183) or the mode is Quiet (R184). -/
def payer (d : Dev) (keys : List Nat) (c4 : Option Nat) (lane : Nat) : Option Nat :=
  if d.stw.plan.yield ≤ tget d.stw.plan.lanesUsed lane then none
  else match keys.find? fun k => 0 < tget d.stw.plan.left k with
    | some k => some k
    | none => match c4 with
      | none => none
      | some s =>
        if d.pwr.mode = .quiet ∨ ((List.range 10).any fun k => decide (5 ≤ k) && decide (k < s) && hasWork d k) then none
        else [20, 21, 22, 23, 24, 25, 26, 27, 3, 4].find? fun k => 0 < tget d.stw.plan.left k && !hasWork d k

/-- Takes the slots of a set, or of a reset wave, which takes all that its lane has left (R178). -/
def pay (key lane : Nat) (wave : Bool) (d : Dev) : Dev :=
  { d with
    stw.plan.left := tmod d.stw.plan.left key fun n => n - 1
    stw.plan.lanesUsed := if wave then tset d.stw.plan.lanesUsed lane d.stw.plan.yield else bump d.stw.plan.lanesUsed lane }

/-! ### The consumers of an offer -/

/-- Destage of up to 32 slots (R139–R142). The gather bursts of a floor set, second mirrors included, and its assembly bursts
count in F in the slice of its offer, its channel reads wave by wave (DESIGN CHOICE, log entry 78). -/
def offerDestage (lane : Nat) (ts : Trouble) (d : Dev) : Dev :=
  match payer d [4, 9] (some 9) lane with
  | none => d
  | some k =>
    if !destageReady d || !verOk d then d else
    let (o, d) := hostOpen lane false d
    match o with
    | none => d
    | some key =>
      let keys := ((sealable d).take 32).map (·.1)
      let lines := keys.foldl (fun n x => n + (tget d.csh.dir x).lines.length) 0
      let before := tget d.rp.cnt 12
      let (rows, d) := keys.foldl (fun (a : List HRow × Dev) x =>
        let (r, d) := gather x ts a.2
        (a.1 ++ [r], d)) ([], d)
      if !d.periodsOn then d else
      let f := lines + (tget d.rp.cnt 12 - before) + 3200
      hostSet lane key (if k = 4 then 2 else 4) (k = 4) rows (pay k lane false
        { d with ldg.runF := d.ldg.runF + (if k = 4 then f else 0) })

/-- A Transit entry runs: the tail is programmed to its end (R417, step 2). -/
def transitRuns (d : Dev) : Bool := match d.mbx.run with
  | some r => (match r.job with
    | .transit _ step => decide (1 ≤ step)
    | _ => false)
  | none => false

/-- Records in the 24 GiB of journal that the node holds at most (R78). -/
def journalMax : Nat := 24 * 2 ^ 30 / 16

/-- A journal set of 8,192 records, fewer when a Transit entry empties the tail (R76, R417). -/
def offerJournal (lane : Nat) (d : Dev) : Dev :=
  match payer d [21] none lane with
  | none => d
  | some k =>
    let n := min 8192 d.map.tail.length
    if (decide (n < 8192) && !(transitRuns d && decide (0 < n))) || !verOk d || decide (journalMax < d.map.mediaJ.length + n)
    then d else
    let (o, d) := metaOpen .journal lane d
    match o with
    | none => d
    | some key =>
      let rs := d.map.tail.take n
      metaSet lane key .journal n ((List.range ((n + 255) / 256)).map fun i =>
        let xs := (rs.drop (256 * i)).take 256
        (((xs.head?.map (·.jseq)).getD 0) % 2 ^ 32, linesOfBytes (xs.flatMap JRec.bytes))) (pay k lane false d)

/-- Image fronds of a lap: the map's, then the block table's (R77, R160). -/
def imgFronds : Nat := 5599126

/-- Entry of the block table at an index (R158): the state and the last page are those of the sorus-block that the plane-block
serves, or its own number's where it serves none. -/
def blockEntry (d : Dev) (i : Nat) : Nat :=
  let b := tget d.med.pb i
  let die := i / 1344 / 4
  let plane := i / 1344 % 4
  let lane := (planeAt die plane).1
  let own := tget d.med.sb (sbKey lane (i % 1344))
  let s := match servedBy d.med.pb die plane (i % 1344) with
    | some n => tget d.med.sb (sbKey lane n)
    | none => own
  let st := if b.bad then 6 else if b.retired then 7 else match s.st with
    | .ready => 0 | .opn => 1 | .full => 2 | .closed => 3 | .resetting => 4 | .spore => 5
  st + b.cycles % 2 ^ 24 * 8 + b.step % 16 * 2 ^ 27 + b.subst.getD (i % 1344) * 2 ^ 31 + b2n own.donor * 2 ^ 42
    + (if s.st = .opn ∨ s.st = .full then (s.page - 1) % 1024 else 0) * 2 ^ 43

/-- A line of image frond i. -/
def imageLine (d : Dev) (i l : Nat) : Line :=
  if i < 5592406 then mapImageLine d (64 * i + l)
  else bytesLine ((List.range 8).flatMap fun k => toLe 8 (blockEntry d ((i - 5592406) * 512 + 8 * l + k)))

/-- What a block image keeps of the block table (R158): no failure counts, measurements, bitmaps or buffers. -/
def blockImage (d : Dev) : Tab Pb × Tab Sb :=
  (tmap d.med.pb fun _ b => { b with progFails := 0, meas := 0, grownBad := false },
   tmap d.med.sb fun _ b => { st := b.st, kind := b.kind, donor := b.donor, page := b.page, programmed := b.programmed })

/-- Copies the map of image fronds i to i + n − 1 into the lap's image, and the block table with its first frond (R77, step 2,
R160). -/
def lapCopy (l : Lap) (n : Nat) (d : Dev) : Lap :=
  let i := l.fronds
  let table := decide (i ≤ 5592406) && decide (5592406 < i + n)
  { l with
    copy := { l.copy with
      ent := (d.map.ent.filter fun x => 768 * i ≤ x.1 && x.1 < 768 * (i + n)).foldl (fun t x => tset t x.1 x.2) l.copy.ent
      seq := (d.map.seq.filter fun x => 64 * i ≤ x.1 && x.1 < 64 * (i + n)).foldl (fun t x => tset t x.1 x.2) l.copy.seq }
    pb := if table then (blockImage d).1 else l.pb
    sb := if table then (blockImage d).2 else l.sb }

/-- A checkpoint set (R77). -/
def offerImage (lane : Nat) (d : Dev) : Dev :=
  match payer d [22] none lane, d.map.lap with
  | some k, some l =>
    if !verOk d then d else
    let (o, d) := metaOpen .image lane d
    match o with
    | none => d
    | some key =>
      let n := min 32 (imgFronds - l.fronds)
      metaSet lane key .image n ((List.range n).map fun j => (l.fronds + j, linesOf (imageLine d (l.fronds + j))))
        (pay k lane false { d with map.lap := some (lapCopy l n d) })
  | _, _ => d

/-- The block-log set of the period: the records that were in the buffer at its start (R160). The FROND of a row is the BSEQ of
its first record modulo 2^32 (DESIGN CHOICE, log entry 53). -/
def offerBlog (lane : Nat) (d : Dev) : Dev :=
  match payer d [20] none lane with
  | none => d
  | some k =>
    if d.med.blogAt = 0 || !verOk d then d else
    let (o, d) := metaOpen .blog lane d
    match o with
    | none => d
    | some key =>
      let n := min 8192 d.med.blogAt
      let rs := d.med.blogBuf.take n
      metaSet lane key .blog n ((List.range ((n + 255) / 256)).map fun i =>
        let xs := (rs.drop (256 * i)).take 256
        (((xs.head?.map (·.bseq)).getD 0) % 2 ^ 32, linesOfBytes (xs.flatMap BRec.bytes)))
        (pay k lane false { d with med.blogAt := 0 })

/-- A set of host rows that are moved: the first 32 fronds with a row that nothing moves already. -/
def offerRows (lane k cls : Nat) (floor : Bool) (cand : List (Nat × UpdWhy)) (ts : Trouble) (d : Dev) : Dev :=
  let xs := (cand.filter fun x => !inFlight d x.1 && (mapGet d x.1).v).take 32
  if xs.isEmpty || !verOk d then d else
  let (o, d) := hostOpen lane floor d
  match o with
  | none => d
  | some key =>
    let (rows, d) := xs.foldl (fun (a : List HRow × Dev) x =>
      let (r, d) := moveRow x.1 ts x.2 a.2
      (a.1 ++ [r], d)) ([], d)
    if !d.periodsOn then d else hostSet lane key cls false rows (pay k lane false d)

/-- Fronds on the rescue list without a row leave it at once (R200). -/
def rescueSweep (d : Dev) : Dev := d.stw.rescue.foldl (fun d x => if (mapGet d x.1).v then d else rescueDrop x.1 d) d

/-- Rescue rewrites in arrival order (R200). -/
def offerRescue (lane : Nat) (ts : Trouble) (d : Dev) : Dev :=
  match payer d [24] none lane with
  | none => d
  | some k =>
    let d := rescueSweep d
    offerRows lane k 2 true (d.stw.rescue.map fun x => (x.1, .rescue)) ts d

/-- The reservation, the cause and, in class C4, the step of a move role (R179, R188). -/
def roleKeys (step : Nat) : Role → List Nat × UpdWhy × Option Nat
  | .evac => ([26], .evacuate, none)
  | .escalated => ([25], .refresh, none)
  | .victim => if step = 8 then ([8], .gc, some 8) else ([3], .gc, none)
  | .refresh => ([5], .refresh, some 5)
  | .wear => ([7], .wear, some 7)
  | .none => ([], .gc, none)

/-- Moves of a sorus-block in a move role, filled up from others of its role (R187, R471). -/
def offerMove (lane step nsb : Nat) (ts : Trouble) (d : Dev) : Dev :=
  let role := (tget d.med.sb nsb).role
  let (keys, why, c4) := roleKeys step role
  match payer d keys c4 lane with
  | none => d
  | some k =>
    if role = .none then d
    else
      let ks := nsb :: (d.med.sb.filter fun x => x.2.role = role && x.1 ≠ nsb).map (·.1)
      offerRows lane k (if c4.isNone then 2 else 4) c4.isNone ((ks.flatMap (sbFronds d)).map fun f => (f, why)) ts d

/-- Rekey rewrites: the fronds whose headers showed the old slot, filled up from other ranges (R226, R471). -/
def offerRekey (lane range : Nat) (ts : Trouble) (d : Dev) : Dev :=
  match payer d [6] (some 6) lane with
  | none => d
  | some k =>
    let d := { d with sec.ranges := tmap d.sec.ranges fun _ r =>
      let r := { r with rewriting := r.rewriting.filter fun f => (mapGet d f).v }
      if r.st = .rekeying ∨ r.st = .closing then rekeyStep d r else r }
    let ks := range :: (d.sec.ranges.map (·.1)).filter (· ≠ range)
    offerRows lane k 4 false (ks.flatMap fun n => (tget d.sec.ranges n).rewriting.map fun f => (f, .rekey n)) ts d

/-- A reset wave of an emptied sorus-block on its own lane (R180, R183): paid when it starts, or when it comes to wait for a
pin. -/
def offerReset (lane nsb : Nat) (d : Dev) : Dev :=
  match payer d (if sporeCount d lane < 2 then [23, 27] else [27]) none lane with
  | none => d
  | some k =>
    if nsb / 1344 ≠ lane ∨ (tget d.med.sb nsb).waited then d else
    let d' := resetStart nsb d
    if d.med.ops.length < d'.med.ops.length ∨ (tget d'.med.sb nsb).waited then pay k lane true d' else d'

/-! ### The offer of a lane (R165, R168, R183) -/

/-- One consumer's answer to the offer of a lane. -/
def offerTo (lane : Nat) (who : Consumer) (ts : Trouble) (d : Dev) : Dev := match who with
  | .destage => offerDestage lane ts d
  | .journal => offerJournal lane d
  | .image => offerImage lane d
  | .blockLog => offerBlog lane d
  | .rescue => offerRescue lane ts d
  | .move step nsb => offerMove lane step nsb ts d
  | .rekey range => offerRekey lane range ts d
  | .reset nsb => offerReset lane nsb d

/-- The consumers that an Idle lane is offered to in turn (R165): destage, the moves and resets of garbage collection and its
like, the journal with the map images, the block log. -/
def groupOf : Consumer → Nat
  | .destage => 0
  | .rescue | .move .. | .rekey _ | .reset _ => 1
  | .journal | .image => 2
  | .blockLog => 3

/-- The consumers of a turn that may have work for a lane. -/
def turnOf (d : Dev) (lane : Nat) : Nat → List Consumer
  | 0 => [.destage]
  | 1 => .rescue :: ((d.med.sb.filter fun x => x.2.role ≠ .none).flatMap fun x => [.move 3 x.1, .move 8 x.1])
      ++ (d.sec.ranges.map fun x => Consumer.rekey x.1)
      ++ ((d.med.sb.filter fun x => x.1 / 1344 = lane && x.2.st = .resetting).map fun x => Consumer.reset x.1)
  | 2 => [.journal, .image]
  | _ => [.blockLog]

/-- The consumer accepts the lane: a set or a reset of it starts, or waits for a pin. -/
def took (d d' : Dev) : Bool :=
  decide (d.med.sets.length < d'.med.sets.length) || decide (d.med.ops.length < d'.med.ops.length)
    || decide ((d.med.sb.filter (·.2.waited)).length < (d'.med.sb.filter (·.2.waited)).length)

/-- Whether any consumer of a turn accepts a lane. -/
def turnTakes (d : Dev) (lane i : Nat) : Bool := (turnOf d lane i).any fun c => took d (offerTo lane c [] d)

/-- A lane that is offered: Idle with nothing running. While two of its sorus-blocks await their passes it takes no program,
only resets (R168). -/
def laneFree (d : Dev) (lane : Nat) : Bool :=
  decide (lane < 128) && decide ((tget d.med.lanes lane).st = .idle) && !readOnlyLane d lane
    && !(d.med.ops.any fun o => o.lane = lane)
    && (decide (awaiting d lane < 2) || (d.med.sb.any fun x => x.1 / 1344 = lane && x.2.st = .resetting))

/-- The lane offered next: round-robin from the one offered last (R165). -/
def laneNext (d : Dev) : Option Nat :=
  ((List.range 128).map fun i => (d.med.offered + 1 + i) % 128).find? (laneFree d)

/-- The offer goes on: past the lane when someone took it, or when no one would. -/
def offerStep (lane who : Nat) (d d' : Dev) : Dev :=
  if took d d' then { d' with med.offered := lane, med.turn := (who + 1) % 4 }
  else if (List.range 4).any (turnTakes d lane) then d'
  else { d' with med.offered := lane }

/-- LANE_OFFER: the next Idle lane is offered to the consumer whose turn it is, one that has work; further resets, to four,
are offered to a Resetting lane (R165, R183). -/
def laneOffer (lane : Nat) (who : Consumer) (ts : Trouble) (d : Dev) : Dev :=
  let rst := match who with
    | .reset _ => true
    | _ => false
  if !d.periodsOn then d
  else if rst && decide ((tget d.med.lanes lane).st = .resetting) && !readOnlyLane d lane then offerTo lane who ts d
  else if laneNext d ≠ some lane || (!rst && decide (2 ≤ awaiting d lane)) then d
  else
    let ahead := ((List.range 4).map fun i => (d.med.turn + i) % 4).takeWhile (· ≠ groupOf who)
    if ahead.any (turnTakes d lane) then d else offerStep lane (groupOf who) d (offerTo lane who ts d)

/-- Meaning of LANE_OFFER (R139, R165, R166, R183, R187). -/
def execLaneOffer (lane : Nat) (who : Consumer) (ts : Trouble) (s : State) : Ans := run (laneOffer lane who ts) s

/-! ### Pins and waves -/

/-- Meaning of PIN_LIFT (R93): the planes of a read are free to start operations. -/
def execPinLift (id : Nat) (s : State) : Ans :=
  run (fun d => resetKick (waveKick { d with rp.reqs := updWhere d.rp.reqs (·.id = id) fun r => { r with pinned := false } })) s

/-- Rows of owners that fall out of use become invalid: image rows of the older image, released journal and log rows
(R77 step 5, R78, R160). A journal block is kept until every record in it is older than J_s. -/
def metaRelease (l : Lap) (d : Dev) : Dev :=
  let gone (k : Nat) : Bool := decide ((tget d.med.sb k).j1 ≤ l.js)
  let slots := d.med.rows.filter fun x =>
    (x.2.kind = .image && decide (x.2.version < l.ver0)) || (x.2.kind = .blog && decide (x.2.version < l.ver0))
      || (x.2.kind = .journal && gone (slotSb x.1))
  let keep := ((d.med.rows.filter fun x => x.2.kind = .journal && !gone (slotSb x.1)).map fun x => (tget d.med.sb (slotSb x.1)).j0)
  let d := slots.foldl (fun d x => rowMark x.1 false d) d
  let d := { d with
    map.mediaJ := d.map.mediaJ.filter fun r => decide (l.js ≤ r.jseq) || keep.any fun j => decide (j ≤ r.jseq)
    med.blog := d.med.blog.filter fun r => decide (l.bseq0 ≤ r.bseq) }
  (d.med.sb.map (·.1)).foldl (fun d k => intentLog k d) d

/-- The sorus-blocks that hold rows of a kind programmed since a VERSION: a directory's locations (R77). -/
def dirBlocks (d : Dev) (kind : Kind) (ver : Nat) : List Nat :=
  ((d.med.rows.filter fun x => x.2.kind = kind && decide (ver ≤ x.2.version)).map fun x => slotSb x.1).dedup

/-- The lap ends with its anchor row (R77 steps 3–5). -/
def lapEnd (l : Lap) (d : Dev) : Dev :=
  let img := { l.copy with js := l.js, lap := d.map.lapSeq + 1, pb := l.pb, sb := l.sb, bseq := l.bseq0, complete := true }
  metaRelease l (anchorPut (.image l.area (d.map.lapSeq + 1) l.js (dirBlocks d .image l.ver0) (dirBlocks d .journal 0)) { d with
    map.img0 := if l.area = 0 then img else d.map.img0
    map.img1 := if l.area = 0 then d.map.img1 else img
    map.area := l.area
    map.lapSeq := d.map.lapSeq + 1
    map.lastLapMs := msOf (d.time - l.startT)
    map.lap := none })

/-- The journal records of a set are on media, in their sorus-block (R76, R78). -/
def journalOn (st : PSet) (d : Dev) : Dev :=
  let rs := d.map.tail.take st.n
  let hi := rs.foldl (fun m r => max m (r.jseq + 1)) 0
  sbMod st.nsb (fun b => { b with j0 := if b.j1 = 0 then (rs.head?.map (·.jseq)).getD 0 else b.j0, j1 := max b.j1 hi }) { d with
    map.mediaJ := d.map.mediaJ ++ rs
    map.tail := d.map.tail.drop st.n }

/-- The block-log records of a set are on media (R160): the sorus-blocks whose reset intents they carry are RESETTING. -/
def blogOn (st : PSet) (d : Dev) : Dev :=
  intentsOn { d with
    med.blog := d.med.blog ++ d.med.blogBuf.take st.n
    med.blogBuf := d.med.blogBuf.drop st.n }

/-- A verified set (R167): its rows are on media, its updates are submitted in slot order, its owner learns of it. -/
def setVerified (st : PSet) (d : Dev) : Dev :=
  let d := st.rows.zipIdx.foldl (fun d (x : SetRow × Nat) =>
    let slot := sbSlot st.nsb st.page x.2
    let d := { d with med.rows := tset d.med.rows slot x.1.row, med.part := tset d.med.part slot {} }
    if st.kind ≠ .host ∧ x.1.row.kind ≠ .filler then rowMark slot true d else d) d
  let d := { d with
    map.updq := d.map.updq ++ st.rows.filterMap (·.upd)
    med.cnt := bump d.med.cnt 0
    med.sets := d.med.sets.filter (·.lane ≠ st.lane) }
  let d := sbMod st.nsb (fun b => { b with page := st.page + 1, programmed := true }) d
  let d := match st.kind with
    | .journal => journalOn st d
    | .blog => blogOn st d
    | .image => match d.map.lap with
      | some l =>
        let l := { l with fronds := l.fronds + st.n }
        let d := { d with map.lap := some l }
        if imgFronds ≤ l.fronds then lapEnd l d else d
      | none => d
    | _ => d
  laneIdle st.lane (if 1024 ≤ st.page + 1 then sbFull st.nsb d else d)

/-- An abandoned set (R141, R171): no update; destaged slots are Open again; the sorus-block is FULL. -/
def setAbandoned (st : PSet) (d : Dev) : Dev :=
  if !(d.med.sets.any fun s => s.lane = st.lane) then d else
  let d := st.rows.zipIdx.foldl (fun d (x : SetRow × Nat) =>
    match x.1.upd with
    | some u => match u.why with
      | .destage k g =>
        let slot := sbSlot st.nsb st.page x.2
        destageDone k g u false (post 0x4014 1 u.frond (slot % 2 ^ 32) (slot / 2 ^ 32) 0
          { d with csh.cnt := bump d.csh.cnt 9 })
      | _ => d
    | none => d) d
  let d := { d with
    med.sets := d.med.sets.filter (·.lane ≠ st.lane)
    med.cnt := bump d.med.cnt 15
    med.blogAt := if st.kind = .blog then st.n else d.med.blogAt }
  laneIdle st.lane (sbFull st.nsb (sbMod st.nsb (fun b => { b with page := st.page + 1, programmed := true }) d))

/-! ### Dies (R172, R201) -/

/-- A lane with a FAILED die takes no program and no reset any more: its set is abandoned, its rows go to evacuation, a kind of
metadata opens elsewhere (R165, R201, R470). -/
def laneClose (lane : Nat) (d : Dev) : Dev :=
  if (tget d.med.lanes lane).st = .readOnly then d else
  let d := (d.med.sets.filter fun st => st.lane = lane).foldl (fun d st => setAbandoned st d) d
  post 0x600B 2 lane 0 0 0 { d with
    med.lanes := tmod d.med.lanes lane fun l => { l with st := .readOnly, opn := none }
    med.sb := tmap d.med.sb fun k b => if k / 1344 = lane ∧ !b.valid.isEmpty then { b with role := .evac } else b
    med.metaOpen := d.med.metaOpen.filter fun x => (x.2 - 1) / 1344 ≠ lane
    stw.evac := tset d.stw.evac lane (d.time + 1)
    stw.evacRows := tset d.stw.evacRows lane 0 }

/-- The failed operations of a die are kept in the parameter store (R176, R362). -/
def dieKeep (die : Nat) (x : Die) (d : Dev) : Dev :=
  fwPut (.dieFailed die { x with consec := 0 }) { d with med.dies := tset d.med.dies die x }

/-- A die is FAILED: record, its own operations end, its four lanes Read-only. -/
def dieFail (die ops : Nat) (d : Dev) : Dev :=
  let x := tget d.med.dies die
  if x.failed then d else
  let d := post 0x500A 3 die ops 0 0 (dieKeep die { x with failed := true, ops := max ops x.ops } d)
  let lanes := (List.range 4).map fun q => (planeAt die q).1
  let d := { d with med.ops := d.med.ops.filter fun o => !(lanes.contains o.lane && o.pos = (planeAt die 0).2) }
  lanes.foldl (fun d l => laneClose l d) d

/-- A failed program or reset of a die; eight in a row fail it (R172). -/
def dieStrike (die : Nat) (d : Dev) : Dev :=
  let x := tget d.med.dies die
  let x := { x with ops := min (2 ^ 24 - 1) (x.ops + 1), consec := x.consec + 1 }
  let d := dieKeep die x d
  if 8 ≤ x.consec then dieFail die x.ops d else d

/-- An operation of a die ended well. -/
def dieGood (die : Nat) (d : Dev) : Dev := { d with med.dies := tmod d.med.dies die fun x => { x with consec := 0 } }

/-! ### The ends of waves -/

/-- A failed program of a position (R171): counted, recorded; eight make the plane-block BAD. -/
def progFail (st : PSet) (p : Nat) (d : Dev) : Dev :=
  let lane := st.lane
  let k := serving d.med lane (st.nsb % 1344) p
  let x := tget d.med.pb k
  let die := laneDie lane p
  let d := post 0x5001 1 die (lane % 4) (k % 1344) st.page { d with
    med.pb := tset d.med.pb k { x with progFails := x.progFails + 1 }
    med.cnt := bump d.med.cnt 3 }
  let d := dieStrike die d
  if 8 ≤ x.progFails + 1 ∧ !x.bad then
    (substitute st.nsb p (blogAdd 3 die (lane % 4) (k % 1344) 0
      { d with med.pb := tmod d.med.pb k fun x => { x with bad := true } })).2
  else d

/-- PROGRAM_WAVE_DONE: the wave's programs end verify (R166, R167, R171); those of a set that was abandoned meanwhile just end. -/
def programWaveDone (lane : Nat) (fail : BitVec 20) (d : Dev) : Dev :=
  let ends := (d.med.ops.filter fun o => o.lane = lane && !o.reset).map (·.pos)
  if ends.isEmpty then d
  else
    let d := { d with med.ops := d.med.ops.filter fun o => !(o.lane = lane && !o.reset) }
    let bad := ends.filter fun p => fail.getLsbD p
    let good := ends.filter fun p => !fail.getLsbD p
    let d := good.foldl (fun d p => dieGood (laneDie lane p) d) d
    match d.med.sets.find? (·.lane = lane) with
    | none => laneIdle lane d
    | some st =>
      let d := pagesVerified st good d
      if !bad.isEmpty then setAbandoned st (bad.foldl (fun d p => progFail st p d) d)
      else if 4 ≤ st.wave then setVerified { st with wave := 5 } d
      else waveStart lane { d with med.sets := updWhere d.med.sets (·.lane = lane) fun s => { s with wave := s.wave + 1 } }

/-- Meaning of PROGRAM_WAVE_DONE (R166, R167, R171). -/
def execProgramWaveDone (lane : Nat) (fail : BitVec 20) (s : State) : Ans := run (programWaveDone lane fail) s

/-! ### Resets (R159, R172) -/

/-- A substitute takes the place of a plane-block that failed its reset (R172): its own intent is logged first (R160). -/
def resetSubst (key pos : Nat) (d : Dev) : Dev :=
  let lane := key / 1344
  if readOnlyLane d lane then d else
  match substitute key pos d with
  | (false, d) => d
  | (true, d) =>
    let k := serving d.med lane (key % 1344) pos
    sbMod key (fun b => { b with resetPos := b.resetPos ++ [pos] })
      (blogAdd 0 (laneDie lane pos) (lane % 4) (k % 1344) (min 16777215 ((tget d.med.pb k).cycles + 1)) d)

/-- RESET_DONE: a plane-block's reset ends verify. -/
def resetDone (lane pos : Nat) (ok : Bool) (d : Dev) : Dev :=
  match d.med.ops.find? fun o => o.lane = lane && o.pos = pos && o.reset with
  | none => d
  | some o =>
    let key := o.nsb
    let k := serving d.med lane (key % 1344) pos
    let x := tget d.med.pb k
    let die := laneDie lane pos
    let cyc := min 16777215 (x.cycles + 1)
    let d := { d with med.ops := d.med.ops.filter fun o => !(o.lane = lane && o.pos = pos) }
    let d := if ok then
        blogAdd 1 die (lane % 4) (k % 1344) cyc (dieGood die
          { d with med.pb := tset d.med.pb k { x with cycles := cyc, step := 0 } })
      else
        let d := post 0x5002 2 die (lane % 4) (k % 1344) cyc (blogAdd 3 die (lane % 4) (k % 1344) 0 { d with
          med.pb := tset d.med.pb k { x with cycles := cyc, bad := true }
          med.cnt := bump d.med.cnt 4 })
        resetSubst key pos (dieStrike die d)
    laneIdle lane (resetEnd key d)

/-- Meaning of RESET_DONE (R159, R172, R189, R203). -/
def execResetDone (lane pos : Nat) (ok : Bool) (s : State) : Ans := run (resetDone lane pos ok) s

/-! ### Suspension (R170) -/

/-- Rewrites the operation at a position of a lane. -/
def opMod (lane pos : Nat) (f : Op → Op) (d : Dev) : Dev :=
  { d with med.ops := updWhere d.med.ops (fun o => o.lane = lane && o.pos = pos) f }

/-- The operation at a position of a lane. -/
def opAt (d : Dev) (lane pos : Nat) : Option Op := d.med.ops.find? fun o => o.lane = lane && o.pos = pos

/-- Whether an operation resumed too lately to be suspended again (R170, MED_SUSP). -/
def tooSoon (d : Dev) (o : Op) : Bool :=
  match o.resumeT with
  | some t => decide (d.time < t + 100 * (if o.reset then d.med.minResetNow else d.med.minProgNow))
  | none => false

/-- A second recompute pass waits for the operation's end: no suspension is granted meanwhile (R107). -/
def awaited (d : Dev) (lane pos : Nat) : Bool :=
  d.rp.reqs.any fun r => r.stage = .second && slotLane r.entry.slot = lane && r.busyAt.getLsbD pos

/-- A reader of class C3, C4 or C5 suspends the operation of a plane (R170): one that is not stalled, has run its minimum since
it was last suspended, and whose end no second pass awaits; otherwise the reader goes around it. -/
def opSuspend (lane pos : Nat) (d : Dev) : Dev :=
  match opAt d lane pos with
  | some o => if o.stalled || o.suspended || tooSoon d o || awaited d lane pos then d
    else opMod lane pos (fun o => { o with suspended := true, suspT := d.time }) { d with med.cnt := bump d.med.cnt 5 }
  | none => d

/-- Meaning of OPERATION_SUSPENDED (R170). -/
def execOperationSuspended (lane pos : Nat) (s : State) : Ans := run (opSuspend lane pos) s

/-- An operation is stalled: counted, recorded, never suspended again (R170). -/
def opStall (lane pos us : Nat) (d : Dev) : Dev :=
  match opAt d lane pos with
  | some o =>
    if o.stalled then d else
    let key := match d.med.sets.find? (·.lane = lane) with
      | some st => if o.reset then o.nsb else st.nsb
      | none => o.nsb
    let blk := serving d.med lane (key % 1344) pos % 1344
    let d := opMod lane pos (fun o => { o with stalled := true, suspended := false, suspUs := us }) d
    if o.reset then post 0x5003 1 (laneDie lane pos) (lane % 4) blk (us / 1000) { d with med.cnt := bump d.med.cnt 6 }
    else post 0x5004 1 (laneDie lane pos) (lane % 4) blk us { d with med.cnt := bump d.med.cnt 7 }
  | none => d

/-- Meaning of OPERATION_RESUME (R170): the suspended time adds up; past its limit the operation is stalled. -/
def execOperationResume (lane pos us : Nat) (s : State) : Ans :=
  run (fun d => match opAt d lane pos with
    | some o =>
      if !o.suspended then d else
      let t := o.suspUs + us
      let d := opMod lane pos (fun o => { o with suspended := false, suspUs := t, resumeT := some d.time }) d
      if (if o.reset then d.med.rStallNow * 1000 else d.med.pStallNow) < t then opStall lane pos t d else d
    | none => d) s

/-- Meaning of OPERATION_STALL (R170). -/
def execOperationStall (lane pos us : Nat) (s : State) : Ans := run (opStall lane pos us) s

/-- Meaning of DIE_FAILED (R172, R201). -/
def execDieFailed (ch die ops : Nat) (s : State) : Ans := run (dieFail (16 * ch + die) ops) s

/-! ### Verify passes (R169) -/

/-- The sorus-blocks whose pass runs ahead of every other: of a lane where two await theirs, the one that became FULL first
(R168). -/
def passFirst (d : Dev) : List Nat :=
  ((List.range 128).filter fun l => decide (2 ≤ awaiting d l)).filterMap fun l =>
    lowestBy (fun k => (tget d.med.sb k).fullAt)
      ((d.med.sb.filter fun x => x.1 / 1344 = l && x.2.st = .full && x.2.kind = .host && !x.2.passLeft.isEmpty).map (·.1))

/-- A line that a verify pass cannot rebuild is poisoned (R108, R169). -/
def passPoison (x : Nat × Nat) (d : Dev) : Dev :=
  let e := mapGet d x.1
  let (_, d) := stagePoison x.1 x.2 d
  pidxAdd x.1 (BitVec.ofNat 64 (2 ^ x.2)) (rescueAdd x.1 .poisoned { d with
    map.updq := d.map.updq ++ [{ frond := x.1, op := .setP, cond := some e, why := .poison x.2 }]
    rp.cnt := bump d.rp.cnt 10 })

/-- VERIFY_PASS_DONE: the pass of one plane-block of a FULL sorus-block, its failing pages and the lines lost. It runs in
periods, in the C2 read quota; a pass that R168 puts first comes before any other (R169). -/
def verifyPassDone (nsb pos : Nat) (pages : List Nat) (lost : List (Nat × Nat)) (d : Dev) : Dev :=
  let b := tget d.med.sb nsb
  let first := passFirst d
  if !d.periodsOn ∨ b.st ≠ .full ∨ pos ∉ b.passLeft ∨ (!first.isEmpty ∧ nsb ∉ first) then d else
  let lane := nsb / 1344
  let k := serving d.med lane (nsb % 1344) pos
  let die := laneDie lane pos
  let d := mediaGrant 2 (32 * b.page) { d with
    med.cnt := bump d.med.cnt 8
    stw.plan.passQ := d.stw.plan.passQ - 1 }
  let n := pages.length
  let buf := decide (n = 1) && pageRebuilt d nsb (pages.headD 0) pos
  let d := if n = 0 then d else
    let d := post 0x5005 2 die (lane % 4) (k % 1344) (n % 65536 + 65536 * b2n (!buf)) { d with
      med.cnt := bump d.med.cnt (if buf then 9 else 10) n
      med.pb := tmod d.med.pb k fun x => { x with grownBad := true } }
    let d := if lost.isEmpty then d else
      post 0x5006 3 die (lane % 4) (k % 1344) lost.length (lost.foldl (fun d x => passPoison x d) d)
    let fresh := !b.rebuilt
    let d := sbMod nsb (fun b => { b with rebuilt := true, role := if b.role = .evac then b.role else .escalated }) d
    postIf fresh 0x6007 0 nsb (tget d.med.pb k).step 1 0 d
  let left := b.passLeft.filter (· ≠ pos)
  let d := sbMod nsb (fun b => { b with passLeft := left }) d
  if left.isEmpty then
    intentLog nsb (sbMod nsb (fun b => { b with st := .closed, closedAt := d.time, buffer := false, xor := [] }) d)
  else d

/-- Meaning of VERIFY_PASS_DONE (R159, R169, R196). -/
def execVerifyPassDone (nsb pos : Nat) (pages : List Nat) (lost : List (Nat × Nat)) (s : State) : Ans :=
  run (verifyPassDone nsb pos pages lost) s

/-! ### Cushion slots and generations -/

/-- Meaning of SLOT_DRAIN_END (R102): every read of a Draining slot has taken its data. -/
def execSlotDrainEnd (key : Nat) (s : State) : Ans :=
  run (fun d => if (tget d.csh.dir key).st = .draining ∧ (tget d.csh.dir key).readers.isEmpty then
    admitEval { d with csh.dir := tset d.csh.dir key {} } else d) s

/-- Meaning of GEN_LIMIT_RETRY (R128): the refused write is requested again. -/
def execGenLimitRetry (s : State) : Ans :=
  run (fun d => if d.csh.genRetry then
    fwPut (.genLimit (d.pst.nv.genLimit + 2 ^ 40)) { d with csh.genRetry := false } else d) s

end Sys2Proof.Machine
end

