-- ==== Sys2Proof/Machine/Security.lean ====
section
/-! DEFINITION. Machine/Security.lean: key records (R211–R214), protected ranges and their commands (R220–R224), rekey
(R226–R228), poison commands (R234), releases (R84–R87, R222), Sanitize and Secure Erase (R238). -/

namespace Sys2Proof.Machine

/-! ### Key records -/

/-- The record of a newly stored key. -/
def keyRecOf (d : Dev) (k keyid : Nat) : KRec :=
  { keyid, wrapped := wrapKey d.rootKey keyid, seq := (tget d.pst.nv.keys k).next, empty := false }

/-- The EMPTY record of a slot. -/
def emptyRecOf (d : Dev) (k : Nat) : KRec := { seq := (tget d.pst.nv.keys k).next }

/-- Zeroizes a media key slot: the EMPTY record, then the on-die key (R227). -/
def zeroize (k : Nat) (d : Dev) : Dev :=
  fwPut (.keyRec k (emptyRecOf d k)) { d with sec.slots := tset d.sec.slots k {} }

/-- The lowest-numbered Empty range slot (R214). -/
def freeSlot (d : Dev) : Option Nat := ((List.range 63).map (· + 1)).find? fun k => (tget d.sec.slots k).st = .empty

/-- A write that a command needs cannot be made: the return code and what the refusal leaves (R212, R365, R344). -/
def secRefused (part : Nat) (d : Dev) : Option (Nat × Dev) :=
  if part ∈ d.pst.worn then some (rcWorn, { d with pst.cnt := bump d.pst.cnt 5 })
  else if supplyOk d then none
  else let (v, d) := draw d; some (rcSupply, supplyLow part (v % 1020) d)

/-- Meaning of KEY_STORE_RETRY (R212, R327): every refused EMPTY record is requested again; a media slot's or the
cushion key's first retry is recorded. -/
def execKeyStoreRetry (s : State) : Ans :=
  run (fun d =>
    d.sec.zeroRetry.foldl (fun d (x : Nat × Nat) =>
      let key := x.1 * 64 + x.2 + x.1
      let n := tget d.sec.retried key
      let d := postIf (decide (x.1 = 0 ∧ n = 0)) 0x7031 1 x.2 1 0 0 { d with sec.retried := tset d.sec.retried key (n + 1) }
      if x.1 = 0 then fwPut (.keyRec x.2 (emptyRecOf d x.2)) d
      else fwPut (.cphRec x.2 { seq := (tget d.pst.nv.cphKeys x.2).next } {}) d) { d with sec.zeroRetry := [] }) s

/-! ### Ranges (R220–R224) -/

/-- A rekey engine walks the range (R226): Rekeying, or Closing without an erase. -/
def Range.walks (r : Range) : Bool := (r.st = .rekeying || r.st = .closing) && r.former.isEmpty

/-- Rekeys running (SEC_STATUS_REKEYS). -/
def rekeysRunning (d : Dev) : Nat := (d.sec.ranges.filter fun x => x.2.walks).length

/-- The range record as stored: its boundary, no work in progress. -/
def Range.saved (r : Range) : Range := { r with rewriting := [], again := [], next := r.boundary, endId := 0 }

/-- Stores a range record. -/
def rangeStore (n : Nat) (d : Dev) : Dev := fwPut (.range n (tget d.sec.ranges n).saved) d

/-- Two frond spans overlap. -/
def spansMeet (a b c e : Nat) : Bool := decide (a ≤ e) && decide (c ≤ b)

/-- A rekey starts with a new key in the lowest Empty slot (R224, steps 1 to 4): key record, range record, then the range
in force. -/
def rekeyStart (n k : Nat) (r : Range) (d : Dev) : Nat × Dev :=
  let (id, d) := freshKeyid d
  let d := fwWrite (.keyRec k (keyRecOf d k id)) d
  let r := { r with st := .rekeying, old := r.cur, cur := k, boundary := r.base, next := r.base, rewriting := [],
                    again := [], rewritten := 0, started := d.time, former := [], endId := 0 }
  let d := fwWrite (.range n r) d
  let slots := tset d.sec.slots k { st := .loaded, role := 1, range := n, keyid := id }
  let slots := if r.old = 0 then slots else tmod slots r.old fun x => { x with role := 2 }
  (id, post 0x7003 0 n r.old k id { d with sec.slots := slots, sec.ranges := tset d.sec.ranges n r })

/-- Answer of OPEN_RANGE and REKEY_RANGE: slot and KEYID (R352). -/
def slotAnswer (k id : Nat) : List Byte := toLe 4 k ++ toLe 4 id

/-- OPEN_RANGE's own conditions and effect (R222). -/
def openRange (p : List Byte) (d : Dev) : Res × Dev :=
  let n := byte p 0
  let base := le p 4 4
  let last := le p 8 4
  if (tget d.sec.ranges n).st ≠ .closed ∨ last < base ∨ d.map.limit ≤ last
      ∨ (d.sec.ranges.any fun x => x.2.st ≠ .closed && spansMeet base last x.2.base x.2.last) then ret rcInput d
  else match freeSlot d with
    | none => ret rcNoSlot d
    | some k =>
      if 4 ≤ rekeysRunning d then ret rcRekeyLimit d
      else match secRefused 2 d with
        | some (rc, d) => ret rc d
        | none =>
          let r : Range := { base, last, engineRead := bit (byte p 1) 0 }
          let (id, d) := rekeyStart n k r (post 0x7001 0 n base last k d)
          ans rcOk (slotAnswer k id) d

/-- Meaning of OPEN_RANGE (R222, R224, R352). -/
def execOpenRange (tr : Transport) (p : List Byte) (s : State) : Ans :=
  run (command 0xC200 mSM false (len 12) (fun p => byte p 0 < 64 && byte p 1 < 2 && zeros p 2 2) openRange tr p) s

/-- REKEY_RANGE (R222). -/
def rekeyRange (p : List Byte) (d : Dev) : Res × Dev :=
  let n := byte p 0
  let r := tget d.sec.ranges n
  if r.st ≠ .opn then ret rcInput d
  else match freeSlot d with
    | none => ret rcNoSlot d
    | some k =>
      if 4 ≤ rekeysRunning d then ret rcRekeyLimit d
      else match secRefused 2 d with
        | some (rc, d) => ret rc d
        | none => let (id, d) := rekeyStart n k r d; ans rcOk (slotAnswer k id) d

/-- Meaning of REKEY_RANGE (R222, R224, R352). -/
def execRekeyRange (tr : Transport) (p : List Byte) (s : State) : Ans :=
  run (command 0xC202 mSM false (len 1) (fun p => byte p 0 < 64) rekeyRange tr p) s

/-- CLOSE_RANGE in keep mode: the walk back to slot 0 (R222). -/
def closeKeep (n : Nat) (d : Dev) : Res × Dev :=
  let r := tget d.sec.ranges n
  if r.st ≠ .opn then ret rcInput d
  else if r.lock then ret rcLocked d
  else if 4 ≤ rekeysRunning d then ret rcRekeyLimit d
  else match secRefused 2 d with
  | some (rc, d) => ret rc d
  | none =>
    let q := { r with st := .closing, old := r.cur, cur := 0, boundary := r.base, next := r.base, rewriting := [],
                      again := [], rewritten := 0, started := d.time, endId := 0 }
    let d := fwWrite (.range n q) { d with
      sec.ranges := tset d.sec.ranges n q
      sec.slots := tmod d.sec.slots r.cur fun x => { x with role := 2 } }
    ret rcOk (post 0x7003 0 n r.cur 0 (tget d.sec.slots 0).keyid d)

/-- CLOSE_RANGE in erase mode, step 1 (R222). -/
def closeErase (n : Nat) (d : Dev) : Res × Dev :=
  let r := tget d.sec.ranges n
  if r.st ≠ .opn ∧ r.st ≠ .rekeying then ret rcInput d
  else if r.lock then ret rcLocked d
  else match secRefused 2 d with
  | some (rc, d) => ret rc d
  | none =>
    let q := { r with st := .closing, old := r.cur, cur := 0, rewriting := [], again := [], boundary := r.last + 1,
                      next := r.last + 1, former := r.cur :: (if r.st = .rekeying ∧ r.old ≠ 0 then [r.old] else []) }
    let d := fwWrite (.range n q) { d with
      sec.ranges := tset d.sec.ranges n q
      sec.slots := tmod d.sec.slots r.cur fun x => { x with role := 2 } }
    (.long (.eraseRange n r.base r.last) 1 (r.last + 1 - r.base), d)

/-- Meaning of CLOSE_RANGE (R222, R352). -/
def execCloseRange (tr : Transport) (p : List Byte) (s : State) : Ans :=
  run (command 0xC201 mSM false (len 2) (fun p => byte p 0 < 64 && byte p 1 < 2)
    (fun p d => if byte p 1 = 0 then closeKeep (byte p 0) d else closeErase (byte p 0) d) tr p) s

/-- SET_RANGE_ATTR (R222): LOCK can be set, never cleared. -/
def setRangeAttr (p : List Byte) (d : Dev) : Res × Dev :=
  let n := byte p 0
  let er := bit (byte p 1) 0
  let r := tget d.sec.ranges n
  if r.st = .closed then ret rcInput d
  else if r.lock ∧ r.engineRead ≠ er then ret rcLocked d
  else match secRefused 2 d with
    | some (rc, d) => ret rc d
    | none =>
      let q := { r with engineRead := er, lock := r.lock || bit (byte p 1) 1 }
      ret rcOk (fwWrite (.range n q.saved) { d with sec.ranges := tset d.sec.ranges n q })

/-- Meaning of SET_RANGE_ATTR (R222, R352). -/
def execSetRangeAttr (tr : Transport) (p : List Byte) (s : State) : Ans :=
  run (command 0xC203 mSM false (len 2) (fun p => byte p 0 < 64 && byte p 1 < 4) setRangeAttr tr p) s

/-! ### Releases (R84–R86, R222) -/

/-- The fronds of a span that have an entry or a slot, in ascending order: all others are passed over (R84). -/
def frondsIn (d : Dev) (lo hi : Nat) : List Nat :=
  let inside (f : Nat) : Bool := decide (lo ≤ f) && decide (f ≤ hi)
  (sortBy id (((d.map.ent.map (·.1)).filter inside) ++ ((d.csh.dir.filter fun x => x.2.held).map (·.2.frond)).filter inside)).dedup

/-- Releases a span of fronds. -/
def releaseSpan (shed : Bool) (lo hi : Nat) (d : Dev) : Dev :=
  admitEval ((frondsIn d lo hi).foldl (fun d f => releaseFrond shed f d) d)

/-- A host row encrypted under a slot is in a program set in flight. -/
def setUnder (d : Dev) (k : Nat) : Bool :=
  d.med.sets.any fun st => st.rows.any fun r => r.row.kind = .host && r.row.kslot = k

/-- The end of an erasing close (R222, step 3). -/
def eraseEnd (n released : Nat) (d : Dev) : Dev :=
  let r := tget d.sec.ranges n
  let id := (tget d.sec.slots (r.former.headD 0)).keyid
  let d := r.former.foldl (fun d k => zeroize k d) { d with sec.ranges := tset d.sec.ranges n {} }
  post 0x7002 0 n 1 released id (rangeStore n d)

/-! ### The rekey walk (R226–R228) -/

/-- The engine reads the header of its next frond's row: an equal slot is skipped, another is rewritten. -/
def rekeyHeader (n : Nat) (d : Dev) : Dev :=
  let r := tget d.sec.ranges n
  if !r.walks then d else
  let (cand, r) := match r.again with
    | f :: t => (some f, { r with again := t })
    | [] =>
      match d.map.ent.find? fun (x : Nat × Entry) => x.2.v && decide (r.next ≤ x.1) && decide (x.1 ≤ r.last) && decide (x.1 < d.map.limit) with
      | some (f, _) => (some f, { r with next := f + 1 })
      | none => (none, { r with next := r.last + 1 })
  let (r, skip) := match cand with
    | none => (r, false)
    | some f =>
      let e := mapGet d f
      if !e.v then (r, false)
      else if (tget d.med.rows e.slot).kslot = r.cur then (r, true)
      else ({ r with rewriting := r.rewriting ++ [f] }, false)
  let d := if cand.any fun f => (mapGet d f).v then mediaGrant 4 20 d else d
  { d with
    sec.ranges := tset d.sec.ranges n (rekeyStep d r)
    sec.cnt := if skip then bump d.sec.cnt 7 else d.sec.cnt }

/-- Meaning of REKEY_HEADER_READ_DONE (R226). -/
def execRekeyHeaderReadDone (range : Nat) (s : State) : Ans := run (rekeyHeader range) s

/-- Reads that chose their route before the boundary passed LAST and have not ended (R227). -/
def rekeyReads (d : Dev) (r : Range) : Bool :=
  d.rp.reqs.any fun q => decide (q.id < r.endId) && decide (r.base ≤ q.frond) && decide (q.frond ≤ r.last)
    && q.stage ≠ .mapRead && q.stage ≠ .mapWait

/-- A rekey ends (R227): the boundary has passed LAST, no set under the old slot is in flight, the reads before it have ended. -/
def rekeyDone (n : Nat) (d : Dev) : Dev :=
  let r := tget d.sec.ranges n
  if !r.walks ∨ r.boundary ≤ r.last ∨ (r.old ≠ 0 ∧ setUnder d r.old) ∨ rekeyReads d r then d
  else
    let id := (tget d.sec.slots r.old).keyid
    let q : Range := if r.st = .closing then {} else { r with st := .opn, old := 0 }
    let d := if r.old = 0 then d else zeroize r.old d
    let d := rangeStore n { d with sec.ranges := tset d.sec.ranges n q }
    let d := post 0x7004 0 n r.old r.rewritten ((d.time - r.started) / 100000000) d
    postIf (r.st = .closing) 0x7002 0 n 0 0 id d

/-- Meaning of REKEY_DONE (R227). -/
def execRekeyDone (range : Nat) (s : State) : Ans := run (rekeyDone range) s

/-- Meaning of REKEY_BOUNDARY_SAVE (R228): the boundary goes into the range record. -/
def execRekeyBoundarySave (range : Nat) (s : State) : Ans :=
  run (fun d => if (tget d.sec.ranges range).walks then rangeStore range d else d) s

/-! ### Poison commands (R234) -/

/-- The frond's range is locked. -/
def rangeLocked (d : Dev) (f : Nat) : Bool := match rangeOf d f with
  | some (_, r) => r.lock
  | none => false

/-- INJECT_POISON. -/
def injectPoison (p : List Byte) (d : Dev) : Res × Dev :=
  let a := le p 0 8
  let f := addrFrond a
  let l := addrLine a
  if addrIndex a ≠ d.srn.index ∨ 2 ^ 48 ≤ a ∨ d.map.limit ≤ f then ret rcPhys d
  else if f ∈ d.sec.frozen ∨ (admitState d = 4 ∧ (slotFind d f).isNone) then ret rcInput d
  else if rangeLocked d f then ret rcLocked d
  else
    let (k, d) := slotGet f d
    let s := tget d.csh.dir k
    let d := setFlags f { sparseFree f l d with
      csh.dir := tset d.csh.dir k { s with lines := tmod s.lines l fun x => { x with st := .poisoned }, dirty := true } }
    let d := setPoison f (pidxAdd f (BitVec.ofNat 64 (2 ^ l)) d)
    ret rcOk (post 0x7020 0 f l 0 0 (admitEval { d with sec.cnt := bump d.sec.cnt 9 }))

/-- Meaning of INJECT_POISON (R234). -/
def execInjectPoison (tr : Transport) (p : List Byte) (s : State) : Ans :=
  run (command 0x4301 mSM false (len 8) (fun p => le p 0 8 % 64 = 0) injectPoison tr p) s

/-- A line of the frond is still poisoned: staged, in the cushion, or by its row's LPOISON bits (R234). -/
def stillPoisoned (d : Dev) (f : Nat) : Bool :=
  decide (tget d.rp.stage f ≠ 0)
  || (match slotFind d f with
    | some (_, s) => s.lines.any fun x => x.2.st = .poisoned
    | none => false)
  || ((mapGet d f).v && decide ((tget d.med.rows (mapGet d f).slot).lpoison ≠ 0))

/-- CLEAR_POISON (R234): the line is written in full; P clears when nothing of the frond stays poisoned (log entry 14), and the poison
index loses the line at once (log entry 96). -/
def clearPoison (p : List Byte) (d : Dev) : Res × Dev :=
  let a := le p 0 8
  let f := addrFrond a
  let l := addrLine a
  if addrIndex a ≠ d.srn.index ∨ 2 ^ 48 ≤ a ∨ d.map.limit ≤ f then ret rcPhys d
  else if f ∈ d.sec.frozen then ret rcInput d
  else
    let d := writeLine f l ⟨bytesLine (p.drop 8), BitVec.allOnes 64, false⟩ a 6 255 d
    let d := if (mapGet d f).v then mediaGrant 5 20 d else d
    let m := setBit (tget d.rp.stage f) l false
    let d := { d with rp.stage := tset d.rp.stage f m }
    let e := mapGet d f
    let clr := e.p && !(!e.v && !e.z) && !stillPoisoned d f
    let d := if clr then clearPoisonBit f d else { d with sec.pidx := tset d.sec.pidx f (setBit (tget d.sec.pidx f) l false) }
    ret rcOk (post 0x7021 0 f l (b2n clr) 0 (admitEval { d with sec.cnt := bump d.sec.cnt 10 }))

/-- Meaning of CLEAR_POISON (R234). -/
def execClearPoison (tr : Transport) (p : List Byte) (s : State) : Ans :=
  run (command 0x4302 mSM false (len 72) (fun p => le p 0 8 % 64 = 0) clearPoison tr p) s

/-! ### Sanitize and Secure Erase (R238) -/

/-- The fresh map of R88 with its anchored image, the block table's included. DESIGN CHOICE: JSEQ continues, the lap sequence goes
up by one, and the image stands in area 0 (log entry 87). -/
def freshMap (d : Dev) : Dev :=
  let (pb, sb) := blockImage d
  let js := d.map.jseq
  let lap := d.map.lapSeq + 1
  anchorPut (.image 0 lap js [] []) { d with
    map := { jseq := js, lapSeq := lap, limit := 2 ^ 32, img0 := { js, lap, pb, sb, bseq := d.med.bseq, complete := true }, anchors := [],
             anchorSeq := d.map.anchorSeq, anchorSb := d.map.anchorSb, lastLapMs := d.map.lastLapMs, peek := d.map.peek,
             peekEnt := d.map.peekEnt, peekSeq := d.map.peekSeq, peekValid := d.map.peekValid, cnt := d.map.cnt }
    med.blog := [] }

/-- The sorus-block that takes the next block-log page when the log is written outside the periods: the OPEN one, else the
youngest READY one, opened with its records in the page (R189, log entry 26). -/
def blogBlock (d : Dev) : Option Nat × Dev :=
  match tget d.med.metaOpen 5 with
  | k + 1 => (some k, if (tget d.med.sb k).st = .ready then sbOpen k .blog d else d)
  | 0 => match lowestBy (sbCycles d) (((List.range 128).filter fun l => !readOnlyLane d l).filterMap (openPick d)) with
    | some k => (some k, sbOpen k .blog (openLog k { d with med.metaOpen := tset d.med.metaOpen 5 (k + 1) }))
    | none => (none, d)

/-- One page of the block log is programmed from the buffer. -/
def blogPage (d : Dev) : Dev :=
  if d.med.blogBuf.isEmpty then d else
  match blogBlock d with
  | (none, d) => d
  | (some key, d) =>
    let n := min 8192 d.med.blogBuf.length
    let rs := d.med.blogBuf.take n
    let d := pageNow key .blog ((List.range ((n + 255) / 256)).map fun i =>
      let xs := (rs.drop (256 * i)).take 256
      (((xs.head?.map (·.bseq)).getD 0) % 2 ^ 32, linesOfBytes (xs.flatMap BRec.bytes))) { d with
        med.blog := d.med.blog ++ rs
        med.blogBuf := d.med.blogBuf.drop n
        med.blogAt := 0 }
    if 1024 ≤ (tget d.med.sb key).page then sbFull key d else d

/-- The whole log buffer goes to media (R160), before resets that no period carries. -/
def blogFlush (d : Dev) : Dev := iter blogPage (d.med.blogBuf.length / 8192 + 2) d

/-- The plane-blocks of a RESETTING sorus-block are reset, with their done records (R159, R160, R189). -/
def resetRun (key : Nat) (d : Dev) : Dev :=
  let lane := key / 1344
  if (tget d.med.sb key).donor then d else
  let d := (List.range 20).foldl (fun (d : Dev) p =>
    let k := serving d.med lane (key % 1344) p
    let cyc := min 16777215 ((tget d.med.pb k).cycles + 1)
    blogAdd 1 (laneDie lane p) (lane % 4) (k % 1344) cyc
      { d with med.pb := tmod d.med.pb k fun x => { x with cycles := cyc, step := 0 } }) d
  resetEnd key (sbMod key (fun b => { b with st := .resetting, resetPos := [] }) (mediaGrant 2 20 { d with
    med.rows := d.med.rows.filter fun x => slotSb x.1 ≠ key
    med.part := d.med.part.filter fun x => slotSb x.1 ≠ key
    med.cnt := bump d.med.cnt 2 20 }))

/-- Sorus-blocks that a command or a start-up step resets, outside the housekeeping of the periods: their worn plane-blocks are
retired, their intents are on media first (R160, R203, R238 step 8). -/
def resetNow (keys : List Nat) (d : Dev) : Dev :=
  keys.foldl (fun d k => resetRun k d) (blogFlush (keys.foldl (fun d k => intentPut k d) d))

/-- Step 8: which sorus-blocks Sanitize resets. -/
def sanitizes (b : Sb) : Bool :=
  !b.donor && decide (b.st ≠ .spore) && !(decide (b.kind = .blog) && decide (b.st = .opn))
    && !(decide (b.kind = .anchor) && decide (b.st = .opn)) && (decide (b.st ≠ .ready) || b.programmed || !b.valid.isEmpty)

/-- Steps 1 to 7 (Secure Erase), and step 8 (Sanitize), each key stored before anything is encrypted under it; the host-owned cipher slots are zeroized (R328). -/
def sanitizeRun (full : Bool) (d : Dev) : Dev :=
  let held := (d.sec.slots.filter fun x => x.1 ≠ 0).map (·.1)
  let d := held.foldl (fun d k => fwWrite (.keyRec k (emptyRecOf d k)) { d with sec.slots := tset d.sec.slots k {} }) d
  let rs := d.sec.ranges.map (·.1)
  let d := rs.foldl (fun d n => fwWrite (.range n {}) d) { d with sec.ranges := [] }
  let cs := (d.cph.slots.filter fun x => x.1 < 24).map (·.1)
  let d := cs.foldl (fun d k => fwWrite (.cphRec k { seq := (tget d.pst.nv.cphKeys k).next } {}) d)
    { d with cph.slots := d.cph.slots.filter fun x => 24 ≤ x.1 }
  let (k0, d) := freshKeyid d
  let d := fwWrite (.keyRec 0 (keyRecOf d 0 k0)) { d with sec.slots := [(0, { st := .loaded, role := 0, keyid := k0 })] }
  let (kc, d) := freshKeyid d
  let d := fwWrite (.keyRec 64 (keyRecOf d 64 kc)) { d with sec.cushKey := kc, sec.cushLoaded := true }
  let d := { d with
    csh.dir := []
    csh.sparse := []
    csh.gen := 1
    sec.pidx := []
    sec.povf := false
    rp.stage := []
    ope.scratch := []
    stw.rescue := []
    med.sets := d.med.sets.map fun st => { st with rows := st.rows.map fun r => { r with upd := none } }
    med.sb := tmap d.med.sb fun _ b => if b.kind = .host ∨ b.kind = .journal ∨ b.kind = .image then { b with valid := [] } else b }
  let d := fwNow (.life 7) (fwWrite (.mapLimit (2 ^ 32)) (freshMap d))
  let d := if full then
      let lanes := d.med.sets.map (·.lane)
      let d := lanes.foldl (fun d l => match d.med.sets.find? (·.lane = l) with
        | some st => setVerified { st with wave := 5 } { d with med.ops := d.med.ops.filter fun o => o.lane ≠ l }
        | none => d) d
      let ks := (d.med.sb.filter fun x => sanitizes x.2).map (·.1)
      let d := { d with
        med.ops := []
        med.metaOpen := d.med.metaOpen.filter fun x => x.1 = 5
        med.lanes := tmap d.med.lanes fun _ l => { l with opn := none, st := if l.st = .readOnly then l.st else .idle } }
      resetNow ks d
    else d
  admitEval { d with pwr.rerun := none, csh.emptying := false }

/-- Sanitize or Secure Erase begins (R138, R212, R238): refused when its key records cannot be written; the cushion's floor is
Drain from now on, and until its step 7 has ended a power loss runs it again. -/
def sanitizeStart (full : Bool) (unit total : Nat) (d : Dev) : Res × Dev :=
  match secRefused 2 d with
  | some (rc, d) => ret rc d
  | none => (.long (.sanitize full) unit total, { d with pwr.rerun := some full, csh.emptying := true })

/-- Meaning of SANITIZE (R238, R345): the steps take effect when the command ends. -/
def execSanitize (tr : Transport) (p : List Byte) (s : State) : Ans :=
  run (command 0x4400 mM false (len 0) (fun _ => true)
    (fun _ d => sanitizeStart true 4 (d.med.sb.filter fun x => sanitizes x.2).length d) tr p) s

/-- Meaning of SECURE_ERASE (R238, R345). -/
def execSecureErase (tr : Transport) (p : List Byte) (s : State) : Ans :=
  run (command 0x4401 mM false (len 0) (fun _ => true) (fun _ d => sanitizeStart false 5 1000 d) tr p) s

end Sys2Proof.Machine
end

