-- ==== Sys2Proof/Machine/Steward.lean ====
section
/-! DEFINITION. Machine/Steward.lean: the background period and its plan (R177–R184), garbage collection, free space, wear
and the governor (R185–R194, R202–R205), drift and patrol (R195–R199), the scrubber (R206), diagnostic reads (R174). -/

namespace Sys2Proof.Machine

/-! ### Candidates (R186) -/

/-- Meaning of CANDIDATE_REBUCKET (R186). -/
def execCandidateRebucket (s : State) : Ans :=
  run (fun d => { d with stw.buckets := (cands d).foldl (fun t x => tset t x.1 (bucketNow d x.2 + 1)) [] }) s

/-! ### The plan (R178–R184) -/

/-- Rows left in the sorus-blocks of a role. -/
def roleRows (d : Dev) (r : Role) : Nat := d.med.sb.foldl (fun n x => if x.2.role = r then n + validCount x.2 else n) 0

/-- Sets for a number of rows. -/
def setsOf (rows : Nat) : Nat := (rows + 31) / 32

/-- Slots that the operations running on a lane still take (R178): programs 12 µs, resets 2 ms typical, less the time they have
run unsuspended. -/
def runSlots (d : Dev) (lane yield : Nat) : Nat :=
  let ran (o : Op) : Nat := (if o.suspended then o.suspT else d.time) - o.startT - 100 * o.suspUs
  min yield ((d.med.ops.filter fun o => o.lane = lane).foldl (fun m o =>
    max m (((if o.reset then 200000 else 1200) - ran o + 6249) / 6250)) 0)

/-- Fronds each rekey still walks, in sets (R179 step 6, log entry 27). -/
def rekeySets (d : Dev) : List Nat :=
  d.sec.ranges.filterMap fun x => match x.2.st with
    | .rekeying | .closing => if !x.2.former.isEmpty then none else
      some (setsOf (d.map.ent.filter fun y => y.2.v && decide (x.2.boundary ≤ y.1) && decide (y.1 ≤ x.2.last)).length)
    | _ => none

/-- What a period's work may be planned from (R179, R180): by key, the housekeeping items in their order, each a list of units
(program sets or reset waves, with the slots they cost); the deficit part; the destage floor; by step, the class-C4 kind, demand
and cap. -/
structure Demands where
  house : List (Nat × List (Nat × Nat))
  gc : Nat
  floor : Nat
  c4 : List (Nat × Nat × Nat × Nat)
  deriving DecidableEq, Repr

/-- The demands of this period (R179–R181, R184, R192); `rem` are the slots each lane has left. DESIGN CHOICE: step 9 is not
planned at stage 2 of the governor either (log entry 82). -/
def demandsOf (rem : Nat → Nat) (d : Dev) : Demands :=
  let w := d.stw.now
  let hard := d.stw.free = .critical ∨ d.stw.free = .exhausted
  let sets (n : Nat) : List (Nat × Nat) := List.replicate n (1, 1)
  let waves (cap : Nat) (p : Nat → Bool) : List (Nat × Nat) :=
    ((List.range 128).filter fun l => p l && decide (0 < resetWaves d l)).map fun l => (min cap (resetWaves d l), rem l)
  let victims := setsOf (roleRows d .victim)
  let next := match nextVictim d with
    | some k => setsOf (validCount (tget d.med.sb k))
    | none => 0
  let t := d.stw.pool * w.gcTarget / 10000
  let gcSets := if hard then w.gcMax else min w.gcMax (w.gcBase + w.gcGain * (t - d.stw.ready))
  let rk := rekeySets d
  let refresh := setsOf (roleRows d .refresh)
  { house := [(20, sets (min 1 d.med.blogBuf.length)), (21, sets (min 16 ((d.map.tail.length + 8191) / 8192 + 9))),
      (22, sets (if d.map.lap.isSome then 20 else 0)), (23, waves 2 fun l => decide (sporeCount d l < 2)),
      (24, sets (min 32 (setsOf d.stw.rescue.length))), (25, sets (min 64 (setsOf (roleRows d .escalated)))),
      (26, sets (min 128 (setsOf (roleRows d .evac)))), (27, waves 1 fun l => decide (2 ≤ sporeCount d l))]
    gc := if victims + next = 0 then 0 else gcSets
    floor := floorSets d
    c4 := [(5, 4, refresh, 128), (6, 3, rk.foldl (· + ·) 0, rk.foldl (fun n x => n + min 64 x) 0),
      (7, 2, if d.stw.wear && d.stw.free = .normal then 64 else 0, 64),
      (8, 1, if d.stw.phi < w.gcTarget + 200 && !decide hard then victims + next else 0, 256),
      (9, 0, if decide hard || decide (1 ≤ d.stw.gov) then 0
        else ((d.csh.dir.filter fun x => sealOk d x.2 && !isHot d x.2.frond).length / 32) - floorSets d, 2048)] }

/-- Grants units that cost slots, in order, from a capacity: how many units, and what is left. A wave of a lane with no slots
left is not planned. -/
def grantUnits : Nat → List (Nat × Nat) → Nat × Nat
  | cap, [] => (0, cap)
  | cap, (n, c) :: t =>
    if 0 < c ∧ c ≤ cap then
      let (g, r) := grantUnits (cap - c) t
      (n + g, r)
    else grantUnits cap t

/-- Grants the housekeeping items in their order: units by key, and the capacity left. -/
def grantHouse : Nat → List (Nat × List (Nat × Nat)) → List (Nat × Nat) × Nat
  | cap, [] => ([], cap)
  | cap, (k, us) :: t =>
    let (g, c) := grantUnits cap us
    let (r, c) := grantHouse c t
    ((k, g) :: r, c)

/-- Grants along a list of (key, demand) from a capacity: what is left, what each key got. -/
def grantAll : Nat → List (Nat × Nat) → List (Nat × Nat) × Nat
  | cap, [] => ([], cap)
  | cap, (k, n) :: t =>
    let g := min n cap
    let (r, c) := grantAll (cap - g) t
    ((k, g) :: r, c)

/-- The slots planned for a key. -/
def granted (g : List (Nat × Nat)) (k : Nat) : Nat := (g.find? (·.1 = k)).elim 0 (·.2)

/-- The sum of a list of grants. -/
def sumG (g : List (Nat × Nat)) : Nat := g.foldl (fun n x => n + x.2) 0

/-- The plane-blocks that hold rows (R195), by their keys: those that serve programmed sorus-blocks. -/
def rowPbs (d : Dev) : List Nat :=
  (d.med.sb.filter (·.2.programmed)).flatMap fun x => (List.range 20).map (serving d.med (x.1 / 1344) (x.1 % 1344))

/-- The plane-blocks whose measurement is overdue (R195): called by a refetch, or not measured within four intervals. -/
def overdueNow (d : Dev) : List Nat :=
  (rowPbs d).filter fun k => d.stw.overdue.contains k || decide ((tget d.med.pb k).meas + 4 * d.stw.now.sentS * 100000000 < d.time)

/-- Plane-blocks the running sweep still has to measure in class C4 (R195). -/
def sentLeft (d : Dev) : Nat :=
  let late := overdueNow d
  ((rowPbs d).filter fun k => decide ((tget d.med.pb k).meas ≤ sweepStart d) && !(late.contains k)).length

/-- Plane-blocks whose verify pass is due (R169). -/
def passesDue (d : Dev) : Nat := d.med.sb.foldl (fun n x => if x.2.st = .full then n + x.2.passLeft.length else n) 0

/-- Valid rows that patrol has not read in this lap (R197). -/
def patrolLeft (d : Dev) : Nat :=
  d.med.sb.foldl (fun n x =>
    if x.1 < d.stw.patPos then n
    else if x.1 = d.stw.patPos then n + (x.2.valid.filter fun y => decide (d.stw.patRow ≤ y.1)).length
    else n + validCount x.2) 0

/-- The patrol quota (R197). -/
def patrolQuota (d : Dev) : Nat :=
  let w := d.stw.now
  let left := patrolLeft d
  let periods := w.patTarget * 3600000 - (d.time - d.stw.lapStart) / 100000
  if 0 < periods then min w.patMax (max w.patMin ((left + periods - 1) / periods)) else w.patMax

/-- The plan of the period that starts (R178–R184), with what it drops at planning (R182). -/
def planPeriod (d : Dev) : Dev :=
  let yield := 16 * d.med.limit / 512
  let lanes := (List.range 128).filter fun l => !readOnlyLane d l
  let used := lanes.foldl (fun t l => tset t l (runSlots d l yield)) ([] : Cnt)
  let cap := lanes.length * yield - sumG used
  let dm := demandsOf (fun l => yield - tget used l) d
  let (g2, rest) := grantHouse (min 512 cap) dm.house
  let hk := min 512 cap - rest
  let want := dm.house.foldl (fun n x => n + sumG x.2) 0
  let missed := dm.house.foldl (fun n x => n + (x.2.foldl (fun n u => n + u.1) 0 - granted g2 x.1)) 0
  let cap3 := cap - hk
  let gc := min dm.gc cap3
  let fl := min dm.floor (cap3 - gc)
  let quiet := d.pwr.mode = .quiet
  let (g4, _) := grantAll (if quiet then 0 else cap3 - gc - fl) (dm.c4.map fun x => (x.1, min x.2.2.1 x.2.2.2))
  let drops := dm.c4.foldl (fun t (x : Nat × Nat × Nat × Nat) => bump t x.2.1 (x.2.2.1 - granted g4 x.1)) ([] : Cnt)
  let left := (g2 ++ [(3, gc), (4, fl)] ++ g4).foldl (fun t (x : Nat × Nat) => tset t x.1 x.2) ([] : Cnt)
  let pq := if d.stw.patrol = .enabled then patrolQuota d else 0
  let per := d.stw.now.sentS * 1000
  let left2 := per - (d.time / 100000) % per
  let sq := if d.stw.patrol = .enabled then (sentLeft d + left2 - 1) / left2 else 0
  let drops := if quiet then bump (bump drops 5 pq) 6 sq else drops
  let d := { d with
    stw.plan := { cap, hk, gc, destage := fl, c4 := sumG g4, left, lanesUsed := used, drops,
                  patrolQ := if quiet then 0 else pq, sentQ := if quiet then 0 else sq,
                  passQ := passesDue d, overQ := (overdueNow d).length, yield }
    stw.dropped := drops.foldl (fun t (x : Nat × Nat) => bump t x.1 x.2) d.stw.dropped
    stw.cnt := bump (bump d.stw.cnt 0) 1 missed
    stw.periodSeq := d.stw.periodSeq + 1
    csh.cnt := bump d.csh.cnt 11 (dm.floor - fl) }
  postIf (decide (gc < dm.gc)) 0x6003 1 d.stw.periodSeq want gc cap d

/-- The end of the running period (R182): unstarted C4 work and unread C4 quotas are dropped and counted, unstarted C2 items
counted; the first period of each 1,000 that dropped anything is recorded. -/
def endPeriod (d : Dev) : Dev :=
  if d.stw.periodSeq = 0 then d else
  let p := d.stw.plan
  let ends := [(9, 0), (8, 1), (7, 2), (6, 3), (5, 4)].foldl (fun t (x : Nat × Nat) => bump t x.2 (tget p.left x.1)) ([] : Cnt)
  let ends := bump (bump ends 5 p.patrolQ) 6 p.sentQ
  let all := ends.foldl (fun t x => bump t x.1 x.2) p.drops
  let c2 := [20, 21, 22, 23, 24, 25, 26, 27, 3, 4].foldl (fun n k => if hasWork d k then n + tget p.left k else n) 0
  let d := { d with
    stw.dropped := ends.foldl (fun t x => bump t x.1 x.2) d.stw.dropped
    stw.cnt := bump d.stw.cnt 1 (c2 + p.passQ + p.overQ)
    stw.plan := { p with left := [], patrolQ := 0, sentQ := 0, passQ := 0, overQ := 0 } }
  let g := d.stw.periodSeq / 1000 + 1
  if all.isEmpty ∨ d.stw.dropGroup = g then d
  else
    let mask := all.foldl (fun n x => n + 2 ^ x.1) 0
    post 0x6002 0 d.stw.periodSeq mask (tsum all (· < 5)) (tsum all (5 ≤ ·)) { d with stw.dropGroup := g }

/-! ### Figures and states (R190–R192, R202, R205) -/

/-- Code of a free-space state. -/
def Free.code : Free → Nat
  | .normal => 0 | .lean => 1 | .critical => 2 | .exhausted => 3

/-- Severity of its record (R207). -/
def Free.sev (f : Free) : Nat := f.code

/-- The free-space figures and state of this period (R190, R191). -/
def freeUpdate (d : Dev) : Dev :=
  let pool := nPool d
  let rdy := nReady d
  let phi := if pool = 0 then 0 else rdy * 10000 / pool
  let inv := d.med.sb.foldl (fun n x =>
    if x.2.st = .closed ∧ x.2.kind = .host ∧ inPool d x.1 then n + (32768 - validCount x.2) else n) 0
  let w := d.stw.now
  let st := freeState d.stw.free w.gcReserve w.critBp w.critExit w.leanBp w.leanExit rdy phi inv
  let was := d.stw.free
  let d := { d with stw.pool := pool, stw.ready := rdy, stw.phi := phi, stw.invalid := inv, stw.free := st }
  postIf (decide (was ≠ st)) 0x6001 st.sev st.code phi rdy (min inv (2 ^ 32 - 1)) d

/-- CYCLES of the plane-blocks that serve pool sorus-blocks (R202, R205); those not listed have none. -/
def poolCycles (d : Dev) : List Nat :=
  (d.med.pb.filter fun x => !x.2.bad && !x.2.retired && (match servedBy d.med.pb (x.1 / 1344 / 4) (x.1 / 1344 % 4) (x.1 % 1344) with
    | some n => inPool d (sbKey (planeAt (x.1 / 1344 / 4) (x.1 / 1344 % 4)).1 n)
    | none => false)).map (·.2.cycles)

/-- CYCLES over the pool: largest, smallest, mean, and the allowance (R202, R205). -/
def cyclesUpdate (d : Dev) : Dev :=
  let xs := poolCycles d
  { d with
    stw.cycMax := xs.foldl max 0
    stw.cycMin := if xs.length < 20 * d.stw.pool then 0 else xs.foldl min (2 ^ 24)
    stw.cycMean := if d.stw.pool = 0 then 0 else xs.foldl (· + ·) 0 / (20 * d.stw.pool)
    stw.allow := 10000000 * lifeValue d.pst.life 4 / 219150 }

/-- Wear leveling turns on or off, and names its source (R202). -/
def wearUpdate (d : Dev) : Dev :=
  let spread := d.stw.cycMax - d.stw.cycMin
  let was := d.stw.wear
  let act := if was then decide (d.stw.now.wearOff < spread) else decide (d.stw.now.wearOn < spread)
  let d := postIf (decide (was ≠ act)) 0x6008 0 (b2n act) d.stw.cycMax d.stw.cycMin d.stw.cycMean { d with stw.wear := act }
  if act ∧ d.stw.free = .normal ∧ !(d.med.sb.any fun x => x.2.role = .wear) then
    match lowestBy (sbCyclesMin d) (((cands d).filter fun x => x.2.role = .none).map (·.1)) with
    | some k => sbMod k (fun b => { b with role := .wear }) d
    | none => d
  else d

/-- Hot fronds that the governor holds now (R205). -/
def heldHot (d : Dev) : Nat :=
  (d.csh.dir.filter fun x => x.2.st = .opn && isHot d x.2.frond && !sealOk d x.2).length

/-- The governor's stage (R205). -/
def govUpdate (d : Dev) : Dev :=
  let m := d.stw.cycMean
  let a := d.stw.allow
  let g := match d.stw.gov with
    | 0 => if a + 1000000 < m then 2 else if a + 250000 < m then 1 else 0
    | 1 => if a + 1000000 < m then 2 else if m ≤ a then 0 else 1
    | _ => if m ≤ a then 0 else if m ≤ a + 750000 then 1 else 2
  let was := d.stw.gov
  let h := heldHot d
  let d := { d with
    stw.gov := g
    stw.held := h
    stw.cnt := bump d.stw.cnt 15 (h - d.stw.held) }
  postIf (decide (was ≠ g)) 0x600F (if g = 2 then 2 else 1) g m a h d

/-- Emptied sorus-blocks get their intents, and a victim is in progress (R186–R188, R194). -/
def victimUpdate (d : Dev) : Dev := victimTake ((d.med.sb.map (·.1)).foldl (fun d k => intentLog k d) d)

/-- Read-only lanes: their rows hold the evacuation role; an emptied one is recorded (R201). -/
def evacUpdate (d : Dev) : Dev :=
  let d := { d with
    med.sb := tmap d.med.sb fun k b =>
      if readOnlyLane d (k / 1344) ∧ !b.valid.isEmpty then { b with role := .evac } else b }
  d.stw.evac.foldl (fun d (x : Nat × Nat) =>
    if (d.med.sb.any fun y => y.1 / 1344 = x.1 && !y.2.valid.isEmpty) then d
    else post 0x600B 2 x.1 1 (tget d.stw.evacRows x.1) (msOf (d.time + 1 - x.2)) { d with stw.evac := tset d.stw.evac x.1 0 }) d

/-- A patrol lap that has passed the last sorus-block ends (R197, R199): the next starts at the next period. -/
def patrolLapEnd (d : Dev) : Dev :=
  let mins := (d.time - d.stw.lapStart) / 6000000000
  let laps := min 65535 (d.stw.laps + 1)
  post 0x6004 0 mins d.stw.patRead d.stw.patRescued d.stw.patSteps
    (fwPut (.patrolLap mins laps) { d with stw.lastMin := mins, stw.laps := laps, stw.lapOver := true })

/-- The next patrol lap starts (R197). -/
def patrolLapStart (d : Dev) : Dev :=
  if !d.stw.lapOver then d
  else { d with
    stw.lapOver := false
    stw.lapStart := d.time
    stw.patPos := 0
    stw.patRow := 0
    stw.patRead := 0
    stw.patRescued := 0
    stw.patSteps := 0
    stw.lateDays := 0 }

/-- A checkpoint lap starts at the first period after the previous anchor row (R77). -/
def lapStart (transit : Bool) (d : Dev) : Dev :=
  if d.map.lap.isSome then d
  else { d with map.lap := some { area := 1 - d.map.area, js := d.map.jseq, startT := d.time, ver0 := d.sec.ver, bseq0 := d.med.bseq, transit } }

/-- Settings written since the last period take effect (R36). -/
def periodSettings (d : Dev) : Dev :=
  { d with
    stw.now := d.stw.set
    csh.fLowNow := d.csh.fLow
    csh.fMidNow := d.csh.fMid
    csh.fHighNow := d.csh.fHigh
    csh.fDrainNow := d.csh.fDrain
    csh.minAgeNow := d.csh.minAge
    med.rStallNow := d.med.rStall
    med.pStallNow := d.med.pStall
    med.minProgNow := d.med.minProg
    med.minResetNow := d.med.minReset }

/-- PERIOD_START (R177): the old period ends, settings take effect, the figures and states are set, the plan is made. -/
def periodStart (d : Dev) : Dev :=
  if !d.periodsOn then d else
  let d := endPeriod d
  let d := periodSettings { d with time := alignUp 100000 d.time }
  let d := patrolLapStart (rescueSweep d)
  let d := { d with
    med.blogAt := d.med.blogBuf.length
    csh.pace := d.csh.destaged
    csh.destaged := 0 }
  let d := govUpdate (wearUpdate (cyclesUpdate (freeUpdate d)))
  let d := lapStart false (evacUpdate (victimUpdate d))
  let d := if d.stw.patrol = .enabled ∧ 0 < d.stw.patRead ∧ patrolLeft d = 0 ∧ !d.stw.lapOver then patrolLapEnd d else d
  resetKick (waveKick (admitEval (planPeriod d)))

/-- Meaning of PERIOD_START (R177–R192). -/
def execPeriodStart (s : State) : Ans := run periodStart s

/-! ### Drift (R195, R196) -/

/-- A sorus-block enters the refresh role, or escalates (R188, R196). -/
def refreshQueue (nsb step : Nat) (c2 : Bool) (d : Dev) : Dev :=
  let r := (tget d.med.sb nsb).role
  let new : Role := if c2 then (if r = .evac then r else .escalated) else (match r with
    | .none | .wear => .refresh
    | x => x)
  if new = r then d
  else post 0x6007 0 nsb step (b2n c2) 0 (sbMod nsb (fun b => { b with role := new }) d)

/-- Raises a plane-block's step and queues the refresh its threshold calls for. -/
def stepRaise (nsb pos step : Nat) (d : Dev) : Dev :=
  let k := serving d.med (nsb / 1344) (nsb % 1344) pos
  let st := max (tget d.med.pb k).step (min 15 step)
  let d := { d with med.pb := tmod d.med.pb k fun b => { b with step := st } }
  if 14 ≤ st then refreshQueue nsb st true d
  else if d.stw.now.rewrite ≤ st then refreshQueue nsb st false d else d

/-- A plane-block has been measured: in its quota, and no more overdue (R195). -/
def measured (nsb pos : Nat) (d : Dev) : Dev :=
  let k := serving d.med (nsb / 1344) (nsb % 1344) pos
  let late := (overdueNow d).contains k
  mediaGrant (if late then 2 else 4) 2 { d with
    stw.plan.sentQ := if late then d.stw.plan.sentQ else d.stw.plan.sentQ - 1
    stw.plan.overQ := if late then d.stw.plan.overQ - 1 else d.stw.plan.overQ
    stw.overdue := d.stw.overdue.filter (· ≠ k)
    med.pb := tmod d.med.pb k fun b => { b with meas := d.time + 1 } }

/-- Meaning of SENTINEL_MEASUREMENT_DONE (R195, R196). -/
def execSentinelMeasurementDone (nsb pos dcOld dcNew : Nat) (s : State) : Ans :=
  run (fun d =>
    let o := min 15 (dcOld / 16)
    let n := min 15 (dcNew / 16)
    let d := stepRaise nsb pos o (measured nsb pos d)
    if n + 3 < o then refreshQueue nsb o false d else d) s

/-! ### Patrol (R197–R199) -/

/-- A valid row that patrol reads before a row of a sorus-block (R197: ascending n_sb, ascending rows). -/
def patrolAhead (d : Dev) (nsb k : Nat) : Bool :=
  d.med.sb.any fun x => x.2.valid.any fun y =>
    decide (d.stw.patPos * 32768 + d.stw.patRow ≤ x.1 * 32768 + y.1) && decide (x.1 * 32768 + y.1 < nsb * 32768 + k)

/-- A finding of patrol in a row (R198). A metadata row names no frond: nothing of it is poisoned, staged or rescued (DESIGN
CHOICE, log entry 81). What the finding's read meets beyond its kind is free. -/
def patrolFound (nsb k slot : Nat) (f : Finding) (d : Dev) : Dev :=
  let row := tget d.med.rows slot
  let host := decide (row.kind = .host)
  let req (line : Nat) (d : Dev) : Req :=
    { id := d.rp.nextId, org := .back 5, frond := row.frond, line, stage := .media, entry := mapGet d row.frond }
  let cnt (cs : List Nat) (d : Dev) : Dev := { d with rp.cnt := cs.foldl (fun t c => bump t c) d.rp.cnt }
  let rescue (why : Rescue) (d : Dev) : Dev :=
    if host then rescueAdd row.frond why { d with stw.patRescued := d.stw.patRescued + 1 } else d
  match f with
  | .clean => d
  | .stepUp pos line =>
    let st := (tget d.med.pb (serving d.med (nsb / 1344) (nsb % 1344) pos)).step
    let r := req line d
    let d := stepRaise nsb pos (st + 1) (cnt [6, 7] { d with stw.patSteps := d.stw.patSteps + 1, stw.cnt := bump d.stw.cnt 12 })
    post 0x5040 1 r.frond r.packed (2 ^ pos + min 15 (st + 1) * 2 ^ 24) 0 (readLast r 1 d)
  | .recomputed line =>
    let (v, d) := draw (cnt [6, 8, 9] d)
    let r := req line d
    post 0x5041 2 r.frond r.packed (v % 2 ^ 10) (v / 2 ^ 10 % 5100) (readLast r 2 (rescue .recomputed d))
  | .poisoned line =>
    let (v, d) := draw (cnt [6, 8] d)
    let r := req line d
    if host then poisonLine r (v % 5100) { d with stw.patRescued := d.stw.patRescued + 1 }
    else post 0x5042 3 r.frond r.packed 0 (v % 5100) (readLast r 3 (cnt [10] d))
  | .parity col => post 0x6006 1 nsb k col 0 (rescue .parity d)

/-- PATROL_ROW_READ_DONE: the next row of the walk has been read (R197, R198); a row that is no longer valid is skipped. -/
def patrolRow (slot : Nat) (f : Finding) (d : Dev) : Dev :=
  let nsb := slotSb slot
  let k := slotIn slot
  if !d.periodsOn || d.stw.lapOver || decide (d.stw.patrol = .disabled)
      || decide (nsb * 32768 + k < d.stw.patPos * 32768 + d.stw.patRow) || patrolAhead d nsb k then d
  else
    let d := { d with stw.patPos := nsb, stw.patRow := k + 1 }
    let d := if !tget (tget d.med.sb nsb).valid k then d else
      patrolFound nsb k slot f (mediaGrant 4 20 { d with
        stw.plan.patrolQ := d.stw.plan.patrolQ - 1
        stw.patRead := d.stw.patRead + 1
        stw.cnt := bump d.stw.cnt 11 })
    if patrolLeft d = 0 ∧ 0 < d.stw.patRead then patrolLapEnd d else d

/-- Meaning of PATROL_ROW_READ_DONE (R197–R199). -/
def execPatrolRowReadDone (row : Nat) (f : Finding) (s : State) : Ans := run (patrolRow row f) s

/-- Meaning of PATROL_LAP_LATE (R199): at 10 days, and every 24 h until the lap ends. -/
def execPatrolLapLate (s : State) : Ans :=
  run (fun d => post 0x6005 2 ((d.time - d.stw.lapStart) / 6000000000) (patrolLeft d) 0 0
    { d with stw.lateDays := d.stw.lateDays + 1 }) s

/-- Meaning of PATROL_POSITION_SAVE (R197). -/
def execPatrolPositionSave (s : State) : Ans := run (fun d => fwPut (.patrol d.stw.patPos d.stw.lapStart) d) s

/-- Meaning of PATROL_DRAIN_END (R199): Disabled, or the latched enable. -/
def execPatrolDrainEnd (s : State) : Ans :=
  run (fun d => { d with stw.patrol := match d.stw.patrol with
    | .draining => .disabled
    | .pending => .enabled
    | x => x }) s

/-- STW_CTL_PATROL_EN (R199). -/
def patrolEnable (en : Bool) (d : Dev) : Dev :=
  { d with
    stw.patrolEn := en
    stw.patrol := match en, d.stw.patrol with
      | false, .enabled => .draining
      | false, .pending => .draining
      | true, .disabled => .enabled
      | true, .draining => .pending
      | _, x => x }

/-- Meaning of STW_CTL_PATROL_EN (R199). -/
def execStwCtlPatrolEn (en : Bool) (s : State) : Ans := run (gate 4 (patrolEnable en)) s

/-! ### The scrubber (R206) -/

/-- Region number of records 0x600C and 0x600D, in R206's row order. -/
def regionCode : Region → Nat
  | .cushion => 0 | .mapLine => 1 | .refreshParity => 2 | .blockTable => 3 | .openParity => 4 | .bitmap => 5
  | .other => 6 | .onDie => 7

/-- The valid-row bitmap of a sorus-block as the map gives it (R185, R206). -/
def bitmapOf (d : Dev) (key : Nat) : Tab Bool :=
  (d.map.ent.filter fun x => x.2.v && slotSb x.2.slot = key).foldl (fun t x => tset t (slotIn x.2.slot) true) []

/-- A cushion line lost in both mirrors: Poisoned, recorded as R103 gives. The address is frond · 64 + line. -/
def scrubPoison (addr : Nat) (mask : BitVec 64) (d : Dev) : Dev :=
  let f := addr / 64
  let l := addr % 64
  match slotFind d f with
  | some (k, s) =>
    if (tget s.lines l).st = .absent then d
    else
      let d := post 0x4041 3 f (l + 2 * 256 + 5 * 65536) (mask.toNat % 2 ^ 32) (mask.toNat / 2 ^ 32)
        { d with rp.cnt := bump d.rp.cnt 13 }
      setFlags f (sparseFree f l (pidxAdd f (BitVec.ofNat 64 (2 ^ l))
        { d with csh.dir := tset d.csh.dir k { s with lines := tmod s.lines l fun x => { x with st := .poisoned } } }))
  | none => d

/-- An uncorrectable entry of an on-die table meets the table's own rule (R206). The manual does not say how an entry is
addressed: [39:32] names the table (0 frond cache way, 1 cushion directory, 2 sparse table, 3 substitution table,
4 recorder log, 5 protected area, 6 snoop filter), [31:0] the entry (log entry 29). DESIGN CHOICE: record 0x4017 names set 0 and the
entry as way for an overflow entry (log entry 83). -/
def scrubTable (addr : Nat) (d : Dev) : Dev :=
  let a := addr % 2 ^ 32
  match addr / 2 ^ 32 with
  | 0 => match (tget d.map.cache (a / 16)).ways.find? (·.1 = a % 16) with
    | some (w, some _) => post 0x3023 1 (a / 16) w 0 0 { d with
        map.cache := tmod d.map.cache (a / 16) fun s => { s with ways := tset s.ways w none }
        map.cnt := bump d.map.cnt 2 }
    | _ => d
  | 1 => fatal 0x4017 (if a < ovfBase then a / 2 ^ 20 else 6) (if a < ovfBase then a % 2 ^ 20 / 16 else 0)
      (if a < ovfBase then a % 16 else a - ovfBase) 0 d
  | 2 => match d.csh.sparse.find? (·.1 = a) with
    | some (_, m) => scrubPoison (m.frond * 64 + m.line) (BitVec.allOnes 64) d
    | none => d
  | 3 => fatal 0x500B (a / 1024) (a % 1024) 0 0 d
  | 4 => { d with evr.corrupt := if a ∈ d.evr.corrupt then d.evr.corrupt else d.evr.corrupt ++ [a] }
  | 5 => { d with evr.corrupt := if 65536 + a ∈ d.evr.corrupt then d.evr.corrupt else d.evr.corrupt ++ [65536 + a] }
  | 6 => fatal 0x1021 (a / 16) (a % 16) 0 0 d
  | _ => d

/-- An entry of the block table lost in both mirrors: reloaded from the latest block image and log (R161, R206, log entry 99). -/
def blockReload (i : Nat) (d : Dev) : Dev :=
  let x := tget (blogReplay (imgLatest d).pb (imgLatest d).sb (d.med.blog ++ d.med.blogBuf)).1 i
  { d with med.pb := tmod d.med.pb i fun b =>
      { b with bad := x.bad, retired := x.retired, cycles := x.cycles, subst := x.subst } }

/-- The scrubber's laps (R206): a read that lies before the one before it in region order and address begins a new lap, and the
time of the one that ends is recorded (DESIGN CHOICE, log entry 84). -/
def scrubLap (region : Region) (addr : Nat) (d : Dev) : Dev :=
  let r := regionCode region
  if region = .onDie then
    if addr < d.stw.sramAt then
      { d with stw.sramAt := addr, stw.sramLapMs := msOf (d.time - d.stw.sramT), stw.sramT := d.time }
    else { d with stw.sramAt := addr }
  else if r < d.stw.scrubAt.1 ∨ (r = d.stw.scrubAt.1 ∧ addr < d.stw.scrubAt.2) then
    { d with stw.scrubAt := (r, addr), stw.dramLapS := (d.time - d.stw.scrubT) / 100000000, stw.scrubT := d.time }
  else { d with stw.scrubAt := (r, addr) }

/-- SCRUB_READ: what the scrubber meets and does (R206). The address names a sorus-block for open parity and bitmaps, a map
line for map lines, its pair for their parity, a plane-block for the block table, frond · 64 + line for cushion lines. -/
def scrubRead (region : Region) (addr : Nat) (mask : BitVec 64) (found : Scrub) (d : Dev) : Dev :=
  let rec0 (code sev c : Nat) (d : Dev) : Dev :=
    post code sev (regionCode region) (addr % 2 ^ 32) (addr / 2 ^ 32 % 256) (mask.toNat % 2 ^ 32) { d with stw.cnt := bump d.stw.cnt c }
  let fix (both : Bool) (d : Dev) : Dev := match region with
    | .cushion => if both then scrubPoison addr mask d else d
    | .mapLine =>
      if both ∧ tget d.map.err addr = none then
        { d with map.err := tset d.map.err addr (some (if recomputes d < 4 then .recompute else .waiting)) }
      else d
    | .refreshParity => { d with map.par := tset d.map.par addr (mapBits d (2 * addr) ^^^ mapBits d (2 * addr + 1)) }
    | .blockTable => if both then blockReload addr d else d
    | .openParity => if (tget d.med.sb addr).buffer then sbMod addr (fun b => { b with buffer := false, xor := [] }) d else d
    | .bitmap =>
      if both then sbMod addr (fun b => { b with valid := if b.kind = .host then bitmapOf d addr else b.valid, out := false }) d
      else sbMod addr (fun b => { b with out := true }) d
    | .onDie => if both then scrubTable addr d else d
    | _ => d
  let d := scrubLap region addr d
  match found with
  | .clean | .abandoned => d
  | .single => fix false (rec0 0x600C 1 13 d)
  | .both => fix true (rec0 0x600D 2 14 d)

/-- Meaning of SCRUB_READ (R206). -/
def execScrubRead (region : Region) (addr : Nat) (mask : BitVec 64) (found : Scrub) (s : State) : Ans :=
  run (scrubRead region addr mask found) s

/-- Meaning of SCRUB_LAP_LATE (R206). -/
def execScrubLapLate (sram : Bool) (seconds : Nat) (s : State) : Ans :=
  run (fun d => post 0x600E 1 (b2n sram) seconds 0 0 d) s

/-! ### Diagnostic reads (R174) -/

/-- A raw read starts; ignored while one is in progress (R174). -/
def medDiagGo (d : Dev) : Dev := if d.med.diagBusy then d else { d with med.diagBusy := true, med.diagDone := false }

/-- Meaning of MED_DIAG_CMD_GO (R174). -/
def execMedDiagCmdGo (s : State) : Ans :=
  run (gate 3 medDiagGo) s

/-- The status of R174, first that holds, and what was read: the row whose sector stands there, with its index. MED_DIAG_ADDR is
taken as it stands when the read ends (DESIGN CHOICE, log entry 85). -/
def diagRead (d : Dev) : Nat × Option (Row × Nat) :=
  let a := d.med.diagAddr
  let c := bits a 5 0
  let die := 16 * c + bits a 9 6
  let plane := bits a 11 10
  let n := bits a 22 12
  let (lane, pos) := planeAt die plane
  let pb := tget d.med.pb (pbKey die plane n)
  if 40 ≤ c ∨ 1344 ≤ n then (7, none)
  else if (tget d.med.dies die).failed then (6, none)
  else if pb.bad ∨ pb.retired then (5, none)
  else
    let at_ := servedBy d.med.pb die plane n
    let sb := at_.map fun b => tget d.med.sb (sbKey lane b)
    let op := opAt d lane pos
    if op.any (·.stalled) then (3, none)
    else if op.any fun o => o.reset && decide (at_ = some (o.nsb % 1344)) then (1, none)
    else if sb.any fun b => b.st = .resetting then (2, none)
    else match at_ with
      | none => (0, none)
      | some b =>
        let slot := mkSlot (lane / 4) b (bits a 32 23) plane (bits a 37 33)
        (0, (rowAt d slot pos).map fun r => (r, sectAt (slotRow slot) pos))

/-- MED_DIAG_DONE: the raw read ends; a protected sector is refused (R174, R221); bytes of an unprogrammed sector are free. -/
def medDiagDone (d : Dev) : Dev :=
  if !d.med.diagBusy then d else
  let (code, what) := diagRead d
  let a := d.med.diagAddr
  let (lane, pos) := planeAt (16 * bits a 5 0 + bits a 9 6) (bits a 11 10)
  let d := { d with med.cnt := bump d.med.cnt 13 }
  let d := if code ≤ 1 then opSuspend lane pos d else d
  let fin (code : Nat) (data : List Byte) (d : Dev) : Dev :=
    { d with med.diagBusy := false, med.diagDone := true, med.diagCode := code, med.diagData := data }
  match code, what with
  | 0, some (row, s) =>
    if s < 16 ∧ 1 ≤ row.kslot ∧ row.kind = .host then
      let r := ((rangeOf d row.frond).map (·.1)).getD 127
      let adr := ringAddr d.srn.index row.frond (4 * s)
      fin 4 [] (post 0x7010 2 2 (adr / 65536) (adr % 65536) r { d with sec.cnt := bump d.sec.cnt 4 })
    else fin 0 (sectorOf row s) (mediaGrant 5 1 d)
  | 0, none => let (v, d) := draw d
    fin 0 (toLe 320 v) d
  | c, _ => fin c [] d

/-- Meaning of MED_DIAG_DONE (R174). -/
def execMedDiagDone (s : State) : Ans := run medDiagDone s

end Sys2Proof.Machine
end

