-- ==== Sys2Proof/Machine/Regs.lean ====
section
/-! DEFINITION. Machine/Regs.lean: the register window of BAR2 (R13–R16, R33–R36): which blocks answer in which mode, what
every register reads (R62, R90, R115, R147, R176, R208, R240, R264, R297, R324, R338, R361, R381, R401, R428, R449), and what
a write to one does. -/

namespace Sys2Proof.Machine

/-! ### Fields -/

/-- A field [hi:lo] holding a value, cut to its width. -/
def fld (hi lo v : Nat) : Nat := v % 2 ^ (hi + 1 - lo) * 2 ^ lo

/-- A field [hi:lo] holding a value, saturating. -/
def sfld (hi lo v : Nat) : Nat := sat (hi + 1 - lo) v * 2 ^ lo

/-- A one-bit field. -/
def bfld (i : Nat) (b : Bool) : Nat := b2n b * 2 ^ i

/-- The parameter store has been read: the P fields hold their values (R14). -/
def paramsLoaded (d : Dev) : Bool := d.pwr.unfurl ≠ .booting && d.pwr.unfurl ≠ .noBoot

/-- A P field reads zero until Unfurl loads it (R14). -/
def pf (d : Dev) (v : Nat) : Nat := if paramsLoaded d then v else 0

/-- A group of n like registers: block offset of the first, distance, what register i reads. -/
structure Reg where
  base : Nat
  stride : Nat := 8
  n : Nat := 1
  val : Dev → Nat → Nat

/-- A block of saturating 64-bit counters. -/
def cntReg (base n : Nat) (c : Dev → Cnt) : Reg := { base, n, val := fun d i => sat 64 (tget (c d) i) }

/-! ### What each block reads -/

/-- LDG and MAP at 0x0010_0000 (R62, R90). -/
def regsLdgMap : List Reg := [
  { base := 0x0, val := fun _ _ => fld 9 0 400 + fld 19 10 96 + fld 29 20 288 + fld 39 30 100 },
  { base := 0x40, n := 8, val := fun d i => fld 9 0 (d.ldg.bud.getD i 0) + fld 25 16 ([45, 8, 72, 160, 24, 40, 51, 72].getD i 0) },
  { base := 0x80, n := 8, val := fun d i => sfld 15 0 (tget d.ldg.xtrmMax i) + sfld 47 16 (tget d.ldg.xtrmExc i) },
  { base := 0x100, n := 16, val := fun d i => sat 64 (tget d.ldg.ovr i) },
  { base := 0x180, val := fun d _ => fld 3 0 d.ldg.lastCause + fld 6 4 d.ldg.lastCls + sfld 63 32 d.ldg.lastCc },
  { base := 0x188, val := fun d _ => fld 13 0 d.ldg.env },
  { base := 0x190, val := fun d _ => sat 64 d.ldg.envMiss },
  { base := 0x198, val := fun d _ => fld 13 0 d.ldg.sliceB0 + fld 27 14 d.ldg.sliceW + fld 41 28 d.ldg.sliceF },
  { base := 0x1A0, val := fun d _ => fld 6 0 d.ldg.uOpt + fld 14 8 d.ldg.uMod + fld 22 16 d.ldg.oOpt + fld 30 24 d.ldg.oMod
      + fld 33 32 d.ldg.devload },
  { base := 0x80000, val := fun _ _ => fld 32 0 (2 ^ 32) + fld 37 33 20 + fld 42 38 16 },
  { base := 0x80008, val := fun d _ => pf d (fld 32 0 d.map.limit) },
  { base := 0x80018, val := fun d _ => pf d (fld 0 0 d.map.area) + bfld 1 d.map.lap.isSome
      + (match d.map.lap with
        | some l => fld 24 2 l.fronds
        | none => 0) + sfld 63 32 d.map.lastLapMs },
  { base := 0x80020, val := fun d _ => pf d (sat 64 d.map.lapSeq) },
  { base := 0x80028, val := fun d _ => pf d (fld 55 0 d.map.jseq) },
  { base := 0x80030, val := fun d _ => fld 22 0 d.map.tail.length + fld 46 32 (d.map.mediaJ.length / 65536) },
  { base := 0x80038, val := fun d _ => fld 31 0 d.map.peek },
  { base := 0x80040, val := fun d _ => fld 39 0 d.map.peekEnt.pack + fld 55 40 d.map.peekSeq + bfld 63 d.map.peekValid },
  cntReg 0x80080 11 (·.map.cnt)]

/-- CSH at 0x0020_0000 (R147). -/
def regsCsh : List Reg := [
  { base := 0x0, val := fun _ _ => fld 22 0 6291456 + fld 36 23 8192 + fld 57 37 1048576 },
  { base := 0x10, val := fun d _ => fld 22 0 (occ d) + fld 36 23 (occOvf d) + fld 57 37 (occSparse d) },
  { base := 0x18, val := fun d _ => fld 22 0 d.csh.d + fld 45 23 d.csh.hw + fld 63 48 d.csh.em },
  { base := 0x20, val := fun d _ => fld 6 0 d.csh.hwPct },
  { base := 0x28, val := fun d _ => fld 2 0 (admitState d) + fld 8 3 (guardMask d) + fld 25 16 d.csh.credHost
      + (if d.isM then 0 else fld 34 26 d.csh.credW + fld 43 35 d.csh.credE) },
  { base := 0x30, val := fun d _ => fld 11 0 d.csh.fLow + fld 23 12 d.csh.fMid + fld 35 24 d.csh.fHigh + fld 47 36 d.csh.fDrain },
  { base := 0x38, val := fun d _ => fld 15 0 d.csh.minAge },
  { base := 0x40, val := fun d _ => pf d (fld 63 0 d.csh.gen) },
  cntReg 0x80 14 (·.csh.cnt)]

/-- Lanes that are not Read-only. -/
def writableLanes (d : Dev) : Nat := ((List.range 128).filter fun l => !readOnlyLane d l).length

/-- Substitution entries in use (R157). -/
def substUsed (d : Dev) : Nat := (d.med.pb.filter fun x => x.2.subst.isSome).length

/-- State of a lane (R165, R176). -/
def laneState (d : Dev) (l : Nat) : Nat :=
  if d.pwr.dumping then 4
  else if readOnlyLane d l then 3
  else match (tget d.med.lanes l).st with
    | .idle => 0 | .programming => 1 | .resetting => 2 | .readOnly => 3 | .dump => 4

/-- MED at 0x0030_0000, the read path at +0xE_0000 (R115, R176). -/
def regsMed : List Reg := [
  { base := 0x0, val := fun _ _ => fld 5 0 40 + fld 10 6 16 + fld 13 11 4 + fld 24 14 1344 + fld 35 25 1024 + fld 41 36 32 },
  { base := 0x10, val := fun d _ => fld 10 0 d.med.limit + fld 21 11 (busyNow d) + fld 32 22 d.med.peak + fld 43 33 1024 },
  { base := 0x18, val := fun d _ => fld 15 0 d.med.rStall + fld 31 16 d.med.pStall + fld 39 32 d.med.minProg
      + fld 55 40 d.med.minReset },
  { base := 0x20, val := fun d _ => pf d (fld 17 0 (substUsed d)
      + fld 28 18 (((List.range 128).map (bankUsed d)).foldl max 0)) },
  { base := 0x28, val := fun d _ => pf d (fld 8 0 (2 * writableLanes d)
      + fld 17 9 (d.med.sb.filter fun x => x.2.st = .spore).length) },
  { base := 0x30, val := fun d _ => pf d (fld 39 0 d.med.bseq) },
  cntReg 0x80 16 (·.med.cnt),
  { base := 0x1000, n := 128, val := fun d i =>
      fld 19 0 (busyMask d i).toNat + fld 22 20 (laneState d i)
      + pf d (match (tget d.med.lanes i).opn with
        | some b => fld 33 23 b + fld 43 34 (tget d.med.sb (sbKey i b)).page
        | none => fld 33 23 2047) + fld 63 44 (suspMask d i).toNat },
  { base := 0x2000, n := 640, val := fun d i => pf d (bfld 0 (tget d.med.dies i).failed + sfld 31 8 (tget d.med.dies i).ops) },
  { base := 0x4000, val := fun d _ => fld 37 0 d.med.diagAddr },
  { base := 0x4010, val := fun d _ => bfld 0 d.med.diagDone + bfld 1 d.med.diagBusy + fld 4 2 d.med.diagCode },
  { base := 0x4040, n := 40, val := fun d i => if d.med.diagDone ∧ d.med.diagCode = 0 then le d.med.diagData (8 * i) 8 else 0 },
  { base := 0xE0008, val := fun d _ => fld 8 0 d.rp.stage.length + sfld 63 32 d.rp.full },
  { base := 0xE0010, val := fun d _ => fld 31 0 d.rp.lastFrond + fld 37 32 d.rp.lastLine + fld 39 38 d.rp.lastStage
      + fld 42 40 d.rp.lastRoute + fld 45 43 d.rp.lastCls },
  cntReg 0xE0040 14 (·.rp.cnt)]

/-- Whole minutes of a tick count. -/
def minutesOf (ticks : Nat) : Nat := ticks / 6000000000

/-- Code of the patrol state (R208). -/
def Patrol.code : Patrol → Nat
  | .disabled => 0 | .draining => 1 | .enabled => 2 | .pending => 3

/-- STW_CYCLES. -/
def stwCycles (d : Dev) : Nat := sfld 23 0 d.stw.cycMax + sfld 47 24 d.stw.cycMin
/-- STW_CYCLES_MEAN. -/
def stwMean (d : Dev) : Nat := sfld 23 0 d.stw.cycMean + sfld 47 24 d.stw.allow
/-- STW_POOL. -/
def stwPool (d : Dev) : Nat := fld 17 0 d.stw.pool + fld 35 18 d.stw.ready + fld 49 36 d.stw.phi
/-- STW_PATROL_STAT. -/
def stwPatrolStat (d : Dev) : Nat :=
  pf d (sfld 23 0 d.stw.lastMin + sfld 47 24 (minutesOf (d.time - d.stw.lapStart)) + sfld 63 48 d.stw.laps)
/-- STW_RETIRE. -/
def stwRetire (d : Dev) : Nat :=
  fld 23 0 d.stw.set.retire + pf d (fld 41 24 (d.med.pb.filter fun x => x.2.retired).length + fld 59 42 (d.med.sb.filter fun x => x.2.donor).length)

/-- STW at 0x0040_0000 (R208). -/
def regsStw : List Reg := [
  { base := 0x0, val := fun _ _ => fld 16 0 100000 + fld 21 17 16 + fld 39 22 172032 },
  { base := 0x8, val := fun d _ => bfld 1 d.stw.patrolEn },
  { base := 0x10, val := fun d _ => fld 2 0 d.stw.free.code + fld 4 3 d.stw.patrol.code + bfld 5 d.stw.wear + fld 7 6 d.stw.gov
      + pf d (bfld 8 d.stw.refused) },
  { base := 0x18, val := fun d _ => stwPool d },
  { base := 0x20, val := fun d _ => fld 32 0 d.stw.invalid },
  { base := 0x28, val := fun d _ => fld 13 0 d.stw.set.leanBp + fld 27 14 d.stw.set.critBp + fld 41 28 d.stw.set.leanExit
      + fld 55 42 d.stw.set.critExit },
  { base := 0x30, val := fun d _ => fld 13 0 d.stw.set.gcTarget + fld 23 14 d.stw.set.gcBase + fld 27 24 d.stw.set.gcGain
      + fld 39 28 d.stw.set.gcMax + fld 49 40 d.stw.set.gcReserve },
  { base := 0x38, val := fun d _ => fld 17 0 d.stw.victim
      + (if d.stw.victim = 262143 then 0 else fld 33 18 (validCount (tget d.med.sb d.stw.victim)))
      + fld 43 34 (((cands d).map fun x => bucketOf d x.1 x.2).foldl min 1023 % 1023) },
  { base := 0x40, val := fun d _ => fld 11 0 d.stw.plan.cap + fld 23 12 d.stw.plan.hk + fld 35 24 d.stw.plan.gc
      + fld 47 36 d.stw.plan.destage + fld 59 48 d.stw.plan.c4 },
  { base := 0x48, val := fun d _ => fld 63 0 d.stw.periodSeq },
  { base := 0x50, val := fun d _ => fld 23 0 d.stw.set.wearOn + fld 47 24 d.stw.set.wearOff },
  { base := 0x58, val := fun d _ => stwCycles d },
  { base := 0x60, val := fun d _ => stwMean d },
  { base := 0x68, val := fun d _ => fld 8 0 d.stw.set.patTarget + fld 18 9 d.stw.set.patMin + fld 28 19 d.stw.set.patMax },
  { base := 0x70, val := fun d _ => stwPatrolStat d },
  { base := 0x78, val := fun d _ => fld 3 0 d.stw.set.rewrite + fld 7 4 14 + fld 23 8 d.stw.set.sentS },
  { base := 0x80, val := fun d _ => fld 7 0 d.stw.set.scrubRate + sfld 31 8 d.stw.dramLapS + sfld 55 32 d.stw.sramLapMs },
  { base := 0x88, val := fun d _ => fld 7 0 d.stw.set.hot + fld 23 8 d.stw.set.holdMs + fld 39 24 d.stw.held },
  { base := 0x90, val := fun d _ => stwRetire d },
  { base := 0x98, val := fun d _ => fld 16 0 d.stw.rescue.length },
  cntReg 0x100 7 (·.stw.dropped),
  cntReg 0x180 16 (·.stw.cnt)]

/-- Code of a key slot's state. -/
def KSt.code : KSt → Nat
  | .empty => 0 | .loaded => 1 | .faulted => 2

/-- Code of a range's state (R240). -/
def RangeSt.code : RangeSt → Nat
  | .closed => 0 | .opn => 1 | .rekeying => 2 | .closing => 3

/-- SEC at 0x0050_0000 (R240). -/
def regsSec : List Reg := [
  { base := 0x0, val := fun _ _ => fld 6 0 64 + fld 13 7 64 + fld 16 14 4 + fld 23 17 64 },
  { base := 0x10, val := fun d _ => pf d (fld 5 0 ((List.range 63).filter fun k => (tget d.sec.slots (k + 1)).st = .empty).length
      + fld 8 6 (rekeysRunning d) + bfld 9 d.sec.cushLoaded) },
  { base := 0x18, val := fun d _ => pf d (fld 55 0 d.sec.ver) },
  { base := 0x20, val := fun d _ => pf d (fld 16 0 d.sec.pidx.length + bfld 17 d.sec.povf) },
  { base := 0x28, val := fun d _ => pf d (fld 10 0 d.sec.frozen.length) },
  cntReg 0x80 14 (·.sec.cnt),
  { base := 0x100, n := 64, val := fun d i => let k := tget d.sec.slots i
      pf d (fld 1 0 k.st.code + fld 3 2 k.role + fld 10 4 k.range + fld 63 32 k.keyid) },
  { base := 0x300, val := fun d _ => pf d (fld 63 32 d.sec.cushKey) },
  { base := 0x1000, stride := 16, n := 64, val := fun d i => let r := tget d.sec.ranges i
      pf d (fld 31 0 r.base + fld 63 32 r.last) },
  { base := 0x1008, stride := 16, n := 64, val := fun d i => let r := tget d.sec.ranges i
      let b := if r.walks then r.boundary else r.last + 1
      pf d (fld 1 0 r.st.code + bfld 2 r.engineRead + bfld 3 r.lock + bfld 4 r.faulted + fld 13 8 r.cur
        + (if r.st = .rekeying ∨ r.st = .closing then fld 21 16 r.old else 0) + sfld 63 32 b) }]

/-- HST at 0x0060_0000 (R264). -/
def regsHst : List Reg := [
  { base := 0x0, val := fun d _ => fld 4 0 16 + fld 11 5 64 + fld 14 12 4 + bfld 15 (!d.isM) + (if d.isM then 0 else fld 20 16 21)
      + fld 36 21 250 + fld 39 37 2 },
  { base := 0x10, val := fun d _ => (if d.hst.up then fld 4 0 d.hst.width + fld 11 5 d.hst.rate + fld 13 12 d.hst.flit else 0)
      + bfld 14 d.hst.credHeld + fld 17 15 (b2n (tget d.hst.ide 0).insecure + 2 * b2n (tget d.hst.ide 1).insecure
        + 4 * b2n (tget d.hst.ide 2).insecure) + bfld 18 d.hst.cdatChanged },
  { base := 0x18, val := fun d _ => fld 21 0 (sfUsed d) + fld 34 22 (victims d) + fld 47 35 d.hst.sfPeak },
  { base := 0x20, val := fun d _ => fld 12 0 d.hst.thHigh + fld 25 13 d.hst.thLow },
  { base := 0x40, n := 4, val := fun d i => let x := tget d.hst.decs i
      fld 19 0 (decWinBase d i / 2 ^ 28) + fld 40 20 (x.size / 2 ^ 28)
      + fld 42 41 (match x.st with
        | .uncommitted => 0 | .claiming => 1 | .committed => 2 | .refused => 3)
      + fld 46 43 x.reason + fld 51 47 x.peer + fld 53 52 x.peerDec },
  { base := 0x100, n := 64, val := fun d i => match d.hst.wins[i]? with
      | some (w, st) => fld 19 0 w.base + fld 40 20 w.size + fld 44 41 w.port + fld 46 45 w.dec + bfld 47 w.db
        + fld 49 48 (match st with
          | .claiming => 1 | .committed => 2)
      | none => 0 },
  cntReg 0x300 8 (·.hst.cnt)]

/-- Code of a port's state (R297). -/
def PortSt.code : PortSt → Nat
  | .down => 0 | .training => 1 | .up => 2 | .draining => 3 | .disabled => 4 | .pending => 5

/-- Code of a member's state (R297). -/
def memCode : MemSt → Nat
  | .absent => 0 | .heldOut => 1 | .joining => 2 | .live => 3 | .leaving => 4

/-- SRN_STATUS. -/
def srnStatus (d : Dev) : Nat :=
  pf d (fld 3 0 d.srn.index + bfld 4 d.srn.indexed) + fld 7 5 d.srn.ring.code + fld 10 8 d.srn.west.st.code
  + fld 13 11 d.srn.east.st.code + bfld 14 d.srn.bypassA + bfld 15 d.srn.bypassB + bfld 16 d.srn.west.wrapped
  + bfld 17 d.srn.east.wrapped + fld 21 18 d.srn.holder + bfld 22 d.srn.splice.isSome + fld 24 23 d.srn.heldReason

/-- SRN_MEMBER_n. The path in use crosses no dead link and is the shortest, so it reaches the member without a turn: FOLDED
reads 0 (R269, R297, log entry 30). -/
def srnMember (d : Dev) (i : Nat) : Nat :=
  let m := tget d.srn.members i
  fld 2 0 (memCode m.st) + fld 6 3 m.pos
  + (match pathTo d i with
    | some (b, h) => if m.st = .live ∧ i ≠ d.srn.index then fld 10 7 h + bfld 11 b else 0
    | none => 0) + fld 14 13 m.variant + fld 63 32 m.serial

/-- SRN_PORT_n. -/
def srnPort (p : RPort) : Nat :=
  fld 3 0 (if p.st = .up then 8 else 0) + fld 7 4 (p.peer.getD 0) + bfld 8 p.peer.isSome + sfld 63 32 p.retrains

/-- SRN at 0x0070_0000 (R297); on TN-1640-M it reads zero. -/
def regsSrn : List Reg := [
  { base := 0x0, val := fun _ _ => fld 4 0 16 + fld 8 5 8 + fld 22 9 10625 + fld 30 23 48 },
  { base := 0x8, val := fun d _ => bfld 1 d.srn.west.en + bfld 2 d.srn.east.en },
  { base := 0x10, val := fun d _ => srnStatus d },
  { base := 0x18, val := fun d _ => pf d (fld 63 0 d.srn.ringId) },
  { base := 0x20, val := fun d _ => fld 1 0 d.srn.epoch + fld 63 32 d.srn.keyid },
  { base := 0x28, val := fun d _ => fld 63 0 d.srn.seqNext },
  { base := 0x30, val := fun d _ => fld 7 0 d.srn.retryUs + fld 11 8 d.srn.attempts + fld 19 12 d.srn.holdMs },
  { base := 0x100, n := 16, val := srnMember },
  { base := 0x200, n := 2, val := fun d i => srnPort (if i = 0 then d.srn.west else d.srn.east) },
  cntReg 0x300 16 (·.srn.cnt)]

/-- Code of a unit's state (R324). -/
def UnitSt.code : UnitSt → Nat
  | .disabled => 0 | .draining => 1 | .enabled => 2 | .pending => 3 | .faulted => 4

/-- The EN bit of a queue: the last value written. -/
def UnitSt.en : UnitSt → Bool
  | .enabled | .pending => true
  | _ => false

/-- OPE_CAPS. -/
def opeCaps (d : Dev) : Nat :=
  fld 4 0 d.engines + fld 11 5 (queues d) + fld 18 12 (queues d) + fld 23 19 16 + fld 37 24 8192 + fld 43 38 8 + fld 56 44 4096

/-- OPE_ADMIT. -/
def opeAdmit (d : Dev) : Nat :=
  fld 6 0 d.ope.set.pct + fld 22 7 d.ope.set.minTicks + fld 33 23 d.ope.tasks.length
  + fld 44 34 (d.ope.tasks.filter fun t => t.sub.isSome).length

/-- OPE_FAN. -/
def opeFan (d : Dev) : Nat :=
  fld 15 0 d.ope.set.margin + fld 21 16 d.ope.set.cells
  + fld 32 22 (d.ope.tasks.foldl (fun n t => n + (t.subs.filter fun x => !x.ended).length) 0)

/-- OPE_ENG_e; zero for an absent engine (R4). -/
def opeEng (d : Dev) (e : Nat) : Nat :=
  if d.engines ≤ e then 0 else
  let x := tget d.ope.eng e
  bfld 0 x.en + fld 3 1 x.st.code + bfld 4 x.chunk.isSome
  + (match x.chunk with
    | some c => fld 14 5 c.1
    | none => 0) + sfld 63 32 x.chunks

/-- OPE at 0x0080_0000 (R324); on TN-1640-M it reads zero, and absent queues read zero (R4). -/
def regsOpe : List Reg := [
  { base := 0x0, val := fun d _ => opeCaps d },
  { base := 0x10, val := fun d _ => opeAdmit d },
  { base := 0x18, val := fun d _ => opeFan d },
  { base := 0x20, val := fun d _ => fld 63 0 d.time },
  cntReg 0x80 16 (·.ope.cnt),
  { base := 0x100, n := 16, val := opeEng },
  { base := 0x1000, stride := 32, n := 64, val := fun d q => if queues d ≤ q then 0 else bfld 0 (tget d.ope.tq q).st.en },
  { base := 0x1008, stride := 32, n := 64, val := fun d q => if queues d ≤ q then 0 else fld 4 0 (tget d.ope.tq q).tail },
  { base := 0x1010, stride := 32, n := 64, val := fun d q => if queues d ≤ q then 0 else let x := tget d.ope.tq q
      fld 4 0 x.head + fld 7 5 x.st.code
      + fld 18 8 (d.ope.tasks.filter fun t => t.sub.isNone && t.tq = q).length + fld 47 32 x.lastTag + fld 51 48 x.lastReason },
  { base := 0x10000, n := 16384, val := fun d i => if queues d ≤ i / 256 then 0 else fld 63 0 (tget d.ope.slots i) },
  { base := 0x30000, stride := 32, n := 64, val := fun d r => if queues d ≤ r then 0 else let x := tget d.ope.rq r
      bfld 0 x.st.en + bfld 1 x.spill + fld 14 2 x.pktDef + fld 18 15 x.vec + fld 21 19 x.st.code + fld 44 32 x.baseMib
      + fld 51 45 x.sizeMib },
  { base := 0x30008, stride := 32, n := 64, val := fun d r => if queues d ≤ r then 0 else let x := tget d.ope.rq r
      fld 23 0 x.rd + fld 55 32 ((x.rd + x.words.length) % rqMod x) },
  { base := 0x30010, stride := 32, n := 64, val := fun d r => if queues d ≤ r then 0 else let x := tget d.ope.rq r
      sfld 15 0 x.ce + sfld 31 16 x.ue + fld 47 32 x.ueMask },
  { base := 0x40000, n := 1024, val := fun d i => if queues d ≤ i / 16 then 0 else (tget d.ope.rq (i / 16)).words.getD (i % 16) 0 }]

/-- CPH at 0x0090_0000 (R338). -/
def regsCph : List Reg := [
  { base := 0x0, val := fun _ _ => fld 5 0 32 + fld 14 6 256 + fld 18 15 8 },
  { base := 0x8, val := fun d _ => fld 3 1 d.cph.dummyMax },
  { base := 0x10, val := fun d _ => fld 8 0 d.cph.queue.length + fld 17 9 d.cph.peak
      + fld 22 18 (d.cph.queue.filter fun r => r.origin.code = 0).length
      + fld 30 23 (d.cph.queue.filter fun r => r.origin.code = 2).length
      + fld 38 31 ((List.range 8).foldl (fun m k => if k ∈ d.cph.coresOff then m else m + 2 ^ k) 0) },
  cntReg 0x80 8 (·.cph.cnt),
  { base := 0x100, n := 32, val := fun d i => let x := tget d.cph.slots i
      pf d (fld 1 0 x.st.code + fld 3 2 x.len + bfld 4 (decide (i < 24)) + bfld 5 x.engine + bfld 6 x.exportable
        + bfld 7 x.persist + fld 63 32 x.keyid) + bfld 8 (decide (24 ≤ i)) }]

/-- MBX_TSTAMP's residual, two's complement in 22 bits. -/
def residualField (d : Dev) : Nat := (d.mbx.residual % ((2 : Int) ^ 22)).toNat

/-- PST_PART_n (R381). -/
def pstPart (d : Dev) (p : Nat) : Nat :=
  pf d (sfld 19 0 (tget d.pst.maxCount p) + bfld 20 (decide (p ∈ d.pst.worn))
    + bfld 22 (decide (p < 12) || (tget d.pst.rpw p).isSome) + bfld 23 (decide (p < 12) || (tget d.pst.wpw p).isSome))
  + bfld 21 (decide (12 ≤ p))

/-- BFL_SLOT_n for slot 1 or 2 (R381). -/
def bflSlot (d : Dev) (slot : Nat) : Nat :=
  pf d (fld 1 0 (if slot = 1 then d.bfl.state1 else d.bfl.state2) + bfld 2 (decide (d.bfl.running = slot))
    + fld 34 3 (if slot = 1 then d.bfl.sec1 else d.bfl.sec2))

/-- MBX, PST, and BFL at 0x00A0_0000 (R361, R381). -/
def regsMgmt : List Reg := [
  { base := 0x0, val := fun _ _ => fld 12 0 4096 + bfld 13 true + bfld 14 true + bfld 15 true },
  { base := 0x10, val := fun d _ => match d.mbx.run with
      | some r => bfld 0 true + fld 2 1 (trCode r.tr) + fld 18 3 r.opcode
      | none => 0 },
  { base := 0x18, val := fun d _ => fld 63 0 (progWord d) },
  { base := 0x20, val := fun d _ => fld 47 0 (match d.mbx.latched with
      | some (x, _) => x
      | none => d.mbx.progDone) },
  { base := 0x28, val := fun d _ => fld 47 0 (match d.mbx.latched with
      | some (_, x) => x
      | none => d.mbx.progTotal) },
  { base := 0x30, val := fun d _ => fld 15 0 d.mbx.lastOpcode + fld 31 16 d.mbx.lastRet + fld 33 32 d.mbx.lastTr
      + bfld 34 d.mbx.lastLost + sfld 63 40 d.mbx.lastMs },
  { base := 0x38, val := fun d _ => fld 7 0 d.mbx.eid + fld 14 8 d.mbx.i3cDa },
  { base := 0x40, val := fun d _ => fld 21 0 (residualField d) },
  cntReg 0x80 8 (·.mbx.cnt),
  { base := 0x40000, val := fun _ _ => fld 4 0 16 + fld 15 5 1024 + fld 21 16 32 },
  { base := 0x40010, val := fun d _ => bfld 0 d.pst.writing + bfld 1 (supplyOk d) + fld 13 2 d.pst.auxMv + sfld 25 14 d.pst.holdUj },
  { base := 0x40040, n := 16, val := pstPart },
  { base := 0x40100, n := 8, val := fun d i => pf d (sat 64 (lifeValue d.pst.life i)) },
  cntReg 0x40180 6 (·.pst.cnt),
  { base := 0x80000, val := fun _ _ => fld 10 0 1024 + fld 17 11 64 },
  { base := 0x80010, val := fun d _ => bfld 0 d.bfl.wp + bfld 1 d.bfl.erasing.isSome + bfld 2 d.bfl.suspended
      + fld 12 3 (d.bfl.erasing.getD 0) + bfld 13 d.bfl.programming + pf d (fld 15 14 d.bfl.running + fld 17 16 d.bfl.preferred) },
  { base := 0x80018, val := fun d _ => fld 1 0 d.bfl.div + fld 7 2 d.bfl.dummy + bfld 8 d.bfl.octal },
  { base := 0x80040, n := 2, val := fun d i => bflSlot d (i + 1) },
  cntReg 0x80080 6 (·.bfl.cnt)]

/-- The 32 bytes of a record (R382). -/
def Rec.bytes (r : Rec) : List Byte :=
  toLe 2 r.code ++ toLe 1 r.sev ++ toLe 1 r.flags ++ toLe 4 r.seq ++ toLe 8 r.time ++ toLe 4 r.p0 ++ toLe 4 r.p1
    ++ toLe 4 r.p2 ++ toLe 4 r.p3

/-- Oldest sequence held (R386). -/
def seqOldest (d : Dev) : Nat :=
  let next := if d.evr.frozen then (d.evr.seqNext + 2 ^ 32 - d.evr.hold.length) % 2 ^ 32 else d.evr.seqNext
  if d.evr.wrapped then (next + 2 ^ 32 - 65536) % 2 ^ 32 else 0

/-- Record 0xA003 in place of a corrupt slot or entry (R393). -/
def corruptRec (slot area seq : Nat) : Rec := { code := 0xA003, sev := 2, seq, p0 := slot, p1 := area }

/-- The record a log slot returns, and whether it was substituted (R393). -/
def logRead (d : Dev) (seq : Nat) : Rec × Bool :=
  let k := seq % 65536
  if k ∈ d.evr.corrupt then (corruptRec k 0 seq, true) else (tget d.evr.log k, false)

/-- The record a protected entry returns (R393). -/
def protRead (d : Dev) (i : Nat) : Rec × Bool :=
  match d.evr.prot[i]? with
  | some r => if 65536 + i ∈ d.evr.corrupt then (corruptRec i 1 r.seq, true) else (r, false)
  | none => ({ code := 0, sev := 0 }, false)

/-- EVR at 0x00C0_0000 (R401). -/
def regsEvr : List Reg := [
  { base := 0x0, val := fun _ _ => fld 16 0 65536 + fld 27 17 1024 + fld 34 28 64 + fld 38 35 5 },
  { base := 0x10, val := fun d _ => bfld 0 d.evr.frozen + bfld 1 d.evr.epochSet + bfld 2 d.evr.protFull
      + fld 15 3 d.evr.hold.length },
  { base := 0x18, val := fun d _ => fld 31 0 d.evr.seqNext + fld 63 32 (seqOldest d) },
  { base := 0x20, val := fun d _ => fld 31 0 d.evr.rdSeq },
  { base := 0x28, n := 4, val := fun d i => le (logRead d d.evr.rdSeq).1.bytes (8 * i) 8 },
  { base := 0x48, val := fun d _ => fld 10 0 d.evr.prot.length + sfld 63 32 d.evr.protDropped },
  { base := 0x50, val := fun d _ => fld 9 0 d.evr.prdIdx },
  { base := 0x58, n := 4, val := fun d i => le (protRead d d.evr.prdIdx).1.bytes (8 * i) 8 },
  { base := 0x78, val := fun d _ => bfld 0 d.evr.compatEn + fld 8 1 d.evr.compatLimit + fld 24 9 d.evr.compatMs },
  { base := 0x80, val := fun d _ => fld 15 0 d.evr.winMs },
  { base := 0x88, val := fun d _ => fld 63 0 d.evr.winStart },
  { base := 0x90, val := fun d _ => fld 2 0 d.evr.selCls + bfld 3 d.evr.selLast },
  { base := 0x98, val := fun d _ => fld 12 0 d.evr.flashQ.length + sfld 63 32 d.evr.flashSkipped },
  { base := 0x100, n := 64, val := fun d i =>
      sat 64 (tget (if d.evr.selLast then d.evr.binsLast else d.evr.bins) (64 * d.evr.selCls + i)) },
  { base := 0x300, n := 8, val := fun d i => sfld 31 0 (tget d.evr.ext i) + sfld 63 32 (tget d.evr.extLast i) },
  cntReg 0x400 8 (·.evr.cnt)]

/-- Rated maximum of a rail in W (R431). -/
def railRated (i : Nat) : Nat := [70, 25, 30, 80, 45, 3].getD i 0

/-- PWR_RAIL_n: the last 1 ms mean; the rated maximum when failed (R449). -/
def railMw (d : Dev) (i : Nat) : Nat := if (tget d.pwr.rails i).failed then 1000 * railRated i else (tget d.pwr.rails i).mw

/-- Mean of the latest n 1 ms values of P_mod, in mW. -/
def pMean (d : Dev) (n : Nat) : Nat :=
  let l := d.pwr.pHist.take n
  if l.isEmpty then 0 else l.sum / l.length

/-- A temperature in 0.5 °C, rounded down (R448). -/
def halfDeg (t : Int) : Int := t / 500000000

/-- A number as two's complement in w bits. -/
def twos (w : Nat) (v : Int) : Nat := (v % ((2 : Int) ^ w)).toNat

/-- Code of a store state. -/
def StoreSt.code : StoreSt → Nat
  | .charging => 0 | .healthy => 1 | .derated => 2 | .failed => 3

/-- Trip and re-arm temperatures in °C (R444). -/
def tripC (i : Nat) : Nat := [115, 95, 85, 70].getD i 0
/-- Re-arm temperatures in °C (R444). -/
def rearmC (i : Nat) : Nat := [90, 75, 65, 50].getD i 0
/-- Throttle thresholds at reset in °C (R444). -/
def throttleC (i : Nat) : Nat := [100, 85, 75, 60].getD i 0

/-- The rails that feed a point (R444). -/
def pointFeeds (i : Nat) : List Nat := [[0, 1], [2], [3], [0, 1, 4, 5]].getD i []

/-- A point's temperature: while a monitor that feeds it is failed, no lower than its throttle threshold (R433). -/
def pointHeld (d : Dev) (i : Nat) : Int := match d.pwr.points[i]? with
  | some p => if ((pointFeeds i).any fun k => (tget d.pwr.rails k).failed) then max p.t (p.thNow * 1000000000) else p.t
  | none => 0

/-- THM_POINT_n (R449). -/
def thmPoint (d : Dev) (i : Nat) : Nat := match d.pwr.points[i]? with
  | some p => (if d.pwr.stepped then fld 9 0 (twos 10 (halfDeg (pointHeld d i))) else 0) + fld 17 10 p.th + fld 25 18 (tripC i)
      + fld 33 26 (rearmC i) + (match p.headroom with
        | some h => sfld 57 34 h
        | none => fld 57 34 0xFFFFFF)
  | none => 0

/-- PWR, CLK, and THM at 0x00E0_0000 (R428, R449). -/
def regsPwr : List Reg := [
  { base := 0x0, val := fun _ _ => fld 7 0 200 + fld 15 8 60 + fld 19 16 8 + fld 35 20 6000 },
  { base := 0x10, val := fun d _ => fld 14 0 d.pwr.v12 + fld 27 15 d.pst.auxMv + bfld 28 d.pwr.v12Low },
  { base := 0x40, n := 6, val := fun d i => sfld 19 0 (railMw d i) + fld 27 20 (railRated i) + bfld 28 (tget d.pwr.rails i).failed },
  { base := 0x80, val := fun d _ => fld 7 0 d.pwr.lHost + fld 15 8 d.pwr.lAuto + fld 23 16 d.pwr.lEff + bfld 24 d.pwr.unmet
      + sfld 47 32 (pMean d 1000 / 100) },
  { base := 0x88, val := fun d _ => fld 10 0 d.med.limit + fld 17 11 d.pwr.div },
  { base := 0x90, val := fun d _ => sfld 15 0 d.pwr.em + fld 17 16 d.pwr.store.code + bfld 18 d.pwr.short
      + bfld 19 (decide (d.pwr.testing ≠ 0)) + sfld 47 32 d.pwr.vbank },
  { base := 0x98, val := fun d _ => pf d (sfld 15 0 d.pwr.cm + sfld 31 16 d.pwr.esr) + sfld 63 32 (minutesOf (d.time - d.pwr.testT)) },
  { base := 0x100, val := fun d _ => fld 3 0 d.pwr.mode.code + fld 7 4 d.pwr.prev.code
      + fld 11 8 (match d.pwr.target with
        | some m => m.code
        | none => 15) + bfld 12 d.pwr.target.isSome + fld 15 13 d.pwr.source + bfld 16 d.pwr.armed
      + sfld 63 32 (msOf (d.time - d.pwr.modeT)) },
  cntReg 0x180 6 (·.pwr.pwrCnt),
  { base := 0x40000, val := fun d _ => bfld 0 d.pwr.rootLock + bfld 1 d.pwr.hostLock
      + (if d.isM then 0 else bfld 2 d.pwr.ringWLock + bfld 3 d.pwr.ringELock) + bfld 4 d.pwr.backup },
  { base := 0x40040, n := 7, val := fun d i =>
      let v := if i = 4 then d.pwr.div else [4, 2, 2, 8, 8, 16, 64].getD i 0
      fld 6 0 v + (if v = 0 then 0 else fld 19 7 (6400 / v)) },
  { base := 0x80000, val := fun d _ => fld 7 0 (twos 8 d.pwr.inlet) + fld 10 8 d.pwr.airflow + bfld 11 d.pwr.hostSet },
  { base := 0x80008, val := fun d _ => bfld 0 (decide (d.pwr.lAuto < 200)) + bfld 1 d.pwr.rearmed
      + (List.range 6).foldl (fun m k => if (tget d.pwr.rails k).failed then m + 2 ^ (k + 2) else m) 0 + fld 10 8 d.pwr.tripPoint },
  { base := 0x80040, n := 4, val := thmPoint },
  cntReg 0x80080 4 (·.pwr.thmCnt)]

/-- The registers of each 1 MiB block of BAR2 (R33). -/
def regsOf : Nat → List Reg
  | 1 => regsLdgMap
  | 2 => regsCsh
  | 3 => regsMed
  | 4 => regsStw
  | 5 => regsSec
  | 6 => regsHst
  | 7 => regsSrn
  | 8 => regsOpe
  | 9 => regsCph
  | 10 => regsMgmt
  | 12 => regsEvr
  | 14 => regsPwr
  | _ => []

/-- What a 64-bit read at a BAR2 offset returns: of a block that is powered down, the value it held then (R34); unmapped offsets
and the absent blocks of TN-1640-M read zero (R4, R15). -/
def regRead (d : Dev) (off : Nat) : Nat :=
  let blk := off / 2 ^ 20
  let o := off % 2 ^ 20
  if d.isM ∧ (blk = 7 ∨ blk = 8) then 0
  else match (regsOf blk).find? fun r => decide (r.base ≤ o) && decide ((o - r.base) % r.stride = 0)
      && decide ((o - r.base) / r.stride < r.n) with
    | some r => r.val (lit blk d) ((o - r.base) / r.stride) % 2 ^ 64
    | none => 0

/-- Consecutive registers as the bytes of an answer. -/
def regBytes (d : Dev) (off n : Nat) : List Byte := (List.range n).flatMap fun i => toLe 8 (regRead d (off + 8 * i))

end Sys2Proof.Machine
end

