-- ==== Sys2Proof/Machine/Recorder.lean ====
section
/-! DEFINITION. Machine/Recorder.lean: the event recorder's acceptance, windows, freeze, and commands (R355, R385–R399). -/

namespace Sys2Proof.Machine

/-- Meaning of RECORD_ACCEPT (R385): one acceptance, wherever the recorder is powered. -/
def execRecordAccept (s : State) : Ans := run (fun d => if d.pwr.mode.firmware then acceptOne d else d) s

/-! ### Windows -/

/-- Posts a summary (R395): SUMMARY is set, and the rate limit does not hold it. -/
def postSummary (code sup ms : Nat) (d : Dev) : Dev :=
  if d.evr.buf.length < 240 then
    { d with evr.buf := d.evr.buf ++ [{ code := 0xA001, sev := 0, p0 := code, p1 := sup % 2 ^ 32, p2 := ms, p3 := 0, summary := true }] }
  else { d with evr.cnt := bump d.evr.cnt 2, evr.lostBefore := true }

/-- A compatibility window closes (R395): one summary for each code with suppressions, the code table empties, settings
written since take effect. -/
def compatEnd (d : Dev) : Dev :=
  let d := d.evr.codes.foldl (fun d (c : Nat × Nat × Nat) =>
    if c.2.2 = 0 then d else postSummary c.1 c.2.2 d.evr.compatMsNow d) d
  { d with
    evr.codes := []
    evr.compatEnNow := d.evr.compatEn
    evr.compatLimitNow := d.evr.compatLimit
    evr.compatMsNow := d.evr.compatMs }

/-- Meaning of COMPAT_WINDOW_END (R395). -/
def execCompatWindowEnd (s : State) : Ans :=
  run (fun d => if !d.pwr.mode.firmware then d
    else compatEnd { d with time := alignUp (d.evr.compatMsNow * 100000) d.time }) s

/-- The current histogram window closes now (R399). -/
def histEnd (d : Dev) : Dev :=
  { d with
    evr.binsLast := d.evr.bins
    evr.bins := []
    evr.extLast := d.evr.ext
    evr.ext := []
    evr.lastStart := d.evr.winStart
    evr.lastLen := d.time - d.evr.winStart
    evr.winStart := d.time
    evr.winMsNow := d.evr.winMs }

/-- Meaning of HISTOGRAM_WINDOW_END (R399). -/
def execHistogramWindowEnd (s : State) : Ans :=
  run (fun d => if !d.pwr.mode.firmware then d
    else histEnd { d with time := alignUp (d.evr.winMsNow * 100000) d.time }) s

/-! ### The frozen log (R394) -/

/-- A frozen log thaws by its 10 s timeout, which is recorded. -/
def freezeExpired (d : Dev) : Dev :=
  if d.evr.frozen then post 0xA005 1 d.evr.hold.length d.evr.frozenLost 0 0 (thaw d) else d

/-- Meaning of FREEZE_EXPIRED (R394). -/
def execFreezeExpired (s : State) : Ans := run freezeExpired s

/-- FREEZE_LOG's effect: a freeze starts its hold empty; a freeze of a frozen log changes nothing. -/
def freezeLog (on' : Bool) (d : Dev) : Dev :=
  if !on' then thaw d
  else if d.evr.frozen then d
  else { d with evr.frozen := true, evr.hold := [], evr.frozenLost := 0 }

/-- Meaning of FREEZE_LOG (R355, R394): Unfurl, Recovery, Maintenance. -/
def execFreezeLog (tr : Transport) (p : List Byte) (s : State) : Ans :=
  run (command 0xC501 (if s.dev.pwr.mode = .splice then {} else mUM) false (len 1) (fun p => decide (byte p 0 < 2))
    (fun p d => ret rcOk (freezeLog (byte p 0 = 1) d)) tr p) s

/-! ### Reading (R355, R392, R393) -/

/-- The sequence after the last record in the log: held records are not in it yet (R394). -/
def seqEnd (d : Dev) : Nat :=
  if d.evr.frozen then (d.evr.seqNext + 2 ^ 32 - d.evr.hold.length) % 2 ^ 32 else d.evr.seqNext

/-- Records a READ_LOG returns: the first sequence and how many, counted around 2^32 (R392). -/
def logSpan (d : Dev) (first want : Nat) : Nat × Nat :=
  let old := seqOldest d
  let have' := (seqEnd d + 2 ^ 32 - old) % 2 ^ 32
  let off := (first + 2 ^ 32 - old) % 2 ^ 32
  if 2 ^ 31 ≤ off then (old, min want have')
  else if have' ≤ off then (first, 0)
  else (first, min want (have' - off))

/-- READ_LOG. -/
def readLog (p : List Byte) (d : Dev) : Res × Dev :=
  let sp := logSpan d (le p 0 4) (byte p 4)
  let n := sp.2
  let rs := (List.range n).map fun i => logRead d ((sp.1 + i) % 2 ^ 32)
  let subst := (rs.filter (·.2)).length
  ans rcOk (toLe 4 (seqOldest d) ++ toLe 4 d.evr.seqNext ++ toLe 2 n ++ toLe 6 0 ++ rs.flatMap fun r => r.1.bytes)
    { d with evr.cnt := bump d.evr.cnt 6 subst }

/-- Meaning of READ_LOG (R355, R392, R393). -/
def execReadLog (tr : Transport) (p : List Byte) (s : State) : Ans :=
  run (command 0xC500 mAll false (len 5) (fun p => decide (1 ≤ byte p 4) && decide (byte p 4 ≤ 127)) readLog tr p) s

/-- READ_PROTECTED. -/
def readProtected (p : List Byte) (d : Dev) : Res × Dev :=
  let first := le p 0 2
  let n := min (byte p 2) (d.evr.prot.length - first)
  let rs := (List.range n).map fun i => protRead d (first + i)
  ans rcOk (toLe 2 d.evr.prot.length ++ toLe 2 n ++ toLe 12 0 ++ rs.flatMap fun r => r.1.bytes)
    { d with evr.cnt := bump d.evr.cnt 6 (rs.filter (·.2)).length }

/-- Meaning of READ_PROTECTED (R355, R393). -/
def execReadProtected (tr : Transport) (p : List Byte) (s : State) : Ans :=
  run (command 0xC502 mAll false (len 3) (fun p => decide (1 ≤ byte p 2) && decide (byte p 2 ≤ 127)) readProtected tr p) s

/-- CLEAR_PROTECTED (R388): the area empties, its flag and count clear, record 0xA006. -/
def clearProtected (tr : Transport) (d : Dev) : Dev :=
  post 0xA006 0 d.evr.prot.length d.evr.protDropped (trCode tr) 0
    { d with
      evr.prot := []
      evr.protFull := false
      evr.protDropped := 0
      evr.corrupt := d.evr.corrupt.filter (· < 65536) }

/-- Meaning of CLEAR_PROTECTED (R355, R388). -/
def execClearProtected (tr : Transport) (p : List Byte) (s : State) : Ans :=
  run (command 0xC503 mM false (len 0) (fun _ => true) (fun _ d => ret rcOk (clearProtected tr d)) tr p) s

/-- READ_HISTOGRAM (R355, R399): the window's start and actual length, then the bins or the extreme. -/
def readHistogram (p : List Byte) (d : Dev) : List Byte :=
  let c := byte p 0
  let last := byte p 1 = 1
  let start := if last then d.evr.lastStart else d.evr.winStart
  let n := if last then d.evr.lastLen else d.time - d.evr.winStart
  let bins := if last then d.evr.binsLast else d.evr.bins
  let ext := if last then d.evr.extLast else d.evr.ext
  toLe 8 start ++ toLe 8 n ++
    (if c < 5 then (List.range 64).flatMap fun i => toLe 8 (sat 64 (tget bins (64 * c + i))) else toLe 8 (tget ext (c - 16)))

/-- Meaning of READ_HISTOGRAM (R355, R399). -/
def execReadHistogram (tr : Transport) (p : List Byte) (s : State) : Ans :=
  run (command 0xC504 mAll false (len 2)
    (fun p => (decide (byte p 0 < 5) || (decide (16 ≤ byte p 0) && decide (byte p 0 < 24))) && decide (byte p 1 < 2))
    (fun p d => ans rcOk (readHistogram p d) d) tr p) s

end Sys2Proof.Machine
end

