-- ==== Sys2Proof/Machine/MbxStd.lean ====
section
/-! DEFINITION. Machine/MbxStd.lean: the standard commands of R345–R348 that no other chapter defines, in the layouts of
CXL 3.1 (log entry 6); bytes whose value the manual does not give are Config.standardByte. -/

namespace Sys2Proof.Machine

/-- n bytes of a standard structure that the manual does not give. -/
def stdBytes (key off n : Nat) : List Byte := (List.range n).map fun i => Config.standardByte key (off + i)

/-! ### Identification -/

/-- Identify: vendor and device IDs, serial, largest message 2^12, component type 3. -/
def identifyOut (d : Dev) : List Byte := stdBytes 1 0 8 ++ toLe 8 d.pst.nv.serial ++ toLe 1 12 ++ toLe 1 3

/-- Meaning of IDENTIFY (R345). -/
def execIdentify (tr : Transport) (p : List Byte) (s : State) : Ans :=
  run (command 0x0001 mAll false (len 0) (fun _ => true) (fun _ d => ans rcOk (identifyOut d) d) tr p) s

/-- Identify Memory Device: persistent capacity alone, in 256 MiB units; three logs and the Informational log of 1,024
records; no label storage; 65,536 poison records. -/
def memoryDevice (d : Dev) : List Byte :=
  let units := d.map.limit / 65536
  stdBytes 8 0 16 ++ toLe 8 units ++ toLe 8 0 ++ toLe 8 units ++ toLe 8 0 ++ toLe 2 1024 ++ toLe 2 1024 ++ toLe 2 1024
    ++ toLe 2 1024 ++ toLe 4 0 ++ toLe 3 65536 ++ stdBytes 9 0 4 ++ toLe 2 0

/-- Meaning of IDENTIFY_MEMORY_DEVICE (R345). -/
def execIdentifyMemoryDevice (tr : Transport) (p : List Byte) (s : State) : Ans :=
  run (command 0x4000 mAll false (len 0) (fun _ => true) (fun _ d => ans rcOk (memoryDevice d) d) tr p) s

/-- Get FW Info: two slots, the active one, the staged one, online activation, the slots' revisions. -/
def fwInfo (d : Dev) : List Byte :=
  toLe 1 2 ++ toLe 1 (d.bfl.running + 8 * d.mbx.fwStaged) ++ toLe 1 1 ++ toLe 13 0 ++ stdBytes 8 0 64

/-- Meaning of GET_FW_INFO (R345). -/
def execGetFwInfo (tr : Transport) (p : List Byte) (s : State) : Ans :=
  run (command 0x0200 mAll false (len 0) (fun _ => true) (fun _ d => ans rcOk (fwInfo d) d) tr p) s

/-! ### Logs: the Command Effects Log only -/

/-- Every opcode of R345 and of R350–R358, in order. -/
def opcodesStd : List Nat :=
  [0x0001, 0x0100, 0x0101, 0x0102, 0x0103, 0x0200, 0x0201, 0x0202, 0x0300, 0x0301, 0x0400, 0x0401, 0x4000, 0x4200, 0x4201,
    0x4202, 0x4300, 0x4301, 0x4302, 0x4303, 0x4304, 0x4305, 0x4400, 0x4401]
  ++ [0xC000, 0xC001, 0xC002, 0xC003, 0xC004, 0xC100, 0xC101, 0xC200, 0xC201, 0xC202, 0xC203, 0xC210, 0xC211, 0xC212,
    0xC213, 0xC214, 0xC300, 0xC301, 0xC302, 0xC303, 0xC400, 0xC401, 0xC402, 0xC403, 0xC404, 0xC405]
  ++ [0xC500, 0xC501, 0xC502, 0xC503, 0xC504, 0xC600, 0xC601, 0xC602, 0xC603, 0xC700, 0xC701, 0xC702, 0xC800, 0xC801, 0xC802]

/-- The opcodes of this variant (R349). -/
def opcodesOf (d : Dev) : List Nat :=
  if d.isM then opcodesStd.filter fun o => decide (o < 0xC000) || decide (0xC200 ≤ o) else opcodesStd

/-- The Command Effects Log: an opcode and its effects, four bytes each. -/
def cel (d : Dev) : List Byte := (opcodesOf d).flatMap fun o => toLe 2 o ++ stdBytes 7 (2 * o) 2

/-- Its identifier. -/
def celUuid : List Byte := stdBytes 6 0 16

/-- Meaning of GET_SUPPORTED_LOGS (R345). -/
def execGetSupportedLogs (tr : Transport) (p : List Byte) (s : State) : Ans :=
  run (command 0x0400 mAll false (len 0) (fun _ => true)
    (fun _ d => ans rcOk (toLe 2 1 ++ toLe 6 0 ++ celUuid ++ toLe 4 (cel d).length) d) tr p) s

/-- Get Log: another identifier, or bytes past the log's end, are refused. -/
def getLog (p : List Byte) (d : Dev) : Res × Dev :=
  let off := le p 16 4
  let n := le p 20 4
  if p.take 16 ≠ celUuid ∨ (cel d).length < off + n then ret rcInput d else ans rcOk (((cel d).drop off).take n) d

/-- Meaning of GET_LOG (R345). -/
def execGetLog (tr : Transport) (p : List Byte) (s : State) : Ans :=
  run (command 0x0401 mAll false (len 24) (fun _ => true) getLog tr p) s

/-! ### Health (R346) -/

/-- Life Used. -/
def lifeUsed (d : Dev) : Nat := min 100 (100 * d.stw.cycMean / 10000000)

/-- Device Temperature: the controller junction point, in °C. -/
def deviceTemp (d : Dev) : Int := pointHeld d 0 / 1000000000

/-- Corrected Volatile Error Count. -/
def corrVolatile (d : Dev) : Nat := sat 32 (tget d.rp.cnt 12 + tget d.stw.cnt 13)

/-- Corrected Persistent Error Count. -/
def corrPersistent (d : Dev) : Nat := sat 32 (tget d.rp.cnt 7 + tget d.rp.cnt 9)

/-- Maintenance Needed. -/
def needsMaintenance (d : Dev) : Bool :=
  d.stw.free = .critical || d.stw.free = .exhausted || d.stw.refused || ((List.range 128).any fun l => readOnlyLane d l) || d.sec.povf

/-- Performance Degraded: D below 24 GiB, a degraded link, a broken ring, or a throttle below the limit of
Capped (R346, log entry 101). -/
def degraded (d : Dev) : Bool :=
  decide (d.csh.d < 6291456) || (d.hst.up && (decide (d.hst.width < 16) || decide (d.hst.rate < 64)))
    || d.srn.ring = .folded || d.srn.ring = .parted || decide (d.pwr.lAuto < d.pwr.lHost)

/-- Hardware Replacement Needed. -/
def needsReplacement (d : Dev) : Bool := d.pwr.short || (d.med.dies.any fun x => x.2.failed) || decide (lifeUsed d = 100)

/-- Media Status: the first that holds, in the order of R346. -/
def mediaStatus (d : Dev) : Nat :=
  if d.pwr.mode = .unfurl ∨ d.pwr.mode = .splice ∨ d.pwr.mode = .recovery then 1
  else if d.stw.refused ∨ d.pwr.persistLost then 2
  else if d.pwr.short then 4 else 0

/-- Which of the five programmable alerts of an alert configuration are crossed: life used, temperature above and below,
corrected volatile and persistent errors. -/
def alertsNow (d : Dev) : List Bool :=
  let th (i : Nat) : Nat := d.mbx.alertTh.getD i 0
  let deg (i : Nat) : Int := (BitVec.ofNat 16 (th i)).toInt
  [bit d.mbx.alertEn 0 && decide (th 0 < lifeUsed d), bit d.mbx.alertEn 1 && decide (deg 1 < deviceTemp d),
    bit d.mbx.alertEn 2 && decide (deviceTemp d < deg 2), bit d.mbx.alertEn 3 && decide (th 3 < corrVolatile d),
    bit d.mbx.alertEn 4 && decide (th 4 < corrPersistent d)]

/-- Additional Status: the warning levels of the alerts. -/
def additional (d : Dev) : Nat :=
  let a := alertsNow d
  b2n (a.getD 0 false) + 4 * b2n (a.getD 1 false || a.getD 2 false) + 16 * b2n (a.getD 3 false) + 32 * b2n (a.getD 4 false)

/-- Get Health Info. -/
def healthInfo (d : Dev) : List Byte :=
  toLe 1 (b2n (needsMaintenance d) + 2 * b2n (degraded d) + 4 * b2n (needsReplacement d)) ++ toLe 1 (mediaStatus d)
    ++ toLe 1 (additional d) ++ toLe 1 (lifeUsed d) ++ toLe 2 (twos 16 (deviceTemp d)) ++ toLe 4 (sat 32 (lifeValue d.pst.life 2))
    ++ toLe 4 (corrVolatile d) ++ toLe 4 (corrPersistent d)

/-- Meaning of GET_HEALTH_INFO (R346). -/
def execGetHealthInfo (tr : Transport) (p : List Byte) (s : State) : Ans :=
  run (command 0x4200 mAll false (len 0) (fun _ => true) (fun _ d => ans rcOk (healthInfo d) d) tr p) s

/-! ### Alerts -/

/-- A crossing of an alert threshold raises MSI-X vector 6 and an I3C in-band interrupt; ALERT# follows `alertPin` (R345). -/
def alertEval (d : Dev) : Dev :=
  let x := (alertsNow d).any id
  let new := x && !d.mbx.alertCross
  let d := { d with mbx.alertCross := x }
  if new then emit .ibi (emit (.msix 6) d) else d

/-- ALERT#: a CXL event log holds a record, an alert is crossed, the node is in Halt, or no image boots (R374, R424, R456). -/
def alertPin (d : Dev) : Bool :=
  !d.mbx.warnLog.isEmpty || !d.mbx.failLog.isEmpty || !d.mbx.fatalLog.isEmpty || d.mbx.alertCross
    || d.pwr.mode = .halt || d.pwr.unfurl = .noBoot

/-- Get Alert Configuration. -/
def alertConfig (d : Dev) : List Byte :=
  let th (i n : Nat) : List Byte := toLe n (d.mbx.alertTh.getD i 0)
  toLe 1 d.mbx.alertEn ++ toLe 1 31 ++ stdBytes 10 0 1 ++ th 0 1 ++ stdBytes 10 1 4 ++ th 1 2 ++ th 2 2 ++ th 3 2 ++ th 4 2

/-- Meaning of GET_ALERT_CONFIGURATION (R345). -/
def execGetAlertConfiguration (tr : Transport) (p : List Byte) (s : State) : Ans :=
  run (command 0x4201 mAll false (len 0) (fun _ => true) (fun _ d => ans rcOk (alertConfig d) d) tr p) s

/-- Set Alert Configuration: the alerts whose action is valid take their enable and their threshold. -/
def setAlerts (p : List Byte) (d : Dev) : Dev :=
  let valid := byte p 0
  let en := byte p 1
  let new := [byte p 2, le p 4 2, le p 6 2, le p 8 2, le p 10 2]
  alertEval { d with
    mbx.alertEn := (List.range 5).foldl (fun m i => m + 2 ^ i * b2n (if bit valid i then bit en i else bit d.mbx.alertEn i)) 0
    mbx.alertTh := (List.range 5).map fun i => if bit valid i then new.getD i 0 else d.mbx.alertTh.getD i 0 }

/-- Meaning of SET_ALERT_CONFIGURATION (R345). -/
def execSetAlertConfiguration (tr : Transport) (p : List Byte) (s : State) : Ans :=
  run (command 0x4202 mAll false (len 12)
    (fun p => decide (byte p 0 < 32) && decide (byte p 1 < 32) && decide (byte p 2 ≤ 100) && byte p 3 = 0)
    (fun p d => ret rcOk (setAlerts p d)) tr p) s

/-! ### CXL event logs (R347) -/

/-- A CXL event log by its number: 0 Informational, 1 Warning, 2 Failure, 3 Fatal. -/
def evLog (d : Dev) : Nat → List CxlEv
  | 1 => d.mbx.warnLog
  | 2 => d.mbx.failLog
  | 3 => d.mbx.fatalLog
  | _ => []

/-- Ring address [47:16] and [15:0] in two parameters. -/
def addrOf (hi lo : Nat) : Nat := hi * 65536 + lo % 65536

/-- The DPA a record names (R347): by ring address, frond and line, frond, or map line. -/
def recDpa (d : Dev) (r : Rec) : Option Nat :=
  let f (n : Nat) : Nat := ringAddr d.srn.index n 0
  match r.code with
  | 0x3010 => some (addrOf r.p2 r.p3)
  | 0x3020 | 0x3021 | 0x3022 => some (f (12 * r.p0))
  | 0x3026 | 0x4015 | 0x200C => some (addrOf r.p0 r.p1)
  | 0x7033 => some (addrOf r.p1 r.p2)
  | 0x4013 | 0x5040 | 0x5041 | 0x5042 => some (ringAddr d.srn.index r.p0 (if r.code = 0x4013 then r.p1 % 64 else r.p1 % 256))
  | 0x3027 | 0x6010 | 0x6011 => some (f r.p0)
  | _ => none

/-- The 80 bytes of a General Media Event. -/
def mediaEvent (dpa : Nat) (poison : Bool) (ecc : Bool) : List Byte :=
  toLe 8 dpa ++ toLe 1 (b2n poison) ++ toLe 1 (if ecc then 0 else 2) ++ toLe 70 0

/-- The 80 bytes of a DRAM Event: 0x4041 names a frond and line, so its pair's first channel and its DPA; 0x4017 a pair; 0x600D
a cushion line (region 0), a map line (region 1), or an address whose DPA and channel are not known. -/
def dramEvent (d : Dev) (r : Rec) : List Byte :=
  let (dpa, chan) : Nat × Option Nat := match r.code with
    | 0x4041 => (ringAddr d.srn.index r.p0 (r.p1 % 256), some (2 * cushPair r.p0))
    | 0x4017 => (0, if r.p0 < 6 then some (2 * r.p0) else none)
    | _ =>
      let a := r.p1 + r.p2 * 2 ^ 32
      match r.p0 with
      | 0 => (ringAddr d.srn.index (a / 64) (a % 64), some (2 * cushPair (a / 64)))
      | 1 => (ringAddr d.srn.index (12 * a) 0, some (mapChan a).1)
      | _ => (0, none)
  toLe 8 dpa ++ toLe 1 0 ++ toLe 1 0 ++ toLe 1 0 ++ toLe 2 (b2n chan.isSome) ++ toLe 1 (chan.getD 0) ++ toLe 66 0

/-- A record of a CXL event log, 128 bytes (R347). -/
def cxlRecord (log : Nat) (d : Dev) (e : CxlEv) : List Byte :=
  let r := e.r
  let (uuid, data) : Nat × List Byte :=
    if r.code = 0x4041 ∨ r.code = 0x4017 ∨ r.code = 0x600D then (3, dramEvent d r)
    else if r.code / 4096 = 11 ∨ r.code = 0x4012 then (4, stdBytes 12 r.code 1 ++ healthInfo d ++ toLe 61 0)
    else match recDpa d r with
      | some a => (2, mediaEvent a (r.code = 0x5042 || r.code = 0x4013 || r.code = 0x4015 || r.code = 0x3022)
          (r.code = 0x5041 || r.code = 0x5042))
      | none => (5, r.bytes ++ toLe 48 0)
  stdBytes 2 (16 * uuid) 16 ++ toLe 1 128 ++ toLe 3 log ++ toLe 2 e.handle ++ toLe 2 0 ++ toLe 8 (r.time * 10) ++ toLe 16 0 ++ data

/-- Get Event Records: the oldest of a log, 31 at most in 4,096 bytes. -/
def getEvents (p : List Byte) (d : Dev) : List Byte :=
  let log := byte p 0
  let all := evLog d log
  let n := tget d.mbx.logOvf log
  let t := tget d.mbx.ovfT log
  toLe 1 (b2n (decide (0 < n)) + 2 * b2n (decide (31 < all.length))) ++ toLe 1 0 ++ toLe 2 (sat 16 n) ++ toLe 8 (t.1 * 10)
    ++ toLe 8 (t.2 * 10) ++ toLe 2 (min 31 all.length) ++ toLe 10 0 ++ (all.take 31).flatMap (cxlRecord log d)

/-- Meaning of GET_EVENT_RECORDS (R345, R347). -/
def execGetEventRecords (tr : Transport) (p : List Byte) (s : State) : Ans :=
  run (command 0x0100 mAll false (len 1) (fun p => decide (byte p 0 < 4)) (fun p d => ans rcOk (getEvents p d) d) tr p) s

/-- Removes records of a log; its overflow ends. -/
def logDrop (log : Nat) (keep : CxlEv → Bool) (d : Dev) : Dev :=
  let d := { d with mbx.logOvf := tset d.mbx.logOvf log 0, mbx.ovfT := d.mbx.ovfT.filter fun x => x.1 ≠ log }
  match log with
  | 1 => { d with mbx.warnLog := d.mbx.warnLog.filter keep }
  | 2 => { d with mbx.failLog := d.mbx.failLog.filter keep }
  | 3 => { d with mbx.fatalLog := d.mbx.fatalLog.filter keep }
  | _ => d

/-- Clear Event Records: all, or those named; a handle the log does not hold clears nothing (R345). -/
def clearEvents (p : List Byte) (d : Dev) : Res × Dev :=
  let log := byte p 0
  let hs := (List.range (byte p 2)).map fun i => le p (6 + 2 * i) 2
  if bit (byte p 1) 0 then ret rcOk (logDrop log (fun _ => false) d)
  else if hs.any fun h => !((evLog d log).any fun e => e.handle = h) then ret rcHandle d
  else if hs.isEmpty then ret rcOk d
  else ret rcOk (logDrop log (fun e => !(hs.contains e.handle)) d)

/-- Meaning of CLEAR_EVENT_RECORDS (R345). -/
def execClearEventRecords (tr : Transport) (p : List Byte) (s : State) : Ans :=
  run (command 0x0101 mAll false (fun n => decide (n = 6 + 2 * byte p 2))
    (fun p => decide (byte p 0 < 4) && decide (byte p 1 < 2) && zeros p 3 3) clearEvents tr p) s

/-- Get Event Interrupt Policy: mode in [1:0], the vector 2–5 in [7:4]. -/
def policyOut (d : Dev) : List Byte :=
  (List.range 4).flatMap fun i => let m := d.mbx.policy.getD i 0
    toLe 1 (m + (if m = 1 then 16 * (2 + i) else 0))

/-- Meaning of GET_EVENT_INTERRUPT_POLICY (R345). -/
def execGetEventInterruptPolicy (tr : Transport) (p : List Byte) (s : State) : Ans :=
  run (command 0x0102 mAll false (len 0) (fun _ => true) (fun _ d => ans rcOk (policyOut d) d) tr p) s

/-- Set Event Interrupt Policy. -/
def setPolicy (p : List Byte) (d : Dev) : Dev := { d with mbx.policy := (List.range 4).map fun i => byte p i % 4 }

/-- Meaning of SET_EVENT_INTERRUPT_POLICY (R345). -/
def execSetEventInterruptPolicy (tr : Transport) (p : List Byte) (s : State) : Ans :=
  run (command 0x0103 mAll false (fun n => n = 4 || n = 5)
    (fun p => (List.range 4).all (fun i => decide (byte p i < 3)) && byte p 4 = 0) (fun p d => ret rcOk (setPolicy p d)) tr p) s

/-! ### The timestamp (R348) -/

/-- Meaning of GET_TIMESTAMP (R348): the TIME count plus the residual, in ns. -/
def execGetTimestamp (tr : Transport) (p : List Byte) (s : State) : Ans :=
  run (command 0x0300 mAll false (len 0) (fun _ => true)
    (fun _ d => ans rcOk (toLe 8 (((d.time : Int) + d.mbx.residual).toNat * 10)) d) tr p) s

/-- A tick count moved by a jump; a count before the new epoch stays at it (log entry 33). -/
def jumpT (a : Int) (t : Nat) : Nat := ((t : Int) + a).toNat

/-- Every stored tick count moves with the TIME count, so that each duration goes on (R348, log entry 33). -/
def jumpStamps (a : Int) (d : Dev) : Dev :=
  let j := jumpT a
  let js := jumpT (a / 100)
  { d with
    ope.tasks := d.ope.tasks.map fun t => { t with deadline := j t.deadline }
    rp.reqs := d.rp.reqs.map fun r => { r with slice := js r.slice }
    ldg.missSlices := d.ldg.missSlices.map js
    csh.dir := tmap d.csh.dir fun _ x => { x with born := j x.born }
    med.sb := tmap d.med.sb fun _ x => { x with closedAt := j x.closedAt, fullAt := j x.fullAt }
    med.pb := tmap d.med.pb fun _ x => if x.meas = 0 then x else { x with meas := j (x.meas - 1) + 1 }
    med.ops := d.med.ops.map fun o => { o with startT := j o.startT, suspT := j o.suspT, resumeT := o.resumeT.map j }
    map.lap := d.map.lap.map fun l => { l with startT := j l.startT }
    stw.lapStart := j d.stw.lapStart
    stw.scrubT := j d.stw.scrubT
    stw.sramT := j d.stw.sramT
    stw.hotTab := tmap d.stw.hotTab fun _ ts => ts.map j
    stw.evac := tmap d.stw.evac fun _ x => if x = 0 then 0 else jumpT a (x - 1) + 1
    sec.ranges := tmap d.sec.ranges fun _ x => { x with started := j x.started }
    hst.decs := tmap d.hst.decs fun _ x => { x with startT := j x.startT }
    srn.splice := d.srn.splice.map fun x => { x with startT := j x.startT }
    srn.coldT := j d.srn.coldT
    srn.remotes := d.srn.remotes.map fun r => { r with slice := js r.slice }
    mbx.run := d.mbx.run.map fun r => { r with startT := j r.startT }
    pwr.modeT := j d.pwr.modeT
    pwr.trigT := d.pwr.trigT.map j
    pwr.testT := j d.pwr.testT }

/-- The multiple of 3,900,000 ticks nearest to the change requested. -/
def jumpBy (now req : Nat) : Int := ((req : Int) - now + 1950000) / 3900000 * 3900000

/-- Set Timestamp (R348): the running slice, period, and windows end, the count jumps, the remainder is kept. -/
def setTime (ns : Nat) (d : Dev) : Dev :=
  let req := ns / 10
  let a := jumpBy d.time req
  let t := jumpT a d.time
  let d := histEnd (compatEnd { sliceBoundary d with time := d.time })
  let d := jumpStamps a { d with time := t, evr.winStart := t, mbx.residual := (req : Int) - t, evr.epochSet := true }
  { periodStart d with time := t }

/-- Meaning of SET_TIMESTAMP (R348). -/
def execSetTimestamp (tr : Transport) (p : List Byte) (s : State) : Ans :=
  run (command 0x0301 mAll false (len 8) (fun _ => true) (fun p d => ret rcOk (setTime (le p 0 8) d)) tr p) s

/-! ### The poison list and Scan Media -/

/-- A span of the poison commands: its first line's ring address and its length in 64-byte lines; it must lie in this
node's slice, below MAP_LIMIT. -/
def spanOk (d : Dev) (a n : Nat) : Bool :=
  decide (a < 2 ^ 48) && decide (addrIndex a = d.srn.index) && decide (a % 2 ^ 44 / 64 + n ≤ d.map.limit * 64)

/-- The poisoned lines of an index that lie in a span, as line numbers of the slice, lowest first. -/
def poisonIn (ix : Tab (BitVec 64)) (a n : Nat) : List Nat :=
  let lo := a % 2 ^ 44 / 64
  ix.flatMap fun x => ((List.range 64).filter fun l => x.2.getLsbD l).filterMap fun l =>
    let k := lineNo x.1 l
    if lo ≤ k ∧ k < lo + n then some k else none

/-- A poison record: one 64-byte range, its DPA the line's ring address; error source 0. -/
def poisonRec (d : Dev) (line : Nat) : List Byte := toLe 8 (d.srn.index * 2 ^ 44 + line * 64) ++ toLe 4 1 ++ toLe 4 0

/-- Get Poison List: from the index, in Transit from its copy; 254 records at most, and the same request while More Records
stands goes on after them (R345, R236, log entry 6). -/
def getPoison (p : List Byte) (d : Dev) : Res × Dev :=
  let a := le p 0 8
  let n := le p 8 8
  if !spanOk d a n then ret rcPhys d
  else
    let (ix, ovf) := if d.pwr.mode = .transit then d.sec.transitCopy.getD (d.sec.pidx, d.sec.povf) else (d.sec.pidx, d.sec.povf)
    let at0 := match d.mbx.poisonNext with
      | some (a', n', k) => if a' = a ∧ n' = n then k else 0
      | none => 0
    let ls := (poisonIn ix a n).filter fun k => decide (at0 ≤ k)
    let d := { d with mbx.poisonNext := (ls[254]?).map fun k => (a, n, k) }
    ans rcOk (toLe 1 (b2n (decide (254 < ls.length)) + 2 * b2n ovf) ++ toLe 1 0 ++ stdBytes 11 0 8 ++ toLe 2 (min 254 ls.length)
      ++ toLe 20 0 ++ (ls.take 254).flatMap (poisonRec d)) d

/-- Meaning of GET_POISON_LIST (R345, R236). -/
def execGetPoisonList (tr : Transport) (p : List Byte) (s : State) : Ans :=
  run (command 0x4300 mSDTM false (len 16) (fun p => le p 0 8 % 64 = 0) getPoison tr p) s

/-- The busy bound of Scan Media over n lines, in ms: 10 s per TiB plus 1 s. -/
def scanMs (n : Nat) : Nat := (n * 64 * 10000 + 2 ^ 40 - 1) / 2 ^ 40 + 1000

/-- Meaning of GET_SCAN_MEDIA_CAPABILITIES (R345). -/
def execGetScanMediaCapabilities (tr : Transport) (p : List Byte) (s : State) : Ans :=
  run (command 0x4303 mSDTM false (len 16) (fun p => le p 0 8 % 64 = 0)
    (fun p d => if spanOk d (le p 0 8) (le p 8 8) then ans rcOk (toLe 4 (scanMs (le p 8 8))) d else ret rcPhys d) tr p) s

/-- Scan Media is accepted over a span of fronds; `whole` when it covers every frond below MAP_LIMIT. -/
def scanStart (p : List Byte) (d : Dev) : Res × Dev :=
  let a := le p 0 8
  let n := le p 8 8
  if !spanOk d a n then ret rcPhys d
  else
    let lo := a % 2 ^ 44 / 64
    let f := lo / 64
    let e := (lo + n + 63) / 64
    (.long (.scan f e (decide (lo = 0) && decide (n = d.map.limit * 64))) 1 (e - f), { d with mbx.scanRes := some (lo, lo + n, []) })

/-- Meaning of SCAN_MEDIA (R345). -/
def execScanMedia (tr : Transport) (p : List Byte) (s : State) : Ans :=
  run (command 0x4304 mM false (len 17) (fun p => le p 0 8 % 64 = 0 && decide (byte p 16 < 2)) scanStart tr p) s

/-- The poisoned lines of a frond as its row, the staging table, the cushion, and a Frond-wide entry show them (R236). -/
def poisonOf (d : Dev) (f : Nat) : BitVec 64 :=
  let e := mapGet d f
  let wide := e.form = .frondWide
  let base : BitVec 64 := if wide then BitVec.allOnes 64
    else if e.v then (tget d.med.rows e.slot).lpoison ||| tget d.rp.stage f else tget d.rp.stage f
  match slotFind d f with
  | some (_, s) => s.lines.foldl (fun m x =>
      if x.1 < 64 then (match x.2.st with
        | .poisoned => setBit m x.1 true
        | .full => setBit m x.1 false
        | _ => m) else m) base
  | none => base

/-- The poison of a span of fronds. -/
def poisonSpan (d : Dev) (lo hi : Nat) : Tab (BitVec 64) :=
  let fs := (sortBy id (d.map.ent.map (·.1) ++ (d.csh.dir.filter fun x => x.2.held).map (·.2.frond) ++ d.rp.stage.map (·.1))).dedup
  (fs.filter fun f => decide (lo ≤ f) && decide (f < hi)).foldl (fun t f => tset t f (poisonOf d f)) []

/-- Scan Media ends (R236): its results stand; over every frond it rebuilds the poison index and clears the overflow. -/
def scanEnd (first last : Nat) (whole : Bool) (d : Dev) : Dev :=
  let found := poisonSpan d first last
  let d := { d with mbx.scanRes := d.mbx.scanRes.map fun x => (x.1, x.2.1, found) }
  if whole then { d with sec.pidx := found.take 65536, sec.povf := decide (65536 < found.length) } else d

/-- Get Scan Media Results: the records of the last scan, 254 at a time; each call takes those it returns. -/
def scanResults (d : Dev) : Res × Dev :=
  let (lo, hi, ix) := d.mbx.scanRes.getD (0, 0, [])
  let ls := poisonIn ix (lo * 64) (hi - lo)
  let next := match ls[254]? with
    | some k => k
    | none => hi
  ans rcOk (toLe 8 0 ++ toLe 8 0 ++ toLe 1 (b2n (decide (254 < ls.length))) ++ toLe 1 0 ++ toLe 2 (min 254 ls.length) ++ toLe 12 0
    ++ (ls.take 254).flatMap (poisonRec d)) { d with mbx.scanRes := d.mbx.scanRes.map fun x => (next, x.2) }

/-- Meaning of GET_SCAN_MEDIA_RESULTS (R345). -/
def execGetScanMediaResults (tr : Transport) (p : List Byte) (s : State) : Ans :=
  run (command 0x4305 mSDTM false (len 0) (fun _ => true) (fun _ d => scanResults d) tr p) s

end Sys2Proof.Machine
end

