-- ==== Sys2Proof/Machine/RegWrite.lean ====
section
/-! DEFINITION. Machine/RegWrite.lean: writes to registers (R13, R16, R34, R36), the counter clears, the latch of
MBX_PROGRESS (R343). -/

namespace Sys2Proof.Machine

/-! ### Clears and actions with a row of their own -/

/-- LDG_CTL_XTRM_CLR. -/
def xtrmClear (d : Dev) : Dev := { d with ldg.xtrmMax := [], ldg.xtrmExc := [] }
/-- Meaning of LDG_CTL_XTRM_CLR (R62). -/
def execLdgCtlXtrmClr (s : State) : Ans := run (gate 1 xtrmClear) s

/-- LDG_CTL_OVR_CLR. -/
def ovrClear (d : Dev) : Dev := { d with ldg.ovr := [], ldg.envMiss := 0 }
/-- Meaning of LDG_CTL_OVR_CLR (R62). -/
def execLdgCtlOvrClr (s : State) : Ans := run (gate 1 ovrClear) s

/-- Design budget of a ledger line (R62). -/
def budDesign (n : Nat) : Nat := [45, 8, 72, 160, 24, 40, 51, 72].getD n 0

/-- LDG_BUD_n: a budget above the design value is ignored and recorded; another is in force from the next slice (R62). -/
def budWrite (n v : Nat) (d : Dev) : Dev :=
  if 8 ≤ n then d
  else if budDesign n < v then post 0x3012 1 n v (budDesign n) 0 d
  else { d with ldg.bud := d.ldg.bud.set n v }
/-- Meaning of LDG_BUD_BUDGET (R62). -/
def execLdgBudBudget (n v : Nat) (s : State) : Ans := run (gate 1 (budWrite n (v % 1024))) s

/-- MAP_CTL_CNT_CLR. -/
def mapClear (d : Dev) : Dev := { d with map.cnt := [] }
/-- Meaning of MAP_CTL_CNT_CLR (R90). -/
def execMapCtlCntClr (s : State) : Ans := run (gate 1 mapClear) s

/-- MAP_CTL_CACHE_INVAL: every frond-cache way is invalid. -/
def cacheInval (d : Dev) : Dev := { d with map.cache := [] }
/-- Meaning of MAP_CTL_CACHE_INVAL (R90). -/
def execMapCtlCacheInval (s : State) : Ans := run (gate 1 cacheInval) s

/-- MAP_PEEK: the frond's map line is read and checked as every map read is (R66, R81, R90); VALID comes with the entry and its
line's LINE_SEQ, after the line's error sequence where it needs one. -/
def peekWrite (f : Nat) (d : Dev) : Dev :=
  let d := mapBurst 5 f { d with map.peek := f, map.peekValid := false, map.peekWait := false }
  let bad := formMask d (mapLine f)
  let d := if bad ≠ 0 ∧ (tget d.map.err (mapLine f)).isNone then lineErr (mapLine f) bad d else d
  if lineHeld d f ∨ bad ≠ 0 then { d with map.peekWait := true } else peekDone d
/-- Meaning of MAP_PEEK_FROND (R90). -/
def execMapPeekFrond (f : Nat) (s : State) : Ans := run (gate 1 (peekWrite (f % 2 ^ 32))) s

/-- MED_RD_CTL_CNT_CLR. -/
def rdClear (d : Dev) : Dev := { d with rp.cnt := [], rp.full := 0 }
/-- Meaning of MED_RD_CTL_CNT_CLR (R115). -/
def execMedRdCtlCntClr (s : State) : Ans := run (gate 3 rdClear) s

/-- CSH_CTL_CNT_CLR. -/
def cshClear (d : Dev) : Dev := { d with csh.cnt := [] }
/-- Meaning of CSH_CTL_CNT_CLR (R147). -/
def execCshCtlCntClr (s : State) : Ans := run (gate 2 cshClear) s

/-- MED_CTL_CNT_CLR. -/
def medClear (d : Dev) : Dev := { d with med.cnt := [], med.peak := 0 }
/-- Meaning of MED_CTL_CNT_CLR (R176). -/
def execMedCtlCntClr (s : State) : Ans := run (gate 3 medClear) s

/-- STW_CTL_CNT_CLR. -/
def stwClear (d : Dev) : Dev := { d with stw.cnt := [], stw.dropped := [] }
/-- Meaning of STW_CTL_CNT_CLR (R208). -/
def execStwCtlCntClr (s : State) : Ans := run (gate 4 stwClear) s

/-- SEC_CTL_CNT_CLR. -/
def secClear (d : Dev) : Dev := { d with sec.cnt := [] }
/-- Meaning of SEC_CTL_CNT_CLR (R240). -/
def execSecCtlCntClr (s : State) : Ans := run (gate 5 secClear) s

/-- HST_CTL_CNT_CLR. -/
def hstClear (d : Dev) : Dev := { d with hst.cnt := [], hst.sfPeak := 0 }
/-- Meaning of HST_CTL_CNT_CLR (R264). -/
def execHstCtlCntClr (s : State) : Ans := run (gate 6 hstClear) s

/-- SRN_CTL_CNT_CLR. -/
def srnClear (d : Dev) : Dev := { d with srn.cnt := [] }
/-- Meaning of SRN_CTL_CNT_CLR (R297). -/
def execSrnCtlCntClr (s : State) : Ans := run (gate 7 srnClear) s

/-- OPE_CTL_CNT_CLR: the counters, OPE_RQ_ECC_CE, and OPE_RQ_ECC_UE. -/
def opeClear (d : Dev) : Dev :=
  { d with ope.cnt := [], ope.rq := tmap d.ope.rq fun _ r => { r with ce := 0, ue := 0 } }
/-- Meaning of OPE_CTL_CNT_CLR (R324). -/
def execOpeCtlCntClr (s : State) : Ans := run (gate 8 opeClear) s

/-- CPH_CTL_CNT_CLR. -/
def cphClear (d : Dev) : Dev := { d with cph.cnt := [], cph.peak := 0 }
/-- Meaning of CPH_CTL_CNT_CLR (R338). -/
def execCphCtlCntClr (s : State) : Ans := run (gate 9 cphClear) s

/-- MBX_CTL_CNT_CLR. -/
def mbxClear (d : Dev) : Dev := { d with mbx.cnt := [] }
/-- Meaning of MBX_CTL_CNT_CLR (R361). -/
def execMbxCtlCntClr (s : State) : Ans := run (gate 10 mbxClear) s

/-- PST_CTL_CNT_CLR. -/
def pstClear (d : Dev) : Dev := { d with pst.cnt := [] }
/-- Meaning of PST_CTL_CNT_CLR (R381). -/
def execPstCtlCntClr (s : State) : Ans := run (gate 10 pstClear) s

/-- BFL_CTL_CNT_CLR. -/
def bflClear (d : Dev) : Dev := { d with bfl.cnt := [] }
/-- Meaning of BFL_CTL_CNT_CLR (R381). -/
def execBflCtlCntClr (s : State) : Ans := run (gate 10 bflClear) s

/-- EVR_CTL_CNT_CLR. -/
def evrClear (d : Dev) : Dev := { d with evr.cnt := [] }
/-- Meaning of EVR_CTL_CNT_CLR (R401). -/
def execEvrCtlCntClr (s : State) : Ans := run (gate 12 evrClear) s

/-- PWR_CTL_CNT_CLR. -/
def pwrClear (d : Dev) : Dev := { d with pwr.pwrCnt := [] }
/-- Meaning of PWR_CTL_CNT_CLR (R449). -/
def execPwrCtlCntClr (s : State) : Ans := run (gate 14 pwrClear) s

/-- THM_CTL_CNT_CLR. -/
def thmClear (d : Dev) : Dev := { d with pwr.thmCnt := [] }
/-- Meaning of THM_CTL_CNT_CLR (R449). -/
def execThmCtlCntClr (s : State) : Ans := run (gate 14 thmClear) s

/-! ### Every register with RW fields, by block -/

/-- f when a bit of the value is 1 (a WO field). -/
def onBit (v i : Nat) (f : Dev → Dev) (d : Dev) : Dev := if bit v i then f d else d

/-- The value of a field where it is allowed, else the old one. -/
def keepIf (ok : Bool) (new old : Nat) : Nat := if ok then new else old

/-- LDG_DEVLOAD (R63): the whole write is ignored when it breaks an order or sets more than 100 %. -/
def devloadWrite (v : Nat) (d : Dev) : Dev :=
  let uo := bits v 6 0
  let um := bits v 14 8
  let oo := bits v 22 16
  let om := bits v 30 24
  if uo < um ∧ oo < om ∧ um ≤ 100 ∧ om ≤ 100 then
    { d with ldg.uOpt := uo, ldg.uMod := um, ldg.oOpt := oo, ldg.oMod := om } else d

/-- LDG and MAP (R62, R90). -/
def writeLdgMap (o v : Nat) (d : Dev) : Dev :=
  if 0x40 ≤ o ∧ o < 0x80 then budWrite ((o - 0x40) / 8) (bits v 9 0) d else
  match o with
  | 0x8 => onBit v 1 ovrClear (onBit v 0 xtrmClear d)
  | 0x188 => if bits v 13 0 ≤ 9600 then { d with ldg.env := bits v 13 0 } else d
  | 0x1A0 => devloadWrite v d
  | 0x80010 => onBit v 1 cacheInval (onBit v 0 mapClear d)
  | 0x80038 => peekWrite (bits v 31 0) d
  | _ => d

/-- CSH_DFLOOR: ignored whole above 1,280 or out of order (R147). -/
def dfloorWrite (v : Nat) (d : Dev) : Dev :=
  let l := bits v 11 0
  let m := bits v 23 12
  let h := bits v 35 24
  let r := bits v 47 36
  if l ≤ m ∧ m ≤ h ∧ h ≤ r ∧ r ≤ 1280 then { d with csh.fLow := l, csh.fMid := m, csh.fHigh := h, csh.fDrain := r } else d

/-- CSH (R147). -/
def writeCsh (o v : Nat) (d : Dev) : Dev := match o with
  | 0x8 => onBit v 0 cshClear d
  | 0x20 => let p := bits v 6 0
    if 50 ≤ p ∧ p ≤ 85 then { d with csh.hwPct := p } else d
  | 0x30 => dfloorWrite v d
  | 0x38 => { d with csh.minAge := bits v 15 0 }
  | _ => d

/-- MED_SUSP (R176): each field by itself. -/
def suspWrite (v : Nat) (d : Dev) : Dev :=
  let r := bits v 15 0
  let p := bits v 31 16
  let a := bits v 39 32
  let b := bits v 55 40
  { d with
    med.rStall := keepIf (decide (1 ≤ r) && decide (r ≤ 50)) r d.med.rStall
    med.pStall := keepIf (decide (20 ≤ p) && decide (p ≤ 200)) p d.med.pStall
    med.minProg := keepIf (decide (1 ≤ a)) a d.med.minProg
    med.minReset := keepIf (decide (50 ≤ b)) b d.med.minReset }

/-- MED and the read path (R115, R174, R176). -/
def writeMed (o v : Nat) (d : Dev) : Dev := match o with
  | 0x8 => onBit v 0 medClear d
  | 0x18 => suspWrite v d
  | 0x4000 => { d with med.diagAddr := bits v 37 0 }
  | 0x4008 => onBit v 0 medDiagGo d
  | 0xE0000 => onBit v 0 rdClear d
  | _ => d

/-- The order of R209. -/
def stwOrder (s : StwSet) : Bool :=
  decide (s.critBp < s.critExit) && decide (s.critExit ≤ s.leanBp) && decide (s.leanBp < s.leanExit)
    && decide (s.leanExit < s.gcTarget) && decide (s.wearOff < s.wearOn)

/-- A setting that keeps the order of R209, else the old one. -/
def stwKeep (new : StwSet) (d : Dev) : Dev := if stwOrder new then { d with stw.set := new } else d

/-- STW (R208, R209). -/
def writeStw (o v : Nat) (d : Dev) : Dev :=
  let s := d.stw.set
  match o with
  | 0x8 => patrolEnable (bit v 1) (onBit v 0 stwClear d)
  | 0x28 => stwKeep { s with leanBp := bits v 13 0, critBp := bits v 27 14, leanExit := bits v 41 28, critExit := bits v 55 42 } d
  | 0x30 => stwKeep { s with
      gcTarget := bits v 13 0
      gcBase := bits v 23 14
      gcGain := bits v 27 24
      gcMax := keepIf (decide (bits v 39 28 ≤ 1024)) (bits v 39 28) s.gcMax
      gcReserve := keepIf (decide (16 ≤ bits v 49 40)) (bits v 49 40) s.gcReserve } d
  | 0x50 => stwKeep { s with wearOn := bits v 23 0, wearOff := bits v 47 24 } d
  | 0x68 => let t := bits v 8 0
    { d with stw.set := { s with
        patTarget := keepIf (decide (24 ≤ t) && decide (t ≤ 240)) t s.patTarget
        patMin := keepIf (decide (1 ≤ bits v 18 9)) (bits v 18 9) s.patMin
        patMax := bits v 28 19 } }
  | 0x78 => let r := bits v 3 0
    let i := bits v 23 8
    { d with stw.set := { s with
        rewrite := keepIf (decide (8 ≤ r) && decide (r ≤ 13)) r s.rewrite
        sentS := keepIf (decide (60 ≤ i) && decide (i ≤ 3600)) i s.sentS } }
  | 0x80 => { d with stw.set := { s with scrubRate := keepIf (decide (1 ≤ bits v 7 0)) (bits v 7 0) s.scrubRate } }
  | 0x88 => let h := bits v 23 8
    { d with stw.set := { s with
        hot := keepIf (decide (8 ≤ bits v 7 0)) (bits v 7 0) s.hot
        holdMs := keepIf (decide (10 ≤ h) && decide (h ≤ 10000)) h s.holdMs } }
  | 0x90 => let r := bits v 23 0
    { d with stw.set := { s with retire := keepIf (decide (1000000 ≤ r) && decide (r ≤ 10000000)) r s.retire } }
  | _ => d

/-- HST (R264): CDAT_CHANGED is cleared by a 1; HST_SF_TH out of order or above 3,840 is ignored whole. -/
def writeHst (o v : Nat) (d : Dev) : Dev := match o with
  | 0x8 => onBit v 0 hstClear d
  | 0x10 => onBit v 18 (fun d => { d with hst.cdatChanged := false }) d
  | 0x20 => let h := bits v 12 0
    let l := bits v 25 13
    if l < h ∧ h ≤ 3840 then { d with hst.thHigh := h, hst.thLow := l } else d
  | _ => d

/-- SRN (R294, R297). -/
def writeSrn (o v : Nat) (d : Dev) : Dev := match o with
  | 0x8 =>
    let d := onBit v 0 srnClear d
    let d := if d.srn.west.en = bit v 1 then d else portEnable .west (bit v 1) d
    let d := if d.srn.east.en = bit v 2 then d else portEnable .east (bit v 2) d
    onBit v 3 epochAsk d
  | 0x30 => let a := bits v 11 8
    { d with
      srn.retryUs := keepIf (decide (5 ≤ bits v 7 0)) (bits v 7 0) d.srn.retryUs
      srn.attempts := keepIf (decide (1 ≤ a) && decide (a ≤ 8)) a d.srn.attempts
      srn.holdMs := keepIf (decide (bits v 19 12 ≤ 240)) (bits v 19 12) d.srn.holdMs }
  | _ => d

/-- Two spill regions overlap (R322). -/
def spillMeet (a b : Rq) : Bool :=
  decide (a.baseMib < b.baseMib + b.sizeMib) && decide (b.baseMib < a.baseMib + a.sizeMib)

/-- OPE_RQ_CFG_r (R318, R322, R324): MODE and the spill region only while Disabled and empty, apart from every other
spill-mode queue's. -/
def rqCfgWrite (r v : Nat) (d : Dev) : Dev :=
  if queues d ≤ r then d else
  let x := tget d.ope.rq r
  let pk := bits v 14 2
  let mib := bits v 51 45
  let size := if mib ∈ [1, 2, 4, 8, 16, 32, 64] ∧ bits v 44 32 + mib ≤ 8192 then mib else x.sizeMib
  let y : Rq := { x with spill := bit v 1, baseMib := bits v 44 32, sizeMib := size }
  let clash := y.spill && (d.ope.rq.any fun z => decide (z.1 ≠ r) && z.2.spill && spillMeet y z.2)
  let ok := x.st = .disabled && x.words.isEmpty && decide (y.baseMib + y.sizeMib ≤ 8192) && !clash
  let z := if ok then { y with rd := x.rd % rqMod y } else x
  let z := { z with pktDef := keepIf (decide (8 ≤ pk) && decide (pk ≤ 4096)) pk x.pktDef, vec := bits v 18 15 }
  rqEnable r (bit v 0) { d with ope.rq := tset d.ope.rq r z }

/-- OPE (R300–R324). -/
def writeOpe (o v : Nat) (d : Dev) : Dev :=
  if 0x100 ≤ o ∧ o < 0x180 then engEnable ((o - 0x100) / 8) (bit v 0) d
  else if 0x1000 ≤ o ∧ o < 0x1800 then
    let q := (o - 0x1000) / 32
    if o % 32 = 0 then tqEnable q (bit v 0) (onBit v 1 (tqAbort q) d)
    else if o % 32 = 8 then doorbell q (bits v 4 0) d else d
  else if 0x10000 ≤ o ∧ o < 0x30000 then
    let i := (o - 0x10000) / 8
    if queues d ≤ i / 256 then d else { d with ope.slots := tset d.ope.slots i v }
  else if 0x30000 ≤ o ∧ o < 0x30800 then
    let r := (o - 0x30000) / 32
    if o % 32 = 0 then rqCfgWrite r v d
    else if o % 32 = 8 then rqRead r (bits v 23 0) 0 [] d else d
  else match o with
  | 0x8 => onBit v 0 opeClear d
  | 0x10 => let p := bits v 6 0
    { d with
      ope.set.pct := keepIf (decide (10 ≤ p) && decide (p ≤ 100)) p d.ope.set.pct
      ope.set.minTicks := bits v 22 7 }
  | 0x18 => let c := bits v 21 16
    { d with ope.set.margin := bits v 15 0, ope.set.cells := keepIf (decide (8 ≤ c) && decide (c ≤ 32)) c d.ope.set.cells }
  | _ => d

/-- CPH (R335, R338). -/
def writeCph (o v : Nat) (d : Dev) : Dev := match o with
  | 0x8 =>
    let d := onBit v 0 cphClear d
    { d with cph.dummyMax := keepIf (decide (1 ≤ bits v 3 1)) (bits v 3 1) d.cph.dummyMax }
  | _ => d

/-- EVR (R395, R399, R401). -/
def writeEvr (o v : Nat) (d : Dev) : Dev := match o with
  | 0x8 => onBit v 0 evrClear d
  | 0x20 => { d with evr.rdSeq := bits v 31 0 }
  | 0x50 => { d with evr.prdIdx := bits v 9 0 }
  | 0x78 => let l := bits v 8 1
    let w := bits v 24 9
    { d with
      evr.compatEn := bit v 0
      evr.compatLimit := keepIf (decide (1 ≤ l)) l d.evr.compatLimit
      evr.compatMs := keepIf (decide (10 ≤ w) && decide (w ≤ 60000)) w d.evr.compatMs }
  | 0x80 => let w := bits v 15 0
    { d with evr.winMs := keepIf (decide (1 ≤ w) && decide (w ≤ 60000)) w d.evr.winMs }
  | 0x90 => { d with evr.selCls := keepIf (decide (bits v 2 0 ≤ 4)) (bits v 2 0) d.evr.selCls, evr.selLast := bit v 3 }
  | _ => d

/-- THM_POINT_n: a throttle threshold from re-arm + 5 to the reset value; in force from the next 1 ms step (R449). -/
def throttleWrite (i t : Nat) (d : Dev) : Dev :=
  if rearmC i + 5 ≤ t ∧ t ≤ throttleC i then
    { d with pwr.points := d.pwr.points.zipIdx.map fun x => if x.2 = i then { x.1 with th := t } else x.1 } else d

/-- PWR and THM (R449). -/
def writePwr (o v : Nat) (d : Dev) : Dev :=
  if 0x80040 ≤ o ∧ o < 0x80060 then throttleWrite ((o - 0x80040) / 8) (bits v 17 10) d else
  match o with
  | 0x8 => onBit v 0 pwrClear d
  | 0x80010 => onBit v 0 thmClear d
  | _ => d

/-- The management complex's only writable registers are its clears (R361, R381). -/
def writeMgmt (o v : Nat) (d : Dev) : Dev := match o with
  | 0x8 => onBit v 0 mbxClear d
  | 0x40008 => onBit v 0 pstClear d
  | 0x80008 => onBit v 0 bflClear d
  | _ => d

/-- A 64-bit write at a BAR2 offset (R13, R15, R34). -/
def regWrite (off v : Nat) (d : Dev) : Dev :=
  let o := off % 2 ^ 20
  let blk := off / 2 ^ 20
  gate blk (match blk with
    | 1 => writeLdgMap o v
    | 2 => writeCsh o v
    | 3 => writeMed o v
    | 4 => writeStw o v
    | 5 => if o = 8 then onBit v 0 secClear else id
    | 6 => writeHst o v
    | 7 => writeSrn o v
    | 8 => writeOpe o v
    | 9 => writeCph o v
    | 10 => writeMgmt o v
    | 12 => writeEvr o v
    | 14 => writePwr o v
    | _ => id) d

/-- A register access of the wrong size or alignment is recorded (R16). The CXL device registers below 0x0010_0000 follow
CXL 3.1's own sizes. -/
def badAccess (off size : Nat) (wr : Bool) (d : Dev) : Dev :=
  postIf (decide (2 ^ 20 ≤ off)) 0x1041 1 off size (b2n wr) 0 d

/-- A write of a mailbox control register's doorbell interrupt enable, bit 1 of the 32 bits at + 4 of each mailbox, as CXL 3.1
lays them out (R339, log entry 88). -/
def bellWrite (off size : Nat) (v : W64) (d : Dev) : Dev :=
  let en : Option Bool := match size, off % 4096 with
    | 4, 4 => some (bit v.toNat 1)
    | 8, 0 => some (bit v.toNat 33)
    | _, _ => none
  match en, off / 4096 with
  | some e, 0x11 => { d with mbx.bellA := e }
  | some e, 0x12 => { d with mbx.bellB := e }
  | _, _ => d

/-- REGISTER_WRITE: only a naturally aligned 64-bit write acts (R16); the CXL device registers take the sizes of CXL 3.1. -/
def registerWrite (off size : Nat) (v : W64) (d : Dev) : Dev :=
  if off < 2 ^ 20 then (if d.on then bellWrite off size v d else d)
  else if size = 8 ∧ off % 8 = 0 then regWrite off v.toNat d else badAccess off size true d

/-- Meaning of REGISTER_WRITE (R13, R16). -/
def execRegisterWrite (off size : Nat) (v : W64) (s : State) : Ans := run (registerWrite off size v) s

/-- A register read (R16, R343): an aligned 64-bit read returns the register, and of MBX_PROGRESS latches MBX_PROGRESS_DONE and
MBX_PROGRESS_TOTAL; a 32-bit read returns its half without side effect and is recorded, as is any other access, which returns
all ones. The CXL device registers below 0x0010_0000 have CXL 3.1's layout and sizes, which the specification does not restate:
free (log entry 88). -/
def registerRead (size off : Nat) (d : Dev) : Dev :=
  if 2 ^ 24 < off + size then d
  else if off < 2 ^ 20 then let (v, d) := draw d; emit (.reg off (v % 2 ^ (8 * size))) d
  else if size = 8 ∧ off % 8 = 0 then
    let v := regRead d off
    let d := if off = 0xA00018 then { d with mbx.latched := some (d.mbx.progDone, d.mbx.progTotal) } else d
    emit (.reg off v) d
  else if size = 4 ∧ off % 4 = 0 then
    badAccess off 4 false (emit (.reg off (regRead d (off / 8 * 8) / 2 ^ (8 * (off % 8)) % 2 ^ 32)) d)
  else badAccess off size false (emit (.reg off (2 ^ (8 * size) - 1)) d)

/-- Meaning of MBX_PROGRESS_READ (R343), and of a read of any other register of BAR2 (R13, R16, R34). -/
def execMbxProgressRead (size off : Nat) (s : State) : Ans := run (registerRead size off) s

end Sys2Proof.Machine
end

