-- ==== Sys2Proof/Machine/MbxNode.lean ====
section
/-! DEFINITION. Machine/MbxNode.lean: the ring, engine, map, stewardship, ledger, and diagnostic commands of the vendor
tables (R350, R351, R353, R358), and the lockstep fault (R30). -/

namespace Sys2Proof.Machine

/-! ### Ring commands (R350) -/

/-- Meaning of GET_RING_STATUS (R350). -/
def execGetRingStatus (tr : Transport) (p : List Byte) (s : State) : Ans :=
  run (command 0xC000 mNotH true (len 0) (fun _ => true)
    (fun _ d => ans rcOk (toLe 8 (srnStatus d) ++ (List.range 16).flatMap fun i => toLe 8 (srnMember d i)) d) tr p) s

/-- SET_RING_INDEX (R284): the map is fresh, the node held out or no member, the named index free. The stored RING_ID stays. -/
def setRingIndex (i : Nat) (d : Dev) : Res × Dev :=
  let m := tget d.srn.members i
  if !mapFresh d ∨ !(d.srn.ring = .heldOut ∨ !isMember d) ∨ (i < 16 ∧ m.st ≠ .absent ∧ m.serial ≠ d.pst.nv.serial) then ret rcInput d
  else match secRefused 6 d with
    | some (rc, d) => ret rc d
    | none =>
      let idx := if i < 16 then some i else none
      let d' := fwWrite (.ringIndex idx (d.pst.nv.ringId.getD 0)) d
      ret rcOk { d' with pst.nv.ringId := d.pst.nv.ringId, srn.index := idx.getD 0, srn.indexed := idx.isSome }

/-- Meaning of SET_RING_INDEX (R284, R350). -/
def execSetRingIndex (tr : Transport) (p : List Byte) (s : State) : Ans :=
  run (command 0xC001 mUM true (len 1) (fun p => decide (byte p 0 < 16) || byte p 0 = 31)
    (fun p d => setRingIndex (byte p 0) d) tr p) s

/-- RING_GROUP_REKEY (R280): the command runs until every member has acknowledged and the epoch has switched. -/
def ringRekey (d : Dev) : Res × Dev :=
  if !isMember d then ret rcInput d
  else if d.srn.ring = .parted then ret rcParted d
  else (.long (.rekeyGroup d.srn.epoch) 0 0, epochAsk d)

/-- Meaning of RING_GROUP_REKEY (R280, R350). -/
def execRingGroupRekey (tr : Transport) (p : List Byte) (s : State) : Ans :=
  run (command 0xC002 mSDTM true (len 0) (fun _ => true) (fun _ d => ringRekey d) tr p) s

/-- RING_LEAVE (R287): LEAVE goes out and ring A drains first; alone, both sets close at once. -/
def ringLeave (d : Dev) : Res × Dev :=
  if !isMember d then ret rcInput d
  else (.long .leave 0 0, leaveStart d)

/-- Meaning of RING_LEAVE (R287, R350). -/
def execRingLeave (tr : Transport) (p : List Byte) (s : State) : Ans :=
  run (command 0xC003 mSTM true (len 0) (fun _ => true) (fun _ d => ringLeave d) tr p) s

/-- RING_REJOIN: SPLICE_REQ goes out, or, while a port drains, when that drain ends (R344, R350). -/
def ringRejoin (d : Dev) : Res × Dev :=
  if isMember d then ret rcInput d
  else if d.srn.west.st = .draining ∨ d.srn.west.st = .pending then ret rcPending { d with srn.west.rejoin := true }
  else if d.srn.east.st = .draining ∨ d.srn.east.st = .pending then ret rcPending { d with srn.east.rejoin := true }
  else (.long .rejoin 0 0, frame 0x20 [d.pst.nv.serial, d.srn.index] { d with srn.rejoin := true })

/-- Meaning of RING_REJOIN (R350). -/
def execRingRejoin (tr : Transport) (p : List Byte) (s : State) : Ans :=
  run (command 0xC004 mSTM true (len 0) (fun _ => true) (fun _ d => ringRejoin d) tr p) s

/-! ### Engine commands (R351) -/

/-- Meaning of GET_ENGINE_STATUS (R351). -/
def execGetEngineStatus (tr : Transport) (p : List Byte) (s : State) : Ans :=
  run (command 0xC100 mNotH true (len 0) (fun _ => true)
    (fun _ d => ans rcOk (toLe 8 (opeCaps d) ++ toLe 8 (opeAdmit d) ++ toLe 8 (opeFan d)
      ++ (List.range 16).flatMap fun e => toLe 8 (opeEng d e)) d) tr p) s

/-- CLEAR_SCRATCH: a span past 8 GiB or over an enabled spill region is refused. -/
def clearScratch (p : List Byte) (d : Dev) : Res × Dev :=
  let off := le p 0 8
  let n := le p 8 4
  let mib := off / 2 ^ 20
  if 8192 < mib + n ∨ (d.ope.rq.any fun x => x.2.spill && x.2.st ≠ .disabled && decide (x.2.baseMib < mib + n)
      && decide (mib < x.2.baseMib + x.2.sizeMib)) then ret rcInput d
  else (.long (.scratch off (off + n * 2 ^ 20)) 2 (n * 2 ^ 20), d)

/-- Meaning of CLEAR_SCRATCH (R351). -/
def execClearScratch (tr : Transport) (p : List Byte) (s : State) : Ans :=
  run (command 0xC101 mSM true (len 12) (fun p => decide (le p 0 8 % 2 ^ 20 = 0) && decide (1 ≤ le p 8 4)) clearScratch tr p) s

/-- Zeros are written to a span of scratch. -/
def scratchZero (lo hi : Nat) (d : Dev) : Dev :=
  { d with ope.scratch := d.ope.scratch.filter fun x => !(decide (lo ≤ x.1) && decide (x.1 < hi)) }

/-! ### Map and stewardship commands (R353) -/

/-- RELEASE_RANGE's conditions (R84): a frond-aligned DPA, a span below MAP_LIMIT. -/
def releaseRange (p : List Byte) (d : Dev) : Res × Dev :=
  let a := le p 0 8
  let n := le p 8 8
  let f := a / 4096
  if a % 4096 ≠ 0 ∨ n = 0 ∨ d.map.limit < f + n then ret rcInput d
  else (.long (.release f (f + n - 1) f) 1 n, d)

/-- Meaning of RELEASE_RANGE (R84, R353). -/
def execReleaseRange (tr : Transport) (p : List Byte) (s : State) : Ans :=
  run (command 0xC300 mSM false (len 16) (fun _ => true) releaseRange tr p) s

/-- A window of any port on the ring maps this node's addresses at or above a frond (R86, R248). -/
def windowAbove (d : Dev) (top : Nat) : Bool :=
  d.hst.wins.any fun x => decide (x.1.base < (d.srn.index + 1) * 65536)
    && decide (d.srn.index * 65536 * 65536 + top < (x.1.base + x.1.size) * 65536)

/-- SHED_CAPACITY's conditions (R86). -/
def shedCapacity (p : List Byte) (d : Dev) : Res × Dev :=
  let gib := le p 0 4
  let top := gib * 262144
  if gib < 8192 ∨ d.map.limit / 262144 ≤ gib ∨ windowAbove d top then ret rcInput d
  else if d.srn.ring = .parted then ret rcParted d
  else (.long (.shed top top) 1 (d.map.limit - top), { d with csh.emptying := true })

/-- Meaning of SHED_CAPACITY (R86, R353). -/
def execShedCapacity (tr : Transport) (p : List Byte) (s : State) : Ans :=
  run (command 0xC301 mSM false (len 4) (fun _ => true) shedCapacity tr p) s

/-- The shed ends: the new limit is stored, then in force (R86). A refused write ends it with the fronds released. -/
def shedEnd (top : Nat) (d : Dev) : Nat × Dev :=
  let n := d.map.limit - top
  let d := { d with csh.emptying := false }
  match secRefused 4 d with
  | some x => x
  | none =>
    (rcOk, admitEval (post 0x3027 0 top n 1 0 { fwWrite (.mapLimit top) d with map.limit := top }))

/-- CLEAR_WRITE_REFUSED (R193). -/
def clearRefused (d : Dev) : Res × Dev :=
  if d.stw.free = .exhausted then ret rcInput d
  else match secRefused 7 d with
    | some (rc, d) => ret rc d
    | none => ret rcOk (post 0x6012 0 0 0 0 0 { fwWrite (.writeRefused false) d with stw.refused := false })

/-- Meaning of CLEAR_WRITE_REFUSED (R193, R353). -/
def execClearWriteRefused (tr : Transport) (p : List Byte) (s : State) : Ans :=
  run (command 0xC302 mSM false (len 0) (fun _ => true) (fun _ d => clearRefused d) tr p) s

/-- GET_MEDIA_LIFE (R353). -/
def mediaLife (d : Dev) : List Byte :=
  toLe 8 (stwCycles d) ++ toLe 8 (stwMean d) ++ toLe 8 (stwPool d) ++ toLe 8 (stwRetire d) ++ toLe 8 (stwPatrolStat d)
    ++ toLe 2 (d.med.dies.filter fun x => x.2.failed).length

/-- Meaning of GET_MEDIA_LIFE (R353). -/
def execGetMediaLife (tr : Transport) (p : List Byte) (s : State) : Ans :=
  run (command 0xC303 mNotH false (len 0) (fun _ => true) (fun _ d => ans rcOk (mediaLife d) d) tr p) s

/-! ### Ledger and diagnostic commands (R358) -/

/-- IDENTIFY_NODE (R358). -/
def identifyNode (d : Dev) : List Byte :=
  let v := match d.variant with
    | .A => 0 | .B => 1 | .M => 2
  let ver := if d.bfl.running = 1 then d.bfl.version1 else if d.bfl.running = 2 then d.bfl.version2 else 0
  toLe 1 v ++ toLe 1 d.engines ++ toLe 1 (if d.isM then 0 else 2) ++ toLe 1 (if d.srn.indexed then d.srn.index else 255)
    ++ toLe 4 0 ++ toLe 8 d.pst.nv.serial ++ toLe 8 ver ++ toLe 8 d.map.limit

/-- Meaning of IDENTIFY_NODE (R358). -/
def execIdentifyNode (tr : Transport) (p : List Byte) (s : State) : Ans :=
  run (command 0xC800 mAll false (len 0) (fun _ => true) (fun _ d => ans rcOk (identifyNode d) d) tr p) s

/-- LEDGER_SNAPSHOT (R358): a copy in one cycle, then the clear that byte 0 asks for. -/
def ledgerSnapshot (p : List Byte) (d : Dev) : Res × Dev :=
  ans rcOk (regBytes d 0x100080 8 ++ regBytes d 0x100100 16 ++ regBytes d 0x100180 1 ++ regBytes d 0x100190 1)
    (if bit (byte p 0) 0 then ovrClear (xtrmClear d) else d)

/-- Meaning of LEDGER_SNAPSHOT (R358). -/
def execLedgerSnapshot (tr : Transport) (p : List Byte) (s : State) : Ans :=
  run (command 0xC801 mSDTM false (len 1) (fun p => decide (byte p 0 < 2)) ledgerSnapshot tr p) s

/-- A line as management DMA or the debug access port reads it (R221, R358, R91): the return code that stops the read there, if
any, and its bytes. A refused access is recorded under its master. -/
def dmaLine (master : Nat) (ts : Trouble) (k : Nat) (d : Dev) : Nat × Line × Dev :=
  let f := k / 64
  match rangeOf d f with
  | some (n, _) =>
    let a := ringAddr d.srn.index f (k % 64)
    (rcProtected, 0, post 0x7010 2 master (a / 65536) (a % 65536) n { d with sec.cnt := bump d.sec.cnt 4 })
  | none =>
    let (x, d) := backRead 6 f (k % 64) ts d
    (if x.2 then rcPoisoned else rcOk, x.1, d)

/-- The lines of a MEM_READ in ascending order, up to the first that stops it; those before a poisoned line are output (R344). -/
def memLines (ts : Trouble) : List Nat → List Byte → Dev → Nat × List Byte × Dev
  | [], out, d => (rcOk, out, d)
  | k :: ks, out, d => match dmaLine 0 ts k d with
    | (0, x, d) => memLines ts ks (out ++ lineBytes x) d
    | (rc, _, d) => (rc, if rc = rcPoisoned then out else [], d)

/-- The lines k to k + n - 1 are read, or wait for a map line under its error sequence (R81). -/
def memTake (k n : Nat) (ts : Trouble) (d : Dev) : Option (Nat × List Byte) × Dev :=
  let ks := (List.range n).map (k + ·)
  let (w, d) := probesWait ((ks.map (· / 64)).dedup.filter fun f => (rangeOf d f).isNone) d
  if w then (none, d) else let (rc, out, d) := memLines ts ks [] d; (some (rc, out), d)

/-- MEM_READ (R358, R221): management DMA in class C5; a protected frond and a poisoned line stop it. -/
def memRead (ts : Trouble) (p : List Byte) (d : Dev) : Res × Dev :=
  let a := le p 0 8
  let n := le p 8 2 / 64
  let k := a % 2 ^ 44 / 64
  if 2 ^ 48 ≤ a ∨ addrIndex a ≠ d.srn.index ∨ d.map.limit * 64 < k + n then ret rcInput d
  else match memTake k n ts d with
    | (some (rc, out), d) => ans rc out d
    | (none, d) => (.long (.mem k n) 0 n, d)

/-- The debug access port reads the line of a ring address (R221): its bytes, or a bus error. -/
def debugRead (ts : Trouble) (a : Nat) (d : Dev) : Dev :=
  if !d.on then d
  else if 2 ^ 48 ≤ a ∨ addrIndex a ≠ d.srn.index then emit (.dbg a none) d
  else if d.map.limit ≤ addrFrond a then emit (.dbg a none) (beyondLimit a false d.srn.index d)
  else match dmaLine 1 ts (a % 2 ^ 44 / 64) d with
    | (0, x, d) => emit (.dbg a (some x)) d
    | (_, _, d) => emit (.dbg a none) d

/-- Meaning of MEM_READ (R358); with `dbg`, a read through the debug access port (R221). -/
def execMemRead (tr : Transport) (p : List Byte) (ts : Trouble) (dbg : Bool) (s : State) : Ans :=
  run (if dbg then debugRead ts (le p 0 8) else command 0xC802 mSM false (len 10)
    (fun p => decide (le p 0 8 % 64 = 0) && decide (le p 8 2 % 64 = 0) && decide (64 ≤ le p 8 2) && decide (le p 8 2 ≤ 4032))
    (memRead ts) tr p) s

/-- Meaning of LOCKSTEP_MISMATCH (R30, R360): a fatal fault. -/
def execLockstepMismatch (pair pc : Nat) (s : State) : Ans := run (fatal 0x9004 pair (pc % 2 ^ 32) 0 0) s

end Sys2Proof.Machine
end

