-- ==== Sys2Proof/Machine/Sha.lean ====
section
/-! DEFINITION. Machine/Sha.lean: SHA-384 (FIPS 180-4), by which the parameter store keeps its passwords (R369). -/

namespace Sys2Proof.Machine

/-- Round constants 0 to 19 of SHA-384. -/
def shaK0 : List W64 :=
  [0x428a2f98d728ae22, 0x7137449123ef65cd, 0xb5c0fbcfec4d3b2f, 0xe9b5dba58189dbbc, 0x3956c25bf348b538,
    0x59f111f1b605d019, 0x923f82a4af194f9b, 0xab1c5ed5da6d8118, 0xd807aa98a3030242, 0x12835b0145706fbe,
    0x243185be4ee4b28c, 0x550c7dc3d5ffb4e2, 0x72be5d74f27b896f, 0x80deb1fe3b1696b1, 0x9bdc06a725c71235,
    0xc19bf174cf692694, 0xe49b69c19ef14ad2, 0xefbe4786384f25e3, 0x0fc19dc68b8cd5b5, 0x240ca1cc77ac9c65]

/-- Round constants 20 to 39 of SHA-384. -/
def shaK1 : List W64 :=
  [0x2de92c6f592b0275, 0x4a7484aa6ea6e483, 0x5cb0a9dcbd41fbd4, 0x76f988da831153b5, 0x983e5152ee66dfab,
    0xa831c66d2db43210, 0xb00327c898fb213f, 0xbf597fc7beef0ee4, 0xc6e00bf33da88fc2, 0xd5a79147930aa725,
    0x06ca6351e003826f, 0x142929670a0e6e70, 0x27b70a8546d22ffc, 0x2e1b21385c26c926, 0x4d2c6dfc5ac42aed,
    0x53380d139d95b3df, 0x650a73548baf63de, 0x766a0abb3c77b2a8, 0x81c2c92e47edaee6, 0x92722c851482353b]

/-- Round constants 40 to 59 of SHA-384. -/
def shaK2 : List W64 :=
  [0xa2bfe8a14cf10364, 0xa81a664bbc423001, 0xc24b8b70d0f89791, 0xc76c51a30654be30, 0xd192e819d6ef5218,
    0xd69906245565a910, 0xf40e35855771202a, 0x106aa07032bbd1b8, 0x19a4c116b8d2d0c8, 0x1e376c085141ab53,
    0x2748774cdf8eeb99, 0x34b0bcb5e19b48a8, 0x391c0cb3c5c95a63, 0x4ed8aa4ae3418acb, 0x5b9cca4f7763e373,
    0x682e6ff3d6b2b8a3, 0x748f82ee5defb2fc, 0x78a5636f43172f60, 0x84c87814a1f0ab72, 0x8cc702081a6439ec]

/-- Round constants 60 to 79 of SHA-384. -/
def shaK3 : List W64 :=
  [0x90befffa23631e28, 0xa4506cebde82bde9, 0xbef9a3f7b2c67915, 0xc67178f2e372532b, 0xca273eceea26619c,
    0xd186b8c721c0c207, 0xeada7dd6cde0eb1e, 0xf57d4f7fee6ed178, 0x06f067aa72176fba, 0x0a637dc5a2c898a6,
    0x113f9804bef90dae, 0x1b710b35131c471b, 0x28db77f523047d84, 0x32caab7b40c72493, 0x3c9ebe0a15c9bebc,
    0x431d67c49c100d4c, 0x4cc5d4becb3e42b6, 0x597f299cfc657e2a, 0x5fcb6fab3ad6faec, 0x6c44198c4a475817]

/-- The eight working words. -/
structure Sha where
  a : W64
  b : W64
  c : W64
  d : W64
  e : W64
  f : W64
  g : W64
  h : W64
  deriving DecidableEq, Repr

/-- The initial hash value of SHA-384. -/
def shaInit : Sha :=
  ⟨0xcbbb9d5dc1059ed8, 0x629a292a367cd507, 0x9159015a3070dd17, 0x152fecd8f70e5939,
    0x67332667ffc00b31, 0x8eb44a8768581511, 0xdb0c2e0d64f98fa7, 0x47b5481dbefa4fa4⟩

/-- A word rotated right. -/
def ror (x : W64) (n : Nat) : W64 := x.rotateRight n

/-- One round with its constant and schedule word added. -/
def Sha.round (s : Sha) (kw : W64) : Sha :=
  let t1 := s.h + (ror s.e 14 ^^^ ror s.e 18 ^^^ ror s.e 41) + ((s.e &&& s.f) ^^^ (~~~s.e &&& s.g)) + kw
  let t2 := (ror s.a 28 ^^^ ror s.a 34 ^^^ ror s.a 39) + ((s.a &&& s.b) ^^^ (s.a &&& s.c) ^^^ (s.b &&& s.c))
  ⟨t1 + t2, s.a, s.b, s.c, s.d + t1, s.e, s.f, s.g⟩

/-- The next word of the message schedule, from the words before it, newest first. -/
def shaNext (w : List W64) : W64 :=
  let x := w.getD 14 0
  let y := w.getD 1 0
  (ror y 19 ^^^ ror y 61 ^^^ (y >>> 6)) + w.getD 6 0 + (ror x 1 ^^^ ror x 8 ^^^ (x >>> 7)) + w.getD 15 0

/-- The message schedule, extended by n words, newest first. -/
def shaWords : Nat → List W64 → List W64
  | 0, w => w
  | n + 1, w => shaWords n (shaNext w :: w)

/-- One 16-word block enters the hash value. -/
def Sha.block (s : Sha) (m : List W64) : Sha :=
  let ks := shaK0 ++ shaK1 ++ shaK2 ++ shaK3
  let t := (ks.zip (shaWords 64 m.reverse).reverse).foldl (fun t x => t.round (x.1 + x.2)) s
  ⟨s.a + t.a, s.b + t.b, s.c + t.c, s.d + t.d, s.e + t.e, s.f + t.f, s.g + t.g, s.h + t.h⟩

/-- The bytes of a word, most significant first. -/
def beBytes (n v : Nat) : List Byte := (toLe n v).reverse

/-- A message with its padding: 0x80, zeros, and its length in bits as 16 bytes. -/
def shaPad (m : List Byte) : List Byte :=
  m ++ (0x80 : Byte) :: List.replicate ((239 - m.length % 128) % 128) 0 ++ beBytes 16 (8 * m.length)

/-- Word i of a padded message. -/
def shaWord (m : List Byte) (i : Nat) : W64 := BitVec.ofNat 64 (le ((m.drop (8 * i)).take 8).reverse 0 8)

/-- SHA-384 of a message: 48 bytes. -/
def sha384 (m : List Byte) : List Byte :=
  let p := shaPad m
  let s := (List.range (p.length / 128)).foldl
    (fun (s : Sha) k => s.block ((List.range 16).map fun i => shaWord p (16 * k + i))) shaInit
  [s.a, s.b, s.c, s.d, s.e, s.f].flatMap fun w => beBytes 8 w.toNat

end Sys2Proof.Machine
end

