-- ==== Sys2Proof/Machine/Pst.lean ====
section
/-! DEFINITION. Machine/Pst.lean: the parameter store (R362–R370), the boot flash and its log (R371–R378, R389), and their
commands (R345, R356, R357). -/

namespace Sys2Proof.Machine

/-! ### Rows and passwords -/

/-- What a read of a row meets (R363, R364): 0 its newer copy governs, 1 reverted to the older, 2 lost. -/
def PRow.fault (r : PRow) : Nat :=
  let bNew := r.b.commit && (!r.a.commit || decide (r.b.seq = (r.a.seq + 1) % 4))
  let newer := if bNew then r.b else r.a
  let older := if bNew then r.a else r.b
  if newer.commit && newer.ok then 0 else if older.commit && older.ok then 1 else 2

/-- The row fault of R364: counted and recorded. -/
def rowFault (part row fault : Nat) (d : Dev) : Dev :=
  if fault = 0 then d
  else post 0x9010 fault part row (fault - 1) 0 { d with pst.cnt := bump d.pst.cnt (fault + 1) }

/-- The digest of a password (R369): the first 32 bytes of SHA-384 over serial ‖ partition ‖ kind ‖ password; the serial takes 8
bytes, partition and kind one each (DESIGN CHOICE, log entry 93). -/
def pwDigest (d : Dev) (part kind : Nat) (pw : List Byte) : BitVec 256 :=
  BitVec.ofNat 256 (le (sha384 (toLe 8 d.pst.nv.serial ++ toLe 1 part ++ toLe 1 kind ++ pw)) 0 32)

/-- A password matches (R369): an unset one is matched by length 0 alone. -/
def pwOk (d : Dev) (part kind : Nat) (pw : List Byte) : Bool :=
  match tget (if kind = 0 then d.pst.rpw else d.pst.wpw) part with
  | none => pw.isEmpty
  | some h => !pw.isEmpty && decide (pwDigest d part kind pw = h)

/-- A password does not match: counted, recorded, and the command is held (R342, R369). -/
def pwFail (part kind : Nat) (tr : Transport) (d : Dev) : Res × Dev :=
  (.long (.hold rcPassword) 0 0,
    post 0x9001 1 part kind (trCode tr) (d.mbx.pwFails + 1)
      { d with mbx.cnt := bump d.mbx.cnt 7, mbx.pwFails := d.mbx.pwFails + 1 })

/-- The password field at an offset of a payload. -/
def pwField (p : List Byte) (off n : Nat) : List Byte := (p.drop off).take n

/-- A host partition and a span inside its data rows (R356, R362). -/
def hostSpan (part off n : Nat) : Bool := decide (12 ≤ part) && decide (part ≤ 15) && decide (off + n ≤ 32640)

/-- The bytes of a span of rows, whether a row was lost, and the faults and corrected groups counted (R363, R364). -/
def rowsRead (part off n : Nat) (d : Dev) : List Byte × Bool × Dev :=
  let r := (span (off / 32) ((off + n - 1) / 32)).foldl (fun (a : List Byte × Bool × Dev) row =>
    let x := tget a.2.2.pst.rows (1024 * part + row)
    let b := match x.gov with
      | some c => toLe 32 c.data.toNat
      | none => toLe 32 0
    let d := rowFault part row x.fault a.2.2
    (a.1 ++ b, a.2.1 || decide (x.fault = 2), { d with pst.cnt := bump d.pst.cnt 1 (x.gov.getD {}).fixes })) ([], false, d)
  ((r.1.drop (off % 32)).take n, r.2.1, r.2.2)

/-- PST_READ (R356, R364). -/
def pstRead (tr : Transport) (p : List Byte) (d : Dev) : Res × Dev :=
  let part := byte p 0
  if !pwOk d part 0 (pwField p 8 (byte p 6)) then pwFail part 0 tr d
  else
    let (bs, lost, d) := rowsRead part (le p 2 2) (le p 4 2) d
    if lost then ret rcInternal d else ans rcOk bs d

/-- Meaning of PST_READ (R356). -/
def execPstRead (tr : Transport) (p : List Byte) (s : State) : Ans :=
  run (command 0xC600 mNotH false (len 40)
    (fun p => hostSpan (byte p 0) (le p 2 2) (le p 4 2) && decide (1 ≤ le p 4 2) && decide (le p 4 2 ≤ 4032)
      && decide (byte p 6 ≤ 32) && byte p 1 = 0 && byte p 7 = 0) (pstRead tr) tr p) s

/-- The next row of a running PST_WRITE starts, or the command is held to its end: the supply is checked before each row
(R356, R365), and a partition marked WORN takes no further row (R367). -/
def hostRowStart (d : Dev) : Dev := match d.mbx.run with
  | some r => match r.job with
    | .pstWrite part row _ _ =>
      if d.pst.writing then d
      else if part ∈ d.pst.worn then
        { d with mbx.run := some { r with job := .hold rcWorn }, pst.cnt := bump d.pst.cnt 5 }
      else if supplyOk d then { d with pst.writing := true, pst.hostRow := true }
      else supplyLow part row { d with mbx.run := some { r with job := .hold rcSupply } }
    | _ => d
  | none => d

/-- PST_WRITE (R356): its password, the partition's state, then its first row. -/
def pstWrite (tr : Transport) (p : List Byte) (d : Dev) : Res × Dev :=
  let part := byte p 0
  let rows := le p 4 2 / 32
  if !pwOk d part 1 (pwField p 8 (byte p 6)) then pwFail part 1 tr d
  else if part ∈ d.pst.worn then ret rcWorn { d with pst.cnt := bump d.pst.cnt 5 }
  else (.long (.pstWrite part (le p 2 2 / 32) rows (p.drop 40)) 3 rows, d)

/-- Meaning of PST_WRITE (R356, R365). -/
def execPstWrite (tr : Transport) (p : List Byte) (s : State) : Ans :=
  run (fun d =>
    let was := d.mbx.run.isSome
    let d := command 0xC601 mSDTM false (fun n => decide (n = 40 + le p 4 2))
      (fun p => hostSpan (byte p 0) (le p 2 2) (le p 4 2) && decide (32 ≤ le p 4 2) && decide (le p 4 2 ≤ 1024)
        && decide (le p 4 2 % 32 = 0) && decide (le p 2 2 % 32 = 0) && decide (byte p 6 ≤ 32) && byte p 1 = 0 && byte p 7 = 0)
      (pstWrite tr) tr p d
    if was then d else hostRowStart d) s

/-- PST_SET_PASSWORD (R356, R369): the digest goes into control row 1020 or 1021. -/
def pstSetPassword (tr : Transport) (p : List Byte) (d : Dev) : Res × Dev :=
  let part := byte p 0
  let kind := byte p 1
  let h := pwDigest d part kind (pwField p 40 (byte p 3))
  if !pwOk d part 1 (pwField p 8 (byte p 2)) then pwFail part 1 tr d
  else if part ∈ d.pst.worn then ret rcWorn { d with pst.cnt := bump d.pst.cnt 5 }
  else if !supplyOk d then ret rcSupply (supplyLow part (1020 + kind) d)
  else
    let d := fwWrite (.host part (1020 + kind) h) d
    ret rcOk (if kind = 0 then { d with pst.rpw := tset d.pst.rpw part (some h) } else { d with pst.wpw := tset d.pst.wpw part (some h) })

/-- Meaning of PST_SET_PASSWORD (R356, R369). -/
def execPstSetPassword (tr : Transport) (p : List Byte) (s : State) : Ans :=
  run (command 0xC602 mSM false (len 72)
    (fun p => decide (12 ≤ byte p 0) && decide (byte p 0 ≤ 15) && decide (byte p 1 < 2) && decide (byte p 2 ≤ 32)
      && decide (8 ≤ byte p 3) && decide (byte p 3 ≤ 32) && zeros p 4 4) (pstSetPassword tr) tr p) s

/-- PST_GET_INFO (R356). -/
def pstInfo (d : Dev) : List Byte :=
  (List.range 16).flatMap fun n =>
    toLe 8 (sat 32 (tget d.pst.maxCount n) + bfld 32 (decide (n ∈ d.pst.worn)) + bfld 33 (decide (12 ≤ n)))

/-- Meaning of PST_GET_INFO (R356). -/
def execPstGetInfo (tr : Transport) (p : List Byte) (s : State) : Ans :=
  run (command 0xC603 mAll false (len 0) (fun _ => true) (fun _ d => ans rcOk (pstInfo d) d) tr p) s

/-! ### Row writes (R363–R367) -/

/-- The marker of the next sector waiting for its erase is written; sectors that FW_WP# protects leave the queue (R375, R378). -/
def eraseNext (d : Dev) : Dev :=
  let q := d.bfl.eraseQ.filter fun s => !d.bfl.wp || decide (784 ≤ s)
  let d := { d with bfl.eraseQ := q }
  match q with
  | [] => d
  | s :: _ => if d.bfl.erasing.isSome || d.pst.fwq.contains (.marker (some s)) then d else fwPut (.marker (some s)) d

/-- The erase of a sector whose marker is written runs (R371, R378), unless FW_WP# has come to protect it (R375). -/
def eraseStart (sector : Nat) (d : Dev) : Dev :=
  let d := { d with bfl.eraseQ := d.bfl.eraseQ.filter (· ≠ sector) }
  if d.bfl.wp ∧ sector < 784 then eraseNext (fwPut (.marker none) d)
  else { d with bfl.erasing := some sector, bfl.suspended := false, bfl.cnt := bump d.bfl.cnt 0 }

/-- Asks for the erase of a sector: its number goes to the erase-in-progress marker first, one erase at a time (R378). -/
def eraseAsk (sector : Nat) (d : Dev) : Dev := eraseNext { d with bfl.eraseQ := d.bfl.eraseQ ++ [sector] }

/-- A row of a running PST_WRITE is committed; the next one starts, or the command is held to its end (R356, R363). -/
def hostRowDone (d : Dev) : Dev := match d.mbx.run with
  | some r => match r.job with
    | .pstWrite part row rows data =>
      let d := fwWrite (.host part row (BitVec.ofNat 256 (le data 0 32))) { d with pst.writing := false, pst.hostRow := false }
      let r := { r with done := r.done + 1, job := if r.done + 1 = rows then .hold rcOk else .pstWrite part (row + 1) rows (data.drop 32) }
      hostRowStart (progSet r (msOf (d.time - r.startT)) { d with mbx.run := some r })
    | _ => { d with pst.writing := false, pst.hostRow := false }
  | none => { d with pst.writing := false, pst.hostRow := false }

/-- PST_ROW_WRITE_DONE: the row in progress is committed, and the next row starts (R363, R366). A committed marker lets its
erase start (R378). -/
def rowWriteDone (d : Dev) : Dev :=
  if !d.pst.writing then d
  else if d.pst.hostRow then hostRowDone d
  else match d.pst.fwq with
    | [] => { d with pst.writing := false }
    | w :: rest =>
      let d := fwWrite w { d with pst.fwq := rest, pst.writing := false }
      let d := match w with
        | .marker (some s) => eraseStart s d
        | _ => d
      if pstBusy d then hostRowStart d else pstStart d

/-- Meaning of PST_ROW_WRITE_DONE (R363, R366). -/
def execPstRowWriteDone (s : State) : Ans := run rowWriteDone s

/-! ### The boot flash -/

/-- A byte of the flash (R371). The cells hold the bytes inverted, so that an unlisted byte is erased, 0xFF. The
configuration region's contents are not given (log entry 6). -/
def flashByte (d : Dev) (a : Nat) : Byte :=
  if a < 0x3000000 then ~~~(tget d.bfl.img a)
  else if a < 0x3100000 then Config.standardByte 0 a
  else ~~~(tget d.bfl.log a)

/-- Programs bytes of the log region. -/
def logProgram (a : Nat) (bs : List Byte) (d : Dev) : Dev :=
  { d with bfl.log := bs.zipIdx.foldl (fun t (x : Byte × Nat) => tset t (a + x.2) (~~~x.1)) d.bfl.log }

/-- Programs bytes of an image slot. -/
def imgProgram (a : Nat) (bs : List Byte) (d : Dev) : Dev :=
  { d with bfl.img := bs.zipIdx.foldl (fun t (x : Byte × Nat) => tset t (a + x.2) (~~~x.1)) d.bfl.img }

/-- Erases a sector. -/
def sectorErase (sector : Nat) (d : Dev) : Dev :=
  { d with
    bfl.img := d.bfl.img.filter fun x => x.1 / 65536 ≠ sector
    bfl.log := d.bfl.log.filter fun x => x.1 / 65536 ≠ sector }

/-- The sector after one of the log region, which is circular over sectors 784–1023 (R389). -/
def nextSector (sector : Nat) : Nat := if sector = 1023 then 784 else sector + 1

/-- FLASH_ERASE_DONE (R378): verified, the marker is cleared; a failed erase is recorded and runs again, its marker still
open (log entry 31). -/
def eraseDone (ok : Bool) (d : Dev) : Dev := match d.bfl.erasing with
  | none => d
  | some s =>
    if ok then flashKick (eraseNext (fwPut (.marker none) (sectorErase s { d with bfl.erasing := none, bfl.suspended := false })))
    else eraseStart s (post 0x9023 2 (s * 65536) 1 0 0 d)

/-- Meaning of FLASH_ERASE_DONE (R378). -/
def execFlashEraseDone (ok : Bool) (s : State) : Ans := run (eraseDone ok) s

/-- Meaning of FLASH_ERASE_RESUME (R377). -/
def execFlashEraseResume (s : State) : Ans :=
  run (fun d => if d.bfl.erasing.isSome ∧ !d.bfl.programming then { d with bfl.suspended := false } else d) s

/-- The write pointer moves to the next page; a sector it enters starts the erase of the one after (R389). -/
def pageNext (d : Dev) : Dev :=
  let w := if d.bfl.wptr + 256 = 0x4000000 then 0x3100000 else d.bfl.wptr + 256
  let d := { d with bfl.wptr := w, bfl.page := [], bfl.programming := false }
  if w % 65536 = 0 then eraseAsk (nextSector (w / 65536)) d else d

/-- Meaning of FLASH_LOG_TIMER (R389): the oldest record has waited 50 ms. -/
def execFlashLogTimer (s : State) : Ans := run flashStart s

/-- Meaning of ERASE_MARKER_RETRY (R378): a refused marker is written again. -/
def execEraseMarkerRetry (s : State) : Ans :=
  run eraseNext s

/-- Dummy cycles of R376 for a divisor code and a supply in mV. -/
def dummyFor (div mv : Nat) : Nat :=
  let low := decide (mv < 1750)
  match div with
  | 0 => if low then 24 else 20
  | 1 => if low then 16 else 14
  | _ => if low then 10 else 8

/-- Node firmware sets BFL_WAIT (R376); the clock it runs the flash at is the implementation's. -/
def waitSet (d : Dev) : Dev :=
  let v := if d.bfl.supplyMv < 1700 then 2 else Config.flashClock % 3
  { d with bfl.div := v, bfl.dummy := dummyFor v d.bfl.supplyMv }

/-- Meaning of FLASH_SUPPLY_CROSSING (R376). -/
def execFlashSupplyCrossing (mv : Nat) (s : State) : Ans :=
  run (fun d =>
    let d := { d with bfl.supplyMv := mv }
    if d.on then waitSet d else d) s

/-! ### Images (R372–R375) -/

/-- State of a slot. -/
def slotSt (d : Dev) (slot : Nat) : Nat := if slot = 1 then d.bfl.state1 else d.bfl.state2

/-- Flash address of a slot's first byte (R371). -/
def slotBase (slot : Nat) : Nat := (slot - 1) * 0x1800000

/-- A page of an image part fails: the slot stays invalid (R373). -/
def partBad (slot a : Nat) (d : Dev) : Dev :=
  post 0x9023 2 a 0 0 0 (post 0x9020 1 slot 4 0 0 { d with mbx.fwNext := none })

/-- A page program of the running Transfer FW part fails: the part ends with Internal Error (R373). -/
def partPageBad (d : Dev) : Dev := match d.mbx.run with
  | some r => match r.job with
    | .fwPart slot off .. =>
      cmdEnd r.tr r.opcode rcInternal [] (msOf (d.time - r.startT)) r.lost (partBad slot (slotBase slot + off) d)
    | _ => d
  | none => d

/-- FLASH_PAGE_PROGRAM_DONE (R373, R389): the records of a log page leave the queue; after a failure they stay for the next page
(log entry 31). Without a log page under way it is a page of an image part. -/
def pageDone (ok : Bool) (d : Dev) : Dev :=
  if !d.bfl.programming then (if ok then d else partPageBad d)
  else
    let n := d.bfl.page.length
    let d := if ok then
        logProgram d.bfl.wptr (d.bfl.page.flatMap Rec.bytes)
          { d with
            evr.flashQ := d.evr.flashQ.drop n
            bfl.cnt := bump d.bfl.cnt 1
            evr.cnt := bump d.evr.cnt 5 n }
      else post 0x9023 2 d.bfl.wptr 0 0 0 d
    flashKick (pageNext d)

/-- Meaning of FLASH_PAGE_PROGRAM_DONE (R371, R389). -/
def execFlashPageProgramDone (ok : Bool) (s : State) : Ans := run (pageDone ok) s

/-- Version and security version from a slot's header (R372). -/
def headerLoad (slot : Nat) (d : Dev) : Dev :=
  let hd := (List.range 20).map fun i => flashByte d (slotBase slot + i)
  if slot = 1 then { d with bfl.version1 := le hd 8 8, bfl.sec1 := le hd 16 4 }
  else { d with bfl.version2 := le hd 8 8, bfl.sec2 := le hd 16 4 }

/-- Security version of a slot. -/
def slotSec (d : Dev) (slot : Nat) : Nat := if slot = 1 then d.bfl.sec1 else d.bfl.sec2

/-- Sectors that begin inside a part. -/
def sectorsOf (a n : Nat) : List Nat := if n = 0 then [] else (span (a / 65536) ((a + n - 1) / 65536)).filter fun s => decide (a ≤ s * 65536)

/-- Transfer FW's checks (R345, R373, R375); a slot is set invalid before its first sector is erased. -/
def transferFw (progOk hashOk sigOk : Bool) (p : List Byte) (d : Dev) : Res × Dev :=
  let action := byte p 0
  let slot := byte p 1
  let off := le p 4 4 * 128
  let data := p.drop 128
  if slot ≠ 1 ∧ slot ≠ 2 ∨ slot = d.bfl.running then ret rcSlot d
  else if d.bfl.wp then ret rcWp d
  else if 0x1800000 < off + data.length then ret rcInput d
  else match action with
    | 4 => match d.mbx.fwNext with
      | none => ret rcFwOrder d
      | some (s, _) => ret rcOk (post 0x9020 1 s 0 0 0 { d with mbx.fwNext := none })
    | _ =>
      let first := action = 0 ∨ action = 1
      if first ∧ d.mbx.fwNext.isSome then ret rcFwInProgress d
      else if (first ∧ off ≠ 0) ∨ (¬ first ∧ d.mbx.fwNext ≠ some (slot, off)) then ret rcFwOrder d
      else match secRefused 0 d with
        | some (rc, d) => ret rc d
        | none =>
          let d := if first then fwWrite (.slotState slot 2) d else d
          let d := (sectorsOf (slotBase slot + off) data.length).foldl (fun d s => eraseAsk s d) d
          (.long (.fwPart slot off (action = 0 || action = 3) data progOk hashOk sigOk) 2 data.length, d)

/-- Meaning of TRANSFER_FW (R345, R373): CXL's layout, action, slot, offset in 128-byte units, data from byte 128. -/
def execTransferFw (tr : Transport) (p : List Byte) (progOk hashOk sigOk : Bool) (s : State) : Ans :=
  run (command 0x0201 mSDTM false (fun n => decide (128 ≤ n) && decide (n ≤ 4096))
    (fun p => decide (byte p 0 ≤ 4) && zeros p 2 2 && zeros p 8 120) (transferFw progOk hashOk sigOk) tr p) s

/-- A part ends (R373): its bytes programmed and read back, and at the last part the image checked. None: an erase or a log page's
program has yet to end (R371, R378). -/
def partEnd (slot off : Nat) (last : Bool) (data : List Byte) (progOk hashOk sigOk : Bool) (d : Dev) : Option (Nat × Dev) :=
  let a := slotBase slot + off
  if d.bfl.programming ∨ d.bfl.erasing.isSome ∨ (sectorsOf a data.length).any d.bfl.eraseQ.contains then none
  else if !progOk then
      some (rcInternal, partBad slot a d)
  else
      let d := imgProgram a data { d with
        bfl.cnt := bump d.bfl.cnt 1 ((data.length + 255) / 256)
        mbx.fwNext := if last then none else some (slot, off + data.length) }
      if !last then some (rcOk, d)
      else
        let d := headerLoad slot d
        let cause := if !hashOk then 1 else if !sigOk then 2 else if slotSec d slot < d.pst.nv.minSec then 3 else 0
        if cause ≠ 0 then some (rcFwVerify, post 0x9020 1 slot cause 0 0 d)
        else some (match secRefused 0 d with
          | some x => x
          | none => (rcOk, fwWrite (.slotState slot 1) d))

/-- Activate FW (R345, R374). -/
def activateFw (sigOk : Bool) (p : List Byte) (d : Dev) : Res × Dev :=
  let slot := byte p 1
  if (slot ≠ 1 ∧ slot ≠ 2) ∨ slotSt d slot ≠ 1 then ret rcSlot d
  else if !sigOk then ret rcFwVerify d
  else if slotSec d slot < d.pst.nv.minSec then ret rcFwRolled d
  else match secRefused 0 d with
    | some (rc, d) => ret rc d
    | none =>
      let d := { fwWrite (.preferred slot) d with mbx.fwStaged := slot }
      if byte p 0 = 1 then ret rcOk d else (.long (.activate slot) 0 0, d)

/-- Meaning of ACTIVATE_FW (R345): action 0 in Maintenance only. -/
def execActivateFw (tr : Transport) (p : List Byte) (sigOk : Bool) (s : State) : Ans :=
  run (command 0x0202 (if byte p 0 = 0 then mM else mSDTM) false (len 2) (fun p => decide (byte p 0 ≤ 1)) (activateFw sigOk) tr p) s

/-- Action 0 ends: the image runs on both core pairs (R345); lifetime counter 6 when it is another one than last run (R370). -/
def activateEnd (slot : Nat) (d : Dev) : Dev :=
  let d := if d.pst.nv.lastImage = slot then d else fwNow (.life 6) d
  { d with bfl.running := slot, pst.nv.lastImage := slot, mbx.fwStaged := 0 }

/-- FW_WP# changes (R375): asserted during a part, the part ends with WRITE_PROTECTED and the slot stays invalid. -/
def fwWp (asserted : Bool) (d : Dev) : Dev :=
  let d := { d with bfl.wp := asserted }
  match d.mbx.run with
  | some r => match r.job with
    | .fwPart slot _ _ _ _ _ _ =>
      if asserted then
        cmdEnd r.tr r.opcode rcWp [] (msOf (d.time - r.startT)) r.lost (post 0x9020 1 slot 5 0 0 { d with mbx.fwNext := none })
      else d
    | _ => d
  | none => d

/-- Meaning of FW_WP_CHANGE (R375). -/
def execFwWpChange (asserted : Bool) (s : State) : Ans := run (fwWp asserted) s

/-- GET_IMAGE_INFO (R357). -/
def imageInfo (d : Dev) : List Byte :=
  let one (slot ver : Nat) : List Byte :=
    toLe 1 (slotSt d slot) ++ toLe 1 (b2n (decide (d.bfl.running = slot))) ++ toLe 2 0 ++ toLe 4 (slotSec d slot) ++ toLe 8 ver
  one 1 d.bfl.version1 ++ one 2 d.bfl.version2 ++ toLe 4 d.pst.nv.minSec

/-- Meaning of GET_IMAGE_INFO (R357). -/
def execGetImageInfo (tr : Transport) (p : List Byte) (s : State) : Ans :=
  run (command 0xC700 mAll false (len 0) (fun _ => true) (fun _ d => ans rcOk (imageInfo d) d) tr p) s

/-- READ_FLASH_LOG (R357, R371, R377): the read suspends a running erase; the sector under erase reads 0xFF. -/
def readFlashLog (p : List Byte) (d : Dev) : Res × Dev :=
  let a := 0x3000000 + le p 0 4
  let n := le p 4 2
  let hit := match d.bfl.erasing with
    | some s => decide (a / 65536 ≤ s) && decide (s ≤ (a + n - 1) / 65536)
    | none => false
  let bs := (List.range n).map fun i => if d.bfl.erasing = some ((a + i) / 65536) then 0xFF else flashByte d (a + i)
  let susp := d.bfl.erasing.isSome && !d.bfl.suspended
  let c := if susp then bump d.bfl.cnt 2 else d.bfl.cnt
  ans rcOk bs { d with
    bfl.suspended := d.bfl.suspended || susp
    bfl.cnt := if hit then bump c 3 else c }

/-- Meaning of READ_FLASH_LOG (R357). -/
def execReadFlashLog (tr : Transport) (p : List Byte) (s : State) : Ans :=
  run (command 0xC701 mNotH false (len 6)
    (fun p => decide (1 ≤ le p 4 2) && decide (le p 4 2 ≤ 4064) && decide (le p 0 4 + le p 4 2 ≤ 0x1000000)) readFlashLog tr p) s

/-- SET_MIN_SECURITY_VERSION (R357). -/
def setMinSec (p : List Byte) (d : Dev) : Res × Dev :=
  let v := le p 0 4
  if v < d.pst.nv.minSec ∨ slotSec d d.bfl.running < v then ret rcInput d
  else match secRefused 0 d with
    | some (rc, d) => ret rc d
    | none => ret rcOk (fwWrite (.minSec v) d)

/-- Meaning of SET_MIN_SECURITY_VERSION (R357). -/
def execSetMinSecurityVersion (tr : Transport) (p : List Byte) (s : State) : Ans :=
  run (command 0xC702 mSM false (len 4) (fun _ => true) setMinSec tr p) s

end Sys2Proof.Machine
end

