-- ==== Sys2Proof/Machine/Power.lean ====
section
/-! DEFINITION. Machine/Power.lean: clocks, monitors and supplies (R429–R434), the power limit (R436–R439), the energy
store (R440–R442), the thermal model (R443–R446), and their commands (R354). -/

namespace Sys2Proof.Machine

/-- Something of the node is powered. -/
def powered (d : Dev) : Bool := d.pwr.mode ≠ .off

/-! ### Monitors (R432) -/

/-- A monitor has failed: 0 no conversion, 1 out of range, 2 self-test (R432). -/
def monFail (rail cause mw : Nat) (d : Dev) : Dev :=
  if (tget d.pwr.rails rail).failed then d
  else post 0xB002 2 rail cause mw 0 { d with
    pwr.rails := tmod d.pwr.rails rail fun r => { r with failed := true }
    pwr.pwrCnt := bump d.pwr.pwrCnt 5 }

/-- Meaning of MONITOR_FAILED (R432). -/
def execMonitorFailed (rail cause mw : Nat) (s : State) : Ans :=
  run (fun d => if powered d ∧ rail < 6 then monFail rail cause mw d else d) s

/-- MONITOR_CONVERSION: a reading joins its step's mean, or fails the monitor (R432). -/
def monitorConversion (rail mw : Nat) (d : Dev) : Dev :=
  if !powered d ∨ 6 ≤ rail then d
  else if 1250 * railRated rail < mw then monFail rail 1 mw d
  else { d with pwr.rails := tmod d.pwr.rails rail fun r => { r with sum := r.sum + mw, n := r.n + 1 } }

/-- Meaning of MONITOR_CONVERSION (R432). -/
def execMonitorConversion (rail mw : Nat) (s : State) : Ans := run (monitorConversion rail mw) s

/-! ### Supplies (R434) -/

/-- SUPPLY_OUT_OF_RANGE: 12 V low, without a change of mode. A value back in range clears V12_LOW (log entry 37). -/
def supplyOut (mv : Nat) (d : Dev) : Dev :=
  if !powered d then d
  else if 11400 ≤ mv then { d with pwr.v12 := mv, pwr.v12Low := false }
  else if mv < 10800 then d
  else post 0xB001 2 0 mv 0 0 { d with pwr.v12 := mv, pwr.v12Low := true, pwr.pwrCnt := bump d.pwr.pwrCnt 4 }

/-- Meaning of SUPPLY_OUT_OF_RANGE (R434). -/
def execSupplyOutOfRange (mv : Nat) (s : State) : Ans := run (supplyOut mv) s

/-- V12_OVERVOLTAGE: a fatal fault. The voltage is free above 13.2 V. -/
def overvoltage (d : Dev) : Dev :=
  if !powered d ∨ d.pwr.dumping then d
  else
    let (v, d) := draw d
    let mv := 13201 + v % 19567
    haltEntry 0xB001 false false true (post 0xB001 2 0 mv 0 0 { d with pwr.v12 := mv })

/-- Meaning of V12_OVERVOLTAGE (R434). -/
def execV12Overvoltage (s : State) : Ans := run overvoltage s

/-- Meaning of AUX_LOW (R365, R434): writes of the parameter store are refused by their supply check. -/
def execAuxLow (mv : Nat) (s : State) : Ans := run (fun d => if powered d then { d with pst.auxMv := mv } else d) s

/-- The point with the highest temperature. -/
def hottest (d : Dev) : Nat :=
  (List.range 4).foldl (fun b i => if pointHeld d b < pointHeld d i then i else b) 0

/-- L_auto leaves or returns to 200 W (R437). -/
def throttlePost (old : Nat) (d : Dev) : Dev :=
  let h := hottest d
  let p (start : Nat) (d : Dev) : Dev := post 0xB003 1 start d.pwr.lAuto h (twos 32 (halfDeg (pointHeld d h))) d
  if old = 200 ∧ d.pwr.lAuto < 200 then p 1 d else if old < 200 ∧ d.pwr.lAuto = 200 then p 0 d else d

/-- AUX_RESET: the management complex is held in reset, its command is lost, and L_auto stays at its floor (R434, R466).
The voltage is free below 2.9 V. -/
def auxReset (d : Dev) : Dev :=
  if !powered d then d
  else
    let (v, d) := draw d
    throttlePost d.pwr.lAuto { d with
      pst.auxMv := v % 2900
      pst.writing := false
      pst.hostRow := false
      mbx.run := none
      mbx.fwNext := none
      pwr.mgmtReset := true
      pwr.lAuto := 60 }

/-- Meaning of AUX_RESET (R434, R466). -/
def execAuxReset (s : State) : Ans := run auxReset s

/-- AUX_RESTORED: node firmware restarts, record 0xB001, and its writes go on (R466). -/
def auxBack (mv : Nat) (d : Dev) : Dev :=
  if !powered d then d
  else if !d.pwr.mgmtReset then { d with pst.auxMv := mv }
  else
    let d := { d with pst.auxMv := mv, pwr.mgmtReset := false }
    if d.pwr.mode.firmware then pstStart (post 0xB001 2 1 mv 0 0 d) else d

/-- Meaning of AUX_RESTORED (R466). -/
def execAuxRestored (mv : Nat) (s : State) : Ans := run (auxBack mv) s

/-! ### Clocks (R430) -/

/-- CLOCK_FAULT: 0 the crystal, whose loss takes the links down first; 1 the ROOT PLL. A dump goes on (R447). -/
def clockFault (source : Nat) (d : Dev) : Dev :=
  if d.pwr.mode = .off ∨ d.pwr.mode = .held ∨ d.pwr.backup then d
  else
    let crystal := decide (source = 0)
    let d := post 0xB008 4 source 0 0 0 { d with
      pwr.backup := true
      pwr.rootLock := d.pwr.rootLock && crystal
      pwr.hostLock := d.pwr.hostLock && !crystal
      pwr.ringWLock := d.pwr.ringWLock && !crystal
      pwr.ringELock := d.pwr.ringELock && !crystal }
    if d.pwr.dumping then d
    else haltEntry 0xB008 false false true (if crystal then hostDown 4 d else d)

/-- Meaning of CLOCK_FAULT (R430). -/
def execClockFault (source : Nat) (s : State) : Ans := run (clockFault source) s

/-! ### The thermal model (R443–R446) -/

/-- Heat capacity in J/K (R444). -/
def pointC (i : Nat) : Nat := [20, 80, 240, 40].getD i 1
/-- Thermal resistance in 0.01 K/W (R444). -/
def pointR (i : Nat) : Nat := [45, 120, 50, 150].getD i 1
/-- Airflow factor in percent (R444). -/
def airK (a : Nat) : Nat := [100, 90, 80, 72, 65, 58, 52, 47].getD a 100

/-- A rail's power as the model takes it: 0 W while its monitor is failed (R433). -/
def railModel (d : Dev) (i : Nat) : Nat := if (tget d.pwr.rails i).failed then 0 else (tget d.pwr.rails i).mw

/-- A point's power in 1/20 mW (R444). -/
def pointPower (d : Dev) (i : Nat) : Nat :=
  let w := railModel d
  match i with
  | 0 => 20 * (w 0 + w 1)
  | 1 => 20 * w 2
  | 2 => 20 * w 3
  | _ => 20 * (w 4 + w 5) + w 0 + w 1

/-- The steady temperature of R445 in 10⁻⁹ °C. -/
def steadyT (tin : Int) (p20 rk : Nat) : Int := tin + 5 * (p20 * rk)

/-- ln(a / b) for 0 < b ≤ a in units of 2⁻⁶⁴: the power of two apart, the rest by the series of the area tangent. -/
def lnFix (a b : Nat) : Nat :=
  let n := (a / b).log2
  let c := b * 2 ^ n
  let z := (a - c) * 2 ^ 64 / (a + c)
  let s := (List.range 24).foldl (fun (x : Nat × Nat) j =>
    (x.1 + x.2 / (2 * j + 1), x.2 * z / 2 ^ 64 * z / 2 ^ 64)) (0, z)
  n * 12786308645202655659 + 2 * s.1

/-- c · r0 · k · ln(a / b) of R445 in ms, rounded down (log entry 5); c·r0·k in 10⁻⁴ s. -/
def lnMs (crk a b : Nat) : Nat := crk * lnFix a b / (10 * 2 ^ 64)

/-- One point after one step (R444, R445): its temperature and headroom; arithmetic in 10⁻⁹ °C, rounded down (log entry 35). -/
def pointStep (d : Dev) (i : Nat) (p : ThPoint) : ThPoint :=
  let tin : Int := d.pwr.inlet * 1000000000
  let rk := pointR i * airK d.pwr.airflow
  let p20 := pointPower d i
  let t := p.t + (50 * (p20 * rk : Nat) - 10 * (p.t - tin)) / (pointC i * rk : Nat)
  let ss := steadyT tin p20 rk
  let hard : Int := (tripC i + 5 : Nat) * 1000000000
  let head := if ss ≤ hard then none else if hard ≤ t then some 0
    else some (lnMs (pointC i * rk) (ss - t).toNat (ss - hard).toNat)
  { p with t, thNow := p.th, headroom := head }

/-- The node's headroom: the least of the points (R445). -/
def nodeHeadroom (d : Dev) : Option Nat :=
  (d.pwr.points.filterMap (·.headroom)).foldl (fun m h => match m with
    | none => some h
    | some x => some (min x h)) none

/-- A point at its trip temperature: the lowest index. -/
def trippedPoint (d : Dev) : Option Nat :=
  (List.range 4).find? fun i => match d.pwr.points[i]? with
    | some p => decide ((tripC i : Int) * 1000000000 ≤ p.t)
    | none => false

/-- The trip (R445, R424): orderly with 200 ms of headroom, its requests completing first, but at once in Transit (R426). During a dump it is recorded at
the next Unfurl (R426); a running test is abandoned (R447). -/
def thermalTrip (point : Nat) (d : Dev) : Dev :=
  if d.pwr.stopping then tripFollow d
  else
    let h := nodeHeadroom d
    let orderly := !d.pwr.dumping && (match h with
      | none => true
      | some ms => decide (200 ≤ ms)) && !(d.pwr.mode = .transit && d.pwr.transitLeft.isNone)
    let t := match d.pwr.points[point]? with
      | some p => p.t
      | none => 0
    let rec0 : Trip := { point, temp := twos 32 (halfDeg t), headroom := sat 32 (h.getD (2 ^ 32)), orderly }
    if d.pwr.dumping then { d with pwr.tripHeld := some (d.pwr.tripHeld.getD rec0) } else
    let d := post 0xB004 4 point rec0.temp rec0.headroom (b2n orderly) { d with
      pwr.tripHeld := some rec0
      pwr.tripPoint := point
      pwr.thmCnt := bump (bump d.pwr.thmCnt 0) (if orderly then 1 else 2)
      pwr.testing := 0
      csh.derate := false }
    if orderly then tripFollow { d with pwr.stopping := true, pwr.target := some .halt, pwr.trigT := some d.time }
    else haltEntry 0xB004 true false true d

/-- THERMAL_MODEL_STEP (R432, R444, R445, R446). The model runs in every mode but Off; trips come from Unfurl on (R405). -/
def thermalStep (d : Dev) : Dev :=
  if !powered d then d
  else
    let d := { d with
      time := alignUp 100000 d.time
      pwr.rails := tmap d.pwr.rails fun _ r => if r.n = 0 then r else { r with mw := r.sum / r.n, sum := 0, n := 0 } }
    let d := { d with
      pwr.pHist := ((List.range 6).map (railMw d)).sum :: d.pwr.pHist.take 999
      pwr.points := d.pwr.points.zipIdx.map fun (x : ThPoint × Nat) => pointStep d x.2 x.1
      pwr.stepped := true }
    let d := { d with pwr.rearmed := d.pwr.points.zipIdx.all fun x => decide (x.1.t < (rearmC x.2 : Int) * 1000000000) }
    let d := match trippedPoint d with
      | some i => if d.pwr.mode = .held ∨ d.pwr.mode = .halt then d else thermalTrip i d
      | none => d
    alertEval d

/-- Meaning of THERMAL_MODEL_STEP (R444–R446). -/
def execThermalModelStep (s : State) : Ans := run thermalStep s

/-! ### The power limit (R436–R439) -/

/-- Enabled engines of the variant (R438). -/
def enabledEngines (d : Dev) : Nat :=
  ((List.range d.engines).filter fun e => ((tget d.ope.eng e).st = .enabled)).length

/-- L_auto after an evaluation (R437); at its floor while AUX holds the management complex in reset (R466). -/
def autoNext (d : Dev) : Nat :=
  let th (i : Nat) : Int := match d.pwr.points[i]? with
    | some p => p.thNow * 1000000000
    | none => 0
  if d.pwr.mgmtReset then 60
  else if (List.range 4).any fun i => decide (th i ≤ pointHeld d i) then max 60 (d.pwr.lAuto - 8)
  else if (List.range 4).all fun i => decide (pointHeld d i ≤ th i - 5000000000) then min 200 (d.pwr.lAuto + 8)
  else d.pwr.lAuto

/-- avail of R438 in 1/2880 mW, `busy` the mean of MED_BUSY_NOW in thousandths of a plane (log entry 38). -/
def availOf (l pMod busy nEng div : Nat) : Int :=
  (l : Int) * 2880000 - pMod * 2880 + busy * 360 + 16000 * nEng * 2880 / div

/-- The actuators of R438 for an attainable limit: MED_BUSY_LIMIT and the ENGINE divisor. -/
def actuators (avail : Int) (nEng : Nat) : Nat × Nat :=
  let eMin : Int := 720000 * nEng
  let w := (min (avail - eMin) (64 * 2880000)).toNat
  let wEng := avail - w
  (4 * (w / 1440000), ([8, 9, 10, 12, 16, 32, 64].find? fun k => decide ((16000 * nEng * 2880 / k : Nat) ≤ wEng)).getD 64)

/-- The limit of R436 becomes the actuators' settings (R438, R439). -/
def limitApply (busy : Nat) (d : Dev) : Dev :=
  let n := enabledEngines d
  let l := d.pwr.lEff
  let p := pMean d 100
  let a := availOf l p busy n d.pwr.div
  let unmet := decide (a < 16 * 2880000 + 720000 * n)
  let (lim, div) := if unmet then (128, 64) else actuators a n
  let first := unmet && !d.pwr.unmet
  let d := { d with
    med.limit := lim
    pwr.div := if d.isM then d.pwr.div else div
    pwr.unmet := unmet
    pwr.pwrCnt := if unmet then bump d.pwr.pwrCnt 3 else d.pwr.pwrCnt }
  postIf first 0xB009 1 l (p / 100) (twos 32 (a / 288000)) 0 d

/-- POWER_LIMIT_EVALUATION (R436–R439), not in Off or Held, and not from the start of a dump (R447). -/
def limitEval (busy : Nat) (d : Dev) : Dev :=
  if !d.pwr.mode.firmware ∨ d.pwr.dumping then d
  else
    let old := d.pwr.lAuto
    let new := autoNext d
    let lh := if d.pwr.mode = .capped then d.pwr.lHostPend else 200
    let c := if new < old then bump d.pwr.pwrCnt 1 else if old < new then bump d.pwr.pwrCnt 2 else d.pwr.pwrCnt
    limitApply busy (throttlePost old { d with
      time := alignUp 10000000 d.time
      pwr.lAuto := new
      pwr.lHost := lh
      pwr.lEff := min lh new
      pwr.pwrCnt := c })

/-- Meaning of POWER_LIMIT_EVALUATION (R437–R439). -/
def execPowerLimitEvaluation (busyAvg : Nat) (s : State) : Ans := run (limitEval busyAvg) s

/-! ### The energy store (R440–R442) -/

/-- The mode lets a test discharge run (R441): its own modes, and the Unfurl test from the end of step 7 until it has
measured. -/
def testModeOk (d : Dev) : Bool := !d.pwr.dumping && (match d.pwr.mode with
  | .service | .capped | .quiet | .dormant | .transit | .maintenance => true
  | .unfurl => d.pwr.unfurl = .loaded || d.pwr.unfurl = .listening
  | .splice | .recovery => d.pwr.store = .charging
  | _ => false)

/-- A test discharge starts, or stays due until a mode allows it (R441). -/
def testStart (d : Dev) : Dev :=
  if d.pwr.testing ≠ 0 ∨ d.pwr.mode = .off then d
  else if testModeOk d && decide (16000 ≤ d.pwr.vbank) then
    { d with pwr.testing := 1, pwr.testDue := false, csh.derate := true, csh.pendEm := some (d.csh.pendEm.getD d.csh.em) }
  else { d with pwr.testDue := true }

/-- Meaning of TEST_DISCHARGE_START (R441). -/
def execTestDischargeStart (s : State) : Ans := run testStart s

/-- A test that fell due starts at the entry into a mode that allows it (R441). -/
def testIfDue (d : Dev) : Dev := if d.pwr.testDue && testModeOk d then testStart d else d

/-- The state of the store after a measurement (R442). -/
def storeOf (em : Nat) : StoreSt :=
  if dumpable em = 0 then .failed else if dumpable em = 48 * 131072 then .healthy else .derated

/-- A new E_m is in the registers, in partition 9, and goes to the cushion (R134, R440, R442). -/
def storeSet (em : Nat) (d : Dev) : Dev :=
  fwPut (.store d.pwr.cm d.pwr.esr em) { d with pwr.em := em, pwr.store := storeOf em, csh.pendEm := some em }

/-- The test failed: E_m is 0 (R441, R442). -/
def testFailed (d : Dev) : Dev := storeSet 0 (post 0xB007 3 0 1 0 0 { d with pwr.testing := 2 })

/-- Unfurl ends (R409 step 9, R410): armed when the usable energy covers the dump of the occupancy Recovery will restore. -/
def unfurlEnd (em occAfter : Nat) (d : Dev) : Dev :=
  let armed := decide (100 * dumpNeed occAfter ≤ 80 * em - 50000)
  let d := { d with pwr.armed := armed, pwr.em := em, csh.pendEm := some em, pwr.unfurl := .listening }
  let d := post 0x9031 0 (msOf (d.time - d.pwr.modeT)) d.bfl.running em (b2n armed) d
  postIf (!armed) 0x9036 2 em (dumpNeed occAfter) 0 0 d

/-- The slots a Recovery from the source R412 chooses would hold. -/
def occAfterRecovery (d : Dev) : Nat :=
  if d.pwr.rerun.isSome then 0 else
  match d.pwr.retained with
  | some s => s.dir.length
  | none => match anchorLast d with
    | some .sporeDone => (d.pwr.spore.map (·.dir.length)).getD 0
    | _ => 0

/-- TEST_DISCHARGE_MEASURED (R440–R442): C_m, ESR_m and E_m, record 0xB005; low energy fails the store. -/
def testMeasured (stepMv us : Nat) (d : Dev) : Dev :=
  if d.pwr.testing ≠ 1 then d
  else if 500 < stepMv ∨ 300000 < us then testFailed d
  else
    let em := (us - 80 * stepMv) / 25
    let d := storeSet em { d with pwr.testing := 2, pwr.vbank := 15700, pwr.cm := us / 300, pwr.esr := 10 * stepMv }
    let d := post 0xB005 0 em d.pwr.cm d.pwr.esr (dumpable em) d
    postIf (dumpable em = 0) 0xB007 3 em 0 0 0 d

/-- TEST_DISCHARGE_RECHARGED (R441 step 5): the derate ends and the cushion takes the new E_m. -/
def testRecharged (d : Dev) : Dev :=
  if d.pwr.testing ≠ 2 then d
  else { d with
    pwr.testing := 0
    pwr.vbank := 16000
    pwr.testT := d.time
    pwr.pwrCnt := bump d.pwr.pwrCnt 0
    csh.derate := false
    csh.pendEm := some d.pwr.em }

/-- Meaning of TEST_DISCHARGE_RECHARGED (R441). -/
def execTestDischargeRecharged (s : State) : Ans := run testRecharged s

/-! ### Commands (R354) -/

/-- Inlet temperature and airflow in range. -/
def thermalOk (p : List Byte) : Bool :=
  decide (-10 ≤ (BitVec.ofNat 8 (byte p 0)).toInt) && decide ((BitVec.ofNat 8 (byte p 0)).toInt ≤ 60) && decide (byte p 1 < 8)

/-- Meaning of SET_THERMAL_INPUT (R443, R354). -/
def execSetThermalInput (tr : Transport) (p : List Byte) (s : State) : Ans :=
  run (command 0xC402 mAll false (len 2) thermalOk
    (fun p d => ret rcOk { d with
      pwr.inlet := (BitVec.ofNat 8 (byte p 0)).toInt
      pwr.airflow := byte p 1
      pwr.hostSet := true
      pwr.thmCnt := bump d.pwr.thmCnt 3 }) tr p) s

/-- A power limit in range. -/
def limitOk (w : Nat) : Bool := decide (60 ≤ w) && decide (w ≤ 200)

/-- Meaning of SET_POWER_LIMIT (R436, R354): without effect outside Capped. -/
def execSetPowerLimit (tr : Transport) (p : List Byte) (s : State) : Ans :=
  run (command 0xC401 mSM false (len 2) (fun p => limitOk (le p 0 2))
    (fun p d => ret rcOk (if d.pwr.mode = .capped then { d with pwr.lHostPend := le p 0 2 } else d)) tr p) s

/-- GET_POWER_THERMAL's answer (R354). -/
def powerThermal (d : Dev) : List Byte :=
  ((List.range 6).flatMap fun i => toLe 4 (railMw d i / 100))
    ++ ((List.range 4).flatMap fun i => toLe 2 (twos 16 (halfDeg (pointHeld d i))))
    ++ toLe 2 d.pwr.lEff ++ toLe 2 (sat 16 d.pwr.em) ++ toLe 4 d.csh.d

/-- Meaning of GET_POWER_THERMAL (R354). -/
def execGetPowerThermal (tr : Transport) (p : List Byte) (s : State) : Ans :=
  run (command 0xC403 mAll false (len 0) (fun _ => true) (fun _ d => ans rcOk (powerThermal d) d) tr p) s

/-- Meaning of ENERGY_STORE_TEST (R441, R354): the command runs until the test it starts, or the one that runs, has ended. -/
def execEnergyStoreTest (tr : Transport) (p : List Byte) (s : State) : Ans :=
  run (command 0xC405 mSM false (len 0) (fun _ => true) (fun _ d => (.long .storeTest 0 0, testStart d)) tr p) s

/-! ### Hours and the management buses -/

/-- Meaning of POWERED_HOURS_TICK (R370): lifetime counter 4. -/
def execPoweredHoursTick (s : State) : Ans :=
  run (fun d => if d.on then fwPut (.life 4) { d with pwr.hours := d.pwr.hours + 1 } else d) s

/-- Meaning of SPDM_OVER_MCTP (R340, R279): served even while a command runs. -/
def execSpdmOverMctp (tr : Transport) (s : State) : Ans :=
  run (fun d => if reachable tr d && (tr = .vdm || tr = .i3c) then emit .spdm d else d) s

/-- Meaning of ENTDAA (R460): the dynamic address. -/
def execEntdaa (da : Nat) (s : State) : Ans := run (fun d => if d.on then { d with mbx.i3cDa := da % 128 } else d) s

end Sys2Proof.Machine
end

