-- ==== Sys2Proof/Machine/Start.lean ====
section
/-! DEFINITION. Machine/Start.lean: start-up: what Held leaves (R408), Unfurl (R409–R411), the entry into Splice (R286),
Recovery (R412–R414) with the restore of the map, the cushion, the block table and the recorder (R80, R145, R161, R391). -/

namespace Sys2Proof.Machine

/-- A change of mode, and the test discharge that fell due (R403, R441). -/
def modeEnter (m : Mode) (cause : Nat) (d : Dev) : Dev := testIfDue (enterMode m cause d)

/-! ### Leaving Held (R408) -/

/-- What the rows of a sorus-block themselves say of it, once the block table in DRAM is gone (R153, R161, R185). -/
def sbFact (b : Sb) : Sb :=
  { kind := b.kind, valid := if b.kind = .host then [] else b.valid, programmed := b.programmed, page := b.page, j0 := b.j0, j1 := b.j1 }

/-- What every subsystem's reset in Held leaves: media, the saves, the parameter store, the boot flash, supplies and pins;
every register is at its Reset column (R14), and TIME starts at 0. -/
def volatileReset (d : Dev) : Dev :=
  { variant := d.variant
    rootKey := d.rootKey
    map := { img0 := d.map.img0, img1 := d.map.img1, mediaJ := d.map.mediaJ, anchors := d.map.anchors, anchorSeq := d.map.anchorSeq }
    med := { rows := d.med.rows, part := d.med.part, sb := tmap d.med.sb fun _ b => sbFact b, blog := d.med.blog }
    hst := { perst := d.hst.perst }
    srn := { west := { plug := d.srn.west.plug }, east := { plug := d.srn.east.plug } }
    pst := { nv := d.pst.nv, rows := d.pst.rows, life := d.pst.life, worn := d.pst.worn, rpw := d.pst.rpw, wpw := d.pst.wpw,
             maxCount := d.pst.maxCount, writes := d.pst.writes, auxMv := d.pst.auxMv, holdUj := d.pst.holdUj }
    bfl := { img := d.bfl.img, log := d.bfl.log, wptr := d.bfl.wptr, wp := d.bfl.wp, supplyMv := d.bfl.supplyMv }
    pwr := { retained := d.pwr.retained, spore := d.pwr.spore, rerun := d.pwr.rerun, tripHeld := d.pwr.tripHeld,
             v12 := d.pwr.v12, v12Low := decide (d.pwr.v12 < 11400), vbank := d.pwr.vbank, nodeReset := d.pwr.nodeReset }
    out := d.out
    free := d.free }

/-! ### Unfurl (R409) -/

/-- The supplies are in range when the node leaves Held (R408); values the model does not know are free within them. -/
def suppliesSeen (d : Dev) : Dev :=
  let (a, d) := draw d
  let (b, d) := draw d
  let (c, d) := draw d
  { d with
    pwr.v12 := if 11400 ≤ d.pwr.v12 ∧ d.pwr.v12 ≤ 12600 then d.pwr.v12 else 11400 + a % 1201
    pwr.v12Low := false
    pst.auxMv := if 3135 ≤ d.pst.auxMv ∧ d.pst.auxMv ≤ 3465 then d.pst.auxMv else 3135 + b % 331
    pst.holdUj := if 1500 ≤ d.pst.holdUj then d.pst.holdUj else 1500 + c }

/-- Stored state of an image slot. -/
def slotStored (d : Dev) (slot : Nat) : Nat := if slot = 1 then d.pst.nv.slot1 else d.pst.nv.slot2

/-- Why a slot is not bootable (R374): its state, else what the boot ROM found, else its security version. -/
def bootFault (b : Boot) (slot : Nat) (d : Dev) : Option Nat :=
  if slotStored d slot ≠ 1 then some 0
  else match (if slot = 1 then b.bad1 else b.bad2) with
    | some c => some c
    | none => if slotSec (headerLoad slot d) slot < d.pst.nv.minSec then some 3 else none

/-- Steps 1 and 2 (R374): the slot that boots, and the firmware's first acts; none when no slot boots. -/
def bootSlot (b : Boot) (d : Dev) : Option Dev :=
  let first := if d.pst.nv.preferred = 2 then 2 else 1
  let other := 3 - first
  let go (slot : Nat) (d : Dev) : Dev :=
    let d := headerLoad 1 (headerLoad 2 { d with
      bfl.state1 := d.pst.nv.slot1
      bfl.state2 := d.pst.nv.slot2
      bfl.preferred := d.pst.nv.preferred
      bfl.running := slot
      bfl.octal := true })
    let last := d.pst.nv.lastImage
    let d := { waitSet d with pst.nv.lastImage := slot }
    if last ≠ 0 ∧ last ≠ slot then fwPut (.life 6) d else d
  match bootFault b first d with
  | none => some (go first d)
  | some c => match bootFault b other d with
    | none => some (post 0x9021 2 other first c 0 (fwPut (.preferred other) (fwPut (.slotState first 2)
        { go other d with bfl.cnt := bump (go other d).bfl.cnt 5 })))
    | some _ => none

/-- A sector's image slot, if it lies in one (R371). -/
def sectorSlot (s : Nat) : Option Nat := if s < 384 then some 1 else if s < 768 then some 2 else none

/-- An open erase marker: the sector is erased again before any use, an image slot stays invalid (R378). -/
def markerRedo (d : Dev) : Dev := match d.pst.nv.marker with
  | none => d
  | some s =>
    let d := sectorErase s { d with bfl.cnt := bump (bump d.bfl.cnt 0 2) 4 }
    let d := match sectorSlot s with
      | some k => if slotStored d k = 2 then d else fwPut (.slotState k 2) d
      | none => d
    post 0x9022 1 s 0 0 0 (fwPut (.marker none) d)

/-- Row faults met at Unfurl (R364, R368, R370): a lost or reverted copy of a lifetime row, of a host row, or of another. -/
def bootRow (lost : Bool) (x : Nat × Nat) (d : Dev) : Dev :=
  let (part, row) := x
  let bad (r : PRow) : PRow :=
    if lost then { a := { r.a with ok := false }, b := { r.b with ok := false } }
    else if r.b.commit && (!r.a.commit || decide (r.b.seq = (r.a.seq + 1) % 4)) then { r with b := { r.b with ok := false } }
    else { r with a := { r.a with ok := false } }
  if 12 ≤ part then { d with pst.rows := tmod d.pst.rows (1024 * part + row) bad }
  else
    let d := rowFault part row (if lost then 2 else 1) d
    if part ≠ 1 ∨ 64 ≤ row then d
    else { d with pst.life := tmod d.pst.life row fun s =>
      if lost then { s with valid := false } else { s with value := s.value - 8, seq := s.seq - 8 } }

/-- Groups of a row that decode with correction at Unfurl (R363, R368): counted; those of a host row's governing copy stay. -/
def bootFix (x : Nat × Nat × Nat) (d : Dev) : Dev :=
  let (part, row, n) := x
  let fix (r : PRow) : PRow :=
    if r.gov = some r.a then { r with a := { r.a with fixes := n } } else { r with b := { r.b with fixes := n } }
  if 12 ≤ part then { d with pst.rows := tmod d.pst.rows (1024 * part + row) fix } else { d with pst.cnt := bump d.pst.cnt 1 n }

/-- The P fields and the counters that start from the store (R14, R128, R230, R283, R368). -/
def paramsLoad (d : Dev) : Dev :=
  let nv := d.pst.nv
  let d := { d with
    map.limit := nv.mapLimit
    stw.refused := nv.writeRefused
    stw.patPos := nv.patPos
    stw.lapStart := nv.patStart
    stw.lastMin := nv.lastMin
    stw.laps := nv.laps
    map.anchorSb := nv.anchor
    srn.index := nv.index.getD 0
    srn.indexed := nv.index.isSome
    srn.ringId := nv.ringId.getD 0
    csh.gen := nv.genLimit
    sec.ver := nv.verLimit
    sec.frozen := nv.frozen
    sec.ranges := nv.ranges
    med.dies := nv.dies
    pwr.cm := nv.cm
    pwr.esr := nv.esr }
  let d := fwPut (.verLimit (nv.verLimit + 2 ^ 40)) (fwPut (.genLimit (nv.genLimit + 2 ^ 40)) d)
  (List.range 8).foldl (fun d i =>
    if (List.range 8).any fun k => (tget d.pst.life (8 * i + k)).valid then d else post 0x9014 2 i 0 0 0 d) d

/-- Who names a media key slot: role and range (R213, R240). -/
def keyRole (d : Dev) (k : Nat) : Option (Nat × Nat) :=
  if k = 0 then some (0, 127)
  else match tfind d.sec.ranges fun _ r => decide (r.st ≠ .closed) && decide (r.cur = k) with
    | some (n, _) => some (1, n)
    | none => match tfind d.sec.ranges fun _ r => decide (r.st ≠ .closed) && (decide (r.old = k) || r.former.contains k) with
      | some (n, _) => some (2, n)
      | none => none

/-- One key slot at Unfurl (R213). -/
def keyLoad (b : Boot) (x : Nat × KPair) (d : Dev) : Dev :=
  let k := x.1
  match x.2.gov with
  | none => d
  | some r =>
    if k = 64 then
      if b.cushKeyBad then fatal 0x7030 64 127 0 0 d else { d with sec.cushKey := r.keyid, sec.cushLoaded := true }
    else match keyRole d k with
      | none => if r.empty then d else fwPut (.keyRec k (emptyRecOf d k)) d
      | some (role, n) =>
        if k ∈ b.keyBad then
          if k = 0 then fatal 0x7030 0 127 0 0 d
          else post 0x7030 3 k n 0 0 { d with
            sec.slots := tset d.sec.slots k { st := .faulted, role, range := n, keyid := r.keyid }
            sec.ranges := tmod d.sec.ranges n fun q => { q with faulted := true } }
        else if r.empty then d
        else { d with sec.slots := tset d.sec.slots k { st := .loaded, role, range := n, keyid := r.keyid } }

/-- One persistent cipher slot at Unfurl (R328). -/
def cphSlotBoot (b : Boot) (x : Nat × KPair) (d : Dev) : Dev :=
  match x.2.gov with
  | none => d
  | some r =>
    if r.empty then d
    else
      let c := tget d.pst.nv.cphAttr x.1
      if x.1 ∈ b.cphBad then
        post 0x7044 2 x.1 r.keyid 0 0 { d with cph.slots := tset d.cph.slots x.1 { c with st := .faulted, key := [] } }
      else
        let key := (keyUnwrap (fitTo 32 (Config.keyBytes d.rootKey)) r.wrapped).getD []
        { d with cph.slots := tset d.cph.slots x.1 { c with st := .loaded, key } }

/-- The known-answer tests of the cipher cores (R336) and the self-tests of the monitors (R432). -/
def selfTests (b : Boot) (d : Dev) : Dev :=
  let d := ((List.range 8).filter fun c => b.coreBad.contains c).foldl (fun (d : Dev) c =>
    let off := d.cph.coresOff ++ [c]
    post 0x7045 3 c 0 (8 - off.length) 0 { d with cph.coresOff := off }) d
  ((List.range 6).filter fun k => b.monBad.contains k).foldl (fun d k => monFail k 2 0 d) d

/-- The spore the anchor log names (R79, R412): 0 none or consumed, 1 with its completion row, 3 without, 4 a clean row. -/
def anchorState (d : Dev) : Nat :=
  match anchorLast d with
  | some .sporeDone => 1
  | some .sporeBegun => 3
  | some (.clean ..) => 4
  | _ => 0

/-- Area and lap sequence of the latest image row (R79). -/
def imageAnchor (d : Dev) : Nat × Nat :=
  d.map.anchors.foldl (fun r x => match x.2 with
    | .image area lap .. => (area, lap)
    | _ => r) (0, 0)

/-- The parameter store's rows as the load finds them, the marker's task done over, and the registers that they give; lifetime
counter 0 (R362–R366). -/
def bootStore (b : Boot) (d : Dev) : Dev :=
  let d := b.rowsFixed.foldl (fun d x => bootFix x d) d
  let d := b.rowsReverted.foldl (fun d x => bootRow false x d) (b.rowsLost.foldl (fun d x => bootRow true x d) d)
  fwPut (.life 0) (paramsLoad (markerRedo d))

/-- The lanes that are Read-only, and the frond map's image; an anchor row whose tag fails is ignored (R79). -/
def bootMap (b : Boot) (d : Dev) : Dev :=
  let d := { d with map.anchors := d.map.anchors.filter fun x => !b.anchorBad.contains x.1 }
  { d with
    med.lanes := (roLanes d).foldl (fun t l => tset t l { tget t l with st := .readOnly }) d.med.lanes
    map.area := (imageAnchor d).1
    map.lapSeq := (imageAnchor d).2 }

/-- Lifetime counters 1 and 2 by the spore found, and the trip that the store could not take before (R412, R414, R445). -/
def bootLife (d : Dev) : Dev :=
  let d := if d.pwr.retained.isSome then d
    else if anchorState d = 1 then fwPut (.life 1) d else if anchorState d = 3 then fwPut (.life 2) d else d
  match d.pwr.tripHeld with
  | some t => fwPut (.life 3) (fwPut (.trip t) { d with pwr.tripHeld := none })
  | none => d

/-- Steps 1 to 7 of R409, in one event (log entry 39); a retained save without its check mark is no source (R412). -/
def unfurlRun (b : Boot) (d : Dev) : Dev :=
  if d.pwr.mode ≠ .unfurl ∨ d.pwr.unfurl ≠ .booting ∨ d.pwr.mgmtReset then d
  else
    let d := post 0x9030 0 Mode.held.code Mode.unfurl.code 5 0 (suppliesSeen d)
    let d := { d with pwr.rootLock := true, pwr.retained := if b.retainedBad then none else d.pwr.retained }
    match bootSlot b d with
    | none => { d with
        pwr.unfurl := .noBoot
        pst.nv.slot1 := if slotStored d 1 = 0 then 0 else 2
        pst.nv.slot2 := if slotStored d 2 = 0 then 0 else 2 }
    | some d =>
      let d := { d with pwr.unfurl := .loaded, pwr.hostLock := true, hst.ready := !d.hst.perst }
      let d := bootLife (bootMap b (bootStore b d))
      let d := selfTests b (d.pst.nv.cphKeys.foldl (fun d x => cphSlotBoot b x d) d)
      let d := d.pst.nv.keys.foldl (fun d x => keyLoad b x d) d
      if d.pwr.mode = .unfurl ∧ 16000 ≤ d.pwr.vbank then testStart d else d

/-! ### Recovery (R412–R414) -/

/-- A sorus-block's entry after the replay of the block log (R161): what was OPEN is FULL, a SPORE block that holds a spore image
is FULL, a reset without its done record runs again; CLOSED ages start again (R185). -/
def sbBoot (now : Nat) (fact b : Sb) : Sb :=
  let x : Sb := { fact with st := b.st, donor := b.donor, closedAt := now, fullAt := now }
  if b.donor then x
  else match b.st with
    | .resetting => { x with resetPos := b.resetPos, valid := [] }
    | .opn | .full => { x with st := .full, passLeft := List.range 20 }
    | .spore => if fact.programmed then { x with st := .full, valid := [], passLeft := List.range 20 } else x
    | .ready | .closed => x

/-- The plane-blocks of a sorus-block whose reset has an intent but no done record get a new intent (R161), CYCLES saturating
(R158). -/
def resetAgain (key : Nat) (d : Dev) : Dev :=
  let lane := key / 1344
  let ps := (tget d.med.sb key).resetPos
  let d := ps.foldl (fun (d : Dev) p =>
    let k := serving d.med lane (key % 1344) p
    let cyc := min 16777215 ((tget d.med.pb k).cycles + 1)
    blogAdd 0 (laneDie lane p) (lane % 4) (k % 1344) cyc { d with med.pb := tmod d.med.pb k fun x => { x with cycles := cyc } }) d
  sbMod key (fun b => { b with intent := some ((d.med.bseq + 2 ^ 40 - 1) % 2 ^ 40) }) { d with med.cnt := bump d.med.cnt 11 ps.length }

/-- The block image of the latest anchor row with the log since then, the saved buffer last (R160, R161). -/
def blocksLoad (buf : List BRec) (d : Dev) : Dev :=
  let img := imgLatest d
  let log := d.med.blog ++ buf
  let (pb, sb) := blogReplay img.pb img.sb log
  { d with
    med.pb := tmap pb fun _ x => { x with meas := sweepStart d, progFails := 0 }
    med.sb := tbuild sb fun k b => sbBoot d.time (tget d.med.sb k) b
    med.blogBuf := buf
    med.bseq := match log.getLast? with
      | some r => (r.bseq + 1) % 2 ^ 40
      | none => img.bseq }

/-- Step 1 of R413: the block table and its one record 0x5007. -/
def blocksRecover (buf : List BRec) (d : Dev) : Dev :=
  let d := blocksLoad buf d
  let ks := (d.med.sb.filter fun x => !x.2.donor && x.2.st = .resetting && !x.2.resetPos.isEmpty).map (·.1)
  let n := ks.foldl (fun n k => n + (tget d.med.sb k).resetPos.length) 0
  let d := ks.foldl (fun d k => resetAgain k d) d
  match ks with
  | [] => d
  | k :: _ =>
    let p := (tget d.med.sb k).resetPos.headD 0
    post 0x5007 1 n (laneDie (k / 1344) p) (k / 1344 % 4) (serving d.med (k / 1344) (k % 1344) p % 1344) d

/-- Step 2 (R80, R68): the latest image, the journal of the media, then the saved tail; LINE_SEQ counts each record. C and S are
those of the copy and of the records until step 4. -/
def mapLoad (tail : List JRec) (d : Dev) : Dev :=
  let img := imgLatest d
  let js : List JRec := (d.map.mediaJ ++ tail).filter fun r => decide (img.js ≤ r.jseq)
  let d := { d with
    map.ent := js.foldl (fun (t : Tab Entry) (r : JRec) => tset t r.frond r.entry) (tbuild img.ent fun _ e => e)
    map.seq := js.foldl (fun (t : Cnt) (r : JRec) => tset t (mapLine r.frond) ((tget t (mapLine r.frond) + 1) % 65536)) img.seq
    map.tail := tail
    map.jseq := js.foldl (fun n (r : JRec) => max n (r.jseq + 1)) img.js
    map.cache := []
    map.updq := [] }
  { d with map.par := parAll d }

/-- Step 4 (R80, R68): C and S from the restored directory; each entry they change counts in its line's LINE_SEQ. -/
def flagsSet (d : Dev) : Dev :=
  let fs := ((d.map.ent.filter fun x => x.2.c || x.2.s).map (·.1)) ++ (d.csh.dir.filter fun x => x.2.held).map (·.2.frond)
  fs.foldl (fun d f => setFlags f d) d

/-- Where a saved slot is placed: its set's lowest Free way, else the first free overflow entry (R122, R125, R145). -/
def slotPut (s : Slot) (dir : Tab Slot) : Tab Slot :=
  let k := match (List.range 16).find? fun w => (tget dir (cushKeyOf s.frond w)).st = .free with
    | some w => cushKeyOf s.frond w
    | none => ovfBase + ((List.range 8192).find? fun o => (tget dir (ovfBase + o)).st = .free).getD 0
  tset dir k s

/-- Step 3: the cushion, masks, poison index, rescue list and rekey boundaries of a save (R145, R228, R236). A retained save stays
in place. -/
def saveRestore (inPlace : Bool) (s : Save) (d : Dev) : Dev :=
  let dir := if inPlace then s.dir else (sortBy (·.gen) (s.dir.map (·.2))).foldl (fun t x => slotPut x t) ([] : Tab Slot)
  { d with
    csh.dir := tbuild dir fun _ (x : Slot) => { x with born := d.time }
    csh.sparse := s.sparse
    sec.pidx := s.pidx
    sec.povf := s.povf
    stw.rescue := s.rescue
    sec.ranges := tmap d.sec.ranges fun n r => if r.walks ∧ (tget s.bounds n) ≠ 0
      then { r with boundary := tget s.bounds n, next := tget s.bounds n } else r }

/-- A record as Recovery restores it: RESTORED set. -/
def Rec.restored (r : Rec) : Rec := if bit r.flags 1 then r else { r with flags := r.flags + 2 }

/-- The recorder's log and protected area from a flush (R391). -/
def logRestore (f : Flush) (d : Dev) : Dev :=
  let n := f.recs.length
  let first := (f.recs.head?.map (·.seq)).getD f.next
  let d := acceptAll (post 0xA002 1 n first f.next 0 (acceptAll d))
  let d := f.recs.foldl (fun (d : Dev) r =>
    let s := d.evr.seqNext
    logPut { r.restored with seq := s } { d with evr.seqNext := (s + 1) % 2 ^ 32 }) d
  { d with evr.prot := (f.prot.map Rec.restored ++ d.evr.prot).take 1024 }

/-- The records of the flash log in the order of its circle, from the sector after the write pointer's (R389). -/
def flashRecs (d : Dev) : List Rec :=
  let slot (a : Nat) : Option Rec :=
    let v (off n : Nat) : Nat := le ((List.range 32).map fun i => flashByte d (a + i)) off n
    if d.bfl.log.any fun x => decide (a ≤ x.1) && decide (x.1 < a + 32) then
      some { code := v 0 2, sev := v 2 1, flags := v 3 1, seq := v 4 4, time := v 8 8, p0 := v 16 4, p1 := v 20 4, p2 := v 24 4, p3 := v 28 4 }
    else none
  let as := ((d.bfl.log.map fun x => x.1 / 32 * 32).dedup)
  let key (a : Nat) : Nat := if d.bfl.wptr ≤ a then a - 0x1000000 else a
  (sortBy key as).filterMap slot

/-- No flush: the protected area comes from the flash log's severity 4 records after its latest PROTECTED_CLEARED (R391). -/
def protRestore (d : Dev) : Dev :=
  let rs := (flashRecs d).foldl (fun (l : List Rec) r => if r.code = 0xA006 then [] else if r.sev = 4 then l ++ [r] else l) []
  let rs := (rs.drop (rs.length - 1024)).map Rec.restored
  if rs.isEmpty then d
  else
    let first := (rs.head?.map (·.seq)).getD 0
    let last := (rs.getLast?.map (·.seq)).getD 0
    let d := acceptAll (post 0xA002 1 rs.length first ((last + 1) % 2 ^ 32) 1 (acceptAll d))
    { d with evr.prot := (rs ++ d.evr.prot).take 1024 }

/-- Running rekeys resume (R228): 0 from the range record, 1 from the spore. -/
def rekeysResume (src : Nat) (s : Option Save) (d : Dev) : Dev :=
  d.sec.ranges.foldl (fun d x =>
    if x.2.walks then post 0x7005 1 x.1 x.2.boundary (b2n (decide (src = 1 ∧ (s.any fun v => decide (tget v.bounds x.1 ≠ 0))))) 0 d
    else d) d

/-- The valid rows of host sorus-blocks as the loaded map names them (R185); a Read-only lane that still holds rows goes on with
its evacuation, whose time counts from now (R201, log entry 90). -/
def bitmapsRebuild (d : Dev) : Dev :=
  let d := { d with med.sb := tmap d.med.sb fun _ (b : Sb) => if b.kind = Kind.host then { b with valid := [] } else b }
  let d := d.map.ent.foldl (fun (d : Dev) (x : Nat × Entry) => if x.2.v then rowMark x.2.slot true d else d) d
  let held := d.med.sb.filter fun x => readOnlyLane d (x.1 / 1344) && !x.2.valid.isEmpty
  { d with
    med.sb := tmap d.med.sb fun k b => if readOnlyLane d (k / 1344) ∧ !b.valid.isEmpty then { b with role := .evac } else b
    stw.evac := held.foldl (fun t x => tset t (x.1 / 1344) (d.time + 1)) d.stw.evac }

/-- SPORE_RESTORED (R413): the MiB read are free (log entry 2). -/
def sporeRestored (us : Nat) (d : Dev) : Dev :=
  let x := draw d
  post 0x9033 1 (occ x.2) x.1 us 0 x.2

/-- SPORE_INCOMPLETE (R414): the rows verified are free (log entry 2). -/
def sporeIncomplete (slots : Nat) (d : Dev) : Dev :=
  let x := draw { d with pwr.persistLost := true }
  post 0x9034 4 x.1 slots 0 0 x.2

/-- The node enters Recovery; a node that is no settled member of a ring stops presenting (R413). -/
def recoveryEnter (d : Dev) : Dev :=
  modeEnter .recovery 5 { d with
    pwr.unfurl := .done
    pwr.ringWLock := !d.isM
    pwr.ringELock := !d.isM
    srn.presenting := !(d.isM || d.srn.ring = .heldOut || isMember d)
    srn.presents := [] }

/-- The latest clean row's poison index, when the last anchor row that is no image row is clean (R143). -/
def cleanRow (d : Dev) : Option (Tab (BitVec 64) × Bool) :=
  match anchorLast d with
  | some (.clean p o) => some (p, o)
  | _ => none

/-- The save that stands: the retained cushion, else a complete spore (R412). -/
def saveHeld (d : Dev) : Option Save := match d.pwr.retained with
  | some s => some s
  | none => if anchorState d = 1 then d.pwr.spore else none

/-- The save that Recovery restores (R413): none while an erase runs again (R238). -/
def recoverySave (d : Dev) : Option Save := if d.pwr.rerun.isSome then none else saveHeld d

/-- PWR_MODE_SOURCE of a Recovery (R413, R414). -/
def recoverySource (d : Dev) : Nat :=
  if d.pwr.rerun.isSome then 0 else if d.pwr.retained.isSome then 2 else anchorState d

/-- The cushion and the poison index: from the save, from the clean row, or none (R413, R414); where none is found and the map is
no fresh one, poisoned lines may be missing from it (R236). -/
def cushionRestore (src : Nat) (save : Option Save) (clean : Option (Tab (BitVec 64) × Bool)) (d : Dev) : Dev :=
  match save with
  | some s => saveRestore (decide (src = 2)) s d
  | none => match clean with
    | some (p, o) => { d with sec.pidx := p, sec.povf := o }
    | none => { d with sec.povf := decide (src = 3 ∨ anchorLast d = some .consumed) }

/-- The recorder's flush, else the protected area from the flash log (R391). -/
def recorderRestore (save : Option Save) (d : Dev) : Dev :=
  match save with
  | some s => logRestore s.flush d
  | none => protRestore d

/-- The record of a spore that was there. -/
def sporeRecord (src : Nat) (save : Option Save) (slots : Nat) (d : Dev) : Dev :=
  if src = 1 then sporeRestored ((save.map (·.us)).getD 0) d
  else if src = 3 then sporeIncomplete slots d
  else d

/-- A Sanitize or Secure Erase that a power loss cut short runs again (R238). -/
def eraseAgain (d : Dev) : Dev :=
  match d.pwr.rerun with
  | some full => sanitizeRun full { d with pwr.retained := none, pwr.spore := none }
  | none => d

/-- Slots of the spore, as its anchor row counts them. -/
def sporeSlots (d : Dev) : Nat := match d.pwr.spore with
  | some s => s.dir.length
  | none => 0

/-- The sorus-blocks of a spore that has been restored are CLOSED (R159, R161). -/
def sporeClosed (src : Nat) (d : Dev) : Dev :=
  if src ≠ 1 then d
  else { d with med.sb := tmap d.med.sb fun _ b =>
    if b.kind = .spore ∧ b.st = .full then { b with st := .closed, passLeft := [] } else b }

/-- Steps 1 to 5 of R413 at the entry into Recovery, in one event (log entry 39). -/
def recoveryStart (d : Dev) : Dev :=
  if d.pwr.mode ≠ .unfurl ∧ d.pwr.mode ≠ .splice then d
  else
    let d0 := recoveryEnter d
    let save := recoverySave d0
    let src := recoverySource d0
    let d := blocksRecover (((saveHeld d0).map (·.blogBuf)).getD []) { d0 with pwr.source := src }
    let d := mapLoad ((save.map (·.tail)).getD []) d
    let d := flagsSet (cushionRestore src save (cleanRow d0) d)
    let d := bitmapsRebuild (sporeClosed src d)
    eraseAgain (sporeRecord src save (sporeSlots d0) (rekeysResume src save (recorderRestore save d)))

/-! ### The end of Unfurl and the listen (R409 step 9, R410, R411) -/

/-- Unfurl ends with the energy measured, or held at that instant. TN-1640-M does not listen. -/
def unfurlDone (em : Nat) (d : Dev) : Dev :=
  if d.pwr.mode ≠ .unfurl ∨ d.pwr.unfurl ≠ .loaded then d
  else
    let d := unfurlEnd em (occAfterRecovery d) d
    if d.isM then recoveryStart d else d

/-- Meaning of TEST_DISCHARGE_MEASURED (R440–R442): the Unfurl test's measurement is step 8 of R409. -/
def execTestDischargeMeasured (stepMv us : Nat) (s : State) : Ans :=
  run (fun d => if d.pwr.testing = 1 then let d := testMeasured stepMv us d; unfurlDone d.pwr.em d else d) s

/-- Meaning of TEST_DISCHARGE_TIMEOUT (R441): the test has failed. -/
def execTestDischargeTimeout (s : State) : Ans :=
  run (fun d => if d.pwr.testing = 1 then unfurlDone 0 (testFailed d) else d) s

/-- BANK_CHARGED (R440, R441): the Unfurl test starts once step 7 is done. -/
def bankCharged (b : Boot) (d : Dev) : Dev :=
  if !powered d then d
  else
    let d := unfurlRun b { d with pwr.vbank := 16000 }
    if d.pwr.store = .charging ∧ d.pwr.mode.firmware ∧ d.pwr.mode ≠ .halt then testStart d else d

/-- Meaning of BANK_CHARGED (R440, R441). -/
def execBankCharged (b : Boot) (s : State) : Ans := run (bankCharged b) s

/-- A splicing node claims by the rules of R283 against the members it knows. -/
def spliceClaim (rid : Nat) (d : Dev) : ClaimRes :=
  let own := ownPresent d
  let taken (i : Nat) : Bool := (tget d.srn.members i).st ≠ .absent && (tget d.srn.members i).serial ≠ own.serial
  let low : ClaimRes := match (List.range 16).find? fun i => !taken i with
    | some i => .index i
    | none => .out 3
  match claimRank (some rid) own, own.index with
  | 0, _ => low
  | _, some i => if taken i then .out 1 else .index i
  | _, none => low

/-- Splice starts (R286, R411): the node claims its index, or it is held out and goes on Alone. -/
def spliceStart (d : Dev) : Dev :=
  let d := modeEnter .splice 5 { d with pwr.unfurl := .done, pwr.ringWLock := true, pwr.ringELock := true }
  let (v, d) := draw d
  let rid := if d.srn.ringId = 0 then v % 2 ^ 64 else d.srn.ringId
  match spliceClaim rid d with
  | .index i => indexTake i rid d
  | .out r => recoveryStart (frame 0x12 [d.pst.nv.serial, r] (heldOut r d))

/-- RHIZOID_LISTEN_EXPIRY (R411). When step 9 of R409 came without a measurement, Unfurl ends here with the energy held,
which no register shows: free, up to 60 J (R410, log entry 34). -/
def listenExpiry (d : Dev) : Dev :=
  if d.pwr.mode ≠ .unfurl then d
  else
    let (v, d) := draw d
    let d := if d.pwr.unfurl = .loaded then unfurlDone (v % 6001) d else d
    if d.pwr.mode ≠ .unfurl ∨ d.pwr.unfurl ≠ .listening then d
    else if d.srn.cue then spliceStart d else recoveryStart d

/-- Meaning of RHIZOID_LISTEN_EXPIRY (R411–R413). -/
def execRhizoidListenExpiry (s : State) : Ans := run listenExpiry s

/-- Meaning of SPLICE_DONE (R276, R286, R411): the spliced node announces it and, when it has come from Splice, enters Recovery. -/
def execSpliceDone (index ms : Nat) (s : State) : Ans :=
  run (fun d =>
    if d.isM then d else
    let own := decide (index = d.srn.index) && !isMember d
    let d := cueFrame (if own then d else lineSeen 0x23 d)
    if !d.pwr.mode.ringOn then d
    else
      let d := spliceDone index ms d
      if own then
        let d := frame 0x23 [index] { d with srn.rejoin := false }
        if d.pwr.mode = .splice then recoveryStart d else d
      else d) s

/-- Meaning of HELD (R282, R283): another node is held out, or this one, which continues Alone (R405). -/
def execHeld (serial reason : Nat) (s : State) : Ans :=
  run (fun d =>
    if d.isM then d else
    let d := cueFrame (lineSeen 0x12 d)
    if serial = d.pst.nv.serial ∧ d.srn.ring ≠ .heldOut ∧ (d.pwr.mode = .recovery ∨ d.pwr.mode = .splice) then
      recoveryStart (heldOut reason d)
    else { d with srn.members := tmap d.srn.members fun _ (m : Member) =>
      if m.serial = serial ∧ m.st = MemSt.joining then { m with st := .heldOut } else m }) s

/-- Meaning of SPDM_SESSION_ESTABLISHED (R279, R285): sessions with holder and deputy form the ring, or let a splicing node
request its splice; a failure holds the node out. -/
def execSpdmSessionEstablished (peer : Nat) (authOk : Bool) (ms : Nat) (s : State) : Ans :=
  run (fun d =>
    if d.isM ∨ !(d.srn.ring = .forming ∨ d.pwr.mode = .splice ∨ d.srn.rejoin ∨ isMember d) then d
    else if !authOk then
      if isMember d then d else recoveryStart (frame 0x12 [d.pst.nv.serial, 2] (heldOut 2 d))
    else
      let d := { d with srn.sessions := if peer ∈ d.srn.sessions then d.srn.sessions else d.srn.sessions ++ [peer] }
      if isMember d then
        -- the holder gives the newcomer the key of the epoch in force
        if holderOf d = d.srn.index ∧ (tget d.srn.members peer).st ≠ .live then frame 0x30 [] d else d
      else if d.srn.ring = .forming then formReady ms d
      else if sessionsDone d then frame 0x20 [d.pst.nv.serial, d.srn.index] d else d) s

/-! ### The end of Recovery (R413 steps 6–8) -/

/-- The SPORE reserve of a lane (R189, R413 step 6): READY sorus-blocks first, then CLOSED ones without valid rows, reset. -/
def sporeFill (lane : Nat) (d : Dev) : Dev :=
  if readOnlyLane d lane then d
  else iter (fun (d : Dev) =>
    if 2 ≤ sporeCount d lane then d
    else match openPick d lane with
      | some k => blogSb 5 k { d with med.sb := tset d.med.sb k { st := .spore } }
      | none => match (d.med.sb.find? fun x => x.1 / 1344 = lane && !x.2.donor && x.2.st = .closed && x.2.valid.isEmpty) with
        | some (k, _) => resetNow [k] d
        | none => d) 2 d

/-- The ring is settled (R413 step 8). -/
def ringSettled (d : Dev) : Bool := d.isM || d.srn.ring = .heldOut || (isMember d && d.srn.ring ≠ .forming)

/-- RECOVERY_DONE: the SPORE reserve, the consumed row, record 0x9032, Service. After an incomplete spore Media Status stays Write
Persistency Lost past this row, to the next one (R414, log entry 95). -/
def recoveryDone (ms : Nat) (d : Dev) : Dev :=
  if d.pwr.mode ≠ .recovery ∨ !ringSettled d then d
  else
    let d := (List.range 128).foldl (fun d l => sporeFill l d) d
    let d := post 0x9032 0 ms d.pwr.source (occ d) d.srn.ring.code { anchorPut .consumed d with
      pwr.retained := none
      pwr.spore := none
      pwr.persistLost := decide (d.pwr.source = 3) }
    admitEval (modeEnter .service 5 { d with hst.memActive := d.hst.up })

/-- Meaning of RECOVERY_DONE (R413). -/
def execRecoveryDone (ms : Nat) (s : State) : Ans := run (recoveryDone ms) s

end Sys2Proof.Machine
end

