-- ==== Sys2Proof/Machine/Modes.lean ====
section
/-! DEFINITION. Machine/Modes.lean: the modes a host commands and their switch points (R404–R407, R416–R418), the reset, the
dump and the exits of Off, Held and Halt (R408, R419–R425). -/

namespace Sys2Proof.Machine

/-! ### Switch points (R406, R417, R418) -/

/-- Requests in flight while the mode changes count under cause 0x5 (R41, R406). -/
def reqsShift (d : Dev) : Dev :=
  { d with
    rp.reqs := d.rp.reqs.map fun r => { r with causes := addCause 5 r.causes }
    srn.remotes := d.srn.remotes.map fun r => { r with causes := addCause 5 r.causes } }

/-- Every request admitted in the old mode has completed (R406). -/
def quiescent (d : Dev) : Bool := d.rp.reqs.isEmpty && d.srn.remotes.isEmpty

/-- A switch point: tasks end where engines stop (R299), the limit is that of Capped or none (R436), memory is active where
it is served (R405). -/
def modeSwitch (m : Mode) (limit : Nat) (d : Dev) : Dev :=
  let d := if m.engines then d else tasksModeEnd d
  let d := modeEnter m 0 (reqsShift { d with
    pwr.lHostPend := if m = .capped then limit else 200
    pwr.awake := false
    dark := none
    hst.memActive := m.serves && d.hst.up
    sec.transitCopy := none
    med.sb := if d.pwr.mode = .transit then tmap d.med.sb fun _ b => { b with closedAt := d.time } else d.med.sb })
  admitEval (if d.pwr.prev = .transit then bitmapsRebuild d else d)

/-- Step 1 of R417: memory refused, tasks ended, destage at its Drain floor; the mode left is kept for a failed entry. The
progress step is one more than the occupancy to destage. -/
def transitSwitch (d : Dev) : Dev := match d.mbx.run with
  | some r => match r.job with
    | .transit _ 0 =>
      if !quiescent d then d
      else
        let left := d.pwr.mode
        let d := modeSwitch .transit 200 d
        { d with
          mbx.run := some { r with job := .transit left (1 + occ d) }
          csh.emptying := true
          pwr.transitLeft := some left
          pwr.target := some .transit }
    | _ => d
  | none => d

/-- Steps 2 to 5 of R417 once the cushion is empty, with the journal tail programmed and the lap completed (log entry 40):
the clean row, the copy of the poison index, media and DRAM down. -/
def transitDone (r : Running) (slots ms : Nat) (d : Dev) : Dev :=
  let l : Lap := { area := 1 - d.map.area, js := d.map.jseq, fronds := imgFronds, startT := d.time, ver0 := d.sec.ver,
                   bseq0 := ((d.med.blogBuf.head?).map (·.bseq)).getD d.med.bseq, transit := true,
                   copy := { ent := d.map.ent, seq := d.map.seq }, pb := (blockImage d).1, sb := (blockImage d).2 }
  let d := lapEnd l { d with map.mediaJ := [], map.tail := [] }
  let d := (d.sec.ranges.filter fun x => x.2.walks).foldl (fun d x => rangeStore x.1 d) d
  let d := fwPut (.patrol d.stw.patPos d.stw.lapStart) d
  let (v, d) := draw d
  let d := post 0x9037 0 ms slots v 0 { anchorPut (.clean d.sec.pidx d.sec.povf) d with
    sec.transitCopy := some (d.sec.pidx, d.sec.povf)
    csh.emptying := false
    ope.scratch := []
    ope.rq := tmap d.ope.rq fun _ (q : Rq) => { q with words := [], waiting := [] }
    stw.plan := {}
    pwr.transitLeft := none
    pwr.target := none
    pwr.persistLost := false }
  cmdEnd r.tr r.opcode rcOk [] ms r.lost (darken d)

/-- Meaning of TRANSIT_FAILED (R417): the cushion could not be emptied; the node returns to the mode it left. -/
def transitFailed (d : Dev) : Dev := match d.mbx.run, d.pwr.transitLeft with
  | some r, some left => if occ d = 0 then d else
      let o := occ d
      let d := modeSwitch left d.pwr.lHost { d with csh.emptying := false, pwr.transitLeft := none }
      let d := post 0x903A 2 left.code o d.stw.free.code 0 d
      cmdEnd r.tr r.opcode rcAborted [] (msOf (d.time - r.startT)) r.lost d
  | _, _ => d

/-- Meaning of TRANSIT_FAILED (R417). -/
def execTransitFailed (s : State) : Ans := run transitFailed s

/-! ### SET_MODE (R354, R405, R407) -/

/-- What SET_MODE does with a target that its checks allow: at once, at the end of the command, or refused; while an orderly Halt is
under way another mode is refused with Busy (log entry 97). -/
def setMode (p : List Byte) (d : Dev) : Res × Dev :=
  let limit := le p 2 2
  match Mode.ofCode (byte p 0) with
  | none => ret rcInput d
  | some t =>
    let scq (m : Mode) : Bool := m = .service || m = .capped || m = .quiet
    let cur := d.pwr.mode
    if t = .capped ∧ !limitOk limit then ret rcInput d
    else if cur = t then ret rcOk (if t = .capped then { d with pwr.lHostPend := limit } else d)
    else if d.pwr.stopping then ret rcBusy d
    else if scq cur ∧ scq t then ret rcOk (modeSwitch t limit d)
    else if t = .service ∧ (cur = .dormant ∨ cur = .maintenance ∨ cur = .transit) then ret rcOk (modeSwitch t 200 d)
    else if scq cur ∧ (t = .dormant ∨ t = .maintenance) then (.long (.mode t) 0 0, { d with pwr.target := some t, pwr.trigT := some d.time })
    else if (scq cur ∨ cur = .maintenance) ∧ t = .transit then
      (.long (.transit cur 0) 5 1000, { d with pwr.target := some .transit, pwr.trigT := some d.time })
    else ret rcInput d

/-- Meaning of SET_MODE (R354, R404–R407). -/
def execSetMode (tr : Transport) (p : List Byte) (s : State) : Ans :=
  run (command 0xC400 mSDTM false (len 4) (fun p => decide (5 ≤ byte p 0) && decide (byte p 0 ≤ 10) && byte p 1 = 0) setMode tr p) s

/-- Meaning of DORMANT_IDLE (R416). -/
def execDormantIdle (s : State) : Ans := run (fun d => { d with pwr.awake := false }) s

/-! ### Off and Held (R408, R464) -/

/-- Meaning of POWER_GOOD (R464): Off becomes Held. -/
def execPowerGood (s : State) : Ans :=
  run (fun d => if d.pwr.mode = .off then modeEnter .held 5 (suppliesSeen { d with pwr.mgmtReset := false }) else d) s

/-- A supply known to be out of range. -/
def supplyBad (d : Dev) : Bool := d.pwr.v12Low || (decide (d.pst.auxMv ≠ 0) && decide (d.pst.auxMv < 3135))

/-- The node leaves Held for Unfurl (R408, R409); an Unfurl that has only begun runs its first steps. -/
def leaveHeld (b : Boot) (d : Dev) : Dev :=
  if d.pwr.mode = .held ∧ !d.pwr.nodeReset ∧ !d.pwr.mgmtReset ∧ !d.pwr.dumping ∧ !supplyBad d then
    unfurlRun b (volatileReset d)
  else unfurlRun b d

/-- Meaning of LEAVE_HELD (R408, R409). -/
def execLeaveHeld (b : Boot) (s : State) : Ans := run (leaveHeld b) s

/-- Meaning of NODE_RESET_DEASSERTED (R408, R409, R461). -/
def execNodeResetDeasserted (b : Boot) (s : State) : Ans :=
  run (fun d => leaveHeld b { d with pwr.nodeReset := false }) s

/-! ### Reset (R423, R425) -/

/-- NODE_RESET# is asserted: the retained save, and Held (R423); in Halt only below re-arm (R425); ignored during a dump. -/
def nodeReset (d : Dev) : Dev :=
  let d := { d with pwr.nodeReset := true }
  match d.pwr.mode with
  | .off | .held => d
  | .halt => if d.pwr.rearmed then modeEnter .held 4 d else d
  | m =>
    if d.pwr.dumping then d
    else
      let d := acceptAll (post 0x9039 1 m.code (occ d) 0 0 d)
      let d := hostDown 3 { d with pwr.retained := saveNow [] d }
      let d := bypassClose (stopMedia (stopAdmission d))
      modeEnter .held 4 { d with pwr.transitLeft := none, pwr.testing := 0, pwr.stopping := false }

/-- Meaning of NODE_RESET_ASSERTED (R423, R425, R466). -/
def execNodeResetAsserted (s : State) : Ans := run nodeReset s

/-! ### The power-fail dump (R419–R422) -/

/-- 12 V falls below its dump threshold: admission stops, media operations end, record 0x9038. In Held and Halt nothing is
stopped: a retained save of Held is dumped, Halt writes nothing (R422). -/
def powerFail (d : Dev) : Dev :=
  match d.pwr.mode with
  | .off => d
  | .held | .halt => { d with pwr.dumping := true, pwr.trigT := some d.time }
  | m =>
    if d.pwr.dumping then d
    else
      let d := post 0x9038 3 m.code (occ d) d.pwr.em 0 { d with pwr.dumping := true, pwr.trigT := some d.time, pwr.testing := 0, pwr.stopping := false }
      lanesDump (stopMedia (stopAdmission d))

/-- Meaning of POWER_FAIL_DUMP (R419). -/
def execPowerFailDump (s : State) : Ans := run powerFail s

/-- In Transit the dump writes the recorder's flush into the flash log (R422): the records its queue still holds. -/
def flushPages : Nat → Dev → Dev
  | 0, d => d
  | n + 1, d => if d.evr.flashQ.isEmpty then d else flushPages n (pageDone true (flashStart d))

/-- DUMP_COMPLETE: the spore as far as it was written (R412, R420, R422), then Off. Writes of the parameter store that wait
are lost. -/
def dumpDone (complete : Bool) (us : Nat) (lost : List (Nat × Nat)) (d : Dev) : Dev :=
  if !d.pwr.dumping then d
  else
    let inTransit := d.pwr.mode = .transit && d.pwr.transitLeft.isNone
    let d := match d.pwr.mode with
      | .halt => d
      | _ => if inTransit then let d := acceptAll d; flushPages (d.evr.flashQ.length + 1) d
        else
          let d := writeSpore complete lost d
          { d with pwr.spore := d.pwr.spore.map fun s => { s with us } }
    let d := bypassClose (hostDown 4 d)
    enterMode .off 1 { d with pwr.dumping := false, pwr.transitLeft := none, pst.fwq := [], pst.writing := false, pst.hostRow := false }

/-- Meaning of DUMP_COMPLETE (R419–R422). -/
def execDumpComplete (complete : Bool) (us : Nat) (lost : List (Nat × Nat)) (s : State) : Ans :=
  run (dumpDone complete us lost) s

/-! ### Leaving Halt (R425) -/

/-- Meaning of CLEAR_HALT (R354, R425): refused above re-arm, else Held. -/
def execClearHalt (tr : Transport) (p : List Byte) (s : State) : Ans :=
  run (command 0xC404 mH false (len 0) (fun _ => true)
    (fun _ d => if d.pwr.rearmed then ret rcOk (enterMode .held 0 d) else ret rcNotRearmed d) tr p) s

end Sys2Proof.Machine
end

