-- ==== Sys2Proof/Machine/MbxJobs.lean ====
section
/-! DEFINITION. Machine/MbxJobs.lean: the work of long-running commands: progress, and their ends (R342, R343, R361). -/

namespace Sys2Proof.Machine

/-! ### Progress (R343) -/

/-- The running command after some units of its work: its job and what the work did. Scan Media reads the header of each row
(R236) as management traffic; a MEM_READ that waited for a map line reads its lines. -/
def jobWork (r : Running) (units : Nat) (ts : Trouble) (d : Dev) : Running × Dev :=
  let more (n : Nat) : Running := { r with done := min r.total (r.done + n) }
  match r.job with
  | .release next last first =>
    let hi := min (last + 1) (next + units)
    if units = 0 then (r, d) else ({ more (hi - next) with job := .release hi last first }, releaseSpan false next (hi - 1) d)
  | .eraseRange n next last =>
    let hi := min (last + 1) (next + units)
    if units = 0 then (r, d) else ({ more (hi - next) with job := .eraseRange n hi last }, releaseSpan false next (hi - 1) d)
  | .shed next top =>
    let hi := min d.map.limit (next + units)
    if units = 0 then (r, d) else ({ more (hi - next) with job := .shed hi top }, releaseSpan true next (hi - 1) d)
  | .scratch next last =>
    let hi := min last (next + units)
    ({ more (hi - next) with job := .scratch hi last }, scratchZero next hi (dramGrant 5 ((hi - next) / 64) d))
  | .scan first last _ =>
    (more units, mediaGrant 5 ((span (first + r.done) (min last (first + r.done + units) - 1)).countP fun f => (mapGet d f).v) d)
  | .mem k n => match memTake k n ts d with
    | (some (rc, out), d) => ({ more n with job := .memDone rc out }, d)
    | (none, d) => (r, d)
  | .sanitize _ | .fwPart .. => (more units, d)
  | .transit _ step =>
    ({ r with done := if step = 0 then 0 else 1000 * (step - occ d) / (step + 1) }, d)
  | .pstWrite .. | .activate _ | .zeroize _ | .cipher | .storeTest | .rekeyGroup _ | .leave | .rejoin | .hold _ | .mode _ | .memDone .. => (r, d)

/-- MBX_PROGRESS_REFRESH: units of the running command's work complete, and its progress registers follow. -/
def progressRefresh (units ms : Nat) (ts : Trouble) (d : Dev) : Dev :=
  let d := transitSwitch d
  match d.mbx.run with
  | none => d
  | some r =>
    let (r, d) := jobWork r units ts d
    progSet r ms { d with mbx.run := some r }

/-- Meaning of MBX_PROGRESS_REFRESH (R343). -/
def execMbxProgressRefresh (units ms : Nat) (ts : Trouble) (s : State) : Ans := run (progressRefresh units ms ts) s

/-! ### Ends (R342) -/

/-- A started cipher request under a host slot. -/
def startedOn (d : Dev) (k : Nat) : Bool := d.cph.queue.any fun r => r.core.isSome && r.slot = k

/-- The end of a running command's work: a return code and its output, or it still waits. -/
def jobEnd (r : Running) (d : Dev) : Option (Nat × List Byte) × Dev :=
  let ok (d : Dev) : Option (Nat × List Byte) × Dev := (some (rcOk, []), d)
  match r.job with
  | .release next last first => ok (post 0x3027 0 first (last + 1 - first) 0 0 (releaseSpan false next last d))
  | .eraseRange n next last =>
    let d := releaseSpan false next last d
    if (tget d.sec.ranges n).former.any (setUnder d) then
      (none, { d with mbx.run := some { r with job := .eraseRange n (last + 1) last, done := r.total } })
    else ok (eraseEnd n r.total d)
  | .shed next top =>
    let (rc, d) := shedEnd top (releaseSpan true next (d.map.limit - 1) d)
    (some (rc, []), d)
  | .scratch next last => ok (scratchZero next last (dramGrant 5 ((last - next) / 64) d))
  | .sanitize full => match secRefused 2 d with
    | some (rc, d) => (some (rc, []), { d with pwr.rerun := none, csh.emptying := false })
    | none => ok (sanitizeRun full d)
  | .scan first last whole => ok (scanEnd first last whole d)
  | .transit .. => (none, d)
  | .pstWrite .. => (none, d)
  | .fwPart slot off last data p h g => match partEnd slot off last data p h g d with
    | some (rc, d) => (some (rc, []), d)
    | none => (none, d)
  | .activate slot => ok (activateEnd slot d)
  | .zeroize k => if startedOn d k then (none, d) else ok d
  | .cipher => (none, d)
  | .storeTest => if d.pwr.testing = 0 ∧ !d.pwr.testDue then (some (rcOk, toLe 2 (sat 16 d.pwr.em)), d) else (none, d)
  | .rekeyGroup e => if d.srn.newKey.isNone ∧ e ≠ d.srn.epoch then (some (rcOk, toLe 1 d.srn.epoch), d) else (none, d)
  | .leave => if !isMember d ∧ d.srn.bypassA ∧ d.srn.bypassB then ok d else (none, d)
  | .rejoin => ok d
  | .hold rc => (some (rc, if r.opcode = 0xC601 ∧ rc ≠ rcPassword then toLe 2 r.done else []), d)
  | .mem .. => (none, d)
  | .memDone rc out => (some (rc, out), d)
  | .mode m => if quiescent d then ok (modeSwitch m 200 d) else (none, d)

/-- MBX_COMMAND_COMPLETE: the running command finishes its work and completes (R342); a Transit entry once its cushion is
empty (R417). Firmware's writes of the parameter store that waited behind it go on (R366). -/
def commandComplete (ms : Nat) (d : Dev) : Dev :=
  let d := transitSwitch d
  match d.mbx.run with
  | none => d
  | some r => match r.job with
    | .transit _ (n + 1) => if occ d = 0 then transitDone r n ms d else d
    | _ => match jobEnd r d with
      | (none, d) => d
      | (some (rc, out), d) =>
        let d := cmdEnd r.tr r.opcode rc out ms r.lost d
        if r.opcode = 0xC601 ∨ r.opcode = 0xC602 then pstStart d else d

/-- Meaning of MBX_COMMAND_COMPLETE (R342, R417). -/
def execMbxCommandComplete (ms : Nat) (s : State) : Ans := run (commandComplete ms) s

end Sys2Proof.Machine
end

