-- ==== Sys2Proof/Machine/Dispatch.lean ====
section
/-! DEFINITION. Machine/Dispatch.lean: one arm per command, each a direct call of its meaning. -/

namespace Sys2Proof.Machine

/-- The effect of a command on everything but the queue. -/
def exec (i : Instr) (s : State) : Host.Outcome State Fault Refusal :=
  match i with
  | .cxlMemRead tag addr mv fx lat => Sys2Proof.Machine.execCxlMemRead tag addr mv fx lat s
  | .mapLineReadDone id bad lat => Sys2Proof.Machine.execMapLineReadDone id bad lat s
  | .mapLineRefetchDone m bad => Sys2Proof.Machine.execMapLineRefetchDone m bad s
  | .mapLineRecomputeDone m latestOk olderOk us => Sys2Proof.Machine.execMapLineRecomputeDone m latestOk olderOk us s
  | .cushionReadDone id bad maskBad lat => Sys2Proof.Machine.execCushionReadDone id bad maskBad lat s
  | .cushionMirrorRefetchDone id bad lat => Sys2Proof.Machine.execCushionMirrorRefetchDone id bad lat s
  | .mediaReadDone id badParts lineBad lat => Sys2Proof.Machine.execMediaReadDone id badParts lineBad lat s
  | .readRefetchDone id badParts lineBad lat => Sys2Proof.Machine.execReadRefetchDone id badParts lineBad lat s
  | .readRecomputeDone id badParts errs lineBad us lat => Sys2Proof.Machine.execReadRecomputeDone id badParts errs lineBad us lat s
  | .recomputeSecondPass id badParts errs lineBad us lat => Sys2Proof.Machine.execRecomputeSecondPass id badParts errs lineBad us lat s
  | .cxlMemWrite tag addr mv data be poison fx lat => Sys2Proof.Machine.execCxlMemWrite tag addr mv data be poison fx lat s
  | .memclnevct tag addr mv sfBad => Sys2Proof.Machine.execMemclnevct tag addr mv sfBad s
  | .creditReturn port => Sys2Proof.Machine.execCreditReturn port s
  | .dramWriteQueueIssue ch => Sys2Proof.Machine.execDramWriteQueueIssue ch s
  | .dramRefreshWindow => Sys2Proof.Machine.execDramRefreshWindow s
  | .sliceBoundary => Sys2Proof.Machine.execSliceBoundary s
  | .rdReq c fx lat => Sys2Proof.Machine.execRdReq c fx lat s
  | .rdRsp c data lat => Sys2Proof.Machine.execRdRsp c data lat s
  | .wrReq c data be fx lat => Sys2Proof.Machine.execWrReq c data be fx lat s
  | .wrAck c lat => Sys2Proof.Machine.execWrAck c lat s
  | .crdRet c => Sys2Proof.Machine.execCrdRet c s
  | .nak c => Sys2Proof.Machine.execNak c s
  | .cellForward type c => Sys2Proof.Machine.execCellForward type c s
  | .fecUncorrectable side corrected => Sys2Proof.Machine.execFecUncorrectable side corrected s
  | .requestRetry type tag topo => Sys2Proof.Machine.execRequestRetry type tag topo s
  | .ownerUnreachable tag lat => Sys2Proof.Machine.execOwnerUnreachable tag lat s
  | .writeTagExpiry src tag => Sys2Proof.Machine.execWriteTagExpiry src tag s
  | .task c qw entries => Sys2Proof.Machine.execTask c qw entries s
  | .credit c n => Sys2Proof.Machine.execCredit c n s
  | .abort c => Sys2Proof.Machine.execAbort c s
  | .result c words => Sys2Proof.Machine.execResult c words s
  | .taskEnd c cells examined word fault bytes tag => Sys2Proof.Machine.execTaskEnd c cells examined word fault bytes tag s
  | .snpQry c => Sys2Proof.Machine.execSnpQry c s
  | .snpDone c => Sys2Proof.Machine.execSnpDone c s
  | .winClaim c w => Sys2Proof.Machine.execWinClaim c w s
  | .winReply c w => Sys2Proof.Machine.execWinReply c w s
  | .winCommit c w => Sys2Proof.Machine.execWinCommit c w s
  | .winRelease c w => Sys2Proof.Machine.execWinRelease c w s
  | .table c members windows => Sys2Proof.Machine.execTable c members windows s
  | .spdmCell c m => Sys2Proof.Machine.execSpdmCell c m s
  | .epochKeyErase => Sys2Proof.Machine.execEpochKeyErase s
  | .echo side serial => Sys2Proof.Machine.execEcho side serial s
  | .mark src ringB => Sys2Proof.Machine.execMark src ringB s
  | .topo c a b => Sys2Proof.Machine.execTopo c a b s
  | .linkLossOfLock side => Sys2Proof.Machine.execLinkLossOfLock side s
  | .linkRetrainAttempt side => Sys2Proof.Machine.execLinkRetrainAttempt side s
  | .linkTrained side peer ms => Sys2Proof.Machine.execLinkTrained side peer ms s
  | .wrap a b side => Sys2Proof.Machine.execWrap a b side s
  | .unwrap a b => Sys2Proof.Machine.execUnwrap a b s
  | .leave index => Sys2Proof.Machine.execLeave index s
  | .present p => Sys2Proof.Machine.execPresent p s
  | .presentTimer => Sys2Proof.Machine.execPresentTimer s
  | .presentWindowClose => Sys2Proof.Machine.execPresentWindowClose s
  | .claim serial index ringId => Sys2Proof.Machine.execClaim serial index ringId s
  | .held serial reason => Sys2Proof.Machine.execHeld serial reason s
  | .spliceReq serial index => Sys2Proof.Machine.execSpliceReq serial index s
  | .spliceGo index => Sys2Proof.Machine.execSpliceGo index s
  | .spliceAbort index step cause => Sys2Proof.Machine.execSpliceAbort index step cause s
  | .spliceDone index ms => Sys2Proof.Machine.execSpliceDone index ms s
  | .spdmFrame m => Sys2Proof.Machine.execSpdmFrame m s
  | .heartbeat index epoch => Sys2Proof.Machine.execHeartbeat index epoch s
  | .heartbeatTimer => Sys2Proof.Machine.execHeartbeatTimer s
  | .rhizoidListenExpiry => Sys2Proof.Machine.execRhizoidListenExpiry s
  | .coldFormLinksUp westUp eastUp => Sys2Proof.Machine.execColdFormLinksUp westUp eastUp s
  | .spdmSessionEstablished peer authOk ms => Sys2Proof.Machine.execSpdmSessionEstablished peer authOk ms s
  | .portDrainEnd side => Sys2Proof.Machine.execPortDrainEnd side s
  | .plugPresence side present => Sys2Proof.Machine.execPlugPresence side present s
  | .mapUpdateApply => Sys2Proof.Machine.execMapUpdateApply s
  | .mapLapLate => Sys2Proof.Machine.execMapLapLate s
  | .laneOffer lane who ts => Sys2Proof.Machine.execLaneOffer lane who ts s
  | .pinLift id => Sys2Proof.Machine.execPinLift id s
  | .programWaveDone lane fail => Sys2Proof.Machine.execProgramWaveDone lane fail s
  | .resetDone lane pos ok => Sys2Proof.Machine.execResetDone lane pos ok s
  | .operationSuspended lane pos => Sys2Proof.Machine.execOperationSuspended lane pos s
  | .operationResume lane pos us => Sys2Proof.Machine.execOperationResume lane pos us s
  | .operationStall lane pos us => Sys2Proof.Machine.execOperationStall lane pos us s
  | .dieFailed ch die ops => Sys2Proof.Machine.execDieFailed ch die ops s
  | .verifyPassDone nsb pos pages lost => Sys2Proof.Machine.execVerifyPassDone nsb pos pages lost s
  | .slotDrainEnd key => Sys2Proof.Machine.execSlotDrainEnd key s
  | .genLimitRetry => Sys2Proof.Machine.execGenLimitRetry s
  | .periodStart => Sys2Proof.Machine.execPeriodStart s
  | .candidateRebucket => Sys2Proof.Machine.execCandidateRebucket s
  | .sentinelMeasurementDone nsb pos dcOld dcNew => Sys2Proof.Machine.execSentinelMeasurementDone nsb pos dcOld dcNew s
  | .patrolRowReadDone row f => Sys2Proof.Machine.execPatrolRowReadDone row f s
  | .patrolLapLate => Sys2Proof.Machine.execPatrolLapLate s
  | .patrolPositionSave => Sys2Proof.Machine.execPatrolPositionSave s
  | .patrolDrainEnd => Sys2Proof.Machine.execPatrolDrainEnd s
  | .scrubRead region addr mask found => Sys2Proof.Machine.execScrubRead region addr mask found s
  | .scrubLapLate sram seconds => Sys2Proof.Machine.execScrubLapLate sram seconds s
  | .rekeyHeaderReadDone range => Sys2Proof.Machine.execRekeyHeaderReadDone range s
  | .rekeyDone range => Sys2Proof.Machine.execRekeyDone range s
  | .rekeyBoundarySave range => Sys2Proof.Machine.execRekeyBoundarySave range s
  | .keyStoreRetry => Sys2Proof.Machine.execKeyStoreRetry s
  | .linkUp width rate flit => Sys2Proof.Machine.execLinkUp width rate flit s
  | .linkDown => Sys2Proof.Machine.execLinkDown s
  | .perstAsserted => Sys2Proof.Machine.execPerstAsserted s
  | .perstDeasserted => Sys2Proof.Machine.execPerstDeasserted s
  | .hotReset => Sys2Proof.Machine.execHotReset s
  | .cxlReset => Sys2Proof.Machine.execCxlReset s
  | .configRequest tag viral => Sys2Proof.Machine.execConfigRequest tag viral s
  | .doeCdatRead => Sys2Proof.Machine.execDoeCdatRead s
  | .doeSpdm => Sys2Proof.Machine.execDoeSpdm s
  | .ideKm stream skid => Sys2Proof.Machine.execIdeKm stream skid s
  | .gpfPhase1 => Sys2Proof.Machine.execGpfPhase1 s
  | .gpfPhase2 => Sys2Proof.Machine.execGpfPhase2 s
  | .bisnpSend => Sys2Proof.Machine.execBisnpSend s
  | .birsp line writeBack => Sys2Proof.Machine.execBirsp line writeBack s
  | .hdmDecoderCommit n base size skip bi iw lock => Sys2Proof.Machine.execHdmDecoderCommit n base size skip bi iw lock s
  | .hdmDecoderDecommit n => Sys2Proof.Machine.execHdmDecoderDecommit n s
  | .opeTqDbTail q tail => Sys2Proof.Machine.execOpeTqDbTail q tail s
  | .taskDecide => Sys2Proof.Machine.execTaskDecide s
  | .chunkStart e => Sys2Proof.Machine.execChunkStart e s
  | .chunkEnd e ts scr => Sys2Proof.Machine.execChunkEnd e ts scr s
  | .deadlineExpiry entry => Sys2Proof.Machine.execDeadlineExpiry entry s
  | .engineFaulted e => Sys2Proof.Machine.execEngineFaulted e s
  | .resultQueueStallEnd r => Sys2Proof.Machine.execResultQueueStallEnd r s
  | .unitDrainEnd u => Sys2Proof.Machine.execUnitDrainEnd u s
  | .cipherRequestStart core => Sys2Proof.Machine.execCipherRequestStart core s
  | .cipherRequestDone core => Sys2Proof.Machine.execCipherRequestDone core s
  | .cipherCoreDisabled core parity => Sys2Proof.Machine.execCipherCoreDisabled core parity s
  | .mbxProgressRefresh units ms ts => Sys2Proof.Machine.execMbxProgressRefresh units ms ts s
  | .mbxProgressRead size off => Sys2Proof.Machine.execMbxProgressRead size off s
  | .mbxCommandComplete ms => Sys2Proof.Machine.execMbxCommandComplete ms s
  | .identify tr p => Sys2Proof.Machine.execIdentify tr p s
  | .getEventRecords tr p => Sys2Proof.Machine.execGetEventRecords tr p s
  | .clearEventRecords tr p => Sys2Proof.Machine.execClearEventRecords tr p s
  | .getEventInterruptPolicy tr p => Sys2Proof.Machine.execGetEventInterruptPolicy tr p s
  | .setEventInterruptPolicy tr p => Sys2Proof.Machine.execSetEventInterruptPolicy tr p s
  | .getFwInfo tr p => Sys2Proof.Machine.execGetFwInfo tr p s
  | .transferFw tr p progOk hashOk sigOk => Sys2Proof.Machine.execTransferFw tr p progOk hashOk sigOk s
  | .activateFw tr p sigOk => Sys2Proof.Machine.execActivateFw tr p sigOk s
  | .getTimestamp tr p => Sys2Proof.Machine.execGetTimestamp tr p s
  | .setTimestamp tr p => Sys2Proof.Machine.execSetTimestamp tr p s
  | .getSupportedLogs tr p => Sys2Proof.Machine.execGetSupportedLogs tr p s
  | .getLog tr p => Sys2Proof.Machine.execGetLog tr p s
  | .identifyMemoryDevice tr p => Sys2Proof.Machine.execIdentifyMemoryDevice tr p s
  | .getHealthInfo tr p => Sys2Proof.Machine.execGetHealthInfo tr p s
  | .getAlertConfiguration tr p => Sys2Proof.Machine.execGetAlertConfiguration tr p s
  | .setAlertConfiguration tr p => Sys2Proof.Machine.execSetAlertConfiguration tr p s
  | .getPoisonList tr p => Sys2Proof.Machine.execGetPoisonList tr p s
  | .injectPoison tr p => Sys2Proof.Machine.execInjectPoison tr p s
  | .clearPoison tr p => Sys2Proof.Machine.execClearPoison tr p s
  | .getScanMediaCapabilities tr p => Sys2Proof.Machine.execGetScanMediaCapabilities tr p s
  | .scanMedia tr p => Sys2Proof.Machine.execScanMedia tr p s
  | .getScanMediaResults tr p => Sys2Proof.Machine.execGetScanMediaResults tr p s
  | .sanitize tr p => Sys2Proof.Machine.execSanitize tr p s
  | .secureErase tr p => Sys2Proof.Machine.execSecureErase tr p s
  | .getRingStatus tr p => Sys2Proof.Machine.execGetRingStatus tr p s
  | .setRingIndex tr p => Sys2Proof.Machine.execSetRingIndex tr p s
  | .ringGroupRekey tr p => Sys2Proof.Machine.execRingGroupRekey tr p s
  | .ringLeave tr p => Sys2Proof.Machine.execRingLeave tr p s
  | .ringRejoin tr p => Sys2Proof.Machine.execRingRejoin tr p s
  | .getEngineStatus tr p => Sys2Proof.Machine.execGetEngineStatus tr p s
  | .clearScratch tr p => Sys2Proof.Machine.execClearScratch tr p s
  | .openRange tr p => Sys2Proof.Machine.execOpenRange tr p s
  | .closeRange tr p => Sys2Proof.Machine.execCloseRange tr p s
  | .rekeyRange tr p => Sys2Proof.Machine.execRekeyRange tr p s
  | .setRangeAttr tr p => Sys2Proof.Machine.execSetRangeAttr tr p s
  | .cphKeyGenerate tr p => Sys2Proof.Machine.execCphKeyGenerate tr p s
  | .cphKeyImport tr p secured => Sys2Proof.Machine.execCphKeyImport tr p secured s
  | .cphKeyZeroize tr p => Sys2Proof.Machine.execCphKeyZeroize tr p s
  | .cphRequest tr p => Sys2Proof.Machine.execCphRequest tr p s
  | .cphKeyWrap tr p => Sys2Proof.Machine.execCphKeyWrap tr p s
  | .releaseRange tr p => Sys2Proof.Machine.execReleaseRange tr p s
  | .shedCapacity tr p => Sys2Proof.Machine.execShedCapacity tr p s
  | .clearWriteRefused tr p => Sys2Proof.Machine.execClearWriteRefused tr p s
  | .getMediaLife tr p => Sys2Proof.Machine.execGetMediaLife tr p s
  | .setMode tr p => Sys2Proof.Machine.execSetMode tr p s
  | .transitFailed => Sys2Proof.Machine.execTransitFailed s
  | .setPowerLimit tr p => Sys2Proof.Machine.execSetPowerLimit tr p s
  | .setThermalInput tr p => Sys2Proof.Machine.execSetThermalInput tr p s
  | .getPowerThermal tr p => Sys2Proof.Machine.execGetPowerThermal tr p s
  | .clearHalt tr p => Sys2Proof.Machine.execClearHalt tr p s
  | .energyStoreTest tr p => Sys2Proof.Machine.execEnergyStoreTest tr p s
  | .readLog tr p => Sys2Proof.Machine.execReadLog tr p s
  | .freezeLog tr p => Sys2Proof.Machine.execFreezeLog tr p s
  | .readProtected tr p => Sys2Proof.Machine.execReadProtected tr p s
  | .clearProtected tr p => Sys2Proof.Machine.execClearProtected tr p s
  | .readHistogram tr p => Sys2Proof.Machine.execReadHistogram tr p s
  | .pstRead tr p => Sys2Proof.Machine.execPstRead tr p s
  | .pstWrite tr p => Sys2Proof.Machine.execPstWrite tr p s
  | .pstSetPassword tr p => Sys2Proof.Machine.execPstSetPassword tr p s
  | .pstGetInfo tr p => Sys2Proof.Machine.execPstGetInfo tr p s
  | .getImageInfo tr p => Sys2Proof.Machine.execGetImageInfo tr p s
  | .readFlashLog tr p => Sys2Proof.Machine.execReadFlashLog tr p s
  | .setMinSecurityVersion tr p => Sys2Proof.Machine.execSetMinSecurityVersion tr p s
  | .identifyNode tr p => Sys2Proof.Machine.execIdentifyNode tr p s
  | .ledgerSnapshot tr p => Sys2Proof.Machine.execLedgerSnapshot tr p s
  | .memRead tr p ts dbg => Sys2Proof.Machine.execMemRead tr p ts dbg s
  | .lockstepMismatch pair pc => Sys2Proof.Machine.execLockstepMismatch pair pc s
  | .pstRowWriteDone => Sys2Proof.Machine.execPstRowWriteDone s
  | .flashEraseDone ok => Sys2Proof.Machine.execFlashEraseDone ok s
  | .flashEraseResume => Sys2Proof.Machine.execFlashEraseResume s
  | .flashPageProgramDone ok => Sys2Proof.Machine.execFlashPageProgramDone ok s
  | .eraseMarkerRetry => Sys2Proof.Machine.execEraseMarkerRetry s
  | .flashSupplyCrossing mv => Sys2Proof.Machine.execFlashSupplyCrossing mv s
  | .fwWpChange asserted => Sys2Proof.Machine.execFwWpChange asserted s
  | .recordAccept => Sys2Proof.Machine.execRecordAccept s
  | .flashLogTimer => Sys2Proof.Machine.execFlashLogTimer s
  | .freezeExpired => Sys2Proof.Machine.execFreezeExpired s
  | .histogramWindowEnd => Sys2Proof.Machine.execHistogramWindowEnd s
  | .compatWindowEnd => Sys2Proof.Machine.execCompatWindowEnd s
  | .registerWrite off size v => Sys2Proof.Machine.execRegisterWrite off size v s
  | .ldgCtlXtrmClr => Sys2Proof.Machine.execLdgCtlXtrmClr s
  | .ldgCtlOvrClr => Sys2Proof.Machine.execLdgCtlOvrClr s
  | .ldgBudBudget n v => Sys2Proof.Machine.execLdgBudBudget n v s
  | .mapCtlCntClr => Sys2Proof.Machine.execMapCtlCntClr s
  | .mapCtlCacheInval => Sys2Proof.Machine.execMapCtlCacheInval s
  | .mapPeekFrond f => Sys2Proof.Machine.execMapPeekFrond f s
  | .medRdCtlCntClr => Sys2Proof.Machine.execMedRdCtlCntClr s
  | .cshCtlCntClr => Sys2Proof.Machine.execCshCtlCntClr s
  | .medCtlCntClr => Sys2Proof.Machine.execMedCtlCntClr s
  | .medDiagCmdGo => Sys2Proof.Machine.execMedDiagCmdGo s
  | .medDiagDone => Sys2Proof.Machine.execMedDiagDone s
  | .stwCtlCntClr => Sys2Proof.Machine.execStwCtlCntClr s
  | .stwCtlPatrolEn en => Sys2Proof.Machine.execStwCtlPatrolEn en s
  | .secCtlCntClr => Sys2Proof.Machine.execSecCtlCntClr s
  | .hstCtlCntClr => Sys2Proof.Machine.execHstCtlCntClr s
  | .srnCtlCntClr => Sys2Proof.Machine.execSrnCtlCntClr s
  | .srnCtlPortEn side en => Sys2Proof.Machine.execSrnCtlPortEn side en s
  | .srnCtlGroupRekey => Sys2Proof.Machine.execSrnCtlGroupRekey s
  | .opeCtlCntClr => Sys2Proof.Machine.execOpeCtlCntClr s
  | .opeEngEn e en => Sys2Proof.Machine.execOpeEngEn e en s
  | .opeTqCtlEn q en => Sys2Proof.Machine.execOpeTqCtlEn q en s
  | .opeTqCtlAbort q => Sys2Proof.Machine.execOpeTqCtlAbort q s
  | .opeRqCfgEn r en => Sys2Proof.Machine.execOpeRqCfgEn r en s
  | .opeRqPtrRd r rd ce bad => Sys2Proof.Machine.execOpeRqPtrRd r rd ce bad s
  | .cphCtlCntClr => Sys2Proof.Machine.execCphCtlCntClr s
  | .mbxCtlCntClr => Sys2Proof.Machine.execMbxCtlCntClr s
  | .pstCtlCntClr => Sys2Proof.Machine.execPstCtlCntClr s
  | .bflCtlCntClr => Sys2Proof.Machine.execBflCtlCntClr s
  | .evrCtlCntClr => Sys2Proof.Machine.execEvrCtlCntClr s
  | .pwrCtlCntClr => Sys2Proof.Machine.execPwrCtlCntClr s
  | .thmCtlCntClr => Sys2Proof.Machine.execThmCtlCntClr s
  | .powerGood => Sys2Proof.Machine.execPowerGood s
  | .nodeResetDeasserted b => Sys2Proof.Machine.execNodeResetDeasserted b s
  | .recoveryDone ms => Sys2Proof.Machine.execRecoveryDone ms s
  | .dormantIdle => Sys2Proof.Machine.execDormantIdle s
  | .nodeResetAsserted => Sys2Proof.Machine.execNodeResetAsserted s
  | .powerFailDump => Sys2Proof.Machine.execPowerFailDump s
  | .dumpComplete complete us lost => Sys2Proof.Machine.execDumpComplete complete us lost s
  | .thermalModelStep => Sys2Proof.Machine.execThermalModelStep s
  | .powerLimitEvaluation busyAvg => Sys2Proof.Machine.execPowerLimitEvaluation busyAvg s
  | .monitorConversion rail mw => Sys2Proof.Machine.execMonitorConversion rail mw s
  | .monitorFailed rail cause mw => Sys2Proof.Machine.execMonitorFailed rail cause mw s
  | .supplyOutOfRange mv => Sys2Proof.Machine.execSupplyOutOfRange mv s
  | .v12Overvoltage => Sys2Proof.Machine.execV12Overvoltage s
  | .auxLow mv => Sys2Proof.Machine.execAuxLow mv s
  | .auxReset => Sys2Proof.Machine.execAuxReset s
  | .clockFault source => Sys2Proof.Machine.execClockFault source s
  | .bankCharged b => Sys2Proof.Machine.execBankCharged b s
  | .testDischargeStart => Sys2Proof.Machine.execTestDischargeStart s
  | .testDischargeMeasured stepMv us => Sys2Proof.Machine.execTestDischargeMeasured stepMv us s
  | .testDischargeTimeout => Sys2Proof.Machine.execTestDischargeTimeout s
  | .testDischargeRecharged => Sys2Proof.Machine.execTestDischargeRecharged s
  | .poweredHoursTick => Sys2Proof.Machine.execPoweredHoursTick s
  | .leaveHeld b => Sys2Proof.Machine.execLeaveHeld b s
  | .linkTrainingFailed side => Sys2Proof.Machine.execLinkTrainingFailed side s
  | .ringIndexWriteRetry => Sys2Proof.Machine.execRingIndexWriteRetry s
  | .spliceRequestAgain => Sys2Proof.Machine.execSpliceRequestAgain s
  | .winClaimReplyTimeout n => Sys2Proof.Machine.execWinClaimReplyTimeout n s
  | .spdmOverMctp tr => Sys2Proof.Machine.execSpdmOverMctp tr s
  | .auxRestored mv => Sys2Proof.Machine.execAuxRestored mv s
  | .entdaa da => Sys2Proof.Machine.execEntdaa da s
  | .biconflict line => Sys2Proof.Machine.execBiconflict line s

end Sys2Proof.Machine
end

