-- ==== Sys2Proof/Safety.lean ====
section
/-! DEFINITION. Safety.lean: what a safe run is, in the terms the statements use: no step of the block stops it, and the
node's bounded stores and sparse memories stay in order. -/

namespace Sys2Proof

/-- A step that goes on. -/
def goesOn (o : Host.Outcome Machine.State Machine.Fault Machine.Refusal) : Prop := ∃ t, o = .next t

/-- A safe state: its next step goes on. -/
def Safe (s : Machine.State) : Prop := goesOn (Machine.step s)

namespace Machine

/-- The stores of the node keep their bounds and their canonical forms: the posting buffer of 256 entries (R385), the
protected area of 1,024 records (R388), the flash queue of 4,096 (R389), the three CXL event logs of 1,024 (R347), every
record of the event log in the slot of its SEQ (R386), and the scratch memory (R317), the flash images and the flash log
(R371), the frond map (R64), the rows on media (R152), the cushion's directory (R123) and the rows of the parameter store
(R362) in canonical form. -/
def Dev.Sound (d : Dev) : Prop :=
  d.evr.buf.length ≤ 256 ∧ d.evr.prot.length ≤ 1024 ∧ d.evr.flashQ.length ≤ 4096
  ∧ d.mbx.warnLog.length ≤ 1024 ∧ d.mbx.failLog.length ≤ 1024 ∧ d.mbx.fatalLog.length ≤ 1024
  ∧ twf d.evr.log = true ∧ (∀ x ∈ d.evr.log, x.1 = x.2.seq % 65536)
  ∧ twf d.ope.scratch = true ∧ twf d.bfl.img = true ∧ twf d.bfl.log = true
  ∧ twf d.map.ent = true ∧ twf d.med.rows = true ∧ twf d.csh.dir = true ∧ twf d.pst.rows = true

/-- The executor takes a command: its transport reaches it, no command runs, and the mode allows it (R339–R341). -/
abbrev Dev.takes (g : Modes) (tr : Transport) (d : Dev) : Prop :=
  reachable tr d = true ∧ d.mbx.run = none ∧ modeOk g tr d = true

end Machine

end Sys2Proof
end

