-- ==== Sys2Proof/Certificates/Slice0/Obligations.lean ====
section
/-! DEFINITION. Certificates/Slice0/Obligations.lean: the statements for the provers: what one step does, the invariant every
step keeps, and by family what each command does, from the numbered rules of spec/. -/

open Sys2Proof Sys2Proof.Machine

/-- One step takes the command at the front of the queue and runs it with the rest of the queue. -/
def Obligations.StepRunsTheFrontCommand : Prop :=
  ∀ (c : Instr) (q : List Instr) (d : Dev), step ⟨d, c :: q⟩ = exec c ⟨d, q⟩

/-- On an empty queue a step is one tick of TIME (the model's choice: log entry 1): TIME goes up by one, the ring's ports and
the rhizoid line send of what waits at them (log entries 74 and 75), and an orderly trip is followed up; where nothing waits, no
credit is owed, no SEQ has passed 2^63 and no trip runs, TIME alone changes. -/
def Obligations.IdleStepIsOneTick : Prop :=
  (∀ d : Dev, step ⟨d, []⟩ = .next ⟨tripFollow (linkTick { d with time := d.time + 1 }), []⟩) ∧
  (∀ d : Dev, d.srn.west.q = [] → d.srn.west.used = [] → d.srn.west.back = [] →
    d.srn.east.q = [] → d.srn.east.used = [] → d.srn.east.back = [] → d.srn.rlCur = none → d.srn.rlq = [] →
    d.srn.seqNext ≤ 2 ^ 63 → (∀ x ∈ d.srn.seqs, x.2.high ≤ 2 ^ 63) → d.pwr.stopping = false →
    step ⟨d, []⟩ = .next ⟨{ d with time := d.time + 1 }, []⟩)

/-- Every command goes on, and none of them touches the queue behind it. -/
def Obligations.EveryCommandGoesOn : Prop :=
  ∀ (c : Instr) (s : State), ∃ t, exec c s = .next t ∧ t.pending = s.pending

/-- What the spec gives as values at the node's departure from Held. -/
def Obligations.ResetValues : Prop :=
  State.reset.pending = [] ∧ State.reset.dev.time = 0 ∧ State.reset.dev.evr.seqNext = 0 ∧
  State.reset.dev.evr.log = [] ∧ State.reset.dev.evr.buf = [] ∧
  State.reset.dev.ldg.bud = [45, 8, 72, 160, 24, 40, 51, 72] ∧ State.reset.dev.ldg.env = 8640 ∧
  State.reset.dev.csh.hwPct = 85 ∧ State.reset.dev.hst.thHigh = 3584 ∧ State.reset.dev.hst.thLow = 3072 ∧
  State.reset.dev.srn.bypassA = true ∧ State.reset.dev.srn.bypassB = true ∧ State.reset.dev.srn.ring = .alone ∧
  State.reset.dev.mbx.run = none ∧ State.reset.dev.pwr.mode = .unfurl

/-- The state at reset has its stores in order. -/
def Obligations.ResetIsSound : Prop := State.reset.dev.Sound

/-- Every step keeps the stores of the node in order: the bounds of the posting buffer, the protected area, the flash queue
and the CXL event logs; every record in the slot of its SEQ; and the canonical form of the log, the scratch memory, the
two flash regions, the frond map, the rows on media, the cushion's directory and the rows of the parameter store. -/
def Obligations.EveryStepKeepsTheStores : Prop :=
  ∀ s t : State, s.dev.Sound → step s = .next t → t.dev.Sound

/-- A post takes one of 240 common entries, or of 16 more when its severity is 4; else it is dropped, counted in EVR_CNT_2,
and marks the next record. Only the recorder changes. -/
def Obligations.PostingBuffer : Prop :=
  (∀ (code sev p0 p1 p2 p3 : Nat) (d : Dev), (d.evr.buf.length < 240 ∨ (sev = 4 ∧ d.evr.buf.length < 256)) →
    post code sev p0 p1 p2 p3 d = { d with evr.buf := d.evr.buf ++
      [{ code, sev, p0 := p0 % 2 ^ 32, p1 := p1 % 2 ^ 32, p2 := p2 % 2 ^ 32, p3 := p3 % 2 ^ 32 }] }) ∧
  (∀ (code sev p0 p1 p2 p3 : Nat) (d : Dev), sev ≠ 4 → 240 ≤ d.evr.buf.length →
    post code sev p0 p1 p2 p3 d = { d with evr.cnt := bump d.evr.cnt 2, evr.lostBefore := true })

/-- RECORD_ACCEPT: the one waiting post of severity 0 or 1 is stamped with TIME and SEQ and lies in slot SEQ mod 65,536. -/
def Obligations.RecordAccepted : Prop :=
  ∀ (d : Dev) (q : List Instr) (p : Post), d.pwr.mode.firmware = true → d.evr.buf = [p] → p.sev < 2 → p.code / 4096 ∈ span 1 11 →
    d.evr.frozen = false → d.evr.compatEnNow = false → d.evr.protFull = false → p.code ≠ 0xA006 →
    (tget d.evr.log (d.evr.seqNext % 65536)).code = 0 →
    ∃ t, exec .recordAccept ⟨d, q⟩ = .next ⟨t, q⟩ ∧
      t.evr.log = tset d.evr.log (d.evr.seqNext % 65536)
        { code := p.code, sev := p.sev, flags := 4 * b2n (!d.evr.epochSet) + 16 * b2n d.evr.lostBefore + 32 * b2n p.summary,
          seq := d.evr.seqNext, time := d.time, p0 := p.p0, p1 := p.p1, p2 := p.p2, p3 := p.p3 } ∧
      t.evr.seqNext = (d.evr.seqNext + 1) % 2 ^ 32 ∧ t.evr.buf = [] ∧ t.evr.lostBefore = false ∧
      t.evr.cnt = bump d.evr.cnt 0 ∧ t.evr.prot = d.evr.prot ∧ t.evr.flashQ = d.evr.flashQ ∧
      t.mbx = d.mbx ∧ t.pwr = d.pwr ∧ t.csh = d.csh ∧ t.med = d.med ∧ t.map = d.map ∧ t.sec = d.sec ∧ t.out = d.out

/-- The recorder's windows and its frozen log (R394, R395, R399): HISTOGRAM_WINDOW_END closes the window at the next multiple of
its length, its bins and extremes becoming the last window's; COMPAT_WINDOW_END with no code suppressed empties the code table and
takes the settings written since; FREEZE_EXPIRED thaws a frozen log that holds no record and posts 0xA005, and changes nothing on a
log that is not frozen. -/
def Obligations.RecorderWindows : Prop :=
  (∀ (d : Dev) (q : List Instr), d.pwr.mode.firmware = true →
    exec .histogramWindowEnd ⟨d, q⟩ = .next ⟨{ d with
      time := (d.time / (d.evr.winMsNow * 100000) + 1) * (d.evr.winMsNow * 100000)
      evr.binsLast := d.evr.bins
      evr.bins := []
      evr.extLast := d.evr.ext
      evr.ext := []
      evr.lastStart := d.evr.winStart
      evr.lastLen := (d.time / (d.evr.winMsNow * 100000) + 1) * (d.evr.winMsNow * 100000) - d.evr.winStart
      evr.winStart := (d.time / (d.evr.winMsNow * 100000) + 1) * (d.evr.winMsNow * 100000)
      evr.winMsNow := d.evr.winMs }, q⟩) ∧
  (∀ (d : Dev) (q : List Instr), d.pwr.mode.firmware = true → (∀ c ∈ d.evr.codes, c.2.2 = 0) →
    exec .compatWindowEnd ⟨d, q⟩ = .next ⟨{ d with
      time := (d.time / (d.evr.compatMsNow * 100000) + 1) * (d.evr.compatMsNow * 100000)
      evr.codes := []
      evr.compatEnNow := d.evr.compatEn
      evr.compatLimitNow := d.evr.compatLimit
      evr.compatMsNow := d.evr.compatMs }, q⟩) ∧
  (∀ (d : Dev) (q : List Instr), d.evr.frozen = true → d.evr.hold = [] →
    exec .freezeExpired ⟨d, q⟩ = .next ⟨post 0xA005 1 0 d.evr.frozenLost 0 0 { d with evr.frozen := false, evr.hold := [] }, q⟩) ∧
  (∀ (d : Dev) (q : List Instr), d.evr.frozen = false → exec .freezeExpired ⟨d, q⟩ = .next ⟨d, q⟩)

/-- The recorder's commands (R355, R388, R392–R394, R399): READ_LOG and READ_PROTECTED answer with the records they name, those
that cannot be read counted in EVR_CNT_6; FREEZE_LOG freezes an unfrozen log, leaves a frozen one as it is, and thaws one;
CLEAR_PROTECTED empties the protected area and posts record 0xA006; READ_HISTOGRAM answers with the start and length of the running
or the last window and with a class's 64 bins or an extreme. -/
def Obligations.RecorderCommands : Prop :=
  (∀ (tr : Transport) (p : List Byte) (d : Dev) (q : List Instr), d.takes mAll tr → p.length = 5 → 1 ≤ byte p 4 →
    byte p 4 ≤ 127 →
    exec (.readLog tr p) ⟨d, q⟩ = .next ⟨cmdEnd tr 0xC500 0
      (toLe 4 (seqOldest d) ++ toLe 4 d.evr.seqNext ++ toLe 2 (logSpan d (le p 0 4) (byte p 4)).2 ++ toLe 6 0 ++
        ((List.range (logSpan d (le p 0 4) (byte p 4)).2).map fun i =>
          logRead d (((logSpan d (le p 0 4) (byte p 4)).1 + i) % 2 ^ 32)).flatMap fun r => r.1.bytes) 0 false
      { d with evr.cnt := bump d.evr.cnt 6 (((List.range (logSpan d (le p 0 4) (byte p 4)).2).map fun i =>
          logRead d (((logSpan d (le p 0 4) (byte p 4)).1 + i) % 2 ^ 32)).filter (·.2)).length }, q⟩) ∧
  (∀ (tr : Transport) (p : List Byte) (d : Dev) (q : List Instr), d.takes mUM tr → d.pwr.mode ≠ .splice → p.length = 1 →
    byte p 0 = 1 → d.evr.frozen = false →
    exec (.freezeLog tr p) ⟨d, q⟩ = .next ⟨cmdEnd tr 0xC501 0 [] 0 false
      { d with evr.frozen := true, evr.hold := [], evr.frozenLost := 0 }, q⟩) ∧
  (∀ (tr : Transport) (p : List Byte) (d : Dev) (q : List Instr), d.takes mUM tr → d.pwr.mode ≠ .splice → p.length = 1 →
    byte p 0 = 1 → d.evr.frozen = true → exec (.freezeLog tr p) ⟨d, q⟩ = .next ⟨cmdEnd tr 0xC501 0 [] 0 false d, q⟩) ∧
  (∀ (tr : Transport) (p : List Byte) (d : Dev) (q : List Instr), d.takes mUM tr → d.pwr.mode ≠ .splice → p.length = 1 →
    byte p 0 = 0 → exec (.freezeLog tr p) ⟨d, q⟩ = .next ⟨cmdEnd tr 0xC501 0 [] 0 false (thaw d), q⟩) ∧
  (∀ (tr : Transport) (p : List Byte) (d : Dev) (q : List Instr) (first n : Nat), d.takes mAll tr → p.length = 3 → 1 ≤ byte p 2 →
    byte p 2 ≤ 127 → first = le p 0 2 → n = min (byte p 2) (d.evr.prot.length - first) →
    exec (.readProtected tr p) ⟨d, q⟩ = .next ⟨cmdEnd tr 0xC502 0
      (toLe 2 d.evr.prot.length ++ toLe 2 n ++ toLe 12 0 ++
        ((List.range n).map fun i => protRead d (first + i)).flatMap fun r => r.1.bytes) 0 false
      { d with evr.cnt := bump d.evr.cnt 6 (((List.range n).map fun i => protRead d (first + i)).filter (·.2)).length }, q⟩) ∧
  (∀ (tr : Transport) (d : Dev) (q : List Instr), d.takes mM tr →
    exec (.clearProtected tr []) ⟨d, q⟩ = .next ⟨cmdEnd tr 0xC503 0 [] 0 false
      (post 0xA006 0 d.evr.prot.length d.evr.protDropped (trCode tr) 0
        { d with evr.prot := [], evr.protFull := false, evr.protDropped := 0,
                 evr.corrupt := d.evr.corrupt.filter (· < 65536) }), q⟩) ∧
  (∀ (tr : Transport) (p : List Byte) (d : Dev) (q : List Instr), d.takes mAll tr → p.length = 2 → byte p 0 < 5 → byte p 1 = 1 →
    exec (.readHistogram tr p) ⟨d, q⟩ = .next ⟨cmdEnd tr 0xC504 0
      (toLe 8 d.evr.lastStart ++ toLe 8 d.evr.lastLen ++
        (List.range 64).flatMap fun i => toLe 8 (sat 64 (tget d.evr.binsLast (64 * byte p 0 + i)))) 0 false d, q⟩) ∧
  (∀ (tr : Transport) (p : List Byte) (d : Dev) (q : List Instr), d.takes mAll tr → p.length = 2 → byte p 0 < 5 → byte p 1 = 0 →
    exec (.readHistogram tr p) ⟨d, q⟩ = .next ⟨cmdEnd tr 0xC504 0
      (toLe 8 d.evr.winStart ++ toLe 8 (d.time - d.evr.winStart) ++
        (List.range 64).flatMap fun i => toLe 8 (sat 64 (tget d.evr.bins (64 * byte p 0 + i)))) 0 false d, q⟩) ∧
  (∀ (tr : Transport) (p : List Byte) (d : Dev) (q : List Instr), d.takes mAll tr → p.length = 2 → 16 ≤ byte p 0 → byte p 0 < 24 →
    byte p 1 < 2 → exec (.readHistogram tr p) ⟨d, q⟩ = .next ⟨cmdEnd tr 0xC504 0
      (toLe 8 (if byte p 1 = 1 then d.evr.lastStart else d.evr.winStart) ++
        toLe 8 (if byte p 1 = 1 then d.evr.lastLen else d.time - d.evr.winStart) ++
        toLe 8 (tget (if byte p 1 = 1 then d.evr.extLast else d.evr.ext) (byte p 0 - 16))) 0 false d, q⟩)

/-- Host requests enter their way (R69, R87, R253, R261): a local read that misses the frond cache, of a frond with no cushion
slot, awaits its map line with what the probe looked up; a local write that misses it does the same with its data, and arrives
outside the envelope's premise when every credit outstanding is in use; MEMCLNEVCT with MetaValue Invalid drops the line's
snoop-filter entry and completes; a read that no decoder maps is answered with poison, counted in HST_CNT_4. -/
def Obligations.HostRequestsEnter : Prop :=
  (∀ (d : Dev) (q : List Instr) (tag addr n a : Nat) (mv : Meta) (fx : ReqFx) (lat : Sys2Proof.Lat) (x : Dec),
    d.hst.up = true → d.pwr.dumping = false → d.pwr.stopping = false → fx.ideBad = false → (tget d.hst.ide 0).insecure = false →
    d.pwr.mode = .service → decFind d addr = some (n, x) → x.bi = false → fx.dirBad = false → fx.wayBad = false →
    a = decWinBase d n + (addr - x.base) → addrIndex a = d.srn.index → addrFrond a < d.map.limit →
    setFind (tget d.map.cache (addrFrond a % 65536)) (addrFrond a / 65536) = none → slotFind d (addrFrond a) = none →
    lineHeld d (addrFrond a) = false → (mapGet d (addrFrond a)).form ≠ .bad →
    refreshing d (mapChan (mapLine (addrFrond a))).1 = false →
    exec (.cxlMemRead tag addr mv fx lat) ⟨d, q⟩ = .next ⟨dramGrant 0 1 { d with
      rp.reqs := d.rp.reqs ++ [{ id := d.rp.nextId, org := .host tag, frond := addrFrond a, line := addrLine a,
                                 stage := .mapRead, entry := mapGet d (addrFrond a), slice := d.time / 100, subst := fx.substBad,
                                 staged := (tget d.rp.stage (addrFrond a)).getLsbD (addrLine a) }]
      rp.nextId := d.rp.nextId + 1
      map.cnt := bump d.map.cnt 1 }, q⟩) ∧
  (∀ (d : Dev) (q : List Instr) (tag addr n a : Nat) (mv : Meta) (data : Line) (be : BitVec 64) (poison : Bool) (fx : ReqFx)
      (lat : Sys2Proof.Lat) (x : Dec),
    d.hst.up = true → d.pwr.dumping = false → d.pwr.stopping = false → fx.ideBad = false → (tget d.hst.ide 0).insecure = false →
    d.pwr.mode = .service → decFind d addr = some (n, x) → x.bi = false → fx.dirBad = false → fx.wayBad = false →
    a = decWinBase d n + (addr - x.base) → addrIndex a = d.srn.index → addrFrond a < d.map.limit →
    setFind (tget d.map.cache (addrFrond a % 65536)) (addrFrond a / 65536) = none →
    lineHeld d (addrFrond a) = false → (mapGet d (addrFrond a)).form ≠ .bad →
    refreshing d (mapChan (mapLine (addrFrond a))).1 = false →
    exec (.cxlMemWrite tag addr mv data be poison fx lat) ⟨d, q⟩ = .next ⟨dramGrant 0 1 { d with
      rp.reqs := d.rp.reqs ++ [{ id := d.rp.nextId, org := .host tag, frond := addrFrond a, line := addrLine a,
                                 wr := some ⟨data, be, poison⟩, stage := .mapRead, entry := mapGet d (addrFrond a),
                                 slice := d.time / 100, subst := fx.substBad,
                                 staged := (tget d.rp.stage (addrFrond a)).getLsbD (addrLine a) }]
      rp.nextId := d.rp.nextId + 1
      ldg.noCredit := d.ldg.noCredit || decide (d.csh.credHost ≤ hostWrites d)
      map.cnt := bump d.map.cnt 1 }, q⟩) ∧
  (∀ (d : Dev) (q : List Instr) (tag addr n a w : Nat) (st : SfSt) (x : Dec), d.hst.up = true → d.pwr.dumping = false →
    d.pwr.stopping = false → (tget d.hst.ide 0).insecure = false → d.pwr.mode = .service → decFind d addr = some (n, x) →
    x.bi = true → a = decWinBase d n + (addr - x.base) → sfLook d a = some (w, st) → tag < 65536 →
    exec (.memclnevct tag addr .i false) ⟨d, q⟩ = .next ⟨{ d with
      hst.sf := tmod d.hst.sf (sfSet a) fun s => { s with ways := tset s.ways w none }
      out := .ndr tag d.ldg.devload :: d.out }, q⟩) ∧
  (∀ (d : Dev) (q : List Instr) (tag addr : Nat) (mv : Meta) (fx : ReqFx) (lat : Sys2Proof.Lat), d.hst.up = true →
    d.pwr.dumping = false → d.pwr.stopping = false → fx.ideBad = false → (tget d.hst.ide 0).insecure = false →
    d.pwr.mode = .service → decFind d addr = none → tag < 65536 → d.hst.refusedSec = d.time / 100000000 + 1 →
    exec (.cxlMemRead tag addr mv fx lat) ⟨d, q⟩ = .next ⟨{ d with
      hst.cnt := bump d.hst.cnt 4
      out := .data tag 0 true d.ldg.devload :: d.out }, q⟩)

/-- Map lines (R66, R81): a clean read of a request with no older probe of its frond before it fills the frond's way and the
request proceeds; a read whose own entry fails holds the request with cause 3 and starts the line's sequence; a clean refetch
releases the line with record 0x3020; a failed one is counted and starts a recompute while fewer than four run. -/
def Obligations.MapLineSequence : Prop :=
  (∀ (d : Dev) (q : List Instr) (id : Nat) (lat : Sys2Proof.Lat) (r : Req), reqGet d id = some r → r.stage = .mapRead →
    probeBehind d r = false → mapFail d (mapLine r.frond) 0 = 0 → lineHeld d r.frond = false →
    exec (.mapLineReadDone id 0 lat) ⟨d, q⟩ = .next ⟨proceed r lat { d with
      map.cache := tmod d.map.cache (r.frond % 65536) fun s => setPut s (setVictim s) (r.frond / 65536) (mapGet d r.frond) }, q⟩) ∧
  (∀ (d : Dev) (q : List Instr) (id : Nat) (bad : BitVec 64) (lat : Sys2Proof.Lat) (r : Req), reqGet d id = some r →
    r.stage = .mapRead → probeBehind d r = false → mapFail d (mapLine r.frond) bad &&& entMask r.frond ≠ 0 →
    exec (.mapLineReadDone id bad lat) ⟨d, q⟩ = .next ⟨reqPut { r with stage := .mapWait, causes := addCause 3 r.causes }
      (lineErr (mapLine r.frond) (mapFail d (mapLine r.frond) bad) d), q⟩) ∧
  (∀ (d : Dev) (q : List Instr) (m : Nat) (mask : BitVec 64), tget d.map.err m = some (.refetch mask) → mapFail d m 0 = 0 →
    exec (.mapLineRefetchDone m 0) ⟨d, q⟩ = .next ⟨lineRelease m (post 0x3020 1 m (mask.toNat % 2 ^ 32) (mask.toNat / 2 ^ 32) 0
      { dramGrant 0 1 d with map.cnt := bump d.map.cnt 4 }), q⟩) ∧
  (∀ (d : Dev) (q : List Instr) (m : Nat) (mask bad : BitVec 64), tget d.map.err m = some (.refetch mask) → bad ≠ 0 →
    recomputes d < 4 →
    exec (.mapLineRefetchDone m bad) ⟨d, q⟩ = .next ⟨{ dramGrant 0 1 d with
      map.cnt := bump d.map.cnt 3
      map.err := tset d.map.err m (some .recompute) }, q⟩)

/-- A recompute of a map line from the latest image (R81): each of its fronds has the entry of the image as the journal
changes it, with C and S of the directory; the line leaves its error sequence; and every other frond's entry stands. -/
def Obligations.MapLineRecomputed : Prop :=
  ∀ (d : Dev) (q : List Instr) (m us : Nat) (olderOk : Bool), twf d.map.ent = true →
    tget d.map.err m = some .recompute → ((tset d.map.err m none).find? fun x => decide (x.2 = some LineErr.waiting)) = none →
    ∃ t, exec (.mapLineRecomputeDone m true olderOk us) ⟨d, q⟩ = .next ⟨t, q⟩ ∧
      (∀ f ∈ lineFronds m, mapGet t f = withFlags d f (entryFrom (imgLatest d) (journal d) f)) ∧
      (∀ f, f ∉ lineFronds m → mapGet t f = mapGet d f) ∧
      t.map.err = tset d.map.err m none ∧ t.med = d.med ∧ t.sec = d.sec ∧ t.out = d.out

/-- Cushion reads (R101, R103): a first read of a full line with no failing byte answers with its deciphered bytes; failed
bytes send the request to the other mirror with cause 0x1; a mirror whose failures lie elsewhere gives the line, counted in
MED_RD_CNT_12 and recorded (0x4040). -/
def Obligations.CushionReads : Prop :=
  (∀ (d : Dev) (q : List Instr) (id : Nat) (lat : Sys2Proof.Lat) (r : Req), reqGet d id = some r → r.cu = 1 →
    r.snap.st = .full → r.stage = .cushion → chkFail r.snap.data r.snap.chk = 0 →
    exec (.cushionReadDone id 0 false lat) ⟨d, q⟩ =
      .next ⟨finishRead { r with cu := 0 } (r.snap.data ^^^ cushStream d r.gen r.frond r.line) false lat d, q⟩) ∧
  (∀ (d : Dev) (q : List Instr) (id : Nat) (bad : BitVec 64) (lat : Sys2Proof.Lat) (r : Req), reqGet d id = some r → r.cu = 1 →
    r.snap.st = .full → r.stage = .cushion → bad ||| chkFail r.snap.data r.snap.chk ≠ 0 →
    exec (.cushionReadDone id bad false lat) ⟨d, q⟩ = .next ⟨reqPut { r with
        cu := 2, cuBad := bad ||| chkFail r.snap.data r.snap.chk, mirror := 1 - r.mirror, causes := addCause 1 r.causes,
        stage := .mirror } (dramGrant r.grantCls 1 d), q⟩) ∧
  (∀ (d : Dev) (q : List Instr) (id : Nat) (bad : BitVec 64) (lat : Sys2Proof.Lat) (r : Req), reqGet d id = some r → r.cu = 2 →
    r.cuBad &&& (bad ||| chkFail r.snap.data r.snap.chk) = 0 → r.stage = .mirror →
    exec (.cushionMirrorRefetchDone id bad lat) ⟨d, q⟩ =
      .next ⟨finishRead { r with cu := 0 } (r.snap.data ^^^ cushStream d r.gen r.frond r.line) false lat
        (post 0x4040 1 r.frond r.packed (r.cuBad.toNat % 2 ^ 32) (r.cuBad.toNat / 2 ^ 32)
          { d with rp.cnt := bump d.rp.cnt 12 }), q⟩)

/-- Media reads (R94, R106–R108, R114): a plain read whose parts and line checks pass delivers its line; one with a failed part
and its plane free goes to its refetch with cause 0x1; a plain refetch that passes delivers the line with record 0x5040; a decoded
recompute delivers it with record 0x5041 and lists the frond for rescue; a first pass that cannot decode, with positions of dies
that have not failed unread, waits for its second; a second pass whose positions are free decodes in the same way, and one that
cannot decode poisons the line. -/
def Obligations.MediaReads : Prop :=
  (∀ (d : Dev) (q : List Instr) (id : Nat) (bad : BitVec 20) (lat : Sys2Proof.Lat) (r : Req), reqGet d id = some r →
    r.stage = .media → r.around = false → bad &&& r.src = 0 → lineOk d r false = true →
    exec (.mediaReadDone id bad false lat) ⟨d, q⟩ = .next ⟨mediaPart r (mediaLine r d) lat d, q⟩) ∧
  (∀ (d : Dev) (q : List Instr) (id : Nat) (bad : BitVec 20) (lineBad : Bool) (lat : Sys2Proof.Lat) (r : Req),
    reqGet d id = some r → r.stage = .media → r.around = false → bad &&& r.src ≠ 0 →
    (busyMask d (slotLane r.entry.slot)).getLsbD (posOf (slotRow r.entry.slot) (lineSect r.line)) = false →
    exec (.mediaReadDone id bad lineBad lat) ⟨d, q⟩ = .next ⟨reqPut { r with
        stage := .refetch, failed := bad &&& r.src, causes := addCause 1 r.causes, next := r.src }
      (mediaGrant r.grantCls (popBits r.src 20) { d with rp.cnt := bump d.rp.cnt 6 }), q⟩) ∧
  (∀ (d t : Dev) (q : List Instr) (id : Nat) (bad : BitVec 20) (lat : Sys2Proof.Lat) (r : Req), reqGet d id = some r →
    r.stage = .refetch → r.around = false → bad &&& r.src = 0 → lineOk d r false = true →
    t = post 0x5040 1 r.frond r.packed (r.failed.toNat + refetchStep r d * 2 ^ 24) 0 (readLast r 1
      (overdueAdd r.entry.slot (if r.next = 0 then r.src else r.next) { d with rp.cnt := bump d.rp.cnt 7 })) →
    exec (.readRefetchDone id bad false lat) ⟨d, q⟩ =
      .next ⟨mediaPart { r with failed := 0 } (mediaLine { r with failed := 0 } t) lat t, q⟩) ∧
  (∀ (d t : Dev) (q : List Instr) (id : Nat) (bad : BitVec 20) (errs us : Nat) (lat : Sys2Proof.Lat) (r r' : Req),
    reqGet d id = some r → r.stage = .recompute → r' = { r with failed := badData r bad } →
    rsOk errs (popBits (~~~ r.src ||| badData r bad) 20) = true → lineOk d r' false = true →
    t = post 0x5041 2 r.frond r.packed (errs % 16 + popBits (~~~ r.src ||| badData r bad) 20 % 16 * 16 + 256) us
      (readLast r 2 (rescueAdd r.frond .recomputed { d with rp.cnt := bump d.rp.cnt 9 })) →
    exec (.readRecomputeDone id bad errs false us lat) ⟨d, q⟩ = .next ⟨mediaPart r' (mediaLine r' t) lat t, q⟩) ∧
  (∀ (d : Dev) (q : List Instr) (id : Nat) (bad : BitVec 20) (errs us : Nat) (lineBad : Bool) (lat : Sys2Proof.Lat) (r : Req),
    reqGet d id = some r → r.stage = .recompute → 4 < 2 * errs →
    r.src ||| deadMask d (slotLane r.entry.slot) ≠ BitVec.allOnes 20 →
    exec (.readRecomputeDone id bad errs lineBad us lat) ⟨d, q⟩ =
      .next ⟨reqPut (secondPlan { r with failed := badData r bad } d) d, q⟩) ∧
  (∀ (d t : Dev) (q : List Instr) (id : Nat) (bad : BitVec 20) (errs us : Nat) (lat : Sys2Proof.Lat) (r r' : Req),
    reqGet d id = some r → r.stage = .second → r.busyAt &&& busyMask d (slotLane r.entry.slot) = 0 →
    r' = { r with failed := badData r bad } →
    rsOk errs (popBits (~~~ r.src ||| badData r bad) 20) = true → lineOk d r' false = true →
    t = post 0x5041 2 r.frond r.packed (errs % 16 + popBits (~~~ r.src ||| badData r bad) 20 % 16 * 16 + 512) us
      (readLast r 2 (rescueAdd r.frond .recomputed { d with rp.cnt := bump d.rp.cnt 9 })) →
    exec (.recomputeSecondPass id bad errs false us lat) ⟨d, q⟩ = .next ⟨mediaPart r' (mediaLine r' t) lat t, q⟩) ∧
  (∀ (d : Dev) (q : List Instr) (id : Nat) (bad : BitVec 20) (errs us : Nat) (lineBad : Bool) (lat : Sys2Proof.Lat) (r r' : Req),
    reqGet d id = some r → r.stage = .second → r.busyAt &&& busyMask d (slotLane r.entry.slot) = 0 → 4 < 2 * errs →
    r' = { r with failed := badData r bad } →
    exec (.recomputeSecondPass id bad errs lineBad us lat) ⟨d, q⟩ =
      .next ⟨mediaPart r' (0, true) lat (poisonLine r' us d), q⟩)

/-- Credits, the DRAM queues and the refresh windows (R119, R133, R135, R276): a withheld host credit goes back, paced in Paced; a
withheld ring credit goes back in a CRD_RET of one credit to the member it is owed to; a queued line leaves its channel's queue;
the next window of 65 ticks opens. -/
def Obligations.CreditsAndDram : Prop :=
  (∀ (d t : Dev) (q : List Instr), t = admitEval d → creditOk t = true → 0 < t.csh.owedHost →
    exec (.creditReturn .host) ⟨d, q⟩ = .next ⟨{ t with
      csh.pace := if admitState t = 2 then t.csh.pace - 1 else t.csh.pace
      csh.owedHost := t.csh.owedHost - 1
      csh.credHost := t.csh.credHost + 1 }, q⟩) ∧
  (∀ (d t : Dev) (q : List Instr) (k n : Nat), t = admitEval d → creditOk t = true → 0 < t.csh.owedW →
    (t.srn.owed.find? fun x => decide (x.1 % 2 = 0)) = some (k, n) →
    exec (.creditReturn .west) ⟨d, q⟩ = .next ⟨sendCell 0x05 (k / 2) 0 0 false 1 false [] { t with
      csh.pace := if admitState t = 2 then t.csh.pace - 1 else t.csh.pace
      csh.owedW := t.csh.owedW - 1
      csh.credW := t.csh.credW + 1
      srn.owed := tset t.srn.owed k (n - 1) }, q⟩) ∧
  (∀ (d t : Dev) (q : List Instr) (k n : Nat), t = admitEval d → creditOk t = true → 0 < t.csh.owedE →
    (t.srn.owed.find? fun x => decide (x.1 % 2 = 1)) = some (k, n) →
    exec (.creditReturn .east) ⟨d, q⟩ = .next ⟨sendCell 0x05 (k / 2) 0 0 true 1 false [] { t with
      csh.pace := if admitState t = 2 then t.csh.pace - 1 else t.csh.pace
      csh.owedE := t.csh.owedE - 1
      csh.credE := t.csh.credE + 1
      srn.owed := tset t.srn.owed k (n - 1) }, q⟩) ∧
  (∀ (d : Dev) (q : List Instr) (ch : Nat), exec (.dramWriteQueueIssue ch) ⟨d, q⟩ =
    .next ⟨admitEval { d with csh.wq := tset d.csh.wq ch (tget d.csh.wq ch - 1) }, q⟩) ∧
  (∀ (d : Dev) (q : List Instr), exec .dramRefreshWindow ⟨d, q⟩ =
    .next ⟨{ d with time := (d.time / 65 + 1) * 65, csh.rfWindow := (d.time / 65 + 1) % 3 }, q⟩)

/-- SLICE_BOUNDARY: TIME stands at the next multiple of 100, the running counts become those of the last slice and start from
zero, no late write is left to judge, and budgets, envelope and thresholds written since take effect (R36, R55–R59). -/
def Obligations.SliceBoundary : Prop :=
  ∀ (d : Dev) (q : List Instr), ∃ t, exec .sliceBoundary ⟨d, q⟩ = .next ⟨t, q⟩ ∧
    t.time = (d.time / 100 + 1) * 100 ∧ t.ldg.sliceB0 = d.ldg.runB0 ∧ t.ldg.sliceW = d.ldg.runW ∧ t.ldg.sliceF = d.ldg.runF ∧
    t.ldg.runB0 = 0 ∧ t.ldg.runW = 0 ∧ t.ldg.runF = 0 ∧ t.ldg.noCredit = false ∧
    t.ldg.budNow = d.ldg.bud ∧ t.ldg.envNow = d.ldg.env ∧ t.ldg.late = [] ∧
    t.ldg.uOptNow = d.ldg.uOpt ∧ t.ldg.uModNow = d.ldg.uMod ∧ t.ldg.oOptNow = d.ldg.oOpt ∧ t.ldg.oModNow = d.ldg.oMod ∧
    t.map = d.map ∧ t.med = d.med ∧ t.sec = d.sec ∧ t.csh.dir = d.csh.dir ∧ t.rp = d.rp ∧ t.pst = d.pst

/-- A cell at its destination (R273, R275, R278), on a member of a ring that does not dump: its receive space is free again; a cell
whose header checks, whose ICV holds under the current epoch or the one before it and whose SEQ is above the highest accepted is
accepted, and the window follows it; a cell of a plain type is accepted on its header alone; one that fails its header CRC is
discarded (SRN_CNT_5); one that fails its ICV is discarded (SRN_CNT_6), recorded first in each second; one whose SEQ was accepted
is discarded (SRN_CNT_7). -/
def Obligations.CellAcceptance : Prop :=
  (∀ (c : Cell) (ty : Nat) (d : Dev), d.pwr.mode.ringOn = true → d.isM = false → d.pwr.dumping = false → c.hdrOk = true →
    c.plen ≠ 3 → c.icvOk = true → (c.epoch = d.srn.epoch ∨ d.srn.prevEpoch = some c.epoch) →
    (tget d.srn.seqs (c.src * 4 + c.epoch)).high < c.seq → c.seq ∉ (tget d.srn.seqs (c.src * 4 + c.epoch)).seen →
    acceptCell c ty true d = (true, { linkFree (arriveSide c) (cellVc ty) (plenUnits c.plen) d with
      srn.seqs := tset d.srn.seqs (c.src * 4 + c.epoch) {
        high := c.seq
        seen := (c.seq :: (tget d.srn.seqs (c.src * 4 + c.epoch)).seen).filter fun q => decide (c.seq ≤ q + 1024) }
      srn.cnt := bump d.srn.cnt 1 })) ∧
  (∀ (c : Cell) (ty : Nat) (d : Dev), d.pwr.mode.ringOn = true → d.isM = false → d.pwr.dumping = false → c.hdrOk = true →
    c.plen ≠ 3 → acceptCell c ty false d =
      (true, { linkFree (arriveSide c) (cellVc ty) (plenUnits c.plen) d with srn.cnt := bump d.srn.cnt 1 })) ∧
  (∀ (c : Cell) (ty : Nat) (ci : Bool) (d : Dev), d.pwr.mode.ringOn = true → d.isM = false → d.pwr.dumping = false →
    c.hdrOk = false → acceptCell c ty ci d =
      (false, { linkFree (arriveSide c) (cellVc ty) (plenUnits c.plen) d with srn.cnt := bump d.srn.cnt 5 })) ∧
  (∀ (c : Cell) (ty : Nat) (d : Dev), d.pwr.mode.ringOn = true → d.isM = false → d.pwr.dumping = false → c.hdrOk = true →
    c.plen ≠ 3 → c.icvOk = false → d.srn.authSec ≠ d.time / 100000000 + 1 →
    acceptCell c ty true d = (false, post 0x200B 2 c.src ty c.seq 1 { linkFree (arriveSide c) (cellVc ty) (plenUnits c.plen) d with
      srn.cnt := bump d.srn.cnt 6
      srn.authSec := d.time / 100000000 + 1 })) ∧
  (∀ (c : Cell) (ty : Nat) (d : Dev), d.pwr.mode.ringOn = true → d.isM = false → d.pwr.dumping = false → c.hdrOk = true →
    c.plen ≠ 3 → c.icvOk = true → (c.epoch = d.srn.epoch ∨ d.srn.prevEpoch = some c.epoch) →
    c.seq ∈ (tget d.srn.seqs (c.src * 4 + c.epoch)).seen →
    acceptCell c ty true d =
      (false, { linkFree (arriveSide c) (cellVc ty) (plenUnits c.plen) d with srn.cnt := bump d.srn.cnt 7 }))

/-- Cells at the owner (R274, R276, R277, R290): an accepted read request on a member in Service, for a frond of the map that is in
neither cache nor cushion, enters the probe, and an accepted write request of a TAG not applied does the same with its data; a node
out of the modes that serve answers a read with poison; a write whose TAG was applied is acknowledged again without effect,
counted; a node that dumps answers a write by NAK; an expired TAG is forgotten. -/
def Obligations.OwnerCells : Prop :=
  (∀ (c : Cell) (fx : ReqFx) (lat : Sys2Proof.Lat) (d e : Dev) (q : List Instr), acceptCell c 0x01 true d = (true, e) →
    e.pwr.dumping = false → e.pwr.stopping = false → isMember e = true → e.pwr.mode = .service → fx.dirBad = false →
    fx.wayBad = false → c.line / 64 < e.map.limit → setFind (tget e.map.cache (c.line / 64 % 65536)) (c.line / 64 / 65536) = none →
    slotFind e (c.line / 64) = none → lineHeld e (c.line / 64) = false → (mapGet e (c.line / 64)).form ≠ .bad →
    refreshing e (mapChan (mapLine (c.line / 64))).1 = false →
    exec (.rdReq c fx lat) ⟨d, q⟩ = .next ⟨dramGrant 0 1 { e with
      rp.reqs := e.rp.reqs ++ [{ id := e.rp.nextId, org := .ring c.src c.tag c.ringB, frond := c.line / 64,
                                 line := c.line % 64, stage := .mapRead, entry := mapGet e (c.line / 64), slice := e.time / 100,
                                 subst := fx.substBad, staged := (tget e.rp.stage (c.line / 64)).getLsbD (c.line % 64) }]
      rp.nextId := e.rp.nextId + 1
      map.cnt := bump e.map.cnt 1 }, q⟩) ∧
  (∀ (c : Cell) (fx : ReqFx) (lat : Sys2Proof.Lat) (d e : Dev) (q : List Instr), acceptCell c 0x01 true d = (true, e) →
    e.pwr.dumping = false → e.pwr.stopping = false → isMember e = true → e.pwr.mode.serves = false →
    exec (.rdReq c fx lat) ⟨d, q⟩ = .next ⟨sendCell 0x02 c.src c.tag c.line (ringTo e c.src) 0 true [0] e, q⟩) ∧
  (∀ (c : Cell) (data : Line) (be : BitVec 64) (fx : ReqFx) (lat : Sys2Proof.Lat) (d e : Dev) (q : List Instr),
    acceptCell c 0x03 true d = (true, e) → e.pwr.dumping = false → e.pwr.stopping = false → isMember e = true →
    e.pwr.mode = .service → (e.srn.applied.any fun x => x.1 = c.src * 65536 + c.tag) = false → fx.dirBad = false →
    fx.wayBad = false → c.line / 64 < e.map.limit → setFind (tget e.map.cache (c.line / 64 % 65536)) (c.line / 64 / 65536) = none →
    lineHeld e (c.line / 64) = false → (mapGet e (c.line / 64)).form ≠ .bad →
    refreshing e (mapChan (mapLine (c.line / 64))).1 = false →
    exec (.wrReq c data be fx lat) ⟨d, q⟩ = .next ⟨dramGrant 0 1 { e with
      rp.reqs := e.rp.reqs ++ [{ id := e.rp.nextId, org := .ring c.src c.tag c.ringB, frond := c.line / 64,
                                 line := c.line % 64, wr := some ⟨data, be, c.poison⟩, stage := .mapRead,
                                 entry := mapGet e (c.line / 64), slice := e.time / 100, subst := fx.substBad,
                                 staged := (tget e.rp.stage (c.line / 64)).getLsbD (c.line % 64) }]
      rp.nextId := e.rp.nextId + 1
      ldg.noCredit := e.ldg.noCredit || decide ((if c.ringB then e.csh.credE else e.csh.credW) ≤ ringWrites c.ringB e)
      map.cnt := bump e.map.cnt 1 }, q⟩) ∧
  (∀ (c : Cell) (data : Line) (be : BitVec 64) (fx : ReqFx) (lat : Sys2Proof.Lat) (d e : Dev) (q : List Instr),
    acceptCell c 0x03 true d = (true, e) → e.pwr.dumping = false → e.pwr.stopping = false → isMember e = true →
    e.pwr.mode.serves = true → (e.srn.applied.any fun x => x.1 = c.src * 65536 + c.tag) = true →
    exec (.wrReq c data be fx lat) ⟨d, q⟩ = .next ⟨sendCell 0x04 c.src c.tag c.line (ringTo e c.src) 1 false []
      { e with srn.cnt := bump e.srn.cnt 10 }, q⟩) ∧
  (∀ (c : Cell) (data : Line) (be : BitVec 64) (fx : ReqFx) (lat : Sys2Proof.Lat) (d e : Dev) (q : List Instr),
    acceptCell c 0x03 true d = (true, e) → e.pwr.dumping = true →
    exec (.wrReq c data be fx lat) ⟨d, q⟩ = .next ⟨sendCell 0x06 c.src c.tag c.line (ringTo e c.src) 1 false [] e, q⟩) ∧
  (∀ (src tag : Nat) (d : Dev) (q : List Instr), exec (.writeTagExpiry src tag) ⟨d, q⟩ =
    .next ⟨{ d with srn.applied := d.srn.applied.filter fun x => x.1 ≠ src * 65536 + tag }, q⟩)

/-- Cells at the requester (R60, R112, R276, R277, R291): an accepted RD_RSP answers the host with its data, or with zero bytes
and poison, under the higher DevLoad, and ends the request; a WR_ACK that returns one credit on ring A of a write's only attempt
restores that credit and completes the write to the host under the higher DevLoad; CRD_RET restores credits of its ring, at most
16, and the writes that waited for them are sent; a NAK of a memory request holds it. A response to a TAG without a request changes
nothing more. -/
def Obligations.RequesterCells : Prop :=
  (∀ (c : Cell) (data : Line) (lat : Sys2Proof.Lat) (d e : Dev) (q : List Instr) (r : Remote), acceptCell c 0x02 true d = (true, e) →
    remoteGet e c.tag = some r → r.wr = none → r.hostTag < 65536 →
    exec (.rdRsp c data lat) ⟨d, q⟩ = .next ⟨account 2 lat r.causes r.addr (hopsTo e r.owner) r.slice { e with
      srn.remotes := e.srn.remotes.filter (·.tag ≠ c.tag)
      hst.cnt := bump e.hst.cnt 0
      out := .data r.hostTag (if c.poison then 0 else data) c.poison (max e.ldg.devload c.devload) :: e.out }, q⟩) ∧
  (∀ (c : Cell) (data : Line) (lat : Sys2Proof.Lat) (d e : Dev) (q : List Instr), acceptCell c 0x02 true d = (true, e) →
    remoteGet e c.tag = none → exec (.rdRsp c data lat) ⟨d, q⟩ = .next ⟨e, q⟩) ∧
  (∀ (c : Cell) (lat : Sys2Proof.Lat) (d e f : Dev) (q : List Instr) (r : Remote), acceptCell c 0x04 true d = (true, e) →
    remoteGet e c.tag = some r → r.wr.isSome = true → r.usedA = 1 → r.usedB = 0 → c.status % 256 = 1 → r.waited = false →
    f = { e with
      srn.creds := tmod e.srn.creds r.owner fun x => { a := min 16 (x.a + 1), b := min 16 (x.b + 0) }
      srn.remotes := e.srn.remotes.filter (·.tag ≠ c.tag)
      hst.cnt := bump e.hst.cnt 1 } →
    exec (.wrAck c lat) ⟨d, q⟩ = .next ⟨snpAnswer (remoteRetryAll (account 3 lat r.causes r.addr (hopsTo e r.owner) r.slice
      (toHost r.hostTag (.ndr r.hostTag (max e.ldg.devload c.devload)) (hostCredit r.hostTag (admitEval f))))), q⟩) ∧
  (∀ (c : Cell) (d e : Dev) (q : List Instr), acceptCell c 0x05 true d = (true, e) → c.ringB = false →
    exec (.crdRet c) ⟨d, q⟩ = .next ⟨remoteRetryAll { e with
      srn.creds := tmod e.srn.creds c.src fun x => { a := min 16 (x.a + c.status), b := min 16 (x.b + 0) } }, q⟩) ∧
  (∀ (c : Cell) (d e : Dev) (q : List Instr), acceptCell c 0x05 true d = (true, e) → c.ringB = true →
    exec (.crdRet c) ⟨d, q⟩ = .next ⟨remoteRetryAll { e with
      srn.creds := tmod e.srn.creds c.src fun x => { a := min 16 (x.a + 0), b := min 16 (x.b + c.status) } }, q⟩) ∧
  (∀ (c : Cell) (d e : Dev) (q : List Instr) (r : Remote), acceptCell c 0x06 true d = (true, e) → remoteGet e c.tag = some r →
    r.owner = c.src → lineNo (addrFrond r.addr) (addrLine r.addr) % 2 ^ 38 = c.line →
    exec (.nak c) ⟨d, q⟩ = .next ⟨{ e with
      srn.remotes := updWhere e.srn.remotes (·.tag = r.tag) fun _ => { r with holding := true, sent := false } }, q⟩)

/-- The ring around a node (R271–R273, R277, R291): a cell for another member waits at the port of its ring with TTL less one,
turned where that port is wrapped, and its receive space is free again; one whose TTL is spent is dropped and counted; a retry
after the time sends a read again under the same TAG, counted, with cause 0x7; any retry holds the request when its attempts are
used up; a held read whose wait ends is answered with poison, counted in SRN_CNT_11 and recorded. -/
def Obligations.RequesterHolds : Prop :=
  (∀ (ty : Nat) (c : Cell) (d : Dev) (q : List Instr), d.pwr.mode.ringOn = true → d.isM = false →
    (if c.ringB ≠ c.fold then d.srn.bypassB else d.srn.bypassA) = false → c.hdrOk = true → cellTypeOk ty = true → c.plen ≠ 3 →
    1 < c.ttl →
    exec (.cellForward ty c) ⟨d, q⟩ = .next ⟨queueCell (c.ringB ≠ c.fold) {
        transit := true, cls := cellCls ty, vc := cellVc ty, units := plenUnits c.plen, fold := c.fold,
        body := .transit ty { c with ttl := c.ttl - 1 } }
      { linkFree (arriveSide c) (cellVc ty) (plenUnits c.plen) d with srn.cnt := bump d.srn.cnt 2 }, q⟩) ∧
  (∀ (ty : Nat) (c : Cell) (d : Dev) (q : List Instr), d.pwr.mode.ringOn = true → d.isM = false →
    (if c.ringB ≠ c.fold then d.srn.bypassB else d.srn.bypassA) = false → c.hdrOk = true → cellTypeOk ty = true → c.plen ≠ 3 →
    c.ttl ≤ 1 →
    exec (.cellForward ty c) ⟨d, q⟩ =
      .next ⟨{ linkFree (arriveSide c) (cellVc ty) (plenUnits c.plen) d with srn.cnt := bump d.srn.cnt 8 }, q⟩) ∧
  (∀ (tag h : Nat) (d : Dev) (q : List Instr) (r : Remote) (b : Bool), remoteGet d tag = some r → r.sent = true →
    r.attempts < r.limit → r.wr = none → (tget d.srn.members r.owner).st = .live → pathTo d r.owner = some (b, h) →
    exec (.requestRetry 0x01 tag false) ⟨d, q⟩ = .next ⟨remotePut { r with
        attempts := r.attempts + 1, causes := addCause 7 r.causes, holding := false, route := some (b, h) }
      (sendCell 0x01 r.owner r.tag (lineNo (addrFrond r.addr) (addrLine r.addr)) b 0 false []
        { d with srn.cnt := bump d.srn.cnt 9 }), q⟩) ∧
  (∀ (tag : Nat) (topo : Bool) (d : Dev) (q : List Instr) (r : Remote), remoteGet d tag = some r → r.sent = true →
    r.limit ≤ r.attempts →
    exec (.requestRetry 0x01 tag topo) ⟨d, q⟩ = .next ⟨{ d with
      srn.remotes := updWhere d.srn.remotes (·.tag = r.tag) fun _ => { r with holding := true, sent := false } }, q⟩) ∧
  (∀ (tag : Nat) (lat : Sys2Proof.Lat) (d : Dev) (q : List Instr) (r : Remote), remoteGet d tag = some r → r.holding = true →
    r.wr = none →
    exec (.ownerUnreachable tag lat) ⟨d, q⟩ = .next ⟨snpAnswer (account 2 lat r.causes r.addr 0 r.slice (poisonHost r.hostTag
      (post 0x200C 3 (r.addr / 65536) (r.addr % 65536 + 2 * 65536) 0 r.holdMs { d with
        srn.remotes := d.srn.remotes.filter (·.tag ≠ tag)
        srn.cnt := bump d.srn.cnt 11 }))), q⟩)

/-- Links (R266, R288, R290): an uncorrectable codeword below the sixteenth of its millisecond and not the first of its second is
counted, with the codewords corrected; a loss of lock on a port with a neighbour, in no splice, makes the link dead: the port
wraps and turns its waiting cells, cells and a frame announce it, record 0x2005; whatever the node's state, a loss of lock leaves
requests, map, media, saves and mode as they were; a retrain puts an enabled port in training; a link that trains in no splice is up,
and where its port was wrapped to the same neighbour the fold ends, record 0x2006; a failed training leaves a wrapped port down; a
plug's presence is seen. -/
def Obligations.LinkEvents : Prop :=
  (∀ (side : Side) (n cor : Nat) (d : Dev) (q : List Instr), d.isM = false → d.pwr.mode.ringOn = true →
    n = (if (portOf d side).fecMs = msOf d.time + 1 then (portOf d side).fec + 1 else 1) → n < 16 → (portOf d side).fecMs ≠ 0 →
    ((portOf d side).fecMs - 1) / 1000 = msOf d.time / 1000 →
    exec (.fecUncorrectable side cor) ⟨d, q⟩ = .next ⟨portMod side (fun p => { p with fec := n, fecMs := msOf d.time + 1 })
      { d with srn.cnt := bump (bump d.srn.cnt 4) 3 cor }, q⟩) ∧
  (∀ (side : Side) (peer : Nat) (d f e : Dev) (q : List Instr), d.isM = false → d.pwr.mode.ringOn = true →
    (portOf d side).peer = some peer → d.srn.splice = none →
    f = ringUpdate (deadAdd d.srn.index peer
      (portTurn side (portMod side (fun p => { p with st := .down, wrapped := true, fec := 0 }) d))) →
    e = topoChange (cellAll 0x18 0 [f.srn.index, peer] f) →
    exec (.linkLossOfLock side) ⟨d, q⟩ = .next ⟨post 0x2005 2 (sideCode side) peer e.srn.ring.code 0
      (frame 0x01 [e.srn.index, peer, sideCode side] { e with srn.cnt := bump e.srn.cnt 13 }), q⟩) ∧
  (∀ (side : Side) (d : Dev) (q : List Instr), ∃ t, exec (.linkLossOfLock side) ⟨d, q⟩ = .next ⟨t, q⟩ ∧ t.rp = d.rp ∧ t.map = d.map ∧
    t.med = d.med ∧ t.stw = d.stw ∧ t.csh.dir = d.csh.dir ∧ t.sec.slots = d.sec.slots ∧ t.pst = d.pst ∧ t.bfl = d.bfl ∧
    t.pwr = d.pwr ∧ t.mbx = d.mbx ∧ t.cph = d.cph ∧ t.ldg = d.ldg ∧ t.time = d.time) ∧
  (∀ (side : Side) (d : Dev) (q : List Instr), d.isM = false → d.pwr.mode.ringOn = true → (portOf d side).en = true →
    (portOf d side).st ≠ .up →
    exec (.linkRetrainAttempt side) ⟨d, q⟩ = .next ⟨portMod side (fun p => { p with st := .training, retrains := p.retrains + 1 }) d, q⟩) ∧
  (∀ (side : Side) (peer ms : Nat) (d : Dev) (q : List Instr), d.isM = false → d.pwr.mode.ringOn = true → (portOf d side).en = true →
    (portOf d side).wrapped = false → d.srn.splice = none →
    exec (.linkTrained side peer ms) ⟨d, q⟩ = .next ⟨portMod side (fun p => { p with st := .up, peer := some peer, wrapped := false }) d, q⟩) ∧
  (∀ (side : Side) (peer ms : Nat) (d f e : Dev) (q : List Instr), d.isM = false → d.pwr.mode.ringOn = true →
    (portOf d side).en = true → (portOf d side).wrapped = true → (portOf d side).peer = some peer → d.srn.splice = none →
    f = ringUpdate (deadDrop d.srn.index peer (deadDrop d.srn.index peer
      (portMod side (fun p => { p with st := .up, peer := some peer, wrapped := false }) d))) →
    e = topoChange (credBack d (cellAll 0x18 1 [f.srn.index, peer] f)) →
    exec (.linkTrained side peer ms) ⟨d, q⟩ =
      .next ⟨post 0x2006 0 (sideCode side) peer e.srn.ring.code ms (frame 0x02 [e.srn.index, peer] e), q⟩) ∧
  (∀ (side : Side) (d : Dev) (q : List Instr), (portOf d side).wrapped = true →
    exec (.linkTrainingFailed side) ⟨d, q⟩ = .next ⟨portMod side (fun p => { p with st := .down }) d, q⟩) ∧
  (∀ (side : Side) (d : Dev) (q : List Instr), d.isM = false →
    exec (.plugPresence side true) ⟨d, q⟩ = .next ⟨portMod side (fun p => { p with plug := true }) d, q⟩)

/-- Topology (R274, R282, R287, R288, R290): an accepted TOPO of a wrap and the frame WRAP add the dead link, one of an unwrap and
the frame UNWRAP restore it with the credits toward the members it brings back, an accepted TOPO of a leave takes the member out,
and the routes follow; a WRAP of a link known to be dead changes nothing but the line; a LEAVE marks a Live member Leaving, and a
member then routes on ring B and sends its MARKs. -/
def Obligations.TopologyFrames : Prop :=
  (∀ (c : Cell) (a b : Nat) (d e : Dev) (q : List Instr), acceptCell c 0x18 true d = (true, e) → c.status = 0 → deadLink e a b = false →
    exec (.topo c a b) ⟨d, q⟩ = .next ⟨topoChange (ringUpdate { e with srn.dead := e.srn.dead ++ [(a, b)] }), q⟩) ∧
  (∀ (c : Cell) (a b : Nat) (d e : Dev) (q : List Instr), acceptCell c 0x18 true d = (true, e) → c.status = 1 →
    exec (.topo c a b) ⟨d, q⟩ = .next ⟨topoChange (credBack e (ringUpdate
      { e with srn.dead := e.srn.dead.filter fun x => !(x = (a, b) || x = (b, a)) })), q⟩) ∧
  (∀ (c : Cell) (a b : Nat) (d e : Dev) (q : List Instr), acceptCell c 0x18 true d = (true, e) → c.status = 2 →
    exec (.topo c a b) ⟨d, q⟩ = .next ⟨topoChange (ringUpdate (memberGone a 0 e)), q⟩) ∧
  (∀ (a b : Nat) (side : Side) (d e : Dev) (q : List Instr), e = lineSeen 0x01 d → e.pwr.mode.ringOn = true → e.isM = false →
    deadLink e a b = false →
    exec (.wrap a b side) ⟨d, q⟩ = .next ⟨topoChange (ringUpdate { e with srn.dead := e.srn.dead ++ [(a, b)] }), q⟩) ∧
  (∀ (a b : Nat) (side : Side) (d e : Dev) (q : List Instr), e = lineSeen 0x01 d → deadLink e a b = true →
    exec (.wrap a b side) ⟨d, q⟩ = .next ⟨e, q⟩) ∧
  (∀ (a b : Nat) (d e : Dev) (q : List Instr), e = lineSeen 0x02 d → e.pwr.mode.ringOn = true → e.isM = false → deadLink e a b = true →
    exec (.unwrap a b) ⟨d, q⟩ = .next ⟨topoChange (credBack e (ringUpdate
      { e with srn.dead := e.srn.dead.filter fun x => !(x = (a, b) || x = (b, a)) })), q⟩) ∧
  (∀ (i : Nat) (d e f : Dev) (q : List Instr), e = lineSeen 0x03 d → e.pwr.mode.ringOn = true → e.isM = false →
    f = { e with
      srn.members := tmod e.srn.members i fun m => if m.st = .live then { m with st := .leaving } else m
      srn.splice := some { index := i, leaving := true, startT := e.time } } →
    exec (.leave i) ⟨d, q⟩ = .next ⟨if isMember f then topoChange (marksA f) else f, q⟩)

/-- The group key (R279, R280): a key delivered to a member waits for its switch and is acknowledged to the holder; the last
acknowledgement makes the holder send the switch to all and take the epoch itself; the switch of the epoch that waits, in a cell and
over the rhizoid line, makes it current, keeps the former epoch acceptable, starts SEQ again and posts record 0x200A with its cause;
an erased former epoch is accepted no more; a command for a new epoch starts it at the holder, and at another member asks the
holder. -/
def Obligations.GroupKey : Prop :=
  (∀ (c : Cell) (ep k : Nat) (d e : Dev) (q : List Instr), acceptCell c 0x15 false d = (true, e) → isMember e = true →
    exec (.spdmCell c (.groupKey ep k)) ⟨d, q⟩ = .next ⟨cellTo 0x15 e.srn.holder 0 0 0 [2, e.srn.index]
      { e with srn.newKey := some (ep, k) }, q⟩) ∧
  (∀ (c : Cell) (m ep k : Nat) (d e : Dev) (q : List Instr), acceptCell c 0x15 false d = (true, e) → e.srn.newKey = some (ep, k) →
    e.srn.acks.filter (· ≠ m) = [] → holderOf e = e.srn.index →
    exec (.spdmCell c (.keyAck m)) ⟨d, q⟩ = .next ⟨epochSwitch ep k e.srn.keyCause
      (cellAll 0x15 0 [3, ep, e.srn.keyCause] { e with srn.acks := [] }), q⟩) ∧
  (∀ (c : Cell) (ep k cause : Nat) (d e : Dev) (q : List Instr), acceptCell c 0x15 false d = (true, e) →
    e.srn.newKey = some (ep, k) →
    exec (.spdmCell c (.switch ep cause)) ⟨d, q⟩ = .next ⟨post 0x200A 0 ep k e.srn.holder cause { e with
      srn.prevEpoch := some e.srn.epoch
      srn.epoch := ep
      srn.keyid := k
      srn.newKey := none
      srn.acks := []
      srn.seqs := e.srn.seqs.filter fun x => x.1 % 4 ≠ ep
      srn.seqNext := 0 }, q⟩) ∧
  (∀ (ep k cause : Nat) (d e : Dev) (q : List Instr), e = lineSeen 0x30 d → e.pwr.mode.ringOn = true → e.isM = false →
    e.srn.newKey = some (ep, k) →
    exec (.spdmFrame (.switch ep cause)) ⟨d, q⟩ = .next ⟨post 0x200A 0 ep k e.srn.holder cause { e with
      srn.prevEpoch := some e.srn.epoch
      srn.epoch := ep
      srn.keyid := k
      srn.newKey := none
      srn.acks := []
      srn.seqs := e.srn.seqs.filter fun x => x.1 % 4 ≠ ep
      srn.seqNext := 0 }, q⟩) ∧
  (∀ (d : Dev) (q : List Instr), exec .epochKeyErase ⟨d, q⟩ = .next ⟨{ d with srn.prevEpoch := none }, q⟩) ∧
  (∀ (d : Dev) (q : List Instr), blockOn 7 d = true → isMember d = true → holderOf d = d.srn.index →
    exec .srnCtlGroupRekey ⟨d, q⟩ = .next ⟨epochStart 2 d, q⟩) ∧
  (∀ (d : Dev) (q : List Instr), blockOn 7 d = true → isMember d = true → holderOf d ≠ d.srn.index →
    exec .srnCtlGroupRekey ⟨d, q⟩ = .next ⟨cellTo 0x15 (holderOf d) 0 0 0 [4] d, q⟩)

/-- The cold-form (R282–R285): a PRESENT opens the window and joins the set; a node of the cold-form queues its own at the timer;
at the window's end a node whose claim stands among others takes its index and RING_ID, opens both sets and trains its enabled
ports; a CLAIM and a HEARTBEAT make a member known; a member queues HEARTBEAT; where both links train, both ports are up and an ECHO
goes out on each; a refused index write is asked again. -/
def Obligations.ColdForm : Prop :=
  (∀ (p : Pres) (d e : Dev) (q : List Instr), e = lineSeen 0x10 d → e.isM = false → e.pwr.mode = .recovery → e.srn.ring = .alone →
    e.srn.indexed = false → e.srn.coldOpen = false →
    exec (.present p) ⟨d, q⟩ = .next ⟨{ e with
      srn.coldOpen := true
      srn.coldT := e.time
      srn.presents := p :: e.srn.presents.filter fun q => q.serial ≠ p.serial }, q⟩) ∧
  (∀ (d : Dev) (q : List Instr), d.isM = false → d.srn.presenting = true → d.srn.coldOpen = true →
    exec .presentTimer ⟨d, q⟩ = .next ⟨{ d with srn.rlq := d.srn.rlq ++ [(0x10, [(ownPresent d).serial, (ownPresent d).ringId,
      (ownPresent d).index.getD 31, (ownPresent d).variant, b2n (ownPresent d).fresh])] }, q⟩) ∧
  (∀ (d : Dev) (q : List Instr) (rid i : Nat) (ps : List Pres), d.srn.coldOpen = true →
    ps = sortBy (·.serial) (ownPresent d :: d.srn.presents.filter fun p => p.serial ≠ (ownPresent d).serial) →
    ringIdOf ps = some rid → (resolveClaims ps).find? (fun x => x.1 = (ownPresent d).serial) = some ((ownPresent d).serial, .index i) →
    ps.length ≠ 1 → d.srn.west.en = true → d.srn.east.en = true →
    ∃ t, exec .presentWindowClose ⟨d, q⟩ = .next ⟨t, q⟩ ∧ t.srn.index = i ∧ t.srn.indexed = true ∧ t.srn.ringId = rid ∧
      t.srn.ring = .forming ∧ t.srn.west.st = .training ∧ t.srn.east.st = .training ∧ t.srn.bypassA = false ∧
      t.srn.bypassB = false ∧ t.srn.epoch = 0 ∧ t.srn.coldOpen = false ∧ t.srn.presenting = false ∧
      t.map = d.map ∧ t.med = d.med ∧ t.pwr = d.pwr ∧ t.mbx = d.mbx) ∧
  (∀ (serial i rid : Nat) (d e : Dev) (q : List Instr), e = lineSeen 0x11 d → d.isM = false → e.pwr.mode.ringOn = true →
    e.pwr.unfurl ≠ .listening → serial ≠ e.pst.nv.serial → e.srn.ring ≠ .forming → (tget e.srn.members i).st = .absent →
    exec (.claim serial i rid) ⟨d, q⟩ = .next ⟨{ e with
      srn.members := tset e.srn.members i { tget e.srn.members i with st := .joining, serial, pos := posGuess e.srn.index i } }, q⟩) ∧
  (∀ (i ep : Nat) (d e : Dev) (q : List Instr), e = lineSeen 0x3F d → d.isM = false → e.pwr.mode = .splice →
    e.pwr.unfurl ≠ .listening → (tget e.srn.members i).st = .absent →
    exec (.heartbeat i ep) ⟨d, q⟩ = .next ⟨{ e with
      srn.members := tset e.srn.members i { tget e.srn.members i with st := .live, pos := posGuess e.srn.index i } }, q⟩) ∧
  (∀ (d : Dev) (q : List Instr), isMember d = true → d.isM = false →
    exec .heartbeatTimer ⟨d, q⟩ = .next ⟨{ d with srn.rlq := d.srn.rlq ++ [(0x3F, [d.srn.index, d.srn.epoch])] }, q⟩) ∧
  (∀ (d : Dev) (q : List Instr) (o : List Nat) (w e : Nat), d.srn.ring = .forming →
    o = (sortBy (fun x => x.2.pos) (d.srn.members.filter fun x => x.2.st ≠ .heldOut)).map (·.1) → o.getLast? = some w →
    o[1]? = some e →
    exec (.coldFormLinksUp true true) ⟨d, q⟩ = .next ⟨sendCell 0x16 e 0 0 false 0 false [d.pst.nv.serial, 0]
      (sendCell 0x16 w 0 0 true 0 false [d.pst.nv.serial, 0] { d with
        srn.west := { d.srn.west with st := .up, peer := some w, wrapped := false }
        srn.east := { d.srn.east with st := .up, peer := some e, wrapped := false } }), q⟩) ∧
  (∀ (d : Dev) (q : List Instr), d.srn.indexRetry = true → d.srn.indexed = true →
    exec .ringIndexWriteRetry ⟨d, q⟩ = .next ⟨fwPut (.ringIndex (some d.srn.index) d.srn.ringId) { d with srn.indexRetry := false }, q⟩)

/-- Splice (R286, R293): a member notes the joining node, and the holder queues its request and grants the next; a grant begins
the splice at the node that is no member, and at a member it turns the routes and sends MARKs on ring A; a MARK on ring A in step 1 is
noted at the joining node, and the last one opens ring A there; the neighbour confirmed by ECHO in step 3 starts the drain of ring B;
an accepted TABLE on a node in no splice replaces both tables; an abort at the joining node closes its sets, counted and recorded; a
splicing node without a grant asks again. -/
def Obligations.SpliceCommands : Prop :=
  (∀ (serial i : Nat) (d e f : Dev) (q : List Instr), e = lineSeen 0x20 d → isMember e = true → (tget e.srn.members i).st ≠ .live →
    f = { e with
      srn.members := tset e.srn.members i { tget e.srn.members i with st := .joining, serial, pos := posGuess e.srn.index i } } →
    exec (.spliceReq serial i) ⟨d, q⟩ =
      .next ⟨if holderOf f = f.srn.index then spliceGrant { f with srn.spliceQ := f.srn.spliceQ ++ [i] } else f, q⟩) ∧
  (∀ (i : Nat) (d e f : Dev) (q : List Instr), e = lineSeen 0x21 d → d.isM = false → e.pwr.unfurl ≠ .listening →
    e.pwr.mode.ringOn = true → f = { e with srn.splice := some { index := i, startT := e.time } } →
    exec (.spliceGo i) ⟨d, q⟩ = .next ⟨if isMember f then topoChange (marksA f) else f, q⟩) ∧
  (∀ (src : Nat) (d : Dev) (q : List Instr) (sp : SpliceSt), d.isM = false → d.pwr.mode.ringOn = true → d.srn.splice = some sp →
    marksDone { sp with marks := src :: sp.marks } d = false →
    exec (.mark src false) ⟨d, q⟩ = .next ⟨{ d with
      srn.splice := some { sp with marks := src :: sp.marks }
      srn.cnt := bump d.srn.cnt 1 }, q⟩) ∧
  (∀ (src : Nat) (d : Dev) (q : List Instr) (sp : SpliceSt), d.isM = false → d.pwr.mode.ringOn = true → d.srn.splice = some sp →
    sp.step = 1 → sp.index = d.srn.index → sp.leaving = false → marksDone { sp with marks := src :: sp.marks } d = true →
    exec (.mark src false) ⟨d, q⟩ = .next ⟨portTrain .west { d with
      srn.splice := some { sp with step := 2, marks := [] }
      srn.cnt := bump d.srn.cnt 1
      srn.bypassA := false }, q⟩) ∧
  (∀ (side : Side) (serial i : Nat) (m : Member) (sp : SpliceSt) (d : Dev) (q : List Instr), d.isM = false → d.pwr.mode.ringOn = true →
    tfind d.srn.members (fun _ m => m.serial = serial) = some (i, m) → d.srn.splice = some sp → sp.step = 3 →
    exec (.echo side serial) ⟨d, q⟩ = .next ⟨markB { sp with marks := [] }
      (portMod side (fun p => { p with peer := some i }) { d with srn.cnt := bump d.srn.cnt 1 }), q⟩) ∧
  (∀ (c : Cell) (ms : List (Nat × Member)) (ws : List (Win × WinSt)) (d e f : Dev) (q : List Instr), acceptCell c 0x14 true d = (true, e) →
    e.srn.splice = none → f = { e with srn.members := ms.foldl (fun t x => tset t x.1 x.2) [], hst.wins := ws.take 64 } →
    exec (.table c ms ws) ⟨d, q⟩ = .next ⟨topoChange (ringUpdate { f with srn.holder := holderOf f }), q⟩) ∧
  (∀ (step cause : Nat) (d e : Dev) (q : List Instr), e = lineSeen 0x22 d → e.isM = false → e.pwr.mode.ringOn = true →
    isMember e = false →
    exec (.spliceAbort e.srn.index step cause) ⟨d, q⟩ = .next ⟨{ (post 0x2003 1 e.srn.index step cause 0
      { e with srn.cnt := bump e.srn.cnt 15, srn.splice := none }) with srn.bypassA := true, srn.bypassB := true }, q⟩) ∧
  (∀ (d : Dev) (q : List Instr), d.isM = false → d.pwr.mode = .splice → d.srn.splice = none →
    exec .spliceRequestAgain ⟨d, q⟩ = .next ⟨{ d with srn.rlq := d.srn.rlq ++ [(0x20, [d.pst.nv.serial, d.srn.index])] }, q⟩)

/-- Port control (R294): enabling a Disabled port of a node with an open set puts it in training; disabling one that is up, while
the other is enabled, drains it: a MARK goes out and the routes turn; the end of the drain folds the ring around the port, which reads
Disabled; where the port's enable was latched meanwhile, it trains again. -/
def Obligations.PortControl : Prop :=
  (∀ (side : Side) (d : Dev) (q : List Instr), blockOn 7 d = true → d.isM = false → (portOf d side).st = .disabled →
    (d.srn.bypassA = false ∨ d.srn.bypassB = false) →
    exec (.srnCtlPortEn side true) ⟨d, q⟩ = .next ⟨portMod side (fun p => { p with en := true, st := .training, retrains := p.retrains + 1 }) d, q⟩) ∧
  (∀ (side : Side) (d : Dev) (q : List Instr), blockOn 7 d = true → d.isM = false → (portOf d side).st = .up →
    (portOf d (otherSide side)).en = true →
    exec (.srnCtlPortEn side false) ⟨d, q⟩ = .next ⟨topoChange (sendCell 0x17 ((portOf d side).peer.getD 0) 0 0 (decide (side = .west)) 0 false []
      (portMod side (fun p => { p with en := false, st := .draining }) d)), q⟩) ∧
  (∀ (side : Side) (d : Dev) (q : List Instr), (portOf d side).st = .draining → (portOf d side).rejoin = false → leaving d = false →
    exec (.portDrainEnd side) ⟨d, q⟩ = .next ⟨portMod side (fun p => { p with st := .disabled }) (linkDead side d), q⟩) ∧
  (∀ (side : Side) (d : Dev) (q : List Instr), (portOf d side).st = .pending → (portOf d side).rejoin = false → (portOf d side).en = true →
    exec (.portDrainEnd side) ⟨d, q⟩ = .next ⟨portMod side (fun p => { p with st := .training, retrains := p.retrains + 1 }) d, q⟩)

/-- MAP_UPDATE_APPLY (R71–R76): with room in the tail the first update whose line is not under recompute applies; when it is a
move's, or the host's, a write of a row whose condition holds, its frond has the entry it writes, the record of it is the tail's last, and every
other frond's entry stands; with the tail full it waits, counted and recorded once; once a dump has begun nothing applies; a lap
beyond its time is counted and recorded once. -/
def Obligations.MapUpdateApplied : Prop :=
  (∀ (d : Dev) (q : List Instr) (i s : Nat) (p : Bool) (u : Upd), d.pwr.dumping = false → twf d.map.ent = true →
    updFront d = some i → d.map.updq[i]? = some u → tailRoom d = true → condOk d u = true →
    (u.op = .setRow s p ∨ u.op = .moveRow s p) →
    (u.why = .host ∨ u.why = .gc ∨ u.why = .wear ∨ u.why = .refresh ∨ u.why = .evacuate) →
    ∃ t, exec .mapUpdateApply ⟨d, q⟩ = .next ⟨t, q⟩ ∧ mapGet t u.frond = updEntry u.op (mapGet d u.frond) ∧
      (∀ g, g ≠ u.frond → mapGet t g = mapGet d g) ∧ t.map.updq = d.map.updq.eraseIdx i ∧
      t.map.tail = d.map.tail ++ [{ frond := u.frond, entry := (updEntry u.op (mapGet d u.frond)).core, jseq := d.map.jseq }] ∧
      t.map.err = d.map.err ∧ t.map.limit = d.map.limit) ∧
  (∀ (d : Dev) (q : List Instr) (i : Nat) (u : Upd), d.pwr.dumping = false → updFront d = some i → d.map.updq[i]? = some u →
    tailRoom d = false → u.waited = false →
    exec .mapUpdateApply ⟨d, q⟩ = .next ⟨post 0x3025 1 d.map.tail.length d.map.jseq 0 0 { d with
      map.updq := d.map.updq.set i { u with waited := true }
      map.cnt := bump d.map.cnt 7 }, q⟩) ∧
  (∀ (d : Dev) (q : List Instr), d.pwr.dumping = true → exec .mapUpdateApply ⟨d, q⟩ = .next ⟨d, q⟩) ∧
  (∀ (d : Dev) (q : List Instr) (l : Lap), d.map.lap = some l → l.late = false →
    exec .mapLapLate ⟨d, q⟩ = .next ⟨post 0x3024 2 (d.map.lapSeq + 1) (msOf (d.time - l.startT)) l.fronds 0 { d with
      map.lap := some { l with late := true }
      map.cnt := bump d.map.cnt 10 }, q⟩)

/-- LANE_OFFER (R76, R165, R168, R178, R183, R187): the lane offered next, at the turn of a consumer that takes it (one that programs
only while fewer than two of its sorus-blocks await their passes), carries what that consumer does, and the turn moves on; the
journal's set takes 8,192 records of the tail in 32 rows; a further reset of a Resetting lane, paid for by its reservation, starts and
takes what the lane has left; a lane out of its turn is offered to no one. -/
def Obligations.LaneOffers : Prop :=
  (∀ (lane : Nat) (who : Consumer) (ts : Trouble) (d e : Dev) (q : List Instr), d.periodsOn = true → (tget d.med.lanes lane).st = .idle →
    laneNext d = some lane → d.med.turn = groupOf who → (awaiting d lane < 2 ∨ ∃ n, who = .reset n) → e = offerTo lane who ts d →
    took d e = true →
    exec (.laneOffer lane who ts) ⟨d, q⟩ = .next ⟨{ e with med.offered := lane, med.turn := (groupOf who + 1) % 4 }, q⟩) ∧
  (∀ (lane k key : Nat) (ts : Trouble) (d e : Dev), payer d [21] none lane = some k → 8192 ≤ d.map.tail.length → verOk d = true →
    d.map.mediaJ.length + 8192 ≤ journalMax → metaOpen .journal lane d = (some key, e) →
    offerTo lane .journal ts d = metaSet lane key .journal 8192 ((List.range 32).map fun i =>
      ((((((e.map.tail.take 8192).drop (256 * i)).take 256).head?.map (·.jseq)).getD 0) % 2 ^ 32,
        linesOfBytes ((((e.map.tail.take 8192).drop (256 * i)).take 256).flatMap JRec.bytes))) (pay k lane false e)) ∧
  (∀ (lane nsb k : Nat) (ts : Trouble) (d e : Dev) (q : List Instr), d.periodsOn = true → (tget d.med.lanes lane).st = .resetting →
    readOnlyLane d lane = false → payer d (if sporeCount d lane < 2 then [23, 27] else [27]) none lane = some k → nsb / 1344 = lane →
    (tget d.med.sb nsb).waited = false → e = resetStart nsb d → d.med.ops.length < e.med.ops.length →
    exec (.laneOffer lane (.reset nsb) ts) ⟨d, q⟩ = .next ⟨{ e with
      stw.plan.left := tmod e.stw.plan.left k fun n => n - 1
      stw.plan.lanesUsed := tset e.stw.plan.lanesUsed lane e.stw.plan.yield }, q⟩) ∧
  (∀ (lane : Nat) (who : Consumer) (ts : Trouble) (d : Dev) (q : List Instr), laneNext d ≠ some lane →
    (tget d.med.lanes lane).st ≠ .resetting → exec (.laneOffer lane who ts) ⟨d, q⟩ = .next ⟨d, q⟩)

/-- A lane's work ends (R93, R159, R166–R172): a lifted pin tries every waiting wave and reset; a wave that ends well puts its pages on
media and starts the next, the fifth verifies the set; a plane-block's good reset counts a cycle and clears its step; an operation is
suspended, resumed within its limit, and a reset stalled, counted and recorded; a die that fails is kept, its operations end and its
lanes close; a clean verify pass that is not the last is noted. -/
def Obligations.LaneEnds : Prop :=
  (∀ (id : Nat) (d : Dev) (q : List Instr), exec (.pinLift id) ⟨d, q⟩ =
    .next ⟨resetKick (waveKick { d with rp.reqs := updWhere d.rp.reqs (·.id = id) fun r => { r with pinned := false } }), q⟩) ∧
  (∀ (lane : Nat) (d e : Dev) (q : List Instr) (st : Machine.PSet), d.med.sets.find? (·.lane = lane) = some st → st.wave < 4 →
    (d.med.ops.filter fun o => o.lane = lane && !o.reset) ≠ [] →
    e = pagesVerified st ((d.med.ops.filter fun o => o.lane = lane && !o.reset).map (·.pos))
      (((d.med.ops.filter fun o => o.lane = lane && !o.reset).map (·.pos)).foldl (fun d p => dieGood (laneDie lane p) d)
        { d with med.ops := d.med.ops.filter fun o => !(o.lane = lane && !o.reset) }) →
    exec (.programWaveDone lane 0) ⟨d, q⟩ = .next ⟨waveStart lane
      { e with med.sets := updWhere e.med.sets (·.lane = lane) fun s => { s with wave := s.wave + 1 } }, q⟩) ∧
  (∀ (lane : Nat) (d e : Dev) (q : List Instr) (st : Machine.PSet), d.med.sets.find? (·.lane = lane) = some st → st.wave = 4 →
    (d.med.ops.filter fun o => o.lane = lane && !o.reset) ≠ [] →
    e = pagesVerified st ((d.med.ops.filter fun o => o.lane = lane && !o.reset).map (·.pos))
      (((d.med.ops.filter fun o => o.lane = lane && !o.reset).map (·.pos)).foldl (fun d p => dieGood (laneDie lane p) d)
        { d with med.ops := d.med.ops.filter fun o => !(o.lane = lane && !o.reset) }) →
    exec (.programWaveDone lane 0) ⟨d, q⟩ = .next ⟨setVerified { st with wave := 5 } e, q⟩) ∧
  (∀ (lane pos k : Nat) (d : Dev) (q : List Instr) (o : Op), (d.med.ops.find? fun o => o.lane = lane && o.pos = pos && o.reset) = some o →
    k = serving d.med lane (o.nsb % 1344) pos →
    exec (.resetDone lane pos true) ⟨d, q⟩ = .next ⟨laneIdle lane (resetEnd o.nsb (blogAdd 1 (laneDie lane pos) (lane % 4) (k % 1344)
      (min 16777215 ((tget d.med.pb k).cycles + 1)) (dieGood (laneDie lane pos) { d with
        med.ops := d.med.ops.filter fun o => !(o.lane = lane && o.pos = pos)
        med.pb := tset d.med.pb k { tget d.med.pb k with
          cycles := min 16777215 ((tget d.med.pb k).cycles + 1), step := 0 } }))), q⟩) ∧
  (∀ (lane pos : Nat) (d : Dev) (q : List Instr) (o : Op), opAt d lane pos = some o → o.stalled = false → o.suspended = false →
    o.resumeT = none → awaited d lane pos = false →
    exec (.operationSuspended lane pos) ⟨d, q⟩ = .next ⟨{ d with
      med.ops := updWhere d.med.ops (fun o => o.lane = lane && o.pos = pos) fun o => { o with suspended := true, suspT := d.time }
      med.cnt := bump d.med.cnt 5 }, q⟩) ∧
  (∀ (lane pos us : Nat) (d : Dev) (q : List Instr) (o : Op), opAt d lane pos = some o → o.suspended = true →
    o.suspUs + us ≤ (if o.reset = true then d.med.rStallNow * 1000 else d.med.pStallNow) →
    exec (.operationResume lane pos us) ⟨d, q⟩ = .next ⟨{ d with
      med.ops := updWhere d.med.ops (fun o => o.lane = lane && o.pos = pos) fun x =>
        { x with suspended := false, suspUs := o.suspUs + us, resumeT := some d.time } }, q⟩) ∧
  (∀ (lane pos us : Nat) (d : Dev) (q : List Instr) (o : Op), opAt d lane pos = some o → o.stalled = false → o.reset = true →
    exec (.operationStall lane pos us) ⟨d, q⟩ = .next ⟨post 0x5003 1 (laneDie lane pos) (lane % 4)
      (serving d.med lane (o.nsb % 1344) pos % 1344) (us / 1000) { d with
      med.ops := updWhere d.med.ops (fun o => o.lane = lane && o.pos = pos) fun o => { o with stalled := true, suspended := false, suspUs := us }
      med.cnt := bump d.med.cnt 6 }, q⟩) ∧
  (∀ (ch die ops k : Nat) (d e : Dev) (q : List Instr) (x : Die), k = 16 * ch + die → tget d.med.dies k = x → x.failed = false →
    e = post 0x500A 3 k ops 0 0 (dieKeep k { x with failed := true, ops := max ops x.ops } d) →
    exec (.dieFailed ch die ops) ⟨d, q⟩ = .next ⟨((List.range 4).map fun q => (planeAt k q).1).foldl (fun d l => laneClose l d) { e with
      med.ops := e.med.ops.filter fun o => !(((List.range 4).map fun q => (planeAt k q).1).contains o.lane && o.pos = (planeAt k 0).2) }, q⟩) ∧
  (∀ (nsb pos : Nat) (d : Dev) (q : List Instr), d.periodsOn = true → (tget d.med.sb nsb).st = .full → pos ∈ (tget d.med.sb nsb).passLeft →
    ((tget d.med.sb nsb).passLeft.filter (· ≠ pos)) ≠ [] → (passFirst d = [] ∨ nsb ∈ passFirst d) →
    exec (.verifyPassDone nsb pos [] []) ⟨d, q⟩ = .next ⟨mediaGrant 2 (32 * (tget d.med.sb nsb).page) { d with
      med.cnt := bump d.med.cnt 8
      stw.plan.passQ := d.stw.plan.passQ - 1
      med.sb := tset d.med.sb nsb { tget d.med.sb nsb with passLeft := (tget d.med.sb nsb).passLeft.filter (· ≠ pos) } }, q⟩)

/-- The cushion's own ends (R102, R128): a Draining slot whose reads are done is Free, and one that is not Draining, or is still
read, stays; a refused limit write is asked again. -/
def Obligations.CushionEnds : Prop :=
  (∀ (key : Nat) (d : Dev) (q : List Instr), exec (.slotDrainEnd key) ⟨d, q⟩ =
    .next ⟨if (tget d.csh.dir key).st = .draining ∧ (tget d.csh.dir key).readers.isEmpty = true
    then admitEval { d with csh.dir := tset d.csh.dir key {} } else d, q⟩) ∧
  (∀ (d : Dev) (q : List Instr), d.csh.genRetry = true → exec .genLimitRetry ⟨d, q⟩ =
    .next ⟨fwPut (.genLimit (d.pst.nv.genLimit + 2 ^ 40)) { d with csh.genRetry := false }, q⟩)

/-- The steward's periods and drift (R36, R177, R186, R195): a period starts at the next multiple of 100,000 ticks; the settings
written since the last take effect with it, and requests, entries, journal tail, updates that wait, slots, keys, host port, ring,
engines, ciphers and mode stay as they were (but for the marks of a refused save); candidates are held in the buckets of their scores;
a measurement that raises no step to a refresh sets the step it found and is counted off its quota. -/
def Obligations.StewardPeriods : Prop :=
  (∀ (d : Dev) (q : List Instr), d.periodsOn = true → ∃ t, exec .periodStart ⟨d, q⟩ = .next ⟨t, q⟩ ∧
    t.time = (d.time / 100000 + 1) * 100000 ∧ t.stw.now = d.stw.set ∧ t.stw.set = d.stw.set ∧
    t.med.rStallNow = d.med.rStall ∧ t.med.pStallNow = d.med.pStall ∧ t.med.minProgNow = d.med.minProg ∧
    t.med.minResetNow = d.med.minReset ∧ t.map.ent = d.map.ent ∧ t.map.tail = d.map.tail ∧ t.map.updq = d.map.updq ∧
    t.rp.reqs = d.rp.reqs ∧ t.csh.dir = d.csh.dir ∧ { t.sec with zeroRetry := d.sec.zeroRetry } = d.sec ∧ t.hst = d.hst ∧
    { t.srn with indexRetry := d.srn.indexRetry } = d.srn ∧
    t.ope = d.ope ∧ t.cph = d.cph ∧ t.mbx = d.mbx ∧ t.bfl = d.bfl ∧ t.pwr = d.pwr ∧ t.out = d.out) ∧
  (∀ (d : Dev) (q : List Instr), exec .candidateRebucket ⟨d, q⟩ = .next ⟨{ d with
    stw.buckets := (cands d).foldl (fun t x => tset t x.1 (bucketNow d x.2 + 1)) [] }, q⟩) ∧
  (∀ (nsb pos dcOld dcNew st k : Nat) (d e : Dev) (q : List Instr), e = measured nsb pos d →
    k = serving e.med (nsb / 1344) (nsb % 1344) pos → st = max (tget e.med.pb k).step (min 15 (dcOld / 16)) →
    st < 14 → st < e.stw.now.rewrite → min 15 (dcOld / 16) ≤ min 15 (dcNew / 16) + 3 →
    exec (.sentinelMeasurementDone nsb pos dcOld dcNew) ⟨d, q⟩ =
      .next ⟨{ e with med.pb := tmod e.med.pb k fun b => { b with step := st } }, q⟩)

/-- Patrol, the scrubber and the raw read (R174, R197–R199, R206, R221): a clean valid row that comes next in the walk is counted and
moves the position; a lap that is late is recorded; the position is saved; a drained patrol is Disabled, or enabled again when the
enable was latched; a correction in the cushion is counted and recorded, and an uncorrectable bitmap is also rebuilt from the map; a
scrubber lap that is late is recorded; a raw read starts, and of a sector that is not protected it returns its bytes, of a protected
range it is refused. -/
def Obligations.PatrolAndScrub : Prop :=
  (∀ (slot : Nat) (d : Dev) (q : List Instr), d.periodsOn = true → d.stw.lapOver = false → d.stw.patrol ≠ .disabled →
    d.stw.patPos * 32768 + d.stw.patRow ≤ slotSb slot * 32768 + slotIn slot → patrolAhead d (slotSb slot) (slotIn slot) = false →
    tget (tget d.med.sb (slotSb slot)).valid (slotIn slot) = true →
    patrolLeft { d with stw.patPos := slotSb slot, stw.patRow := slotIn slot + 1 } ≠ 0 →
    exec (.patrolRowReadDone slot .clean) ⟨d, q⟩ = .next ⟨mediaGrant 4 20 { d with
      stw.patPos := slotSb slot
      stw.patRow := slotIn slot + 1
      stw.plan := { d.stw.plan with patrolQ := d.stw.plan.patrolQ - 1 }
      stw.patRead := d.stw.patRead + 1
      stw.cnt := bump d.stw.cnt 11 }, q⟩) ∧
  (∀ (d : Dev) (q : List Instr), exec .patrolLapLate ⟨d, q⟩ = .next ⟨post 0x6005 2 ((d.time - d.stw.lapStart) / 6000000000)
    (patrolLeft d) 0 0 { d with stw.lateDays := d.stw.lateDays + 1 }, q⟩) ∧
  (∀ (d : Dev) (q : List Instr), exec .patrolPositionSave ⟨d, q⟩ = .next ⟨fwPut (.patrol d.stw.patPos d.stw.lapStart) d, q⟩) ∧
  (∀ (d : Dev) (q : List Instr), d.stw.patrol = .draining → exec .patrolDrainEnd ⟨d, q⟩ = .next ⟨{ d with stw.patrol := .disabled }, q⟩) ∧
  (∀ (d : Dev) (q : List Instr), d.stw.patrol = .pending → exec .patrolDrainEnd ⟨d, q⟩ = .next ⟨{ d with stw.patrol := .enabled }, q⟩) ∧
  (∀ (d : Dev) (q : List Instr), blockOn 4 d = true → d.stw.patrol = .enabled →
    exec (.stwCtlPatrolEn false) ⟨d, q⟩ = .next ⟨{ d with stw.patrolEn := false, stw.patrol := .draining }, q⟩) ∧
  (∀ (d : Dev) (q : List Instr), blockOn 4 d = true → d.stw.patrol = .draining →
    exec (.stwCtlPatrolEn true) ⟨d, q⟩ = .next ⟨{ d with stw.patrolEn := true, stw.patrol := .pending }, q⟩) ∧
  (∀ (a : Nat) (mask : BitVec 64) (d e : Dev) (q : List Instr), e = scrubLap .cushion a d →
    exec (.scrubRead .cushion a mask .single) ⟨d, q⟩ = .next ⟨
      post 0x600C 1 0 (a % 2 ^ 32) (a / 2 ^ 32 % 256) (mask.toNat % 2 ^ 32) { e with stw.cnt := bump e.stw.cnt 13 }, q⟩) ∧
  (∀ (a : Nat) (mask : BitVec 64) (d : Dev) (q : List Instr), (tget d.med.sb a).kind = .host → ∃ t,
    exec (.scrubRead .bitmap a mask .both) ⟨d, q⟩ = .next ⟨t, q⟩ ∧
    t.med.sb = tmod d.med.sb a (fun b => { b with valid := if b.kind = .host then bitmapOf d a else b.valid, out := false }) ∧
    t.stw.cnt = bump d.stw.cnt 14 ∧ t.map = d.map ∧ t.rp = d.rp ∧ t.csh = d.csh ∧ t.sec = d.sec ∧ t.pwr = d.pwr ∧ t.out = d.out) ∧
  (∀ (sram : Bool) (n : Nat) (d : Dev) (q : List Instr), exec (.scrubLapLate sram n) ⟨d, q⟩ = .next ⟨post 0x600E 1 (b2n sram) n 0 0 d, q⟩) ∧
  (∀ (d : Dev) (q : List Instr), blockOn 3 d = true → d.med.diagBusy = false →
    exec .medDiagCmdGo ⟨d, q⟩ = .next ⟨{ d with med.diagBusy := true, med.diagDone := false }, q⟩) ∧
  (∀ (d e : Dev) (q : List Instr) (row : Row) (s : Nat) (lp : Nat × Nat), d.med.diagBusy = true → diagRead d = (0, some (row, s)) →
    row.kslot = 0 → lp = planeAt (16 * bits d.med.diagAddr 5 0 + bits d.med.diagAddr 9 6) (bits d.med.diagAddr 11 10) →
    e = mediaGrant 5 1 (opSuspend lp.1 lp.2 { d with med.cnt := bump d.med.cnt 13 }) →
    exec .medDiagDone ⟨d, q⟩ = .next ⟨{ e with
      med.diagBusy := false
      med.diagDone := true
      med.diagCode := 0
      med.diagData := sectorOf row s }, q⟩) ∧
  (∀ (d : Dev) (q : List Instr) (row : Row) (s : Nat), d.med.diagBusy = true → diagRead d = (0, some (row, s)) →
    s < 16 → 1 ≤ row.kslot → row.kind = .host → ∃ t, exec .medDiagDone ⟨d, q⟩ = .next ⟨t, q⟩ ∧ t.med.diagCode = 4 ∧
    t.med.diagData = [] ∧ t.med.diagBusy = false ∧ t.sec.cnt = bump d.sec.cnt 4)

/-- Range commands (R222, R224, R352): OPEN_RANGE gives a Closed range a key in the lowest Empty slot, starts its rekey and answers
slot and KEYID, with record 0x7001; REKEY_RANGE does the same for an Open range; CLOSE_RANGE with mode 0 walks back to slot 0, with
record 0x7003, and with mode 1 runs on to erase the range's fronds under the slot it gives up; SET_RANGE_ATTR sets ENGINE_READ and
LOCK, which once set stays, and a locked range's ENGINE_READ stands. -/
def Obligations.RangeCommands : Prop :=
  (∀ (tr : Transport) (p : List Byte) (d e : Dev) (q : List Instr) (n base last k id : Nat), d.takes mSM tr → p.length = 12 →
    n = byte p 0 → n < 64 → byte p 1 < 2 → zeros p 2 2 = true → base = le p 4 4 → last = le p 8 4 → (tget d.sec.ranges n).st = .closed →
    base ≤ last → last < d.map.limit →
    (d.sec.ranges.any fun x => x.2.st ≠ .closed && spansMeet base last x.2.base x.2.last) = false →
    freeSlot d = some k → rekeysRunning d < 4 → secRefused 2 d = none →
    rekeyStart n k { base, last, engineRead := bit (byte p 1) 0 } (post 0x7001 0 n base last k d) = (id, e) →
    exec (.openRange tr p) ⟨d, q⟩ = .next ⟨cmdEnd tr 0xC200 0 (toLe 4 k ++ toLe 4 id) 0 false e, q⟩) ∧
  (∀ (tr : Transport) (p : List Byte) (d e : Dev) (q : List Instr) (n k id : Nat), d.takes mSM tr → p.length = 1 → n = byte p 0 →
    n < 64 → (tget d.sec.ranges n).st = .opn → freeSlot d = some k → rekeysRunning d < 4 → secRefused 2 d = none →
    rekeyStart n k (tget d.sec.ranges n) d = (id, e) →
    exec (.rekeyRange tr p) ⟨d, q⟩ = .next ⟨cmdEnd tr 0xC202 0 (toLe 4 k ++ toLe 4 id) 0 false e, q⟩) ∧
  (∀ (tr : Transport) (p : List Byte) (d e : Dev) (q : List Instr) (n : Nat) (r s : Range), d.takes mSM tr → p.length = 2 → n = byte p 0 →
    n < 64 → byte p 1 = 0 → r = tget d.sec.ranges n → r.st = .opn → r.lock = false → rekeysRunning d < 4 → secRefused 2 d = none →
    s = { r with st := .closing, old := r.cur, cur := 0, boundary := r.base, next := r.base, rewriting := [], again := [],
                 rewritten := 0, started := d.time, endId := 0 } →
    e = fwWrite (.range n s) { d with
      sec.ranges := tset d.sec.ranges n s
      sec.slots := tmod d.sec.slots r.cur fun x => { x with role := 2 } } →
    exec (.closeRange tr p) ⟨d, q⟩ =
      .next ⟨cmdEnd tr 0xC201 0 [] 0 false (post 0x7003 0 n r.cur 0 (tget e.sec.slots 0).keyid e), q⟩) ∧
  (∀ (tr : Transport) (p : List Byte) (d e : Dev) (q : List Instr) (n : Nat) (r s : Range), d.takes mSM tr → p.length = 2 → n = byte p 0 →
    n < 64 → byte p 1 = 1 → r = tget d.sec.ranges n → (r.st = .opn ∨ r.st = .rekeying) → r.lock = false → secRefused 2 d = none →
    s = { r with st := .closing, old := r.cur, cur := 0, rewriting := [], again := [], boundary := r.last + 1, next := r.last + 1,
                 former := r.cur :: (if r.st = .rekeying ∧ r.old ≠ 0 then [r.old] else []) } →
    e = fwWrite (.range n s) { d with
      sec.ranges := tset d.sec.ranges n s
      sec.slots := tmod d.sec.slots r.cur fun x => { x with role := 2 } } →
    exec (.closeRange tr p) ⟨d, q⟩ = .next ⟨cmdRun tr 0xC201 (.eraseRange n r.base r.last) 1 (r.last + 1 - r.base) e, q⟩) ∧
  (∀ (tr : Transport) (p : List Byte) (d : Dev) (q : List Instr) (n : Nat) (r : Range), d.takes mSM tr → p.length = 2 →
    n = byte p 0 → n < 64 → byte p 1 < 4 → (tget d.sec.ranges n).st ≠ .closed →
    ((tget d.sec.ranges n).lock = false ∨ (tget d.sec.ranges n).engineRead = bit (byte p 1) 0) → secRefused 2 d = none →
    r = { tget d.sec.ranges n with engineRead := bit (byte p 1) 0, lock := (tget d.sec.ranges n).lock || bit (byte p 1) 1 } →
    exec (.setRangeAttr tr p) ⟨d, q⟩ = .next ⟨cmdEnd tr 0xC203 0 [] 0 false
      (fwWrite (.range n r.saved) { d with sec.ranges := tset d.sec.ranges n r }), q⟩) ∧
  (∀ (tr : Transport) (p : List Byte) (d : Dev) (q : List Instr) (n : Nat), d.takes mSM tr → p.length = 2 → n = byte p 0 → n < 64 →
    byte p 1 < 4 → (tget d.sec.ranges n).st ≠ .closed → (tget d.sec.ranges n).lock = true →
    (tget d.sec.ranges n).engineRead ≠ bit (byte p 1) 0 →
    exec (.setRangeAttr tr p) ⟨d, q⟩ = .next ⟨cmdEnd tr 0xC203 0x0107 [] 0 false d, q⟩)

/-- The rekey walk (R226–R228, R212): the engine's header read of a frond whose row already has the current slot is a skip,
counted; of another frond's, the frond awaits its rewrite; a walk of a Rekeying range past its last frond ends with the range
Open, no read of it under way, and record 0x7004; a walking range's boundary is saved; a refused key record is asked again, with
record 0x7031 the first time. -/
def Obligations.RekeyWalk : Prop :=
  (∀ (n f : Nat) (e : Entry) (d g : Dev) (q : List Instr) (r : Range), r = tget d.sec.ranges n → r.walks = true → r.again = [] →
    (d.map.ent.find? fun (x : Nat × Entry) => x.2.v && decide (r.next ≤ x.1) && decide (x.1 ≤ r.last) && decide (x.1 < d.map.limit)) = some (f, e) →
    (mapGet d f).v = true → (tget d.med.rows (mapGet d f).slot).kslot = r.cur → g = mediaGrant 4 20 d →
    exec (.rekeyHeaderReadDone n) ⟨d, q⟩ = .next ⟨{ g with
      sec.ranges := tset d.sec.ranges n (rekeyStep g { r with next := f + 1 })
      sec.cnt := bump d.sec.cnt 7 }, q⟩) ∧
  (∀ (n f : Nat) (e : Entry) (d g : Dev) (q : List Instr) (r : Range), r = tget d.sec.ranges n → r.walks = true → r.again = [] →
    (d.map.ent.find? fun (x : Nat × Entry) => x.2.v && decide (r.next ≤ x.1) && decide (x.1 ≤ r.last) && decide (x.1 < d.map.limit)) = some (f, e) →
    (mapGet d f).v = true → (tget d.med.rows (mapGet d f).slot).kslot ≠ r.cur → g = mediaGrant 4 20 d →
    exec (.rekeyHeaderReadDone n) ⟨d, q⟩ = .next ⟨{ g with
      sec.ranges := tset d.sec.ranges n (rekeyStep g { r with next := f + 1, rewriting := r.rewriting ++ [f] }) }, q⟩) ∧
  (∀ (n : Nat) (d : Dev) (q : List Instr) (r : Range), r = tget d.sec.ranges n → r.st = .rekeying → r.former = [] → r.last < r.boundary →
    r.old = 0 → rekeyReads d r = false →
    exec (.rekeyDone n) ⟨d, q⟩ = .next ⟨post 0x7004 0 n 0 r.rewritten ((d.time - r.started) / 100000000)
      (rangeStore n { d with sec.ranges := tset d.sec.ranges n { r with st := .opn, old := 0 } }), q⟩) ∧
  (∀ (n : Nat) (d : Dev) (q : List Instr), (tget d.sec.ranges n).walks = true →
    exec (.rekeyBoundarySave n) ⟨d, q⟩ = .next ⟨rangeStore n d, q⟩) ∧
  (∀ (k n : Nat) (d e : Dev) (q : List Instr), d.sec.zeroRetry = [(0, k)] → n = tget d.sec.retried k →
    e = { d with sec.zeroRetry := [], sec.retried := tset d.sec.retried k (n + 1) } →
    exec .keyStoreRetry ⟨d, q⟩ = .next ⟨if n = 0 then fwPut (.keyRec k (emptyRecOf (post 0x7031 1 k 1 0 0 e) k)) (post 0x7031 1 k 1 0 0 e)
      else fwPut (.keyRec k (emptyRecOf e k)) e, q⟩)

/-- Poison commands and erasures (R234, R238, R345): INJECT_POISON of a line of an Open slot sets it Poisoned, with record
0x7020; an address of another index is Invalid Physical Address; CLEAR_POISON of a frond that has P clear afterwards writes the line
and takes it out of the poison index, with record 0x7021; SANITIZE and SECURE_ERASE run long and are marked to be run again after a
power loss; in Service they are refused, counted. -/
def Obligations.PoisonAndErase : Prop :=
  (∀ (tr : Transport) (p : List Byte) (d e g : Dev) (q : List Instr) (f l k : Nat) (s : Slot), d.takes mSM tr → p.length = 8 → le p 0 8 % 64 = 0 →
    addrIndex (le p 0 8) = d.srn.index → le p 0 8 < 2 ^ 48 → f = addrFrond (le p 0 8) → l = addrLine (le p 0 8) → f < d.map.limit →
    f ∉ d.sec.frozen → (admitState d ≠ 4 ∨ (slotFind d f).isSome = true) → rangeLocked d f = false → slotGet f d = (k, e) →
    s = { tget e.csh.dir k with lines := tmod (tget e.csh.dir k).lines l (fun x => { x with st := .poisoned }), dirty := true } →
    g = setPoison f (pidxAdd f (BitVec.ofNat 64 (2 ^ l)) (setFlags f { sparseFree f l e with csh.dir := tset e.csh.dir k s })) →
    exec (.injectPoison tr p) ⟨d, q⟩ = .next ⟨cmdEnd tr 0x4301 0 [] 0 false (post 0x7020 0 f l 0 0 (admitEval
      { g with sec.cnt := bump g.sec.cnt 9 })), q⟩) ∧
  (∀ (tr : Transport) (p : List Byte) (d : Dev) (q : List Instr), d.takes mSM tr → p.length = 8 → le p 0 8 % 64 = 0 →
    addrIndex (le p 0 8) ≠ d.srn.index →
    exec (.injectPoison tr p) ⟨d, q⟩ = .next ⟨cmdEnd tr 0x4301 0x000F [] 0 false d, q⟩) ∧
  (∀ (tr : Transport) (p : List Byte) (d e h g : Dev) (q : List Instr) (f l : Nat), d.takes mSM tr → p.length = 72 → le p 0 8 % 64 = 0 →
    addrIndex (le p 0 8) = d.srn.index → le p 0 8 < 2 ^ 48 → f = addrFrond (le p 0 8) → l = addrLine (le p 0 8) → f < d.map.limit →
    f ∉ d.sec.frozen → e = writeLine f l ⟨bytesLine (p.drop 8), BitVec.allOnes 64, false⟩ (le p 0 8) 6 255 d →
    h = (if (mapGet e f).v = true then mediaGrant 5 20 e else e) →
    g = { h with rp.stage := tset h.rp.stage f (setBit (tget h.rp.stage f) l false) } → (mapGet g f).p = false →
    exec (.clearPoison tr p) ⟨d, q⟩ = .next ⟨cmdEnd tr 0x4302 0 [] 0 false (post 0x7021 0 f l 0 0 (admitEval { g with
      sec.pidx := tset g.sec.pidx f (setBit (tget g.sec.pidx f) l false)
      sec.cnt := bump g.sec.cnt 10 })), q⟩) ∧
  (∀ (tr : Transport) (d : Dev) (q : List Instr), d.takes mM tr → secRefused 2 d = none →
    exec (.sanitize tr []) ⟨d, q⟩ = .next ⟨cmdRun tr 0x4400 (.sanitize true) 4 (d.med.sb.filter fun x => sanitizes x.2).length
      { d with pwr.rerun := some true, csh.emptying := true }, q⟩) ∧
  (∀ (tr : Transport) (d : Dev) (q : List Instr), d.takes mM tr → secRefused 2 d = none →
    exec (.secureErase tr []) ⟨d, q⟩ = .next ⟨cmdRun tr 0x4401 (.sanitize false) 5 1000
      { d with pwr.rerun := some false, csh.emptying := true }, q⟩) ∧
  (∀ (tr : Transport) (p : List Byte) (d : Dev) (q : List Instr), reachable tr d = true → d.mbx.run = none → d.pwr.mode = .service →
    exec (.secureErase tr p) ⟨d, q⟩ = .next ⟨cmdEnd tr 0x4401 0x0108 [] 0 false { d with mbx.cnt := bump d.mbx.cnt 5 }, q⟩) ∧
  (∀ (tr : Transport) (p : List Byte) (d : Dev) (q : List Instr), reachable tr d = true → d.mbx.run = none → d.pwr.mode = .service →
    exec (.sanitize tr p) ⟨d, q⟩ = .next ⟨cmdEnd tr 0x4400 0x0108 [] 0 false { d with mbx.cnt := bump d.mbx.cnt 5 }, q⟩)

/-- Decoders and windows (R246–R249): a commit whose rules hold on a node alone in its ring is Committed at once, with record
0x1010; one that breaks rule 2 is refused with reason 2, counted and recorded; a claim that fits this slice
and meets no window is granted; the last grant of a claim commits its decoder; a claim with no reply fails with reason 7; commit
and release cells enter and remove a window; a decommit without lines to invalidate releases its window, and a locked committed
decoder stays (Lock On Commit is the model's reading of CXL 3.1, log entry 91). -/
def Obligations.HostWindows : Prop :=
  (∀ (n base size skip : Nat) (bi lock : Bool) (d e : Dev) (q : List Instr), n < 4 → d.hst.up = true → (tget d.hst.decs n).st = .uncommitted →
    e = decMod n (fun _ => { base, size, skip, bi, lock, startT := d.time }) d → decLocal e n base size skip bi 0 = none →
    winCheck e (decWin e n) = (0, 31, 0) → peers e = [] →
    exec (.hdmDecoderCommit n base size skip bi 0 lock) ⟨d, q⟩ = .next ⟨post 0x1010 0 n ((decWin e n).base * 4096) (decWin e n).size
      (b2n (decWin e n).db) (decMod n (fun x => { x with st := .committed, reason := 0, peer := 31, peerDec := 0, waiting := [] })
        (winPut (decWin e n) .committed e)), q⟩) ∧
  (∀ (n base size skip : Nat) (bi lock : Bool) (d e : Dev) (q : List Instr), n < 4 → d.hst.up = true → (tget d.hst.decs n).st = .uncommitted →
    e = decMod n (fun _ => { base, size, skip, bi, lock, startT := d.time }) d → decLocal e n base size skip bi 0 = some 2 →
    exec (.hdmDecoderCommit n base size skip bi 0 lock) ⟨d, q⟩ = .next ⟨post 0x1011 1 n 2 255 255
      (decMod n (fun x => { x with st := .refused, reason := 2, peer := 31, peerDec := 0, waiting := [] })
        { e with hst.cnt := bump e.hst.cnt 7 }), q⟩) ∧
  (∀ (c : Cell) (w : Win) (d e : Dev) (q : List Instr), acceptCell c 0x10 true d = (true, e) → sliceFits e w = true →
    (e.hst.wins.filter fun x => winOverlap x.1 w && !(x.1.port = w.port && x.1.dec = w.dec)) = [] →
    exec (.winClaim c w) ⟨d, q⟩ = .next ⟨cellTo 0x11 c.src c.tag 0 0 (winWords w) (winPut w .claiming e), q⟩) ∧
  (∀ (c : Cell) (w : Win) (n : Nat) (d e f : Dev) (q : List Instr) (x : Dec), acceptCell c 0x11 true d = (true, e) → c.status = 0 →
    n = c.tag % 4 → x = tget e.hst.decs n → x.st = .claiming → x.waiting = [c.src] → x.reason = 0 →
    f = { e with hst.decs := tmod e.hst.decs n fun x => { x with waiting := x.waiting.filter (· ≠ c.src) } } →
    (tget f.hst.decs n).waiting = [] → (tget f.hst.decs n).reason = 0 →
    exec (.winReply c w) ⟨d, q⟩ = .next ⟨decCommitted n f, q⟩) ∧
  (∀ (n : Nat) (d e : Dev) (q : List Instr), (tget d.hst.decs n).st = .claiming →
    (tget d.hst.decs n).reason = 0 ∨ 7 ≤ (tget d.hst.decs n).reason → e = winRelease (decWin d n) d →
    exec (.winClaimReplyTimeout n) ⟨d, q⟩ = .next ⟨post 0x1011 1 n 7 255 255
      (decMod n (fun x => { x with st := .refused, reason := 7, peer := 31, peerDec := 0, waiting := [] })
        { e with hst.cnt := bump e.hst.cnt 7 }), q⟩) ∧
  (∀ (c : Cell) (w : Win) (d e : Dev) (q : List Instr), acceptCell c 0x12 true d = (true, e) →
    (e.hst.wins.filter fun x => !(x.1.port = w.port && x.1.dec = w.dec)).length < 64 →
    exec (.winCommit c w) ⟨d, q⟩ = .next ⟨{ e with
      hst.wins := (e.hst.wins.filter fun x => !(x.1.port = w.port && x.1.dec = w.dec)) ++ [(w, .committed)] }, q⟩) ∧
  (∀ (c : Cell) (w : Win) (d e : Dev) (q : List Instr), acceptCell c 0x13 true d = (true, e) →
    exec (.winRelease c w) ⟨d, q⟩ = .next ⟨{ e with
      hst.wins := e.hst.wins.filter fun x => !(x.1.port = w.port && x.1.dec = w.dec) }, q⟩) ∧
  (∀ (n : Nat) (d : Dev) (q : List Instr), n < 4 → d.hst.up = true → (tget d.hst.decs n).st = .committed → (tget d.hst.decs n).release = false →
    (tget d.hst.decs n).lock = false → ((tget d.hst.decs n).bi = false ∨ sfLines d (decWin d n) = []) →
    exec (.hdmDecoderDecommit n) ⟨d, q⟩ =
      .next ⟨decRelease n (decMod n (fun x => { x with release := true, removed := 0, startT := d.time }) d), q⟩) ∧
  (∀ (n : Nat) (d : Dev) (q : List Instr), (tget d.hst.decs n).st = .committed → (tget d.hst.decs n).lock = true →
    exec (.hdmDecoderDecommit n) ⟨d, q⟩ = .next ⟨d, q⟩)

/-- Back-invalidates and snoops (R254, R256, R309): a query for a frond with no line in state A and nothing awaited is answered
at once; SNP_DONE lets the asking engine read; the oldest waiting back-invalidate goes out, counted, to invalidate unless an engine's
query asks it; a BIRsp without data retires a victim's entry; a BIConflict is answered once for an entry sent. -/
def Obligations.HostSnoops : Prop :=
  (∀ (c : Cell) (d e : Dev) (q : List Instr), acceptCell c 0x0B true d = (true, e) →
    (∀ l, l / 64 = c.src * 2 ^ 32 + c.line / 64 → (sfLook e (l * 64)).map (·.2) ≠ some .a) →
    snpBlocked e (c.src * 2 ^ 32 + c.line / 64) = false → (∀ x ∈ e.hst.snpAsks, snpBlocked e x.2.2 = true) → c.src ≠ e.srn.index →
    exec (.snpQry c) ⟨d, q⟩ = .next ⟨cellTo 0x0C c.src c.tag ((c.src * 2 ^ 32 + c.line / 64) % 2 ^ 32 * 64) 0 [] e, q⟩) ∧
  (∀ (c : Cell) (d e : Dev) (q : List Instr), acceptCell c 0x0C true d = (true, e) →
    exec (.snpDone c) ⟨d, q⟩ = .next ⟨{ e with ope.asking := e.ope.asking.filter fun y => !(y = (c.tag, c.line / 64)) }, q⟩) ∧
  (∀ (d : Dev) (q : List Instr) (i : Nat) (b : Bi), d.hst.up = true → (d.hst.bis.findIdx? fun b => !b.sent) = some i →
    d.hst.bis[i]? = some b →
    exec .bisnpSend ⟨d, q⟩ = .next ⟨{ d with
      hst.bis := d.hst.bis.set i { b with sent := true }
      hst.cnt := bump d.hst.cnt 3
      out := .bisnp b.line (match b.why with
        | .engine _ => false
        | _ => true) :: d.out }, q⟩) ∧
  (∀ (line : Nat) (d : Dev) (q : List Instr) (b : Bi), (d.hst.bis.find? fun b => b.line = line && b.sent) = some b → b.why = .victim →
    exec (.birsp line none) ⟨d, q⟩ = .next ⟨snpAnswer (sfThresholds { d with hst.bis := d.hst.bis.erase b }), q⟩) ∧
  (∀ (line i : Nat) (d : Dev) (q : List Instr) (b : Bi), (d.hst.bis.findIdx? fun b => b.line = line && b.sent && !b.conflict) = some i →
    d.hst.bis[i]? = some b →
    exec (.biconflict line) ⟨d, q⟩ = .next ⟨{ d with
      hst.bis := d.hst.bis.set i { b with conflict := true }
      out := .conflictDone line :: d.out }, q⟩)

/-- The host link (R241–R244, R251, R252, R257–R260): a link up offers 512 write credits, with record 0x1001, and a degraded one
record 0x1003 besides; a link that goes down, a hot reset and a CXL reset of a port with nothing under way take its decoders, snoop
filter and credits, with their cause in record 0x1002, and leave the rest of the node; PERST holds the function unready until it is
released; a config request is answered with a retry status or the config space, and the CDAT, SPDM, IDE keys and both GPF phases are
answered. -/
def Obligations.HostLink : Prop :=
  (∀ (w r flit : Nat) (d : Dev) (q : List Instr), d.hst.up = false → d.hst.perst = false → d.pwr.mode.firmware = true → d.pwr.mode ≠ .halt →
    exec (.linkUp w r flit) ⟨d, q⟩ = .next ⟨postIf (decide (w < 16) || decide (r < 64)) 0x1003 1 w r 0 0 (post 0x1001 0 w r flit 0 { d with
      hst.up := true
      hst.width := w
      hst.rate := r
      hst.flit := flit
      hst.memActive := d.pwr.mode.serves
      csh.credHost := 512
      csh.owedHost := 0 }), q⟩) ∧
  (∀ (c : Nat) (i : Instr) (d : Dev) (q : List Instr), (i, c) ∈ [(Instr.hotReset, 1), (.cxlReset, 2), (.linkDown, 3)] → d.hst.up = true →
    d.rp.reqs = [] → (∀ n, (tget d.hst.decs n).st ≠ .committed ∧ (tget d.hst.decs n).st ≠ .claiming) →
    d.hst.snpAsks = [] → d.srn.remotes = [] → d.mbx.run = none →
    exec i ⟨d, q⟩ = .next ⟨admitEval { post 0x1002 1 c 0 0 0 { d with
      hst.width := 0
      hst.rate := 0
      hst.flit := 0
      hst.up := false
      hst.memActive := false
      hst.decs := []
      hst.sf := []
      hst.bis := []
      hst.credHeld := false
      csh.credHost := 0
      csh.owedHost := 0 } with hst.snpAsks := [] }, q⟩) ∧
  (∀ (d : Dev) (q : List Instr), exec .perstAsserted ⟨d, q⟩ = .next ⟨{ portReset 0 d with hst.perst := true, hst.ready := false }, q⟩) ∧
  (∀ (d : Dev) (q : List Instr), d.pwr.mode.firmware = true → d.pwr.mode ≠ .halt → d.pwr.unfurl ≠ .booting → d.pwr.unfurl ≠ .noBoot →
    exec .perstDeasserted ⟨d, q⟩ = .next ⟨{ d with hst.perst := false, hst.ready := true }, q⟩) ∧
  (∀ (d : Dev) (q : List Instr), exec .hotReset ⟨d, q⟩ = .next ⟨portReset 1 d, q⟩ ∧ exec .cxlReset ⟨d, q⟩ = .next ⟨portReset 2 d, q⟩ ∧
    exec .linkDown ⟨d, q⟩ = .next ⟨portReset 3 d, q⟩) ∧
  (∀ (tag : Nat) (v : Option Bool) (d : Dev) (q : List Instr), d.hst.up = true → d.hst.ready = false →
    exec (.configRequest tag v) ⟨d, q⟩ = .next ⟨{ d with out := .config tag none :: d.out }, q⟩) ∧
  (∀ (tag : Nat) (v : Option Bool) (d e : Dev) (q : List Instr), d.hst.up = true → d.hst.ready = true →
    e = { d with hst.viralOn := v.getD d.hst.viralOn } →
    exec (.configRequest tag v) ⟨d, q⟩ = .next ⟨{ e with out := .config tag (some (cfgSpace e)) :: e.out }, q⟩) ∧
  (∀ (d : Dev) (q : List Instr), d.hst.up = true → d.hst.ready = true →
    exec .doeCdatRead ⟨d, q⟩ = .next ⟨{ d with out := .cdat d.hst.cdatSeq (cdatRows d) :: d.out }, q⟩) ∧
  (∀ (d : Dev) (q : List Instr), d.hst.up = true → d.hst.ready = true →
    exec .doeSpdm ⟨d, q⟩ = .next ⟨{ d with out := .spdm :: d.out }, q⟩) ∧
  (∀ (s : Nat) (k : Bool) (d : Dev) (q : List Instr), d.hst.up = true → d.hst.ready = true → s < 3 →
    exec (.ideKm s k) ⟨d, q⟩ = .next ⟨{ d with hst.ide := tset d.hst.ide s { keyed := true, skid := k, insecure := false } }, q⟩) ∧
  (∀ (d : Dev) (q : List Instr), d.hst.up = true → exec .gpfPhase1 ⟨d, q⟩ = .next ⟨{ d with out := .gpf 1 :: d.out }, q⟩) ∧
  (∀ (d : Dev) (q : List Instr), d.hst.up = true → exec .gpfPhase2 ⟨d, q⟩ = .next ⟨{ d with out := .gpf 2 :: d.out }, q⟩)

/-- Keys of the cipher engine (R325–R328): CPH_KEY_GENERATE fills an Empty host slot with a key drawn by the generator, returns
its KEYID and posts 0x7040, and writes its record when it persists; CPH_KEY_IMPORT takes a plaintext key under a secured session and a
wrapped key under a Loaded 256-bit KEK, and refuses a plaintext key outside one with record 0x7043; CPH_KEY_WRAP returns the wrapped key of an exportable slot; CPH_KEY_ZEROIZE empties the slot at once when no request runs on
it, and runs on when one does. What the key generator draws stays free (log entries 2 and 4). -/
def Obligations.CipherKeys : Prop :=
  (∀ (tr : Transport) (k a id : Nat) (p : List Byte) (d e : Dev) (q : List Instr), d.takes mSDTM tr → p.length = 2 → k = byte p 0 → a = byte p 1 →
    k < 24 → a < 32 → (tget d.cph.slots k).st = .empty → bit a 4 = false → freshKeyid d = (id, e) →
    exec (.cphKeyGenerate tr p) ⟨d, q⟩ = .next ⟨cmdEnd tr 0xC210 0 (toLe 4 id) 0 false (post 0x7040 0 k 0 id a { e with
      cph.slots := tset e.cph.slots k { st := .loaded, len := a % 4, engine := bit a 2, exportable := bit a 3, persist := false, keyid := id,
                                        key := fitTo (keyLen (a % 4)) (Config.keyBytes id) }
      cph.cnt := bump e.cph.cnt 7 }), q⟩) ∧
  (∀ (tr : Transport) (k a id : Nat) (p : List Byte) (x : CSlot) (d e g : Dev) (q : List Instr), d.takes mSDTM tr → p.length = 2 → k = byte p 0 →
    a = byte p 1 → k < 24 → a < 32 → (tget d.cph.slots k).st = .empty → bit a 4 = true → 3 ∉ d.pst.worn → supplyOk d = true →
    freshKeyid d = (id, e) → x = attrSlot a id (fitTo (keyLen (a % 4)) (Config.keyBytes id)) →
    g = fwWrite (.cphRec k { keyid := id, wrapped := keyWrap (fitTo 32 (Config.keyBytes e.rootKey)) x.key,
                             seq := (tget e.pst.nv.cphKeys k).next, empty := false } { x with key := [] }) e →
    exec (.cphKeyGenerate tr p) ⟨d, q⟩ = .next ⟨cmdEnd tr 0xC210 0 (toLe 4 id) 0 false (post 0x7040 0 k 0 id a { g with
      cph.slots := tset g.cph.slots k x
      cph.cnt := bump g.cph.cnt 7 }), q⟩) ∧
  (∀ (tr : Transport) (k a id : Nat) (p : List Byte) (d e : Dev) (q : List Instr), d.takes mSDTM tr → 8 ≤ p.length → p.length ≤ 4096 → k = byte p 0 →
    a = byte p 1 → k < 24 → a < 32 → byte p 2 = 0 → byte p 3 < 32 → zeros p 6 2 = true → le p 4 2 = keyLen (a % 4) →
    p.length = 8 + keyLen (a % 4) → (tget d.cph.slots k).st = .empty → bit a 4 = false → importSafe tr true d = true →
    freshKeyid d = (id, e) →
    exec (.cphKeyImport tr p true) ⟨d, q⟩ = .next ⟨cmdEnd tr 0xC211 0 (toLe 4 id) 0 false (post 0x7040 0 k 1 id a { e with
      cph.slots := tset e.cph.slots k { st := .loaded, len := a % 4, engine := bit a 2, exportable := bit a 3, persist := false, keyid := id,
                                        key := (p.drop 8).take (keyLen (a % 4)) }
      cph.cnt := bump e.cph.cnt 7 }), q⟩) ∧
  (∀ (tr : Transport) (k a id : Nat) (s : Bool) (p key kek : List Byte) (d e : Dev) (q : List Instr), d.takes mSDTM tr → 8 ≤ p.length →
    p.length ≤ 4096 → k = byte p 0 → a = byte p 1 → k < 24 → a < 32 → byte p 2 = 1 → byte p 3 < 32 → zeros p 6 2 = true →
    le p 4 2 = keyLen (a % 4) + 8 → p.length = 8 + le p 4 2 → (tget d.cph.slots k).st = .empty → kekOf d (byte p 3) = some kek →
    keyUnwrap kek ((p.drop 8).take (le p 4 2)) = some key → bit a 4 = false → freshKeyid d = (id, e) →
    exec (.cphKeyImport tr p s) ⟨d, q⟩ = .next ⟨cmdEnd tr 0xC211 0 (toLe 4 id) 0 false (post 0x7040 0 k 1 id a { e with
      cph.slots := tset e.cph.slots k { st := .loaded, len := a % 4, engine := bit a 2, exportable := bit a 3, persist := false, keyid := id,
                                        key := fitTo (keyLen (a % 4)) key }
      cph.cnt := bump e.cph.cnt 7 }), q⟩) ∧
  (∀ (tr : Transport) (k a : Nat) (p : List Byte) (d : Dev) (q : List Instr), d.takes mSDTM tr → 8 ≤ p.length → p.length ≤ 4096 → k = byte p 0 →
    a = byte p 1 → k < 24 → a < 32 → byte p 2 = 0 → byte p 3 < 32 → zeros p 6 2 = true → le p 4 2 = keyLen (a % 4) →
    p.length = 8 + keyLen (a % 4) → (tget d.cph.slots k).st = .empty →
    exec (.cphKeyImport tr p false) ⟨d, q⟩ = .next ⟨cmdEnd tr 0xC211 rcSecState [] 0 false (post 0x7043 1 k 0 rcSecState 0 d), q⟩) ∧
  (∀ (tr : Transport) (p : List Byte) (x w : CSlot) (d : Dev) (q : List Instr), d.takes mSDTM tr → p.length = 2 → byte p 0 < 24 →
    byte p 1 < 24 → x = tget d.cph.slots (byte p 0) → w = tget d.cph.slots (byte p 1) → x.st = .loaded → x.exportable = true → w.st = .loaded → w.len = 2 →
    exec (.cphKeyWrap tr p) ⟨d, q⟩ =
      .next ⟨cmdEnd tr 0xC214 0 (keyWrap w.key x.key) 0 false d, q⟩) ∧
  (∀ (tr : Transport) (p : List Byte) (k : Nat) (x : CSlot) (d : Dev) (q : List Instr), d.takes mSDTM tr → p.length = 1 → k = byte p 0 → k < 24 →
    x = tget d.cph.slots k → x.persist = false → (∀ r ∈ d.cph.queue, r.slot ≠ k) →
    exec (.cphKeyZeroize tr p) ⟨d, q⟩ = .next ⟨cmdEnd tr 0xC212 0 [] 0 false (post 0x7041 0 k x.keyid 0 0
      { d with cph.slots := tset d.cph.slots k {} }), q⟩) ∧
  (∀ (tr : Transport) (p : List Byte) (k : Nat) (x : CSlot) (r : CReq) (d : Dev) (q : List Instr), d.takes mSDTM tr → p.length = 1 → k = byte p 0 → k < 24 →
    x = tget d.cph.slots k → x.persist = false → d.cph.queue = [r] → r.slot = k → r.core.isSome = true →
    exec (.cphKeyZeroize tr p) ⟨d, q⟩ = .next ⟨cmdRun tr 0xC212 (.zeroize k) 0 1 (post 0x7041 0 k x.keyid 0 0
      { d with cph.slots := tset d.cph.slots k {} }), q⟩)

/-- Requests of the cipher engine (R329–R336): a well formed CPH_REQUEST with its key Loaded enters the queue and holds the
mailbox; an ill formed one is refused with Invalid Input and counted; a free core takes the waiting request with its slot's key;
a core that ends a host's inline request answers its completion, with the output when the work says OK and without it on TAG_FAIL
or PAD_ERROR; a disabled core ends its request with FAULT, record 0x7045. -/
def Obligations.CipherRequests : Prop :=
  (∀ (tr : Transport) (p : List Byte) (r : CReq) (d : Dev) (q : List Instr), d.takes mSDTM tr → 64 ≤ p.length → p.length ≤ 4096 → d.pwr.mode ≠ .transit →
    r = { origin := .host tr, qw := (List.range 8).map fun i => le p (8 * i) 8,
          aad := (p.drop 64).take (bits (le p 8 8) 47 32), msg := p.drop (64 + bits (le p 8 8) 47 32) } →
    preStatus d r (p.length - 64) = 0 → d.cph.coresOff.length < 8 →
    exec (.cphRequest tr p) ⟨d, q⟩ = .next ⟨cmdRun tr 0xC213 .cipher 2 r.n { d with
      cph.queue := d.cph.queue ++ [r], cph.peak := max d.cph.peak (d.cph.queue.length + 1) }, q⟩) ∧
  (∀ (tr : Transport) (p : List Byte) (r : CReq) (d : Dev) (q : List Instr), d.takes mSDTM tr → 64 ≤ p.length → p.length ≤ 4096 → d.pwr.mode ≠ .transit →
    r = { origin := .host tr, qw := (List.range 8).map fun i => le p (8 * i) 8,
          aad := (p.drop 64).take (bits (le p 8 8) 47 32), msg := p.drop (64 + bits (le p 8 8) 47 32) } →
    descOk r (p.length - 64) = false →
    exec (.cphRequest tr p) ⟨d, q⟩ =
      .next ⟨cmdEnd tr 0xC213 0x0002 [] 0 false { d with cph.cnt := bump (bump d.cph.cnt 1) 5 }, q⟩) ∧
  (∀ (core : Nat) (r : CReq) (d : Dev) (q : List Instr), core < 8 → core ∉ d.cph.coresOff → d.cph.queue = [r] → r.core = none →
    bits (r.q 0) 11 10 = 0 →
    exec (.cipherRequestStart core) ⟨d, q⟩ = .next ⟨{ d with
      cph.queue := [{ r with core := some core, key := (tget d.cph.slots r.slot).key }] }, q⟩) ∧
  (∀ (core : Nat) (tr : Transport) (r : CReq) (res : CRes) (c : Running) (d : Dev) (q : List Instr), d.cph.queue = [r] → r.core = some core →
    r.origin = .host tr → r.key ≠ [] → bits (r.q 0) 13 12 = 0 → d.mbx.run = some c → c.job = .cipher →
    res = cipherWork r.mode r.dec r.key r.iv r.aad r.msg r.tagF r.du → res.status = 0 →
    exec (.cipherRequestDone core) ⟨d, q⟩ = .next ⟨cmdEnd tr c.opcode 0
      (toLe 8 (bits (r.q 0) 47 32 * 65536) ++ toLe 8 res.out.length ++ fitTo 16 res.tag ++ res.out) (msOf (d.time - c.startT)) c.lost
      { d with cph.queue := [], cph.cnt := bump d.cph.cnt 1 }, q⟩) ∧
  (∀ (core : Nat) (tr : Transport) (r : CReq) (res : CRes) (c : Running) (d : Dev) (q : List Instr), d.cph.queue = [r] → r.core = some core →
    r.origin = .host tr → r.key ≠ [] → bits (r.q 0) 13 12 = 0 → d.mbx.run = some c → c.job = .cipher →
    res = cipherWork r.mode r.dec r.key r.iv r.aad r.msg r.tagF r.du → res.status = 1 → d.cph.failSec ≠ d.time / 100000000 + 1 →
    exec (.cipherRequestDone core) ⟨d, q⟩ = .next ⟨cmdEnd tr c.opcode 0
      (toLe 8 (1 + bits (r.q 0) 47 32 * 65536) ++ toLe 8 0 ++ fitTo 16 res.tag) (msOf (d.time - c.startT)) c.lost
      (post 0x7042 1 1 1 r.slot (bits (r.q 0) 47 32) { d with
        cph.queue := [], cph.cnt := bump (bump d.cph.cnt 1) 3, cph.failSec := d.time / 100000000 + 1 }), q⟩) ∧
  (∀ (core : Nat) (parity : Bool) (d : Dev) (q : List Instr), core < 8 → core ∉ d.cph.coresOff → d.cph.queue = [] →
    exec (.cipherCoreDisabled core parity) ⟨d, q⟩ = .next ⟨post 0x7045 3 core (b2n parity) (7 - d.cph.coresOff.length) 0
      { d with cph.coresOff := d.cph.coresOff ++ [core] }, q⟩) ∧
  (∀ (core : Nat) (tr : Transport) (r : CReq) (c : Running) (d e : Dev) (q : List Instr), core < 8 → core ∉ d.cph.coresOff → d.cph.queue = [r] →
    r.core = some core → r.origin = .host tr → bits (r.q 0) 13 12 = 0 → d.mbx.run = some c → c.job = .cipher →
    e = post 0x7045 3 core 1 (7 - d.cph.coresOff.length) 0 { d with cph.coresOff := d.cph.coresOff ++ [core] } →
    exec (.cipherCoreDisabled core true) ⟨d, q⟩ = .next ⟨cmdEnd tr c.opcode 0x0004 [] (msOf (d.time - c.startT)) c.lost
      { e with cph.queue := [], cph.cnt := bump (bump d.cph.cnt 1) 6 }, q⟩)

/-- Doorbells, admission and chunks (R299–R301, R308–R310, R315, R317): a doorbell covering at most sixteen entries sets TAIL, one
that covers more is ignored, counted and recorded; a decided descriptor advances HEAD and is entered in the table, or refused with
its reason to its result queue or to its task queue's registers; a free engine takes the next chunk of the earliest deadline and asks
for the fronds of it that lie in HDM-DB windows; a chunk's work is added to its task, a line or a scratch byte that cannot be read ends
the task; a deadline ends it LATE; an engine's fault and a queue's abort end it ABORTED. -/
def Obligations.Tasks : Prop :=
  (∀ (k tail : Nat) (x : Tq) (s : Tab OpeSet) (d : Dev) (q : List Instr), blockOn 8 d = true → k < queues d → tail < 32 → x = tget d.ope.tq k →
    s = (List.range ((tail + 32 - x.tail) % 32)).foldl (fun s i => tset s ((x.tail + i) % 16) d.ope.set) x.sets →
    (tail + 32 - x.head) % 32 ≤ 16 → (x.tail + 32 - x.head) % 32 ≤ (tail + 32 - x.head) % 32 →
    exec (.opeTqDbTail k tail) ⟨d, q⟩ = .next ⟨{ d with ope.tq := tset d.ope.tq k { x with tail, sets := s } }, q⟩) ∧
  (∀ (k tail : Nat) (x : Tq) (d : Dev) (q : List Instr), blockOn 8 d = true → k < queues d → tail < 32 → x = tget d.ope.tq k →
    16 < (tail + 32 - x.head) % 32 →
    exec (.opeTqDbTail k tail) ⟨d, q⟩ = .next ⟨post 0x8007 1 k tail x.head x.tail { d with ope.cnt := bump d.ope.cnt 14 }, q⟩) ∧
  (∀ (k id lo size : Nat) (w : List Nat) (g : List (Nat × Nat)) (s : OpeSet) (d e : Dev) (q : List Instr), d.isM = false → d.pwr.dumping = false → d.pwr.stopping = false →
    blockOn 8 d = true → nextTq d = some k →
    w = ((List.range 16).map fun i => tget d.ope.slots ((k * 16 + (tget d.ope.tq k).head % 16) * 16 + i)) →
    e = { d with ope.tq := tmod d.ope.tq k (fun x => { x with head := ((tget d.ope.tq k).head + 1) % 32 }), ope.rr := (k + 1) % queues d } →
    s = tget (tget e.ope.tq k).sets ((tget d.ope.tq k).head % 16) →
    gatherSplit e w = (g, []) → fanOf w = false → admitReason s e k w g (w.getD 1 0) false = none → id = freeEntry e →
    localShare e w = (lo, size) →
    exec .taskDecide ⟨d, q⟩ = .next ⟨taskCheck id { e with
      ope.tasks := e.ope.tasks ++ [{ entry := id, tq := k, qw := w, gather := g, deadline := w.getD 1 0, lo, size,
                                     chunks := chunkCount w lo size, bytesLeft := bLocal e w g, refused := closedToEngines e,
                                     credits := s.cells }]
      ope.cnt := bump e.ope.cnt 0 }, q⟩) ∧
  (∀ (k r : Nat) (w : List Nat) (g l : List (Nat × Nat)) (s : OpeSet) (d e : Dev) (q : List Instr), d.isM = false → d.pwr.dumping = false → d.pwr.stopping = false →
    blockOn 8 d = true → nextTq d = some k →
    w = ((List.range 16).map fun i => tget d.ope.slots ((k * 16 + (tget d.ope.tq k).head % 16) * 16 + i)) →
    e = { d with ope.tq := tmod d.ope.tq k (fun x => { x with head := ((tget d.ope.tq k).head + 1) % 32 }), ope.rr := (k + 1) % queues d } →
    s = tget (tget e.ope.tq k).sets ((tget d.ope.tq k).head % 16) →
    gatherSplit e w = (g, l) → admitReason s e k w g (w.getD 1 0) false = some r → e.ope.refSec = e.time / 100000000 + 1 →
    (tget e.ope.rq (rqOf w)).st ≠ .enabled →
    exec .taskDecide ⟨d, q⟩ = .next ⟨{ e with
      ope.cnt := bump e.ope.cnt 1
      ope.tq := tmod e.ope.tq k fun x => { x with lastTag := tagOf w, lastReason := r } }, q⟩) ∧
  (∀ (k r : Nat) (w : List Nat) (g l : List (Nat × Nat)) (x : Rq) (s : OpeSet) (d e : Dev) (q : List Instr), d.isM = false → d.pwr.dumping = false → d.pwr.stopping = false →
    blockOn 8 d = true → nextTq d = some k →
    w = ((List.range 16).map fun i => tget d.ope.slots ((k * 16 + (tget d.ope.tq k).head % 16) * 16 + i)) →
    e = { d with ope.tq := tmod d.ope.tq k (fun x => { x with head := ((tget d.ope.tq k).head + 1) % 32 }), ope.rr := (k + 1) % queues d } →
    s = tget (tget e.ope.tq k).sets ((tget d.ope.tq k).head % 16) →
    gatherSplit e w = (g, l) → admitReason s e k w g (w.getD 1 0) false = some r → e.ope.refSec = e.time / 100000000 + 1 →
    rqOf w < queues e → x = tget e.ope.rq (rqOf w) → x.st = .enabled → x.waiting = [] → x.words.length + 6 ≤ rqCap x → msiOf w = false →
    exec .taskDecide ⟨d, q⟩ = .next ⟨{ e with
      ope.cnt := bump e.ope.cnt 1
      ope.rq := tset e.ope.rq (rqOf w) { x with words := x.words ++ [6 + 2 ^ 14, tagOf w + k % 64 * 2 ^ 16 + opcodeOf w * 2 ^ 22
        + 2 * 2 ^ 48 + r % 16 * 2 ^ 52 + e.srn.index % 16 * 2 ^ 56, 0, 0, 0, 0] } }, q⟩) ∧
  (∀ (n : Nat) (t : Task) (d : Dev) (q : List Instr), d.pwr.stopping = false → n < d.engines → (tget d.ope.eng n).st = .enabled →
    (tget d.ope.eng n).chunk = none →
    (sortBy (·.deadline) (d.ope.tasks.filter fun t => decide (t.next < t.chunks))).head? = some t →
    exec (.chunkStart n) ⟨d, q⟩ = .next ⟨snpStart t.entry ((chunkLines t t.next).filter fun k => decide (k / 2 ^ 38 = d.srn.index))
      (taskMod t.entry (fun t => { t with next := t.next + 1 }) { d with
        ope.eng := tmod d.ope.eng n fun x => { x with chunk := some (t.entry, t.next) } }), q⟩) ∧
  (∀ (n id i : Nat) (ts : Trouble) (t : Task) (g : Tab Line) (o : ChunkOut) (d e f h : Dev) (q : List Instr),
    (tget d.ope.eng n).chunk = some (id, i) → taskGet d id = some t → stalled t d = false →
    (d.ope.asking.any fun x => decide (x.1 = id) && (chunkLines t i).any fun k => decide (k / 64 % 2 ^ 32 = x.2)) = false → opcodeOf t.qw ≠ 8 →
    probesWait (chunkFronds d (chunkLines t i)) d = (false, e) → engLines t ts (chunkLines t i) 0 [] e = (none, g, f) →
    h = { f with
      ope.eng := tmod f.ope.eng n fun x => { x with chunk := none, chunks := x.chunks + 1 }
      ope.cnt := bump (bump f.ope.cnt 10) 11 (chunkLines t i).length } → o = chunkWork h g t i → o.copy = none →
    exec (.chunkEnd n ts none) ⟨d, q⟩ = .next ⟨taskCheck t.entry (taskOut t.entry o.items (taskMod t.entry (fun y => { y with
      done := y.done + 1
      examined := y.examined + o.examined
      result := y.result + o.result
      bytesLeft := y.bytesLeft - (if opcodeOf t.qw = 3 then 64 * (chunkLines t i).length else (chunkSpan t i).2)
      crcs := tset y.crcs i o.crc
      groups := o.groups.foldl (fun g x => tmod g x.1 fun z => Grp.merge (colOf (bits (t.q 13) 31 16)).signed z x.2) y.groups }) h)), q⟩) ∧
  (∀ (n id i k m st : Nat) (ts : Trouble) (scr : Option Nat) (t : Task) (g : Tab Line) (d e f : Dev) (q : List Instr),
    (tget d.ope.eng n).chunk = some (id, i) → taskGet d id = some t → stalled t d = false →
    (d.ope.asking.any fun x => decide (x.1 = id) && (chunkLines t i).any fun k => decide (k / 64 % 2 ^ 32 = x.2)) = false → opcodeOf t.qw ≠ 8 →
    probesWait (chunkFronds d (chunkLines t i)) d = (false, e) → engLines t ts (chunkLines t i) 0 [] e = (some (k, m, st), g, f) →
    exec (.chunkEnd n ts scr) ⟨d, q⟩ = .next ⟨taskStop id st 0 f.srn.index (if opcodeOf t.qw = 3 then k * 64 else max (k * 64) t.lo)
      { f with ope.cnt := bump f.ope.cnt 11 m }, q⟩) ∧
  (∀ (n id i x : Nat) (ts : Trouble) (t : Task) (g : Tab Line) (d e f : Dev) (q : List Instr),
    (tget d.ope.eng n).chunk = some (id, i) → taskGet d id = some t → stalled t d = false →
    (d.ope.asking.any fun x => decide (x.1 = id) && (chunkLines t i).any fun k => decide (k / 64 % 2 ^ 32 = x.2)) = false → opcodeOf t.qw ≠ 8 →
    probesWait (chunkFronds d (chunkLines t i)) d = (false, e) → engLines t ts (chunkLines t i) 0 [] e = (none, g, f) →
    exec (.chunkEnd n ts (some x)) ⟨d, q⟩ = .next ⟨taskStop id 3 0 f.srn.index (x % 2 ^ 63 + 2 ^ 63) f, q⟩) ∧
  (∀ (id : Nat) (t : Task) (x : Rq) (m : Tab Rq) (d : Dev) (q : List Instr), taskGet d id = some t → t.sub = none → t.subs = [] →
    m = tmod d.ope.rq (rqOf t.qw) (fun r => { r with waiting := r.waiting.map fun p => if p.entry = id then voidPacket p else p }) →
    x = tget m (rqOf t.qw) → x.waiting = [] → x.words.length + 6 ≤ rqCap x → t.tagWords = [] → msiOf t.qw = false →
    d.ope.lateSec = (max d.time t.deadline) / 100000000 + 1 →
    exec (.deadlineExpiry id) ⟨d, q⟩ = .next ⟨{ d with
      time := max d.time t.deadline
      ope.tasks := d.ope.tasks.filter (·.entry ≠ id)
      ope.eng := tmap d.ope.eng fun _ e => if (e.chunk.map (·.1)) = some id then { e with chunk := none } else e
      ope.asking := d.ope.asking.filter fun y => y.1 ≠ id
      cph.queue := d.cph.queue.filter fun r => r.origin ≠ .engine id
      cph.cnt := if (d.cph.queue.filter fun r => decide (r.origin = .engine id)).length = 0 then d.cph.cnt
        else bump d.cph.cnt 2 (d.cph.queue.filter fun r => decide (r.origin = .engine id)).length
      ope.cnt := bump (bump d.ope.cnt 13 ((tget d.ope.rq (rqOf t.qw)).waiting.filter fun p => p.entry = id).length) 3
      ope.rq := tset m (rqOf t.qw) { x with words := x.words ++ [6 + 2 ^ 14,
        tagOf t.qw + t.tq % 64 * 2 ^ 16 + opcodeOf t.qw * 2 ^ 22 + t.pseq % 65536 * 2 ^ 32 + 1 * 2 ^ 48 + d.srn.index % 16 * 2 ^ 56,
        0, t.examined, 0, t.result] } }, q⟩) ∧
  (∀ (n : Nat) (c : Option (Nat × Nat)) (d e : Dev) (q : List Instr), n < d.engines → c = (tget d.ope.eng n).chunk →
    e = post 0x8008 3 n ((c.map (·.1)).getD 0) 0 0 { d with ope.eng := tmod d.ope.eng n fun x => { x with st := .faulted, chunk := none } } →
    exec (.engineFaulted n) ⟨d, q⟩ = .next ⟨match c with
      | some (id, _) => taskStop id 5 4 d.srn.index 0 e
      | none => e, q⟩) ∧
  (∀ (k : Nat) (t : Task) (d : Dev) (q : List Instr), blockOn 8 d = true → k < queues d → d.ope.tasks = [t] → t.tq = k → t.sub = none →
    exec (.opeTqCtlAbort k) ⟨d, q⟩ = .next ⟨taskStop t.entry 5 1 d.srn.index 0 d, q⟩)

/-- Enables and result queues (R318–R322): clearing EN of a busy unit leaves it Draining, of an idle one Disabled; EN set while it
drains is latched; the drain's end applies the latch; the words of a waiting packet enter when there is room, with its vector when it
asks for one, and a LAST packet that enters before its deadline ends its task OK; an RD write inside the words consumes them, one past
them is ignored. -/
def Obligations.EnablesAndQueues : Prop :=
  (∀ (n : Nat) (en : Bool) (x : Eng) (d : Dev) (q : List Instr), blockOn 8 d = true → n < d.engines → x = tget d.ope.eng n →
    exec (.opeEngEn n en) ⟨d, q⟩ = .next ⟨{ d with ope.eng := tset d.ope.eng n { x with en, st := match x.st, en with
      | .enabled, true => .enabled | .enabled, false => if x.chunk = none then .disabled else .draining
      | .pending, true => .pending | .pending, false => .draining
      | .draining, true => .pending | .draining, false => .draining
      | .disabled, true => .enabled | .disabled, false => .disabled
      | .faulted, _ => .faulted } }, q⟩) ∧
  (∀ (n : Nat) (x : Tq) (d : Dev) (q : List Instr), blockOn 8 d = true → n < queues d → x = tget d.ope.tq n → x.st = .enabled →
    exec (.opeTqCtlEn n false) ⟨d, q⟩ = .next ⟨{ d with ope.tq := tset d.ope.tq n { x with
      st := if x.head = x.tail ∧ ∀ t ∈ d.ope.tasks, t.sub = none → t.tq ≠ n then .disabled else .draining } }, q⟩) ∧
  (∀ (n : Nat) (x : Tq) (d : Dev) (q : List Instr), blockOn 8 d = true → n < queues d → x = tget d.ope.tq n → x.st = .draining →
    exec (.opeTqCtlEn n true) ⟨d, q⟩ = .next ⟨{ d with ope.tq := tset d.ope.tq n { x with st := .pending } }, q⟩) ∧
  (∀ (n : Nat) (x : Rq) (d : Dev) (q : List Instr), blockOn 8 d = true → n < queues d → x = tget d.ope.rq n → x.st = .enabled →
    exec (.opeRqCfgEn n false) ⟨d, q⟩ = .next ⟨{ d with ope.rq := tset d.ope.rq n { x with
      st := if ∀ t ∈ d.ope.tasks, t.sub = none → rqOf t.qw ≠ n then .disabled else .draining } }, q⟩) ∧
  (∀ (n : Nat) (x : Rq) (d : Dev) (q : List Instr), blockOn 8 d = true → n < queues d → x = tget d.ope.rq n → x.st = .disabled →
    exec (.opeRqCfgEn n true) ⟨d, q⟩ = .next ⟨{ d with ope.rq := tset d.ope.rq n { x with st := .enabled } }, q⟩) ∧
  (∀ (n : Nat) (x : Eng) (d : Dev) (q : List Instr), x = tget d.ope.eng n → x.chunk = none → x.st = .draining →
    exec (.unitDrainEnd (.engine n)) ⟨d, q⟩ = .next ⟨{ d with ope.eng := tset d.ope.eng n { x with st := .disabled } }, q⟩) ∧
  (∀ (n : Nat) (x : Tq) (d : Dev) (q : List Instr), x = tget d.ope.tq n → x.head = x.tail → d.ope.tasks = [] → x.st = .pending →
    exec (.unitDrainEnd (.taskQueue n)) ⟨d, q⟩ = .next ⟨{ d with ope.tq := tset d.ope.tq n { x with st := .enabled } }, q⟩) ∧
  (∀ (n : Nat) (x : Rq) (p : QPkt) (d e : Dev) (q : List Instr), x = tget d.ope.rq n → x.waiting = [p] → p.last = false →
    x.words.length + p.words.length ≤ rqCap x →
    e = { d with ope.rq := tset d.ope.rq n { x with words := x.words ++ p.words, waiting := [] } } →
    exec (.resultQueueStallEnd n) ⟨d, q⟩ = .next ⟨if p.msi = true then emit (.msix x.vec) e else e, q⟩) ∧
  (∀ (n : Nat) (x : Rq) (p : QPkt) (t : Task) (d e g : Dev) (q : List Instr), x = tget d.ope.rq n → x.waiting = [p] → p.last = true →
    x.words.length + p.words.length ≤ rqCap x → taskGet d p.entry = some t → d.time < t.deadline →
    e = { d with ope.rq := tset d.ope.rq n { x with words := x.words ++ p.words, waiting := [] } } →
    g = (if p.msi = true then emit (.msix x.vec) e else e) →
    exec (.resultQueueStallEnd n) ⟨d, q⟩ = .next ⟨taskDrop p.entry { g with ope.cnt := bump g.ope.cnt 2 }, q⟩) ∧
  (∀ (n rd ce k : Nat) (x : Rq) (d : Dev) (q : List Instr), blockOn 8 d = true → n < queues d → x = tget d.ope.rq n → rd < rqMod x →
    rqMod x ≤ 2 ^ 24 → k = (rd + rqMod x - x.rd % rqMod x) % rqMod x → k ≤ x.words.length →
    exec (.opeRqPtrRd n rd ce []) ⟨d, q⟩ = .next ⟨{ d with
      ope.rq := tset d.ope.rq n { x with rd, words := x.words.drop k, ce := x.ce + ce, ueMask := 0 }
      ope.cnt := bump d.ope.cnt 15 ce }, q⟩) ∧
  (∀ (n rd ce : Nat) (x : Rq) (bad : List Nat) (d : Dev) (q : List Instr), blockOn 8 d = true → n < queues d → x = tget d.ope.rq n →
    rd < rqMod x → rqMod x ≤ 2 ^ 24 → x.words.length < (rd + rqMod x - x.rd % rqMod x) % rqMod x →
    exec (.opeRqPtrRd n rd ce bad) ⟨d, q⟩ = .next ⟨d, q⟩)

/-- Sub-tasks over the ring (R312–R314): an accepted TASK cell is admitted once and acknowledged, or ended with BUSY by TASK_END;
CREDIT lets waiting result cells go, or is acknowledged; ABORT drops the sub-task, and its cipher request with it; a RESULT cell's
words become a packet with PEER, or are merged into an aggregation's groups, and every eighth cell returns eight credits; TASK_END
with status OK ends the sub-task and its task goes on, one that reports fewer cells than were sent loses the sub-task and ends the
task ABORTED, and one with another status ends the task with it. -/
def Obligations.SubTasks : Prop :=
  (∀ (c : Cell) (w : List Nat) (l : List (Nat × Nat)) (d e g h : Dev) (id : Nat) (q : List Instr), acceptCell c 0x08 true d = (true, e) →
    e.pwr.dumping = false → e.pwr.stopping = false → isMember e = true → subTask e c.src c.tag = none → w.length = 16 →
    g = { e with ope.cnt := bump e.ope.cnt 8 } →
    admitReason g.ope.set g 0 w l (e.time + w.getD 1 0 - e.ope.set.margin) true = none →
    taskAdmit g.ope.set 0 w (some (c.src, c.tag)) l (e.time + w.getD 1 0 - e.ope.set.margin) g = (id, h) →
    exec (.task c w l) ⟨d, q⟩ = .next ⟨taskCheck id (cellTo 0x09 c.src c.tag 0 0 [] h), q⟩) ∧
  (∀ (c : Cell) (w : List Nat) (l : List (Nat × Nat)) (r : Nat) (d e g : Dev) (q : List Instr), acceptCell c 0x08 true d = (true, e) →
    e.pwr.dumping = false → e.pwr.stopping = false → isMember e = true → subTask e c.src c.tag = none → w.length = 16 →
    g = { e with ope.cnt := bump e.ope.cnt 8 } →
    admitReason g.ope.set g 0 w l (e.time + w.getD 1 0 - e.ope.set.margin) true = some r →
    exec (.task c w l) ⟨d, q⟩ = .next ⟨cellTo 0x0A c.src c.tag 0 (2 + r * 16) [0, 0, 0, 0, 0] (cellTo 0x09 c.src c.tag 0 0 []
      (postIf (decide (e.ope.refSec ≠ e.time / 100000000 + 1)) 0x8001 0 0 r (tagOf w) 1
        { g with ope.cnt := bump g.ope.cnt 1, ope.refSec := e.time / 100000000 + 1 })), q⟩) ∧
  (∀ (c : Cell) (w : List Nat) (l : List (Nat × Nat)) (t : Task) (d e : Dev) (q : List Instr), acceptCell c 0x08 true d = (true, e) →
    e.pwr.dumping = false → e.pwr.stopping = false → isMember e = true → subTask e c.src c.tag = some t →
    exec (.task c w l) ⟨d, q⟩ = .next ⟨cellTo 0x09 c.src c.tag 0 0 [] e, q⟩) ∧
  (∀ (c : Cell) (n k : Nat) (t : Task) (d e g : Dev) (q : List Instr), acceptCell c 0x08 true d = (true, e) → subTask e c.src c.tag = some t →
    cellsFlush t.entry (taskMod t.entry (fun t => { t with credits := t.credits + n }) e) = (k, g) →
    exec (.credit c n) ⟨d, q⟩ = .next ⟨taskCheck t.entry (if k = 0 then cellTo 0x09 c.src c.tag 0 0 [] g else g), q⟩) ∧
  (∀ (c : Cell) (t : Task) (d e : Dev) (q : List Instr), acceptCell c 0x08 true d = (true, e) → subTask e c.src c.tag = some t →
    exec (.abort c) ⟨d, q⟩ = .next ⟨cellTo 0x09 c.src c.tag 0 0 [] (post 0x8004 1 t.tq 5 (tagOf t.qw) 0 { e with
      ope.cnt := bump e.ope.cnt 6
      cph.cnt := if (e.cph.queue.filter fun r => decide (r.origin = .engine t.entry)).length = 0 then e.cph.cnt
        else bump e.cph.cnt 2 (e.cph.queue.filter fun r => decide (r.origin = .engine t.entry)).length
      ope.tasks := e.ope.tasks.filter (·.entry ≠ t.entry)
      ope.eng := tmap e.ope.eng fun _ x => if (x.chunk.map (·.1)) = some t.entry then { x with chunk := none } else x
      ope.asking := e.ope.asking.filter fun x => x.1 ≠ t.entry
      cph.queue := e.cph.queue.filter fun r => r.origin ≠ .engine t.entry }), q⟩) ∧
  (∀ (c : Cell) (w ws : List Nat) (t : Task) (s : Sub) (d e g : Dev) (q : List Instr), acceptCell c 0x09 true d = (true, e) →
    subOf e c.src c.tag = some (t, s) → s.ended = false → ws = (w.drop 2).take (min 30 c.status) → ws ≠ [] →
    g = (if opcodeOf t.qw = 4 then taskMod t.entry (fun y => { y with groups := (groupsOf ws).foldl (fun g x =>
          tmod g x.1 fun z => Grp.merge (colOf (bits (t.q 13) 31 16)).signed z x.2) y.groups })
          (subMod t.entry c.tag (fun x => { x with acked := true }) e)
      else (rqPush (rqOf t.qw) { entry := t.entry, last := false, words := (ws.length + 3 + 2 ^ 15) :: (tagOf t.qw + t.tq % 64 * 2 ^ 16
          + opcodeOf t.qw * 2 ^ 22 + bits (w.getD 0 0) 47 32 * 2 ^ 32 + c.src % 16 * 2 ^ 56) :: w.getD 1 0 :: ws }
        (subMod t.entry c.tag (fun x => { x with acked := true }) e)).2) →
    exec (.result c w) ⟨d, q⟩ = .next ⟨if 8 ≤ s.uncred + 1 then
        cellTo 0x08 c.src c.tag 0 0 [0xF0, s.uncred + 1] (subMod t.entry c.tag (fun x => { x with
          cells := x.cells + 1, uncred := 0, acked := false, attempts := 1, limit := g.srn.attempts, payload := [0xF0, s.uncred + 1] }) g)
      else subMod t.entry c.tag (fun x => { x with cells := x.cells + 1, uncred := s.uncred + 1 }) g, q⟩) ∧
  (∀ (c : Cell) (cells examined word fault bytes : Nat) (tag : List Nat) (t : Task) (s : Sub) (d e g : Dev) (q : List Instr),
    acceptCell c 0x0A true d = (true, e) → subOf e c.src c.tag = some (t, s) → s.ended = false →
    g = taskMod t.entry (fun t => { t with
      examined := t.examined + examined
      tagWords := if tag = [] then t.tagWords else tag
      result := if opcodeOf t.qw = 7 ∧ hmodeOf t.qw = 0 then t.result else t.result + word })
      (subMod t.entry c.tag (fun s => { s with ended := true, acked := true, bytes, crc := word }) e) →
    exec (.taskEnd c cells examined word fault bytes tag) ⟨d, q⟩ = .next ⟨
      if c.status % 16 ≠ 0 then taskStop t.entry (c.status % 16) (if c.status % 16 = 2 then 9 else c.status / 16 % 16) c.src fault g
      else if s.cells < cells then taskStop t.entry 5 3 s.owner 0
        (post 0x8005 2 s.owner s.tag cells s.cells { g with ope.cnt := bump g.ope.cnt 9 })
      else taskCheck t.entry g, q⟩)

/-- The clear of each block (R13, R62, R90, R115, R147, R176, R208, R240, R264, R297, R324, R338, R361, R381, R401, R449): while the
block takes accesses, a CNT_CLR write leaves every counter of its block at zero, with the peaks and masks cleared beside them and
nothing else; XTRM_CLR and OVR_CLR clear the ledger's extremes and overruns, CACHE_INVAL every frond-cache way; while the block takes
none, the write is ignored. -/
def Obligations.CounterClears : Prop :=
  (∀ (b : Nat) (i : Instr) (d : Dev) (q : List Instr), (b, i) ∈ [(1, Instr.ldgCtlXtrmClr), (1, .ldgCtlOvrClr), (1, .mapCtlCntClr),
      (1, .mapCtlCacheInval), (2, .cshCtlCntClr), (3, .medRdCtlCntClr), (3, .medCtlCntClr), (4, .stwCtlCntClr), (5, .secCtlCntClr),
      (6, .hstCtlCntClr), (7, .srnCtlCntClr), (8, .opeCtlCntClr), (9, .cphCtlCntClr), (10, .mbxCtlCntClr), (10, .pstCtlCntClr),
      (10, .bflCtlCntClr), (12, .evrCtlCntClr), (14, .pwrCtlCntClr), (14, .thmCtlCntClr)] → blockOn b d = false →
    exec i ⟨d, q⟩ = .next ⟨d, q⟩) ∧
  (∀ (d : Dev) (q : List Instr), blockOn 1 d = true →
    exec .ldgCtlXtrmClr ⟨d, q⟩ = .next ⟨{ d with ldg.xtrmMax := [], ldg.xtrmExc := [] }, q⟩ ∧
    exec .ldgCtlOvrClr ⟨d, q⟩ = .next ⟨{ d with ldg.ovr := [], ldg.envMiss := 0 }, q⟩ ∧
    exec .mapCtlCntClr ⟨d, q⟩ = .next ⟨{ d with map.cnt := [] }, q⟩ ∧
    exec .mapCtlCacheInval ⟨d, q⟩ = .next ⟨{ d with map.cache := [] }, q⟩) ∧
  (∀ (d : Dev) (q : List Instr), blockOn 2 d = true → exec .cshCtlCntClr ⟨d, q⟩ = .next ⟨{ d with csh.cnt := [] }, q⟩) ∧
  (∀ (d : Dev) (q : List Instr), blockOn 3 d = true →
    exec .medRdCtlCntClr ⟨d, q⟩ = .next ⟨{ d with rp.cnt := [], rp.full := 0 }, q⟩ ∧
    exec .medCtlCntClr ⟨d, q⟩ = .next ⟨{ d with med.cnt := [], med.peak := 0 }, q⟩) ∧
  (∀ (d : Dev) (q : List Instr), blockOn 4 d = true → exec .stwCtlCntClr ⟨d, q⟩ = .next ⟨{ d with stw.cnt := [], stw.dropped := [] }, q⟩) ∧
  (∀ (d : Dev) (q : List Instr), blockOn 5 d = true → exec .secCtlCntClr ⟨d, q⟩ = .next ⟨{ d with sec.cnt := [] }, q⟩) ∧
  (∀ (d : Dev) (q : List Instr), blockOn 6 d = true → exec .hstCtlCntClr ⟨d, q⟩ = .next ⟨{ d with hst.cnt := [], hst.sfPeak := 0 }, q⟩) ∧
  (∀ (d : Dev) (q : List Instr), blockOn 7 d = true → exec .srnCtlCntClr ⟨d, q⟩ = .next ⟨{ d with srn.cnt := [] }, q⟩) ∧
  (∀ (d : Dev) (q : List Instr), blockOn 8 d = true → exec .opeCtlCntClr ⟨d, q⟩ =
    .next ⟨{ d with ope.cnt := [], ope.rq := tmap d.ope.rq fun _ r => { r with ce := 0, ue := 0 } }, q⟩) ∧
  (∀ (d : Dev) (q : List Instr), blockOn 9 d = true → exec .cphCtlCntClr ⟨d, q⟩ = .next ⟨{ d with cph.cnt := [], cph.peak := 0 }, q⟩) ∧
  (∀ (d : Dev) (q : List Instr), blockOn 10 d = true →
    exec .mbxCtlCntClr ⟨d, q⟩ = .next ⟨{ d with mbx.cnt := [] }, q⟩ ∧
    exec .pstCtlCntClr ⟨d, q⟩ = .next ⟨{ d with pst.cnt := [] }, q⟩ ∧
    exec .bflCtlCntClr ⟨d, q⟩ = .next ⟨{ d with bfl.cnt := [] }, q⟩) ∧
  (∀ (d : Dev) (q : List Instr), blockOn 12 d = true → exec .evrCtlCntClr ⟨d, q⟩ = .next ⟨{ d with evr.cnt := [] }, q⟩) ∧
  (∀ (d : Dev) (q : List Instr), blockOn 14 d = true →
    exec .pwrCtlCntClr ⟨d, q⟩ = .next ⟨{ d with pwr.pwrCnt := [] }, q⟩ ∧
    exec .thmCtlCntClr ⟨d, q⟩ = .next ⟨{ d with pwr.thmCnt := [] }, q⟩)

/-- Register writes (R13, R16, R34, R62, R63, R90, R147, R176, R264, R343, R401): LDG_BUD takes a budget up to its design value and
records a larger one; MAP_PEEK latches its frond's entry when its map line passes, for one read of the line; the 64-bit writes of LDG's
DevLoad thresholds, CSH's destage floors, HST's snoop-filter thresholds, EVR's read sequence and a task-queue slot take effect as their
registers say, one that breaks its register's order is ignored whole; a write of the wrong size or alignment is recorded and does
nothing else; a block that takes no accesses ignores every write; a read answers its register, half of it for a 32-bit access, which is
recorded, and a read of MBX_PROGRESS latches DONE and TOTAL besides. -/
def Obligations.RegisterWrites : Prop :=
  (∀ (n v : Nat) (d : Dev) (q : List Instr), blockOn 1 d = true → n < 8 → v ≤ budDesign n →
    exec (.ldgBudBudget n v) ⟨d, q⟩ = .next ⟨{ d with ldg.bud := d.ldg.bud.set n v }, q⟩) ∧
  (∀ (n v : Nat) (d : Dev) (q : List Instr), blockOn 1 d = true → n < 8 → v < 1024 → budDesign n < v →
    exec (.ldgBudBudget n v) ⟨d, q⟩ = .next ⟨post 0x3012 1 n v (budDesign n) 0 d, q⟩) ∧
  (∀ (f : Nat) (d e : Dev) (q : List Instr), blockOn 1 d = true → f < 2 ^ 32 → lineHeld d f = false → formMask d (mapLine f) = 0 →
    e = mapBurst 5 f { d with map.peek := f, map.peekValid := false, map.peekWait := false } →
    exec (.mapPeekFrond f) ⟨d, q⟩ = .next ⟨{ e with
      map.peekEnt := mapGet d f
      map.peekSeq := tget d.map.seq (mapLine f)
      map.peekValid := true
      map.peekWait := false }, q⟩) ∧
  (∀ (v : W64) (uo um oo om : Nat) (d : Dev) (q : List Instr), blockOn 1 d = true → uo = bits v.toNat 6 0 → um = bits v.toNat 14 8 →
    oo = bits v.toNat 22 16 → om = bits v.toNat 30 24 →
    exec (.registerWrite 0x1001A0 8 v) ⟨d, q⟩ = .next ⟨if uo < um ∧ oo < om ∧ um ≤ 100 ∧ om ≤ 100 then
      { d with ldg.uOpt := uo, ldg.uMod := um, ldg.oOpt := oo, ldg.oMod := om } else d, q⟩) ∧
  (∀ (v : W64) (l m h r : Nat) (d : Dev) (q : List Instr), blockOn 2 d = true → l = bits v.toNat 11 0 → m = bits v.toNat 23 12 →
    h = bits v.toNat 35 24 → r = bits v.toNat 47 36 →
    exec (.registerWrite 0x200030 8 v) ⟨d, q⟩ = .next ⟨if l ≤ m ∧ m ≤ h ∧ h ≤ r ∧ r ≤ 1280 then
      { d with csh.fLow := l, csh.fMid := m, csh.fHigh := h, csh.fDrain := r } else d, q⟩) ∧
  (∀ (v : W64) (h l : Nat) (d : Dev) (q : List Instr), blockOn 6 d = true → h = bits v.toNat 12 0 → l = bits v.toNat 25 13 →
    exec (.registerWrite 0x600020 8 v) ⟨d, q⟩ = .next ⟨if l < h ∧ h ≤ 3840 then { d with hst.thHigh := h, hst.thLow := l } else d, q⟩) ∧
  (∀ (v : W64) (d : Dev) (q : List Instr), blockOn 12 d = true →
    exec (.registerWrite 0xC00020 8 v) ⟨d, q⟩ = .next ⟨{ d with evr.rdSeq := bits v.toNat 31 0 }, q⟩) ∧
  (∀ (v : W64) (i : Nat) (d : Dev) (q : List Instr), blockOn 8 d = true → i < 2048 → i / 256 < queues d →
    exec (.registerWrite (0x810000 + 8 * i) 8 v) ⟨d, q⟩ = .next ⟨{ d with ope.slots := tset d.ope.slots i v.toNat }, q⟩) ∧
  (∀ (off size : Nat) (v : W64) (d : Dev) (q : List Instr), 2 ^ 20 ≤ off → size ≠ 8 ∨ off % 8 ≠ 0 →
    exec (.registerWrite off size v) ⟨d, q⟩ = .next ⟨post 0x1041 1 off size 1 0 d, q⟩) ∧
  (∀ (off : Nat) (v : W64) (d : Dev) (q : List Instr), 2 ^ 20 ≤ off → off % 8 = 0 → blockOn (off / 2 ^ 20) d = false →
    exec (.registerWrite off 8 v) ⟨d, q⟩ = .next ⟨d, q⟩) ∧
  (∀ (off : Nat) (d : Dev) (q : List Instr), 2 ^ 20 ≤ off → off + 8 ≤ 2 ^ 24 → off % 8 = 0 →
    exec (.mbxProgressRead 8 off) ⟨d, q⟩ = .next ⟨emit (.reg off (regRead d off)) (if off = 0xA00018 then
      { d with mbx.latched := some (d.mbx.progDone, d.mbx.progTotal) } else d), q⟩) ∧
  (∀ (off : Nat) (d : Dev) (q : List Instr), 2 ^ 20 ≤ off → off + 4 ≤ 2 ^ 24 → off % 4 = 0 →
    exec (.mbxProgressRead 4 off) ⟨d, q⟩ = .next ⟨post 0x1041 1 off 4 0 0
      (emit (.reg off (regRead d (off / 8 * 8) / 2 ^ (8 * (off % 8)) % 2 ^ 32)) d), q⟩)

/-- Host partitions of the parameter store (R356, R363–R366, R369): PST_READ answers the rows' bytes, with Internal Error when a row
is lost, under the read password; a wrong password is recorded and held; PST_WRITE starts its first row when the supply holds, and
each committed row starts the next until the last; PST_SET_PASSWORD writes the control row of its password, whose digest is laid out as
log entry 93 says; PST_GET_INFO answers each partition's write count; a row of the node's own is committed and the next starts. -/
def Obligations.ParameterStore : Prop :=
  (∀ (tr : Transport) (p bs : List Byte) (lost : Bool) (d e : Dev) (q : List Instr), d.takes mNotH tr → p.length = 40 → byte p 1 = 0 →
    byte p 7 = 0 → byte p 6 ≤ 32 → 1 ≤ le p 4 2 → le p 4 2 ≤ 4032 → hostSpan (byte p 0) (le p 2 2) (le p 4 2) = true →
    pwOk d (byte p 0) 0 ((p.drop 8).take (byte p 6)) = true → rowsRead (byte p 0) (le p 2 2) (le p 4 2) d = (bs, lost, e) →
    exec (.pstRead tr p) ⟨d, q⟩ = .next ⟨if lost then cmdEnd tr 0xC600 0x0004 [] 0 false e else cmdEnd tr 0xC600 0 bs 0 false e, q⟩) ∧
  (∀ (tr : Transport) (p : List Byte) (d : Dev) (q : List Instr), d.takes mNotH tr → p.length = 40 → byte p 1 = 0 →
    byte p 7 = 0 → byte p 6 ≤ 32 → 1 ≤ le p 4 2 → le p 4 2 ≤ 4032 → hostSpan (byte p 0) (le p 2 2) (le p 4 2) = true →
    pwOk d (byte p 0) 0 ((p.drop 8).take (byte p 6)) = false →
    exec (.pstRead tr p) ⟨d, q⟩ = .next ⟨cmdRun tr 0xC600 (.hold rcPassword) 0 0
      (post 0x9001 1 (byte p 0) 0 (trCode tr) (d.mbx.pwFails + 1)
        { d with mbx.cnt := bump d.mbx.cnt 7, mbx.pwFails := d.mbx.pwFails + 1 }), q⟩) ∧
  (∀ (tr : Transport) (p : List Byte) (rows : Nat) (d : Dev) (q : List Instr), d.takes mSDTM tr → p.length = 40 + 32 * rows → byte p 1 = 0 →
    byte p 7 = 0 → byte p 6 ≤ 32 → 1 ≤ rows → rows ≤ 32 → le p 4 2 = 32 * rows → le p 2 2 % 32 = 0 →
    hostSpan (byte p 0) (le p 2 2) (le p 4 2) = true → pwOk d (byte p 0) 1 ((p.drop 8).take (byte p 6)) = true →
    byte p 0 ∉ d.pst.worn → d.pst.writing = false → supplyOk d = true → ∃ e : Dev,
    e = cmdRun tr 0xC601 (.pstWrite (byte p 0) (le p 2 2 / 32) rows (p.drop 40)) 3 rows d ∧
    exec (.pstWrite tr p) ⟨d, q⟩ = .next ⟨{ e with pst.writing := true, pst.hostRow := true }, q⟩) ∧
  (∀ (part row : Nat) (data : List Byte) (r : Running) (d e : Dev) (q : List Instr), d.pst.writing = true → d.pst.hostRow = true →
    d.mbx.run = some r → r.job = .pstWrite part row (r.done + 1) data → r.opcode = 0xC601 →
    e = fwWrite (.host part row (BitVec.ofNat 256 (le data 0 32))) { d with pst.writing := false, pst.hostRow := false } →
    exec .pstRowWriteDone ⟨d, q⟩ = .next ⟨progSet { r with done := r.done + 1, job := .hold rcOk } (msOf (e.time - r.startT))
      { e with mbx.run := some { r with done := r.done + 1, job := .hold rcOk } }, q⟩) ∧
  (∀ (part row n : Nat) (data : List Byte) (r s : Running) (d e : Dev) (q : List Instr), d.pst.writing = true → d.pst.hostRow = true →
    d.mbx.run = some r → r.job = .pstWrite part row n data → r.done + 1 ≠ n →
    s = { r with done := r.done + 1, job := .pstWrite part (row + 1) n (data.drop 32) } →
    e = fwWrite (.host part row (BitVec.ofNat 256 (le data 0 32))) { d with pst.writing := false, pst.hostRow := false } →
    exec .pstRowWriteDone ⟨d, q⟩ = .next ⟨hostRowStart (progSet s (msOf (e.time - r.startT)) { e with mbx.run := some s }), q⟩) ∧
  (∀ (w : FwWrite) (l : List FwWrite) (d e : Dev) (q : List Instr), d.pst.writing = true → d.pst.hostRow = false → d.pst.fwq = w :: l →
    (∀ s, w ≠ .marker (some s)) → e = fwWrite w { d with pst.fwq := l, pst.writing := false } → pstBusy e = false →
    exec .pstRowWriteDone ⟨d, q⟩ = .next ⟨pstStart e, q⟩) ∧
  (∀ (tr : Transport) (p : List Byte) (h : BitVec 256) (d e : Dev) (q : List Instr), d.takes mSM tr → p.length = 72 → 12 ≤ byte p 0 →
    byte p 0 ≤ 15 → byte p 1 < 2 → byte p 2 ≤ 32 → 8 ≤ byte p 3 → byte p 3 ≤ 32 → zeros p 4 4 = true →
    pwOk d (byte p 0) 1 ((p.drop 8).take (byte p 2)) = true → byte p 0 ∉ d.pst.worn → supplyOk d = true →
    h = pwDigest d (byte p 0) (byte p 1) ((p.drop 40).take (byte p 3)) →
    e = fwWrite (.host (byte p 0) (1020 + byte p 1) h) d →
    exec (.pstSetPassword tr p) ⟨d, q⟩ = .next ⟨cmdEnd tr 0xC602 0 [] 0 false (if byte p 1 = 0 then
      { e with pst.rpw := tset e.pst.rpw (byte p 0) (some h) } else { e with pst.wpw := tset e.pst.wpw (byte p 0) (some h) }), q⟩) ∧
  (∀ (tr : Transport) (d : Dev) (q : List Instr), d.takes mAll tr →
    exec (.pstGetInfo tr []) ⟨d, q⟩ = .next ⟨cmdEnd tr 0xC603 0 ((List.range 16).flatMap fun n =>
      toLe 8 (min (tget d.pst.maxCount n) (2 ^ 32 - 1) + (if n ∈ d.pst.worn then 2 ^ 32 else 0) + (if 12 ≤ n then 2 ^ 33 else 0))) 0 false d, q⟩)

/-- The boot flash (R345, R357, R371–R378, R389): an erase that is verified leaves its sector erased and its marker cleared, one that
fails is recorded and runs again; the page program stores its records, or is recorded when it fails, and the page after the last of a
sector asks for the next sector's erase; the timer starts a page program, suspending an erase; the marker of an erase that waits is
asked again; the supply sets the wait states; Transfer FW of a first part invalidates its slot, asks for its sectors' erases and runs,
and a later part in order runs; Activate FW stages a valid slot; FW_WP# ends a part with WRITE_PROTECTED; the queries answer the images'
facts and the log's bytes; SET_MIN_SECURITY_VERSION raises the minimum within the running image's. -/
def Obligations.BootFlash : Prop :=
  (∀ (s : Nat) (d : Dev) (q : List Instr), d.bfl.erasing = some s →
    exec (.flashEraseDone true) ⟨d, q⟩ = .next ⟨flashKick (eraseNext (fwPut (.marker none) { d with
      bfl.erasing := none
      bfl.suspended := false
      bfl.img := d.bfl.img.filter fun x => x.1 / 65536 ≠ s
      bfl.log := d.bfl.log.filter fun x => x.1 / 65536 ≠ s })), q⟩ ∧
    exec .flashEraseResume ⟨d, q⟩ = .next ⟨if d.bfl.programming then d else { d with bfl.suspended := false }, q⟩) ∧
  (∀ (s : Nat) (d e : Dev) (q : List Instr), d.bfl.erasing = some s → (d.bfl.wp = false ∨ 784 ≤ s) → e = post 0x9023 2 (s * 65536) 1 0 0 d →
    exec (.flashEraseDone false) ⟨d, q⟩ = .next ⟨{ e with
      bfl.eraseQ := d.bfl.eraseQ.filter (· ≠ s)
      bfl.erasing := some s, bfl.suspended := false, bfl.cnt := bump d.bfl.cnt 0 }, q⟩) ∧
  (∀ (ok : Bool) (w : Nat) (d e g : Dev) (q : List Instr), d.bfl.programming = true →
    e = (if ok = true then logProgram d.bfl.wptr (d.bfl.page.flatMap Rec.bytes) { d with
      evr.flashQ := d.evr.flashQ.drop d.bfl.page.length
      bfl.cnt := bump d.bfl.cnt 1
      evr.cnt := bump d.evr.cnt 5 d.bfl.page.length } else post 0x9023 2 d.bfl.wptr 0 0 0 d) →
    w = (if d.bfl.wptr + 256 = 0x4000000 then 0x3100000 else d.bfl.wptr + 256) →
    g = { e with bfl.wptr := w, bfl.page := [], bfl.programming := false } →
    exec (.flashPageProgramDone ok) ⟨d, q⟩ =
      .next ⟨flashKick (if w % 65536 = 0 then eraseAsk (nextSector (w / 65536)) g else g), q⟩) ∧
  (∀ (d : Dev) (q : List Instr), flashCanStart d = true →
    exec .flashLogTimer ⟨d, q⟩ = .next ⟨{ d with
      bfl.page := d.evr.flashQ.take 8
      bfl.programming := true
      bfl.suspended := d.bfl.erasing.isSome
      bfl.cnt := if (d.bfl.erasing.isSome && !d.bfl.suspended) = true then bump d.bfl.cnt 2 else d.bfl.cnt }, q⟩) ∧
  (∀ (s : Nat) (l : List Nat) (d : Dev) (q : List Instr), d.bfl.eraseQ = s :: l → d.bfl.wp = false → d.bfl.erasing = none →
    FwWrite.marker (some s) ∉ d.pst.fwq →
    exec .eraseMarkerRetry ⟨d, q⟩ = .next ⟨fwPut (.marker (some s)) d, q⟩) ∧
  (∀ (mv : Nat) (d : Dev) (q : List Instr), d.on = true →
    exec (.flashSupplyCrossing mv) ⟨d, q⟩ = .next ⟨{ d with
      bfl.supplyMv := mv
      bfl.div := if mv < 1700 then 2 else Config.flashClock % 3
      bfl.dummy := dummyFor (if mv < 1700 then 2 else Config.flashClock % 3) mv }, q⟩) ∧
  (∀ (tr : Transport) (p : List Byte) (a b c : Bool) (s : Nat) (d : Dev) (q : List Instr), d.takes mSDTM tr → 128 ≤ p.length → p.length ≤ 4096 →
    byte p 0 < 2 → s = byte p 1 → (s = 1 ∨ s = 2) → d.bfl.running ≠ s → d.bfl.wp = false → le p 4 4 = 0 → zeros p 2 2 = true → zeros p 8 120 = true →
    d.mbx.fwNext = none → secRefused 0 d = none →
    exec (.transferFw tr p a b c) ⟨d, q⟩ = .next ⟨cmdRun tr 0x0201 (.fwPart s 0 (decide (byte p 0 = 0)) (p.drop 128) a b c) 2 (p.drop 128).length
      ((sectorsOf (slotBase s) (p.drop 128).length).foldl (fun d s => eraseAsk s d) (fwWrite (.slotState s 2) d)), q⟩) ∧
  (∀ (tr : Transport) (p : List Byte) (a b c : Bool) (s off : Nat) (d : Dev) (q : List Instr), d.takes mSDTM tr → 128 ≤ p.length → p.length ≤ 4096 →
    (byte p 0 = 2 ∨ byte p 0 = 3) → s = byte p 1 → (s = 1 ∨ s = 2) → d.bfl.running ≠ s → d.bfl.wp = false → off = le p 4 4 * 128 →
    off + (p.drop 128).length ≤ 0x1800000 → zeros p 2 2 = true → zeros p 8 120 = true → d.mbx.fwNext = some (s, off) → secRefused 0 d = none →
    exec (.transferFw tr p a b c) ⟨d, q⟩ = .next ⟨cmdRun tr 0x0201 (.fwPart s off (decide (byte p 0 = 3)) (p.drop 128) a b c) 2 (p.drop 128).length
      ((sectorsOf (slotBase s + off) (p.drop 128).length).foldl (fun d s => eraseAsk s d) d), q⟩) ∧
  (∀ (tr : Transport) (p : List Byte) (d e : Dev) (q : List Instr), d.takes mSDTM tr → p.length = 2 → byte p 0 = 1 → byte p 1 = 1 ∨ byte p 1 = 2 →
    slotSt d (byte p 1) = 1 →
    d.pst.nv.minSec ≤ slotSec d (byte p 1) → secRefused 0 d = none → e = fwWrite (.preferred (byte p 1)) d →
    exec (.activateFw tr p true) ⟨d, q⟩ = .next ⟨cmdEnd tr 0x0202 0 [] 0 false { e with mbx.fwStaged := byte p 1 }, q⟩) ∧
  (∀ (tr : Transport) (p : List Byte) (d e : Dev) (q : List Instr), d.takes mM tr → p.length = 2 → byte p 0 = 0 → byte p 1 = 1 ∨ byte p 1 = 2 →
    slotSt d (byte p 1) = 1 →
    d.pst.nv.minSec ≤ slotSec d (byte p 1) → secRefused 0 d = none → e = fwWrite (.preferred (byte p 1)) d →
    exec (.activateFw tr p true) ⟨d, q⟩ = .next ⟨cmdRun tr 0x0202 (.activate (byte p 1)) 0 0 { e with mbx.fwStaged := byte p 1 }, q⟩) ∧
  (∀ (wp : Bool) (d : Dev) (q : List Instr), d.mbx.run = none ∨ wp = false →
    exec (.fwWpChange wp) ⟨d, q⟩ = .next ⟨{ d with bfl.wp := wp }, q⟩) ∧
  (∀ (slot off : Nat) (l a b c : Bool) (data : List Byte) (r : Running) (d : Dev) (q : List Instr), d.mbx.run = some r →
    r.job = .fwPart slot off l data a b c →
    exec (.fwWpChange true) ⟨d, q⟩ = .next ⟨cmdEnd r.tr r.opcode rcWp [] (msOf (d.time - r.startT)) r.lost
      (post 0x9020 1 slot 5 0 0 { d with bfl.wp := true, mbx.fwNext := none }), q⟩) ∧
  (∀ (tr : Transport) (d : Dev) (q : List Instr), d.takes mAll tr →
    exec (.getImageInfo tr []) ⟨d, q⟩ = .next ⟨cmdEnd tr 0xC700 0
      (toLe 1 d.bfl.state1 ++ toLe 1 (b2n (decide (d.bfl.running = 1))) ++ toLe 2 0 ++ toLe 4 d.bfl.sec1 ++ toLe 8 d.bfl.version1
        ++ (toLe 1 d.bfl.state2 ++ toLe 1 (b2n (decide (d.bfl.running = 2))) ++ toLe 2 0 ++ toLe 4 d.bfl.sec2 ++ toLe 8 d.bfl.version2)
        ++ toLe 4 d.pst.nv.minSec) 0 false d, q⟩) ∧
  (∀ (tr : Transport) (p : List Byte) (a n : Nat) (susp hit : Bool) (c : Cnt) (d : Dev) (q : List Instr), d.takes mNotH tr → p.length = 6 →
    a = 0x3000000 + le p 0 4 → n = le p 4 2 → 1 ≤ n → n ≤ 4064 → le p 0 4 + n ≤ 0x1000000 →
    susp = (d.bfl.erasing.isSome && !d.bfl.suspended) → c = (if susp = true then bump d.bfl.cnt 2 else d.bfl.cnt) →
    hit = (match d.bfl.erasing with
      | some s => decide (a / 65536 ≤ s) && decide (s ≤ (a + n - 1) / 65536)
      | none => false) →
    exec (.readFlashLog tr p) ⟨d, q⟩ = .next ⟨cmdEnd tr 0xC701 0
      ((List.range n).map fun i => if d.bfl.erasing = some ((a + i) / 65536) then 0xFF else flashByte d (a + i)) 0 false { d with
        bfl.suspended := d.bfl.suspended || susp
        bfl.cnt := if hit = true then bump c 3 else c }, q⟩) ∧
  (∀ (tr : Transport) (p : List Byte) (d : Dev) (q : List Instr), d.takes mSM tr → p.length = 4 → d.pst.nv.minSec ≤ le p 0 4 →
    le p 0 4 ≤ slotSec d d.bfl.running → secRefused 0 d = none →
    exec (.setMinSecurityVersion tr p) ⟨d, q⟩ = .next ⟨cmdEnd tr 0xC702 0 [] 0 false (fwWrite (.minSec (le p 0 4)) d), q⟩)

/-- Standard queries (R345–R348, R236): each, in the layouts of CXL 3.1 that log entry 6 presumes, answers Success with what the
rule gives and changes nothing else (the poison list keeps where the same request goes on): identity, firmware slots, the Command
Effects Log, health, alerts, event records and their interrupt policy, the TIME count plus the residual in ns, the poison list of a
span from the index or, in Transit, from the copy frozen at its entry, Scan Media's bound. -/
def Obligations.StandardQueries : Prop :=
  (∀ (tr : Transport) (d : Dev) (q : List Instr), d.takes mAll tr →
    exec (.identify tr []) ⟨d, q⟩ =
      .next ⟨cmdEnd tr 0x0001 0 (stdBytes 1 0 8 ++ toLe 8 d.pst.nv.serial ++ toLe 1 12 ++ toLe 1 3) 0 false d, q⟩ ∧
    exec (.identifyMemoryDevice tr []) ⟨d, q⟩ = .next ⟨cmdEnd tr 0x4000 0 (memoryDevice d) 0 false d, q⟩ ∧
    exec (.getFwInfo tr []) ⟨d, q⟩ = .next ⟨cmdEnd tr 0x0200 0
      (toLe 1 2 ++ toLe 1 (d.bfl.running + 8 * d.mbx.fwStaged) ++ toLe 1 1 ++ toLe 13 0 ++ stdBytes 8 0 64) 0 false d, q⟩ ∧
    exec (.getSupportedLogs tr []) ⟨d, q⟩ =
      .next ⟨cmdEnd tr 0x0400 0 (toLe 2 1 ++ toLe 6 0 ++ celUuid ++ toLe 4 (cel d).length) 0 false d, q⟩ ∧
    exec (.getHealthInfo tr []) ⟨d, q⟩ = .next ⟨cmdEnd tr 0x4200 0 (healthInfo d) 0 false d, q⟩ ∧
    exec (.getAlertConfiguration tr []) ⟨d, q⟩ = .next ⟨cmdEnd tr 0x4201 0 (alertConfig d) 0 false d, q⟩ ∧
    exec (.getEventInterruptPolicy tr []) ⟨d, q⟩ = .next ⟨cmdEnd tr 0x0102 0 ((List.range 4).flatMap fun i =>
      toLe 1 (d.mbx.policy.getD i 0 + (if d.mbx.policy.getD i 0 = 1 then 16 * (2 + i) else 0))) 0 false d, q⟩ ∧
    exec (.getTimestamp tr []) ⟨d, q⟩ =
      .next ⟨cmdEnd tr 0x0300 0 (toLe 8 (((d.time : Int) + d.mbx.residual).toNat * 10)) 0 false d, q⟩) ∧
  (∀ (tr : Transport) (p : List Byte) (d : Dev) (q : List Instr), d.takes mAll tr → p.length = 24 → p.take 16 = celUuid →
    le p 16 4 + le p 20 4 ≤ (cel d).length →
    exec (.getLog tr p) ⟨d, q⟩ = .next ⟨cmdEnd tr 0x0401 0 (((cel d).drop (le p 16 4)).take (le p 20 4)) 0 false d, q⟩) ∧
  (∀ (tr : Transport) (p : List Byte) (d : Dev) (q : List Instr), d.takes mAll tr → p.length = 1 → byte p 0 < 4 →
    exec (.getEventRecords tr p) ⟨d, q⟩ = .next ⟨cmdEnd tr 0x0100 0 (getEvents p d) 0 false d, q⟩) ∧
  (∀ (tr : Transport) (p : List Byte) (a n at0 : Nat) (ix : Tab (BitVec 64)) (ovf : Bool) (ls : List Nat) (d : Dev) (q : List Instr),
    d.takes mSDTM tr → p.length = 16 → a = le p 0 8 → n = le p 8 8 → a % 64 = 0 → spanOk d a n = true →
    (ix, ovf) = (if d.pwr.mode = .transit then d.sec.transitCopy.getD (d.sec.pidx, d.sec.povf) else (d.sec.pidx, d.sec.povf)) →
    (d.mbx.poisonNext = some (a, n, at0) ∨ (at0 = 0 ∧ ∀ k, d.mbx.poisonNext ≠ some (a, n, k))) →
    ls = (poisonIn ix a n).filter (fun k => decide (at0 ≤ k)) →
    exec (.getPoisonList tr p) ⟨d, q⟩ = .next ⟨cmdEnd tr 0x4300 0 (toLe 1 (b2n (decide (254 < ls.length)) + 2 * b2n ovf) ++ toLe 1 0
      ++ stdBytes 11 0 8 ++ toLe 2 (min 254 ls.length) ++ toLe 20 0 ++ (ls.take 254).flatMap fun k =>
        toLe 8 (d.srn.index * 2 ^ 44 + k * 64) ++ toLe 4 1 ++ toLe 4 0) 0 false
      { d with mbx.poisonNext := (ls[254]?).map fun k => (a, n, k) }, q⟩) ∧
  (∀ (tr : Transport) (p : List Byte) (d : Dev) (q : List Instr), d.takes mSDTM tr → p.length = 16 → le p 0 8 % 64 = 0 →
    spanOk d (le p 0 8) (le p 8 8) = true →
    exec (.getScanMediaCapabilities tr p) ⟨d, q⟩ =
      .next ⟨cmdEnd tr 0x4303 0 (toLe 4 ((le p 8 8 * 64 * 10000 + 2 ^ 40 - 1) / 2 ^ 40 + 1000)) 0 false d, q⟩)

/-- Standard settings (R345, R347, R348, R236): alerts take enables and thresholds where their action is valid; a clear drops a
log's records and its overflow, a handle the log lacks clears nothing; the interrupt policy is stored; Set Timestamp moves TIME by
a multiple of 3,900,000 ticks, not below 0, and keeps the rest as the residual; Scan Media runs over its span, and each read of its results takes the records it
returns. -/
def Obligations.StandardSettings : Prop :=
  (∀ (tr : Transport) (p : List Byte) (d : Dev) (q : List Instr), d.takes mAll tr → p.length = 12 → byte p 0 < 32 → byte p 1 < 32 →
    byte p 2 ≤ 100 → byte p 3 = 0 →
    exec (.setAlertConfiguration tr p) ⟨d, q⟩ = .next ⟨cmdEnd tr 0x4202 0 [] 0 false (alertEval { d with
      mbx.alertEn := (List.range 5).foldl (fun m i => m + 2 ^ i * b2n (if bit (byte p 0) i then bit (byte p 1) i else bit d.mbx.alertEn i)) 0
      mbx.alertTh := (List.range 5).map fun i => if bit (byte p 0) i then
        [byte p 2, le p 4 2, le p 6 2, le p 8 2, le p 10 2].getD i 0 else d.mbx.alertTh.getD i 0 }), q⟩) ∧
  (∀ (tr : Transport) (p : List Byte) (d : Dev) (q : List Instr), d.takes mAll tr → p.length = 6 → byte p 0 = 2 → byte p 1 = 1 →
    byte p 2 = 0 → zeros p 3 3 = true →
    exec (.clearEventRecords tr p) ⟨d, q⟩ = .next ⟨cmdEnd tr 0x0101 0 [] 0 false { d with
      mbx.logOvf := tset d.mbx.logOvf 2 0, mbx.ovfT := d.mbx.ovfT.filter (fun x => x.1 ≠ 2), mbx.failLog := [] }, q⟩) ∧
  (∀ (tr : Transport) (p : List Byte) (d : Dev) (q : List Instr), d.takes mAll tr → p.length = 8 → byte p 0 = 2 → byte p 1 = 0 →
    byte p 2 = 1 → zeros p 3 3 = true → (∀ e ∈ d.mbx.failLog, e.handle ≠ le p 6 2) →
    exec (.clearEventRecords tr p) ⟨d, q⟩ = .next ⟨cmdEnd tr 0x0101 rcHandle [] 0 false d, q⟩) ∧
  (∀ (tr : Transport) (p : List Byte) (d : Dev) (q : List Instr), d.takes mAll tr → p.length = 4 → byte p 0 < 3 → byte p 1 < 3 →
    byte p 2 < 3 → byte p 3 < 3 →
    exec (.setEventInterruptPolicy tr p) ⟨d, q⟩ = .next ⟨cmdEnd tr 0x0103 0 [] 0 false
      { d with mbx.policy := [byte p 0, byte p 1, byte p 2, byte p 3] }, q⟩) ∧
  (∀ (tr : Transport) (p : List Byte) (d : Dev) (q : List Instr), d.takes mAll tr → p.length = 8 → ∃ e : Dev,
    exec (.setTimestamp tr p) ⟨d, q⟩ = .next ⟨cmdEnd tr 0x0301 0 [] 0 false e, q⟩ ∧
    e.time = ((d.time : Int) + ((le p 0 8 / 10 : Nat) - (d.time : Int) + 1950000) / 3900000 * 3900000).toNat ∧
    e.mbx.residual = ((le p 0 8 / 10 : Nat) : Int) - e.time) ∧
  (∀ (tr : Transport) (p : List Byte) (lo n : Nat) (d : Dev) (q : List Instr), d.takes mM tr → p.length = 17 → le p 0 8 % 64 = 0 →
    byte p 16 < 2 → spanOk d (le p 0 8) n = true → n = le p 8 8 → lo = le p 0 8 % 2 ^ 44 / 64 →
    exec (.scanMedia tr p) ⟨d, q⟩ = .next ⟨cmdRun tr 0x4304
      (.scan (lo / 64) ((lo + n + 63) / 64) (decide (lo = 0) && decide (n = d.map.limit * 64))) 1 ((lo + n + 63) / 64 - lo / 64)
      { d with mbx.scanRes := some (lo, lo + n, []) }, q⟩) ∧
  (∀ (tr : Transport) (lo hi : Nat) (ix : Tab (BitVec 64)) (d : Dev) (q : List Instr), d.takes mSDTM tr → d.mbx.scanRes = some (lo, hi, ix) →
    (poisonIn ix (lo * 64) (hi - lo)).length ≤ 254 → ∃ out,
    exec (.getScanMediaResults tr []) ⟨d, q⟩ = .next ⟨cmdEnd tr 0x4305 0 out 0 false { d with mbx.scanRes := some (hi, hi, ix) }, q⟩ ∧
    out = toLe 8 0 ++ toLe 8 0 ++ toLe 1 0 ++ toLe 1 0 ++ toLe 2 (poisonIn ix (lo * 64) (hi - lo)).length ++ toLe 12 0
      ++ (poisonIn ix (lo * 64) (hi - lo)).flatMap (poisonRec d))

/-- Queries of the node's own (R350, R351, R353, R358, R221): ring and engine status, media life, identity, the ledger snapshot with
the clear it asks for, and MEM_READ, which reads line after line or waits for a map line under its error sequence: a protected frond
stops it with record 0x7010 and no data, a poisoned line after the lines before it; the debug access port takes the line or a bus
error. -/
def Obligations.NodeQueries : Prop :=
  (∀ (tr : Transport) (d : Dev) (q : List Instr), d.takes mNotH tr → d.isM = false →
    exec (.getRingStatus tr []) ⟨d, q⟩ = .next ⟨cmdEnd tr 0xC000 0
      (toLe 8 (srnStatus d) ++ (List.range 16).flatMap fun i => toLe 8 (srnMember d i)) 0 false d, q⟩ ∧
    exec (.getEngineStatus tr []) ⟨d, q⟩ = .next ⟨cmdEnd tr 0xC100 0 (toLe 8 (opeCaps d) ++ toLe 8 (opeAdmit d) ++ toLe 8 (opeFan d)
      ++ (List.range 16).flatMap fun e => toLe 8 (opeEng d e)) 0 false d, q⟩) ∧
  (∀ (tr : Transport) (d : Dev) (q : List Instr), d.takes mNotH tr →
    exec (.getMediaLife tr []) ⟨d, q⟩ = .next ⟨cmdEnd tr 0xC303 0 (toLe 8 (stwCycles d) ++ toLe 8 (stwMean d) ++ toLe 8 (stwPool d)
      ++ toLe 8 (stwRetire d) ++ toLe 8 (stwPatrolStat d) ++ toLe 2 (d.med.dies.filter fun x => x.2.failed).length) 0 false d, q⟩) ∧
  (∀ (tr : Transport) (d : Dev) (q : List Instr), d.takes mAll tr → d.variant = .A → d.srn.indexed = true → d.bfl.running = 2 →
    exec (.identifyNode tr []) ⟨d, q⟩ = .next ⟨cmdEnd tr 0xC800 0 (toLe 1 0 ++ toLe 1 16 ++ toLe 1 2 ++ toLe 1 d.srn.index ++ toLe 4 0
      ++ toLe 8 d.pst.nv.serial ++ toLe 8 d.bfl.version2 ++ toLe 8 d.map.limit) 0 false d, q⟩) ∧
  (∀ (tr : Transport) (p : List Byte) (d : Dev) (q : List Instr), d.takes mSDTM tr → p.length = 1 → byte p 0 < 2 →
    exec (.ledgerSnapshot tr p) ⟨d, q⟩ = .next ⟨cmdEnd tr 0xC801 0
      (regBytes d 0x100080 8 ++ regBytes d 0x100100 16 ++ regBytes d 0x100180 1 ++ regBytes d 0x100190 1) 0 false
      (if byte p 0 = 1 then { d with ldg.xtrmMax := [], ldg.xtrmExc := [], ldg.ovr := [], ldg.envMiss := 0 } else d), q⟩) ∧
  (∀ (tr : Transport) (p : List Byte) (ts : Trouble) (k n : Nat) (d : Dev) (q : List Instr), d.takes mSM tr → p.length = 10 →
    le p 0 8 % 64 = 0 → le p 8 2 % 64 = 0 → 64 ≤ le p 8 2 → le p 8 2 ≤ 4032 → le p 0 8 < 2 ^ 48 → addrIndex (le p 0 8) = d.srn.index →
    k = le p 0 8 % 2 ^ 44 / 64 → n = le p 8 2 / 64 → k + n ≤ d.map.limit * 64 →
    (∀ (rc : Nat) (out : List Byte) (e : Dev), memTake k n ts d = (some (rc, out), e) →
      exec (.memRead tr p ts false) ⟨d, q⟩ = .next ⟨cmdEnd tr 0xC802 rc out 0 false e, q⟩) ∧
    (∀ e : Dev, memTake k n ts d = (none, e) → exec (.memRead tr p ts false) ⟨d, q⟩ = .next ⟨cmdRun tr 0xC802 (.mem k n) 0 n e, q⟩)) ∧
  (∀ (ts : Trouble) (k : Nat) (ks : List Nat) (out : List Byte) (x : Line) (d e : Dev),
    (dmaLine 0 ts k d = (0, x, e) → memLines ts (k :: ks) out d = memLines ts ks (out ++ lineBytes x) e) ∧
    (dmaLine 0 ts k d = (rcPoisoned, x, e) → memLines ts (k :: ks) out d = (rcPoisoned, out, e)) ∧
    (dmaLine 0 ts k d = (rcProtected, x, e) → memLines ts (k :: ks) out d = (rcProtected, [], e))) ∧
  (∀ (m : Nat) (ts : Trouble) (k n : Nat) (r : Range) (d : Dev), rangeOf d (k / 64) = some (n, r) →
    dmaLine m ts k d = (rcProtected, 0, post 0x7010 2 m (ringAddr d.srn.index (k / 64) (k % 64) / 65536)
      (ringAddr d.srn.index (k / 64) (k % 64) % 65536) n { d with sec.cnt := bump d.sec.cnt 4 })) ∧
  (∀ (m : Nat) (ts : Trouble) (k : Nat) (x : Line) (d e : Dev), rangeOf d (k / 64) = none →
    (backRead 6 (k / 64) (k % 64) ts d = ((x, false), e) → dmaLine m ts k d = (0, x, e)) ∧
    (backRead 6 (k / 64) (k % 64) ts d = ((x, true), e) → dmaLine m ts k d = (rcPoisoned, x, e))) ∧
  (∀ (tr : Transport) (p : List Byte) (a : Nat) (ts : Trouble) (d : Dev) (q : List Instr), d.on = true → a = le p 0 8 → a < 2 ^ 48 →
    addrIndex a = d.srn.index → addrFrond a < d.map.limit →
    (∀ (x : Line) (e : Dev), dmaLine 1 ts (a % 2 ^ 44 / 64) d = (0, x, e) →
      exec (.memRead tr p ts true) ⟨d, q⟩ = .next ⟨emit (.dbg a (some x)) e, q⟩) ∧
    (∀ (rc : Nat) (x : Line) (e : Dev), rc ≠ 0 → dmaLine 1 ts (a % 2 ^ 44 / 64) d = (rc, x, e) →
      exec (.memRead tr p ts true) ⟨d, q⟩ = .next ⟨emit (.dbg a none) e, q⟩))

/-- Commands of the ring, the engines and the map (R30, R84, R86, R193, R280, R284, R287, R350, R351, R353): SET_RING_INDEX stores a
free index, or none, on a fresh node that is no member; RING_GROUP_REKEY, RING_LEAVE and RING_REJOIN start their exchange and run on; CLEAR_SCRATCH,
RELEASE_RANGE and SHED_CAPACITY run over a span that may be cleared, RING_REJOIN waits for a port that drains; CLEAR_WRITE_REFUSED ends the refusal when the free state allows;
a lockstep mismatch is a fatal fault. -/
def Obligations.NodeCommands : Prop :=
  (∀ (tr : Transport) (p : List Byte) (d e : Dev) (q : List Instr), d.takes mUM tr → d.isM = false → p.length = 1 → byte p 0 < 16 →
    mapFresh d = true → (d.srn.ring = .heldOut ∨ isMember d = false) →
    ((tget d.srn.members (byte p 0)).st = .absent ∨ (tget d.srn.members (byte p 0)).serial = d.pst.nv.serial) → secRefused 6 d = none →
    e = fwWrite (.ringIndex (some (byte p 0)) (d.pst.nv.ringId.getD 0)) d →
    exec (.setRingIndex tr p) ⟨d, q⟩ = .next ⟨cmdEnd tr 0xC001 0 [] 0 false
      { e with pst.nv.ringId := d.pst.nv.ringId, srn.index := byte p 0, srn.indexed := true }, q⟩) ∧
  (∀ (tr : Transport) (d e : Dev) (q : List Instr), d.takes mUM tr → d.isM = false → mapFresh d = true →
    (d.srn.ring = .heldOut ∨ isMember d = false) → secRefused 6 d = none → e = fwWrite (.ringIndex none (d.pst.nv.ringId.getD 0)) d →
    exec (.setRingIndex tr [31]) ⟨d, q⟩ = .next ⟨cmdEnd tr 0xC001 0 [] 0 false
      { e with pst.nv.ringId := d.pst.nv.ringId, srn.index := 0, srn.indexed := false }, q⟩) ∧
  (∀ (tr : Transport) (d : Dev) (q : List Instr), d.takes mSDTM tr → d.isM = false → isMember d = true → d.srn.ring ≠ .parted →
    exec (.ringGroupRekey tr []) ⟨d, q⟩ = .next ⟨cmdRun tr 0xC002 (.rekeyGroup d.srn.epoch) 0 0 (epochAsk d), q⟩) ∧
  (∀ (tr : Transport) (d e : Dev) (q : List Instr), d.takes mSTM tr → d.isM = false → isMember d = true →
    e = frame 0x03 [d.srn.index] { d with srn.members := tmod d.srn.members d.srn.index fun m => { m with st := .leaving } } →
    ((peers e).isEmpty = false → exec (.ringLeave tr []) ⟨d, q⟩ = .next ⟨cmdRun tr 0xC003 .leave 0 0
      (marksA { e with srn.splice := some { index := e.srn.index, leaving := true, startT := e.time } }), q⟩) ∧
    ((peers e).isEmpty = true → exec (.ringLeave tr []) ⟨d, q⟩ = .next ⟨cmdRun tr 0xC003 .leave 0 0 (bypassClose e), q⟩)) ∧
  (∀ (tr : Transport) (d : Dev) (q : List Instr), d.takes mSTM tr → d.isM = false → isMember d = false → d.srn.west.st ≠ .draining →
    d.srn.west.st ≠ .pending → d.srn.east.st ≠ .draining → d.srn.east.st ≠ .pending →
    exec (.ringRejoin tr []) ⟨d, q⟩ = .next ⟨cmdRun tr 0xC004 .rejoin 0 0
      (frame 0x20 [d.pst.nv.serial, d.srn.index] { d with srn.rejoin := true }), q⟩) ∧
  (∀ (tr : Transport) (d : Dev) (q : List Instr), d.takes mSTM tr → d.isM = false → isMember d = false →
    (d.srn.west.st = .draining ∨ d.srn.west.st = .pending) →
    exec (.ringRejoin tr []) ⟨d, q⟩ = .next ⟨cmdEnd tr 0xC004 rcPending [] 0 false { d with srn.west.rejoin := true }, q⟩) ∧
  (∀ (tr : Transport) (p : List Byte) (off n : Nat) (d : Dev) (q : List Instr), d.takes mSM tr → d.isM = false → p.length = 12 →
    off = le p 0 8 → n = le p 8 4 → off % 2 ^ 20 = 0 → 1 ≤ n → off / 2 ^ 20 + n ≤ 8192 →
    (∀ x ∈ d.ope.rq, x.2.spill = true → x.2.st = .disabled) →
    exec (.clearScratch tr p) ⟨d, q⟩ = .next ⟨cmdRun tr 0xC101 (.scratch off (off + n * 2 ^ 20)) 2 (n * 2 ^ 20) d, q⟩) ∧
  (∀ (tr : Transport) (p : List Byte) (a n : Nat) (d : Dev) (q : List Instr), d.takes mSM tr → p.length = 16 → a = le p 0 8 →
    n = le p 8 8 → a % 4096 = 0 → n ≠ 0 → a / 4096 + n ≤ d.map.limit →
    exec (.releaseRange tr p) ⟨d, q⟩ =
      .next ⟨cmdRun tr 0xC300 (.release (a / 4096) (a / 4096 + n - 1) (a / 4096)) 1 n d, q⟩) ∧
  (∀ (tr : Transport) (p : List Byte) (g : Nat) (d : Dev) (q : List Instr), d.takes mSM tr → p.length = 4 → g = le p 0 4 → 8192 ≤ g →
    g < d.map.limit / 262144 → windowAbove d (g * 262144) = false → d.srn.ring ≠ .parted →
    exec (.shedCapacity tr p) ⟨d, q⟩ = .next ⟨cmdRun tr 0xC301 (.shed (g * 262144) (g * 262144)) 1 (d.map.limit - g * 262144)
      { d with csh.emptying := true }, q⟩) ∧
  (∀ (tr : Transport) (d e : Dev) (q : List Instr), d.takes mSM tr → d.stw.free ≠ .exhausted → secRefused 7 d = none →
    e = fwWrite (.writeRefused false) d →
    exec (.clearWriteRefused tr []) ⟨d, q⟩ =
      .next ⟨cmdEnd tr 0xC302 0 [] 0 false (post 0x6012 0 0 0 0 0 { e with stw.refused := false }), q⟩) ∧
  (∀ (pair pc : Nat) (d : Dev) (q : List Instr), pc < 2 ^ 32 →
    exec (.lockstepMismatch pair pc) ⟨d, q⟩ = .next ⟨fatal 0x9004 pair pc 0 0 d, q⟩)

/-- R60: the response to a host's remote read or write carries the higher of the requester's DevLoad and the owner's, and every
cell a node sends, a response among them, is queued with the DevLoad of that moment and goes out as it was queued. -/
def Obligations.DevLoadOfResponses : Prop :=
  (∀ (ty dst tag line st : Nat) (b po : Bool) (pl : List Nat) (d : Dev), ∃ (s : Side) (k : QCell),
    k ∈ (portOf (sendCell ty dst tag line b st po pl d) s).q ∧
    k.body = .own ty dst tag line b st d.ldg.devload po d.srn.epoch d.srn.keyid d.srn.seqNext pl) ∧
  (∀ (s : Side) (n : Nat) (k : QCell) (d : Dev), nextCell (portOf d s) = some k → k.units ≤ n →
    ∃ x, (portSend s 1 n d).out = .cell s k.fold k.body x :: d.out) ∧
  (∀ (c : Cell) (data : Line) (lat : Sys2Proof.Lat) (d e : Dev) (q : List Instr) (r : Remote), acceptCell c 0x02 true d = (true, e) →
    remoteGet e c.tag = some r → r.wr = none → r.hostTag < 65536 → ∃ t : Dev, exec (.rdRsp c data lat) ⟨d, q⟩ = .next ⟨t, q⟩ ∧
      t.out = .data r.hostTag (if c.poison then 0 else data) c.poison (max e.ldg.devload c.devload) :: e.out) ∧
  (∀ (c : Cell) (lat : Sys2Proof.Lat) (d e : Dev) (q : List Instr) (r : Remote), acceptCell c 0x04 true d = (true, e) →
    remoteGet e c.tag = some r → r.wr.isSome = true → r.hostTag < 65536 → ∃ t : Dev, exec (.wrAck c lat) ⟨d, q⟩ = .next ⟨t, q⟩ ∧
      .ndr r.hostTag (max e.ldg.devload c.devload) ∈ t.out)

/-- Monitors, supplies and clocks (R365, R430, R432, R434, R466): a monitor fails once, with record 0xB002, by itself or by a
conversion above 125 % of its rail's rating; a conversion in range joins its step's sum; 12 V below 11.4 V is recorded and counted, back in range it clears V12_LOW (log entry 37); an overvoltage, a lost
ROOT PLL and a lost crystal, whose links go down first, enter Halt; the aux supply's level is what the store's checks use; an aux reset drops the running command and puts L_auto at
60 W, recorded as a throttle change, and the management complex's return is recorded. The voltages of the overvoltage and of the aux reset are free (log entry 2). -/
def Obligations.SuppliesAndClocks : Prop :=
  (∀ (rail cause mw : Nat) (d : Dev) (q : List Instr), d.pwr.mode ≠ .off → rail < 6 → (tget d.pwr.rails rail).failed = false →
    exec (.monitorFailed rail cause mw) ⟨d, q⟩ = .next ⟨post 0xB002 2 rail cause mw 0 { d with
      pwr.rails := tmod d.pwr.rails rail fun r => { r with failed := true }
      pwr.pwrCnt := bump d.pwr.pwrCnt 5 }, q⟩) ∧
  (∀ (rail mw : Nat) (d : Dev) (q : List Instr), d.pwr.mode ≠ .off → rail < 6 → mw ≤ 1250 * railRated rail →
    exec (.monitorConversion rail mw) ⟨d, q⟩ = .next ⟨{ d with
      pwr.rails := tmod d.pwr.rails rail fun r => { r with sum := r.sum + mw, n := r.n + 1 } }, q⟩) ∧
  (∀ (rail mw : Nat) (d : Dev) (q : List Instr), d.pwr.mode ≠ .off → rail < 6 → 1250 * railRated rail < mw →
    (tget d.pwr.rails rail).failed = false →
    exec (.monitorConversion rail mw) ⟨d, q⟩ = exec (.monitorFailed rail 1 mw) ⟨d, q⟩) ∧
  (∀ (mv : Nat) (d : Dev) (q : List Instr), d.pwr.mode ≠ .off → 10800 ≤ mv → mv < 11400 →
    exec (.supplyOutOfRange mv) ⟨d, q⟩ = .next ⟨post 0xB001 2 0 mv 0 0
      { d with pwr.v12 := mv, pwr.v12Low := true, pwr.pwrCnt := bump d.pwr.pwrCnt 4 }, q⟩) ∧
  (∀ (mv : Nat) (d : Dev) (q : List Instr), d.pwr.mode ≠ .off → 11400 ≤ mv →
    exec (.supplyOutOfRange mv) ⟨d, q⟩ = .next ⟨{ d with pwr.v12 := mv, pwr.v12Low := false }, q⟩) ∧
  (∀ (d : Dev) (q : List Instr), d.pwr.mode ≠ .off → d.pwr.dumping = false → ∃ mv, 13200 < mv ∧
    exec .v12Overvoltage ⟨d, q⟩ =
      .next ⟨haltEntry 0xB001 false false true (post 0xB001 2 0 mv 0 0 { (draw d).2 with pwr.v12 := mv }), q⟩) ∧
  (∀ (mv : Nat) (d : Dev) (q : List Instr), d.pwr.mode ≠ .off →
    exec (.auxLow mv) ⟨d, q⟩ = .next ⟨{ d with pst.auxMv := mv }, q⟩) ∧
  (∀ (d : Dev) (q : List Instr), d.pwr.mode ≠ .off → ∃ mv, mv < 2900 ∧
    exec .auxReset ⟨d, q⟩ = .next ⟨throttlePost d.pwr.lAuto { (draw d).2 with
      pst.auxMv := mv, pst.writing := false, pst.hostRow := false, mbx.run := none, mbx.fwNext := none, pwr.mgmtReset := true, pwr.lAuto := 60 }, q⟩) ∧
  (∀ (mv : Nat) (d : Dev) (q : List Instr), d.pwr.mgmtReset = true → d.pwr.mode.firmware = true →
    exec (.auxRestored mv) ⟨d, q⟩ =
      .next ⟨pstStart (post 0xB001 2 1 mv 0 0 { d with pst.auxMv := mv, pwr.mgmtReset := false }), q⟩) ∧
  (∀ (mv : Nat) (d : Dev) (q : List Instr), d.pwr.mgmtReset = false → d.pwr.mode ≠ .off →
    exec (.auxRestored mv) ⟨d, q⟩ = .next ⟨{ d with pst.auxMv := mv }, q⟩) ∧
  (∀ (d : Dev) (q : List Instr), d.pwr.mode ≠ .off → d.pwr.mode ≠ .held → d.pwr.backup = false → d.pwr.dumping = false →
    exec (.clockFault 1) ⟨d, q⟩ = .next ⟨haltEntry 0xB008 false false true (post 0xB008 4 1 0 0 0
      { d with pwr.backup := true, pwr.rootLock := false }), q⟩ ∧
    exec (.clockFault 0) ⟨d, q⟩ = .next ⟨haltEntry 0xB008 false false true (hostDown 4 (post 0xB008 4 0 0 0 0
      { d with pwr.backup := true, pwr.hostLock := false, pwr.ringWLock := false, pwr.ringELock := false })), q⟩)

/-- The thermal model, the power limit and their commands (R340, R354, R370, R432, R436–R438, R443–R445, R460; arithmetic and its
rounding: log entries 5, 35 and 38): a step takes each rail's mean and steps each point, and a point at its trip temperature trips, at once with less
than 200 ms of headroom, orderly with more; an evaluation moves L_auto by 8 W between 60 and 200 W and puts the lower of it and the host's limit in force; the commands set and
show the inputs; the hour counter, the SPDM service and the dynamic address take their events. -/
def Obligations.ThermalAndPower : Prop :=
  (∀ (d e : Dev) (q : List Instr), d.pwr.mode ≠ .off →
    e = { d with
      time := alignUp 100000 d.time
      pwr.rails := tmap d.pwr.rails fun _ r => if r.n = 0 then r else { r with mw := r.sum / r.n, sum := 0, n := 0 } } →
    trippedPoint { e with pwr.points := e.pwr.points.zipIdx.map fun (x : ThPoint × Nat) => pointStep e x.2 x.1 } = none →
    exec .thermalModelStep ⟨d, q⟩ = .next ⟨alertEval { e with
      pwr.pHist := ((List.range 6).map (railMw e)).sum :: e.pwr.pHist.take 999
      pwr.points := e.pwr.points.zipIdx.map fun (x : ThPoint × Nat) => pointStep e x.2 x.1
      pwr.stepped := true
      pwr.rearmed := (e.pwr.points.zipIdx.map fun (x : ThPoint × Nat) => pointStep e x.2 x.1).zipIdx.all
        fun x => decide (x.1.t < (rearmC x.2 : Int) * 1000000000) }, q⟩) ∧
  (∀ (i : Nat) (d e : Dev) (q : List Instr), d.pwr.mode ≠ .off → ¬ (d.pwr.mode = .held ∨ d.pwr.mode = .halt) →
    e = { d with
      time := alignUp 100000 d.time
      pwr.rails := tmap d.pwr.rails fun _ r => if r.n = 0 then r else { r with mw := r.sum / r.n, sum := 0, n := 0 } } →
    trippedPoint { e with pwr.points := e.pwr.points.zipIdx.map fun (x : ThPoint × Nat) => pointStep e x.2 x.1 } = some i →
    exec .thermalModelStep ⟨d, q⟩ = .next ⟨alertEval (thermalTrip i { e with
      pwr.pHist := ((List.range 6).map (railMw e)).sum :: e.pwr.pHist.take 999
      pwr.points := e.pwr.points.zipIdx.map fun (x : ThPoint × Nat) => pointStep e x.2 x.1
      pwr.stepped := true
      pwr.rearmed := (e.pwr.points.zipIdx.map fun (x : ThPoint × Nat) => pointStep e x.2 x.1).zipIdx.all
        fun x => decide (x.1.t < (rearmC x.2 : Int) * 1000000000) }), q⟩) ∧
  (∀ (i ms : Nat) (p : ThPoint) (d e : Dev), d.pwr.stopping = false → d.pwr.dumping = false → d.pwr.mode ≠ .transit →
    d.pwr.points[i]? = some p → nodeHeadroom d = some ms → ms < 2 ^ 32 →
    e = post 0xB004 4 i (twos 32 (halfDeg p.t)) ms (b2n (decide (200 ≤ ms))) { d with
      pwr.tripHeld := some { point := i, temp := twos 32 (halfDeg p.t), headroom := ms, orderly := decide (200 ≤ ms) }
      pwr.tripPoint := i, pwr.thmCnt := bump (bump d.pwr.thmCnt 0) (if 200 ≤ ms then 1 else 2), pwr.testing := 0, csh.derate := false } →
    (ms < 200 → thermalTrip i d = haltEntry 0xB004 true false true e) ∧
    (200 ≤ ms → thermalTrip i d = tripFollow { e with
      pwr.stopping := true, pwr.target := some .halt, pwr.trigT := some d.time })) ∧
  (∀ (busy new : Nat) (d : Dev) (q : List Instr), d.pwr.mode.firmware = true → d.pwr.dumping = false → d.pwr.mode ≠ .capped →
    new = autoNext d →
    exec (.powerLimitEvaluation busy) ⟨d, q⟩ = .next ⟨limitApply busy (throttlePost d.pwr.lAuto { d with
      time := alignUp 10000000 d.time
      pwr.lAuto := new
      pwr.lHost := 200
      pwr.lEff := min 200 new
      pwr.pwrCnt := if new < d.pwr.lAuto then bump d.pwr.pwrCnt 1 else if d.pwr.lAuto < new then bump d.pwr.pwrCnt 2 else d.pwr.pwrCnt }), q⟩) ∧
  (∀ d : Dev, 60 ≤ d.pwr.lAuto → d.pwr.lAuto ≤ 200 → 60 ≤ autoNext d ∧ autoNext d ≤ 200 ∧
    (d.pwr.mgmtReset = false → autoNext d ≤ d.pwr.lAuto + 8 ∧ d.pwr.lAuto ≤ autoNext d + 8)) ∧
  (∀ (tr : Transport) (p : List Byte) (d : Dev) (q : List Instr), d.takes mAll tr → p.length = 2 → thermalOk p = true →
    exec (.setThermalInput tr p) ⟨d, q⟩ = .next ⟨cmdEnd tr 0xC402 0 [] 0 false { d with
      pwr.inlet := (BitVec.ofNat 8 (byte p 0)).toInt, pwr.airflow := byte p 1, pwr.hostSet := true
      pwr.thmCnt := bump d.pwr.thmCnt 3 }, q⟩) ∧
  (∀ (tr : Transport) (p : List Byte) (d : Dev) (q : List Instr), d.takes mSM tr → p.length = 2 → 60 ≤ le p 0 2 → le p 0 2 ≤ 200 →
    exec (.setPowerLimit tr p) ⟨d, q⟩ = .next ⟨cmdEnd tr 0xC401 0 [] 0 false
      (if d.pwr.mode = .capped then { d with pwr.lHostPend := le p 0 2 } else d), q⟩) ∧
  (∀ (tr : Transport) (d : Dev) (q : List Instr), d.takes mAll tr →
    exec (.getPowerThermal tr []) ⟨d, q⟩ = .next ⟨cmdEnd tr 0xC403 0 (((List.range 6).flatMap fun i => toLe 4 (railMw d i / 100))
      ++ ((List.range 4).flatMap fun i => toLe 2 (twos 16 (halfDeg (pointHeld d i)))) ++ toLe 2 d.pwr.lEff ++ toLe 2 (sat 16 d.pwr.em)
      ++ toLe 4 d.csh.d) 0 false d, q⟩) ∧
  (∀ (d : Dev) (q : List Instr), d.on = true →
    exec .poweredHoursTick ⟨d, q⟩ = .next ⟨fwPut (.life 4) { d with pwr.hours := d.pwr.hours + 1 }, q⟩) ∧
  (∀ (tr : Transport) (d : Dev) (q : List Instr), reachable tr d = true → tr = .vdm ∨ tr = .i3c →
    exec (.spdmOverMctp tr) ⟨d, q⟩ = .next ⟨{ d with out := .spdm :: d.out }, q⟩) ∧
  (∀ (da : Nat) (d : Dev) (q : List Instr), d.on = true → da < 128 →
    exec (.entdaa da) ⟨d, q⟩ = .next ⟨{ d with mbx.i3cDa := da }, q⟩)

/-- R446: the model is below re-arm when every point is below its re-arm temperature, after each step of it in every powered mode, each point taken as
computed from the measured rails alone (a failed monitor's rail at 0 W, no hold at the throttle threshold); THM_STATUS_REARMED shows it while its block takes accesses; CLEAR_HALT leaves Halt
for Held when it holds and is refused with NOT_REARMED when it does not. -/
def Obligations.ModelBelowRearm : Prop :=
  (∀ (d : Dev) (q : List Instr), d.pwr.mode ≠ .off → ∃ t : Dev, exec .thermalModelStep ⟨d, q⟩ = .next ⟨t, q⟩ ∧
    (t.pwr.rearmed = true ↔ ∀ x ∈ t.pwr.points.zipIdx, x.1.t < (rearmC x.2 : Int) * 1000000000) ∧
    (blockOn 14 t = true → (regRead t 0xE80008 / 2 % 2 = 1 ↔ t.pwr.rearmed = true))) ∧
  (∀ (d : Dev) (i : Nat), (tget d.pwr.rails i).failed = true → railModel d i = 0) ∧
  (∀ (d : Dev) (i : Nat) (p : ThPoint), (pointStep d i p).t = p.t + (50 * (pointPower d i * (pointR i * airK d.pwr.airflow) : Nat)
    - 10 * (p.t - d.pwr.inlet * 1000000000)) / (pointC i * (pointR i * airK d.pwr.airflow) : Nat)) ∧
  (∀ (tr : Transport) (d : Dev) (q : List Instr), d.takes mH tr → exec (.clearHalt tr []) ⟨d, q⟩ = .next ⟨if d.pwr.rearmed then
    cmdEnd tr 0xC404 0 [] 0 false (enterMode .held 0 d) else cmdEnd tr 0xC404 rcNotRearmed [] 0 false d, q⟩)

/-- The energy store (R440–R442): a test discharge starts on a charged bank in a mode that allows it and stays due otherwise; its
measurement gives C_m, ESR_m and E_m with record 0xB005, too little of it record 0xB007 besides, a step or a time out of range and a
time-out an E_m of 0; the Unfurl test's measurement ends Unfurl; recharged, the derate ends and the cushion takes the new
E_m; a charged bank starts the store's first test. -/
def Obligations.EnergyStore : Prop :=
  (∀ (d : Dev) (q : List Instr), d.pwr.testing = 0 → d.pwr.mode = .service → d.pwr.dumping = false → 16000 ≤ d.pwr.vbank →
    exec .testDischargeStart ⟨d, q⟩ = .next ⟨{ d with
      pwr.testing := 1, pwr.testDue := false, csh.derate := true, csh.pendEm := some (d.csh.pendEm.getD d.csh.em) }, q⟩) ∧
  (∀ (d : Dev) (q : List Instr), d.pwr.testing = 0 → d.pwr.mode = .halt →
    exec .testDischargeStart ⟨d, q⟩ = .next ⟨{ d with pwr.testDue := true }, q⟩) ∧
  (∀ (mv us em : Nat) (d : Dev) (q : List Instr), d.pwr.testing = 1 → mv ≤ 500 → us ≤ 300000 → em = (us - 80 * mv) / 25 →
    exec (.testDischargeMeasured mv us) ⟨d, q⟩ = .next ⟨unfurlDone em (postIf (decide (dumpable em = 0)) 0xB007 3 em 0 0 0
      (post 0xB005 0 em (us / 300) (10 * mv) (dumpable em) (fwPut (.store (us / 300) (10 * mv) em) { d with
        pwr.testing := 2, pwr.vbank := 15700, pwr.cm := us / 300, pwr.esr := 10 * mv, pwr.em := em, pwr.store := storeOf em
        csh.pendEm := some em }))), q⟩) ∧
  (∀ (mv us : Nat) (d e : Dev) (q : List Instr), d.pwr.testing = 1 → e = post 0xB007 3 0 1 0 0 { d with pwr.testing := 2 } →
    exec .testDischargeTimeout ⟨d, q⟩ = .next ⟨unfurlDone 0 (fwPut (.store e.pwr.cm e.pwr.esr 0)
      { e with pwr.em := 0, pwr.store := .failed, csh.pendEm := some 0 }), q⟩ ∧
    (500 < mv ∨ 300000 < us → exec (.testDischargeMeasured mv us) ⟨d, q⟩ = exec .testDischargeTimeout ⟨d, q⟩)) ∧
  (∀ (em : Nat) (d : Dev), d.pwr.mode ≠ .unfurl → unfurlDone em d = d) ∧
  (∀ (em : Nat) (d : Dev), d.pwr.mode = .unfurl → d.pwr.unfurl = .loaded → d.isM = false →
    unfurlDone em d = unfurlEnd em (occAfterRecovery d) d) ∧
  (∀ (d : Dev) (q : List Instr), d.pwr.testing = 2 →
    exec .testDischargeRecharged ⟨d, q⟩ = .next ⟨{ d with
      pwr.testing := 0, pwr.vbank := 16000, pwr.testT := d.time, pwr.pwrCnt := bump d.pwr.pwrCnt 0, csh.derate := false
      csh.pendEm := some d.pwr.em }, q⟩) ∧
  (∀ (b : Boot) (d : Dev) (q : List Instr), d.pwr.mode = .service →
    exec (.bankCharged b) ⟨d, q⟩ = .next ⟨if d.pwr.store = .charging then testStart { d with pwr.vbank := 16000 }
      else { d with pwr.vbank := 16000 }, q⟩) ∧
  (∀ (tr : Transport) (d : Dev) (q : List Instr), d.takes mSM tr →
    exec (.energyStoreTest tr []) ⟨d, q⟩ = .next ⟨cmdRun tr 0xC405 .storeTest 0 0 (testStart d), q⟩)

/-- Start-up and reset (R279, R282, R285, R286, R408–R413, R423, R425, R464): supplies in range bring Off to Held; a node whose reset
is released leaves Held with every volatile register at reset and Unfurl begun; the listen's end enters Splice or Recovery; a
splice's end, a ring that holds the node out, and a failed session enter Recovery; a session forms the ring, lets a splicing node ask
for its splice, or brings a newcomer the key; Recovery's end consumes the save and enters Service; NODE_RESET# retains the cushion and
enters Held, from Halt only below re-arm. -/
def Obligations.StartUp : Prop :=
  (∀ (d e : Dev) (q : List Instr), d.pwr.mode = .off → e = suppliesSeen { d with pwr.mgmtReset := false } →
    exec .powerGood ⟨d, q⟩ = .next ⟨modeEnter .held 5 e, q⟩ ∧ 11400 ≤ e.pwr.v12 ∧ e.pwr.v12 ≤ 12600 ∧ 3135 ≤ e.pst.auxMv ∧
      e.pst.auxMv ≤ 3465 ∧ 1500 ≤ e.pst.holdUj) ∧
  (∀ (b : Boot) (d : Dev) (q : List Instr), d.pwr.mode = .held → d.pwr.mgmtReset = false → d.pwr.dumping = false → supplyBad d = false →
    (d.pwr.nodeReset = false → exec (.leaveHeld b) ⟨d, q⟩ = .next ⟨unfurlRun b (volatileReset d), q⟩) ∧
    exec (.nodeResetDeasserted b) ⟨d, q⟩ = .next ⟨unfurlRun b (volatileReset { d with pwr.nodeReset := false }), q⟩) ∧
  (∀ (d : Dev) (q : List Instr), d.pwr.mode = .unfurl → d.pwr.unfurl = .listening →
    exec .rhizoidListenExpiry ⟨d, q⟩ = .next ⟨if d.srn.cue then spliceStart (draw d).2 else recoveryStart (draw d).2, q⟩) ∧
  (∀ (index ms : Nat) (d e t : Dev) (q : List Instr), d.isM = false → index = d.srn.index → isMember d = false → e = cueFrame d →
    e.pwr.mode.ringOn = true → t = frame 0x23 [index] { spliceDone index ms e with srn.rejoin := false } →
    exec (.spliceDone index ms) ⟨d, q⟩ = .next ⟨if t.pwr.mode = .splice then recoveryStart t else t, q⟩) ∧
  (∀ (index ms : Nat) (d e : Dev) (q : List Instr), d.isM = false → (index ≠ d.srn.index ∨ isMember d = true) →
    e = cueFrame (lineSeen 0x23 d) → e.pwr.mode.ringOn = true →
    exec (.spliceDone index ms) ⟨d, q⟩ = .next ⟨spliceDone index ms e, q⟩) ∧
  (∀ (serial reason : Nat) (d e : Dev) (q : List Instr), d.isM = false → e = cueFrame (lineSeen 0x12 d) → serial = e.pst.nv.serial →
    e.srn.ring ≠ .heldOut → (e.pwr.mode = .recovery ∨ e.pwr.mode = .splice) →
    exec (.held serial reason) ⟨d, q⟩ = .next ⟨recoveryStart (heldOut reason e), q⟩) ∧
  (∀ (serial reason : Nat) (d e : Dev) (q : List Instr), d.isM = false → e = cueFrame (lineSeen 0x12 d) → serial ≠ e.pst.nv.serial →
    exec (.held serial reason) ⟨d, q⟩ = .next ⟨{ e with srn.members := tmap e.srn.members fun _ (m : Member) =>
      if m.serial = serial ∧ m.st = MemSt.joining then { m with st := .heldOut } else m }, q⟩) ∧
  (∀ (peer ms : Nat) (d : Dev) (q : List Instr), d.isM = false → (d.srn.ring = .forming ∨ d.pwr.mode = .splice ∨ d.srn.rejoin = true) →
    isMember d = false → exec (.spdmSessionEstablished peer false ms) ⟨d, q⟩ =
      .next ⟨recoveryStart (frame 0x12 [d.pst.nv.serial, 2] (heldOut 2 d)), q⟩) ∧
  (∀ (peer ms : Nat) (d e : Dev) (q : List Instr), d.isM = false →
    e = { d with srn.sessions := if peer ∈ d.srn.sessions then d.srn.sessions else d.srn.sessions ++ [peer] } →
    (isMember d = true → exec (.spdmSessionEstablished peer true ms) ⟨d, q⟩ = .next ⟨if holderOf e = e.srn.index ∧
      (tget e.srn.members peer).st ≠ .live then frame 0x30 [] e else e, q⟩) ∧
    (isMember d = false → d.srn.ring = .forming → exec (.spdmSessionEstablished peer true ms) ⟨d, q⟩ = .next ⟨formReady ms e, q⟩) ∧
    (isMember d = false → d.srn.ring ≠ .forming → (d.pwr.mode = .splice ∨ d.srn.rejoin = true) →
      exec (.spdmSessionEstablished peer true ms) ⟨d, q⟩ =
        .next ⟨if sessionsDone e then frame 0x20 [e.pst.nv.serial, e.srn.index] e else e, q⟩)) ∧
  (∀ (ms : Nat) (d e : Dev) (q : List Instr), d.pwr.mode = .recovery → ringSettled d = true →
    e = (List.range 128).foldl (fun d l => sporeFill l d) d →
    exec (.recoveryDone ms) ⟨d, q⟩ = .next ⟨admitEval (modeEnter .service 5 { post 0x9032 0 ms e.pwr.source (occ e) e.srn.ring.code
      { anchorPut .consumed e with pwr.retained := none, pwr.spore := none, pwr.persistLost := decide (e.pwr.source = 3) } with
        hst.memActive := (anchorPut .consumed e).hst.up }), q⟩) ∧
  (∀ (d e : Dev) (q : List Instr), d.pwr.mode = .service → d.pwr.dumping = false →
    e = acceptAll (post 0x9039 1 Mode.service.code (occ d) 0 0 { d with pwr.nodeReset := true }) →
    exec .nodeResetAsserted ⟨d, q⟩ = .next ⟨modeEnter .held 4 { bypassClose (stopMedia (stopAdmission
      (hostDown 3 { e with pwr.retained := saveNow [] e }))) with
        pwr.transitLeft := none, pwr.testing := 0, pwr.stopping := false }, q⟩) ∧
  (∀ (d : Dev) (q : List Instr), d.pwr.mode = .halt → d.pwr.rearmed = true →
    exec .nodeResetAsserted ⟨d, q⟩ = .next ⟨modeEnter .held 4 { d with pwr.nodeReset := true }, q⟩) ∧
  (∀ (d : Dev) (q : List Instr), d.pwr.mode = .halt → d.pwr.rearmed = false →
    exec .nodeResetAsserted ⟨d, q⟩ = .next ⟨{ d with pwr.nodeReset := true }, q⟩)

/-- R407: SET_MODE naming the current mode completes with Success and has no effect; in Capped it replaces the power limit; Capped is
entered with the limit given in the command, which the next evaluation puts in force. -/
def Obligations.SetModeCurrent : Prop :=
  (∀ (tr : Transport) (p : List Byte) (d : Dev) (q : List Instr), d.takes mSDTM tr → p.length = 4 → byte p 1 = 0 →
    byte p 0 = d.pwr.mode.code → d.pwr.mode ≠ .capped →
    exec (.setMode tr p) ⟨d, q⟩ = .next ⟨cmdEnd tr 0xC400 0 [] 0 false d, q⟩) ∧
  (∀ (tr : Transport) (p : List Byte) (d : Dev) (q : List Instr), d.takes mSDTM tr → p.length = 4 → byte p 1 = 0 →
    byte p 0 = Mode.capped.code → d.pwr.mode = .capped → 60 ≤ le p 2 2 → le p 2 2 ≤ 200 →
    exec (.setMode tr p) ⟨d, q⟩ = .next ⟨cmdEnd tr 0xC400 0 [] 0 false { d with pwr.lHostPend := le p 2 2 }, q⟩) ∧
  (∀ (tr : Transport) (p : List Byte) (d : Dev) (q : List Instr), d.takes mSDTM tr → p.length = 4 → byte p 1 = 0 →
    byte p 0 = Mode.capped.code → d.pwr.mode = .service ∨ d.pwr.mode = .quiet → 60 ≤ le p 2 2 → le p 2 2 ≤ 200 →
    d.pwr.stopping = false → ∃ e : Dev,
    exec (.setMode tr p) ⟨d, q⟩ = .next ⟨cmdEnd tr 0xC400 0 [] 0 false e, q⟩ ∧ e.pwr.mode = .capped ∧ e.pwr.lHostPend = le p 2 2) ∧
  (∀ (busy : Nat) (d : Dev) (q : List Instr), d.pwr.mode = .capped → d.pwr.dumping = false → ∃ t : Dev,
    exec (.powerLimitEvaluation busy) ⟨d, q⟩ = .next ⟨t, q⟩ ∧ t.pwr.lHost = d.pwr.lHostPend ∧ t.pwr.lEff = min t.pwr.lHost t.pwr.lAuto)

/-- Modes, commands that run on, and the dump (R342, R343, R404–R406, R416–R422): SET_MODE to Dormant, Maintenance or Transit runs
until the old mode's requests have completed; a Transit that fails returns to the mode left; progress does units of the running
command's work, and its completion ends it once its work has ended, a Transit entry once its cushion is empty; 12 V gone stops
admission with record 0x9038, and the dump's end leaves Off with the spore written. While an orderly Halt is under way, SET_MODE to
another mode answers Busy (the model's choice, log entry 97). -/
def Obligations.ModesAndDump : Prop :=
  (∀ (tr : Transport) (p : List Byte) (t : Mode) (d : Dev) (q : List Instr), d.takes mSDTM tr → p.length = 4 → byte p 1 = 0 →
    byte p 0 = t.code → (t = .dormant ∨ t = .maintenance) → (d.pwr.mode = .service ∨ d.pwr.mode = .capped ∨ d.pwr.mode = .quiet) →
    d.pwr.stopping = false → exec (.setMode tr p) ⟨d, q⟩ =
      .next ⟨cmdRun tr 0xC400 (.mode t) 0 0 { d with pwr.target := some t, pwr.trigT := some d.time }, q⟩) ∧
  (∀ (tr : Transport) (p : List Byte) (d : Dev) (q : List Instr), d.takes mSDTM tr → p.length = 4 → byte p 1 = 0 →
    byte p 0 = Mode.transit.code → (d.pwr.mode = .service ∨ d.pwr.mode = .capped ∨ d.pwr.mode = .quiet ∨ d.pwr.mode = .maintenance) →
    d.pwr.stopping = false → exec (.setMode tr p) ⟨d, q⟩ = .next ⟨cmdRun tr 0xC400 (.transit d.pwr.mode 0) 5 1000
      { d with pwr.target := some .transit, pwr.trigT := some d.time }, q⟩) ∧
  (∀ (tr : Transport) (p : List Byte) (d : Dev) (q : List Instr), d.takes mSDTM tr → p.length = 4 → byte p 1 = 0 →
    5 ≤ byte p 0 → byte p 0 ≤ 10 → byte p 0 ≠ d.pwr.mode.code → (byte p 0 = 6 → 60 ≤ le p 2 2 ∧ le p 2 2 ≤ 200) → d.pwr.stopping = true →
    exec (.setMode tr p) ⟨d, q⟩ = .next ⟨cmdEnd tr 0xC400 rcBusy [] 0 false d, q⟩) ∧
  (∀ (r : Running) (m : Mode) (d e : Dev) (q : List Instr), d.mbx.run = some r → d.pwr.transitLeft = some m → occ d ≠ 0 →
    e = post 0x903A 2 m.code (occ d) (modeSwitch m d.pwr.lHost { d with csh.emptying := false, pwr.transitLeft := none }).stw.free.code 0
      (modeSwitch m d.pwr.lHost { d with csh.emptying := false, pwr.transitLeft := none }) →
    exec .transitFailed ⟨d, q⟩ = .next ⟨cmdEnd r.tr r.opcode rcAborted [] (msOf (e.time - r.startT)) r.lost e, q⟩) ∧
  (∀ (d : Dev) (q : List Instr), exec .dormantIdle ⟨d, q⟩ = .next ⟨{ d with pwr.awake := false }, q⟩) ∧
  (∀ (d : Dev) (q : List Instr), d.pwr.mode = .service → d.pwr.dumping = false →
    exec .powerFailDump ⟨d, q⟩ = .next ⟨lanesDump (stopMedia (stopAdmission (post 0x9038 3 Mode.service.code (occ d) d.pwr.em 0
      { d with pwr.dumping := true, pwr.trigT := some d.time, pwr.testing := 0, pwr.stopping := false }))), q⟩) ∧
  (∀ (d : Dev) (q : List Instr), d.pwr.mode = .held →
    exec .powerFailDump ⟨d, q⟩ = .next ⟨{ d with pwr.dumping := true, pwr.trigT := some d.time }, q⟩) ∧
  (∀ (ok : Bool) (us : Nat) (lost : List (Nat × Nat)) (d e : Dev) (q : List Instr), d.pwr.dumping = true → d.pwr.mode = .service →
    e = writeSpore ok lost d →
    exec (.dumpComplete ok us lost) ⟨d, q⟩ = .next ⟨enterMode .off 1 { bypassClose (hostDown 4
      { e with pwr.spore := e.pwr.spore.map fun s => { s with us } }) with
        pwr.dumping := false, pwr.transitLeft := none, pst.fwq := [], pst.writing := false, pst.hostRow := false }, q⟩) ∧
  (∀ (units ms : Nat) (ts : Trouble) (r x : Running) (d e : Dev) (q : List Instr), d.mbx.run = some r → (∀ m, r.job ≠ .transit m 0) →
    jobWork r units ts d = (x, e) →
    exec (.mbxProgressRefresh units ms ts) ⟨d, q⟩ = .next ⟨progSet x ms { e with mbx.run := some x }, q⟩) ∧
  (∀ (lo hi units : Nat) (ts : Trouble) (r : Running) (d : Dev), r.job = .scratch lo hi → jobWork r units ts d =
    ({ r with job := .scratch (min hi (lo + units)) hi, done := min r.total (r.done + (min hi (lo + units) - lo)) },
      scratchZero lo (min hi (lo + units)) (dramGrant 5 ((min hi (lo + units) - lo) / 64) d))) ∧
  (∀ (ms rc : Nat) (out : List Byte) (r : Running) (d e : Dev) (q : List Instr), d.mbx.run = some r → (∀ m n, r.job ≠ .transit m n) →
    r.opcode ≠ 0xC601 → r.opcode ≠ 0xC602 → jobEnd r d = (some (rc, out), e) →
    exec (.mbxCommandComplete ms) ⟨d, q⟩ = .next ⟨cmdEnd r.tr r.opcode rc out ms r.lost e, q⟩) ∧
  (∀ (ms : Nat) (r : Running) (d e : Dev) (q : List Instr), d.mbx.run = some r → (∀ m n, r.job ≠ .transit m n) →
    jobEnd r d = (none, e) → exec (.mbxCommandComplete ms) ⟨d, q⟩ = .next ⟨e, q⟩) ∧
  (∀ (ms n : Nat) (m : Mode) (r : Running) (d : Dev) (q : List Instr), d.mbx.run = some r → r.job = .transit m (n + 1) →
    exec (.mbxCommandComplete ms) ⟨d, q⟩ = .next ⟨if occ d = 0 then transitDone r n ms d else d, q⟩) ∧
  (∀ (lo hi : Nat) (r : Running) (d : Dev),
    (r.job = .scratch lo hi → jobEnd r d = (some (0, []), scratchZero lo hi (dramGrant 5 ((hi - lo) / 64) d))) ∧
    (r.job = .hold rcPassword → jobEnd r d = (some (rcPassword, []), d)))
end

