-- ==== Sys2Proof/Laws/Tab.lean ====
section
/-! SUPPORT. Laws/Tab.lean: the laws of sparse tables: a read after a write, and the canonical form that every write keeps. -/

namespace Sys2Proof.Machine

variable {α : Type} [Inhabited α] [DecidableEq α]

/-- A read of another key does not see a write. -/
theorem tget_tset_ne (t : Tab α) (k j : Nat) (v : α) (h : j ≠ k) : tget (tset t k v) j = tget t j := by
  induction t with
  | nil => unfold tset; split <;> simp [tget, Ne.symm h]
  | cons x t ih =>
    obtain ⟨k', v'⟩ := x
    unfold tset
    split
    · split <;> simp [tget, Ne.symm h]
    · split
      · rename_i h1 h2
        subst h2
        split <;> simp [tget, Ne.symm h]
      · simp only [tget]; rw [ih]

/-- A table whose keys lie at or above a bound reads the default below it. -/
theorem tget_below (t : Tab α) : ∀ lo k, twfFrom lo t = true → k < lo → tget t k = default := by
  induction t with
  | nil => intros; rfl
  | cons x t ih =>
    obtain ⟨k', v'⟩ := x
    intro lo k h hk
    simp only [twfFrom, Bool.and_eq_true, decide_eq_true_eq] at h
    simp only [tget]
    rw [if_neg (by omega)]
    exact ih (k' + 1) k h.2 (by omega)

/-- A read after a write to the same key gives the value written. -/
theorem tget_tset_from (t : Tab α) : ∀ lo k v, twfFrom lo t = true → lo ≤ k → tget (tset t k v) k = v := by
  induction t with
  | nil => intro lo k v _ _; unfold tset; split <;> simp_all [tget]
  | cons x t ih =>
    obtain ⟨k', v'⟩ := x
    intro lo k v h hk
    simp only [twfFrom, Bool.and_eq_true, decide_eq_true_eq] at h
    unfold tset
    split
    · split
      · simp only [tget]; rw [if_neg (by omega), tget_below t (k' + 1) k h.2 (by omega)]; simp_all
      · simp [tget]
    · split
      · split
        · rw [tget_below t (k' + 1) k h.2 (by omega)]; simp_all
        · simp [tget]
      · simp only [tget]; rw [if_neg (by omega)]; exact ih (k' + 1) k v h.2 (by omega)

/-- A read after a write to the same key gives the value written. -/
theorem tget_tset (t : Tab α) (k : Nat) (v : α) (h : twf t = true) : tget (tset t k v) k = v :=
  tget_tset_from t 0 k v h (Nat.zero_le k)

/-- The bound of a canonical table may be lowered. -/
theorem twfFrom_mono (t : Tab α) (lo lo' : Nat) (h : twfFrom lo t = true) (hl : lo' ≤ lo) : twfFrom lo' t = true := by
  cases t with
  | nil => rfl
  | cons x t =>
    obtain ⟨k, v⟩ := x
    simp only [twfFrom, Bool.and_eq_true, decide_eq_true_eq] at h ⊢
    exact ⟨⟨by omega, h.1.2⟩, h.2⟩

/-- A write keeps the canonical form above a bound. -/
theorem twfFrom_tset (t : Tab α) : ∀ lo k v, twfFrom lo t = true → lo ≤ k → twfFrom lo (tset t k v) = true := by
  induction t with
  | nil => intro lo k v _ hk; unfold tset; split <;> simp_all [twfFrom]
  | cons x t ih =>
    obtain ⟨k', v'⟩ := x
    intro lo k v h hk
    have h0 := h
    simp only [twfFrom, Bool.and_eq_true, decide_eq_true_eq] at h
    unfold tset
    split
    · split
      · exact h0
      · simp only [twfFrom, Bool.and_eq_true, decide_eq_true_eq]
        exact ⟨⟨hk, by assumption⟩, ⟨⟨by omega, h.1.2⟩, h.2⟩⟩
    · split
      · rename_i h1 h2
        subst h2
        split
        · exact twfFrom_mono t _ _ h.2 (by omega)
        · simp only [twfFrom, Bool.and_eq_true, decide_eq_true_eq]
          exact ⟨⟨hk, by assumption⟩, h.2⟩
      · simp only [twfFrom, Bool.and_eq_true, decide_eq_true_eq]
        exact ⟨h.1, ih (k' + 1) k v h.2 (by omega)⟩

/-- A write keeps the canonical form. -/
theorem twf_tset (t : Tab α) (k : Nat) (v : α) (h : twf t = true) : twf (tset t k v) = true :=
  twfFrom_tset t 0 k v h (Nat.zero_le k)

/-- Rewriting an entry keeps the canonical form. -/
theorem twf_tmod (t : Tab α) (k : Nat) (f : α → α) (h : twf t = true) : twf (tmod t k f) = true := twf_tset t k _ h

/-- Dropping entries keeps the canonical form above a bound. -/
theorem twfFrom_filter (p : Nat × α → Bool) (t : Tab α) : ∀ lo, twfFrom lo t = true → twfFrom lo (t.filter p) = true := by
  induction t with
  | nil => intros; rfl
  | cons x t ih =>
    obtain ⟨k, v⟩ := x
    intro lo h
    simp only [twfFrom, Bool.and_eq_true, decide_eq_true_eq] at h
    rw [List.filter_cons]
    split
    · simp only [twfFrom, Bool.and_eq_true, decide_eq_true_eq]
      exact ⟨h.1, ih _ h.2⟩
    · exact twfFrom_mono _ _ _ (ih _ h.2) (by omega)

/-- Dropping entries keeps the canonical form. -/
theorem twf_filter (p : Nat × α → Bool) (t : Tab α) (h : twf t = true) : twf (t.filter p) = true := twfFrom_filter p t 0 h

/-- Writing a list of entries keeps the canonical form. -/
theorem twf_foldl_tset {β : Type} (l : List β) (k : β → Nat) (v : β → α) :
    ∀ t : Tab α, twf t = true → twf (l.foldl (fun t x => tset t (k x) (v x)) t) = true := by
  induction l with
  | nil => intro t h; exact h
  | cons b l ih => intro t h; exact ih _ (twf_tset t (k b) (v b) h)

/-- Rewriting every entry keeps the canonical form above a bound. -/
theorem twfFrom_tmap (f : Nat → α → α) (t : Tab α) : ∀ lo, twfFrom lo t = true → twfFrom lo (tmap t f) = true := by
  induction t with
  | nil => intros; rfl
  | cons x t ih =>
    obtain ⟨k, v⟩ := x
    intro lo h
    simp only [twfFrom, Bool.and_eq_true, decide_eq_true_eq] at h
    have := ih _ h.2
    simp only [tmap, List.foldr_cons] at this ⊢
    split
    · exact twfFrom_mono _ _ _ this (by omega)
    · simp only [twfFrom, Bool.and_eq_true, decide_eq_true_eq]
      exact ⟨⟨h.1.1, by assumption⟩, this⟩

/-- Rewriting every entry keeps the canonical form. -/
theorem twf_tmap (t : Tab α) (f : Nat → α → α) (h : twf t = true) : twf (tmap t f) = true := twfFrom_tmap f t 0 h

/-- A table built anew is in canonical form. -/
theorem twf_tbuild {β : Type} [Inhabited β] [DecidableEq β] (t : Tab α) (f : Nat → α → β) : twf (tbuild t f) = true :=
  twf_foldl_tset t _ _ [] rfl

/-- The keys a write leaves are the old ones and its own. -/
theorem mem_tset (t : Tab α) (k : Nat) (v : α) (x : Nat × α) : x ∈ tset t k v → x ∈ t ∨ x = (k, v) := by
  induction t with
  | nil => unfold tset; split <;> simp
  | cons y t ih =>
    obtain ⟨k', v'⟩ := y
    unfold tset
    split
    · split
      · intro h; exact .inl h
      · intro h; simp only [List.mem_cons] at h ⊢; tauto
    · split
      · split
        · intro h; exact .inl (List.mem_cons_of_mem _ h)
        · intro h; simp only [List.mem_cons] at h ⊢; tauto
      · intro h
        simp only [List.mem_cons] at h ⊢
        rcases h with h | h
        · exact .inl (.inl h)
        · rcases ih h with h | h
          · exact .inl (.inr h)
          · exact .inr h

end Sys2Proof.Machine
end

