-- ==== Sys2Proof/Laws/Sound.lean ====
section
/-! SUPPORT. Laws/Sound.lean: every shared operation keeps the node's stores in order: one lemma per operation. -/

namespace Sys2Proof.Machine

/-- A fold of steps that each keep the stores in order keeps them in order. -/
theorem sound_foldl {α : Type} {f : Dev → α → Dev} (l : List α) :
    ∀ {d : Dev}, d.Sound → (∀ d a, d.Sound → (f d a).Sound) → (l.foldl f d).Sound := by
  induction l with
  | nil => intro d h _; exact h
  | cons a l ih => intro d h hf; exact ih (hf d a h) hf

theorem sound_foldl_pair {α β : Type} {f : β × Dev → α → β × Dev} (l : List α) :
    ∀ {p : β × Dev}, p.2.Sound → (∀ p a, p.2.Sound → (f p a).2.Sound) → (l.foldl f p).2.Sound := by
  induction l with
  | nil => intro p h _; exact h
  | cons a l ih => intro p h hf; exact ih (hf p a h) hf

/-- So does an iteration. -/
theorem sound_iter {f : Dev → Dev} (n : Nat) : ∀ {d : Dev}, d.Sound → (∀ d, d.Sound → (f d).Sound) → (iter f n d).Sound := by
  induction n with
  | zero => intro d h _; exact h
  | succ n ih => intro d h hf; exact ih (hf d h) hf

/-- An answer whose next state has its stores in order. -/
def Keeps (o : Ans) : Prop := ∀ t, o = .next t → t.dev.Sound

theorem keeps_run {f : Dev → Dev} {s : State} (hf : ∀ d, d.Sound → (f d).Sound) (h : s.dev.Sound) : Keeps (run f s) := by
  intro t ht
  cases ht
  exact hf _ h

theorem sound_gate {blk : Nat} {f : Dev → Dev} {d : Dev} (hf : ∀ d, d.Sound → (f d).Sound) (h : d.Sound) :
    (gate blk f d).Sound := by
  unfold gate; split
  · exact hf d h
  · exact h

/-! ### Steps of a proof: what a let, a pair, a match or an update does to the stores -/

theorem sound_letD {v : Dev} {B : Dev → Dev} (hv : v.Sound) (hB : ∀ d, d.Sound → (B d).Sound) : Dev.Sound (have d := v; B d) :=
  hB v hv

theorem sound_letD2 {α : Type} {v : Dev} {B : Dev → α × Dev} (hv : v.Sound) (hB : ∀ d, d.Sound → (B d).2.Sound) :
    Dev.Sound (have d := v; B d).2 := hB v hv

theorem sound_letP {β : Type} {v : β × Dev} {B : β × Dev → Dev} (hv : v.2.Sound) (hB : ∀ p : β × Dev, p.2.Sound → (B p).Sound) :
    Dev.Sound (have p := v; B p) := hB v hv

theorem sound_letP2 {α β : Type} {v : β × Dev} {B : β × Dev → α × Dev} (hv : v.2.Sound)
    (hB : ∀ p : β × Dev, p.2.Sound → (B p).2.Sound) : Dev.Sound (have p := v; B p).2 := hB v hv

theorem sound_letA {β : Sort _} {v : β} {B : β → Dev} (hB : ∀ a, (B a).Sound) : Dev.Sound (have a := v; B a) := hB v

theorem sound_letA2 {α : Type} {β : Sort _} {v : β} {B : β → α × Dev} (hB : ∀ a, (B a).2.Sound) :
    Dev.Sound (have a := v; B a).2 := hB v

theorem sound_letF0 {v : Dev → Dev} {B : (Dev → Dev) → Dev} (hv : ∀ d, d.Sound → (v d).Sound)
    (hB : ∀ f : Dev → Dev, (∀ d, d.Sound → (f d).Sound) → (B f).Sound) : Dev.Sound (have f := v; B f) := hB v hv

theorem sound_letF1 {β : Type} {v : β → Dev → Dev} {B : (β → Dev → Dev) → Dev} (hv : ∀ a d, d.Sound → (v a d).Sound)
    (hB : ∀ f : β → Dev → Dev, (∀ a d, d.Sound → (f a d).Sound) → (B f).Sound) : Dev.Sound (have f := v; B f) := hB v hv

theorem sound_letF2 {β γ : Type} {v : β → γ → Dev → Dev} {B : (β → γ → Dev → Dev) → Dev}
    (hv : ∀ a b d, d.Sound → (v a b d).Sound)
    (hB : ∀ f : β → γ → Dev → Dev, (∀ a b d, d.Sound → (f a b d).Sound) → (B f).Sound) : Dev.Sound (have f := v; B f) := hB v hv

theorem sound_mk {α : Type} {a : α} {d : Dev} (h : d.Sound) : Dev.Sound (a, d).2 := h

theorem sound_of_eq {α : Type} {p : α × Dev} {a : α} {d : Dev} (h : p = (a, d)) (hp : p.2.Sound) : d.Sound := by
  subst h; exact hp

theorem sound_of_eq3 {α β : Type} {p : α × β × Dev} {a : α} {b : β} {d : Dev} (h : p = (a, b, d)) (hp : p.2.2.Sound) :
    d.Sound := by
  subst h; exact hp

theorem sound_of_eq4 {α β γ : Type} {p : α × β × γ × Dev} {a : α} {b : β} {c : γ} {d : Dev} (h : p = (a, b, c, d))
    (hp : p.2.2.2.Sound) : d.Sound := by
  subst h; exact hp

theorem sound_id {d : Dev} (h : d.Sound) : (id d).Sound := h

/-- An operation that may be refused keeps the stores where it is done. -/
def SoundO (o : Option Dev) : Prop := ∀ e, o = some e → e.Sound

def SoundO2 {α : Type} (o : Option (α × Dev)) : Prop := ∀ x, o = some x → x.2.Sound

theorem soundO_none : SoundO none := fun _ h => by cases h

theorem soundO_some {d : Dev} (h : d.Sound) : SoundO (some d) := fun _ he => by cases he; exact h

theorem soundO2_none {α : Type} : SoundO2 (none : Option (α × Dev)) := fun _ h => by cases h

theorem soundO2_some {α : Type} {x : α × Dev} (h : x.2.Sound) : SoundO2 (some x) := fun _ he => by cases he; exact h

theorem sound_of_some {o : Option Dev} {d : Dev} (h : o = some d) (ho : SoundO o) : d.Sound := ho d h

theorem sound_of_some2 {α : Type} {o : Option (α × Dev)} {a : α} {d : Dev} (h : o = some (a, d))
    (ho : SoundO2 o) : d.Sound := ho _ h

theorem sound_upd {d e : Dev} (h1 : e.evr.buf = d.evr.buf) (h2 : e.evr.prot = d.evr.prot) (h3 : e.evr.flashQ = d.evr.flashQ)
    (h4 : e.mbx.warnLog = d.mbx.warnLog) (h5 : e.mbx.failLog = d.mbx.failLog) (h6 : e.mbx.fatalLog = d.mbx.fatalLog)
    (h7 : e.evr.log = d.evr.log) (h8 : twf d.ope.scratch = true → twf e.ope.scratch = true) (h9 : e.bfl.img = d.bfl.img)
    (h10 : e.bfl.log = d.bfl.log) (h11 : twf d.map.ent = true → twf e.map.ent = true)
    (h12 : twf d.med.rows = true → twf e.med.rows = true) (h13 : twf d.csh.dir = true → twf e.csh.dir = true)
    (h14 : twf d.pst.rows = true → twf e.pst.rows = true) (h : d.Sound) : e.Sound := by
  obtain ⟨a1, a2, a3, a4, a5, a6, a7, a8, a9, a10, a11, a12, a13, a14, a15⟩ := h
  unfold Dev.Sound; rw [h1, h2, h3, h4, h5, h6, h7, h9, h10]
  exact ⟨a1, a2, a3, a4, a5, a6, a7, a8, h8 a9, a10, a11, h11 a12, h12 a13, h13 a14, h14 a15⟩

/-- An update of one part of the device keeps the stores in order where the part keeps its own. -/
theorem sound_map {d : Dev} {m : FMap} (h : d.Sound) (hr : twf d.map.ent = true → twf m.ent = true) :
    Dev.Sound { d with map := m } :=
  sound_upd (d := d) rfl rfl rfl rfl rfl rfl rfl id rfl rfl hr id id id h

theorem sound_med {d : Dev} {m : Med} (h : d.Sound) (hr : twf d.med.rows = true → twf m.rows = true) :
    Dev.Sound { d with med := m } :=
  sound_upd (d := d) rfl rfl rfl rfl rfl rfl rfl id rfl rfl id hr id id h

theorem sound_csh {d : Dev} {c : Csh} (h : d.Sound) (hr : twf d.csh.dir = true → twf c.dir = true) :
    Dev.Sound { d with csh := c } :=
  sound_upd (d := d) rfl rfl rfl rfl rfl rfl rfl id rfl rfl id id hr id h

/-! ### Posting and the recorder -/

theorem sound_post {c v p0 p1 p2 p3 : Nat} {d : Dev} (h : d.Sound) : (post c v p0 p1 p2 p3 d).Sound := by
  unfold post
  obtain ⟨h1, h2⟩ := h
  dsimp only
  split
  · rename_i hn
    refine ⟨?_, h2⟩
    simp only [List.length_append, List.length_cons, List.length_nil]
    rcases hn with hn | hn <;> omega
  · exact ⟨h1, h2⟩

theorem sound_postIf {b : Bool} {c v p0 p1 p2 p3 : Nat} {d : Dev} (h : d.Sound) : (postIf b c v p0 p1 p2 p3 d).Sound := by
  unfold postIf; split
  · exact sound_post h
  · exact h

theorem sound_logPut {r : Rec} {d : Dev} (h : d.Sound) : (logPut r d).Sound := by
  obtain ⟨h1, h2, h3, h4, h5, h6, h7, h8, h9⟩ := h
  refine ⟨h1, h2, h3, h4, h5, h6, twf_tset _ _ _ h7, ?_, h9⟩
  intro x hx
  rcases mem_tset _ _ _ _ hx with hx | rfl
  · exact h8 x hx
  · rfl

theorem sound_thaw {d : Dev} (h : d.Sound) : (thaw d).Sound := by
  unfold thaw
  split
  · exact sound_foldl (f := fun d r => logPut r d) _ h fun d r hd => sound_logPut hd
  · exact h

theorem sound_emit {o : Out} {d : Dev} (h : d.Sound) : (emit o d).Sound := h

theorem sound_irq {b : Nat} {d : Dev} (h : d.Sound) : Dev.Sound (match d.mbx.policy[b - 1]? with
    | some p => if p % 4 = 1 then emit (.msix (1 + b)) d else d
    | none => d) := by
  split
  · split <;> exact h
  · exact h

theorem sound_cxlPut {sev : Nat} {r : Rec} {d : Dev} (h : d.Sound) : (cxlPut sev r d).Sound := by
  unfold cxlPut
  extract_lets e nh irq _ ovf
  have hirq : ∀ d', d'.Sound → (irq d').Sound := fun _ h => sound_irq h
  have hovf : ovf.Sound := h
  clear_value irq ovf nh
  obtain ⟨h1, h2, h3, h4, h5, h6, h7⟩ := h
  split
  · split
    · exact hirq _ ⟨h1, h2, h3, by rw [List.length_append, List.length_singleton]; omega, h5, h6, h7⟩
    · exact hovf
  · split
    · exact hirq _ ⟨h1, h2, h3, h4, by rw [List.length_append, List.length_singleton]; omega, h6, h7⟩
    · exact hovf
  · split
    · exact hirq _ ⟨h1, h2, h3, h4, h5, by rw [List.length_append, List.length_singleton]; omega, h7⟩
    · exact hovf
  · exact ⟨h1, h2, h3, h4, h5, h6, h7⟩

theorem sound_flashStart {d : Dev} (h : d.Sound) : (flashStart d).Sound := by
  unfold flashStart; split <;> exact h

theorem sound_flashKick {d : Dev} (h : d.Sound) : (flashKick d).Sound := by
  unfold flashKick; split
  · exact sound_flashStart h
  · exact h

theorem sound_protPut {d : Dev} {b : Prop} [Decidable b] {r : Rec} (hb : b → d.evr.prot.length < 1024) (h : d.Sound) :
    (if b then d.evr.prot ++ [r] else d.evr.prot).length ≤ 1024 := by
  split
  · rename_i hp; have := hb hp; rw [List.length_append, List.length_singleton]; omega
  · exact h.2.1

theorem sound_flashPut {d : Dev} {sev : Nat} {r : Rec} (hq : d.evr.flashQ.length < 4032 ∨ sev = 4 ∧ d.evr.flashQ.length < 4096)
    (h : d.Sound) : Dev.Sound { d with evr.flashQ := d.evr.flashQ ++ [r] } := by
  obtain ⟨a, b, c, e⟩ := h
  refine ⟨a, b, ?_, e⟩
  dsimp only
  rw [List.length_append, List.length_singleton]
  omega

theorem sound_acceptRec {p : Post} {d : Dev} (h : d.Sound) : (acceptRec p d).Sound := by
  unfold acceptRec
  extract_lets full protd flags r _ d1 d2 q _ d3 _
  have h1 : d1.Sound := ⟨h.1, sound_protPut (fun hp => hp.2) h, h.2.2⟩
  have h2 : d2.Sound := sound_cxlPut h1
  clear_value d2
  have h3 : ∀ d3 : Dev, d3.Sound → Dev.Sound (if d3.evr.frozen then { d3 with evr.hold := d3.evr.hold ++ [r] } else logPut r d3) := by
    intro d3 h3
    split
    · exact h3
    · exact sound_logPut h3
  apply h3
  simp only [d3]
  split
  · split
    · rename_i hq
      exact sound_flashKick (sound_flashPut hq h2)
    · exact h2
  · exact h2

theorem sound_compatPass {p : Post} {d : Dev} (h : d.Sound) : (compatPass p d).2.Sound := by
  unfold compatPass; split
  · split
    · split <;> exact h
    · split <;> exact h
  · exact h

theorem sound_acceptPost {p : Post} {d : Dev} (h : d.Sound) : (acceptPost p d).Sound := by
  have hc := sound_compatPass (p := p) h
  unfold acceptPost
  generalize compatPass p d = y at hc
  obtain ⟨ok, d'⟩ := y
  dsimp only at hc ⊢
  split
  · exact hc
  · split
    · exact hc
    · have : ∀ e : Dev, e.Sound → ((if (acceptRec p e).evr.protFull = true ∧ (!e.evr.protFull) = true then
          post 0xA004 3 p.code e.evr.seqNext 0 0 (acceptRec p e) else acceptRec p e)).Sound := by
        intro e he
        split
        · exact sound_post (sound_acceptRec he)
        · exact sound_acceptRec he
      apply this
      split
      · exact sound_post (sound_thaw hc)
      · exact hc

theorem sound_acceptOne {d : Dev} (h : d.Sound) : (acceptOne d).Sound := by
  unfold acceptOne; split
  · exact h
  · split
    · exact h
    · refine sound_acceptPost ?_
      obtain ⟨h1, h2⟩ := h
      refine ⟨?_, h2⟩
      exact Nat.le_trans (List.length_erase_le) h1

theorem sound_acceptAll {d : Dev} (h : d.Sound) : (acceptAll d).Sound := sound_iter _ h fun _ hd => sound_acceptOne hd

theorem sound_enterMode {m : Mode} {cause : Nat} {d : Dev} (h : d.Sound) : (enterMode m cause d).Sound :=
  sound_post (sound_thaw h)

end Sys2Proof.Machine
end

