-- ==== Sys2Proof/Laws/SoundOps.lean ====
section
/-! SUPPORT. Laws/SoundOps.lean: the operations of Ops.lean keep the node's stores in order. -/

namespace Sys2Proof.Machine

set_option linter.unusedVariables false

theorem sound_draw {d : Dev} (hS : d.Sound) : (draw d).2.Sound := by
  unfold draw
  exact sound_mk (by assumption)

theorem sound_darken {d : Dev} (hS : d.Sound) : (darken d).Sound := by
  unfold darken
  extract_lets +onlyGivenNames -underBinder d0
  clear_value d0
  assumption

theorem sound_fwCommit {w : FwWrite} {d : Dev} (hS : d.Sound) : (fwCommit w d).Sound := by
  unfold fwCommit
  split
  · assumption
  · assumption
  · assumption
  · assumption
  · assumption
  · assumption
  · assumption
  · assumption
  · assumption
  · assumption
  · assumption
  · assumption
  · assumption
  · assumption
  · split <;> assumption
  · assumption
  · assumption
  · assumption
  · assumption
  · assumption
  · refine sound_upd (d := d) rfl rfl rfl rfl rfl rfl rfl ?_ rfl rfl ?_ ?_ ?_ ?_ ?_
    · intro a0
      assumption
    · intro a1
      assumption
    · intro a2
      assumption
    · intro a3
      assumption
    · intro a4
      (dsimp only; refine twf_tmod _ _ _ ?_)
      assumption
    · assumption

theorem sound_fwWrite {w : FwWrite} {d : Dev} (hS : d.Sound) : (fwWrite w d).Sound := by
  unfold fwWrite
  split
  extract_lets +onlyGivenNames -underBinder d0
  have h1 : d0.Sound := by
    dsimp -zeta only [d0]
    exact sound_fwCommit (by assumption)
  clear_value d0
  extract_lets +onlyGivenNames -underBinder d2
  clear_value d2
  extract_lets +onlyGivenNames -underBinder d4
  clear_value d4
  extract_lets +onlyGivenNames -underBinder d6i0 d6
  have h7 : d6.Sound := by
    dsimp -zeta only [d6]
    assumption
  clear_value d6
  split
  · assumption
  · split
    exact sound_post (sound_of_eq (by assumption) (sound_draw (by assumption)))

theorem sound_supplyLow {part : ℕ} {row : ℕ} {d : Dev} (hS : d.Sound) : (supplyLow part row d).Sound := by
  unfold supplyLow
  exact sound_post (by assumption)

theorem sound_fwRefused {w : FwWrite} {d : Dev} (hS : d.Sound) : (fwRefused w d).Sound := by
  unfold fwRefused
  split <;> assumption

theorem sound_pstStart {d : Dev} (hS : d.Sound) : (pstStart d).Sound := by
  unfold pstStart
  split
  · assumption
  · split
    · assumption
    · split
      · assumption
      · split
        · assumption
        · split
          apply sound_fwRefused
          apply sound_supplyLow
          rename_i r0 r1
          refine sound_upd (d := r0) rfl rfl rfl rfl rfl rfl rfl id rfl rfl id id id id ?_
          exact sound_of_eq (by assumption) (sound_draw (by assumption))

theorem sound_fwPut {w : FwWrite} {d : Dev} (hS : d.Sound) : (fwPut w d).Sound := by
  unfold fwPut
  exact sound_pstStart (by assumption)

theorem sound_fwNow {w : FwWrite} {d : Dev} (hS : d.Sound) : (fwNow w d).Sound := by
  unfold fwNow
  split
  · assumption
  · split
    · exact sound_fwWrite (by assumption)
    · split
      exact sound_supplyLow (sound_of_eq (by assumption) (sound_draw (by assumption)))

end Sys2Proof.Machine
end

