-- ==== Sys2Proof/Laws/SoundBlocks.lean ====
section
/-! SUPPORT. Laws/SoundBlocks.lean: the operations of Blocks.lean keep the node's stores in order. -/

namespace Sys2Proof.Machine

set_option linter.unusedVariables false

theorem sound_verTake {n : ℕ} {d : Dev} (hS : d.Sound) : (verTake n d).2.Sound := by
  unfold verTake
  extract_lets +onlyGivenNames -underBinder d0
  clear_value d0
  extract_lets +onlyGivenNames -underBinder d2
  clear_value d2
  extract_lets +onlyGivenNames -underBinder d4i0 d4
  have h5 : d4.Sound := by
    dsimp -zeta only [d4]
    assumption
  clear_value d4
  refine sound_mk ?_
  split
  · exact sound_fwPut (by assumption)
  · assumption

theorem sound_blogAdd {type : ℕ} {die : ℕ} {plane : ℕ} {block : ℕ} {value : ℕ} {d : Dev} (hS : d.Sound) : (blogAdd type die plane block value d).Sound := by
  unfold blogAdd
  assumption

theorem sound_blogSb {type : ℕ} {key : ℕ} {d : Dev} (hS : d.Sound) : (blogSb type key d).Sound := by
  unfold blogSb
  extract_lets +onlyGivenNames -underBinder d0
  clear_value d0
  refine sound_foldl _ ?_ fun d2 a3 h4 => ?_
  · assumption
  · extract_lets +onlyGivenNames -underBinder d5
    clear_value d5
    exact sound_blogAdd (by assumption)

theorem sound_sbMod {key : ℕ} {f : Sb → Sb} {d : Dev} (hS : d.Sound) : (sbMod key f d).Sound := by
  unfold sbMod
  assumption

theorem sound_openLog {key : ℕ} {d : Dev} (hS : d.Sound) : (openLog key d).Sound := by
  unfold openLog
  split
  · assumption
  · extract_lets +onlyGivenNames -underBinder d0
    have h1 : d0.Sound := by
      dsimp -zeta only [d0]
      exact sound_blogSb (by assumption)
    clear_value d0
    exact sound_sbMod (by assumption)

theorem sound_sbOpen {key : ℕ} {kind : Kind} {d : Dev} (hS : d.Sound) : (sbOpen key kind d).Sound := by
  unfold sbOpen
  extract_lets +onlyGivenNames -underBinder d0
  clear_value d0
  exact sound_sbMod (by assumption)

theorem sound_pageNow {key : ℕ} {kind : Kind} {rows : List (ℕ × Tab Line)} {d : Dev} (hS : d.Sound) : (pageNow key kind rows d).Sound := by
  have hv : (verTake rows.length d).2.Sound := sound_verTake hS
  unfold pageNow
  generalize verTake rows.length d = v at hv ⊢
  obtain ⟨v, e⟩ := v
  exact sound_sbMod (sound_med hv fun h => twf_foldl_tset _ _ _ _ (twf_foldl_tset _ _ _ _ h))

theorem sound_anchorBlock {d : Dev} (hS : d.Sound) : (anchorBlock d).2.Sound := by
  have hn : ∀ e : Dev, e.Sound → (anchorBlock.next e).2.Sound := by
    intro e he
    unfold anchorBlock.next
    split
    · exact sound_fwPut (sound_sbOpen (sound_openLog (sound_map he id)))
    · exact he
  unfold anchorBlock
  split
  · split
    · exact hS
    · exact hn _ (sound_sbMod hS)
  · exact hn _ hS

theorem sound_anchorPut {a : Anchor} {d : Dev} (hS : d.Sound) : (anchorPut a d).Sound := by
  unfold anchorPut
  dsimp only
  split
  · rename_i h
    exact sound_pageNow (sound_of_eq h (sound_anchorBlock (sound_map hS id)))
  · rename_i h
    exact sound_of_eq h (sound_anchorBlock (sound_map hS id))

end Sys2Proof.Machine
end

