-- ==== Sys2Proof/Laws/SoundStop.lean ====
section
/-! SUPPORT. Laws/SoundStop.lean: the operations of Stop.lean keep the node's stores in order. -/

namespace Sys2Proof.Machine

set_option linter.unusedVariables false

theorem sound_overrun {cause : ℕ} {cls : ℕ} {cc : ℕ} {addr : ℕ} {d : Dev} (hS : d.Sound) : (overrun cause cls cc addr d).Sound := by
  unfold overrun
  exact sound_post (by assumption)

theorem sound_feedLines {lat : Lat} {d : Dev} (hS : d.Sound) : (feedLines lat d).Sound := by
  unfold feedLines
  refine sound_foldl _ ?_ fun d0 a1 h2 => ?_
  · assumption
  · extract_lets +onlyGivenNames -underBinder d3
    clear_value d3
    split <;> assumption

theorem sound_feedBin {cls : ℕ} {v : ℕ} {d : Dev} (hS : d.Sound) : (feedBin cls v d).Sound := by
  unfold feedBin
  assumption

theorem sound_overruns {causes : List ℕ} {cls : ℕ} {cc : ℕ} {addr : ℕ} {d : Dev} (hS : d.Sound) : (overruns causes cls cc addr d).Sound := by
  unfold overruns
  refine sound_foldl _ ?_ fun d0 a1 h2 => ?_
  · assumption
  · exact sound_overrun (by assumption)

theorem sound_account {cls : ℕ} {lat : Lat} {causes : List ℕ} {addr : ℕ} {h : ℕ} {slice : ℕ} {d : Dev} (hS : d.Sound) : (account cls lat causes addr h slice d).Sound := by
  unfold account
  extract_lets +onlyGivenNames -underBinder d0
  have h1 : d0.Sound := by
    dsimp -zeta only [d0]
    exact sound_feedBin (sound_feedLines (by assumption))
  clear_value d0
  extract_lets +onlyGivenNames -underBinder d2
  extract_lets +onlyGivenNames -underBinder d4
  clear_value d4
  split
  · assumption
  · split
    · split
      · assumption
      · exact sound_overruns (by assumption)
    · split
      · exact sound_overruns (by assumption)
      · split
        · exact sound_overrun (by assumption)
        · assumption

theorem sound_dramGrant {cls : ℕ} {n : ℕ} {d : Dev} (hS : d.Sound) : (dramGrant cls n d).Sound := by
  unfold dramGrant
  assumption

theorem sound_mediaGrant {cls : ℕ} {n : ℕ} {d : Dev} (hS : d.Sound) : (mediaGrant cls n d).Sound := by
  unfold mediaGrant
  assumption

theorem sound_completion {tr : Transport} {opcode : ℕ} {rc : ℕ} {out : List Byte} {d : Dev} (hS : d.Sound) : (completion tr opcode rc out d).Sound := by
  unfold completion
  extract_lets +onlyGivenNames -underBinder d0
  have h1 : d0.Sound := by
    dsimp -zeta only [d0]
    exact sound_emit (by assumption)
  clear_value d0
  split
  · split
    · exact sound_emit (by assumption)
    · assumption
  · split
    · exact sound_emit (by assumption)
    · assumption
  · assumption

theorem sound_cmdEnd {tr : Transport} {opcode : ℕ} {rc : ℕ} {out : List Byte} {ms : ℕ} {lost : Bool} {d : Dev} (hS : d.Sound) : (cmdEnd tr opcode rc out ms lost d).Sound := by
  unfold cmdEnd
  extract_lets +onlyGivenNames -underBinder d0i0 d0
  have h1 : d0.Sound := by
    dsimp -zeta only [d0]
    assumption
  clear_value d0
  split
  · exact sound_post (by assumption)
  · exact sound_completion (by assumption)

theorem sound_cmdAbort {entered : Mode} {d : Dev} (hS : d.Sound) : (cmdAbort entered d).Sound := by
  unfold cmdAbort
  split
  · assumption
  · extract_lets +onlyGivenNames -underBinder d0
    have h1 : d0.Sound := by
      dsimp -zeta only [d0]
      split
      · exact sound_post (by assumption)
      · assumption
    clear_value d0
    exact sound_post (sound_cmdEnd (by assumption))

theorem sound_stopMedia {d : Dev} (hS : d.Sound) : (stopMedia d).Sound := by
  unfold stopMedia
  assumption

theorem sound_stopAdmission {d : Dev} (hS : d.Sound) : (stopAdmission d).Sound := by
  unfold stopAdmission
  extract_lets +onlyGivenNames -underBinder d0
  have h1 : d0.Sound := by
    dsimp -zeta only [d0]
    refine sound_foldl _ ?_ fun d2 a3 h4 => ?_
    · assumption
    · exact sound_post (by assumption)
  clear_value d0
  assumption

theorem sound_sporeRows {s : Save} {d : Dev} (hS : d.Sound) : (sporeRows s d).Sound := by
  unfold sporeRows
  extract_lets +onlyGivenNames -underBinder d0
  clear_value d0
  extract_lets +onlyGivenNames -underBinder d2
  clear_value d2
  extract_lets +onlyGivenNames -underBinder d4
  clear_value d4
  refine sound_foldl _ ?_ fun d6 a7 h8 => ?_
  · assumption
  · split
    · assumption
    · extract_lets +onlyGivenNames -underBinder d9
      clear_value d9
      extract_lets +onlyGivenNames -underBinder d11
      have h12 : d11.Sound := by
        dsimp -zeta only [d11]
        refine sound_foldl _ ?_ fun d13 a14 h15 => ?_
        · exact sound_sbMod (by assumption)
        · exact sound_pageNow (by assumption)
      clear_value d11
      exact sound_sbMod (by assumption)

theorem sound_writeSpore {complete : Bool} {lost : List (ℕ × ℕ)} {d : Dev} (hS : d.Sound) : (writeSpore complete lost d).Sound := by
  unfold writeSpore
  extract_lets +onlyGivenNames -underBinder d0
  have h1 : d0.Sound := by
    dsimp -zeta only [d0]
    exact sound_acceptAll (by assumption)
  clear_value d0
  split
  · assumption
  · extract_lets +onlyGivenNames -underBinder d2
    have h3 : d2.Sound := by
      dsimp -zeta only [d2]
      exact sound_sporeRows (sound_anchorPut (by assumption))
    clear_value d2
    extract_lets +onlyGivenNames -underBinder d4
    have h5 : d4.Sound := by
      dsimp -zeta only [d4]
      split
      · exact sound_anchorPut (by assumption)
      · assumption
    clear_value d4
    assumption

theorem sound_hostDown {cause : ℕ} {d : Dev} (hS : d.Sound) : (hostDown cause d).Sound := by
  unfold hostDown
  exact sound_postIf (by assumption)

theorem sound_bypassClose {d : Dev} (hS : d.Sound) : (bypassClose d).Sound := by
  unfold bypassClose
  assumption

theorem sound_lanesDump {d : Dev} (hS : d.Sound) : (lanesDump d).Sound := sound_med hS id

theorem sound_tripStore {d : Dev} (hS : d.Sound) : (tripStore d).Sound := by
  unfold tripStore
  extract_lets +onlyGivenNames -underBinder d0
  have h1 : d0.Sound := by
    dsimp -zeta only [d0]
    split
    · exact sound_fwNow (by assumption)
    · assumption
  clear_value d0
  exact sound_fwNow (by assumption)

theorem sound_haltEntry {code : ℕ} {trip : Bool} {orderly : Bool} {complete : Bool} {d : Dev} (hS : d.Sound) : (haltEntry code trip orderly complete d).Sound := by
  unfold haltEntry
  split
  · assumption
  · extract_lets +onlyGivenNames -underBinder d0
    clear_value d0
    extract_lets +onlyGivenNames -underBinder d2
    clear_value d2
    extract_lets +onlyGivenNames -underBinder d4
    clear_value d4
    extract_lets +onlyGivenNames -underBinder d6
    have h7 : d6.Sound := by
      dsimp -zeta only [d6]
      apply sound_cmdAbort
      split
      · exact sound_tripStore (by assumption)
      · exact sound_fwNow (by assumption)
    clear_value d6
    extract_lets +onlyGivenNames -underBinder d8i0 d8i1 d8
    have h9 : d8.Sound := by
      dsimp -zeta only [d8]
      apply sound_hostDown
      split <;> assumption
    clear_value d8
    extract_lets +onlyGivenNames -underBinder d10
    have h11 : d10.Sound := by
      dsimp -zeta only [d10]
      exact sound_enterMode (sound_post (by assumption))
    clear_value d10
    extract_lets +onlyGivenNames -underBinder d12
    clear_value d12
    extract_lets +onlyGivenNames -underBinder d14i0 d14
    have h15 : d14.Sound := by
      dsimp -zeta only [d14]
      exact sound_writeSpore (by assumption)
    clear_value d14
    exact sound_darken (sound_bypassClose (sound_lanesDump (sound_stopMedia (sound_stopAdmission (by assumption)))))

theorem sound_tripFollow {d : Dev} (hS : d.Sound) : (tripFollow d).Sound := by
  unfold tripFollow
  split
  · exact sound_haltEntry (by assumption)
  · assumption

theorem sound_fatal {code : ℕ} {p0 : ℕ} {p1 : ℕ} {p2 : ℕ} {p3 : ℕ} {d : Dev} (hS : d.Sound) : (fatal code p0 p1 p2 p3 d).Sound := by
  unfold fatal
  split
  · exact sound_postIf (by assumption)
  · split
    · assumption
    · split
      · exact sound_post (by assumption)
      · exact sound_haltEntry (sound_post (by assumption))

end Sys2Proof.Machine
end

