-- ==== Sys2Proof/Laws/SoundFrond.lean ====
section
/-! SUPPORT. Laws/SoundFrond.lean: the operations of Frond.lean keep the node's stores in order. -/

namespace Sys2Proof.Machine

set_option linter.unusedVariables false

theorem sound_parWrite {m : ℕ} {f : Dev → Dev} {d : Dev} (hS : d.Sound) (hf : ∀ e, e.Sound → (f e).Sound) : (parWrite m f d).Sound := by
  unfold parWrite
  extract_lets +onlyGivenNames -underBinder d0
  have h1 : d0.Sound := by
    dsimp -zeta only [d0]
    solve_by_elim
  clear_value d0
  assumption

theorem sound_mapPut {f : ℕ} {e : Entry} {d : Dev} (hS : d.Sound) : (mapPut f e d).Sound := by
  unfold mapPut
  split
  · assumption
  · apply sound_parWrite
    · assumption
    · intro d0 h1
      refine sound_upd (d := d0) rfl rfl rfl rfl rfl rfl rfl ?_ rfl rfl ?_ ?_ ?_ ?_ ?_
      · intro a2
        assumption
      · intro a3
        exact twf_tset _ _ _ (by assumption)
      · intro a4
        assumption
      · intro a5
        assumption
      · intro a6
        assumption
      · assumption

theorem sound_cacheProbe {f : ℕ} {d : Dev} (hS : d.Sound) : (cacheProbe f d).2.Sound := by
  unfold cacheProbe
  extract_lets +onlyGivenNames -underBinder d0
  clear_value d0
  split <;> exact sound_mk (by assumption)

theorem sound_cacheFill {f : ℕ} {d : Dev} (hS : d.Sound) : (cacheFill f d).Sound := by
  unfold cacheFill
  assumption

theorem sound_cacheBad {f : ℕ} {d : Dev} (hS : d.Sound) : (cacheBad f d).Sound := by
  unfold cacheBad
  extract_lets +onlyGivenNames -underBinder d0
  clear_value d0
  split
  · exact sound_post (by assumption)
  · assumption

theorem sound_jAppend {f : ℕ} {e : Entry} {d : Dev} (hS : d.Sound) : (jAppend f e d).Sound := by
  unfold jAppend
  assumption

theorem sound_mapJournal {f : ℕ} {e : Entry} {d : Dev} (hS : d.Sound) : (mapJournal f e d).Sound := by
  unfold mapJournal
  exact sound_mapPut (sound_jAppend (by assumption))

theorem sound_rowMark {slot : ℕ} {v : Bool} {d : Dev} (hS : d.Sound) : (rowMark slot v d).Sound := by
  unfold rowMark
  assumption

theorem sound_rowsMoved {old : Entry} {new : Entry} {d : Dev} (hS : d.Sound) : (rowsMoved old new d).Sound := by
  unfold rowsMoved
  extract_lets +onlyGivenNames -underBinder d0
  have h1 : d0.Sound := by
    dsimp -zeta only [d0]
    split
    · exact sound_rowMark (by assumption)
    · assumption
  clear_value d0
  split
  · exact sound_rowMark (by assumption)
  · assumption

theorem sound_pidxAdd {f : ℕ} {mask : BitVec 64} {d : Dev} (hS : d.Sound) : (pidxAdd f mask d).Sound := by
  unfold pidxAdd
  split
  · assumption
  · split
    · assumption
    · exact sound_post (by assumption)

theorem sound_pidxDrop {f : ℕ} {d : Dev} (hS : d.Sound) : (pidxDrop f d).Sound := by
  unfold pidxDrop
  assumption

theorem sound_rescueAdd {f : ℕ} {why : Rescue} {d : Dev} (hS : d.Sound) : (rescueAdd f why d).Sound := by
  unfold rescueAdd
  split
  · assumption
  · split
    · assumption
    · exact sound_post (by assumption)

theorem sound_rescueDrop {f : ℕ} {d : Dev} (hS : d.Sound) : (rescueDrop f d).Sound := by
  unfold rescueDrop
  assumption

theorem sound_sparseFree {f : ℕ} {l : ℕ} {d : Dev} (hS : d.Sound) : (sparseFree f l d).Sound := by
  unfold sparseFree
  assumption

theorem sound_sparseFreeAll {f : ℕ} {d : Dev} (hS : d.Sound) : (sparseFreeAll f d).Sound := by
  unfold sparseFreeAll
  assumption

theorem sound_sparsePut {f : ℕ} {l : ℕ} {mask : BitVec 64} {d : Dev} (hS : d.Sound) : (sparsePut f l mask d).Sound := by
  unfold sparsePut
  split
  · assumption
  · extract_lets +onlyGivenNames -underBinder d0
    clear_value d0
    extract_lets +onlyGivenNames -underBinder d2
    clear_value d2
    assumption

theorem sound_setFlags {f : ℕ} {d : Dev} (hS : d.Sound) : (setFlags f d).Sound := by
  unfold setFlags
  extract_lets +onlyGivenNames -underBinder d0
  clear_value d0
  split
  · assumption
  · split <;> exact sound_mapPut (by assumption)

theorem sound_genNext {d : Dev} (hS : d.Sound) : (genNext d).2.Sound := by
  unfold genNext
  extract_lets +onlyGivenNames -underBinder d0
  clear_value d0
  extract_lets +onlyGivenNames -underBinder d2i0 d2
  have h3 : d2.Sound := by
    dsimp -zeta only [d2]
    assumption
  clear_value d2
  refine sound_mk ?_
  split
  · exact sound_fwPut (by assumption)
  · assumption

theorem sound_slotAlloc {f : ℕ} {d : Dev} (hS : d.Sound) : (slotAlloc f d).2.Sound := by
  unfold slotAlloc
  extract_lets +onlyGivenNames -underBinder d0
  clear_value d0
  extract_lets +onlyGivenNames -underBinder d2
  clear_value d2
  split
  extract_lets +onlyGivenNames -underBinder d4
  clear_value d4
  refine sound_mk ?_
  rename_i r6 r7
  refine sound_upd (d := r6) rfl rfl rfl rfl rfl rfl rfl ?_ rfl rfl ?_ ?_ ?_ ?_ ?_
  · intro a8
    assumption
  · intro a9
    assumption
  · intro a10
    assumption
  · intro a11
    exact twf_tset _ _ _ (by assumption)
  · intro a12
    assumption
  · exact sound_of_eq (by assumption) (sound_genNext (by assumption))

theorem sound_slotGet {f : ℕ} {d : Dev} (hS : d.Sound) : (slotGet f d).2.Sound := by
  unfold slotGet
  split
  · exact sound_mk (by assumption)
  · exact sound_slotAlloc (by assumption)

theorem sound_slotDrain {k : ℕ} {d : Dev} (hS : d.Sound) : (slotDrain k d).Sound := by
  unfold slotDrain
  extract_lets +onlyGivenNames -underBinder d0
  clear_value d0
  extract_lets +onlyGivenNames -underBinder d2
  have h3 : d2.Sound := by
    dsimp -zeta only [d2]
    exact sound_sparseFreeAll (by assumption)
  clear_value d2
  split
  · refine sound_upd (d := d2) rfl rfl rfl rfl rfl rfl rfl ?_ rfl rfl ?_ ?_ ?_ ?_ ?_
    · intro a4
      assumption
    · intro a5
      assumption
    · intro a6
      assumption
    · intro a7
      exact twf_tset _ _ _ (by assumption)
    · intro a8
      assumption
    · assumption
  · refine sound_upd (d := d2) rfl rfl rfl rfl rfl rfl rfl ?_ rfl rfl ?_ ?_ ?_ ?_ ?_
    · intro a9
      assumption
    · intro a10
      assumption
    · intro a11
      assumption
    · intro a12
      exact twf_tset _ _ _ (by assumption)
    · intro a13
      assumption
    · assumption

theorem sound_slotDiscard {f : ℕ} {d : Dev} (hS : d.Sound) : (slotDiscard f d).Sound := by
  unfold slotDiscard
  split
  · exact sound_slotDrain (by assumption)
  · assumption

theorem sound_slotUnread {k : ℕ} {id : ℕ} {d : Dev} (hS : d.Sound) : (slotUnread k id d).Sound := by
  unfold slotUnread
  extract_lets +onlyGivenNames -underBinder d0
  clear_value d0
  extract_lets +onlyGivenNames -underBinder d2
  clear_value d2
  refine sound_upd (d := d) rfl rfl rfl rfl rfl rfl rfl ?_ rfl rfl ?_ ?_ ?_ ?_ ?_
  · intro a4
    assumption
  · intro a5
    assumption
  · intro a6
    assumption
  · intro a7
    exact twf_tset _ _ _ (by assumption)
  · intro a8
    assumption
  · assumption

theorem sound_admitEval {d : Dev} (hS : d.Sound) : (admitEval d).Sound := by
  unfold admitEval
  extract_lets +onlyGivenNames -underBinder d0
  clear_value d0
  extract_lets +onlyGivenNames -underBinder d2
  clear_value d2
  extract_lets +onlyGivenNames -underBinder d4i0 d4i1 d4
  have h5 : d4.Sound := by
    dsimp -zeta only [d4]
    assumption
  clear_value d4
  split
  · exact sound_post (by assumption)
  · split <;> assumption

theorem sound_updAsk {u : Upd} {now : Dev → Dev} {d : Dev} (hS : d.Sound) (hnow : ∀ e, e.Sound → (now e).Sound) : (updAsk u now d).Sound := by
  unfold updAsk
  split
  · solve_by_elim
  · split
    · assumption
    · exact sound_post (by assumption)

theorem sound_makeFrondWide {f : ℕ} {d : Dev} (hS : d.Sound) : (makeFrondWide f d).Sound := by
  unfold makeFrondWide
  apply sound_updAsk
  · assumption
  · intro d0 h1
    extract_lets +onlyGivenNames -underBinder d2
    clear_value d2
    extract_lets +onlyGivenNames -underBinder d4i0 d4
    clear_value d4
    exact sound_pidxAdd (sound_rowsMoved (sound_mapJournal (by assumption)))

theorem sound_setPoison {f : ℕ} {d : Dev} (hS : d.Sound) : (setPoison f d).Sound := by
  unfold setPoison
  extract_lets +onlyGivenNames -underBinder d0
  clear_value d0
  split
  · assumption
  · apply sound_updAsk
    · assumption
    · intro d2 h3
      exact sound_mapJournal (by assumption)

theorem sound_stagePoison {f : ℕ} {l : ℕ} {d : Dev} (hS : d.Sound) : (stagePoison f l d).2.Sound := by
  unfold stagePoison
  split <;> exact sound_mk (by assumption)

theorem sound_clearPoisonBit {f : ℕ} {d : Dev} (hS : d.Sound) : (clearPoisonBit f d).Sound := by
  unfold clearPoisonBit
  extract_lets +onlyGivenNames -underBinder d0
  clear_value d0
  split
  · apply sound_updAsk
    · assumption
    · intro d2 h3
      exact sound_pidxDrop (sound_mapJournal (by assumption))
  · exact sound_pidxDrop (by assumption)

theorem sound_shedRow {shed : Bool} {f : ℕ} {d : Dev} (hS : d.Sound) : (shedRow shed f d).Sound := by
  unfold shedRow
  extract_lets +onlyGivenNames -underBinder d0
  clear_value d0
  extract_lets +onlyGivenNames -underBinder d2
  clear_value d2
  split <;> assumption

theorem sound_releaseNow {shed : Bool} {f : ℕ} {d : Dev} (hS : d.Sound) : (releaseNow shed f d).Sound := by
  unfold releaseNow
  exact sound_pidxDrop (sound_rowsMoved (sound_mapJournal (sound_slotDiscard (sound_shedRow (by assumption)))))

theorem sound_releaseFrond {shed : Bool} {f : ℕ} {d : Dev} (hS : d.Sound) : (releaseFrond shed f d).Sound := by
  unfold releaseFrond
  split
  · assumption
  · apply sound_updAsk
    · assumption
    · intro d0 h1
      exact sound_releaseNow (by assumption)

end Sys2Proof.Machine
end

