-- ==== Sys2Proof/Laws/SoundRingOps.lean ====
section
/-! SUPPORT. Laws/SoundRingOps.lean: the operations of RingOps.lean keep the node's stores in order. -/

namespace Sys2Proof.Machine

set_option linter.unusedVariables false

theorem sound_portMod {side : Side} {f : RPort → RPort} {d : Dev} (hS : d.Sound) : (portMod side f d).Sound := by
  unfold portMod
  split <;> assumption

theorem sound_queueCell {ringB : Bool} {q : QCell} {d : Dev} (hS : d.Sound) : (queueCell ringB q d).Sound := by
  unfold queueCell
  extract_lets +onlyGivenNames -underBinder d0
  clear_value d0
  split <;> exact sound_portMod (by assumption)

theorem sound_portSend {side : Side} (n : ℕ) : ∀ {m : ℕ} {d : Dev}, d.Sound → (portSend side n m d).Sound := by
  induction n with
  | zero => intro m d h; exact h
  | succ n ih =>
    intro m d h
    unfold portSend
    split
    · exact h
    · split
      · exact h
      · exact ih (sound_emit (sound_portMod h))

theorem sound_linkFree {side : Side} {vc : ℕ} {units : ℕ} {d : Dev} (hS : d.Sound) : (linkFree side vc units d).Sound := by
  unfold linkFree
  exact sound_portMod (by assumption)

theorem sound_portTick {side : Side} {d : Dev} (hS : d.Sound) : (portTick side d).Sound := by
  unfold portTick
  extract_lets +onlyGivenNames -underBinder d0
  clear_value d0
  extract_lets +onlyGivenNames -underBinder d2
  have h3 : d2.Sound := by
    dsimp -zeta only [d2]
    split
    · assumption
    · apply sound_portMod
      apply sound_draw
      assumption
  clear_value d2
  extract_lets +onlyGivenNames -underBinder d4
  have h5 : d4.Sound := by
    dsimp -zeta only [d4]
    split
    · assumption
    · apply sound_emit
      apply sound_portMod
      assumption
  clear_value d4
  apply sound_portSend
  assumption

theorem sound_frame {type : ℕ} {payload : List ℕ} {d : Dev} (hS : d.Sound) : (frame type payload d).Sound := by
  unfold frame
  split <;> assumption

theorem sound_lineSeen {type : ℕ} {d : Dev} (hS : d.Sound) : (lineSeen type d).Sound := by
  unfold lineSeen
  split
  · split <;> assumption
  · assumption

theorem sound_lineTick {d : Dev} (hS : d.Sound) : (lineTick d).Sound := by
  unfold lineTick
  split
  · split
    · exact sound_emit (by assumption)
    · assumption
  · split <;> assumption

theorem sound_sendCell {type : ℕ} {dst : ℕ} {tag : ℕ} {line : ℕ} {ringB : Bool} {status : ℕ} {poison : Bool} {payload : List ℕ} {d : Dev} (hS : d.Sound) : (sendCell type dst tag line ringB status poison payload d).Sound := by
  unfold sendCell
  exact sound_queueCell (by assumption)

theorem sound_cellTo {type : ℕ} {dst : ℕ} {tag : ℕ} {line : ℕ} {status : ℕ} {payload : List ℕ} {d : Dev} (hS : d.Sound) : (cellTo type dst tag line status payload d).Sound := by
  unfold cellTo
  exact sound_sendCell (by assumption)

theorem sound_cellAll {type : ℕ} {status : ℕ} {payload : List ℕ} {d : Dev} (hS : d.Sound) : (cellAll type status payload d).Sound := by
  unfold cellAll
  refine sound_foldl _ ?_ fun d0 a1 h2 => ?_
  · assumption
  · exact sound_cellTo (by assumption)

theorem sound_acceptCell {c : Cell} {type : ℕ} {cipher : Bool} {d : Dev} (hS : d.Sound) : (acceptCell c type cipher d).2.Sound := by
  unfold acceptCell
  split
  · exact sound_mk (by assumption)
  · extract_lets +onlyGivenNames -underBinder d0
    have h1 : d0.Sound := by
      dsimp -zeta only [d0]
      exact sound_linkFree (by assumption)
    clear_value d0
    split
    · exact sound_mk (by assumption)
    · split
      · exact sound_mk (by assumption)
      · split
        · extract_lets +onlyGivenNames -underBinder d2
          clear_value d2
          extract_lets +onlyGivenNames -underBinder d4
          clear_value d4
          exact sound_mk (sound_postIf (by assumption))
        · extract_lets +onlyGivenNames -underBinder d6
          clear_value d6
          extract_lets +onlyGivenNames -underBinder d8
          clear_value d8
          extract_lets +onlyGivenNames -underBinder d10
          clear_value d10
          split
          · exact sound_mk (by assumption)
          · extract_lets +onlyGivenNames -underBinder d12
            clear_value d12
            exact sound_mk (by assumption)

theorem sound_snpAnswer {d : Dev} (hS : d.Sound) : (snpAnswer d).Sound := by
  unfold snpAnswer
  split
  refine sound_foldl _ ?_ fun d0 a1 h2 => ?_
  · assumption
  · split
    · assumption
    · exact sound_cellTo (by assumption)

theorem sound_creditTake {owner : ℕ} {ringB : Bool} {d : Dev} (hS : d.Sound) : SoundO (creditTake owner ringB d) := by
  unfold creditTake
  extract_lets +onlyGivenNames -underBinder d0
  clear_value d0
  split
  · split
    · exact soundO_some (by assumption)
    · apply soundO_none
  · split
    · exact soundO_some (by assumption)
    · apply soundO_none

theorem sound_creditGive {owner : ℕ} {a : ℕ} {b : ℕ} {d : Dev} (hS : d.Sound) : (creditGive owner a b d).Sound := by
  unfold creditGive
  assumption

theorem sound_remoteSend {r : Remote} {d : Dev} (hS : d.Sound) : (remoteSend r d).2.Sound := by
  unfold remoteSend
  extract_lets +onlyGivenNames -underBinder d0
  split
  · exact sound_mk (by assumption)
  · extract_lets +onlyGivenNames -underBinder d2
    clear_value d2
    split
    · exact sound_mk (sound_sendCell (by assumption))
    · split
      · exact sound_mk (by assumption)
      · exact sound_mk (sound_sendCell (sound_of_some (by assumption) (sound_creditTake (by assumption))))

theorem sound_remotePut {r : Remote} {d : Dev} (hS : d.Sound) : (remotePut r d).Sound := by
  unfold remotePut
  assumption

theorem sound_remoteStart {hostTag : ℕ} {addr : ℕ} {wr : Option WrBody} {causes : List ℕ} {d : Dev} (hS : d.Sound) : (remoteStart hostTag addr wr causes d).Sound := by
  unfold remoteStart
  extract_lets +onlyGivenNames -underBinder d0
  clear_value d0
  extract_lets +onlyGivenNames -underBinder d2i0 d2
  have h3 : d2.Sound := by
    dsimp -zeta only [d2]
    assumption
  clear_value d2
  split
  rename_i r4 r5
  refine sound_upd (d := r4) rfl rfl rfl rfl rfl rfl rfl id rfl rfl id id id id ?_
  exact sound_of_eq (by assumption) (sound_remoteSend (by assumption))

theorem sound_remoteRetryAll {d : Dev} (hS : d.Sound) : (remoteRetryAll d).Sound := by
  unfold remoteRetryAll
  refine sound_foldl _ ?_ fun d0 a1 h2 => ?_
  · assumption
  · split
    · split
      exact sound_remotePut (sound_of_eq (by assumption) (sound_remoteSend (by assumption)))
    · assumption

theorem sound_topoChange {d : Dev} (hS : d.Sound) : (topoChange d).Sound := by
  unfold topoChange
  extract_lets +onlyGivenNames -underBinder d0
  clear_value d0
  exact sound_remoteRetryAll (by assumption)

theorem sound_subsGone {index : ℕ} {d : Dev} (hS : d.Sound) : (subsGone index d).Sound := by
  unfold subsGone
  extract_lets +onlyGivenNames -underBinder d0
  clear_value d0
  extract_lets +onlyGivenNames -underBinder d2
  have h3 : d2.Sound := by
    dsimp -zeta only [d2]
    refine sound_foldl _ ?_ fun d4 a5 h6 => ?_
    · assumption
    · exact sound_post (by assumption)
  clear_value d2
  assumption

theorem sound_freshKeyid {d : Dev} (hS : d.Sound) : (freshKeyid d).2.Sound := by
  unfold freshKeyid
  extract_lets +onlyGivenNames -underBinder d0
  clear_value d0
  split
  extract_lets +onlyGivenNames -underBinder d2
  clear_value d2
  extract_lets +onlyGivenNames -underBinder d4
  clear_value d4
  refine sound_mk ?_
  rename_i r6 r7
  refine sound_upd (d := r6) rfl rfl rfl rfl rfl rfl rfl id rfl rfl id id id id ?_
  exact sound_of_eq (by assumption) (sound_draw (by assumption))

theorem sound_epochSwitch {epoch : ℕ} {keyid : ℕ} {cause : ℕ} {d : Dev} (hS : d.Sound) : (epochSwitch epoch keyid cause d).Sound := by
  unfold epochSwitch
  exact sound_post (by assumption)

theorem sound_epochStart {cause : ℕ} {d : Dev} (hS : d.Sound) : (epochStart cause d).Sound := by
  unfold epochStart
  split
  · assumption
  · split
    extract_lets +onlyGivenNames -underBinder d0
    clear_value d0
    split
    · exact sound_epochSwitch (sound_of_eq (by assumption) (sound_freshKeyid (by assumption)))
    · apply sound_cellAll
      rename_i r2 r3 r4
      refine sound_upd (d := r2) rfl rfl rfl rfl rfl rfl rfl id rfl rfl id id id id ?_
      exact sound_of_eq (by assumption) (sound_freshKeyid (by assumption))

theorem sound_epochAsk {d : Dev} (hS : d.Sound) : (epochAsk d).Sound := by
  unfold epochAsk
  split
  · assumption
  · split
    · exact sound_epochStart (by assumption)
    · exact sound_cellTo (by assumption)

theorem sound_seqWatch {d : Dev} (hS : d.Sound) : (seqWatch d).Sound := by
  unfold seqWatch
  split
  · exact sound_epochStart (by assumption)
  · assumption

theorem sound_linkTick {d : Dev} (hS : d.Sound) : (linkTick d).Sound := by
  unfold linkTick
  split
  · assumption
  · apply sound_lineTick
    split
    · exact sound_seqWatch (sound_portTick (sound_portTick (by assumption)))
    · assumption

theorem sound_cdatRebuild {d : Dev} (hS : d.Sound) : (cdatRebuild d).Sound := by
  unfold cdatRebuild
  split
  · assumption
  · extract_lets +onlyGivenNames -underBinder d0
    clear_value d0
    exact sound_post (by assumption)

theorem sound_winDrop {port : ℕ} {dec : ℕ} {d : Dev} (hS : d.Sound) : (winDrop port dec d).Sound := by
  unfold winDrop
  assumption

theorem sound_winPut {w : Win} {st : WinSt} {d : Dev} (hS : d.Sound) : (winPut w st d).Sound := by
  unfold winPut
  extract_lets +onlyGivenNames -underBinder d0
  have h1 : d0.Sound := by
    dsimp -zeta only [d0]
    exact sound_winDrop (by assumption)
  clear_value d0
  split <;> assumption

theorem sound_winRelease {w : Win} {d : Dev} (hS : d.Sound) : (winRelease w d).Sound := by
  unfold winRelease
  exact sound_winDrop (sound_cellAll (by assumption))

end Sys2Proof.Machine
end

