-- ==== Sys2Proof/Laws/SoundLinePath.lean ====
section
/-! SUPPORT. Laws/SoundLinePath.lean: the operations of LinePath.lean keep the node's stores in order. -/

namespace Sys2Proof.Machine

set_option linter.unusedVariables false

theorem sound_sfThresholds {d : Dev} (hS : d.Sound) : (sfThresholds d).Sound := by
  unfold sfThresholds
  extract_lets +onlyGivenNames -underBinder d0
  clear_value d0
  extract_lets +onlyGivenNames -underBinder d2i0 d2
  have h3 : d2.Sound := by
    dsimp -zeta only [d2]
    assumption
  clear_value d2
  split
  · split <;> assumption
  · split
    · exact sound_post (by assumption)
    · assumption

theorem sound_sfDrop {a : ℕ} {d : Dev} (hS : d.Sound) : (sfDrop a d).Sound := by
  unfold sfDrop
  split <;> assumption

theorem sound_sfPut {a : ℕ} {st : SfSt} {d : Dev} (hS : d.Sound) : (sfPut a st d).Sound := by
  unfold sfPut
  extract_lets +onlyGivenNames -underBinder d0
  clear_value d0
  split
  · assumption
  · extract_lets +onlyGivenNames -underBinder d2
    clear_value d2
    extract_lets +onlyGivenNames -underBinder d4i0 d4
    have h5 : d4.Sound := by
      dsimp -zeta only [d4]
      assumption
    clear_value d4
    split
    · exact sound_sfThresholds (by assumption)
    · assumption

theorem sound_sfAfter {rd : Bool} {wrq : Bool} {mv : Meta} {a : ℕ} {d : Dev} (hS : d.Sound) : (sfAfter rd wrq mv a d).Sound := by
  unfold sfAfter
  extract_lets +onlyGivenNames -underBinder d0
  clear_value d0
  split
  · split
    · exact sound_sfPut (by assumption)
    · assumption
  · split
    · exact sound_sfPut (by assumption)
    · split
      · exact sound_sfPut (by assumption)
      · assumption
  · exact sound_sfDrop (by assumption)
  · split
    · exact sound_sfPut (by assumption)
    · split
      · exact sound_sfPut (by assumption)
      · assumption

theorem sound_notServed {cause : ℕ} {a : ℕ} {d : Dev} (hS : d.Sound) : (notServed cause a d).Sound := by
  unfold notServed
  extract_lets +onlyGivenNames -underBinder d0
  clear_value d0
  exact sound_postIf (by assumption)

theorem sound_toHost {tag : ℕ} {o : Out} {d : Dev} (hS : d.Sound) : (toHost tag o d).Sound := by
  unfold toHost
  split
  · exact sound_emit (by assumption)
  · assumption

theorem sound_poisonHost {tag : ℕ} {d : Dev} (hS : d.Sound) : (poisonHost tag d).Sound := by
  unfold poisonHost
  exact sound_toHost (by assumption)

theorem sound_ndrHost {tag : ℕ} {d : Dev} (hS : d.Sound) : (ndrHost tag d).Sound := by
  unfold ndrHost
  exact sound_toHost (by assumption)

theorem sound_hostCredit {tag : ℕ} {d : Dev} (hS : d.Sound) : (hostCredit tag d).Sound := by
  unfold hostCredit
  split
  · assumption
  · split <;> assumption

theorem sound_ideDrop {fx : ReqFx} {d : Dev} (hS : d.Sound) : (ideDrop fx d).Sound := by
  unfold ideDrop
  extract_lets +onlyGivenNames -underBinder d0
  clear_value d0
  exact sound_postIf (by assumption)

theorem sound_reqPut {r : Req} {d : Dev} (hS : d.Sound) : (reqPut r d).Sound := by
  unfold reqPut
  assumption

theorem sound_reqDrop {r : Req} {d : Dev} (hS : d.Sound) : (reqDrop r d).Sound := by
  unfold reqDrop
  extract_lets +onlyGivenNames -underBinder d0i0 d0
  have h1 : d0.Sound := by
    dsimp -zeta only [d0]
    assumption
  clear_value d0
  split
  · exact sound_slotUnread (by assumption)
  · assumption

theorem sound_finishRead {r : Req} {data : Line} {poison : Bool} {lat : Lat} {d : Dev} (hS : d.Sound) : (finishRead r data poison lat d).Sound := by
  unfold finishRead
  extract_lets +onlyGivenNames -underBinder d0
  have h1 : d0.Sound := by
    dsimp -zeta only [d0]
    exact sound_reqDrop (by assumption)
  clear_value d0
  extract_lets +onlyGivenNames -underBinder d2
  clear_value d2
  split
  · exact sound_account (sound_toHost (by assumption))
  · exact sound_overruns (sound_feedLines (sound_sendCell (by assumption)))
  · assumption

theorem sound_finishWrite {r : Req} {lat : Lat} {d : Dev} (hS : d.Sound) : (finishWrite r lat d).Sound := by
  unfold finishWrite
  extract_lets +onlyGivenNames -underBinder d0
  have h1 : d0.Sound := by
    dsimp -zeta only [d0]
    exact sound_admitEval (sound_reqDrop (by assumption))
  clear_value d0
  split
  · exact sound_account (sound_hostCredit (sound_ndrHost (by assumption)))
  · extract_lets +onlyGivenNames -underBinder d2
    clear_value d2
    extract_lets +onlyGivenNames -underBinder d4i0 d4
    have h5 : d4.Sound := by
      dsimp -zeta only [d4]
      assumption
    clear_value d4
    extract_lets +onlyGivenNames -underBinder d6i0 d6i1 d6
    have h7 : d6.Sound := by
      dsimp -zeta only [d6]
      split
      · assumption
      · split <;> assumption
    clear_value d6
    exact sound_overruns (sound_feedLines (sound_sendCell (by assumption)))
  · assumption

theorem sound_reqsCover {f : ℕ} {l : ℕ} {d : Dev} (hS : d.Sound) : (reqsCover f l d).Sound := by
  unfold reqsCover
  assumption

theorem sound_cushWrite {f : ℕ} {l : ℕ} {w : WrBody} {d : Dev} (hS : d.Sound) : (cushWrite f l w d).Sound := by
  unfold cushWrite
  extract_lets +onlyGivenNames -underBinder d0
  extract_lets +onlyGivenNames -underBinder d2
  clear_value d2
  split
  extract_lets +onlyGivenNames -underBinder d4
  clear_value d4
  extract_lets +onlyGivenNames -underBinder d6
  clear_value d6
  extract_lets +onlyGivenNames -underBinder d8
  clear_value d8
  extract_lets +onlyGivenNames -underBinder d10
  clear_value d10
  extract_lets +onlyGivenNames -underBinder d12
  clear_value d12
  extract_lets +onlyGivenNames -underBinder d14
  have h15 : d14.Sound := by
    dsimp -zeta only [d14]
    split
    · exact sound_reqsCover (sound_of_eq (by assumption) (sound_slotGet (by assumption)))
    · exact sound_of_eq (by assumption) (sound_slotGet (by assumption))
  clear_value d14
  extract_lets +onlyGivenNames -underBinder d16
  have h17 : d16.Sound := by
    dsimp -zeta only [d16]
    split
    · exact sound_sparsePut (by assumption)
    · exact sound_sparseFree (by assumption)
  clear_value d16
  extract_lets +onlyGivenNames -underBinder d18
  clear_value d18
  extract_lets +onlyGivenNames -underBinder d20
  clear_value d20
  extract_lets +onlyGivenNames -underBinder d22i0 d22i1 d22
  have h23 : d22.Sound := by
    dsimp -zeta only [d22]
    apply sound_setFlags
    refine sound_upd (d := d16) rfl rfl rfl rfl rfl rfl rfl ?_ rfl rfl ?_ ?_ ?_ ?_ ?_
    · intro a24
      assumption
    · intro a25
      assumption
    · intro a26
      assumption
    · intro a27
      exact twf_tset _ _ _ (by assumption)
    · intro a28
      assumption
    · assumption
  clear_value d22
  split
  · exact sound_setPoison (sound_pidxAdd (by assumption))
  · assumption

theorem sound_beyondLimit {a : ℕ} {wr : Bool} {who : ℕ} {d : Dev} (hS : d.Sound) : (beyondLimit a wr who d).Sound := by
  unfold beyondLimit
  exact sound_post (by assumption)

theorem sound_frozenWrite {f : ℕ} {a : ℕ} {cls : ℕ} {d : Dev} (hS : d.Sound) : (frozenWrite f a cls d).Sound := by
  unfold frozenWrite
  extract_lets +onlyGivenNames -underBinder d0
  clear_value d0
  extract_lets +onlyGivenNames -underBinder d2
  clear_value d2
  exact sound_postIf (by assumption)

theorem sound_exhaustedWrite {f : ℕ} {a : ℕ} {cls : ℕ} {d : Dev} (hS : d.Sound) : (exhaustedWrite f a cls d).Sound := by
  unfold exhaustedWrite
  extract_lets +onlyGivenNames -underBinder d0i0 d0i1 d0
  have h1 : d0.Sound := by
    dsimp -zeta only [d0]
    apply sound_post
    refine sound_upd (d := d0i0) rfl rfl rfl rfl rfl rfl rfl id rfl rfl id id id id ?_
    dsimp -zeta only [d0i0]
    exact sound_makeFrondWide (by assumption)
  clear_value d0
  split
  · assumption
  · exact sound_post (sound_fwPut (by assumption))

theorem sound_writeLine {f : ℕ} {l : ℕ} {w : WrBody} {a : ℕ} {cls : ℕ} {who : ℕ} {d : Dev} (hS : d.Sound) : (writeLine f l w a cls who d).Sound := by
  unfold writeLine
  split
  · exact sound_beyondLimit (by assumption)
  · extract_lets +onlyGivenNames -underBinder d0i0 d0
    have h1 : d0.Sound := by
      dsimp -zeta only [d0]
      split <;> assumption
    clear_value d0
    split
    · exact sound_frozenWrite (by assumption)
    · split
      · exact sound_exhaustedWrite (by assumption)
      · exact sound_cushWrite (by assumption)

theorem sound_lookup {r : Req} {d : Dev} (hS : d.Sound) : (lookup r d).2.Sound := by
  unfold lookup
  extract_lets +onlyGivenNames -underBinder d0
  have h1 : d0.Sound := by
    dsimp -zeta only [d0]
    split
    · exact sound_slotUnread (by assumption)
    · assumption
  clear_value d0
  extract_lets +onlyGivenNames -underBinder d2
  clear_value d2
  dsimp only
  split
  · dsimp only
    assumption
  · split
    · dsimp only
      assumption
    · dsimp only
      refine sound_upd (d := d0) rfl rfl rfl rfl rfl rfl rfl ?_ rfl rfl ?_ ?_ ?_ ?_ ?_
      · intro a4
        assumption
      · intro a5
        assumption
      · intro a6
        assumption
      · intro a7
        exact twf_tset _ _ _ (by assumption)
      · intro a8
        assumption
      · assumption

theorem sound_mediaPlan {r : Req} {d : Dev} (hS : d.Sound) : (mediaPlan r d).2.Sound := by
  unfold mediaPlan
  extract_lets +onlyGivenNames -underBinder d0
  clear_value d0
  extract_lets +onlyGivenNames -underBinder d2
  clear_value d2
  extract_lets +onlyGivenNames -underBinder d4
  clear_value d4
  extract_lets +onlyGivenNames -underBinder d6
  clear_value d6
  extract_lets +onlyGivenNames -underBinder d8
  clear_value d8
  split
  · exact sound_mk (sound_fatal (by assumption))
  · split
    · exact sound_mk (sound_fatal (by assumption))
    · extract_lets +onlyGivenNames -underBinder d10
      clear_value d10
      extract_lets +onlyGivenNames -underBinder d12
      clear_value d12
      exact sound_mk (sound_mediaGrant (by assumption))

theorem sound_mediaStart {r : Req} {d : Dev} (hS : d.Sound) : (mediaStart r d).Sound := by
  unfold mediaStart
  split
  · exact sound_reqPut (sound_of_eq (by assumption) (sound_mediaPlan (by assumption)))
  · exact sound_of_eq (by assumption) (sound_mediaPlan (by assumption))

theorem sound_cushionStart {r : Req} {d : Dev} (hS : d.Sound) : (cushionStart r d).2.Sound := by
  unfold cushionStart
  split
  · exact sound_mk (by assumption)
  · exact sound_mk (sound_dramGrant (by assumption))

theorem sound_proceed {r : Req} {lat : Lat} {d : Dev} (hS : d.Sound) : (proceed r lat d).Sound := by
  unfold proceed
  split
  · exact sound_finishWrite (sound_writeLine (by assumption))
  · extract_lets +onlyGivenNames -underBinder d0
    clear_value d0
    extract_lets +onlyGivenNames -underBinder d2
    clear_value d2
    split
    · split
      apply sound_reqPut
      rename_i r4 r5
      refine sound_upd (d := r4) rfl rfl rfl rfl rfl rfl rfl id rfl rfl id id id id ?_
      exact sound_of_eq (by assumption) (sound_cushionStart (by assumption))
    · exact sound_finishRead (by assumption)
    · exact sound_finishRead (by assumption)
    · split
      apply sound_mediaStart
      apply sound_reqPut
      rename_i r6 r7
      refine sound_upd (d := r6) rfl rfl rfl rfl rfl rfl rfl id rfl rfl id id id id ?_
      exact sound_of_eq (by assumption) (sound_cushionStart (by assumption))
    · exact sound_mediaStart (by assumption)

theorem sound_mapBurst {cls : ℕ} {f : ℕ} {d : Dev} (hS : d.Sound) : (mapBurst cls f d).Sound := by
  unfold mapBurst
  extract_lets +onlyGivenNames -underBinder d0
  clear_value d0
  exact sound_dramGrant (by assumption)

theorem sound_lineErr {m : ℕ} {bad : BitVec 64} {d : Dev} (hS : d.Sound) : (lineErr m bad d).Sound := by
  unfold lineErr
  assumption

theorem sound_enterProbe {r : Req} {fx : ReqFx} {lat : Lat} {d : Dev} (hS : d.Sound) : (enterProbe r fx lat d).Sound := by
  unfold enterProbe
  extract_lets +onlyGivenNames -underBinder d0
  clear_value d0
  extract_lets +onlyGivenNames -underBinder d2i0 d2
  have h3 : d2.Sound := by
    dsimp -zeta only [d2]
    assumption
  clear_value d2
  split
  · split
    exact sound_fatal (sound_of_eq (by assumption) (sound_draw (by assumption)))
  · split
    · extract_lets +onlyGivenNames -underBinder d4
      have h5 : d4.Sound := by
        dsimp -zeta only [d4]
        exact sound_beyondLimit (by assumption)
      clear_value d4
      split
      · exact sound_finishWrite (by assumption)
      · exact sound_finishRead (by assumption)
    · extract_lets +onlyGivenNames -underBinder d6
      have h7 : d6.Sound := by
        dsimp -zeta only [d6]
        split
        · exact sound_cacheBad (by assumption)
        · assumption
      clear_value d6
      extract_lets +onlyGivenNames -underBinder d8
      clear_value d8
      split
      split
      extract_lets +onlyGivenNames -underBinder d10
      have h11 : ∀ d10a0 ed10, ed10.Sound → (d10 d10a0 ed10).Sound := by
        intro d10a0 ed10 hed10
        dsimp -zeta only [d10]
        assumption
      clear_value d10
      split
      · apply_assumption
        exact sound_of_eq (by assumption) (sound_lookup (sound_of_eq (by assumption) (sound_cacheProbe (by assumption))))
      · split
        · apply_assumption
          exact sound_lineErr (sound_of_eq (by assumption) (sound_lookup (sound_of_eq (by assumption) (sound_cacheProbe (by assumption)))))
        · split
          · split
            · apply_assumption
              exact sound_of_eq (by assumption) (sound_lookup (sound_of_eq (by assumption) (sound_cacheProbe (by assumption))))
            · apply sound_proceed
              apply_assumption
              exact sound_of_eq (by assumption) (sound_lookup (sound_of_eq (by assumption) (sound_cacheProbe (by assumption))))
          · apply_assumption
            exact sound_mapBurst (sound_of_eq (by assumption) (sound_lookup (sound_of_eq (by assumption) (sound_cacheProbe (by assumption)))))

end Sys2Proof.Machine
end

