-- ==== Sys2Proof/Laws/SoundHostMem.lean ====
section
/-! SUPPORT. Laws/SoundHostMem.lean: the operations of HostMem.lean keep the node's stores in order. -/

namespace Sys2Proof.Machine

set_option linter.unusedVariables false

theorem sound_hostEnter {rd : Bool} {wrq : Bool} {addr : ℕ} {mv : Meta} {fx : ReqFx} {refuse : Dev → Dev} {go : ℕ → List ℕ → Dev → Dev} {d : Dev} (hS : d.Sound) (hrefuse : ∀ e, e.Sound → (refuse e).Sound) (hgo : ∀ a0 a1 e, e.Sound → (go a0 a1 e).Sound) : (hostEnter rd wrq addr mv fx refuse go d).Sound := by
  unfold hostEnter
  split
  · assumption
  · split
    · apply_assumption
      exact sound_ideDrop (by assumption)
    · split
      · apply_assumption
        exact sound_notServed (by assumption)
      · split
        · apply_assumption
          exact sound_notServed (by assumption)
        · extract_lets +onlyGivenNames -underBinder d0
          clear_value d0
          extract_lets +onlyGivenNames -underBinder d2
          clear_value d2
          extract_lets +onlyGivenNames -underBinder d4i0 d4
          have h5 : d4.Sound := by
            dsimp -zeta only [d4]
            split <;> assumption
          clear_value d4
          split
          · split
            exact sound_fatal (sound_of_eq (by assumption) (sound_draw (by assumption)))
          · apply_assumption
            split
            · exact sound_sfAfter (by assumption)
            · assumption

theorem sound_readStart {tag : ℕ} {addr : ℕ} {mv : Meta} {fx : ReqFx} {lat : Lat} {a : Dev} (hS : a.Sound) : (readStart tag addr mv fx lat a).Sound := by
  unfold readStart
  apply sound_hostEnter
  · assumption
  · intro d0 h1
    split
    · exact sound_ndrHost (by assumption)
    · exact sound_poisonHost (by assumption)
  · intro a2 a3 d4 h5
    split
    · exact sound_enterProbe (by assumption)
    · exact sound_remoteStart (by assumption)

theorem sound_readCancel {tag : ℕ} {d : Dev} (hS : d.Sound) : (readCancel tag d).Sound := by
  unfold readCancel
  split
  · exact sound_ndrHost (sound_reqDrop (by assumption))
  · split
    · exact sound_ndrHost (by assumption)
    · assumption

theorem sound_hostRead {tag : ℕ} {addr : ℕ} {mv : Meta} {fx : ReqFx} {lat : Lat} {d : Dev} (hS : d.Sound) : (hostRead tag addr mv fx lat d).Sound := by
  unfold hostRead
  extract_lets +onlyGivenNames -underBinder d0
  clear_value d0
  split
  · exact sound_ideDrop (sound_readCancel (sound_readStart (by assumption)))
  · exact sound_readStart (by assumption)

theorem sound_hostWrite {tag : ℕ} {addr : ℕ} {mv : Meta} {w : WrBody} {fx : ReqFx} {lat : Lat} {d : Dev} (hS : d.Sound) : (hostWrite tag addr mv w fx lat d).Sound := by
  unfold hostWrite
  apply sound_hostEnter
  · assumption
  · intro d0 h1
    exact sound_hostCredit (sound_ndrHost (sound_admitEval (by assumption)))
  · intro a2 a3 d4 h5
    extract_lets +onlyGivenNames -underBinder d6i0 d6
    have h7 : d6.Sound := by
      dsimp -zeta only [d6]
      assumption
    clear_value d6
    split
    · exact sound_enterProbe (by assumption)
    · exact sound_remoteStart (by assumption)

theorem sound_peekDone {d : Dev} (hS : d.Sound) : (peekDone d).Sound := by
  unfold peekDone
  assumption

theorem sound_lineRelease {m : ℕ} {d : Dev} (hS : d.Sound) : (lineRelease m d).Sound := by
  unfold lineRelease
  extract_lets +onlyGivenNames -underBinder d0i0 d0
  have h1 : d0.Sound := by
    dsimp -zeta only [d0]
    assumption
  clear_value d0
  extract_lets +onlyGivenNames -underBinder d2
  have h3 : d2.Sound := by
    dsimp -zeta only [d2]
    refine sound_foldl _ ?_ fun d4 a5 h6 => ?_
    · assumption
    · exact sound_reqPut (sound_mapBurst (sound_lookup (by assumption)))
  clear_value d2
  split
  · exact sound_peekDone (by assumption)
  · assumption

theorem sound_mapReadDone {id : ℕ} {bad : BitVec 64} {lat : Lat} {d : Dev} (hS : d.Sound) : (mapReadDone id bad lat d).Sound := by
  unfold mapReadDone
  split
  · assumption
  · split
    · assumption
    · extract_lets +onlyGivenNames -underBinder d0
      clear_value d0
      extract_lets +onlyGivenNames -underBinder d2
      clear_value d2
      extract_lets +onlyGivenNames -underBinder d4
      have h5 : d4.Sound := by
        dsimp -zeta only [d4]
        split
        · exact sound_lineErr (by assumption)
        · assumption
      clear_value d4
      split
      · exact sound_reqPut (by assumption)
      · exact sound_proceed (sound_cacheFill (by assumption))

theorem sound_mapRefetchDone {m : ℕ} {bad : BitVec 64} {d : Dev} (hS : d.Sound) : (mapRefetchDone m bad d).Sound := by
  unfold mapRefetchDone
  split
  · extract_lets +onlyGivenNames -underBinder d0
    have h1 : d0.Sound := by
      dsimp -zeta only [d0]
      exact sound_dramGrant (by assumption)
    clear_value d0
    split
    · exact sound_lineRelease (sound_post (by assumption))
    · assumption
  · assumption

theorem sound_lineWrite {m : ℕ} {ents : List (ℕ × Entry)} {seq : ℕ} {d : Dev} (hS : d.Sound) : (lineWrite m ents seq d).Sound := by
  unfold lineWrite
  apply sound_parWrite
  · refine sound_foldl _ ?_ fun d0 a1 h2 => ?_
    · assumption
    · exact sound_mapPut (by assumption)
  · intro d3 h4
    assumption

theorem sound_mapRecomputeDone {m : ℕ} {latestOk : Bool} {olderOk : Bool} {us : ℕ} {d : Dev} (hS : d.Sound) : (mapRecomputeDone m latestOk olderOk us d).Sound := by
  unfold mapRecomputeDone
  split
  · assumption
  · extract_lets +onlyGivenNames -underBinder d0
    clear_value d0
    extract_lets +onlyGivenNames -underBinder d2
    clear_value d2
    extract_lets +onlyGivenNames -underBinder d4
    clear_value d4
    extract_lets +onlyGivenNames -underBinder d6
    clear_value d6
    extract_lets +onlyGivenNames -underBinder d8
    have h9 : d8.Sound := by
      dsimp -zeta only [d8]
      split
      · extract_lets +onlyGivenNames -underBinder d10
        clear_value d10
        extract_lets +onlyGivenNames -underBinder d12
        clear_value d12
        extract_lets +onlyGivenNames -underBinder d14
        clear_value d14
        exact sound_post (sound_lineWrite (by assumption))
      · extract_lets +onlyGivenNames -underBinder d16
        clear_value d16
        extract_lets +onlyGivenNames -underBinder d18
        clear_value d18
        extract_lets +onlyGivenNames -underBinder d20
        clear_value d20
        extract_lets +onlyGivenNames -underBinder d22
        clear_value d22
        extract_lets +onlyGivenNames -underBinder d24
        have h25 : d24.Sound := by
          dsimp -zeta only [d24]
          exact sound_lineWrite (by assumption)
        clear_value d24
        extract_lets +onlyGivenNames -underBinder d26
        have h27 : d26.Sound := by
          dsimp -zeta only [d26]
          refine sound_foldl _ ?_ fun d28 a29 h30 => ?_
          · refine sound_foldl _ ?_ fun d31 a32 h33 => ?_
            · assumption
            · exact sound_rowsMoved (by assumption)
          · exact sound_pidxAdd (by assumption)
        clear_value d26
        exact sound_post (by assumption)
    clear_value d8
    extract_lets +onlyGivenNames -underBinder d34
    have h35 : d34.Sound := by
      dsimp -zeta only [d34]
      exact sound_lineRelease (by assumption)
    clear_value d34
    split <;> assumption

theorem sound_overlay {r : Req} {lat : Lat} {d : Dev} (hS : d.Sound) : (overlay r lat d).Sound := by
  unfold overlay
  split
  · split
    · exact sound_finishRead (by assumption)
    · exact sound_reqPut (by assumption)
  · exact sound_reqPut (by assumption)

theorem sound_cushionPart {r : Req} {poison : Bool} {lat : Lat} {d : Dev} (hS : d.Sound) : (cushionPart r poison lat d).Sound := by
  unfold cushionPart
  extract_lets +onlyGivenNames -underBinder d0
  split
  · exact sound_finishRead (by assumption)
  · exact sound_overlay (by assumption)

theorem sound_cushionPoison {r : Req} {mask : BitVec 64} {d : Dev} (hS : d.Sound) : (cushionPoison r mask d).Sound := by
  unfold cushionPoison
  extract_lets +onlyGivenNames -underBinder d0i0 d0
  have h1 : d0.Sound := by
    dsimp -zeta only [d0]
    exact sound_post (by assumption)
  clear_value d0
  split
  · split
    · apply sound_setFlags
      apply sound_sparseFree
      apply sound_pidxAdd
      refine sound_upd (d := d0) rfl rfl rfl rfl rfl rfl rfl ?_ rfl rfl ?_ ?_ ?_ ?_ ?_
      · intro a2
        assumption
      · intro a3
        assumption
      · intro a4
        assumption
      · intro a5
        exact twf_tset _ _ _ (by assumption)
      · intro a6
        assumption
      · assumption
    · assumption
  · assumption

theorem sound_mirrorPlan {r : Req} {bad : BitVec 64} {d : Dev} (hS : d.Sound) : (mirrorPlan r bad d).2.Sound := by
  unfold mirrorPlan
  exact sound_mk (sound_dramGrant (by assumption))

theorem sound_mirrorCheck {r : Req} {bad : BitVec 64} {d : Dev} (hS : d.Sound) : (mirrorCheck r bad d).2.Sound := by
  unfold mirrorCheck
  extract_lets +onlyGivenNames -underBinder d0
  clear_value d0
  extract_lets +onlyGivenNames -underBinder d2i0 d2
  have h3 : d2.Sound := by
    dsimp -zeta only [d2]
    assumption
  clear_value d2
  split
  · exact sound_mk (sound_post (by assumption))
  · exact sound_mk (sound_cushionPoison (by assumption))

theorem sound_cushionReadDone {id : ℕ} {bad : BitVec 64} {maskBad : Bool} {lat : Lat} {d : Dev} (hS : d.Sound) : (cushionReadDone id bad maskBad lat d).Sound := by
  unfold cushionReadDone
  split
  · assumption
  · extract_lets +onlyGivenNames -underBinder d0
    clear_value d0
    split
    · assumption
    · split
      · exact sound_cushionPart (by assumption)
      · split
        · exact sound_cushionPart (sound_cushionPoison (by assumption))
        · split
          · exact sound_cushionPart (by assumption)
          · split
            exact sound_reqPut (sound_of_eq (by assumption) (sound_mirrorPlan (by assumption)))

theorem sound_cushionMirrorDone {id : ℕ} {bad : BitVec 64} {lat : Lat} {d : Dev} (hS : d.Sound) : (cushionMirrorDone id bad lat d).Sound := by
  unfold cushionMirrorDone
  split
  · assumption
  · split
    · assumption
    · split
      exact sound_cushionPart (sound_of_eq (by assumption) (sound_mirrorCheck (by assumption)))

theorem sound_checkCount {r : Req} {lineBad : Bool} {d : Dev} (hS : d.Sound) : (checkCount r lineBad d).2.Sound := by
  unfold checkCount
  extract_lets +onlyGivenNames -underBinder d0i0 d0
  have h1 : d0.Sound := by
    dsimp -zeta only [d0]
    split <;> assumption
  clear_value d0
  split
  · exact sound_mk (by assumption)
  · extract_lets +onlyGivenNames -underBinder d2i0 d2
    have h3 : d2.Sound := by
      dsimp -zeta only [d2]
      assumption
    clear_value d2
    split
    · exact sound_mk (by assumption)
    · exact sound_mk (sound_post (by assumption))

theorem sound_mediaPart {r : Req} {x : Line × Bool} {lat : Lat} {d : Dev} (hS : d.Sound) : (mediaPart r x lat d).Sound := by
  unfold mediaPart
  extract_lets +onlyGivenNames -underBinder d0
  split
  · exact sound_overlay (by assumption)
  · exact sound_finishRead (by assumption)

theorem sound_readLast {r : Req} {stage : ℕ} {d : Dev} (hS : d.Sound) : (readLast r stage d).Sound := by
  unfold readLast
  assumption

theorem sound_firstCheck {r : Req} {badParts : BitVec 20} {lineBad : Bool} {d : Dev} (hS : d.Sound) :
    (firstCheck r badParts lineBad d).2.2.2.Sound := by
  have hc : ∀ c, Dev.Sound (if r.around = true then { d with rp.cnt := c } else d) := by intro c; split <;> exact hS
  unfold firstCheck
  dsimp only
  generalize (if r.around = true then badData r badParts else badParts &&& r.src) = fail
  generalize hd : (if r.around = true then _ else d : Dev) = e
  have he : e.Sound := hd ▸ hc _
  split
  · exact he
  · split
    · exact he
    · exact sound_checkCount he

theorem sound_refetchPlan {r : Req} {failed : BitVec 20} {d : Dev} (hS : d.Sound) : (refetchPlan r failed d).2.Sound := by
  have hc : ∀ c, Dev.Sound { d with rp.cnt := c } := fun _ => hS
  unfold refetchPlan
  dsimp only
  split
  · exact sound_mk (sound_mediaGrant (hc _))
  · split
    · exact sound_mk (sound_mediaGrant (hc _))
    · split
      · exact sound_mk (sound_fatal (hc _))
      · exact sound_mk (sound_mediaGrant (hc _))

theorem sound_overdueAdd {slot : ℕ} {ps : BitVec 20} {d : Dev} (hS : d.Sound) : (overdueAdd slot ps d).Sound := by
  unfold overdueAdd
  extract_lets +onlyGivenNames -underBinder d0
  clear_value d0
  assumption

theorem sound_refetchCheck {r : Req} {badParts : BitVec 20} {lineBad : Bool} {d : Dev} (hS : d.Sound) :
    (refetchCheck r badParts lineBad d).2.2.Sound := by
  have hc : ∀ c, Dev.Sound (if r.around = true then { d with rp.cnt := c } else d) := by intro c; split <;> exact hS
  unfold refetchCheck
  dsimp only
  generalize (if r.around = true then badData r badParts else badParts &&& r.src) = fail
  generalize hd : (if r.around = true then _ else d : Dev) = e
  have he : e.Sound := hd ▸ hc _
  generalize (if r.around = true then _ else decide (fail = 0) : Bool) = good
  have hr : ∀ c, Dev.Sound { e with rp.cnt := c } := fun _ => he
  split
  · exact sound_post (sound_readLast (sound_overdueAdd (hr _)))
  · split
    · exact sound_checkCount he
    · exact he

theorem sound_recomputePlan {r : Req} {d : Dev} (hS : d.Sound) : (recomputePlan r d).2.Sound := by
  unfold recomputePlan
  extract_lets +onlyGivenNames -underBinder d0
  clear_value d0
  exact sound_mk (sound_mediaGrant (by assumption))

theorem sound_recomputeCheck {r : Req} {badParts : BitVec 20} {errs : ℕ} {lineBad : Bool} {us : ℕ} {d : Dev} (hS : d.Sound) :
    (recomputeCheck r badParts errs lineBad us d).2.2.Sound := by
  have hr : ∀ c, Dev.Sound { d with rp.cnt := c } := fun _ => hS
  unfold recomputeCheck
  dsimp only
  split
  · exact sound_post (sound_readLast (sound_rescueAdd (hr _)))
  · split
    · exact sound_checkCount hS
    · exact hS

theorem sound_poisonLine {r : Req} {us : ℕ} {d : Dev} (hS : d.Sound) : (poisonLine r us d).Sound := by
  unfold poisonLine
  split
  extract_lets +onlyGivenNames -underBinder d0i0 d0i1 d0
  have h1 : d0.Sound := by
    dsimp -zeta only [d0]
    rename_i r2 r3
    refine sound_upd (d := r2) rfl rfl rfl rfl rfl rfl rfl id rfl rfl id id id id ?_
    exact sound_of_eq (by assumption) (sound_stagePoison (by assumption))
  clear_value d0
  extract_lets +onlyGivenNames -underBinder d4
  have h5 : d4.Sound := by
    dsimp -zeta only [d4]
    exact sound_pidxAdd (sound_rescueAdd (by assumption))
  clear_value d4
  exact sound_post (sound_readLast (by assumption))

theorem sound_refetch {r : Req} {failed : BitVec 20} {d : Dev} (hS : d.Sound) : (refetch r failed d).Sound := by
  unfold refetch
  split
  · exact sound_reqPut (sound_of_eq (by assumption) (sound_refetchPlan (by assumption)))
  · exact sound_of_eq (by assumption) (sound_refetchPlan (by assumption))

theorem sound_mediaReadDone {id : ℕ} {badParts : BitVec 20} {lineBad : Bool} {lat : Lat} {d : Dev} (hS : d.Sound) : (mediaReadDone id badParts lineBad lat d).Sound := by
  unfold mediaReadDone
  split
  · assumption
  · split
    · assumption
    · split
      · exact sound_mediaPart (sound_of_eq4 (by assumption) (sound_firstCheck (by assumption)))
      · exact sound_refetch (sound_of_eq4 (by assumption) (sound_firstCheck (by assumption)))

theorem sound_refetchDone {id : ℕ} {badParts : BitVec 20} {lineBad : Bool} {lat : Lat} {d : Dev} (hS : d.Sound) : (refetchDone id badParts lineBad lat d).Sound := by
  unfold refetchDone
  split
  · assumption
  · split
    · assumption
    · split
      · exact sound_mediaPart (sound_of_eq3 (by assumption) (sound_refetchCheck (by assumption)))
      · split
        exact sound_reqPut (sound_of_eq (by assumption) (sound_recomputePlan (sound_of_eq3 (by assumption) (sound_refetchCheck (by assumption)))))

theorem sound_recomputeDone {id : ℕ} {st : Stage} {badParts : BitVec 20} {errs : ℕ} {lineBad : Bool} {us : ℕ} {lat : Lat} {d : Dev} (hS : d.Sound) : (recomputeDone id st badParts errs lineBad us lat d).Sound := by
  unfold recomputeDone
  split
  · assumption
  · split
    · assumption
    · split
      · exact sound_mediaPart (sound_of_eq3 (by assumption) (sound_recomputeCheck (by assumption)))
      · split
        · exact sound_reqPut (sound_of_eq3 (by assumption) (sound_recomputeCheck (by assumption)))
        · exact sound_mediaPart (sound_poisonLine (sound_of_eq3 (by assumption) (sound_recomputeCheck (by assumption))))

theorem sound_backMedia {r : Req} {fx : SeqFx} {d : Dev} (hS : d.Sound) : (backMedia r fx d).2.Sound := by
  unfold backMedia
  split
  · exact sound_mk (sound_of_eq (by assumption) (sound_mediaPlan (by assumption)))
  · split
    · exact sound_mk (sound_of_eq4 (by assumption) (sound_firstCheck (sound_of_eq (by assumption) (sound_mediaPlan (by assumption)))))
    · split
      · exact sound_mk (sound_of_eq (by assumption) (sound_refetchPlan (sound_of_eq4 (by assumption) (sound_firstCheck (sound_of_eq (by assumption) (sound_mediaPlan (by assumption)))))))
      · split
        · exact sound_mk (sound_of_eq3 (by assumption) (sound_refetchCheck (sound_of_eq (by assumption) (sound_refetchPlan (sound_of_eq4 (by assumption) (sound_firstCheck (sound_of_eq (by assumption) (sound_mediaPlan (by assumption)))))))))
        · split
          split
          · exact sound_mk (sound_of_eq3 (by assumption) (sound_recomputeCheck (sound_of_eq (by assumption) (sound_recomputePlan (sound_of_eq3 (by assumption) (sound_refetchCheck (sound_of_eq (by assumption) (sound_refetchPlan (sound_of_eq4 (by assumption) (sound_firstCheck (sound_of_eq (by assumption) (sound_mediaPlan (by assumption)))))))))))))
          · split
            · split
              · exact sound_mk (sound_of_eq3 (by assumption) (sound_recomputeCheck (sound_of_eq3 (by assumption) (sound_recomputeCheck (sound_of_eq (by assumption) (sound_recomputePlan (sound_of_eq3 (by assumption) (sound_refetchCheck (sound_of_eq (by assumption) (sound_refetchPlan (sound_of_eq4 (by assumption) (sound_firstCheck (sound_of_eq (by assumption) (sound_mediaPlan (by assumption)))))))))))))))
              · exact sound_mk (sound_poisonLine (sound_of_eq3 (by assumption) (sound_recomputeCheck (sound_of_eq3 (by assumption) (sound_recomputeCheck (sound_of_eq (by assumption) (sound_recomputePlan (sound_of_eq3 (by assumption) (sound_refetchCheck (sound_of_eq (by assumption) (sound_refetchPlan (sound_of_eq4 (by assumption) (sound_firstCheck (sound_of_eq (by assumption) (sound_mediaPlan (by assumption))))))))))))))))
            · exact sound_mk (sound_poisonLine (sound_of_eq3 (by assumption) (sound_recomputeCheck (sound_of_eq (by assumption) (sound_recomputePlan (sound_of_eq3 (by assumption) (sound_refetchCheck (sound_of_eq (by assumption) (sound_refetchPlan (sound_of_eq4 (by assumption) (sound_firstCheck (sound_of_eq (by assumption) (sound_mediaPlan (by assumption))))))))))))))

theorem sound_backCushion {r : Req} {fx : SeqFx} {d : Dev} (hS : d.Sound) : (backCushion r fx d).2.Sound := by
  unfold backCushion
  split
  extract_lets +onlyGivenNames -underBinder d0
  clear_value d0
  split
  · exact sound_mk (sound_of_eq (by assumption) (sound_cushionStart (by assumption)))
  · split
    · exact sound_mk (sound_cushionPoison (sound_of_eq (by assumption) (sound_cushionStart (by assumption))))
    · split
      · exact sound_mk (sound_of_eq (by assumption) (sound_cushionStart (by assumption)))
      · split
        split
        exact sound_mk (sound_of_eq (by assumption) (sound_mirrorCheck (sound_of_eq (by assumption) (sound_mirrorPlan (sound_of_eq (by assumption) (sound_cushionStart (by assumption)))))))

theorem sound_backRead {cls : ℕ} {f : ℕ} {l : ℕ} {ts : Trouble} {d : Dev} (hS : d.Sound) : (backRead cls f l ts d).2.Sound := by
  unfold backRead
  extract_lets +onlyGivenNames -underBinder d0
  clear_value d0
  split
  extract_lets +onlyGivenNames -underBinder d2
  clear_value d2
  extract_lets +onlyGivenNames -underBinder d4
  have h5 : d4.Sound := by
    dsimp -zeta only [d4]
    split
    · exact sound_of_eq (by assumption) (sound_cacheProbe (by assumption))
    · exact sound_cacheFill (sound_mapBurst (sound_of_eq (by assumption) (sound_cacheProbe (by assumption))))
  clear_value d4
  extract_lets +onlyGivenNames -underBinder d6i0 d6
  have h7 : d6.Sound := by
    dsimp -zeta only [d6]
    assumption
  clear_value d6
  split
  extract_lets +onlyGivenNames -underBinder d8
  clear_value d8
  dsimp only
  split
  · apply sound_slotUnread
    split
    · apply sound_backCushion
      rename_i r10 r11 r12 r13 r14 r15 r16
      refine sound_upd (d := r10) rfl rfl rfl rfl rfl rfl rfl id rfl rfl id id id id ?_
      exact sound_of_eq (by assumption) (sound_lookup (by assumption))
    · refine sound_mk ?_
      rename_i r17 r18 r19 r20 r21 r22 r23
      refine sound_upd (d := r17) rfl rfl rfl rfl rfl rfl rfl id rfl rfl id id id id ?_
      exact sound_of_eq (by assumption) (sound_lookup (by assumption))
    · refine sound_mk ?_
      rename_i r24 r25 r26 r27 r28 r29 r30
      refine sound_upd (d := r24) rfl rfl rfl rfl rfl rfl rfl id rfl rfl id id id id ?_
      exact sound_of_eq (by assumption) (sound_lookup (by assumption))
    · refine sound_mk ?_
      apply sound_backMedia
      apply sound_backCushion
      rename_i r31 r32 r33 r34 r35 r36 r37
      refine sound_upd (d := r31) rfl rfl rfl rfl rfl rfl rfl id rfl rfl id id id id ?_
      exact sound_of_eq (by assumption) (sound_lookup (by assumption))
    · exact sound_backMedia (sound_of_eq (by assumption) (sound_lookup (by assumption)))
  · split
    · apply sound_backCushion
      rename_i r38 r39 r40 r41 r42 r43
      refine sound_upd (d := r38) rfl rfl rfl rfl rfl rfl rfl id rfl rfl id id id id ?_
      exact sound_of_eq (by assumption) (sound_lookup (by assumption))
    · refine sound_mk ?_
      rename_i r44 r45 r46 r47 r48 r49
      refine sound_upd (d := r44) rfl rfl rfl rfl rfl rfl rfl id rfl rfl id id id id ?_
      exact sound_of_eq (by assumption) (sound_lookup (by assumption))
    · refine sound_mk ?_
      rename_i r50 r51 r52 r53 r54 r55
      refine sound_upd (d := r50) rfl rfl rfl rfl rfl rfl rfl id rfl rfl id id id id ?_
      exact sound_of_eq (by assumption) (sound_lookup (by assumption))
    · refine sound_mk ?_
      apply sound_backMedia
      apply sound_backCushion
      rename_i r56 r57 r58 r59 r60 r61
      refine sound_upd (d := r56) rfl rfl rfl rfl rfl rfl rfl id rfl rfl id id id id ?_
      exact sound_of_eq (by assumption) (sound_lookup (by assumption))
    · exact sound_backMedia (sound_of_eq (by assumption) (sound_lookup (by assumption)))

theorem sound_probesWait {fs : List ℕ} {d : Dev} (hS : d.Sound) : (probesWait fs d).2.Sound := by
  unfold probesWait
  extract_lets +onlyGivenNames -underBinder d0
  have h1 : d0.Sound := by
    dsimp -zeta only [d0]
    refine sound_foldl _ ?_ fun d2 a3 h4 => ?_
    · assumption
    · split
      · exact sound_lineErr (by assumption)
      · assumption
  clear_value d0
  exact sound_mk (by assumption)

theorem sound_creditReturn {port : Port} {d : Dev} (hS : d.Sound) : (creditReturn port d).Sound := by
  unfold creditReturn
  extract_lets +onlyGivenNames -underBinder d0
  have h1 : d0.Sound := by
    dsimp -zeta only [d0]
    exact sound_admitEval (by assumption)
  clear_value d0
  split
  · assumption
  · extract_lets +onlyGivenNames -underBinder d2i0 d2
    have h3 : d2.Sound := by
      dsimp -zeta only [d2]
      assumption
    clear_value d2
    extract_lets +onlyGivenNames -underBinder d4
    have h5 : ∀ d4a0 ed4, ed4.Sound → (d4 d4a0 ed4).Sound := by
      intro d4a0 ed4 hed4
      dsimp -zeta only [d4]
      split
      · assumption
      · exact sound_sendCell (by assumption)
    clear_value d4
    split
    · split <;> assumption
    · split
      · assumption
      · solve_by_elim
    · split
      · assumption
      · solve_by_elim

theorem sound_sliceJudge {d : Dev} (hS : d.Sound) : (sliceJudge d).Sound := by
  unfold sliceJudge
  extract_lets +onlyGivenNames -underBinder d0
  clear_value d0
  extract_lets +onlyGivenNames -underBinder d2
  clear_value d2
  extract_lets +onlyGivenNames -underBinder d4
  clear_value d4
  extract_lets +onlyGivenNames -underBinder d6
  clear_value d6
  extract_lets +onlyGivenNames -underBinder d8i0 d8
  have h9 : d8.Sound := by
    dsimp -zeta only [d8]
    split
    · exact sound_postIf (by assumption)
    · assumption
  clear_value d8
  extract_lets +onlyGivenNames -underBinder d10
  have h11 : d10.Sound := by
    dsimp -zeta only [d10]
    refine sound_foldl _ ?_ fun d12 a13 h14 => ?_
    · assumption
    · exact sound_overruns (by assumption)
  clear_value d10
  assumption

theorem sound_sliceCapacity {d : Dev} (hS : d.Sound) : (sliceCapacity d).Sound := by
  unfold sliceCapacity
  dsimp only
  split
  · exact sound_csh hS id
  · exact sound_postIf (sound_csh hS id)

theorem sound_drainEdge {d : Dev} (hS : d.Sound) : (drainEdge d).Sound := by
  unfold drainEdge
  extract_lets +onlyGivenNames -underBinder d0
  clear_value d0
  extract_lets +onlyGivenNames -underBinder d2
  clear_value d2
  extract_lets +onlyGivenNames -underBinder d4
  clear_value d4
  extract_lets +onlyGivenNames -underBinder d6
  have h7 : d6.Sound := by
    dsimp -zeta only [d6]
    exact sound_postIf (by assumption)
  clear_value d6
  extract_lets +onlyGivenNames -underBinder d8
  have h9 : d8.Sound := by
    dsimp -zeta only [d8]
    exact sound_postIf (by assumption)
  clear_value d8
  assumption

theorem sound_sliceBoundary {d : Dev} (hS : d.Sound) : (sliceBoundary d).Sound := by
  unfold sliceBoundary
  extract_lets +onlyGivenNames -underBinder d0
  have h1 : d0.Sound := by
    dsimp -zeta only [d0]
    exact sound_sliceJudge (by assumption)
  clear_value d0
  extract_lets +onlyGivenNames -underBinder d2
  clear_value d2
  extract_lets +onlyGivenNames -underBinder d4i0 d4i1 d4
  have h5 : d4.Sound := by
    dsimp -zeta only [d4]
    exact sound_sliceCapacity (by assumption)
  clear_value d4
  exact sound_admitEval (sound_drainEdge (by assumption))

end Sys2Proof.Machine
end

