-- ==== Sys2Proof/Laws/SoundRing.lean ====
section
/-! SUPPORT. Laws/SoundRing.lean: the operations of Ring.lean keep the node's stores in order. -/

namespace Sys2Proof.Machine

set_option linter.unusedVariables false

theorem sound_ringEnter {c : Cell} {type : ℕ} {wr : Option WrBody} {fx : ReqFx} {lat : Lat} {d : Dev} (hS : d.Sound) : (ringEnter c type wr fx lat d).Sound := by
  unfold ringEnter
  split
  split
  · exact sound_of_eq (by assumption) (sound_acceptCell (by assumption))
  · extract_lets +onlyGivenNames -underBinder d0
    clear_value d0
    split
    · exact sound_sendCell (sound_of_eq (by assumption) (sound_acceptCell (by assumption)))
    · split
      · exact sound_sendCell (sound_of_eq (by assumption) (sound_acceptCell (by assumption)))
      · split
        · split <;> exact sound_sendCell (sound_of_eq (by assumption) (sound_acceptCell (by assumption)))
        · split
          · apply sound_sendCell
            rename_i r2 r3 r4 r5 r6 r7 r8
            refine sound_upd (d := r2) rfl rfl rfl rfl rfl rfl rfl id rfl rfl id id id id ?_
            exact sound_of_eq (by assumption) (sound_acceptCell (by assumption))
          · extract_lets +onlyGivenNames -underBinder d9
            clear_value d9
            extract_lets +onlyGivenNames -underBinder d11i0 d11
            have h12 : d11.Sound := by
              dsimp -zeta only [d11]
              split
              · rename_i r13 r14 r15 r16 r17 r18 r19 r20
                refine sound_upd (d := r13) rfl rfl rfl rfl rfl rfl rfl id rfl rfl id id id id ?_
                exact sound_of_eq (by assumption) (sound_acceptCell (by assumption))
              · exact sound_of_eq (by assumption) (sound_acceptCell (by assumption))
            clear_value d11
            extract_lets +onlyGivenNames -underBinder d21
            clear_value d21
            exact sound_enterProbe (by assumption)

theorem sound_remoteDrop {tag : ℕ} {d : Dev} (hS : d.Sound) : (remoteDrop tag d).Sound := by
  unfold remoteDrop
  assumption

theorem sound_rdRsp {c : Cell} {data : Line} {lat : Lat} {d : Dev} (hS : d.Sound) : (rdRsp c data lat d).Sound := by
  unfold rdRsp
  split
  split
  · exact sound_of_eq (by assumption) (sound_acceptCell (by assumption))
  · split
    · exact sound_of_eq (by assumption) (sound_acceptCell (by assumption))
    · split
      · exact sound_of_eq (by assumption) (sound_acceptCell (by assumption))
      · apply sound_account
        apply sound_toHost
        extract_lets +onlyGivenNames -underBinder d0
        have h1 : d0.Sound := by
          dsimp -zeta only [d0]
          exact sound_remoteDrop (sound_of_eq (by assumption) (sound_acceptCell (by assumption)))
        clear_value d0
        assumption

theorem sound_wrAck {c : Cell} {lat : Lat} {d : Dev} (hS : d.Sound) : (wrAck c lat d).Sound := by
  unfold wrAck
  split
  split
  · exact sound_of_eq (by assumption) (sound_acceptCell (by assumption))
  · split
    · exact sound_of_eq (by assumption) (sound_acceptCell (by assumption))
    · split
      · exact sound_of_eq (by assumption) (sound_acceptCell (by assumption))
      · extract_lets +onlyGivenNames -underBinder d0
        clear_value d0
        extract_lets +onlyGivenNames -underBinder d2
        clear_value d2
        extract_lets +onlyGivenNames -underBinder d4
        have h5 : d4.Sound := by
          dsimp -zeta only [d4]
          exact sound_creditGive (sound_of_eq (by assumption) (sound_acceptCell (by assumption)))
        clear_value d4
        extract_lets +onlyGivenNames -underBinder d6i0 d6i1 d6
        have h7 : d6.Sound := by
          dsimp -zeta only [d6]
          exact sound_account (sound_toHost (sound_hostCredit (sound_admitEval (by assumption))))
        clear_value d6
        exact sound_snpAnswer (sound_remoteRetryAll (by assumption))

theorem sound_forwardCell {type : ℕ} {c : Cell} {d : Dev} (hS : d.Sound) : (forwardCell type c d).Sound := by
  unfold forwardCell
  extract_lets +onlyGivenNames -underBinder d0
  split
  · split
    · assumption
    · extract_lets +onlyGivenNames -underBinder d2
      have h3 : d2.Sound := by
        dsimp -zeta only [d2]
        exact sound_linkFree (by assumption)
      clear_value d2
      split
      · assumption
      · split
        · assumption
        · exact sound_queueCell (by assumption)
  · split
    · assumption
    · extract_lets +onlyGivenNames -underBinder d4
      have h5 : d4.Sound := by
        dsimp -zeta only [d4]
        exact sound_linkFree (by assumption)
      clear_value d4
      split
      · assumption
      · split
        · assumption
        · exact sound_queueCell (by assumption)

theorem sound_remoteRetry {tag : ℕ} {topo : Bool} {d : Dev} (hS : d.Sound) : (remoteRetry tag topo d).Sound := by
  unfold remoteRetry
  split
  · assumption
  · split
    · assumption
    · split
      · exact sound_remotePut (by assumption)
      · split
        exact sound_remotePut (sound_of_eq (by assumption) (sound_remoteSend (by assumption)))

theorem sound_ownerUnreachable {tag : ℕ} {lat : Lat} {d : Dev} (hS : d.Sound) : (ownerUnreachable tag lat d).Sound := by
  unfold ownerUnreachable
  split
  · assumption
  · split
    · assumption
    · extract_lets +onlyGivenNames -underBinder d0
      clear_value d0
      extract_lets +onlyGivenNames -underBinder d2
      clear_value d2
      extract_lets +onlyGivenNames -underBinder d4
      have h5 : d4.Sound := by
        dsimp -zeta only [d4]
        exact sound_remoteDrop (by assumption)
      clear_value d4
      extract_lets +onlyGivenNames -underBinder d6i0 d6
      have h7 : d6.Sound := by
        dsimp -zeta only [d6]
        assumption
      clear_value d6
      extract_lets +onlyGivenNames -underBinder d8
      have h9 : d8.Sound := by
        dsimp -zeta only [d8]
        exact sound_post (by assumption)
      clear_value d8
      apply sound_snpAnswer
      apply sound_account
      split
      · exact sound_hostCredit (sound_ndrHost (by assumption))
      · exact sound_poisonHost (by assumption)

theorem sound_credPorts {d : Dev} (hS : d.Sound) : (credPorts d).Sound := by
  unfold credPorts
  extract_lets +onlyGivenNames -underBinder d0
  clear_value d0
  extract_lets +onlyGivenNames -underBinder d2
  clear_value d2
  assumption

theorem sound_credRestore {ms : List ℕ} {d : Dev} (hS : d.Sound) : (credRestore ms d).Sound := by
  unfold credRestore
  exact sound_credPorts (by assumption)

theorem sound_credBack {old : Dev} {d : Dev} (hS : d.Sound) : (credBack old d).Sound := by
  unfold credBack
  exact sound_credRestore (by assumption)

theorem sound_credReset {d : Dev} (hS : d.Sound) : (credReset d).Sound := by
  unfold credReset
  exact sound_credPorts (by assumption)

theorem sound_portTrain {side : Side} {a : Dev} (hS : a.Sound) : (portTrain side a).Sound := by
  unfold portTrain
  exact sound_portMod (by assumption)

theorem sound_echoSend {ringB : Bool} {d : Dev} (hS : d.Sound) : (echoSend ringB d).Sound := by
  unfold echoSend
  split
  · exact sound_sendCell (by assumption)
  · assumption

theorem sound_ringUpdate {d : Dev} (hS : d.Sound) : (ringUpdate d).Sound := by
  unfold ringUpdate
  split
  · assumption
  · extract_lets +onlyGivenNames -underBinder d0
    clear_value d0
    extract_lets +onlyGivenNames -underBinder d2
    clear_value d2
    extract_lets +onlyGivenNames -underBinder d4i0 d4
    have h5 : d4.Sound := by
      dsimp -zeta only [d4]
      assumption
    clear_value d4
    extract_lets +onlyGivenNames -underBinder d6
    have h7 : d6.Sound := by
      dsimp -zeta only [d6]
      split
      · exact sound_post (by assumption)
      · assumption
    clear_value d6
    exact sound_cdatRebuild (by assumption)

theorem sound_deadAdd {a : ℕ} {b : ℕ} {d : Dev} (hS : d.Sound) : (deadAdd a b d).Sound := by
  unfold deadAdd
  split <;> assumption

theorem sound_deadDrop {a : ℕ} {b : ℕ} {d : Dev} (hS : d.Sound) : (deadDrop a b d).Sound := by
  unfold deadDrop
  assumption

theorem sound_portTurn {side : Side} {d : Dev} (hS : d.Sound) : (portTurn side d).Sound := by
  unfold portTurn
  extract_lets +onlyGivenNames -underBinder d0
  clear_value d0
  exact sound_portMod (sound_portMod (by assumption))

theorem sound_spliceStop {cause : ℕ} {d : Dev} (hS : d.Sound) : (spliceStop cause d).Sound := by
  unfold spliceStop
  split
  · assumption
  · split
    · assumption
    · extract_lets +onlyGivenNames -underBinder d0i0 d0
      have h1 : d0.Sound := by
        dsimp -zeta only [d0]
        exact sound_post (by assumption)
      clear_value d0
      split <;> assumption

theorem sound_spliceAbort {cause : ℕ} {d : Dev} (hS : d.Sound) : (spliceAbort cause d).Sound := by
  unfold spliceAbort
  split
  · extract_lets +onlyGivenNames -underBinder d0
    have h1 : d0.Sound := by
      dsimp -zeta only [d0]
      exact sound_spliceStop (by assumption)
    clear_value d0
    split
    · exact sound_frame (by assumption)
    · assumption
  · assumption

theorem sound_linkDead {side : Side} {d : Dev} (hS : d.Sound) : (linkDead side d).Sound := by
  unfold linkDead
  split
  · assumption
  · split
    · exact sound_portMod (by assumption)
    · extract_lets +onlyGivenNames -underBinder d0
      have h1 : d0.Sound := by
        dsimp -zeta only [d0]
        exact sound_portTurn (sound_portMod (by assumption))
      clear_value d0
      extract_lets +onlyGivenNames -underBinder d2
      have h3 : d2.Sound := by
        dsimp -zeta only [d2]
        exact sound_spliceAbort (by assumption)
      clear_value d2
      extract_lets +onlyGivenNames -underBinder d4
      have h5 : d4.Sound := by
        dsimp -zeta only [d4]
        exact sound_ringUpdate (sound_deadAdd (by assumption))
      clear_value d4
      extract_lets +onlyGivenNames -underBinder d6
      have h7 : d6.Sound := by
        dsimp -zeta only [d6]
        exact sound_topoChange (sound_cellAll (by assumption))
      clear_value d6
      exact sound_post (sound_frame (by assumption))

theorem sound_memberGone {index : ℕ} {how : ℕ} {d : Dev} (hS : d.Sound) : (memberGone index how d).Sound := by
  unfold memberGone
  split
  · assumption
  · extract_lets +onlyGivenNames -underBinder d0
    clear_value d0
    extract_lets +onlyGivenNames -underBinder d2
    have h3 : d2.Sound := by
      dsimp -zeta only [d2]
      exact sound_subsGone (by assumption)
    clear_value d2
    extract_lets +onlyGivenNames -underBinder d4i0 d4i1 d4
    have h5 : d4.Sound := by
      dsimp -zeta only [d4]
      exact sound_credRestore (by assumption)
    clear_value d4
    extract_lets +onlyGivenNames -underBinder d6i0 d6
    have h7 : d6.Sound := by
      dsimp -zeta only [d6]
      assumption
    clear_value d6
    extract_lets +onlyGivenNames -underBinder d8
    have h9 : d8.Sound := by
      dsimp -zeta only [d8]
      exact sound_post (by assumption)
    clear_value d8
    split
    · split
      · extract_lets +onlyGivenNames -underBinder d10
        have h11 : d10.Sound := by
          dsimp -zeta only [d10]
          exact sound_spliceAbort (by assumption)
        clear_value d10
        extract_lets +onlyGivenNames -underBinder d12
        have h13 : d12.Sound := by
          dsimp -zeta only [d12]
          split
          · exact sound_cellTo (by assumption)
          · assumption
        clear_value d12
        exact sound_epochStart (by assumption)
      · exact sound_epochStart (by assumption)
    · assumption

theorem sound_linkTrained {side : Side} {peer : ℕ} {ms : ℕ} {d : Dev} (hS : d.Sound) : (linkTrained side peer ms d).Sound := by
  unfold linkTrained
  split
  · assumption
  · extract_lets +onlyGivenNames -underBinder d0
    have h1 : d0.Sound := by
      dsimp -zeta only [d0]
      assumption
    clear_value d0
    extract_lets +onlyGivenNames -underBinder d2
    clear_value d2
    extract_lets +onlyGivenNames -underBinder d4
    clear_value d4
    extract_lets +onlyGivenNames -underBinder d6
    have h7 : d6.Sound := by
      dsimp -zeta only [d6]
      exact sound_portMod (by assumption)
    clear_value d6
    extract_lets +onlyGivenNames -underBinder d8
    have h9 : d8.Sound := by
      dsimp -zeta only [d8]
      split
      · split
        · exact sound_echoSend (by assumption)
        · assumption
      · assumption
    clear_value d8
    split
    · assumption
    · extract_lets +onlyGivenNames -underBinder d10
      have h11 : d10.Sound := by
        dsimp -zeta only [d10]
        split
        · extract_lets +onlyGivenNames -underBinder d12
          have h13 : d12.Sound := by
            dsimp -zeta only [d12]
            exact sound_deadDrop (by assumption)
          clear_value d12
          split
          · exact sound_memberGone (by assumption)
          · assumption
        · assumption
      clear_value d10
      extract_lets +onlyGivenNames -underBinder d14
      have h15 : d14.Sound := by
        dsimp -zeta only [d14]
        exact sound_ringUpdate (sound_deadDrop (by assumption))
      clear_value d14
      extract_lets +onlyGivenNames -underBinder d16
      have h17 : d16.Sound := by
        dsimp -zeta only [d16]
        exact sound_topoChange (sound_credBack (sound_cellAll (by assumption)))
      clear_value d16
      exact sound_post (sound_frame (by assumption))

theorem sound_topoCell {c : Cell} {a : ℕ} {b : ℕ} {d : Dev} (hS : d.Sound) : (topoCell c a b d).Sound := by
  unfold topoCell
  split
  split
  · exact sound_of_eq (by assumption) (sound_acceptCell (by assumption))
  · split
    · exact sound_topoChange (sound_ringUpdate (sound_deadAdd (sound_of_eq (by assumption) (sound_acceptCell (by assumption)))))
    · exact sound_topoChange (sound_credBack (sound_ringUpdate (sound_deadDrop (sound_of_eq (by assumption) (sound_acceptCell (by assumption))))))
    · exact sound_topoChange (sound_ringUpdate (sound_memberGone (sound_of_eq (by assumption) (sound_acceptCell (by assumption)))))

theorem sound_marksA {d : Dev} (hS : d.Sound) : (marksA d).Sound := by
  unfold marksA
  refine sound_foldl _ ?_ fun d0 a1 h2 => ?_
  · assumption
  · exact sound_sendCell (by assumption)

theorem sound_spdmMsg {m : SpdmMsg} {d : Dev} (hS : d.Sound) : (spdmMsg m d).Sound := by
  unfold spdmMsg
  split
  · exact sound_emit (by assumption)
  · exact sound_cellTo (by assumption)
  · split
    · assumption
    · extract_lets +onlyGivenNames -underBinder d0
      clear_value d0
      extract_lets +onlyGivenNames -underBinder d2i0 d2
      have h3 : d2.Sound := by
        dsimp -zeta only [d2]
        assumption
      clear_value d2
      split
      · exact sound_epochSwitch (sound_cellAll (by assumption))
      · assumption
  · split
    · split
      · exact sound_epochSwitch (by assumption)
      · assumption
    · assumption

theorem sound_heldOut {reason : ℕ} {d : Dev} (hS : d.Sound) : (heldOut reason d).Sound := by
  unfold heldOut
  apply sound_post
  extract_lets +onlyGivenNames -underBinder d0
  have h1 : d0.Sound := by
    dsimp -zeta only [d0]
    exact sound_bypassClose (by assumption)
  clear_value d0
  assumption

theorem sound_indexTake {i : ℕ} {rid : ℕ} {d : Dev} (hS : d.Sound) : (indexTake i rid d).Sound := by
  unfold indexTake
  extract_lets +onlyGivenNames -underBinder d0
  extract_lets +onlyGivenNames -underBinder d2i0 d2
  have h3 : d2.Sound := by
    dsimp -zeta only [d2]
    assumption
  clear_value d2
  extract_lets +onlyGivenNames -underBinder d4
  have h5 : d4.Sound := by
    dsimp -zeta only [d4]
    split
    · assumption
    · exact sound_fwPut (by assumption)
  clear_value d4
  exact sound_post (sound_frame (by assumption))

theorem sound_ringFormed {ms : ℕ} {d : Dev} (hS : d.Sound) : (ringFormed ms d).Sound := by
  unfold ringFormed
  extract_lets +onlyGivenNames -underBinder d0i0 d0
  have h1 : d0.Sound := by
    dsimp -zeta only [d0]
    assumption
  clear_value d0
  extract_lets +onlyGivenNames -underBinder d2
  have h3 : d2.Sound := by
    dsimp -zeta only [d2]
    split
    · apply sound_cellAll
      refine sound_upd (d := (freshKeyid d0).2) rfl rfl rfl rfl rfl rfl rfl id rfl rfl id id id id ?_
      exact sound_freshKeyid (by assumption)
    · assumption
  clear_value d2
  extract_lets +onlyGivenNames -underBinder d4i0 d4
  have h5 : d4.Sound := by
    dsimp -zeta only [d4]
    exact sound_ringUpdate (by assumption)
  clear_value d4
  exact sound_post (sound_credReset (by assumption))

theorem sound_formReady {ms : ℕ} {d : Dev} (hS : d.Sound) : (formReady ms d).Sound := by
  unfold formReady
  extract_lets +onlyGivenNames -underBinder d0
  clear_value d0
  split
  · exact sound_ringFormed (by assumption)
  · assumption

theorem sound_spdmArrives {m : SpdmMsg} {d : Dev} (hS : d.Sound) : (spdmArrives m d).Sound := by
  unfold spdmArrives
  split
  · split
    · exact sound_spdmMsg (by assumption)
    · exact sound_formReady (by assumption)
  · exact sound_spdmMsg (by assumption)

theorem sound_presentClose {d : Dev} (hS : d.Sound) : (presentClose d).Sound := by
  unfold presentClose
  split
  · assumption
  · extract_lets +onlyGivenNames -underBinder d0
    clear_value d0
    extract_lets +onlyGivenNames -underBinder d2
    clear_value d2
    extract_lets +onlyGivenNames -underBinder d4
    clear_value d4
    split
    extract_lets +onlyGivenNames -underBinder d6i0 d6
    have h7 : d6.Sound := by
      dsimp -zeta only [d6]
      rename_i r8 r9
      refine sound_upd (d := r8) rfl rfl rfl rfl rfl rfl rfl id rfl rfl id id id id ?_
      refine sound_of_eq (by assumption) ?_
      dsimp only
      split
      · dsimp only
        assumption
      · dsimp only
        exact sound_draw (by assumption)
    clear_value d6
    split
    · extract_lets +onlyGivenNames -underBinder d10
      have h11 : d10.Sound := by
        dsimp -zeta only [d10]
        exact sound_indexTake (by assumption)
      clear_value d10
      extract_lets +onlyGivenNames -underBinder d12
      clear_value d12
      extract_lets +onlyGivenNames -underBinder d14i0 d14
      have h15 : d14.Sound := by
        dsimp -zeta only [d14]
        assumption
      clear_value d14
      extract_lets +onlyGivenNames -underBinder d16i0 d16
      have h17 : d16.Sound := by
        dsimp -zeta only [d16]
        assumption
      clear_value d16
      split
      · exact sound_ringFormed (by assumption)
      · exact sound_portTrain (sound_portTrain (by assumption))
    · exact sound_frame (sound_heldOut (by assumption))
    · assumption

theorem sound_cueFrame {d : Dev} (hS : d.Sound) : (cueFrame d).Sound := by
  unfold cueFrame
  split <;> assumption

theorem sound_spliceGrant {d : Dev} (hS : d.Sound) : (spliceGrant d).Sound := by
  unfold spliceGrant
  split
  · split
    · extract_lets +onlyGivenNames -underBinder d0i0 d0
      have h1 : d0.Sound := by
        dsimp -zeta only [d0]
        exact sound_frame (by assumption)
      clear_value d0
      exact sound_topoChange (sound_marksA (by assumption))
    · assumption
  · assumption

theorem sound_markB {sp : SpliceSt} {d : Dev} (hS : d.Sound) : (markB sp d).Sound := by
  unfold markB
  refine sound_foldl _ ?_ fun d0 a1 h2 => ?_
  · assumption
  · exact sound_sendCell (by assumption)

theorem sound_markCell {src : ℕ} {ringB : Bool} {d : Dev} (hS : d.Sound) : (markCell src ringB d).Sound := by
  unfold markCell
  split
  · assumption
  · extract_lets +onlyGivenNames -underBinder d0
    extract_lets +onlyGivenNames -underBinder d2i0 d2
    have h3 : d2.Sound := by
      dsimp -zeta only [d2]
      assumption
    clear_value d2
    extract_lets +onlyGivenNames -underBinder d4
    have h5 : d4.Sound := by
      dsimp -zeta only [d4]
      split
      · exact sound_markB (by assumption)
      · assumption
    clear_value d4
    extract_lets +onlyGivenNames -underBinder d6
    clear_value d6
    extract_lets +onlyGivenNames -underBinder d8
    clear_value d8
    extract_lets +onlyGivenNames -underBinder d10i0 d10
    have h11 : d10.Sound := by
      dsimp -zeta only [d10]
      assumption
    clear_value d10
    split
    · assumption
    · split
      · extract_lets +onlyGivenNames -underBinder d12i0 d12
        have h13 : d12.Sound := by
          dsimp -zeta only [d12]
          assumption
        clear_value d12
        split
        · assumption
        · split
          · exact sound_markB (sound_cellAll (by assumption))
          · exact sound_portTrain (by assumption)
      · split
        · extract_lets +onlyGivenNames -underBinder d14i0 d14
          have h15 : d14.Sound := by
            dsimp -zeta only [d14]
            assumption
          clear_value d14
          split
          · split
            · exact sound_topoChange (by assumption)
            · assumption
          · split
            · extract_lets +onlyGivenNames -underBinder d16
              have h17 : d16.Sound := by
                dsimp -zeta only [d16]
                exact sound_bypassClose (by assumption)
              clear_value d16
              assumption
            · exact sound_portTrain (by assumption)
        · assumption

theorem sound_tableSend {sp : SpliceSt} {d : Dev} (hS : d.Sound) : (tableSend sp d).Sound := by
  unfold tableSend
  split
  · assumption
  · extract_lets +onlyGivenNames -underBinder d0
    clear_value d0
    refine sound_foldl _ ?_ fun d2 a3 h4 => ?_
    · assumption
    · extract_lets +onlyGivenNames -underBinder d5
      clear_value d5
      exact sound_sendCell (by assumption)

theorem sound_spliceDone {index : ℕ} {ms : ℕ} {d : Dev} (hS : d.Sound) : (spliceDone index ms d).Sound := by
  unfold spliceDone
  extract_lets +onlyGivenNames -underBinder d0i0 d0
  have h1 : d0.Sound := by
    dsimp -zeta only [d0]
    assumption
  clear_value d0
  extract_lets +onlyGivenNames -underBinder d2i0 d2
  have h3 : d2.Sound := by
    dsimp -zeta only [d2]
    assumption
  clear_value d2
  extract_lets +onlyGivenNames -underBinder d4
  have h5 : d4.Sound := by
    dsimp -zeta only [d4]
    exact sound_topoChange (sound_credRestore (sound_ringUpdate (by assumption)))
  clear_value d4
  exact sound_spliceGrant (sound_post (by assumption))

theorem sound_leaveStart {d : Dev} (hS : d.Sound) : (leaveStart d).Sound := by
  unfold leaveStart
  extract_lets +onlyGivenNames -underBinder d0i0 d0
  have h1 : d0.Sound := by
    dsimp -zeta only [d0]
    exact sound_frame (by assumption)
  clear_value d0
  split
  · exact sound_bypassClose (by assumption)
  · exact sound_marksA (by assumption)

theorem sound_portEnable {side : Side} {en : Bool} {d : Dev} (hS : d.Sound) : (portEnable side en d).Sound := by
  unfold portEnable
  split
  · assumption
  · extract_lets +onlyGivenNames -underBinder d0
    clear_value d0
    extract_lets +onlyGivenNames -underBinder d2
    have h3 : d2.Sound := by
      dsimp -zeta only [d2]
      exact sound_portMod (by assumption)
    clear_value d2
    split
    · split
      · split
        · exact sound_portMod (by assumption)
        · exact sound_portTrain (by assumption)
      · exact sound_portMod (by assumption)
      · assumption
    · split
      · exact sound_leaveStart (sound_portMod (by assumption))
      · split
        · exact sound_topoChange (sound_sendCell (sound_portMod (by assumption)))
        · exact sound_portMod (by assumption)
        · assumption
        · exact sound_portMod (by assumption)

theorem sound_portDrainEnd {side : Side} {d : Dev} (hS : d.Sound) : (portDrainEnd side d).Sound := by
  unfold portDrainEnd
  extract_lets +onlyGivenNames -underBinder d0
  clear_value d0
  extract_lets +onlyGivenNames -underBinder d2
  have h3 : d2.Sound := by
    dsimp -zeta only [d2]
    split
    · apply sound_portMod
      split
      · assumption
      · exact sound_linkDead (by assumption)
    · exact sound_portTrain (by assumption)
    · assumption
  clear_value d2
  split
  · exact sound_frame (sound_portMod (by assumption))
  · assumption

end Sys2Proof.Machine
end

