-- ==== Sys2Proof/Laws/SoundMedia.lean ====
section
/-! SUPPORT. Laws/SoundMedia.lean: the operations of Media.lean keep the node's stores in order. -/

namespace Sys2Proof.Machine

set_option linter.unusedVariables false

theorem sound_freeze {f : ℕ} {d : Dev} (hS : d.Sound) : (freeze f d).Sound := by
  unfold freeze
  split
  · assumption
  · split
    · exact sound_fatal (by assumption)
    · extract_lets +onlyGivenNames -underBinder d0
      have h1 : d0.Sound := by
        dsimp -zeta only [d0]
        exact sound_setFlags (sound_makeFrondWide (sound_slotDiscard (by assumption)))
      clear_value d0
      extract_lets +onlyGivenNames -underBinder d2
      have h3 : d2.Sound := by
        dsimp -zeta only [d2]
        exact sound_postIf (by assumption)
      clear_value d2
      exact sound_fwPut (by assumption)

theorem sound_donorConvert {lane : ℕ} {d : Dev} (hS : d.Sound) : SoundO (donorConvert lane d) := by
  unfold donorConvert
  split
  · apply soundO_none
  · extract_lets +onlyGivenNames -underBinder d0
    have h1 : d0.Sound := by
      dsimp -zeta only [d0]
      exact sound_sbMod (by assumption)
    clear_value d0
    exact soundO_some (sound_post (by assumption))

theorem sound_sbLost {key : ℕ} {p : ℕ} {full : Bool} {d : Dev} (hS : d.Sound) : (sbLost key p full d).Sound := by
  unfold sbLost
  exact sound_postIf (sound_sbMod (by assumption))

theorem sound_substitute {key p : Nat} {d : Dev} (hS : d.Sound) : (substitute key p d).2.Sound := by
  have hm : ∀ (m : Med) (e : Dev), (twf e.med.rows = true → twf m.rows = true) → e.Sound → Dev.Sound { e with med := m } :=
    fun m e hr h => sound_upd (d := e) rfl rfl rfl rfl rfl rfl rfl id rfl rfl id hr id id h
  unfold substitute
  dsimp only
  split
  · exact sound_sbLost hS
  · split
    · exact sound_post (sound_blogAdd (hm _ _ id hS))
    · split
      · exact sound_sbLost hS
      · rename_i hd
        have hd := sound_donorConvert hS _ hd
        split
        · exact sound_post (sound_blogAdd (hm _ _ id hd))
        · exact sound_sbLost hd

theorem sound_opsStart {lane : ℕ} {nsb : ℕ} {ps : List ℕ} {reset : Bool} {cls : ℕ} {d : Dev} (hS : d.Sound) : SoundO (opsStart lane nsb ps reset cls d) := by
  unfold opsStart
  split
  · apply soundO_none
  · extract_lets +onlyGivenNames -underBinder d0
    clear_value d0
    exact soundO_some (sound_mediaGrant (by assumption))

theorem sound_waveStart {lane : ℕ} {d : Dev} (hS : d.Sound) : (waveStart lane d).Sound := by
  unfold waveStart
  split
  · assumption
  · split
    · assumption
    · extract_lets +onlyGivenNames -underBinder d0
      clear_value d0
      extract_lets +onlyGivenNames -underBinder d2
      have h3 : ∀ d2a0 ed2, ed2.Sound → (d2 d2a0 ed2).Sound := by
        intro d2a0 ed2 hed2
        dsimp -zeta only [d2]
        assumption
      clear_value d2
      split
      · apply_assumption
        rename_i r4 r5
        refine sound_upd (d := r4) rfl rfl rfl rfl rfl rfl rfl id rfl rfl id id id id ?_
        exact sound_of_some (by assumption) (sound_opsStart (by assumption))
      · split
        · assumption
        · solve_by_elim

theorem sound_waveKick {d : Dev} (hS : d.Sound) : (waveKick d).Sound := by
  unfold waveKick
  refine sound_foldl _ ?_ fun d0 a1 h2 => ?_
  · assumption
  · exact sound_waveStart (by assumption)

theorem sound_sbFull {key : ℕ} {d : Dev} (hS : d.Sound) : (sbFull key d).Sound := by
  unfold sbFull
  extract_lets +onlyGivenNames -underBinder d0
  have h1 : d0.Sound := by
    dsimp -zeta only [d0]
    exact sound_sbMod (by assumption)
  clear_value d0
  extract_lets +onlyGivenNames -underBinder d2
  clear_value d2
  assumption

theorem sound_pagesVerified {st : PSet} {ps : List ℕ} {d : Dev} (hS : d.Sound) : (pagesVerified st ps d).Sound := by
  unfold pagesVerified
  extract_lets +onlyGivenNames -underBinder d0
  clear_value d0
  extract_lets +onlyGivenNames -underBinder d2
  clear_value d2
  extract_lets +onlyGivenNames -underBinder d4
  clear_value d4
  exact sound_sbMod (by assumption)

theorem sound_hostOpen {lane : ℕ} {floor : Bool} {d : Dev} (hS : d.Sound) : (hostOpen lane floor d).2.Sound := by
  unfold hostOpen
  split
  · extract_lets +onlyGivenNames -underBinder d0
    have h1 : d0.Sound := by
      dsimp -zeta only [d0]
      split
      · split
        · exact sound_openLog (by assumption)
        · assumption
      · assumption
    clear_value d0
    exact sound_mk (by assumption)
  · split
    · exact sound_mk (by assumption)
    · split
      · exact sound_mk (by assumption)
      · split
        · exact sound_mk (by assumption)
        · exact sound_mk (sound_openLog (by assumption))

theorem sound_metaOpen {kind : Kind} {lane : ℕ} {d : Dev} (hS : d.Sound) : (metaOpen kind lane d).2.Sound := by
  unfold metaOpen
  extract_lets +onlyGivenNames -underBinder d0
  clear_value d0
  split
  · exact sound_mk (by assumption)
  · extract_lets +onlyGivenNames -underBinder d2
    clear_value d2
    extract_lets +onlyGivenNames -underBinder d4
    clear_value d4
    dsimp only
    split
    · dsimp only
      assumption
    · split
      · dsimp only
        rename_i r6 r7 r8
        refine sound_upd (d := if kind = Kind.blog then openLog r6 d else d) rfl rfl rfl rfl rfl rfl rfl id rfl rfl id id id id ?_
        split
        · exact sound_openLog (by assumption)
        · assumption
      · dsimp only
        exact sound_sbMod (sound_openLog (by assumption))

theorem sound_setStart {lane : ℕ} {key : ℕ} {kind : Kind} {cls : ℕ} {n : ℕ} {floorDestage : Bool} {rows : List SetRow} {d : Dev} (hS : d.Sound) : (setStart lane key kind cls n floorDestage rows d).Sound := by
  unfold setStart
  extract_lets +onlyGivenNames -underBinder d0
  clear_value d0
  extract_lets +onlyGivenNames -underBinder d2
  clear_value d2
  extract_lets +onlyGivenNames -underBinder d4
  extract_lets +onlyGivenNames -underBinder d6
  have h7 : d6.Sound := by
    dsimp -zeta only [d6]
    split
    · exact sound_sbOpen (by assumption)
    · assumption
  clear_value d6
  exact sound_waveStart (by assumption)

theorem sound_hostSet {lane : ℕ} {key : ℕ} {cls : ℕ} {floorDestage : Bool} {rows : List HRow} {d : Dev} (hS : d.Sound) : (hostSet lane key cls floorDestage rows d).Sound := by
  unfold hostSet
  extract_lets +onlyGivenNames -underBinder d0
  clear_value d0
  extract_lets +onlyGivenNames -underBinder d2
  have h3 : d2.Sound := by
    dsimp -zeta only [d2]
    refine sound_foldl _ ?_ fun d4 a5 h6 => ?_
    · assumption
    · exact sound_freeze (by assumption)
  clear_value d2
  extract_lets +onlyGivenNames -underBinder d7
  clear_value d7
  split
  · assumption
  · extract_lets +onlyGivenNames -underBinder d9
    clear_value d9
    split
    extract_lets +onlyGivenNames -underBinder d11
    clear_value d11
    exact sound_setStart (sound_of_eq (by assumption) (sound_verTake (by assumption)))

theorem sound_metaSet {lane : ℕ} {key : ℕ} {kind : Kind} {n : ℕ} {rows : List (ℕ × Tab Line)} {d : Dev} (hS : d.Sound) : (metaSet lane key kind n rows d).Sound := by
  unfold metaSet
  split
  · exact sound_fatal (by assumption)
  · split
    exact sound_setStart (sound_of_eq (by assumption) (sound_verTake (by assumption)))

theorem sound_oldLine {f l : ℕ} {e : Entry} {fx : SeqFx} {d : Dev} (hS : d.Sound) : (oldLine f l e fx d).2.Sound := by
  have hr : ∀ n, Dev.Sound { d with rp.nextId := n } := fun _ => hS
  exact sound_backMedia (hr _)

theorem sound_moveRow {f : ℕ} {ts : Trouble} {why : UpdWhy} {d : Dev} (hS : d.Sound) : (moveRow f ts why d).2.Sound :=
  sound_foldl_pair _ hS fun _ _ h => sound_oldLine h

theorem sound_retireWorn {key : ℕ} {d : Dev} (hS : d.Sound) : (retireWorn key d).Sound := by
  unfold retireWorn
  extract_lets +onlyGivenNames -underBinder d0
  clear_value d0
  refine sound_foldl _ ?_ fun d2 a3 h4 => ?_
  · assumption
  · extract_lets +onlyGivenNames -underBinder d5
    clear_value d5
    extract_lets +onlyGivenNames -underBinder d7
    clear_value d7
    split
    · extract_lets +onlyGivenNames -underBinder d9i0 d9i1 d9
      have h10 : d9.Sound := by
        dsimp -zeta only [d9]
        exact sound_blogAdd (by assumption)
      clear_value d9
      exact sound_substitute (sound_post (by assumption))
    · assumption

theorem sound_intentPut {key : ℕ} {d : Dev} (hS : d.Sound) : (intentPut key d).Sound := by
  unfold intentPut
  extract_lets +onlyGivenNames -underBinder d0
  have h1 : d0.Sound := by
    dsimp -zeta only [d0]
    exact sound_retireWorn (by assumption)
  clear_value d0
  split
  · assumption
  · extract_lets +onlyGivenNames -underBinder d2
    have h3 : d2.Sound := by
      dsimp -zeta only [d2]
      exact sound_blogSb (by assumption)
    clear_value d2
    exact sound_sbMod (by assumption)

theorem sound_intentLog {key : ℕ} {d : Dev} (hS : d.Sound) : (intentLog key d).Sound := by
  unfold intentLog
  extract_lets +onlyGivenNames -underBinder d0
  clear_value d0
  split
  · extract_lets +onlyGivenNames -underBinder d2
    clear_value d2
    exact sound_intentPut (by assumption)
  · assumption

theorem sound_intentsOn {d : Dev} (hS : d.Sound) : (intentsOn d).Sound := by
  unfold intentsOn
  assumption

theorem sound_resetStart {key : Nat} {d : Dev} (hS : d.Sound) : (resetStart key d).Sound := by
  unfold resetStart
  dsimp only
  split
  · exact hS
  · split
    · rename_i h
      exact sound_sbMod (sound_med (sound_opsStart hS _ h) (twf_filter _ _))
    · split
      · exact hS
      · exact sound_sbMod (sound_med hS id)

theorem sound_resetKick {d : Dev} (hS : d.Sound) : (resetKick d).Sound := by
  unfold resetKick
  refine sound_foldl _ ?_ fun d0 a1 h2 => ?_
  · assumption
  · split
    · split
      · assumption
      · exact sound_resetStart (by assumption)
    · split
      · assumption
      · exact sound_resetStart (by assumption)
    · assumption

theorem sound_resetEnd {key : ℕ} {d : Dev} (hS : d.Sound) : (resetEnd key d).Sound := by
  unfold resetEnd
  extract_lets +onlyGivenNames -underBinder d0
  clear_value d0
  split
  · assumption
  · extract_lets +onlyGivenNames -underBinder d2i0 d2
    have h3 : d2.Sound := by
      dsimp -zeta only [d2]
      assumption
    clear_value d2
    split
    · exact sound_blogSb (by assumption)
    · assumption

theorem sound_victimTake {d : Dev} (hS : d.Sound) : (victimTake d).Sound := by
  have hs : ∀ (e : Dev) (v : ℕ), e.Sound → Dev.Sound { e with stw.victim := v } := fun _ _ h => h
  unfold victimTake
  dsimp only
  refine hs _ _ ?_
  split
  · exact sound_sbMod hS
  · exact hS

theorem sound_laneIdle {lane : ℕ} {d : Dev} (hS : d.Sound) : (laneIdle lane d).Sound := by
  unfold laneIdle
  split <;> assumption

end Sys2Proof.Machine
end

