-- ==== Sys2Proof/Laws/SoundLanes.lean ====
section
/-! SUPPORT. Laws/SoundLanes.lean: the operations of Lanes.lean keep the node's stores in order. -/

namespace Sys2Proof.Machine

set_option linter.unusedVariables false

theorem sound_destageDone {key : ℕ} {gen : ℕ} {u : Upd} {applied : Bool} {d : Dev} (hS : d.Sound) : (destageDone key gen u applied d).Sound := by
  unfold destageDone
  extract_lets +onlyGivenNames -underBinder d0
  clear_value d0
  split
  · assumption
  · split
    · apply sound_setFlags
      extract_lets +onlyGivenNames -underBinder d2
      have h3 : d2.Sound := by
        dsimp -zeta only [d2]
        exact sound_slotDrain (by assumption)
      clear_value d2
      assumption
    · refine sound_upd (d := d) rfl rfl rfl rfl rfl rfl rfl ?_ rfl rfl ?_ ?_ ?_ ?_ ?_
      · intro a4
        assumption
      · intro a5
        assumption
      · intro a6
        assumption
      · intro a7
        exact twf_tset _ _ _ (by assumption)
      · intro a8
        assumption
      · assumption

theorem sound_hotMark {f : ℕ} {d : Dev} (hS : d.Sound) : (hotMark f d).Sound := by
  unfold hotMark
  extract_lets +onlyGivenNames -underBinder d0
  clear_value d0
  assumption

theorem sound_rescueDone {u : Upd} {applied : Bool} {d : Dev} (hS : d.Sound) : (rescueDone u applied d).Sound := by
  unfold rescueDone
  extract_lets +onlyGivenNames -underBinder d0
  clear_value d0
  extract_lets +onlyGivenNames -underBinder d2
  clear_value d2
  assumption

theorem sound_rekeyMoved {n : ℕ} {f : ℕ} {applied : Bool} {d : Dev} (hS : d.Sound) : (rekeyMoved n f applied d).Sound := by
  unfold rekeyMoved
  assumption

theorem sound_updDone {u : Upd} {applied : Bool} {d : Dev} (hS : d.Sound) : (updDone u applied d).Sound := by
  unfold updDone
  extract_lets +onlyGivenNames -underBinder d0
  have h1 : ∀ d0a0 ed0, ed0.Sound → (d0 d0a0 ed0).Sound := by
    intro d0a0 ed0 hed0
    dsimp -zeta only [d0]
    split <;> assumption
  clear_value d0
  split
  · apply sound_destageDone
    split
    · exact sound_hotMark (by assumption)
    · assumption
  · solve_by_elim
  · solve_by_elim
  · solve_by_elim
  · solve_by_elim
  · apply sound_rescueDone
    solve_by_elim
  · exact sound_rekeyMoved (by assumption)
  · split
    · assumption
    · extract_lets +onlyGivenNames -underBinder d2
      clear_value d2
      extract_lets +onlyGivenNames -underBinder d4i0 d4
      have h5 : d4.Sound := by
        dsimp -zeta only [d4]
        assumption
      clear_value d4
      split
      · exact sound_rescueDrop (by assumption)
      · assumption
  · assumption

theorem sound_updApply {u : Upd} {d : Dev} (hS : d.Sound) : (updApply u d).Sound := by
  unfold updApply
  split
  · extract_lets +onlyGivenNames -underBinder d0
    clear_value d0
    exact sound_updDone (by assumption)
  · extract_lets +onlyGivenNames -underBinder d2
    have h3 : d2.Sound := by
      dsimp -zeta only [d2]
      split
      · exact sound_slotDiscard (sound_shedRow (by assumption))
      · assumption
    clear_value d2
    extract_lets +onlyGivenNames -underBinder d4
    clear_value d4
    extract_lets +onlyGivenNames -underBinder d6
    clear_value d6
    extract_lets +onlyGivenNames -underBinder d8
    have h9 : d8.Sound := by
      dsimp -zeta only [d8]
      exact sound_rowsMoved (sound_mapJournal (by assumption))
    clear_value d8
    extract_lets +onlyGivenNames -underBinder d10
    have h11 : d10.Sound := by
      dsimp -zeta only [d10]
      split
      · split
        · exact sound_pidxAdd (by assumption)
        · exact sound_pidxDrop (by assumption)
      · split
        · exact sound_pidxAdd (by assumption)
        · exact sound_pidxDrop (by assumption)
      · exact sound_pidxAdd (by assumption)
      · exact sound_pidxDrop (by assumption)
      · exact sound_pidxDrop (by assumption)
      · assumption
    clear_value d10
    extract_lets +onlyGivenNames -underBinder d12
    have h13 : d12.Sound := by
      dsimp -zeta only [d12]
      exact sound_updDone (by assumption)
    clear_value d12
    extract_lets +onlyGivenNames -underBinder d14i0 d14
    have h15 : d14.Sound := by
      dsimp -zeta only [d14]
      split <;> assumption
    clear_value d14
    split
    · assumption
    · split
      · exact sound_victimTake (sound_intentLog (by assumption))
      · exact sound_intentLog (by assumption)

theorem sound_mapUpdateApply {d : Dev} (hS : d.Sound) : (mapUpdateApply d).Sound := by
  unfold mapUpdateApply
  split
  · assumption
  · split
    · assumption
    · split
      · assumption
      · split
        · exact sound_admitEval (sound_updApply (by assumption))
        · split
          · assumption
          · exact sound_post (by assumption)

theorem sound_gatherLine {key : ℕ} {s : Slot} {e : Entry} {ts : Trouble} {l : ℕ} {d : Dev} (hS : d.Sound) : (gatherLine key s e ts l d).2.Sound := by
  unfold gatherLine
  extract_lets +onlyGivenNames -underBinder d0
  clear_value d0
  extract_lets +onlyGivenNames -underBinder d2
  clear_value d2
  extract_lets +onlyGivenNames -underBinder d4
  clear_value d4
  extract_lets +onlyGivenNames -underBinder d6
  clear_value d6
  extract_lets +onlyGivenNames -underBinder d8
  clear_value d8
  extract_lets +onlyGivenNames -underBinder d10
  clear_value d10
  extract_lets +onlyGivenNames -underBinder d12
  clear_value d12
  extract_lets +onlyGivenNames -underBinder d14
  have h15 : ∀ ed14, ed14.Sound → (d14 ed14).2.Sound := by
    intro ed14 hed14
    dsimp -zeta only [d14]
    exact sound_backCushion (by assumption)
  clear_value d14
  split
  · split
    refine sound_mk ?_
    refine sound_of_eq (by assumption) ?_
    solve_by_elim
  · split
    refine sound_mk ?_
    refine sound_of_eq (by assumption) ?_
    solve_by_elim
  · split
    split
    · split
      refine sound_mk ?_
      refine sound_of_eq (by assumption) ?_
      apply sound_oldLine
      refine sound_of_eq (by assumption) ?_
      solve_by_elim
    · refine sound_mk ?_
      refine sound_of_eq (by assumption) ?_
      solve_by_elim
  · split
    · split
      exact sound_mk (sound_of_eq (by assumption) (sound_oldLine (by assumption)))
    · exact sound_mk (by assumption)

theorem sound_gather {key : ℕ} {ts : Trouble} {d : Dev} (hS : d.Sound) : (gather key ts d).2.Sound := by
  have hc : ∀ (n : Tab ℕ) (e : Dev), e.Sound → Dev.Sound { e with csh.cnt := n } := fun _ _ h => h
  refine sound_foldl_pair _ (sound_csh hS (twf_tset _ _ _)) fun a l h => ?_
  have hg := sound_gatherLine (key := key) (s := tget d.csh.dir key) (e := mapGet d (tget d.csh.dir key).frond) (ts := ts)
    (l := l) h
  show Dev.Sound (if (gatherLine key (tget d.csh.dir key) (mapGet d (tget d.csh.dir key).frond) ts l a.2).1.fresh = true then _ else _)
  split
  · exact sound_pidxAdd (sound_post (hc _ _ hg))
  · exact hg

theorem sound_pay {key : ℕ} {lane : ℕ} {wave : Bool} {d : Dev} (hS : d.Sound) : (pay key lane wave d).Sound := by
  unfold pay
  assumption

theorem sound_offerDestage {lane : ℕ} {ts : Trouble} {d : Dev} (hS : d.Sound) : (offerDestage lane ts d).Sound := by
  unfold offerDestage
  split
  · assumption
  · split
    · assumption
    · split
      split
      · exact sound_of_eq (by assumption) (sound_hostOpen (by assumption))
      · extract_lets +onlyGivenNames -underBinder d0
        clear_value d0
        extract_lets +onlyGivenNames -underBinder d2
        clear_value d2
        extract_lets +onlyGivenNames -underBinder d4
        clear_value d4
        split
        split
        · refine sound_of_eq (by assumption) ?_
          refine sound_foldl_pair _ ?_ fun p6 a7 h8 => ?_
          · exact sound_mk (sound_of_eq (by assumption) (sound_hostOpen (by assumption)))
          · split
            exact sound_mk (sound_of_eq (by assumption) (sound_gather (by assumption)))
        · extract_lets +onlyGivenNames -underBinder d9
          clear_value d9
          apply sound_hostSet
          apply sound_pay
          rename_i r11 r12 r13
          refine sound_upd (d := r11) rfl rfl rfl rfl rfl rfl rfl id rfl rfl id id id id ?_
          refine sound_of_eq (by assumption) ?_
          refine sound_foldl_pair _ ?_ fun p14 a15 h16 => ?_
          · exact sound_mk (sound_of_eq (by assumption) (sound_hostOpen (by assumption)))
          · split
            exact sound_mk (sound_of_eq (by assumption) (sound_gather (by assumption)))

theorem sound_offerJournal {lane : ℕ} {d : Dev} (hS : d.Sound) : (offerJournal lane d).Sound := by
  unfold offerJournal
  split
  · assumption
  · extract_lets +onlyGivenNames -underBinder d0
    clear_value d0
    split
    · assumption
    · split
      split
      · exact sound_of_eq (by assumption) (sound_metaOpen (by assumption))
      · extract_lets +onlyGivenNames -underBinder d2
        clear_value d2
        exact sound_metaSet (sound_pay (sound_of_eq (by assumption) (sound_metaOpen (by assumption))))

theorem sound_offerImage {lane : ℕ} {d : Dev} (hS : d.Sound) : (offerImage lane d).Sound := by
  unfold offerImage
  split
  · split
    · assumption
    · split
      split
      · exact sound_of_eq (by assumption) (sound_metaOpen (by assumption))
      · extract_lets +onlyGivenNames -underBinder d0
        clear_value d0
        apply sound_metaSet
        apply sound_pay
        rename_i r2 r3 r4 r5
        refine sound_upd (d := r2) rfl rfl rfl rfl rfl rfl rfl id rfl rfl id id id id ?_
        exact sound_of_eq (by assumption) (sound_metaOpen (by assumption))
  · assumption

theorem sound_offerBlog {lane : ℕ} {d : Dev} (hS : d.Sound) : (offerBlog lane d).Sound := by
  unfold offerBlog
  split
  · assumption
  · split
    · assumption
    · split
      split
      · exact sound_of_eq (by assumption) (sound_metaOpen (by assumption))
      · extract_lets +onlyGivenNames -underBinder d0
        clear_value d0
        extract_lets +onlyGivenNames -underBinder d2
        clear_value d2
        apply sound_metaSet
        apply sound_pay
        rename_i r4 r5 r6 r7
        refine sound_upd (d := r4) rfl rfl rfl rfl rfl rfl rfl id rfl rfl id id id id ?_
        exact sound_of_eq (by assumption) (sound_metaOpen (by assumption))

theorem sound_offerRows {lane : ℕ} {k : ℕ} {cls : ℕ} {floor : Bool} {cand : List (ℕ × UpdWhy)} {ts : Trouble} {d : Dev} (hS : d.Sound) : (offerRows lane k cls floor cand ts d).Sound := by
  unfold offerRows
  extract_lets +onlyGivenNames -underBinder d0
  clear_value d0
  split
  · assumption
  · split
    split
    · exact sound_of_eq (by assumption) (sound_hostOpen (by assumption))
    · split
      split
      · refine sound_of_eq (by assumption) ?_
        refine sound_foldl_pair _ ?_ fun p2 a3 h4 => ?_
        · exact sound_mk (sound_of_eq (by assumption) (sound_hostOpen (by assumption)))
        · split
          exact sound_mk (sound_of_eq (by assumption) (sound_moveRow (by assumption)))
      · apply sound_hostSet
        apply sound_pay
        refine sound_of_eq (by assumption) ?_
        refine sound_foldl_pair _ ?_ fun p5 a6 h7 => ?_
        · exact sound_mk (sound_of_eq (by assumption) (sound_hostOpen (by assumption)))
        · split
          exact sound_mk (sound_of_eq (by assumption) (sound_moveRow (by assumption)))

theorem sound_rescueSweep {d : Dev} (hS : d.Sound) : (rescueSweep d).Sound := by
  unfold rescueSweep
  refine sound_foldl _ ?_ fun d0 a1 h2 => ?_
  · assumption
  · split
    · assumption
    · exact sound_rescueDrop (by assumption)

theorem sound_offerRescue {lane : ℕ} {ts : Trouble} {d : Dev} (hS : d.Sound) : (offerRescue lane ts d).Sound := by
  unfold offerRescue
  split
  · assumption
  · extract_lets +onlyGivenNames -underBinder d0
    have h1 : d0.Sound := by
      dsimp -zeta only [d0]
      exact sound_rescueSweep (by assumption)
    clear_value d0
    exact sound_offerRows (by assumption)

theorem sound_offerMove {lane : ℕ} {step : ℕ} {nsb : ℕ} {ts : Trouble} {d : Dev} (hS : d.Sound) : (offerMove lane step nsb ts d).Sound := by
  unfold offerMove
  extract_lets +onlyGivenNames -underBinder d0
  clear_value d0
  split
  split
  · assumption
  · split
    · assumption
    · extract_lets +onlyGivenNames -underBinder d2
      clear_value d2
      exact sound_offerRows (by assumption)

theorem sound_offerRekey {lane : ℕ} {range : ℕ} {ts : Trouble} {d : Dev} (hS : d.Sound) : (offerRekey lane range ts d).Sound := by
  unfold offerRekey
  split
  · assumption
  · extract_lets +onlyGivenNames -underBinder d0i0 d0
    have h1 : d0.Sound := by
      dsimp -zeta only [d0]
      assumption
    clear_value d0
    extract_lets +onlyGivenNames -underBinder d2
    clear_value d2
    exact sound_offerRows (by assumption)

theorem sound_offerReset {lane : ℕ} {nsb : ℕ} {d : Dev} (hS : d.Sound) : (offerReset lane nsb d).Sound := by
  unfold offerReset
  split
  · assumption
  · split
    · assumption
    · extract_lets +onlyGivenNames -underBinder d0
      have h1 : d0.Sound := by
        dsimp -zeta only [d0]
        exact sound_resetStart (by assumption)
      clear_value d0
      split
      · exact sound_pay (by assumption)
      · assumption

theorem sound_offerTo {lane : ℕ} {who : Consumer} {ts : Trouble} {d : Dev} (hS : d.Sound) : (offerTo lane who ts d).Sound := by
  unfold offerTo
  split
  · exact sound_offerDestage (by assumption)
  · exact sound_offerJournal (by assumption)
  · exact sound_offerImage (by assumption)
  · exact sound_offerBlog (by assumption)
  · exact sound_offerRescue (by assumption)
  · exact sound_offerMove (by assumption)
  · exact sound_offerRekey (by assumption)
  · exact sound_offerReset (by assumption)

theorem sound_offerStep {lane : ℕ} {who : ℕ} {d : Dev} {d' : Dev} (hS : d'.Sound) : (offerStep lane who d d').Sound := by
  unfold offerStep
  split
  · assumption
  · split <;> assumption

theorem sound_laneOffer {lane : ℕ} {who : Consumer} {ts : Trouble} {d : Dev} (hS : d.Sound) : (laneOffer lane who ts d).Sound := by
  unfold laneOffer
  extract_lets +onlyGivenNames -underBinder d0
  clear_value d0
  split
  · assumption
  · split
    · exact sound_offerTo (by assumption)
    · split
      · assumption
      · extract_lets +onlyGivenNames -underBinder d2
        clear_value d2
        split
        · assumption
        · exact sound_offerStep (sound_offerTo (by assumption))

theorem sound_metaRelease {l : Lap} {d : Dev} (hS : d.Sound) : (metaRelease l d).Sound := by
  unfold metaRelease
  extract_lets +onlyGivenNames -underBinder d0
  clear_value d0
  extract_lets +onlyGivenNames -underBinder d2
  clear_value d2
  extract_lets +onlyGivenNames -underBinder d4
  clear_value d4
  extract_lets +onlyGivenNames -underBinder d6
  have h7 : d6.Sound := by
    dsimp -zeta only [d6]
    refine sound_foldl _ ?_ fun d8 a9 h10 => ?_
    · assumption
    · exact sound_rowMark (by assumption)
  clear_value d6
  extract_lets +onlyGivenNames -underBinder d11i0 d11i1 d11
  have h12 : d11.Sound := by
    dsimp -zeta only [d11]
    assumption
  clear_value d11
  refine sound_foldl _ ?_ fun d13 a14 h15 => ?_
  · assumption
  · exact sound_intentLog (by assumption)

theorem sound_lapEnd {l : Lap} {d : Dev} (hS : d.Sound) : (lapEnd l d).Sound := by
  unfold lapEnd
  extract_lets +onlyGivenNames -underBinder d0i0 d0
  clear_value d0
  exact sound_metaRelease (sound_anchorPut (by assumption))

theorem sound_journalOn {st : PSet} {d : Dev} (hS : d.Sound) : (journalOn st d).Sound := by
  unfold journalOn
  extract_lets +onlyGivenNames -underBinder d0
  clear_value d0
  extract_lets +onlyGivenNames -underBinder d2
  clear_value d2
  exact sound_sbMod (by assumption)

theorem sound_blogOn {st : PSet} {d : Dev} (hS : d.Sound) : (blogOn st d).Sound := by
  unfold blogOn
  exact sound_intentsOn (by assumption)

theorem sound_setVerified {st : PSet} {d : Dev} (hS : d.Sound) : (setVerified st d).Sound := by
  unfold setVerified
  extract_lets +onlyGivenNames -underBinder d0
  have h1 : d0.Sound := by
    dsimp -zeta only [d0]
    refine sound_foldl _ ?_ fun d2 a3 h4 => ?_
    · assumption
    · extract_lets +onlyGivenNames -underBinder d5
      clear_value d5
      extract_lets +onlyGivenNames -underBinder d7i0 d7
      have h8 : d7.Sound := by
        dsimp -zeta only [d7]
        refine sound_upd (d := d2) rfl rfl rfl rfl rfl rfl rfl ?_ rfl rfl ?_ ?_ ?_ ?_ ?_
        · intro a9
          assumption
        · intro a10
          assumption
        · intro a11
          exact twf_tset _ _ _ (by assumption)
        · intro a12
          assumption
        · intro a13
          assumption
        · assumption
      clear_value d7
      split
      · exact sound_rowMark (by assumption)
      · assumption
  clear_value d0
  extract_lets +onlyGivenNames -underBinder d14i0 d14i1 d14
  have h15 : d14.Sound := by
    dsimp -zeta only [d14]
    assumption
  clear_value d14
  extract_lets +onlyGivenNames -underBinder d16
  have h17 : d16.Sound := by
    dsimp -zeta only [d16]
    exact sound_sbMod (by assumption)
  clear_value d16
  extract_lets +onlyGivenNames -underBinder d18
  have h19 : d18.Sound := by
    dsimp -zeta only [d18]
    split
    · exact sound_journalOn (by assumption)
    · exact sound_blogOn (by assumption)
    · split
      · extract_lets +onlyGivenNames -underBinder d20
        clear_value d20
        extract_lets +onlyGivenNames -underBinder d22i0 d22
        have h23 : d22.Sound := by
          dsimp -zeta only [d22]
          assumption
        clear_value d22
        split
        · exact sound_lapEnd (by assumption)
        · assumption
      · assumption
    · assumption
  clear_value d18
  apply sound_laneIdle
  split
  · exact sound_sbFull (by assumption)
  · assumption

theorem sound_setAbandoned {st : PSet} {d : Dev} (hS : d.Sound) : (setAbandoned st d).Sound := by
  unfold setAbandoned
  split
  · assumption
  · extract_lets +onlyGivenNames -underBinder d0
    have h1 : d0.Sound := by
      dsimp -zeta only [d0]
      refine sound_foldl _ ?_ fun d2 a3 h4 => ?_
      · assumption
      · split
        · split
          · extract_lets +onlyGivenNames -underBinder d5
            clear_value d5
            exact sound_destageDone (sound_post (by assumption))
          · assumption
        · assumption
    clear_value d0
    extract_lets +onlyGivenNames -underBinder d7i0 d7
    have h8 : d7.Sound := by
      dsimp -zeta only [d7]
      assumption
    clear_value d7
    exact sound_laneIdle (sound_sbFull (sound_sbMod (by assumption)))

theorem sound_laneClose {lane : ℕ} {d : Dev} (hS : d.Sound) : (laneClose lane d).Sound := by
  unfold laneClose
  split
  · assumption
  · extract_lets +onlyGivenNames -underBinder d0
    have h1 : d0.Sound := by
      dsimp -zeta only [d0]
      refine sound_foldl _ ?_ fun d2 a3 h4 => ?_
      · assumption
      · exact sound_setAbandoned (by assumption)
    clear_value d0
    exact sound_post (by assumption)

theorem sound_dieKeep {die : ℕ} {x : Die} {d : Dev} (hS : d.Sound) : (dieKeep die x d).Sound := by
  unfold dieKeep
  exact sound_fwPut (by assumption)

theorem sound_dieFail {die : ℕ} {ops : ℕ} {d : Dev} (hS : d.Sound) : (dieFail die ops d).Sound := by
  unfold dieFail
  extract_lets +onlyGivenNames -underBinder d0
  clear_value d0
  split
  · assumption
  · extract_lets +onlyGivenNames -underBinder d2
    have h3 : d2.Sound := by
      dsimp -zeta only [d2]
      exact sound_post (sound_dieKeep (by assumption))
    clear_value d2
    extract_lets +onlyGivenNames -underBinder d4
    clear_value d4
    extract_lets +onlyGivenNames -underBinder d6i0 d6
    have h7 : d6.Sound := by
      dsimp -zeta only [d6]
      assumption
    clear_value d6
    refine sound_foldl _ ?_ fun d8 a9 h10 => ?_
    · assumption
    · exact sound_laneClose (by assumption)

theorem sound_dieStrike {die : ℕ} {d : Dev} (hS : d.Sound) : (dieStrike die d).Sound := by
  unfold dieStrike
  extract_lets +onlyGivenNames -underBinder d0
  clear_value d0
  extract_lets +onlyGivenNames -underBinder d2
  clear_value d2
  extract_lets +onlyGivenNames -underBinder d4
  have h5 : d4.Sound := by
    dsimp -zeta only [d4]
    exact sound_dieKeep (by assumption)
  clear_value d4
  split
  · exact sound_dieFail (by assumption)
  · assumption

theorem sound_dieGood {die : ℕ} {d : Dev} (hS : d.Sound) : (dieGood die d).Sound := by
  unfold dieGood
  assumption

theorem sound_progFail {st : PSet} {p : ℕ} {d : Dev} (hS : d.Sound) : (progFail st p d).Sound := by
  unfold progFail
  extract_lets +onlyGivenNames -underBinder d0
  clear_value d0
  extract_lets +onlyGivenNames -underBinder d2
  clear_value d2
  extract_lets +onlyGivenNames -underBinder d4
  clear_value d4
  extract_lets +onlyGivenNames -underBinder d6
  clear_value d6
  extract_lets +onlyGivenNames -underBinder d8i0 d8
  have h9 : d8.Sound := by
    dsimp -zeta only [d8]
    exact sound_post (by assumption)
  clear_value d8
  extract_lets +onlyGivenNames -underBinder d10
  have h11 : d10.Sound := by
    dsimp -zeta only [d10]
    exact sound_dieStrike (by assumption)
  clear_value d10
  split
  · exact sound_substitute (sound_blogAdd (by assumption))
  · assumption

theorem sound_programWaveDone {lane : ℕ} {fail : BitVec 20} {d : Dev} (hS : d.Sound) : (programWaveDone lane fail d).Sound := by
  unfold programWaveDone
  extract_lets +onlyGivenNames -underBinder d0
  clear_value d0
  split
  · assumption
  · extract_lets +onlyGivenNames -underBinder d2i0 d2
    have h3 : d2.Sound := by
      dsimp -zeta only [d2]
      assumption
    clear_value d2
    extract_lets +onlyGivenNames -underBinder d4
    clear_value d4
    extract_lets +onlyGivenNames -underBinder d6
    clear_value d6
    extract_lets +onlyGivenNames -underBinder d8
    have h9 : d8.Sound := by
      dsimp -zeta only [d8]
      refine sound_foldl _ ?_ fun d10 a11 h12 => ?_
      · assumption
      · exact sound_dieGood (by assumption)
    clear_value d8
    split
    · exact sound_laneIdle (by assumption)
    · extract_lets +onlyGivenNames -underBinder d13
      have h14 : d13.Sound := by
        dsimp -zeta only [d13]
        exact sound_pagesVerified (by assumption)
      clear_value d13
      split
      · apply sound_setAbandoned
        refine sound_foldl _ ?_ fun d15 a16 h17 => ?_
        · assumption
        · exact sound_progFail (by assumption)
      · split
        · exact sound_setVerified (by assumption)
        · exact sound_waveStart (by assumption)

theorem sound_resetSubst {key : ℕ} {pos : ℕ} {d : Dev} (hS : d.Sound) : (resetSubst key pos d).Sound := by
  unfold resetSubst
  extract_lets +onlyGivenNames -underBinder d0
  clear_value d0
  split
  · assumption
  · split
    · exact sound_of_eq (by assumption) (sound_substitute (by assumption))
    · extract_lets +onlyGivenNames -underBinder d2
      clear_value d2
      exact sound_sbMod (sound_blogAdd (sound_of_eq (by assumption) (sound_substitute (by assumption))))

theorem sound_resetDone {lane : ℕ} {pos : ℕ} {ok : Bool} {d : Dev} (hS : d.Sound) : (resetDone lane pos ok d).Sound := by
  unfold resetDone
  split
  · assumption
  · extract_lets +onlyGivenNames -underBinder d0
    clear_value d0
    extract_lets +onlyGivenNames -underBinder d2
    clear_value d2
    extract_lets +onlyGivenNames -underBinder d4
    clear_value d4
    extract_lets +onlyGivenNames -underBinder d6
    clear_value d6
    extract_lets +onlyGivenNames -underBinder d8
    clear_value d8
    extract_lets +onlyGivenNames -underBinder d10i0 d10
    have h11 : d10.Sound := by
      dsimp -zeta only [d10]
      assumption
    clear_value d10
    extract_lets +onlyGivenNames -underBinder d12i0 d12i1 d12
    have h13 : d12.Sound := by
      dsimp -zeta only [d12]
      split
      · exact sound_blogAdd (sound_dieGood (by assumption))
      · apply sound_resetSubst
        apply sound_dieStrike
        dsimp -zeta only [d12i1]
        exact sound_post (sound_blogAdd (by assumption))
    clear_value d12
    exact sound_laneIdle (sound_resetEnd (by assumption))

theorem sound_opMod {lane : ℕ} {pos : ℕ} {f : Op → Op} {d : Dev} (hS : d.Sound) : (opMod lane pos f d).Sound := by
  unfold opMod
  assumption

theorem sound_opSuspend {lane : ℕ} {pos : ℕ} {d : Dev} (hS : d.Sound) : (opSuspend lane pos d).Sound := by
  unfold opSuspend
  split
  · split
    · assumption
    · exact sound_opMod (by assumption)
  · assumption

theorem sound_opStall {lane : ℕ} {pos : ℕ} {us : ℕ} {d : Dev} (hS : d.Sound) : (opStall lane pos us d).Sound := by
  unfold opStall
  split
  · split
    · assumption
    · extract_lets +onlyGivenNames -underBinder d0
      clear_value d0
      extract_lets +onlyGivenNames -underBinder d2
      clear_value d2
      extract_lets +onlyGivenNames -underBinder d4
      have h5 : d4.Sound := by
        dsimp -zeta only [d4]
        exact sound_opMod (by assumption)
      clear_value d4
      split <;> exact sound_post (by assumption)
  · assumption

theorem sound_passPoison {x : ℕ × ℕ} {d : Dev} (hS : d.Sound) : (passPoison x d).Sound := by
  unfold passPoison
  extract_lets +onlyGivenNames -underBinder d0
  clear_value d0
  split
  apply sound_pidxAdd
  apply sound_rescueAdd
  rename_i r2 r3
  refine sound_upd (d := r2) rfl rfl rfl rfl rfl rfl rfl id rfl rfl id id id id ?_
  exact sound_of_eq (by assumption) (sound_stagePoison (by assumption))

theorem sound_verifyPassDone {nsb : ℕ} {pos : ℕ} {pages : List ℕ} {lost : List (ℕ × ℕ)} {d : Dev} (hS : d.Sound) : (verifyPassDone nsb pos pages lost d).Sound := by
  unfold verifyPassDone
  extract_lets +onlyGivenNames -underBinder d0
  clear_value d0
  extract_lets +onlyGivenNames -underBinder d2
  clear_value d2
  split
  · assumption
  · extract_lets +onlyGivenNames -underBinder d4
    clear_value d4
    extract_lets +onlyGivenNames -underBinder d6
    clear_value d6
    extract_lets +onlyGivenNames -underBinder d8
    clear_value d8
    extract_lets +onlyGivenNames -underBinder d10i0 d10i1 d10i2 d10
    have h11 : d10.Sound := by
      dsimp -zeta only [d10]
      exact sound_mediaGrant (by assumption)
    clear_value d10
    extract_lets +onlyGivenNames -underBinder d12
    clear_value d12
    extract_lets +onlyGivenNames -underBinder d14
    clear_value d14
    extract_lets +onlyGivenNames -underBinder d16i0 d16i1 d16i2 d16i3 d16i4 d16
    have h17 : d16.Sound := by
      dsimp -zeta only [d16]
      split
      · assumption
      · apply sound_postIf
        dsimp -zeta only [d16i4]
        apply sound_sbMod
        dsimp -zeta only [d16i2]
        split
        · dsimp -zeta only [d16i1]
          exact sound_post (by assumption)
        · apply sound_post
          refine sound_foldl _ ?_ fun d18 a19 h20 => ?_
          · dsimp -zeta only [d16i1]
            exact sound_post (by assumption)
          · exact sound_passPoison (by assumption)
    clear_value d16
    extract_lets +onlyGivenNames -underBinder d21
    clear_value d21
    extract_lets +onlyGivenNames -underBinder d23
    have h24 : d23.Sound := by
      dsimp -zeta only [d23]
      exact sound_sbMod (by assumption)
    clear_value d23
    split
    · exact sound_intentLog (sound_sbMod (by assumption))
    · assumption

end Sys2Proof.Machine
end

