-- ==== Sys2Proof/Laws/SoundSteward.lean ====
section
/-! SUPPORT. Laws/SoundSteward.lean: the operations of Steward.lean keep the node's stores in order. -/

namespace Sys2Proof.Machine

set_option linter.unusedVariables false

theorem sound_planPeriod {d : Dev} (hS : d.Sound) : (planPeriod d).Sound := by
  unfold planPeriod
  extract_lets +onlyGivenNames -underBinder d0
  clear_value d0
  extract_lets +onlyGivenNames -underBinder d2
  clear_value d2
  extract_lets +onlyGivenNames -underBinder d4
  clear_value d4
  extract_lets +onlyGivenNames -underBinder d6
  clear_value d6
  extract_lets +onlyGivenNames -underBinder d8
  clear_value d8
  split
  extract_lets +onlyGivenNames -underBinder d10
  clear_value d10
  extract_lets +onlyGivenNames -underBinder d12
  clear_value d12
  extract_lets +onlyGivenNames -underBinder d14
  clear_value d14
  extract_lets +onlyGivenNames -underBinder d16
  clear_value d16
  extract_lets +onlyGivenNames -underBinder d18
  clear_value d18
  extract_lets +onlyGivenNames -underBinder d20
  clear_value d20
  extract_lets +onlyGivenNames -underBinder d22
  split
  extract_lets +onlyGivenNames -underBinder d24
  clear_value d24
  extract_lets +onlyGivenNames -underBinder d26
  clear_value d26
  extract_lets +onlyGivenNames -underBinder d28
  clear_value d28
  extract_lets +onlyGivenNames -underBinder d30
  clear_value d30
  extract_lets +onlyGivenNames -underBinder d32
  clear_value d32
  extract_lets +onlyGivenNames -underBinder d34
  clear_value d34
  extract_lets +onlyGivenNames -underBinder d36
  clear_value d36
  extract_lets +onlyGivenNames -underBinder d38i0 d38i1 d38
  have h39 : d38.Sound := by
    dsimp -zeta only [d38]
    assumption
  clear_value d38
  exact sound_postIf (by assumption)

theorem sound_endPeriod {d : Dev} (hS : d.Sound) : (endPeriod d).Sound := by
  unfold endPeriod
  split
  · assumption
  · extract_lets +onlyGivenNames -underBinder d0
    clear_value d0
    extract_lets +onlyGivenNames -underBinder d2
    clear_value d2
    extract_lets +onlyGivenNames -underBinder d4
    clear_value d4
    extract_lets +onlyGivenNames -underBinder d6
    clear_value d6
    extract_lets +onlyGivenNames -underBinder d8
    clear_value d8
    extract_lets +onlyGivenNames -underBinder d10i0 d10
    have h11 : d10.Sound := by
      dsimp -zeta only [d10]
      assumption
    clear_value d10
    extract_lets +onlyGivenNames -underBinder d12
    clear_value d12
    split
    · assumption
    · extract_lets +onlyGivenNames -underBinder d14
      clear_value d14
      exact sound_post (by assumption)

theorem sound_freeUpdate {d : Dev} (hS : d.Sound) : (freeUpdate d).Sound := by
  unfold freeUpdate
  extract_lets +onlyGivenNames -underBinder d0
  clear_value d0
  extract_lets +onlyGivenNames -underBinder d2
  clear_value d2
  extract_lets +onlyGivenNames -underBinder d4
  clear_value d4
  extract_lets +onlyGivenNames -underBinder d6
  clear_value d6
  extract_lets +onlyGivenNames -underBinder d8
  clear_value d8
  extract_lets +onlyGivenNames -underBinder d10
  clear_value d10
  extract_lets +onlyGivenNames -underBinder d12
  clear_value d12
  extract_lets +onlyGivenNames -underBinder d14i0 d14
  have h15 : d14.Sound := by
    dsimp -zeta only [d14]
    assumption
  clear_value d14
  exact sound_postIf (by assumption)

theorem sound_cyclesUpdate {d : Dev} (hS : d.Sound) : (cyclesUpdate d).Sound := by
  unfold cyclesUpdate
  extract_lets +onlyGivenNames -underBinder d0
  clear_value d0
  assumption

theorem sound_wearUpdate {d : Dev} (hS : d.Sound) : (wearUpdate d).Sound := by
  unfold wearUpdate
  extract_lets +onlyGivenNames -underBinder d0
  clear_value d0
  extract_lets +onlyGivenNames -underBinder d2
  clear_value d2
  extract_lets +onlyGivenNames -underBinder d4
  clear_value d4
  extract_lets +onlyGivenNames -underBinder d6i0 d6
  have h7 : d6.Sound := by
    dsimp -zeta only [d6]
    exact sound_postIf (by assumption)
  clear_value d6
  split
  · split
    · exact sound_sbMod (by assumption)
    · assumption
  · assumption

theorem sound_govUpdate {d : Dev} (hS : d.Sound) : (govUpdate d).Sound := by
  unfold govUpdate
  extract_lets +onlyGivenNames -underBinder d0
  clear_value d0
  extract_lets +onlyGivenNames -underBinder d2
  clear_value d2
  extract_lets +onlyGivenNames -underBinder d4
  clear_value d4
  extract_lets +onlyGivenNames -underBinder d6
  clear_value d6
  extract_lets +onlyGivenNames -underBinder d8
  clear_value d8
  extract_lets +onlyGivenNames -underBinder d10i0 d10
  have h11 : d10.Sound := by
    dsimp -zeta only [d10]
    assumption
  clear_value d10
  exact sound_postIf (by assumption)

theorem sound_victimUpdate {d : Dev} (hS : d.Sound) : (victimUpdate d).Sound := by
  unfold victimUpdate
  apply sound_victimTake
  refine sound_foldl _ ?_ fun d0 a1 h2 => ?_
  · assumption
  · exact sound_intentLog (by assumption)

theorem sound_evacUpdate {d : Dev} (hS : d.Sound) : (evacUpdate d).Sound := by
  unfold evacUpdate
  extract_lets +onlyGivenNames -underBinder d0i0 d0
  have h1 : d0.Sound := by
    dsimp -zeta only [d0]
    assumption
  clear_value d0
  refine sound_foldl _ ?_ fun d2 a3 h4 => ?_
  · assumption
  · split
    · assumption
    · exact sound_post (by assumption)

theorem sound_patrolLapEnd {d : Dev} (hS : d.Sound) : (patrolLapEnd d).Sound := by
  unfold patrolLapEnd
  extract_lets +onlyGivenNames -underBinder d0
  clear_value d0
  extract_lets +onlyGivenNames -underBinder d2
  clear_value d2
  exact sound_post (sound_fwPut (by assumption))

theorem sound_patrolLapStart {d : Dev} (hS : d.Sound) : (patrolLapStart d).Sound := by
  unfold patrolLapStart
  split <;> assumption

theorem sound_lapStart {transit : Bool} {d : Dev} (hS : d.Sound) : (lapStart transit d).Sound := by
  unfold lapStart
  split <;> assumption

theorem sound_periodSettings {d : Dev} (hS : d.Sound) : (periodSettings d).Sound := by
  unfold periodSettings
  assumption

theorem sound_periodStart {d : Dev} (hS : d.Sound) : (periodStart d).Sound := by
  unfold periodStart
  split
  · assumption
  · extract_lets +onlyGivenNames -underBinder d0
    have h1 : d0.Sound := by
      dsimp -zeta only [d0]
      exact sound_endPeriod (by assumption)
    clear_value d0
    extract_lets +onlyGivenNames -underBinder d2
    have h3 : d2.Sound := by
      dsimp -zeta only [d2]
      exact sound_periodSettings (by assumption)
    clear_value d2
    extract_lets +onlyGivenNames -underBinder d4
    have h5 : d4.Sound := by
      dsimp -zeta only [d4]
      exact sound_patrolLapStart (sound_rescueSweep (by assumption))
    clear_value d4
    extract_lets +onlyGivenNames -underBinder d6i0 d6i1 d6
    have h7 : d6.Sound := by
      dsimp -zeta only [d6]
      assumption
    clear_value d6
    extract_lets +onlyGivenNames -underBinder d8
    have h9 : d8.Sound := by
      dsimp -zeta only [d8]
      exact sound_govUpdate (sound_wearUpdate (sound_cyclesUpdate (sound_freeUpdate (by assumption))))
    clear_value d8
    extract_lets +onlyGivenNames -underBinder d10
    have h11 : d10.Sound := by
      dsimp -zeta only [d10]
      exact sound_lapStart (sound_evacUpdate (sound_victimUpdate (by assumption)))
    clear_value d10
    extract_lets +onlyGivenNames -underBinder d12
    have h13 : d12.Sound := by
      dsimp -zeta only [d12]
      split
      · exact sound_patrolLapEnd (by assumption)
      · assumption
    clear_value d12
    exact sound_resetKick (sound_waveKick (sound_admitEval (sound_planPeriod (by assumption))))

theorem sound_refreshQueue {nsb : ℕ} {step : ℕ} {c2 : Bool} {d : Dev} (hS : d.Sound) : (refreshQueue nsb step c2 d).Sound := by
  unfold refreshQueue
  extract_lets +onlyGivenNames -underBinder d0
  clear_value d0
  extract_lets +onlyGivenNames -underBinder d2
  clear_value d2
  split
  · assumption
  · exact sound_post (sound_sbMod (by assumption))

theorem sound_stepRaise {nsb : ℕ} {pos : ℕ} {step : ℕ} {d : Dev} (hS : d.Sound) : (stepRaise nsb pos step d).Sound := by
  unfold stepRaise
  extract_lets +onlyGivenNames -underBinder d0
  clear_value d0
  extract_lets +onlyGivenNames -underBinder d2
  clear_value d2
  extract_lets +onlyGivenNames -underBinder d4i0 d4
  have h5 : d4.Sound := by
    dsimp -zeta only [d4]
    assumption
  clear_value d4
  split
  · exact sound_refreshQueue (by assumption)
  · split
    · exact sound_refreshQueue (by assumption)
    · assumption

theorem sound_measured {nsb : ℕ} {pos : ℕ} {d : Dev} (hS : d.Sound) : (measured nsb pos d).Sound := by
  unfold measured
  extract_lets +onlyGivenNames -underBinder d0
  clear_value d0
  extract_lets +onlyGivenNames -underBinder d2
  clear_value d2
  exact sound_mediaGrant (by assumption)

theorem sound_patrolFound {nsb : ℕ} {k : ℕ} {slot : ℕ} {f : Finding} {d : Dev} (hS : d.Sound) : (patrolFound nsb k slot f d).Sound := by
  unfold patrolFound
  extract_lets +onlyGivenNames -underBinder d0
  clear_value d0
  extract_lets +onlyGivenNames -underBinder d2
  clear_value d2
  extract_lets +onlyGivenNames -underBinder d4
  clear_value d4
  extract_lets +onlyGivenNames -underBinder d6
  have h7 : ∀ d6a0 ed6, ed6.Sound → (d6 d6a0 ed6).Sound := by
    intro d6a0 ed6 hed6
    dsimp -zeta only [d6]
    assumption
  clear_value d6
  extract_lets +onlyGivenNames -underBinder d8
  have h9 : ∀ d8a0 ed8, ed8.Sound → (d8 d8a0 ed8).Sound := by
    intro d8a0 ed8 hed8
    dsimp -zeta only [d8]
    split
    · exact sound_rescueAdd (by assumption)
    · assumption
  clear_value d8
  split
  · assumption
  · extract_lets +onlyGivenNames -underBinder d10
    clear_value d10
    extract_lets +onlyGivenNames -underBinder d12
    clear_value d12
    extract_lets +onlyGivenNames -underBinder d14i0 d14
    have h15 : d14.Sound := by
      dsimp -zeta only [d14]
      apply sound_stepRaise
      solve_by_elim
    clear_value d14
    exact sound_post (sound_readLast (by assumption))
  · split
    extract_lets +onlyGivenNames -underBinder d16
    clear_value d16
    apply sound_post
    apply sound_readLast
    apply_assumption
    refine sound_of_eq (by assumption) ?_
    apply sound_draw
    solve_by_elim
  · split
    extract_lets +onlyGivenNames -underBinder d18
    clear_value d18
    split
    · apply sound_poisonLine
      rename_i r20 r21 r22
      refine sound_upd (d := r20) rfl rfl rfl rfl rfl rfl rfl id rfl rfl id id id id ?_
      refine sound_of_eq (by assumption) ?_
      apply sound_draw
      solve_by_elim
    · apply sound_post
      apply sound_readLast
      apply_assumption
      refine sound_of_eq (by assumption) ?_
      apply sound_draw
      solve_by_elim
  · apply sound_post
    solve_by_elim

theorem sound_patrolRow {slot : ℕ} {f : Finding} {d : Dev} (hS : d.Sound) : (patrolRow slot f d).Sound := by
  unfold patrolRow
  extract_lets +onlyGivenNames -underBinder d0
  clear_value d0
  extract_lets +onlyGivenNames -underBinder d2
  clear_value d2
  split
  · assumption
  · extract_lets +onlyGivenNames -underBinder d4i0 d4
    have h5 : d4.Sound := by
      dsimp -zeta only [d4]
      assumption
    clear_value d4
    extract_lets +onlyGivenNames -underBinder d6i0 d6i1 d6
    have h7 : d6.Sound := by
      dsimp -zeta only [d6]
      split
      · assumption
      · exact sound_patrolFound (sound_mediaGrant (by assumption))
    clear_value d6
    split
    · exact sound_patrolLapEnd (by assumption)
    · assumption

theorem sound_patrolEnable {en : Bool} {d : Dev} (hS : d.Sound) : (patrolEnable en d).Sound := by
  unfold patrolEnable
  assumption

theorem sound_scrubPoison {addr : ℕ} {mask : BitVec 64} {d : Dev} (hS : d.Sound) : (scrubPoison addr mask d).Sound := by
  unfold scrubPoison
  extract_lets +onlyGivenNames -underBinder d0
  clear_value d0
  extract_lets +onlyGivenNames -underBinder d2
  clear_value d2
  split
  · split
    · assumption
    · extract_lets +onlyGivenNames -underBinder d4i0 d4
      have h5 : d4.Sound := by
        dsimp -zeta only [d4]
        exact sound_post (by assumption)
      clear_value d4
      apply sound_setFlags
      apply sound_sparseFree
      apply sound_pidxAdd
      refine sound_upd (d := d4) rfl rfl rfl rfl rfl rfl rfl ?_ rfl rfl ?_ ?_ ?_ ?_ ?_
      · intro a6
        assumption
      · intro a7
        assumption
      · intro a8
        assumption
      · intro a9
        exact twf_tset _ _ _ (by assumption)
      · intro a10
        assumption
      · assumption
  · assumption

theorem sound_scrubTable {addr : ℕ} {d : Dev} (hS : d.Sound) : (scrubTable addr d).Sound := by
  unfold scrubTable
  extract_lets +onlyGivenNames -underBinder d0
  clear_value d0
  split
  · split
    · exact sound_post (by assumption)
    · assumption
  · exact sound_fatal (by assumption)
  · split
    · exact sound_scrubPoison (by assumption)
    · assumption
  · exact sound_fatal (by assumption)
  · assumption
  · assumption
  · exact sound_fatal (by assumption)
  · assumption

theorem sound_blockReload {i : ℕ} {d : Dev} (hS : d.Sound) : (blockReload i d).Sound := by
  unfold blockReload
  extract_lets +onlyGivenNames -underBinder d0
  clear_value d0
  assumption

theorem sound_scrubLap {region : Region} {addr : ℕ} {d : Dev} (hS : d.Sound) : (scrubLap region addr d).Sound := by
  unfold scrubLap
  extract_lets +onlyGivenNames -underBinder d0
  clear_value d0
  split <;> split <;> assumption

theorem sound_scrubRead {region : Region} {addr : ℕ} {mask : BitVec 64} {found : Scrub} {d : Dev} (hS : d.Sound) : (scrubRead region addr mask found d).Sound := by
  unfold scrubRead
  extract_lets +onlyGivenNames -underBinder d0
  have h1 : ∀ d0a0 d0a1 d0a2 ed0, ed0.Sound → (d0 d0a0 d0a1 d0a2 ed0).Sound := by
    intro d0a0 d0a1 d0a2 ed0 hed0
    dsimp -zeta only [d0]
    exact sound_post (by assumption)
  clear_value d0
  extract_lets +onlyGivenNames -underBinder d2
  have h3 : ∀ d2a0 ed2, ed2.Sound → (d2 d2a0 ed2).Sound := by
    intro d2a0 ed2 hed2
    dsimp -zeta only [d2]
    split
    · split
      · exact sound_scrubPoison (by assumption)
      · assumption
    · split <;> assumption
    · assumption
    · split
      · exact sound_blockReload (by assumption)
      · assumption
    · split
      · exact sound_sbMod (by assumption)
      · assumption
    · split <;> exact sound_sbMod (by assumption)
    · split
      · exact sound_scrubTable (by assumption)
      · assumption
    · assumption
  clear_value d2
  extract_lets +onlyGivenNames -underBinder d4
  have h5 : d4.Sound := by
    dsimp -zeta only [d4]
    exact sound_scrubLap (by assumption)
  clear_value d4
  split
  · assumption
  · assumption
  all_goals solve_by_elim

theorem sound_medDiagGo {d : Dev} (hS : d.Sound) : (medDiagGo d).Sound := by
  unfold medDiagGo
  split <;> assumption

theorem sound_medDiagDone {d : Dev} (hS : d.Sound) : (medDiagDone d).Sound := by
  unfold medDiagDone
  split
  · assumption
  · split
    extract_lets +onlyGivenNames -underBinder d0
    clear_value d0
    split
    extract_lets +onlyGivenNames -underBinder d2i0 d2
    have h3 : d2.Sound := by
      dsimp -zeta only [d2]
      assumption
    clear_value d2
    extract_lets +onlyGivenNames -underBinder d4
    have h5 : d4.Sound := by
      dsimp -zeta only [d4]
      split
      · exact sound_opSuspend (by assumption)
      · assumption
    clear_value d4
    extract_lets +onlyGivenNames -underBinder d6
    have h7 : ∀ d6a0 d6a1 ed6, ed6.Sound → (d6 d6a0 d6a1 ed6).Sound := by
      intro d6a0 d6a1 ed6 hed6
      dsimp -zeta only [d6]
      assumption
    clear_value d6
    split
    · split
      · extract_lets +onlyGivenNames -underBinder d8
        clear_value d8
        extract_lets +onlyGivenNames -underBinder d10
        clear_value d10
        apply_assumption
        exact sound_post (by assumption)
      · solve_by_elim
    · split
      apply_assumption
      exact sound_of_eq (by assumption) (sound_draw (by assumption))
    · solve_by_elim

end Sys2Proof.Machine
end

