-- ==== Sys2Proof/Laws/SoundMbx.lean ====
section
/-! SUPPORT. Laws/SoundMbx.lean: the operations of Mbx.lean keep the node's stores in order. -/

namespace Sys2Proof.Machine

set_option linter.unusedVariables false

theorem sound_progSet {r : Running} {ms : ℕ} {d : Dev} (hS : d.Sound) : (progSet r ms d).Sound := by
  unfold progSet
  assumption

theorem sound_cmdRun {tr : Transport} {opcode : ℕ} {j : Job} {unit : ℕ} {total : ℕ} {d : Dev} (hS : d.Sound) : (cmdRun tr opcode j unit total d).Sound := by
  unfold cmdRun
  extract_lets +onlyGivenNames -underBinder d0
  clear_value d0
  exact sound_progSet (by assumption)

theorem sound_command {opcode : ℕ} {g : Modes} {ringOnly : Bool} {lenOk : ℕ → Bool} {fieldsOk : List Byte → Bool} {body : List Byte → Dev → Res × Dev} {tr : Transport} {p : List Byte} {d : Dev} (hS : d.Sound) (hbody : ∀ a0 e, e.Sound → (body a0 e).2.Sound) : (command opcode g ringOnly lenOk fieldsOk body tr p d).Sound := by
  unfold command
  split
  · assumption
  · split
    · split
      · assumption
      · extract_lets +onlyGivenNames -underBinder d0i0 d0
        have h1 : d0.Sound := by
          dsimp -zeta only [d0]
          assumption
        clear_value d0
        split
        · exact sound_emit (by assumption)
        · exact sound_emit (by assumption)
        · exact sound_completion (by assumption)
    · extract_lets +onlyGivenNames -underBinder d2
      have h3 : ∀ d2a0 ed2, ed2.Sound → (d2 d2a0 ed2).Sound := by
        intro d2a0 ed2 hed2
        dsimp -zeta only [d2]
        exact sound_cmdEnd (by assumption)
      clear_value d2
      split
      · solve_by_elim
      · split
        · solve_by_elim
        · split
          · solve_by_elim
          · split
            · solve_by_elim
            · split
              · apply sound_cmdEnd
                refine sound_of_eq (by assumption) ?_
                solve_by_elim
              · apply sound_cmdRun
                refine sound_of_eq (by assumption) ?_
                solve_by_elim

theorem sound_ans {rc : ℕ} {out : List Byte} {d : Dev} (hS : d.Sound) : (ans rc out d).2.Sound := by
  unfold ans
  exact sound_mk (by assumption)

theorem sound_ret {rc : ℕ} {d : Dev} (hS : d.Sound) : (ret rc d).2.Sound := by
  unfold ret
  exact sound_mk (by assumption)

end Sys2Proof.Machine
end

