-- ==== Sys2Proof/Laws/SoundSecurity.lean ====
section
/-! SUPPORT. Laws/SoundSecurity.lean: the operations of Security.lean keep the node's stores in order. -/

namespace Sys2Proof.Machine

set_option linter.unusedVariables false

theorem sound_zeroize {k : ℕ} {d : Dev} (hS : d.Sound) : (zeroize k d).Sound := by
  unfold zeroize
  exact sound_fwPut (by assumption)

theorem sound_secRefused {part : ℕ} {d : Dev} (hS : d.Sound) : SoundO2 (secRefused part d) := by
  unfold secRefused
  split
  · exact soundO2_some (sound_mk (by assumption))
  · split
    · apply soundO2_none
    · split
      exact soundO2_some (sound_mk (sound_supplyLow (sound_of_eq (by assumption) (sound_draw (by assumption)))))

theorem sound_rangeStore {n : ℕ} {d : Dev} (hS : d.Sound) : (rangeStore n d).Sound := by
  unfold rangeStore
  exact sound_fwPut (by assumption)

theorem sound_rekeyStart {n : ℕ} {k : ℕ} {r : Range} {d : Dev} (hS : d.Sound) : (rekeyStart n k r d).2.Sound := by
  unfold rekeyStart
  split
  extract_lets +onlyGivenNames -underBinder d0
  have h1 : d0.Sound := by
    dsimp -zeta only [d0]
    exact sound_fwWrite (sound_of_eq (by assumption) (sound_freshKeyid (by assumption)))
  clear_value d0
  extract_lets +onlyGivenNames -underBinder d2
  clear_value d2
  extract_lets +onlyGivenNames -underBinder d4
  have h5 : d4.Sound := by
    dsimp -zeta only [d4]
    exact sound_fwWrite (by assumption)
  clear_value d4
  extract_lets +onlyGivenNames -underBinder d6
  clear_value d6
  extract_lets +onlyGivenNames -underBinder d8
  clear_value d8
  exact sound_mk (sound_post (by assumption))

theorem sound_openRange {p : List Byte} {d : Dev} (hS : d.Sound) : (openRange p d).2.Sound := by
  unfold openRange
  extract_lets +onlyGivenNames -underBinder d0
  clear_value d0
  extract_lets +onlyGivenNames -underBinder d2
  clear_value d2
  extract_lets +onlyGivenNames -underBinder d4
  clear_value d4
  split
  · exact sound_ret (by assumption)
  · split
    · exact sound_ret (by assumption)
    · split
      · exact sound_ret (by assumption)
      · split
        · exact sound_ret (sound_of_some2 (by assumption) (sound_secRefused (by assumption)))
        · extract_lets +onlyGivenNames -underBinder d6
          clear_value d6
          split
          exact sound_ans (sound_of_eq (by assumption) (sound_rekeyStart (sound_post (by assumption))))

theorem sound_rekeyRange {p : List Byte} {d : Dev} (hS : d.Sound) : (rekeyRange p d).2.Sound := by
  unfold rekeyRange
  extract_lets +onlyGivenNames -underBinder d0
  clear_value d0
  extract_lets +onlyGivenNames -underBinder d2
  clear_value d2
  split
  · exact sound_ret (by assumption)
  · split
    · exact sound_ret (by assumption)
    · split
      · exact sound_ret (by assumption)
      · split
        · exact sound_ret (sound_of_some2 (by assumption) (sound_secRefused (by assumption)))
        · split
          exact sound_ans (sound_of_eq (by assumption) (sound_rekeyStart (by assumption)))

theorem sound_closeKeep {n : ℕ} {d : Dev} (hS : d.Sound) : (closeKeep n d).2.Sound := by
  unfold closeKeep
  extract_lets +onlyGivenNames -underBinder d0
  clear_value d0
  split
  · exact sound_ret (by assumption)
  · split
    · exact sound_ret (by assumption)
    · split
      · exact sound_ret (by assumption)
      · split
        · exact sound_ret (sound_of_some2 (by assumption) (sound_secRefused (by assumption)))
        · extract_lets +onlyGivenNames -underBinder d2
          clear_value d2
          extract_lets +onlyGivenNames -underBinder d4i0 d4
          have h5 : d4.Sound := by
            dsimp -zeta only [d4]
            exact sound_fwWrite (by assumption)
          clear_value d4
          exact sound_ret (sound_post (by assumption))

theorem sound_closeErase {n : ℕ} {d : Dev} (hS : d.Sound) : (closeErase n d).2.Sound := by
  unfold closeErase
  extract_lets +onlyGivenNames -underBinder d0
  clear_value d0
  split
  · exact sound_ret (by assumption)
  · split
    · exact sound_ret (by assumption)
    · split
      · exact sound_ret (sound_of_some2 (by assumption) (sound_secRefused (by assumption)))
      · extract_lets +onlyGivenNames -underBinder d2
        clear_value d2
        extract_lets +onlyGivenNames -underBinder d4i0 d4
        have h5 : d4.Sound := by
          dsimp -zeta only [d4]
          exact sound_fwWrite (by assumption)
        clear_value d4
        exact sound_mk (by assumption)

theorem sound_setRangeAttr {p : List Byte} {d : Dev} (hS : d.Sound) : (setRangeAttr p d).2.Sound := by
  unfold setRangeAttr
  extract_lets +onlyGivenNames -underBinder d0
  clear_value d0
  extract_lets +onlyGivenNames -underBinder d2
  clear_value d2
  extract_lets +onlyGivenNames -underBinder d4
  clear_value d4
  split
  · exact sound_ret (by assumption)
  · split
    · exact sound_ret (by assumption)
    · split
      · exact sound_ret (sound_of_some2 (by assumption) (sound_secRefused (by assumption)))
      · extract_lets +onlyGivenNames -underBinder d6
        clear_value d6
        exact sound_ret (sound_fwWrite (by assumption))

theorem sound_releaseSpan {shed : Bool} {lo : ℕ} {hi : ℕ} {d : Dev} (hS : d.Sound) : (releaseSpan shed lo hi d).Sound := by
  unfold releaseSpan
  apply sound_admitEval
  refine sound_foldl _ ?_ fun d0 a1 h2 => ?_
  · assumption
  · exact sound_releaseFrond (by assumption)

theorem sound_eraseEnd {n : ℕ} {released : ℕ} {d : Dev} (hS : d.Sound) : (eraseEnd n released d).Sound := by
  unfold eraseEnd
  extract_lets +onlyGivenNames -underBinder d0
  clear_value d0
  extract_lets +onlyGivenNames -underBinder d2
  clear_value d2
  extract_lets +onlyGivenNames -underBinder d4i0 d4
  have h5 : d4.Sound := by
    dsimp -zeta only [d4]
    refine sound_foldl _ ?_ fun d6 a7 h8 => ?_
    · assumption
    · exact sound_zeroize (by assumption)
  clear_value d4
  exact sound_post (sound_rangeStore (by assumption))

theorem sound_rekeyHeader {n : ℕ} {d : Dev} (hS : d.Sound) : (rekeyHeader n d).Sound := by
  unfold rekeyHeader
  extract_lets +onlyGivenNames -underBinder d0
  clear_value d0
  split
  · assumption
  · split
    split
    extract_lets +onlyGivenNames -underBinder d2
    have h3 : d2.Sound := by
      dsimp -zeta only [d2]
      split
      · exact sound_mediaGrant (by assumption)
      · assumption
    clear_value d2
    assumption

theorem sound_rekeyDone {n : ℕ} {d : Dev} (hS : d.Sound) : (rekeyDone n d).Sound := by
  unfold rekeyDone
  extract_lets +onlyGivenNames -underBinder d0
  clear_value d0
  split
  · assumption
  · extract_lets +onlyGivenNames -underBinder d2
    clear_value d2
    extract_lets +onlyGivenNames -underBinder d4
    clear_value d4
    extract_lets +onlyGivenNames -underBinder d6
    have h7 : d6.Sound := by
      dsimp -zeta only [d6]
      split
      · assumption
      · exact sound_zeroize (by assumption)
    clear_value d6
    extract_lets +onlyGivenNames -underBinder d8i0 d8
    have h9 : d8.Sound := by
      dsimp -zeta only [d8]
      exact sound_rangeStore (by assumption)
    clear_value d8
    extract_lets +onlyGivenNames -underBinder d10
    have h11 : d10.Sound := by
      dsimp -zeta only [d10]
      exact sound_post (by assumption)
    clear_value d10
    exact sound_postIf (by assumption)

theorem sound_injectPoison {p : List Byte} {d : Dev} (hS : d.Sound) : (injectPoison p d).2.Sound := by
  unfold injectPoison
  extract_lets +onlyGivenNames -underBinder d0
  clear_value d0
  extract_lets +onlyGivenNames -underBinder d2
  clear_value d2
  extract_lets +onlyGivenNames -underBinder d4
  clear_value d4
  split
  · exact sound_ret (by assumption)
  · split
    · exact sound_ret (by assumption)
    · split
      · exact sound_ret (by assumption)
      · split
        extract_lets +onlyGivenNames -underBinder d6
        clear_value d6
        extract_lets +onlyGivenNames -underBinder d8i0 d8i1 d8
        have h9 : d8.Sound := by
          dsimp -zeta only [d8]
          apply sound_setFlags
          refine sound_upd (d := d8i0) rfl rfl rfl rfl rfl rfl rfl ?_ rfl rfl ?_ ?_ ?_ ?_ ?_
          · intro a10
            assumption
          · intro a11
            assumption
          · intro a12
            assumption
          · intro a13
            exact twf_tset _ _ _ (by assumption)
          · intro a14
            assumption
          · dsimp -zeta only [d8i0]
            exact sound_sparseFree (sound_of_eq (by assumption) (sound_slotGet (by assumption)))
        clear_value d8
        extract_lets +onlyGivenNames -underBinder d15
        have h16 : d15.Sound := by
          dsimp -zeta only [d15]
          exact sound_setPoison (sound_pidxAdd (by assumption))
        clear_value d15
        exact sound_ret (sound_post (sound_admitEval (by assumption)))

theorem sound_clearPoison {p : List Byte} {d : Dev} (hS : d.Sound) : (clearPoison p d).2.Sound := by
  unfold clearPoison
  extract_lets +onlyGivenNames -underBinder d0
  clear_value d0
  extract_lets +onlyGivenNames -underBinder d2
  clear_value d2
  extract_lets +onlyGivenNames -underBinder d4
  clear_value d4
  split
  · exact sound_ret (by assumption)
  · split
    · exact sound_ret (by assumption)
    · extract_lets +onlyGivenNames -underBinder d6
      have h7 : d6.Sound := by
        dsimp -zeta only [d6]
        exact sound_writeLine (by assumption)
      clear_value d6
      extract_lets +onlyGivenNames -underBinder d8
      have h9 : d8.Sound := by
        dsimp -zeta only [d8]
        split
        · exact sound_mediaGrant (by assumption)
        · assumption
      clear_value d8
      extract_lets +onlyGivenNames -underBinder d10
      clear_value d10
      extract_lets +onlyGivenNames -underBinder d12i0 d12
      have h13 : d12.Sound := by
        dsimp -zeta only [d12]
        assumption
      clear_value d12
      extract_lets +onlyGivenNames -underBinder d14
      clear_value d14
      extract_lets +onlyGivenNames -underBinder d16
      clear_value d16
      extract_lets +onlyGivenNames -underBinder d18i0 d18
      have h19 : d18.Sound := by
        dsimp -zeta only [d18]
        split
        · exact sound_clearPoisonBit (by assumption)
        · assumption
      clear_value d18
      exact sound_ret (sound_post (sound_admitEval (by assumption)))

theorem sound_freshMap {d : Dev} (hS : d.Sound) : (freshMap d).Sound := by
  unfold freshMap
  split
  extract_lets +onlyGivenNames -underBinder d0
  clear_value d0
  extract_lets +onlyGivenNames -underBinder d2
  clear_value d2
  apply sound_anchorPut
  refine sound_upd (d := d) rfl rfl rfl rfl rfl rfl rfl ?_ rfl rfl ?_ ?_ ?_ ?_ ?_
  · intro a4
    assumption
  · intro a5
    rfl
  · intro a6
    assumption
  · intro a7
    assumption
  · intro a8
    assumption
  · assumption

theorem sound_blogBlock {d : Dev} (hS : d.Sound) : (blogBlock d).2.Sound := by
  unfold blogBlock
  split
  · refine sound_mk ?_
    split
    · exact sound_sbOpen (by assumption)
    · assumption
  · split
    · exact sound_mk (sound_sbOpen (sound_openLog (by assumption)))
    · exact sound_mk (by assumption)

theorem sound_blogPage {d : Dev} (hS : d.Sound) : (blogPage d).Sound := by
  unfold blogPage
  split
  · assumption
  · split
    · exact sound_of_eq (by assumption) (sound_blogBlock (by assumption))
    · extract_lets +onlyGivenNames -underBinder d0
      clear_value d0
      extract_lets +onlyGivenNames -underBinder d2
      clear_value d2
      extract_lets +onlyGivenNames -underBinder d4i0 d4
      have h5 : d4.Sound := by
        dsimp -zeta only [d4]
        apply sound_pageNow
        rename_i r6 r7
        refine sound_upd (d := r6) rfl rfl rfl rfl rfl rfl rfl id rfl rfl id id id id ?_
        exact sound_of_eq (by assumption) (sound_blogBlock (by assumption))
      clear_value d4
      split
      · exact sound_sbFull (by assumption)
      · assumption

theorem sound_blogFlush {d : Dev} (hS : d.Sound) : (blogFlush d).Sound := by
  unfold blogFlush
  refine sound_iter _ ?_ fun d0 h1 => ?_
  · assumption
  · exact sound_blogPage (by assumption)

theorem sound_resetRun {key : ℕ} {d : Dev} (hS : d.Sound) : (resetRun key d).Sound := by
  unfold resetRun
  extract_lets +onlyGivenNames -underBinder d0
  clear_value d0
  split
  · assumption
  · extract_lets +onlyGivenNames -underBinder d2
    have h3 : d2.Sound := by
      dsimp -zeta only [d2]
      refine sound_foldl _ ?_ fun d4 a5 h6 => ?_
      · assumption
      · extract_lets +onlyGivenNames -underBinder d7
        clear_value d7
        extract_lets +onlyGivenNames -underBinder d9
        clear_value d9
        exact sound_blogAdd (by assumption)
    clear_value d2
    apply sound_resetEnd
    apply sound_sbMod
    apply sound_mediaGrant
    refine sound_upd (d := d2) rfl rfl rfl rfl rfl rfl rfl ?_ rfl rfl ?_ ?_ ?_ ?_ ?_
    · intro a11
      assumption
    · intro a12
      assumption
    · intro a13
      exact twf_filter _ _ (by assumption)
    · intro a14
      assumption
    · intro a15
      assumption
    · assumption

theorem sound_resetNow {keys : List ℕ} {d : Dev} (hS : d.Sound) : (resetNow keys d).Sound := by
  unfold resetNow
  refine sound_foldl _ ?_ fun d0 a1 h2 => ?_
  · apply sound_blogFlush
    refine sound_foldl _ ?_ fun d3 a4 h5 => ?_
    · assumption
    · exact sound_intentPut (by assumption)
  · exact sound_resetRun (by assumption)

theorem sound_sanitizeRun {full : Bool} {d : Dev} (hS : d.Sound) : (sanitizeRun full d).Sound := by
  unfold sanitizeRun
  extract_lets +onlyGivenNames -underBinder d0
  clear_value d0
  extract_lets +onlyGivenNames -underBinder d2
  have h3 : d2.Sound := by
    dsimp -zeta only [d2]
    refine sound_foldl _ ?_ fun d4 a5 h6 => ?_
    · assumption
    · exact sound_fwWrite (by assumption)
  clear_value d2
  extract_lets +onlyGivenNames -underBinder d7
  clear_value d7
  extract_lets +onlyGivenNames -underBinder d9i0 d9
  have h10 : d9.Sound := by
    dsimp -zeta only [d9]
    refine sound_foldl _ ?_ fun d11 a12 h13 => ?_
    · assumption
    · exact sound_fwWrite (by assumption)
  clear_value d9
  extract_lets +onlyGivenNames -underBinder d14
  clear_value d14
  extract_lets +onlyGivenNames -underBinder d16i0 d16
  have h17 : d16.Sound := by
    dsimp -zeta only [d16]
    refine sound_foldl _ ?_ fun d18 a19 h20 => ?_
    · assumption
    · exact sound_fwWrite (by assumption)
  clear_value d16
  split
  extract_lets +onlyGivenNames -underBinder d21i0 d21
  have h22 : d21.Sound := by
    dsimp -zeta only [d21]
    apply sound_fwWrite
    rename_i r23 r24
    refine sound_upd (d := r23) rfl rfl rfl rfl rfl rfl rfl id rfl rfl id id id id ?_
    exact sound_of_eq (by assumption) (sound_freshKeyid (by assumption))
  clear_value d21
  split
  extract_lets +onlyGivenNames -underBinder d25i0 d25
  have h26 : d25.Sound := by
    dsimp -zeta only [d25]
    apply sound_fwWrite
    rename_i r27 r28
    refine sound_upd (d := r27) rfl rfl rfl rfl rfl rfl rfl id rfl rfl id id id id ?_
    exact sound_of_eq (by assumption) (sound_freshKeyid (by assumption))
  clear_value d25
  extract_lets +onlyGivenNames -underBinder d29i0 d29i1 d29i2 d29i3 d29i4 d29i5 d29
  have h30 : d29.Sound := by
    dsimp -zeta only [d29]
    refine sound_upd (d := d25) rfl rfl rfl rfl rfl rfl rfl ?_ rfl rfl ?_ ?_ ?_ ?_ ?_
    · intro a31
      rfl
    · intro a32
      assumption
    · intro a33
      assumption
    · intro a34
      rfl
    · intro a35
      assumption
    · assumption
  clear_value d29
  extract_lets +onlyGivenNames -underBinder d36
  have h37 : d36.Sound := by
    dsimp -zeta only [d36]
    exact sound_fwNow (sound_fwWrite (sound_freshMap (by assumption)))
  clear_value d36
  extract_lets +onlyGivenNames -underBinder d38i0 d38i1 d38i2 d38i3 d38i4 d38
  have h39 : d38.Sound := by
    dsimp -zeta only [d38]
    split
    · apply sound_resetNow
      dsimp -zeta only [d38i4]
      refine sound_upd (d := d38i1) rfl rfl rfl rfl rfl rfl rfl id rfl rfl id id id id ?_
      dsimp -zeta only [d38i1]
      refine sound_foldl _ ?_ fun d40 a41 h42 => ?_
      · assumption
      · split
        · exact sound_setVerified (by assumption)
        · assumption
    · assumption
  clear_value d38
  exact sound_admitEval (by assumption)

theorem sound_sanitizeStart {full : Bool} {unit : ℕ} {total : ℕ} {d : Dev} (hS : d.Sound) : (sanitizeStart full unit total d).2.Sound := by
  unfold sanitizeStart
  split
  · exact sound_ret (sound_of_some2 (by assumption) (sound_secRefused (by assumption)))
  · exact sound_mk (by assumption)

end Sys2Proof.Machine
end

