-- ==== Sys2Proof/Laws/SoundHostPort.lean ====
section
/-! SUPPORT. Laws/SoundHostPort.lean: the operations of HostPort.lean keep the node's stores in order. -/

namespace Sys2Proof.Machine

set_option linter.unusedVariables false

theorem sound_decMod {n : ℕ} {f : Dec → Dec} {d : Dev} (hS : d.Sound) : (decMod n f d).Sound := by
  unfold decMod
  assumption

theorem sound_decRefuse {n : ℕ} {reason : ℕ} {peer : ℕ} {peerDec : ℕ} {d : Dev} (hS : d.Sound) : (decRefuse n reason peer peerDec d).Sound := by
  unfold decRefuse
  exact sound_post (sound_decMod (by assumption))

theorem sound_decCommitted {n : ℕ} {d : Dev} (hS : d.Sound) : (decCommitted n d).Sound := by
  unfold decCommitted
  extract_lets +onlyGivenNames -underBinder d0
  clear_value d0
  extract_lets +onlyGivenNames -underBinder d2
  have h3 : d2.Sound := by
    dsimp -zeta only [d2]
    exact sound_winPut (sound_cellAll (by assumption))
  clear_value d2
  exact sound_post (sound_decMod (by assumption))

theorem sound_decCommit {n : ℕ} {base : ℕ} {size : ℕ} {skip : ℕ} {bi : Bool} {iw : ℕ} {lock : Bool} {d : Dev} (hS : d.Sound) : (decCommit n base size skip bi iw lock d).Sound := by
  unfold decCommit
  extract_lets +onlyGivenNames -underBinder d0
  clear_value d0
  split
  · assumption
  · extract_lets +onlyGivenNames -underBinder d2
    have h3 : d2.Sound := by
      dsimp -zeta only [d2]
      exact sound_decMod (by assumption)
    clear_value d2
    split
    · exact sound_decRefuse (by assumption)
    · extract_lets +onlyGivenNames -underBinder d4
      clear_value d4
      split
      split
      · exact sound_decRefuse (by assumption)
      · split
        · split
          · exact sound_decCommitted (by assumption)
          · exact sound_decRefuse (by assumption)
        · extract_lets +onlyGivenNames -underBinder d6
          have h7 : d6.Sound := by
            dsimp -zeta only [d6]
            exact sound_decMod (sound_winPut (by assumption))
          clear_value d6
          refine sound_foldl _ ?_ fun d8 a9 h10 => ?_
          · assumption
          · exact sound_cellTo (by assumption)

theorem sound_decFail {n : ℕ} {reason : ℕ} {peer : ℕ} {peerDec : ℕ} {d : Dev} (hS : d.Sound) : (decFail n reason peer peerDec d).Sound := by
  unfold decFail
  exact sound_decRefuse (sound_winRelease (by assumption))

theorem sound_winClaim {c : Cell} {w : Win} {d : Dev} (hS : d.Sound) : (winClaim c w d).Sound := by
  unfold winClaim
  split
  split
  · exact sound_of_eq (by assumption) (sound_acceptCell (by assumption))
  · extract_lets +onlyGivenNames -underBinder d0
    have h1 : ∀ d0a0 d0a1 ed0, ed0.Sound → (d0 d0a0 d0a1 ed0).Sound := by
      intro d0a0 d0a1 ed0 hed0
      dsimp -zeta only [d0]
      exact sound_cellTo (by assumption)
    clear_value d0
    split
    · apply_assumption
      exact sound_of_eq (by assumption) (sound_acceptCell (by assumption))
    · extract_lets +onlyGivenNames -underBinder d2
      clear_value d2
      extract_lets +onlyGivenNames -underBinder d4
      clear_value d4
      split
      · apply_assumption
        exact sound_of_eq (by assumption) (sound_acceptCell (by assumption))
      · extract_lets +onlyGivenNames -underBinder d6
        clear_value d6
        extract_lets +onlyGivenNames -underBinder d8
        have h9 : d8.Sound := by
          dsimp -zeta only [d8]
          refine sound_foldl _ ?_ fun d10 a11 h12 => ?_
          · exact sound_of_eq (by assumption) (sound_acceptCell (by assumption))
          · exact sound_decFail (by assumption)
        clear_value d8
        apply_assumption
        exact sound_winPut (by assumption)

theorem sound_winReplied {c : Cell} {w : Win} {d : Dev} (hS : d.Sound) : (winReplied c w d).Sound := by
  unfold winReplied
  split
  split
  · exact sound_of_eq (by assumption) (sound_acceptCell (by assumption))
  · extract_lets +onlyGivenNames -underBinder d0
    clear_value d0
    extract_lets +onlyGivenNames -underBinder d2
    clear_value d2
    split
    · exact sound_of_eq (by assumption) (sound_acceptCell (by assumption))
    · extract_lets +onlyGivenNames -underBinder d4
      clear_value d4
      extract_lets +onlyGivenNames -underBinder d6
      have h7 : d6.Sound := by
        dsimp -zeta only [d6]
        exact sound_decMod (sound_of_eq (by assumption) (sound_acceptCell (by assumption)))
      clear_value d6
      extract_lets +onlyGivenNames -underBinder d8
      clear_value d8
      split
      · assumption
      · split
        · exact sound_decCommitted (by assumption)
        · exact sound_decFail (by assumption)

theorem sound_decRelease {n : ℕ} {d : Dev} (hS : d.Sound) : (decRelease n d).Sound := by
  unfold decRelease
  extract_lets +onlyGivenNames -underBinder d0
  clear_value d0
  extract_lets +onlyGivenNames -underBinder d2
  clear_value d2
  exact sound_post (sound_decMod (sound_winRelease (by assumption)))

theorem sound_decDecommit {n : ℕ} {d : Dev} (hS : d.Sound) : (decDecommit n d).Sound := by
  unfold decDecommit
  extract_lets +onlyGivenNames -underBinder d0
  clear_value d0
  split
  · split
    · assumption
    · extract_lets +onlyGivenNames -underBinder d2
      clear_value d2
      extract_lets +onlyGivenNames -underBinder d4
      have h5 : d4.Sound := by
        dsimp -zeta only [d4]
        exact sound_decMod (by assumption)
      clear_value d4
      split
      · exact sound_decRelease (by assumption)
      · assumption
  · exact sound_decMod (sound_winRelease (by assumption))
  · exact sound_decMod (by assumption)

theorem sound_snpAsk {src : ℕ} {tag : ℕ} {rf : ℕ} {d : Dev} (hS : d.Sound) : (snpAsk src tag rf d).Sound := by
  unfold snpAsk
  extract_lets +onlyGivenNames -underBinder d0
  clear_value d0
  extract_lets +onlyGivenNames -underBinder d2
  clear_value d2
  exact sound_snpAnswer (by assumption)

theorem sound_bisnpSend {d : Dev} (hS : d.Sound) : (bisnpSend d).Sound := by
  unfold bisnpSend
  split
  · assumption
  · split
    · assumption
    · split
      · assumption
      · extract_lets +onlyGivenNames -underBinder d0
        clear_value d0
        exact sound_emit (by assumption)

theorem sound_writeBack {line : ℕ} {data : Line} {d : Dev} (hS : d.Sound) : (writeBack line data d).Sound := by
  unfold writeBack
  extract_lets +onlyGivenNames -underBinder d0
  clear_value d0
  extract_lets +onlyGivenNames -underBinder d2
  clear_value d2
  split
  · exact sound_admitEval (sound_writeLine (by assumption))
  · exact sound_remoteStart (by assumption)

theorem sound_birsp {line : ℕ} {wb : Option Line} {d : Dev} (hS : d.Sound) : (birsp line wb d).Sound := by
  unfold birsp
  split
  · assumption
  · extract_lets +onlyGivenNames -underBinder d0i0 d0
    have h1 : d0.Sound := by
      dsimp -zeta only [d0]
      assumption
    clear_value d0
    extract_lets +onlyGivenNames -underBinder d2
    have h3 : d2.Sound := by
      dsimp -zeta only [d2]
      split
      · exact sound_writeBack (by assumption)
      · assumption
    clear_value d2
    extract_lets +onlyGivenNames -underBinder d4
    have h5 : d4.Sound := by
      dsimp -zeta only [d4]
      split
      · exact sound_sfThresholds (by assumption)
      · split
        · exact sound_sfPut (by assumption)
        · assumption
      · extract_lets +onlyGivenNames -underBinder d6
        have h7 : d6.Sound := by
          dsimp -zeta only [d6]
          exact sound_sfDrop (by assumption)
        clear_value d6
        split
        · assumption
        · exact sound_decRelease (by assumption)
    clear_value d4
    exact sound_snpAnswer (by assumption)

theorem sound_portReset {cause : ℕ} {d : Dev} (hS : d.Sound) : (portReset cause d).Sound := by
  unfold portReset
  split
  · assumption
  · extract_lets +onlyGivenNames -underBinder d0
    clear_value d0
    extract_lets +onlyGivenNames -underBinder d2
    have h3 : d2.Sound := by
      dsimp -zeta only [d2]
      refine sound_foldl _ ?_ fun d4 a5 h6 => ?_
      · assumption
      · split
        · exact sound_decRelease (sound_decMod (by assumption))
        · exact sound_winRelease (by assumption)
        · assumption
    clear_value d2
    extract_lets +onlyGivenNames -underBinder d7
    clear_value d7
    extract_lets +onlyGivenNames -underBinder d9
    have h10 : d9.Sound := by
      dsimp -zeta only [d9]
      refine sound_foldl _ ?_ fun d11 a12 h13 => ?_
      · assumption
      · extract_lets +onlyGivenNames -underBinder d14
        have h15 : d14.Sound := by
          dsimp -zeta only [d14]
          split
          · exact sound_writeLine (by assumption)
          · assumption
        clear_value d14
        exact sound_reqDrop (by assumption)
    clear_value d9
    extract_lets +onlyGivenNames -underBinder d16
    clear_value d16
    extract_lets +onlyGivenNames -underBinder d18i0 d18i1 d18i2 d18
    have h19 : d18.Sound := by
      dsimp -zeta only [d18]
      exact sound_hostDown (by assumption)
    clear_value d18
    exact sound_admitEval (sound_snpAnswer (by assumption))

end Sys2Proof.Machine
end

