-- ==== Sys2Proof/Laws/SoundCipher.lean ====
section
/-! SUPPORT. Laws/SoundCipher.lean: the operations of Cipher.lean keep the node's stores in order. -/

namespace Sys2Proof.Machine

set_option linter.unusedVariables false

theorem sound_cphLoad {k : ℕ} {attr : ℕ} {how : ℕ} {key : ℕ → List Byte} {d : Dev} (hS : d.Sound) : (cphLoad k attr how key d).2.Sound := by
  unfold cphLoad
  extract_lets +onlyGivenNames -underBinder d0
  have h1 : ∀ ed0, ed0.Sound → (d0 ed0).2.Sound := by
    intro ed0 hed0
    dsimp -zeta only [d0]
    extract_lets +onlyGivenNames -underBinder d2
    clear_value d2
    extract_lets +onlyGivenNames -underBinder d4
    have h5 : d4.Sound := by
      dsimp -zeta only [d4]
      split
      · exact sound_fwWrite (sound_freshKeyid (by assumption))
      · exact sound_freshKeyid (by assumption)
    clear_value d4
    exact sound_ans (sound_post (by assumption))
  clear_value d0
  split
  · split
    · exact sound_ret (by assumption)
    · split
      · solve_by_elim
      · split
        exact sound_ret (sound_supplyLow (sound_of_eq (by assumption) (sound_draw (by assumption))))
  · solve_by_elim

theorem sound_cphGenerate {p : List Byte} {d : Dev} (hS : d.Sound) : (cphGenerate p d).2.Sound := by
  unfold cphGenerate
  extract_lets +onlyGivenNames -underBinder d0
  clear_value d0
  extract_lets +onlyGivenNames -underBinder d2
  clear_value d2
  split
  · exact sound_ret (by assumption)
  · exact sound_cphLoad (by assumption)

theorem sound_cphImport {tr : Transport} {secured : Bool} {p : List Byte} {d : Dev} (hS : d.Sound) : (cphImport tr secured p d).2.Sound := by
  unfold cphImport
  extract_lets +onlyGivenNames -underBinder d0
  clear_value d0
  extract_lets +onlyGivenNames -underBinder d2
  clear_value d2
  extract_lets +onlyGivenNames -underBinder d4
  clear_value d4
  extract_lets +onlyGivenNames -underBinder d6
  clear_value d6
  extract_lets +onlyGivenNames -underBinder d8
  clear_value d8
  extract_lets +onlyGivenNames -underBinder d10
  have h11 : ∀ d10a0 ed10, ed10.Sound → (d10 d10a0 ed10).2.Sound := by
    intro d10a0 ed10 hed10
    dsimp -zeta only [d10]
    exact sound_ret (sound_post (by assumption))
  clear_value d10
  split
  · solve_by_elim
  · split
    · split
      · solve_by_elim
      · split
        · solve_by_elim
        · exact sound_cphLoad (by assumption)
    · split
      · exact sound_cphLoad (by assumption)
      · solve_by_elim

theorem sound_cphWrap {p : List Byte} {d : Dev} (hS : d.Sound) : (cphWrap p d).2.Sound := by
  unfold cphWrap
  extract_lets +onlyGivenNames -underBinder d0
  clear_value d0
  split
  · exact sound_ret (by assumption)
  · split
    · exact sound_ret (by assumption)
    · exact sound_ans (by assumption)

theorem sound_cphCount {o : COrigin} {status : ℕ} {d : Dev} (hS : d.Sound) : (cphCount o status d).Sound := by
  unfold cphCount
  extract_lets +onlyGivenNames -underBinder d0
  clear_value d0
  assumption

theorem sound_cphEnq {r : CReq} {d : Dev} (hS : d.Sound) : (cphEnq r d).Sound := by
  unfold cphEnq
  assumption

theorem sound_cphRequest {tr : Transport} {p : List Byte} {d : Dev} (hS : d.Sound) : (cphRequest tr p d).2.Sound := by
  unfold cphRequest
  extract_lets +onlyGivenNames -underBinder d0
  clear_value d0
  extract_lets +onlyGivenNames -underBinder d2
  split
  · exact sound_ret (by assumption)
  · extract_lets +onlyGivenNames -underBinder d4
    clear_value d4
    split
    · exact sound_ret (sound_cphCount (by assumption))
    · split
      · exact sound_ret (sound_cphCount (by assumption))
      · exact sound_mk (sound_cphEnq (by assumption))

theorem sound_scratchWrite {off : Nat} {b : List Byte} {d : Dev} (hS : d.Sound) : (scratchWrite off b d).Sound := by
  obtain ⟨a1, a2, a3, a4, a5, a6, a7, a8, a9, a10⟩ := hS
  exact ⟨a1, a2, a3, a4, a5, a6, a7, a8, twf_foldl_tset _ _ _ _ a9, a10⟩

theorem sound_cipherStart {core : ℕ} {d : Dev} (hS : d.Sound) : (cipherStart core d).Sound := by
  unfold cipherStart
  split
  · assumption
  · split
    · assumption
    · extract_lets +onlyGivenNames -underBinder d0
      assumption

end Sys2Proof.Machine
end

