-- ==== Sys2Proof/Laws/SoundEngines.lean ====
section
/-! SUPPORT. Laws/SoundEngines.lean: the operations of Engines.lean keep the node's stores in order. -/

namespace Sys2Proof.Machine

set_option linter.unusedVariables false

theorem sound_rqMod1 {n : ℕ} {f : Rq → Rq} {d : Dev} (hS : d.Sound) : (rqMod1 n f d).Sound := by
  unfold rqMod1
  assumption

theorem sound_rqPush {n : ℕ} {p : QPkt} {d : Dev} (hS : d.Sound) : (rqPush n p d).2.Sound := by
  unfold rqPush
  extract_lets +onlyGivenNames -underBinder d0
  clear_value d0
  split <;> exact sound_mk (sound_rqMod1 (by assumption))

theorem sound_rqMsi {n : ℕ} {q : List ℕ} {d : Dev} (hS : d.Sound) : (rqMsi n q d).Sound := by
  unfold rqMsi
  split
  · exact sound_emit (by assumption)
  · assumption

theorem sound_taskMod {entry : ℕ} {f : Task → Task} {d : Dev} (hS : d.Sound) : (taskMod entry f d).Sound := by
  unfold taskMod
  assumption

theorem sound_taskEndCell {t : Task} {status : ℕ} {reason : ℕ} {fault : ℕ} {d : Dev} (hS : d.Sound) : (taskEndCell t status reason fault d).Sound := by
  unfold taskEndCell
  split
  · exact sound_cellTo (by assumption)
  · assumption

theorem sound_taskDrop {entry : ℕ} {d : Dev} (hS : d.Sound) : (taskDrop entry d).Sound := by
  unfold taskDrop
  extract_lets +onlyGivenNames -underBinder d0
  clear_value d0
  assumption

theorem sound_endRecord {own : Bool} {t : Task} {status : ℕ} {reason : ℕ} {fault : ℕ} {d : Dev} (hS : d.Sound) : (endRecord own t status reason fault d).Sound := by
  unfold endRecord
  extract_lets +onlyGivenNames -underBinder d0
  clear_value d0
  split
  · exact sound_postIf (by assumption)
  · exact sound_postIf (by assumption)
  · exact sound_post (by assumption)
  · apply sound_post
    split
    · exact sound_post (by assumption)
    · assumption
  · exact sound_post (by assumption)

theorem sound_taskStop {entry : ℕ} {status : ℕ} {reason : ℕ} {src : ℕ} {fault : ℕ} {d : Dev} (hS : d.Sound) : (taskStop entry status reason src fault d).Sound := by
  unfold taskStop
  split
  · assumption
  · extract_lets +onlyGivenNames -underBinder d0
    have h1 : d0.Sound := by
      dsimp -zeta only [d0]
      exact sound_taskDrop (by assumption)
    clear_value d0
    extract_lets +onlyGivenNames -underBinder d2
    clear_value d2
    extract_lets +onlyGivenNames -underBinder d4
    clear_value d4
    extract_lets +onlyGivenNames -underBinder d6i0 d6
    have h7 : d6.Sound := by
      dsimp -zeta only [d6]
      split
      · assumption
      · exact sound_rqMod1 (by assumption)
    clear_value d6
    extract_lets +onlyGivenNames -underBinder d8
    have h9 : d8.Sound := by
      dsimp -zeta only [d8]
      refine sound_foldl _ ?_ fun d10 a11 h12 => ?_
      · assumption
      · exact sound_cellTo (by assumption)
    clear_value d8
    extract_lets +onlyGivenNames -underBinder d13i0 d13
    have h14 : d13.Sound := by
      dsimp -zeta only [d13]
      assumption
    clear_value d13
    extract_lets +onlyGivenNames -underBinder d15
    have h16 : d15.Sound := by
      dsimp -zeta only [d15]
      exact sound_endRecord (by assumption)
    clear_value d15
    split
    · exact sound_taskEndCell (by assumption)
    · extract_lets +onlyGivenNames -underBinder d17
      clear_value d17
      split
      split
      · exact sound_rqMsi (sound_of_eq (by assumption) (sound_rqPush (by assumption)))
      · exact sound_of_eq (by assumption) (sound_rqPush (by assumption))

theorem sound_tasksModeEnd {d : Dev} (hS : d.Sound) : (tasksModeEnd d).Sound := by
  unfold tasksModeEnd
  refine sound_foldl _ ?_ fun d0 a1 h2 => ?_
  · assumption
  · exact sound_taskStop (by assumption)

theorem sound_taskRefuse {tq : ℕ} {q : List ℕ} {reason : ℕ} {d : Dev} (hS : d.Sound) : (taskRefuse tq q reason d).Sound := by
  unfold taskRefuse
  extract_lets +onlyGivenNames -underBinder d0
  clear_value d0
  extract_lets +onlyGivenNames -underBinder d2i0 d2
  have h3 : d2.Sound := by
    dsimp -zeta only [d2]
    exact sound_postIf (by assumption)
  clear_value d2
  extract_lets +onlyGivenNames -underBinder d4
  clear_value d4
  split
  · assumption
  · split
    split
    · exact sound_rqMsi (sound_of_eq (by assumption) (sound_rqPush (by assumption)))
    · exact sound_of_eq (by assumption) (sound_rqPush (by assumption))

theorem sound_subSend {entry : ℕ} {owner : ℕ} {qw : List ℕ} {entries : List (ℕ × ℕ)} {d : Dev} (hS : d.Sound) : (subSend entry owner qw entries d).Sound := by
  unfold subSend
  extract_lets +onlyGivenNames -underBinder d0
  clear_value d0
  extract_lets +onlyGivenNames -underBinder d2
  clear_value d2
  extract_lets +onlyGivenNames -underBinder d4i0 d4
  have h5 : d4.Sound := by
    dsimp -zeta only [d4]
    exact sound_cellTo (by assumption)
  clear_value d4
  exact sound_taskMod (by assumption)

theorem sound_fanOut {entry : ℕ} {q : List ℕ} {deadline : ℕ} {remote : List (ℕ × ℕ)} {d : Dev} (hS : d.Sound) : (fanOut entry q deadline remote d).Sound := by
  unfold fanOut
  split
  · assumption
  · split
    · refine sound_foldl _ ?_ fun d0 a1 h2 => ?_
      · assumption
      · extract_lets +onlyGivenNames -underBinder d3
        clear_value d3
        refine sound_foldl _ ?_ fun d5 a6 h7 => ?_
        · assumption
        · extract_lets +onlyGivenNames -underBinder d8
          clear_value d8
          exact sound_subSend (by assumption)
    · refine sound_foldl _ ?_ fun d10 a11 h12 => ?_
      · assumption
      · extract_lets +onlyGivenNames -underBinder d13
        clear_value d13
        extract_lets +onlyGivenNames -underBinder d15
        clear_value d15
        extract_lets +onlyGivenNames -underBinder d17
        clear_value d17
        extract_lets +onlyGivenNames -underBinder d19
        clear_value d19
        extract_lets +onlyGivenNames -underBinder d21
        clear_value d21
        exact sound_subSend (by assumption)

theorem sound_taskAdmit {p : OpeSet} {tq : ℕ} {q : List ℕ} {sub : Option (ℕ × ℕ)} {g : List (ℕ × ℕ)} {deadline : ℕ} {d : Dev} (hS : d.Sound) : (taskAdmit p tq q sub g deadline d).2.Sound := by
  unfold taskAdmit
  extract_lets +onlyGivenNames -underBinder d0
  clear_value d0
  split
  extract_lets +onlyGivenNames -underBinder d2
  clear_value d2
  exact sound_mk (by assumption)

theorem sound_cellsFlush {entry : ℕ} {d : Dev} (hS : d.Sound) : (cellsFlush entry d).2.Sound := by
  unfold cellsFlush
  split
  · exact sound_mk (by assumption)
  · split
    · exact sound_mk (by assumption)
    · extract_lets +onlyGivenNames -underBinder d0
      clear_value d0
      extract_lets +onlyGivenNames -underBinder d2
      have h3 : d2.Sound := by
        dsimp -zeta only [d2]
        refine sound_foldl _ ?_ fun d4 a5 h6 => ?_
        · assumption
        · exact sound_cellTo (by assumption)
      clear_value d2
      exact sound_mk (sound_taskMod (by assumption))

theorem sound_taskOut {entry : ℕ} {items : List (ℕ × List ℕ)} {d : Dev} (hS : d.Sound) : (taskOut entry items d).Sound := by
  unfold taskOut
  split
  · assumption
  · split
    · extract_lets +onlyGivenNames -underBinder d0
      clear_value d0
      extract_lets +onlyGivenNames -underBinder d2
      clear_value d2
      exact sound_cellsFlush (sound_taskMod (by assumption))
    · extract_lets +onlyGivenNames -underBinder d4
      clear_value d4
      extract_lets +onlyGivenNames -underBinder d6
      have h7 : d6.Sound := by
        dsimp -zeta only [d6]
        refine sound_foldl _ ?_ fun d8 a9 h10 => ?_
        · assumption
        · exact sound_rqPush (by assumption)
      clear_value d6
      exact sound_taskMod (by assumption)

theorem sound_taskCheck {entry : ℕ} {d : Dev} (hS : d.Sound) : (taskCheck entry d).Sound := by
  unfold taskCheck
  split
  · assumption
  · split
    · assumption
    · split
      · exact sound_taskStop (by assumption)
      · extract_lets +onlyGivenNames -underBinder d0
        clear_value d0
        extract_lets +onlyGivenNames -underBinder d2
        have h3 : d2.Sound := by
          dsimp -zeta only [d2]
          split
          · exact sound_taskOut (sound_taskMod (by assumption))
          · assumption
        clear_value d2
        split
        · assumption
        · split
          · split
            · assumption
            · extract_lets +onlyGivenNames -underBinder d4
              clear_value d4
              exact sound_taskEndCell (sound_taskDrop (by assumption))
          · extract_lets +onlyGivenNames -underBinder d6
            clear_value d6
            extract_lets +onlyGivenNames -underBinder d8
            clear_value d8
            split
            split
            · apply sound_rqMsi
              apply sound_taskDrop
              rename_i r10 r11 r12
              refine sound_upd (d := r10) rfl rfl rfl rfl rfl rfl rfl id rfl rfl id id id id ?_
              exact sound_of_eq (by assumption) (sound_rqPush (by assumption))
            · exact sound_taskMod (sound_of_eq (by assumption) (sound_rqPush (by assumption)))

theorem sound_taskDecide {d : Dev} (hS : d.Sound) : (taskDecide d).Sound := by
  unfold taskDecide
  split
  · assumption
  · extract_lets +onlyGivenNames -underBinder d0
    clear_value d0
    extract_lets +onlyGivenNames -underBinder d2
    clear_value d2
    extract_lets +onlyGivenNames -underBinder d4i0 d4
    have h5 : d4.Sound := by
      dsimp -zeta only [d4]
      assumption
    clear_value d4
    extract_lets +onlyGivenNames -underBinder d6
    clear_value d6
    split
    split
    · exact sound_taskRefuse (by assumption)
    · split
      exact sound_taskCheck (sound_fanOut (sound_of_eq (by assumption) (sound_taskAdmit (by assumption))))

theorem sound_doorbell {q : ℕ} {tail : ℕ} {d : Dev} (hS : d.Sound) : (doorbell q tail d).Sound := by
  unfold doorbell
  split
  · assumption
  · extract_lets +onlyGivenNames -underBinder d0
    clear_value d0
    extract_lets +onlyGivenNames -underBinder d2
    clear_value d2
    extract_lets +onlyGivenNames -underBinder d4
    clear_value d4
    split
    · assumption
    · exact sound_post (by assumption)

theorem sound_engLine {t : Task} {ts : Trouble} {k : ℕ} {d : Dev} (hS : d.Sound) : (engLine t ts k d).2.2.Sound := by
  unfold engLine
  dsimp only
  split
  · exact hS
  · split
    · exact sound_beyondLimit hS
    · split
      · exact hS
      · exact sound_feedBin (sound_draw (sound_backRead hS))

theorem sound_engLines (t : Task) (ts : Trouble) (ks : List ℕ) : ∀ {n : ℕ} {g : Tab Line} {d : Dev}, d.Sound →
    (engLines t ts ks n g d).2.2.Sound := by
  induction ks with
  | nil => intro n g d h; exact h
  | cons k ks ih =>
    intro n g d h
    have he := sound_engLine (t := t) (ts := ts) (k := k) h
    unfold engLines
    split
    · rename_i hx
      exact sound_of_eq3 hx he
    · rename_i hx
      exact ih (sound_of_eq3 hx he)

theorem sound_snpStart {entry : ℕ} {ks : List ℕ} {d : Dev} (hS : d.Sound) : (snpStart entry ks d).Sound := by
  unfold snpStart
  refine sound_foldl _ ?_ fun d0 a1 h2 => ?_
  · assumption
  · split
    · assumption
    · extract_lets +onlyGivenNames -underBinder d3i0 d3
      have h4 : d3.Sound := by
        dsimp -zeta only [d3]
        assumption
      clear_value d3
      split
      · exact sound_snpAsk (by assumption)
      · exact sound_cellTo (by assumption)

theorem sound_chunkStart {e : ℕ} {d : Dev} (hS : d.Sound) : (chunkStart e d).Sound := by
  unfold chunkStart
  split
  · assumption
  · split
    · assumption
    · extract_lets +onlyGivenNames -underBinder d0i0 d0
      have h1 : d0.Sound := by
        dsimp -zeta only [d0]
        exact sound_taskMod (by assumption)
      clear_value d0
      exact sound_snpStart (by assumption)

theorem sound_chunkDone {e : ℕ} {i : ℕ} {t : Task} {ks : List ℕ} {g : Tab Line} {d : Dev} (hS : d.Sound) : (chunkDone e i t ks g d).Sound := by
  unfold chunkDone
  extract_lets +onlyGivenNames -underBinder d0i0 d0
  have h1 : d0.Sound := by
    dsimp -zeta only [d0]
    assumption
  clear_value d0
  split
  · split
    · exact sound_taskStop (sound_cphCount (by assumption))
    · exact sound_cphEnq (sound_taskMod (by assumption))
  · extract_lets +onlyGivenNames -underBinder d2
    clear_value d2
    extract_lets +onlyGivenNames -underBinder d4
    clear_value d4
    extract_lets +onlyGivenNames -underBinder d6
    have h7 : d6.Sound := by
      dsimp -zeta only [d6]
      split
      · exact sound_scratchWrite (by assumption)
      · assumption
    clear_value d6
    extract_lets +onlyGivenNames -underBinder d8
    clear_value d8
    extract_lets +onlyGivenNames -underBinder d10
    have h11 : d10.Sound := by
      dsimp -zeta only [d10]
      exact sound_taskMod (by assumption)
    clear_value d10
    exact sound_taskCheck (sound_taskOut (by assumption))

theorem sound_chunkEnd {e : ℕ} {ts : Trouble} {scr : Option ℕ} {d : Dev} (hS : d.Sound) : (chunkEnd e ts scr d).Sound := by
  unfold chunkEnd
  split
  · assumption
  · split
    · assumption
    · extract_lets +onlyGivenNames -underBinder d0
      clear_value d0
      extract_lets +onlyGivenNames -underBinder d2
      clear_value d2
      split
      · assumption
      · split
        · assumption
        · split
          split
          · refine sound_of_eq (by assumption) ?_
            apply sound_probesWait
            assumption
          · split
            · apply sound_taskStop
              rename_i r4 r5
              refine sound_upd (d := r4) rfl rfl rfl rfl rfl rfl rfl id rfl rfl id id id id ?_
              refine sound_of_eq3 (by assumption) ?_
              apply sound_engLines
              refine sound_of_eq (by assumption) ?_
              apply sound_probesWait
              assumption
            · split
              · apply sound_taskStop
                refine sound_of_eq3 (by assumption) ?_
                apply sound_engLines
                refine sound_of_eq (by assumption) ?_
                apply sound_probesWait
                assumption
              · apply sound_chunkDone
                refine sound_of_eq3 (by assumption) ?_
                apply sound_engLines
                refine sound_of_eq (by assumption) ?_
                apply sound_probesWait
                assumption

theorem sound_rqFlush {r : ℕ} {d : Dev} (hS : d.Sound) : (rqFlush r d).Sound := by
  unfold rqFlush
  refine sound_iter _ ?_ fun d0 h1 => ?_
  · assumption
  · extract_lets +onlyGivenNames -underBinder d2
    clear_value d2
    split
    · assumption
    · split
      · assumption
      · extract_lets +onlyGivenNames -underBinder d4
        clear_value d4
        split
        · exact sound_taskStop (by assumption)
        · extract_lets +onlyGivenNames -underBinder d6
          have h7 : d6.Sound := by
            dsimp -zeta only [d6]
            exact sound_rqMod1 (by assumption)
          clear_value d6
          extract_lets +onlyGivenNames -underBinder d8
          have h9 : d8.Sound := by
            dsimp -zeta only [d8]
            split
            · exact sound_emit (by assumption)
            · assumption
          clear_value d8
          split
          · exact sound_taskDrop (by assumption)
          · assumption

theorem sound_rqRead {r : ℕ} {rd : ℕ} {ce : ℕ} {bad : List ℕ} {d : Dev} (hS : d.Sound) : (rqRead r rd ce bad d).Sound := by
  unfold rqRead
  split
  · assumption
  · extract_lets +onlyGivenNames -underBinder d0
    clear_value d0
    extract_lets +onlyGivenNames -underBinder d2
    clear_value d2
    split
    · assumption
    · extract_lets +onlyGivenNames -underBinder d4
      clear_value d4
      extract_lets +onlyGivenNames -underBinder d6
      clear_value d6
      extract_lets +onlyGivenNames -underBinder d8i0 d8
      have h9 : d8.Sound := by
        dsimp -zeta only [d8]
        exact sound_rqMod1 (by assumption)
      clear_value d8
      refine sound_foldl _ ?_ fun d10 a11 h12 => ?_
      · assumption
      · exact sound_post (by assumption)

theorem sound_engEnable {e : ℕ} {en : Bool} {d : Dev} (hS : d.Sound) : (engEnable e en d).Sound := by
  unfold engEnable
  split <;> assumption

theorem sound_tqEnable {q : ℕ} {en : Bool} {d : Dev} (hS : d.Sound) : (tqEnable q en d).Sound := by
  unfold tqEnable
  split <;> assumption

theorem sound_rqEnable {r : ℕ} {en : Bool} {d : Dev} (hS : d.Sound) : (rqEnable r en d).Sound := by
  unfold rqEnable
  split
  · assumption
  · exact sound_rqMod1 (by assumption)

theorem sound_tqAbort {q : ℕ} {d : Dev} (hS : d.Sound) : (tqAbort q d).Sound := by
  unfold tqAbort
  split
  · assumption
  · refine sound_foldl _ ?_ fun d0 a1 h2 => ?_
    · assumption
    · exact sound_taskStop (by assumption)

theorem sound_subAck {c : Cell} {d : Dev} (hS : d.Sound) : (subAck c d).Sound := by
  unfold subAck
  exact sound_cellTo (by assumption)

theorem sound_taskCell {c : Cell} {qw : List ℕ} {entries : List (ℕ × ℕ)} {d : Dev} (hS : d.Sound) : (taskCell c qw entries d).Sound := by
  unfold taskCell
  split
  split
  · exact sound_of_eq (by assumption) (sound_acceptCell (by assumption))
  · split
    · exact sound_sendCell (sound_of_eq (by assumption) (sound_acceptCell (by assumption)))
    · split
      · exact sound_subAck (sound_of_eq (by assumption) (sound_acceptCell (by assumption)))
      · extract_lets +onlyGivenNames -underBinder d0i0 d0
        have h1 : d0.Sound := by
          dsimp -zeta only [d0]
          rename_i r2 r3 r4 r5 r6
          refine sound_upd (d := r2) rfl rfl rfl rfl rfl rfl rfl id rfl rfl id id id id ?_
          exact sound_of_eq (by assumption) (sound_acceptCell (by assumption))
        clear_value d0
        extract_lets +onlyGivenNames -underBinder d7
        clear_value d7
        extract_lets +onlyGivenNames -underBinder d9
        clear_value d9
        split
        · extract_lets +onlyGivenNames -underBinder d11
          clear_value d11
          extract_lets +onlyGivenNames -underBinder d13i0 d13
          have h14 : d13.Sound := by
            dsimp -zeta only [d13]
            exact sound_postIf (by assumption)
          clear_value d13
          exact sound_cellTo (sound_subAck (by assumption))
        · split
          exact sound_taskCheck (sound_subAck (sound_of_eq (by assumption) (sound_taskAdmit (by assumption))))

theorem sound_creditCell {c : Cell} {n : ℕ} {d : Dev} (hS : d.Sound) : (creditCell c n d).Sound := by
  unfold creditCell
  split
  split
  · exact sound_of_eq (by assumption) (sound_acceptCell (by assumption))
  · split
    · exact sound_subAck (sound_of_eq (by assumption) (sound_acceptCell (by assumption)))
    · split
      apply sound_taskCheck
      split
      · exact sound_subAck (sound_of_eq (by assumption) (sound_cellsFlush (sound_taskMod (sound_of_eq (by assumption) (sound_acceptCell (by assumption))))))
      · exact sound_of_eq (by assumption) (sound_cellsFlush (sound_taskMod (sound_of_eq (by assumption) (sound_acceptCell (by assumption)))))

theorem sound_subMod {entry : ℕ} {tag : ℕ} {f : Sub → Sub} {d : Dev} (hS : d.Sound) : (subMod entry tag f d).Sound := by
  unfold subMod
  exact sound_taskMod (by assumption)

theorem sound_resultCell {c : Cell} {words : List ℕ} {d : Dev} (hS : d.Sound) : (resultCell c words d).Sound := by
  unfold resultCell
  split
  split
  · exact sound_of_eq (by assumption) (sound_acceptCell (by assumption))
  · split
    · exact sound_of_eq (by assumption) (sound_acceptCell (by assumption))
    · extract_lets +onlyGivenNames -underBinder d0
      have h1 : d0.Sound := by
        dsimp -zeta only [d0]
        exact sound_subMod (sound_of_eq (by assumption) (sound_acceptCell (by assumption)))
      clear_value d0
      extract_lets +onlyGivenNames -underBinder d2
      clear_value d2
      split
      · assumption
      · extract_lets +onlyGivenNames -underBinder d4i0 d4i1 d4i2 d4
        have h5 : d4.Sound := by
          dsimp -zeta only [d4]
          split
          · exact sound_taskMod (by assumption)
          · exact sound_rqPush (by assumption)
        clear_value d4
        extract_lets +onlyGivenNames -underBinder d6
        clear_value d6
        split
        · exact sound_cellTo (sound_subMod (by assumption))
        · exact sound_subMod (by assumption)

theorem sound_subLost {t : Task} {sb : Sub} {cells : ℕ} {d : Dev} (hS : d.Sound) : (subLost t sb cells d).Sound := by
  unfold subLost
  exact sound_taskStop (sound_post (by assumption))

theorem sound_taskEnded {c : Cell} {cells : ℕ} {examined : ℕ} {word : ℕ} {fault : ℕ} {bytes : ℕ} {tag : List ℕ} {d : Dev} (hS : d.Sound) : (taskEnded c cells examined word fault bytes tag d).Sound := by
  unfold taskEnded
  split
  split
  · exact sound_of_eq (by assumption) (sound_acceptCell (by assumption))
  · split
    · exact sound_of_eq (by assumption) (sound_acceptCell (by assumption))
    · split
      · exact sound_of_eq (by assumption) (sound_acceptCell (by assumption))
      · extract_lets +onlyGivenNames -underBinder d0
        clear_value d0
        extract_lets +onlyGivenNames -underBinder d2
        have h3 : d2.Sound := by
          dsimp -zeta only [d2]
          exact sound_subMod (sound_of_eq (by assumption) (sound_acceptCell (by assumption)))
        clear_value d2
        extract_lets +onlyGivenNames -underBinder d4
        have h5 : d4.Sound := by
          dsimp -zeta only [d4]
          exact sound_taskMod (by assumption)
        clear_value d4
        split
        · exact sound_taskStop (by assumption)
        · split
          · exact sound_subLost (by assumption)
          · exact sound_taskCheck (by assumption)

theorem sound_subRetry {tag : ℕ} {d : Dev} (hS : d.Sound) : (subRetry tag d).Sound := by
  unfold subRetry
  split
  · assumption
  · split
    · exact sound_subLost (by assumption)
    · extract_lets +onlyGivenNames -underBinder d0i0 d0
      have h1 : d0.Sound := by
        dsimp -zeta only [d0]
        exact sound_cellTo (by assumption)
      clear_value d0
      exact sound_subMod (by assumption)

theorem sound_snpRetry {entry : ℕ} {d : Dev} (hS : d.Sound) : (snpRetry entry d).Sound := by
  unfold snpRetry
  extract_lets +onlyGivenNames -underBinder d0
  clear_value d0
  split
  · assumption
  · refine sound_foldl _ ?_ fun d2 a3 h4 => ?_
    · assumption
    · split
      · split
        · assumption
        · exact sound_cellTo (by assumption)
      · assumption

theorem sound_cipherTaskEnd {entry : ℕ} {r : CReq} {res : CRes} {d : Dev} (hS : d.Sound) : (cipherTaskEnd entry r res d).Sound := by
  unfold cipherTaskEnd
  split
  · assumption
  · extract_lets +onlyGivenNames -underBinder d0
    extract_lets +onlyGivenNames -underBinder d2
    have h3 : d2.Sound := by
      dsimp -zeta only [d2]
      split
      · exact sound_scratchWrite (by assumption)
      · assumption
    clear_value d2
    split
    · extract_lets +onlyGivenNames -underBinder d4
      have h5 : d4.Sound := by
        dsimp -zeta only [d4]
        exact sound_taskMod (by assumption)
      clear_value d4
      extract_lets +onlyGivenNames -underBinder d6
      clear_value d6
      extract_lets +onlyGivenNames -underBinder d8
      clear_value d8
      extract_lets +onlyGivenNames -underBinder d10
      clear_value d10
      exact sound_taskCheck (sound_taskOut (by assumption))
    all_goals exact sound_taskStop (by assumption)

theorem sound_cipherHostEnd {tr : Transport} {r : CReq} {res : CRes} {d : Dev} (hS : d.Sound) : (cipherHostEnd tr r res d).Sound := by
  unfold cipherHostEnd
  extract_lets +onlyGivenNames -underBinder d0
  extract_lets +onlyGivenNames -underBinder d2
  extract_lets +onlyGivenNames -underBinder d4
  have h5 : d4.Sound := by
    dsimp -zeta only [d4]
    split
    · assumption
    · exact sound_scratchWrite (by assumption)
  clear_value d4
  extract_lets +onlyGivenNames -underBinder d6
  clear_value d6
  extract_lets +onlyGivenNames -underBinder d8
  clear_value d8
  extract_lets +onlyGivenNames -underBinder d10
  clear_value d10
  split
  · split
    · exact sound_cmdEnd (by assumption)
    · assumption
  · assumption

theorem sound_cipherFinish {r : CReq} {res : CRes} {d : Dev} (hS : d.Sound) : (cipherFinish r res d).Sound := by
  unfold cipherFinish
  extract_lets +onlyGivenNames -underBinder d0i0 d0
  have h1 : d0.Sound := by
    dsimp -zeta only [d0]
    exact sound_cphCount (by assumption)
  clear_value d0
  extract_lets +onlyGivenNames -underBinder d2
  clear_value d2
  extract_lets +onlyGivenNames -underBinder d4
  extract_lets +onlyGivenNames -underBinder d6i0 d6
  have h7 : d6.Sound := by
    dsimp -zeta only [d6]
    split
    · exact sound_postIf (by assumption)
    · assumption
  clear_value d6
  split
  · assumption
  · exact sound_cipherHostEnd (by assumption)
  · exact sound_cipherTaskEnd (by assumption)

theorem sound_cipherDone {core : ℕ} {d : Dev} (hS : d.Sound) : (cipherDone core d).Sound := by
  unfold cipherDone
  split
  · assumption
  · extract_lets +onlyGivenNames -underBinder d0
    clear_value d0
    exact sound_cipherFinish (by assumption)

theorem sound_cphZeroize {p : List Byte} {d : Dev} (hS : d.Sound) : (cphZeroize p d).2.Sound := by
  unfold cphZeroize
  extract_lets +onlyGivenNames -underBinder d0
  clear_value d0
  extract_lets +onlyGivenNames -underBinder d2
  clear_value d2
  extract_lets +onlyGivenNames -underBinder d4
  clear_value d4
  extract_lets +onlyGivenNames -underBinder d6
  clear_value d6
  extract_lets +onlyGivenNames -underBinder d8i0 d8
  have h9 : d8.Sound := by
    dsimp -zeta only [d8]
    assumption
  clear_value d8
  extract_lets +onlyGivenNames -underBinder d10
  have h11 : d10.Sound := by
    dsimp -zeta only [d10]
    refine sound_foldl _ ?_ fun d12 a13 h14 => ?_
    · assumption
    · exact sound_cipherFinish (by assumption)
  clear_value d10
  extract_lets +onlyGivenNames -underBinder d15
  have h16 : d15.Sound := by
    dsimp -zeta only [d15]
    exact sound_post (by assumption)
  clear_value d15
  extract_lets +onlyGivenNames -underBinder d17
  have h18 : d17.Sound := by
    dsimp -zeta only [d17]
    split
    · exact sound_fwPut (by assumption)
    · assumption
  clear_value d17
  split
  · exact sound_mk (by assumption)
  · exact sound_ret (by assumption)

end Sys2Proof.Machine
end

