-- ==== Sys2Proof/Laws/SoundRegWrite.lean ====
section
/-! SUPPORT. Laws/SoundRegWrite.lean: the operations of RegWrite.lean keep the node's stores in order. -/

namespace Sys2Proof.Machine

set_option linter.unusedVariables false

theorem sound_xtrmClear {d : Dev} (hS : d.Sound) : (xtrmClear d).Sound := by
  unfold xtrmClear
  assumption

theorem sound_ovrClear {d : Dev} (hS : d.Sound) : (ovrClear d).Sound := by
  unfold ovrClear
  assumption

theorem sound_budWrite {n : ℕ} {v : ℕ} {d : Dev} (hS : d.Sound) : (budWrite n v d).Sound := by
  unfold budWrite
  split
  · assumption
  · split
    · exact sound_post (by assumption)
    · assumption

theorem sound_mapClear {d : Dev} (hS : d.Sound) : (mapClear d).Sound := by
  unfold mapClear
  assumption

theorem sound_cacheInval {d : Dev} (hS : d.Sound) : (cacheInval d).Sound := by
  unfold cacheInval
  assumption

theorem sound_peekWrite {f : ℕ} {d : Dev} (hS : d.Sound) : (peekWrite f d).Sound := by
  unfold peekWrite
  extract_lets +onlyGivenNames -underBinder d0i0 d0
  have h1 : d0.Sound := by
    dsimp -zeta only [d0]
    exact sound_mapBurst (by assumption)
  clear_value d0
  extract_lets +onlyGivenNames -underBinder d2
  clear_value d2
  extract_lets +onlyGivenNames -underBinder d4
  have h5 : d4.Sound := by
    dsimp -zeta only [d4]
    split
    · exact sound_lineErr (by assumption)
    · assumption
  clear_value d4
  split
  · assumption
  · exact sound_peekDone (by assumption)

theorem sound_rdClear {d : Dev} (hS : d.Sound) : (rdClear d).Sound := by
  unfold rdClear
  assumption

theorem sound_cshClear {d : Dev} (hS : d.Sound) : (cshClear d).Sound := by
  unfold cshClear
  assumption

theorem sound_medClear {d : Dev} (hS : d.Sound) : (medClear d).Sound := by
  unfold medClear
  assumption

theorem sound_stwClear {d : Dev} (hS : d.Sound) : (stwClear d).Sound := by
  unfold stwClear
  assumption

theorem sound_secClear {d : Dev} (hS : d.Sound) : (secClear d).Sound := by
  unfold secClear
  assumption

theorem sound_hstClear {d : Dev} (hS : d.Sound) : (hstClear d).Sound := by
  unfold hstClear
  assumption

theorem sound_srnClear {d : Dev} (hS : d.Sound) : (srnClear d).Sound := by
  unfold srnClear
  assumption

theorem sound_opeClear {d : Dev} (hS : d.Sound) : (opeClear d).Sound := by
  unfold opeClear
  assumption

theorem sound_cphClear {d : Dev} (hS : d.Sound) : (cphClear d).Sound := by
  unfold cphClear
  assumption

theorem sound_mbxClear {d : Dev} (hS : d.Sound) : (mbxClear d).Sound := by
  unfold mbxClear
  assumption

theorem sound_pstClear {d : Dev} (hS : d.Sound) : (pstClear d).Sound := by
  unfold pstClear
  assumption

theorem sound_bflClear {d : Dev} (hS : d.Sound) : (bflClear d).Sound := by
  unfold bflClear
  assumption

theorem sound_evrClear {d : Dev} (hS : d.Sound) : (evrClear d).Sound := by
  unfold evrClear
  assumption

theorem sound_pwrClear {d : Dev} (hS : d.Sound) : (pwrClear d).Sound := by
  unfold pwrClear
  assumption

theorem sound_thmClear {d : Dev} (hS : d.Sound) : (thmClear d).Sound := by
  unfold thmClear
  assumption

theorem sound_onBit {v : ℕ} {i : ℕ} {f : Dev → Dev} {d : Dev} (hS : d.Sound) (hf : ∀ e, e.Sound → (f e).Sound) : (onBit v i f d).Sound := by
  unfold onBit
  split
  · solve_by_elim
  · assumption

theorem sound_devloadWrite {v : ℕ} {d : Dev} (hS : d.Sound) : (devloadWrite v d).Sound := by
  unfold devloadWrite
  extract_lets +onlyGivenNames -underBinder d0
  clear_value d0
  extract_lets +onlyGivenNames -underBinder d2
  clear_value d2
  extract_lets +onlyGivenNames -underBinder d4
  clear_value d4
  extract_lets +onlyGivenNames -underBinder d6
  clear_value d6
  split <;> assumption

theorem sound_writeLdgMap {o : ℕ} {v : ℕ} {d : Dev} (hS : d.Sound) : (writeLdgMap o v d).Sound := by
  unfold writeLdgMap
  split
  · exact sound_budWrite (by assumption)
  · split
    · apply sound_onBit
      · apply sound_onBit
        · assumption
        · intro d0 h1
          exact sound_xtrmClear (by assumption)
      · intro d2 h3
        exact sound_ovrClear (by assumption)
    · split <;> assumption
    · exact sound_devloadWrite (by assumption)
    · apply sound_onBit
      · apply sound_onBit
        · assumption
        · intro d4 h5
          exact sound_mapClear (by assumption)
      · intro d6 h7
        exact sound_cacheInval (by assumption)
    · exact sound_peekWrite (by assumption)
    · assumption

theorem sound_dfloorWrite {v : ℕ} {d : Dev} (hS : d.Sound) : (dfloorWrite v d).Sound := by
  unfold dfloorWrite
  extract_lets +onlyGivenNames -underBinder d0
  clear_value d0
  extract_lets +onlyGivenNames -underBinder d2
  clear_value d2
  extract_lets +onlyGivenNames -underBinder d4
  clear_value d4
  extract_lets +onlyGivenNames -underBinder d6
  clear_value d6
  split <;> assumption

theorem sound_writeCsh {o : ℕ} {v : ℕ} {d : Dev} (hS : d.Sound) : (writeCsh o v d).Sound := by
  unfold writeCsh
  split
  · apply sound_onBit
    · assumption
    · intro d0 h1
      exact sound_cshClear (by assumption)
  · extract_lets +onlyGivenNames -underBinder d2
    clear_value d2
    split <;> assumption
  · exact sound_dfloorWrite (by assumption)
  all_goals assumption

theorem sound_suspWrite {v : ℕ} {d : Dev} (hS : d.Sound) : (suspWrite v d).Sound := by
  unfold suspWrite
  extract_lets +onlyGivenNames -underBinder d0
  clear_value d0
  extract_lets +onlyGivenNames -underBinder d2
  clear_value d2
  extract_lets +onlyGivenNames -underBinder d4
  clear_value d4
  extract_lets +onlyGivenNames -underBinder d6
  clear_value d6
  assumption

theorem sound_writeMed {o : ℕ} {v : ℕ} {d : Dev} (hS : d.Sound) : (writeMed o v d).Sound := by
  unfold writeMed
  split
  · apply sound_onBit
    · assumption
    · intro d0 h1
      exact sound_medClear (by assumption)
  · exact sound_suspWrite (by assumption)
  · assumption
  · apply sound_onBit
    · assumption
    · intro d2 h3
      exact sound_medDiagGo (by assumption)
  · apply sound_onBit
    · assumption
    · intro d4 h5
      exact sound_rdClear (by assumption)
  · assumption

theorem sound_stwKeep {new : StwSet} {d : Dev} (hS : d.Sound) : (stwKeep new d).Sound := by
  unfold stwKeep
  split <;> assumption

theorem sound_writeStw {o : ℕ} {v : ℕ} {d : Dev} (hS : d.Sound) : (writeStw o v d).Sound := by
  unfold writeStw
  extract_lets +onlyGivenNames -underBinder d0
  clear_value d0
  split
  · apply sound_patrolEnable
    apply sound_onBit
    · assumption
    · intro d2 h3
      exact sound_stwClear (by assumption)
  · exact sound_stwKeep (by assumption)
  · exact sound_stwKeep (by assumption)
  · exact sound_stwKeep (by assumption)
  · extract_lets +onlyGivenNames -underBinder d4
    clear_value d4
    assumption
  · extract_lets +onlyGivenNames -underBinder d6
    clear_value d6
    extract_lets +onlyGivenNames -underBinder d8
    clear_value d8
    assumption
  · assumption
  · extract_lets +onlyGivenNames -underBinder d10
    clear_value d10
    assumption
  · extract_lets +onlyGivenNames -underBinder d12
    clear_value d12
    assumption
  · assumption

theorem sound_writeHst {o : ℕ} {v : ℕ} {d : Dev} (hS : d.Sound) : (writeHst o v d).Sound := by
  unfold writeHst
  split
  · apply sound_onBit
    · assumption
    · intro d0 h1
      exact sound_hstClear (by assumption)
  · apply sound_onBit
    · assumption
    · intro d2 h3
      assumption
  · extract_lets +onlyGivenNames -underBinder d4
    clear_value d4
    extract_lets +onlyGivenNames -underBinder d6
    clear_value d6
    split <;> assumption
  · assumption

theorem sound_writeSrn {o : ℕ} {v : ℕ} {d : Dev} (hS : d.Sound) : (writeSrn o v d).Sound := by
  unfold writeSrn
  split
  · extract_lets +onlyGivenNames -underBinder d0
    have h1 : d0.Sound := by
      dsimp -zeta only [d0]
      apply sound_onBit
      · assumption
      · intro d2 h3
        exact sound_srnClear (by assumption)
    clear_value d0
    extract_lets +onlyGivenNames -underBinder d4
    have h5 : d4.Sound := by
      dsimp -zeta only [d4]
      split
      · assumption
      · exact sound_portEnable (by assumption)
    clear_value d4
    extract_lets +onlyGivenNames -underBinder d6
    have h7 : d6.Sound := by
      dsimp -zeta only [d6]
      split
      · assumption
      · exact sound_portEnable (by assumption)
    clear_value d6
    apply sound_onBit
    · assumption
    · intro d8 h9
      exact sound_epochAsk (by assumption)
  · extract_lets +onlyGivenNames -underBinder d10
    clear_value d10
    assumption
  · assumption

theorem sound_rqCfgWrite {r : ℕ} {v : ℕ} {d : Dev} (hS : d.Sound) : (rqCfgWrite r v d).Sound := by
  unfold rqCfgWrite
  split
  · assumption
  · extract_lets +onlyGivenNames -underBinder d0
    clear_value d0
    extract_lets +onlyGivenNames -underBinder d2
    clear_value d2
    extract_lets +onlyGivenNames -underBinder d4
    clear_value d4
    extract_lets +onlyGivenNames -underBinder d6
    clear_value d6
    extract_lets +onlyGivenNames -underBinder d8
    clear_value d8
    extract_lets +onlyGivenNames -underBinder d10
    clear_value d10
    extract_lets +onlyGivenNames -underBinder d12
    clear_value d12
    extract_lets +onlyGivenNames -underBinder d14
    clear_value d14
    extract_lets +onlyGivenNames -underBinder d16
    clear_value d16
    exact sound_rqEnable (by assumption)

theorem sound_writeOpe {o : ℕ} {v : ℕ} {d : Dev} (hS : d.Sound) : (writeOpe o v d).Sound := by
  unfold writeOpe
  split
  · exact sound_engEnable (by assumption)
  · split
    · extract_lets +onlyGivenNames -underBinder d0
      clear_value d0
      split
      · apply sound_tqEnable
        apply sound_onBit
        · assumption
        · intro d2 h3
          exact sound_tqAbort (by assumption)
      · split
        · exact sound_doorbell (by assumption)
        · assumption
    · split
      · extract_lets +onlyGivenNames -underBinder d4
        clear_value d4
        split <;> assumption
      · split
        · extract_lets +onlyGivenNames -underBinder d6
          clear_value d6
          split
          · exact sound_rqCfgWrite (by assumption)
          · split
            · exact sound_rqRead (by assumption)
            · assumption
        · split
          · apply sound_onBit
            · assumption
            · intro d8 h9
              exact sound_opeClear (by assumption)
          · extract_lets +onlyGivenNames -underBinder d10
            clear_value d10
            assumption
          · extract_lets +onlyGivenNames -underBinder d12
            clear_value d12
            assumption
          · assumption

theorem sound_writeCph {o : ℕ} {v : ℕ} {d : Dev} (hS : d.Sound) : (writeCph o v d).Sound := by
  unfold writeCph
  split
  · extract_lets +onlyGivenNames -underBinder d0
    have h1 : d0.Sound := by
      dsimp -zeta only [d0]
      apply sound_onBit
      · assumption
      · intro d2 h3
        exact sound_cphClear (by assumption)
    clear_value d0
    assumption
  · assumption

theorem sound_writeEvr {o : ℕ} {v : ℕ} {d : Dev} (hS : d.Sound) : (writeEvr o v d).Sound := by
  unfold writeEvr
  split
  · apply sound_onBit
    · assumption
    · intro d0 h1
      exact sound_evrClear (by assumption)
  · assumption
  · assumption
  · extract_lets +onlyGivenNames -underBinder d2
    clear_value d2
    extract_lets +onlyGivenNames -underBinder d4
    clear_value d4
    assumption
  · extract_lets +onlyGivenNames -underBinder d6
    clear_value d6
    assumption
  all_goals assumption

theorem sound_throttleWrite {i : ℕ} {t : ℕ} {d : Dev} (hS : d.Sound) : (throttleWrite i t d).Sound := by
  unfold throttleWrite
  split <;> assumption

theorem sound_writePwr {o : ℕ} {v : ℕ} {d : Dev} (hS : d.Sound) : (writePwr o v d).Sound := by
  unfold writePwr
  split
  · exact sound_throttleWrite (by assumption)
  · split
    · apply sound_onBit
      · assumption
      · intro d0 h1
        exact sound_pwrClear (by assumption)
    · apply sound_onBit
      · assumption
      · intro d2 h3
        exact sound_thmClear (by assumption)
    · assumption

theorem sound_writeMgmt {o : ℕ} {v : ℕ} {d : Dev} (hS : d.Sound) : (writeMgmt o v d).Sound := by
  unfold writeMgmt
  split
  · apply sound_onBit
    · assumption
    · intro d0 h1
      exact sound_mbxClear (by assumption)
  · apply sound_onBit
    · assumption
    · intro d2 h3
      exact sound_pstClear (by assumption)
  · apply sound_onBit
    · assumption
    · intro d4 h5
      exact sound_bflClear (by assumption)
  · assumption

theorem sound_regWrite {off : ℕ} {v : ℕ} {d : Dev} (hS : d.Sound) : (regWrite off v d).Sound := by
  unfold regWrite
  extract_lets +onlyGivenNames -underBinder d0
  clear_value d0
  extract_lets +onlyGivenNames -underBinder d2
  clear_value d2
  apply sound_gate
  · intro d4 h5
    split
    · exact sound_writeLdgMap (by assumption)
    · exact sound_writeCsh (by assumption)
    · exact sound_writeMed (by assumption)
    · exact sound_writeStw (by assumption)
    · split
      · apply sound_onBit
        · assumption
        · intro d6 h7
          exact sound_secClear (by assumption)
      · exact sound_id (by assumption)
    · exact sound_writeHst (by assumption)
    · exact sound_writeSrn (by assumption)
    · exact sound_writeOpe (by assumption)
    · exact sound_writeCph (by assumption)
    · exact sound_writeMgmt (by assumption)
    · exact sound_writeEvr (by assumption)
    · exact sound_writePwr (by assumption)
    · exact sound_id (by assumption)
  · assumption

theorem sound_badAccess {off : ℕ} {size : ℕ} {wr : Bool} {d : Dev} (hS : d.Sound) : (badAccess off size wr d).Sound := by
  unfold badAccess
  exact sound_postIf (by assumption)

theorem sound_bellWrite {off : ℕ} {size : ℕ} {v : W64} {d : Dev} (hS : d.Sound) : (bellWrite off size v d).Sound := by
  unfold bellWrite
  extract_lets +onlyGivenNames -underBinder d0
  clear_value d0
  split <;> assumption

theorem sound_registerWrite {off : ℕ} {size : ℕ} {v : W64} {d : Dev} (hS : d.Sound) : (registerWrite off size v d).Sound := by
  unfold registerWrite
  split
  · split
    · exact sound_bellWrite (by assumption)
    · assumption
  · split
    · exact sound_regWrite (by assumption)
    · exact sound_badAccess (by assumption)

theorem sound_registerRead {size : ℕ} {off : ℕ} {d : Dev} (hS : d.Sound) : (registerRead size off d).Sound := by
  unfold registerRead
  split
  · assumption
  · split
    · split
      exact sound_emit (sound_of_eq (by assumption) (sound_draw (by assumption)))
    · split
      · extract_lets +onlyGivenNames -underBinder d0
        clear_value d0
        extract_lets +onlyGivenNames -underBinder d2i0 d2
        have h3 : d2.Sound := by
          dsimp -zeta only [d2]
          split <;> assumption
        clear_value d2
        exact sound_emit (by assumption)
      · split <;> exact sound_badAccess (sound_emit (by assumption))

end Sys2Proof.Machine
end

