-- ==== Sys2Proof/Laws/SoundPst.lean ====
section
/-! SUPPORT. Laws/SoundPst.lean: the operations of Pst.lean keep the node's stores in order. -/

namespace Sys2Proof.Machine

set_option linter.unusedVariables false

theorem sound_rowFault {part : ℕ} {row : ℕ} {fault : ℕ} {d : Dev} (hS : d.Sound) : (rowFault part row fault d).Sound := by
  unfold rowFault
  split
  · assumption
  · exact sound_post (by assumption)

theorem sound_pwFail {part : ℕ} {kind : ℕ} {tr : Transport} {d : Dev} (hS : d.Sound) : (pwFail part kind tr d).2.Sound := by
  unfold pwFail
  exact sound_mk (sound_post (by assumption))

theorem sound_rowsRead {part off n : Nat} {d : Dev} (hS : d.Sound) : (rowsRead part off n d).2.2.Sound := by
  have hf : ∀ (l : List Nat) (f : List Byte × Bool × Dev → Nat → List Byte × Bool × Dev) (a : List Byte × Bool × Dev),
      (∀ a r, a.2.2.Sound → (f a r).2.2.Sound) → a.2.2.Sound → (l.foldl f a).2.2.Sound := by
    intro l f
    induction l with
    | nil => intro a _ h; exact h
    | cons x l ih => intro a h1 h2; exact ih _ h1 (h1 _ _ h2)
  exact hf _ _ _ (fun a r ha => sound_rowFault ha) hS

theorem sound_pstRead {tr : Transport} {p : List Byte} {d : Dev} (hS : d.Sound) : (pstRead tr p d).2.Sound := by
  unfold pstRead
  dsimp only
  split
  · exact sound_pwFail hS
  · split <;> exact sound_rowsRead hS

theorem sound_hostRowStart {d : Dev} (hS : d.Sound) : (hostRowStart d).Sound := by
  unfold hostRowStart
  split
  · split
    · split
      · assumption
      · split
        · assumption
        · split
          · assumption
          · exact sound_supplyLow (by assumption)
    · assumption
  · assumption

theorem sound_pstWrite {tr : Transport} {p : List Byte} {d : Dev} (hS : d.Sound) : (pstWrite tr p d).2.Sound := by
  unfold pstWrite
  extract_lets +onlyGivenNames -underBinder d0
  clear_value d0
  extract_lets +onlyGivenNames -underBinder d2
  clear_value d2
  split
  · exact sound_pwFail (by assumption)
  · split
    · exact sound_ret (by assumption)
    · exact sound_mk (by assumption)

theorem sound_pstSetPassword {tr : Transport} {p : List Byte} {d : Dev} (hS : d.Sound) : (pstSetPassword tr p d).2.Sound := by
  unfold pstSetPassword
  extract_lets +onlyGivenNames -underBinder d0
  clear_value d0
  extract_lets +onlyGivenNames -underBinder d2
  clear_value d2
  extract_lets +onlyGivenNames -underBinder d4
  clear_value d4
  split
  · exact sound_pwFail (by assumption)
  · split
    · exact sound_ret (by assumption)
    · split
      · exact sound_ret (sound_supplyLow (by assumption))
      · extract_lets +onlyGivenNames -underBinder d6
        have h7 : d6.Sound := by
          dsimp -zeta only [d6]
          exact sound_fwWrite (by assumption)
        clear_value d6
        apply sound_ret
        split <;> assumption

theorem sound_eraseNext {d : Dev} (hS : d.Sound) : (eraseNext d).Sound := by
  unfold eraseNext
  extract_lets +onlyGivenNames -underBinder d0
  clear_value d0
  extract_lets +onlyGivenNames -underBinder d2i0 d2
  have h3 : d2.Sound := by
    dsimp -zeta only [d2]
    assumption
  clear_value d2
  split
  · assumption
  · split
    · assumption
    · exact sound_fwPut (by assumption)

theorem sound_eraseStart {sector : ℕ} {d : Dev} (hS : d.Sound) : (eraseStart sector d).Sound := by
  unfold eraseStart
  extract_lets +onlyGivenNames -underBinder d0i0 d0
  have h1 : d0.Sound := by
    dsimp -zeta only [d0]
    assumption
  split
  · exact sound_eraseNext (sound_fwPut (by assumption))
  · assumption

theorem sound_eraseAsk {sector : ℕ} {d : Dev} (hS : d.Sound) : (eraseAsk sector d).Sound := by
  unfold eraseAsk
  exact sound_eraseNext (by assumption)

theorem sound_hostRowDone {d : Dev} (hS : d.Sound) : (hostRowDone d).Sound := by
  unfold hostRowDone
  split
  · split
    · extract_lets +onlyGivenNames -underBinder d0i0 d0
      have h1 : d0.Sound := by
        dsimp -zeta only [d0]
        exact sound_fwWrite (by assumption)
      clear_value d0
      extract_lets +onlyGivenNames -underBinder d2
      clear_value d2
      exact sound_hostRowStart (sound_progSet (by assumption))
    · assumption
  · assumption

theorem sound_rowWriteDone {d : Dev} (hS : d.Sound) : (rowWriteDone d).Sound := by
  unfold rowWriteDone
  split
  · assumption
  · split
    · exact sound_hostRowDone (by assumption)
    · split
      · assumption
      · extract_lets +onlyGivenNames -underBinder d0i0 d0
        have h1 : d0.Sound := by
          dsimp -zeta only [d0]
          exact sound_fwWrite (by assumption)
        clear_value d0
        extract_lets +onlyGivenNames -underBinder d2
        have h3 : d2.Sound := by
          dsimp -zeta only [d2]
          split
          · exact sound_eraseStart (by assumption)
          · assumption
        clear_value d2
        split
        · exact sound_hostRowStart (by assumption)
        · exact sound_pstStart (by assumption)

theorem sound_logProgram {a : Nat} {bs : List Byte} {d : Dev} (hS : d.Sound) : (logProgram a bs d).Sound := by
  obtain ⟨a1, a2, a3, a4, a5, a6, a7, a8, a9, a10, a11, a12⟩ := hS
  exact ⟨a1, a2, a3, a4, a5, a6, a7, a8, a9, a10, twf_foldl_tset _ _ _ _ a11, a12⟩

theorem sound_imgProgram {a : Nat} {bs : List Byte} {d : Dev} (hS : d.Sound) : (imgProgram a bs d).Sound := by
  obtain ⟨a1, a2, a3, a4, a5, a6, a7, a8, a9, a10, a11, a12⟩ := hS
  exact ⟨a1, a2, a3, a4, a5, a6, a7, a8, a9, twf_foldl_tset _ _ _ _ a10, a11, a12⟩

theorem sound_sectorErase {sector : Nat} {d : Dev} (hS : d.Sound) : (sectorErase sector d).Sound := by
  obtain ⟨a1, a2, a3, a4, a5, a6, a7, a8, a9, a10, a11, a12⟩ := hS
  exact ⟨a1, a2, a3, a4, a5, a6, a7, a8, a9, twf_filter _ _ a10, twf_filter _ _ a11, a12⟩

theorem sound_eraseDone {ok : Bool} {d : Dev} (hS : d.Sound) : (eraseDone ok d).Sound := by
  unfold eraseDone
  split
  · assumption
  · split
    · exact sound_flashKick (sound_eraseNext (sound_fwPut (sound_sectorErase (by assumption))))
    · exact sound_eraseStart (sound_post (by assumption))

theorem sound_pageNext {d : Dev} (hS : d.Sound) : (pageNext d).Sound := by
  unfold pageNext
  extract_lets +onlyGivenNames -underBinder d0
  clear_value d0
  extract_lets +onlyGivenNames -underBinder d2i0 d2
  have h3 : d2.Sound := by
    dsimp -zeta only [d2]
    assumption
  clear_value d2
  split
  · exact sound_eraseAsk (by assumption)
  · assumption

theorem sound_waitSet {d : Dev} (hS : d.Sound) : (waitSet d).Sound := by
  unfold waitSet
  extract_lets +onlyGivenNames -underBinder d0
  clear_value d0
  assumption

theorem sound_partBad {slot : ℕ} {a : ℕ} {d : Dev} (hS : d.Sound) : (partBad slot a d).Sound := by
  unfold partBad
  exact sound_post (sound_post (by assumption))

theorem sound_partPageBad {d : Dev} (hS : d.Sound) : (partPageBad d).Sound := by
  unfold partPageBad
  split
  · split
    · exact sound_cmdEnd (sound_partBad (by assumption))
    · assumption
  · assumption

theorem sound_pageDone {ok : Bool} {d : Dev} (hS : d.Sound) : (pageDone ok d).Sound := by
  unfold pageDone
  split
  · split
    · exact hS
    · exact sound_partPageBad hS
  · refine sound_flashKick (sound_pageNext ?_)
    split
    · refine sound_logProgram ?_
      obtain ⟨a1, a2, a3, a4⟩ := hS
      refine ⟨a1, a2, ?_, a4⟩
      rw [List.length_drop]
      omega
    · exact sound_post hS

theorem sound_headerLoad {slot : Nat} {d : Dev} (hS : d.Sound) : (headerLoad slot d).Sound := by
  have h1 : ∀ (x y : Nat) (e : Dev), e.Sound → Dev.Sound { e with bfl.version1 := x, bfl.sec1 := y } := fun _ _ _ h => h
  have h2 : ∀ (x y : Nat) (e : Dev), e.Sound → Dev.Sound { e with bfl.version2 := x, bfl.sec2 := y } := fun _ _ _ h => h
  unfold headerLoad
  dsimp only
  split
  · exact h1 _ _ _ hS
  · exact h2 _ _ _ hS

theorem sound_transferFw {progOk : Bool} {hashOk : Bool} {sigOk : Bool} {p : List Byte} {d : Dev} (hS : d.Sound) : (transferFw progOk hashOk sigOk p d).2.Sound := by
  unfold transferFw
  extract_lets +onlyGivenNames -underBinder d0
  clear_value d0
  extract_lets +onlyGivenNames -underBinder d2
  clear_value d2
  extract_lets +onlyGivenNames -underBinder d4
  clear_value d4
  extract_lets +onlyGivenNames -underBinder d6
  clear_value d6
  split
  · exact sound_ret (by assumption)
  · split
    · exact sound_ret (by assumption)
    · split
      · exact sound_ret (by assumption)
      · split
        · split
          · exact sound_ret (by assumption)
          · exact sound_ret (sound_post (by assumption))
        · extract_lets +onlyGivenNames -underBinder d8
          split
          · exact sound_ret (by assumption)
          · split
            · exact sound_ret (by assumption)
            · split
              · exact sound_ret (sound_of_some2 (by assumption) (sound_secRefused (by assumption)))
              · extract_lets +onlyGivenNames -underBinder d10
                have h11 : d10.Sound := by
                  dsimp -zeta only [d10]
                  split
                  · exact sound_fwWrite (by assumption)
                  · assumption
                clear_value d10
                extract_lets +onlyGivenNames -underBinder d12
                have h13 : d12.Sound := by
                  dsimp -zeta only [d12]
                  refine sound_foldl _ ?_ fun d14 a15 h16 => ?_
                  · assumption
                  · exact sound_eraseAsk (by assumption)
                clear_value d12
                exact sound_mk (by assumption)

theorem sound_partEnd {slot : ℕ} {off : ℕ} {last : Bool} {data : List Byte} {progOk : Bool} {hashOk : Bool} {sigOk : Bool} {d : Dev} (hS : d.Sound) : SoundO2 (partEnd slot off last data progOk hashOk sigOk d) := by
  unfold partEnd
  extract_lets +onlyGivenNames -underBinder d0
  clear_value d0
  split
  · apply soundO2_none
  · split
    · exact soundO2_some (sound_mk (sound_partBad (by assumption)))
    · extract_lets +onlyGivenNames -underBinder d2i0 d2i1 d2
      have h3 : d2.Sound := by
        dsimp -zeta only [d2]
        exact sound_imgProgram (by assumption)
      clear_value d2
      split
      · exact soundO2_some (sound_mk (by assumption))
      · extract_lets +onlyGivenNames -underBinder d4
        have h5 : d4.Sound := by
          dsimp -zeta only [d4]
          exact sound_headerLoad (by assumption)
        clear_value d4
        extract_lets +onlyGivenNames -underBinder d6
        clear_value d6
        split
        · exact soundO2_some (sound_mk (sound_post (by assumption)))
        · apply soundO2_some
          split
          · exact sound_of_some2 (by assumption) (sound_secRefused (by assumption))
          · exact sound_mk (sound_fwWrite (by assumption))

theorem sound_activateFw {sigOk : Bool} {p : List Byte} {d : Dev} (hS : d.Sound) : (activateFw sigOk p d).2.Sound := by
  unfold activateFw
  extract_lets +onlyGivenNames -underBinder d0
  clear_value d0
  split
  · exact sound_ret (by assumption)
  · split
    · exact sound_ret (by assumption)
    · split
      · exact sound_ret (by assumption)
      · split
        · exact sound_ret (sound_of_some2 (by assumption) (sound_secRefused (by assumption)))
        · extract_lets +onlyGivenNames -underBinder d2i0 d2i1 d2
          have h3 : d2.Sound := by
            dsimp -zeta only [d2]
            refine sound_upd (d := d2i0) rfl rfl rfl rfl rfl rfl rfl id rfl rfl id id id id ?_
            dsimp -zeta only [d2i0]
            exact sound_fwWrite (by assumption)
          clear_value d2
          split
          · exact sound_ret (by assumption)
          · exact sound_mk (by assumption)

theorem sound_activateEnd {slot : ℕ} {d : Dev} (hS : d.Sound) : (activateEnd slot d).Sound := by
  unfold activateEnd
  extract_lets +onlyGivenNames -underBinder d0
  have h1 : d0.Sound := by
    dsimp -zeta only [d0]
    split
    · assumption
    · exact sound_fwNow (by assumption)
  clear_value d0
  assumption

theorem sound_fwWp {asserted : Bool} {d : Dev} (hS : d.Sound) : (fwWp asserted d).Sound := by
  unfold fwWp
  extract_lets +onlyGivenNames -underBinder d0i0 d0
  have h1 : d0.Sound := by
    dsimp -zeta only [d0]
    assumption
  clear_value d0
  split
  · split
    · split
      · exact sound_cmdEnd (sound_post (by assumption))
      · assumption
    · assumption
  · assumption

theorem sound_readFlashLog {p : List Byte} {d : Dev} (hS : d.Sound) : (readFlashLog p d).2.Sound := by
  unfold readFlashLog
  extract_lets +onlyGivenNames -underBinder d0
  clear_value d0
  extract_lets +onlyGivenNames -underBinder d2
  clear_value d2
  extract_lets +onlyGivenNames -underBinder d4
  clear_value d4
  extract_lets +onlyGivenNames -underBinder d6
  clear_value d6
  extract_lets +onlyGivenNames -underBinder d8
  clear_value d8
  extract_lets +onlyGivenNames -underBinder d10
  clear_value d10
  exact sound_ans (by assumption)

theorem sound_setMinSec {p : List Byte} {d : Dev} (hS : d.Sound) : (setMinSec p d).2.Sound := by
  unfold setMinSec
  extract_lets +onlyGivenNames -underBinder d0
  clear_value d0
  split
  · exact sound_ret (by assumption)
  · split
    · exact sound_ret (sound_of_some2 (by assumption) (sound_secRefused (by assumption)))
    · exact sound_ret (sound_fwWrite (by assumption))

end Sys2Proof.Machine
end

