-- ==== Sys2Proof/Laws/SoundRecorder.lean ====
section
/-! SUPPORT. Laws/SoundRecorder.lean: the operations of Recorder.lean keep the node's stores in order. -/

namespace Sys2Proof.Machine

set_option linter.unusedVariables false

theorem sound_postSummary {code sup ms : Nat} {d : Dev} (hS : d.Sound) : (postSummary code sup ms d).Sound := by
  unfold postSummary
  split
  · obtain ⟨h1, h2⟩ := hS
    refine ⟨?_, h2⟩
    dsimp only
    rw [List.length_append, List.length_singleton]
    omega
  · exact hS

theorem sound_compatEnd {d : Dev} (hS : d.Sound) : (compatEnd d).Sound := by
  unfold compatEnd
  extract_lets +onlyGivenNames -underBinder d0
  have h1 : d0.Sound := by
    dsimp -zeta only [d0]
    refine sound_foldl _ ?_ fun d2 a3 h4 => ?_
    · assumption
    · split
      · assumption
      · exact sound_postSummary (by assumption)
  clear_value d0
  assumption

theorem sound_histEnd {d : Dev} (hS : d.Sound) : (histEnd d).Sound := by
  unfold histEnd
  assumption

theorem sound_freezeExpired {d : Dev} (hS : d.Sound) : (freezeExpired d).Sound := by
  unfold freezeExpired
  split
  · exact sound_post (sound_thaw (by assumption))
  · assumption

theorem sound_freezeLog {on' : Bool} {d : Dev} (hS : d.Sound) : (freezeLog on' d).Sound := by
  unfold freezeLog
  split
  · exact sound_thaw (by assumption)
  · split <;> assumption

theorem sound_readLog {p : List Byte} {d : Dev} (hS : d.Sound) : (readLog p d).2.Sound := by
  unfold readLog
  extract_lets +onlyGivenNames -underBinder d0
  clear_value d0
  extract_lets +onlyGivenNames -underBinder d2
  clear_value d2
  extract_lets +onlyGivenNames -underBinder d4
  clear_value d4
  extract_lets +onlyGivenNames -underBinder d6
  clear_value d6
  exact sound_ans (by assumption)

theorem sound_readProtected {p : List Byte} {d : Dev} (hS : d.Sound) : (readProtected p d).2.Sound := by
  unfold readProtected
  extract_lets +onlyGivenNames -underBinder d0
  clear_value d0
  extract_lets +onlyGivenNames -underBinder d2
  clear_value d2
  extract_lets +onlyGivenNames -underBinder d4
  clear_value d4
  exact sound_ans (by assumption)

theorem sound_clearProtected {tr : Transport} {d : Dev} (hS : d.Sound) : (clearProtected tr d).Sound := by
  refine sound_post ?_
  obtain ⟨h1, _, h3⟩ := hS
  exact ⟨h1, Nat.zero_le _, h3⟩

end Sys2Proof.Machine
end

