-- ==== Sys2Proof/Laws/SoundMbxStd.lean ====
section
/-! SUPPORT. Laws/SoundMbxStd.lean: the operations of MbxStd.lean keep the node's stores in order. -/

namespace Sys2Proof.Machine

set_option linter.unusedVariables false

theorem sound_getLog {p : List Byte} {d : Dev} (hS : d.Sound) : (getLog p d).2.Sound := by
  unfold getLog
  extract_lets +onlyGivenNames -underBinder d0
  clear_value d0
  extract_lets +onlyGivenNames -underBinder d2
  clear_value d2
  split
  · exact sound_ret (by assumption)
  · exact sound_ans (by assumption)

theorem sound_alertEval {d : Dev} (hS : d.Sound) : (alertEval d).Sound := by
  unfold alertEval
  extract_lets +onlyGivenNames -underBinder d0
  clear_value d0
  extract_lets +onlyGivenNames -underBinder d2
  clear_value d2
  extract_lets +onlyGivenNames -underBinder d4i0 d4
  have h5 : d4.Sound := by
    dsimp -zeta only [d4]
    assumption
  clear_value d4
  split
  · exact sound_emit (sound_emit (by assumption))
  · assumption

theorem sound_setAlerts {p : List Byte} {d : Dev} (hS : d.Sound) : (setAlerts p d).Sound := by
  unfold setAlerts
  extract_lets +onlyGivenNames -underBinder d0
  clear_value d0
  extract_lets +onlyGivenNames -underBinder d2
  clear_value d2
  extract_lets +onlyGivenNames -underBinder d4
  clear_value d4
  exact sound_alertEval (by assumption)

theorem sound_logDrop {log : Nat} {keep : CxlEv → Bool} {d : Dev} (hS : d.Sound) : (logDrop log keep d).Sound := by
  obtain ⟨a1, a2, a3, a4, a5, a6, a7⟩ := hS
  have h4 := Nat.le_trans (List.length_filter_le keep d.mbx.warnLog) a4
  have h5 := Nat.le_trans (List.length_filter_le keep d.mbx.failLog) a5
  have h6 := Nat.le_trans (List.length_filter_le keep d.mbx.fatalLog) a6
  unfold logDrop
  dsimp only
  split
  · exact ⟨a1, a2, a3, h4, a5, a6, a7⟩
  · exact ⟨a1, a2, a3, a4, h5, a6, a7⟩
  · exact ⟨a1, a2, a3, a4, a5, h6, a7⟩
  · exact ⟨a1, a2, a3, a4, a5, a6, a7⟩

theorem sound_clearEvents {p : List Byte} {d : Dev} (hS : d.Sound) : (clearEvents p d).2.Sound := by
  unfold clearEvents
  extract_lets +onlyGivenNames -underBinder d0
  clear_value d0
  extract_lets +onlyGivenNames -underBinder d2
  clear_value d2
  split
  · exact sound_ret (sound_logDrop (by assumption))
  · split
    · exact sound_ret (by assumption)
    · split
      · exact sound_ret (by assumption)
      · exact sound_ret (sound_logDrop (by assumption))

theorem sound_setPolicy {p : List Byte} {d : Dev} (hS : d.Sound) : (setPolicy p d).Sound := by
  unfold setPolicy
  assumption

theorem sound_jumpStamps {a : ℤ} {d : Dev} (hS : d.Sound) : (jumpStamps a d).Sound := by
  unfold jumpStamps
  extract_lets +onlyGivenNames -underBinder d0
  clear_value d0
  extract_lets +onlyGivenNames -underBinder d2
  clear_value d2
  refine sound_upd (d := d) rfl rfl rfl rfl rfl rfl rfl ?_ rfl rfl ?_ ?_ ?_ ?_ ?_
  · intro a4
    assumption
  · intro a5
    assumption
  · intro a6
    assumption
  · intro a7
    (dsimp only; refine twf_tmap _ _ ?_)
    assumption
  · intro a8
    assumption
  · assumption

theorem sound_setTime {ns : ℕ} {d : Dev} (hS : d.Sound) : (setTime ns d).Sound := by
  unfold setTime
  extract_lets +onlyGivenNames -underBinder d0
  clear_value d0
  extract_lets +onlyGivenNames -underBinder d2
  clear_value d2
  extract_lets +onlyGivenNames -underBinder d4
  clear_value d4
  extract_lets +onlyGivenNames -underBinder d6i0 d6
  have h7 : d6.Sound := by
    dsimp -zeta only [d6]
    apply sound_histEnd
    apply sound_compatEnd
    refine sound_upd (d := d6i0) rfl rfl rfl rfl rfl rfl rfl id rfl rfl id id id id ?_
    dsimp -zeta only [d6i0]
    exact sound_sliceBoundary (by assumption)
  clear_value d6
  extract_lets +onlyGivenNames -underBinder d8i0 d8i1 d8
  have h9 : d8.Sound := by
    dsimp -zeta only [d8]
    exact sound_jumpStamps (by assumption)
  clear_value d8
  extract_lets +onlyGivenNames -underBinder d10
  have h11 : d10.Sound := by
    dsimp -zeta only [d10]
    exact sound_periodStart (by assumption)
  clear_value d10
  assumption

theorem sound_getPoison {p : List Byte} {d : Dev} (hS : d.Sound) : (getPoison p d).2.Sound := by
  unfold getPoison
  extract_lets +onlyGivenNames -underBinder d0
  clear_value d0
  extract_lets +onlyGivenNames -underBinder d2
  clear_value d2
  split
  · exact sound_ret (by assumption)
  · split
    extract_lets +onlyGivenNames -underBinder d4
    clear_value d4
    extract_lets +onlyGivenNames -underBinder d6
    clear_value d6
    extract_lets +onlyGivenNames -underBinder d8i0 d8
    have h9 : d8.Sound := by
      dsimp -zeta only [d8]
      assumption
    clear_value d8
    exact sound_ans (by assumption)

theorem sound_scanStart {p : List Byte} {d : Dev} (hS : d.Sound) : (scanStart p d).2.Sound := by
  unfold scanStart
  extract_lets +onlyGivenNames -underBinder d0
  clear_value d0
  extract_lets +onlyGivenNames -underBinder d2
  clear_value d2
  split
  · exact sound_ret (by assumption)
  · extract_lets +onlyGivenNames -underBinder d4
    clear_value d4
    extract_lets +onlyGivenNames -underBinder d6
    clear_value d6
    extract_lets +onlyGivenNames -underBinder d8
    clear_value d8
    exact sound_mk (by assumption)

theorem sound_scanEnd {first : ℕ} {last : ℕ} {whole : Bool} {d : Dev} (hS : d.Sound) : (scanEnd first last whole d).Sound := by
  unfold scanEnd
  extract_lets +onlyGivenNames -underBinder d0
  clear_value d0
  extract_lets +onlyGivenNames -underBinder d2i0 d2
  have h3 : d2.Sound := by
    dsimp -zeta only [d2]
    assumption
  clear_value d2
  split <;> assumption

theorem sound_scanResults {d : Dev} (hS : d.Sound) : (scanResults d).2.Sound := by
  unfold scanResults
  split
  extract_lets +onlyGivenNames -underBinder d0
  clear_value d0
  extract_lets +onlyGivenNames -underBinder d2
  clear_value d2
  exact sound_ans (by assumption)

end Sys2Proof.Machine
end

