-- ==== Sys2Proof/Laws/SoundMbxNode.lean ====
section
/-! SUPPORT. Laws/SoundMbxNode.lean: the operations of MbxNode.lean keep the node's stores in order. -/

namespace Sys2Proof.Machine

set_option linter.unusedVariables false

theorem sound_setRingIndex {i : ℕ} {d : Dev} (hS : d.Sound) : (setRingIndex i d).2.Sound := by
  unfold setRingIndex
  extract_lets +onlyGivenNames -underBinder d0
  clear_value d0
  split
  · exact sound_ret (by assumption)
  · split
    · exact sound_ret (sound_of_some2 (by assumption) (sound_secRefused (by assumption)))
    · extract_lets +onlyGivenNames -underBinder d2
      clear_value d2
      extract_lets +onlyGivenNames -underBinder d4
      have h5 : d4.Sound := by
        dsimp -zeta only [d4]
        exact sound_fwWrite (by assumption)
      clear_value d4
      exact sound_ret (by assumption)

theorem sound_ringRekey {d : Dev} (hS : d.Sound) : (ringRekey d).2.Sound := by
  unfold ringRekey
  split
  · exact sound_ret (by assumption)
  · split
    · exact sound_ret (by assumption)
    · exact sound_mk (sound_epochAsk (by assumption))

theorem sound_ringLeave {d : Dev} (hS : d.Sound) : (ringLeave d).2.Sound := by
  unfold ringLeave
  split
  · exact sound_ret (by assumption)
  · exact sound_mk (sound_leaveStart (by assumption))

theorem sound_ringRejoin {d : Dev} (hS : d.Sound) : (ringRejoin d).2.Sound := by
  unfold ringRejoin
  split
  · exact sound_ret (by assumption)
  · split
    · exact sound_ret (by assumption)
    · split
      · exact sound_ret (by assumption)
      · exact sound_mk (sound_frame (by assumption))

theorem sound_clearScratch {p : List Byte} {d : Dev} (hS : d.Sound) : (clearScratch p d).2.Sound := by
  unfold clearScratch
  extract_lets +onlyGivenNames -underBinder d0
  clear_value d0
  extract_lets +onlyGivenNames -underBinder d2
  clear_value d2
  extract_lets +onlyGivenNames -underBinder d4
  clear_value d4
  split
  · exact sound_ret (by assumption)
  · exact sound_mk (by assumption)

theorem sound_scratchZero {lo hi : Nat} {d : Dev} (hS : d.Sound) : (scratchZero lo hi d).Sound := by
  obtain ⟨a1, a2, a3, a4, a5, a6, a7, a8, a9, a10⟩ := hS
  exact ⟨a1, a2, a3, a4, a5, a6, a7, a8, twf_filter _ _ a9, a10⟩

theorem sound_releaseRange {p : List Byte} {d : Dev} (hS : d.Sound) : (releaseRange p d).2.Sound := by
  unfold releaseRange
  extract_lets +onlyGivenNames -underBinder d0
  clear_value d0
  extract_lets +onlyGivenNames -underBinder d2
  clear_value d2
  extract_lets +onlyGivenNames -underBinder d4
  clear_value d4
  split
  · exact sound_ret (by assumption)
  · exact sound_mk (by assumption)

theorem sound_shedCapacity {p : List Byte} {d : Dev} (hS : d.Sound) : (shedCapacity p d).2.Sound := by
  unfold shedCapacity
  extract_lets +onlyGivenNames -underBinder d0
  clear_value d0
  extract_lets +onlyGivenNames -underBinder d2
  clear_value d2
  split
  · exact sound_ret (by assumption)
  · split
    · exact sound_ret (by assumption)
    · exact sound_mk (by assumption)

theorem sound_shedEnd {top : ℕ} {d : Dev} (hS : d.Sound) : (shedEnd top d).2.Sound := by
  unfold shedEnd
  extract_lets +onlyGivenNames -underBinder d0
  clear_value d0
  extract_lets +onlyGivenNames -underBinder d2i0 d2
  have h3 : d2.Sound := by
    dsimp -zeta only [d2]
    assumption
  clear_value d2
  split
  · exact sound_of_some2 (by assumption) (sound_secRefused (by assumption))
  · refine sound_mk ?_
    apply sound_admitEval
    apply sound_post
    extract_lets +onlyGivenNames -underBinder d4
    have h5 : d4.Sound := by
      dsimp -zeta only [d4]
      exact sound_fwWrite (by assumption)
    clear_value d4
    assumption

theorem sound_clearRefused {d : Dev} (hS : d.Sound) : (clearRefused d).2.Sound := by
  unfold clearRefused
  split
  · exact sound_ret (by assumption)
  · split
    · exact sound_ret (sound_of_some2 (by assumption) (sound_secRefused (by assumption)))
    · apply sound_ret
      apply sound_post
      extract_lets +onlyGivenNames -underBinder d0
      have h1 : d0.Sound := by
        dsimp -zeta only [d0]
        exact sound_fwWrite (by assumption)
      clear_value d0
      assumption

theorem sound_ledgerSnapshot {p : List Byte} {d : Dev} (hS : d.Sound) : (ledgerSnapshot p d).2.Sound := by
  unfold ledgerSnapshot
  apply sound_ans
  split
  · exact sound_ovrClear (sound_xtrmClear (by assumption))
  · assumption

theorem sound_dmaLine {master : ℕ} {ts : Trouble} {k : ℕ} {d : Dev} (hS : d.Sound) : (dmaLine master ts k d).2.2.Sound := by
  have hc : ∀ c, Dev.Sound { d with sec.cnt := c } := fun _ => hS
  unfold dmaLine
  dsimp only
  split
  · exact sound_post (hc _)
  · exact sound_backRead hS

theorem sound_memLines (ts : Trouble) (ks : List ℕ) : ∀ {out : List Byte} {d : Dev}, d.Sound → (memLines ts ks out d).2.2.Sound := by
  induction ks with
  | nil => intro out d h; exact h
  | cons k ks ih =>
    intro out d h
    have hd := sound_dmaLine (master := 0) (ts := ts) (k := k) h
    unfold memLines
    split
    · rename_i hx
      exact ih (sound_of_eq3 hx hd)
    · rename_i hx
      exact sound_of_eq3 hx hd

theorem sound_memTake {k : ℕ} {n : ℕ} {ts : Trouble} {d : Dev} (hS : d.Sound) : (memTake k n ts d).2.Sound := by
  unfold memTake
  extract_lets +onlyGivenNames -underBinder d0
  clear_value d0
  split
  split
  · refine sound_mk ?_
    refine sound_of_eq (by assumption) ?_
    apply sound_probesWait
    assumption
  · split
    refine sound_mk ?_
    refine sound_of_eq3 (by assumption) ?_
    apply sound_memLines
    refine sound_of_eq (by assumption) ?_
    apply sound_probesWait
    assumption

theorem sound_memRead {ts : Trouble} {p : List Byte} {d : Dev} (hS : d.Sound) : (memRead ts p d).2.Sound := by
  unfold memRead
  extract_lets +onlyGivenNames -underBinder d0
  clear_value d0
  extract_lets +onlyGivenNames -underBinder d2
  clear_value d2
  extract_lets +onlyGivenNames -underBinder d4
  clear_value d4
  split
  · exact sound_ret (by assumption)
  · split
    · exact sound_ans (sound_of_eq (by assumption) (sound_memTake (by assumption)))
    · exact sound_mk (sound_of_eq (by assumption) (sound_memTake (by assumption)))

theorem sound_debugRead {ts : Trouble} {a : ℕ} {d : Dev} (hS : d.Sound) : (debugRead ts a d).Sound := by
  unfold debugRead
  split
  · assumption
  · split
    · exact sound_emit (by assumption)
    · split
      · exact sound_emit (sound_beyondLimit (by assumption))
      · split <;> exact sound_emit (sound_of_eq3 (by assumption) (sound_dmaLine (by assumption)))

end Sys2Proof.Machine
end

