-- ==== Sys2Proof/Laws/SoundPower.lean ====
section
/-! SUPPORT. Laws/SoundPower.lean: the operations of Power.lean keep the node's stores in order. -/

namespace Sys2Proof.Machine

set_option linter.unusedVariables false

theorem sound_monFail {rail : ℕ} {cause : ℕ} {mw : ℕ} {d : Dev} (hS : d.Sound) : (monFail rail cause mw d).Sound := by
  unfold monFail
  split
  · assumption
  · exact sound_post (by assumption)

theorem sound_monitorConversion {rail : ℕ} {mw : ℕ} {d : Dev} (hS : d.Sound) : (monitorConversion rail mw d).Sound := by
  unfold monitorConversion
  split
  · assumption
  · split
    · exact sound_monFail (by assumption)
    · assumption

theorem sound_supplyOut {mv : ℕ} {d : Dev} (hS : d.Sound) : (supplyOut mv d).Sound := by
  unfold supplyOut
  split
  · assumption
  · split
    · assumption
    · split
      · assumption
      · exact sound_post (by assumption)

theorem sound_overvoltage {d : Dev} (hS : d.Sound) : (overvoltage d).Sound := by
  unfold overvoltage
  split
  · assumption
  · split
    extract_lets +onlyGivenNames -underBinder d0
    clear_value d0
    apply sound_haltEntry
    apply sound_post
    rename_i r2 r3
    refine sound_upd (d := r2) rfl rfl rfl rfl rfl rfl rfl id rfl rfl id id id id ?_
    exact sound_of_eq (by assumption) (sound_draw (by assumption))

theorem sound_throttlePost {old : ℕ} {d : Dev} (hS : d.Sound) : (throttlePost old d).Sound := by
  unfold throttlePost
  extract_lets +onlyGivenNames -underBinder d0
  clear_value d0
  extract_lets +onlyGivenNames -underBinder d2
  have h3 : ∀ d2a0 ed2, ed2.Sound → (d2 d2a0 ed2).Sound := by
    intro d2a0 ed2 hed2
    dsimp -zeta only [d2]
    exact sound_post (by assumption)
  clear_value d2
  split
  · solve_by_elim
  · split
    · solve_by_elim
    · assumption

theorem sound_auxReset {d : Dev} (hS : d.Sound) : (auxReset d).Sound := by
  unfold auxReset
  split
  · assumption
  · split
    apply sound_throttlePost
    rename_i r0 r1
    refine sound_upd (d := r0) rfl rfl rfl rfl rfl rfl rfl id rfl rfl id id id id ?_
    exact sound_of_eq (by assumption) (sound_draw (by assumption))

theorem sound_auxBack {mv : ℕ} {d : Dev} (hS : d.Sound) : (auxBack mv d).Sound := by
  unfold auxBack
  split
  · assumption
  · split
    · assumption
    · extract_lets +onlyGivenNames -underBinder d0i0 d0i1 d0
      have h1 : d0.Sound := by
        dsimp -zeta only [d0]
        assumption
      clear_value d0
      split
      · exact sound_pstStart (sound_post (by assumption))
      · assumption

theorem sound_clockFault {source : ℕ} {d : Dev} (hS : d.Sound) : (clockFault source d).Sound := by
  unfold clockFault
  split
  · assumption
  · extract_lets +onlyGivenNames -underBinder d0
    clear_value d0
    extract_lets +onlyGivenNames -underBinder d2i0 d2
    have h3 : d2.Sound := by
      dsimp -zeta only [d2]
      exact sound_post (by assumption)
    clear_value d2
    split
    · assumption
    · apply sound_haltEntry
      split
      · exact sound_hostDown (by assumption)
      · assumption

theorem sound_thermalTrip {point : ℕ} {d : Dev} (hS : d.Sound) : (thermalTrip point d).Sound := by
  unfold thermalTrip
  split
  · exact sound_tripFollow (by assumption)
  · extract_lets +onlyGivenNames -underBinder d0
    clear_value d0
    extract_lets +onlyGivenNames -underBinder d2
    clear_value d2
    extract_lets +onlyGivenNames -underBinder d4
    clear_value d4
    extract_lets +onlyGivenNames -underBinder d6
    clear_value d6
    split
    · assumption
    · extract_lets +onlyGivenNames -underBinder d8i0 d8i1 d8
      have h9 : d8.Sound := by
        dsimp -zeta only [d8]
        exact sound_post (by assumption)
      clear_value d8
      split
      · exact sound_tripFollow (by assumption)
      · exact sound_haltEntry (by assumption)

theorem sound_thermalStep {d : Dev} (hS : d.Sound) : (thermalStep d).Sound := by
  unfold thermalStep
  split
  · assumption
  · extract_lets +onlyGivenNames -underBinder d0i0 d0
    have h1 : d0.Sound := by
      dsimp -zeta only [d0]
      assumption
    clear_value d0
    extract_lets +onlyGivenNames -underBinder d2i0 d2
    have h3 : d2.Sound := by
      dsimp -zeta only [d2]
      assumption
    clear_value d2
    extract_lets +onlyGivenNames -underBinder d4i0 d4
    have h5 : d4.Sound := by
      dsimp -zeta only [d4]
      assumption
    clear_value d4
    extract_lets +onlyGivenNames -underBinder d6
    have h7 : d6.Sound := by
      dsimp -zeta only [d6]
      split
      · split
        · assumption
        · exact sound_thermalTrip (by assumption)
      · assumption
    clear_value d6
    exact sound_alertEval (by assumption)

theorem sound_limitApply {busy : ℕ} {d : Dev} (hS : d.Sound) : (limitApply busy d).Sound := by
  unfold limitApply
  extract_lets +onlyGivenNames -underBinder d0
  clear_value d0
  extract_lets +onlyGivenNames -underBinder d2
  clear_value d2
  extract_lets +onlyGivenNames -underBinder d4
  clear_value d4
  extract_lets +onlyGivenNames -underBinder d6
  clear_value d6
  extract_lets +onlyGivenNames -underBinder d8
  clear_value d8
  split
  extract_lets +onlyGivenNames -underBinder d10
  clear_value d10
  extract_lets +onlyGivenNames -underBinder d12i0 d12i1 d12
  have h13 : d12.Sound := by
    dsimp -zeta only [d12]
    assumption
  clear_value d12
  exact sound_postIf (by assumption)

theorem sound_limitEval {busy : ℕ} {d : Dev} (hS : d.Sound) : (limitEval busy d).Sound := by
  unfold limitEval
  split
  · assumption
  · extract_lets +onlyGivenNames -underBinder d0
    clear_value d0
    extract_lets +onlyGivenNames -underBinder d2
    clear_value d2
    extract_lets +onlyGivenNames -underBinder d4
    clear_value d4
    extract_lets +onlyGivenNames -underBinder d6
    clear_value d6
    exact sound_limitApply (sound_throttlePost (by assumption))

theorem sound_testStart {d : Dev} (hS : d.Sound) : (testStart d).Sound := by
  unfold testStart
  split
  · assumption
  · split <;> assumption

theorem sound_testIfDue {d : Dev} (hS : d.Sound) : (testIfDue d).Sound := by
  unfold testIfDue
  split
  · exact sound_testStart (by assumption)
  · assumption

theorem sound_storeSet {em : ℕ} {d : Dev} (hS : d.Sound) : (storeSet em d).Sound := by
  unfold storeSet
  exact sound_fwPut (by assumption)

theorem sound_testFailed {d : Dev} (hS : d.Sound) : (testFailed d).Sound := by
  unfold testFailed
  exact sound_storeSet (sound_post (by assumption))

theorem sound_unfurlEnd {em : ℕ} {occAfter : ℕ} {d : Dev} (hS : d.Sound) : (unfurlEnd em occAfter d).Sound := by
  unfold unfurlEnd
  extract_lets +onlyGivenNames -underBinder d0
  clear_value d0
  extract_lets +onlyGivenNames -underBinder d2i0 d2i1 d2
  have h3 : d2.Sound := by
    dsimp -zeta only [d2]
    assumption
  clear_value d2
  extract_lets +onlyGivenNames -underBinder d4
  have h5 : d4.Sound := by
    dsimp -zeta only [d4]
    exact sound_post (by assumption)
  clear_value d4
  exact sound_postIf (by assumption)

theorem sound_testMeasured {stepMv : ℕ} {us : ℕ} {d : Dev} (hS : d.Sound) : (testMeasured stepMv us d).Sound := by
  unfold testMeasured
  split
  · assumption
  · split
    · exact sound_testFailed (by assumption)
    · extract_lets +onlyGivenNames -underBinder d0
      clear_value d0
      extract_lets +onlyGivenNames -underBinder d2i0 d2
      have h3 : d2.Sound := by
        dsimp -zeta only [d2]
        exact sound_storeSet (by assumption)
      clear_value d2
      extract_lets +onlyGivenNames -underBinder d4
      have h5 : d4.Sound := by
        dsimp -zeta only [d4]
        exact sound_post (by assumption)
      clear_value d4
      exact sound_postIf (by assumption)

theorem sound_testRecharged {d : Dev} (hS : d.Sound) : (testRecharged d).Sound := by
  unfold testRecharged
  split <;> assumption

end Sys2Proof.Machine
end

