-- ==== Sys2Proof/Laws/SoundStart.lean ====
section
/-! SUPPORT. Laws/SoundStart.lean: the operations of Start.lean keep the node's stores in order. -/

namespace Sys2Proof.Machine

set_option linter.unusedVariables false

theorem sound_protTake {l : List Rec} {d : Dev} (hS : d.Sound) : Dev.Sound { d with evr.prot := l.take 1024 } := by
  obtain ⟨a1, _, a3⟩ := hS
  exact ⟨a1, by rw [List.length_take]; exact Nat.min_le_left _ _, a3⟩

theorem sound_modeEnter {m : Mode} {cause : ℕ} {d : Dev} (hS : d.Sound) : (modeEnter m cause d).Sound := by
  unfold modeEnter
  exact sound_testIfDue (sound_enterMode (by assumption))

theorem sound_volatileReset {d : Dev} (hS : d.Sound) : (volatileReset d).Sound := by
  obtain ⟨a1, a2, a3, a4, a5, a6, a7, a8, a9, a10, a11, a12, a13, a14, a15⟩ := hS
  exact ⟨Nat.zero_le _, Nat.zero_le _, Nat.zero_le _, Nat.zero_le _, Nat.zero_le _, Nat.zero_le _, rfl,
    fun x hx => absurd (show x ∈ ([] : Tab Rec) from hx) List.not_mem_nil, rfl, a10, a11, rfl, a13, rfl, a15⟩

theorem sound_suppliesSeen {d : Dev} (hS : d.Sound) : (suppliesSeen d).Sound := by
  unfold suppliesSeen
  split
  split
  split
  rename_i r0 r1
  refine sound_upd (d := r0) rfl rfl rfl rfl rfl rfl rfl id rfl rfl id id id id ?_
  exact sound_of_eq (by assumption) (sound_draw (sound_of_eq (by assumption) (sound_draw (sound_of_eq (by assumption) (sound_draw (by assumption))))))

theorem sound_bootSlot {b : Boot} {d : Dev} (hS : d.Sound) : SoundO (bootSlot b d) := by
  unfold bootSlot
  extract_lets +onlyGivenNames -underBinder d0
  clear_value d0
  extract_lets +onlyGivenNames -underBinder d2
  clear_value d2
  extract_lets +onlyGivenNames -underBinder d4
  have h5 : ∀ d4a0 ed4, ed4.Sound → (d4 d4a0 ed4).Sound := by
    intro d4a0 ed4 hed4
    dsimp -zeta only [d4]
    extract_lets +onlyGivenNames -underBinder d6i0 d6
    have h7 : d6.Sound := by
      dsimp -zeta only [d6]
      exact sound_headerLoad (sound_headerLoad (by assumption))
    clear_value d6
    extract_lets +onlyGivenNames -underBinder d8
    clear_value d8
    extract_lets +onlyGivenNames -underBinder d10i0 d10i1 d10i2 d10
    have h11 : d10.Sound := by
      dsimp -zeta only [d10]
      assumption
    clear_value d10
    split
    · exact sound_fwPut (by assumption)
    · assumption
  clear_value d4
  split
  · apply soundO_some
    solve_by_elim
  · split
    · apply soundO_some
      apply sound_post
      apply sound_fwPut
      apply sound_fwPut
      extract_lets +onlyGivenNames -underBinder d12
      have h13 : d12.Sound := by
        dsimp -zeta only [d12]
        solve_by_elim
      clear_value d12
      assumption
    · apply soundO_none

theorem sound_markerRedo {d : Dev} (hS : d.Sound) : (markerRedo d).Sound := by
  unfold markerRedo
  split
  · assumption
  · extract_lets +onlyGivenNames -underBinder d0i0 d0
    have h1 : d0.Sound := by
      dsimp -zeta only [d0]
      exact sound_sectorErase (by assumption)
    clear_value d0
    extract_lets +onlyGivenNames -underBinder d2
    have h3 : d2.Sound := by
      dsimp -zeta only [d2]
      split
      · split
        · assumption
        · exact sound_fwPut (by assumption)
      · assumption
    clear_value d2
    exact sound_post (sound_fwPut (by assumption))

theorem sound_bootRow {lost : Bool} {x : ℕ × ℕ} {d : Dev} (hS : d.Sound) : (bootRow lost x d).Sound := by
  unfold bootRow
  split
  extract_lets +onlyGivenNames -underBinder d0
  clear_value d0
  split
  · refine sound_upd (d := d) rfl rfl rfl rfl rfl rfl rfl ?_ rfl rfl ?_ ?_ ?_ ?_ ?_
    · intro a2
      assumption
    · intro a3
      assumption
    · intro a4
      assumption
    · intro a5
      assumption
    · intro a6
      exact twf_tmod _ _ _ (by assumption)
    · assumption
  · extract_lets +onlyGivenNames -underBinder d7
    have h8 : d7.Sound := by
      dsimp -zeta only [d7]
      exact sound_rowFault (by assumption)
    clear_value d7
    split <;> assumption

theorem sound_bootFix {x : ℕ × ℕ × ℕ} {d : Dev} (hS : d.Sound) : (bootFix x d).Sound := by
  unfold bootFix
  split
  extract_lets +onlyGivenNames -underBinder d0
  clear_value d0
  split
  · refine sound_upd (d := d) rfl rfl rfl rfl rfl rfl rfl ?_ rfl rfl ?_ ?_ ?_ ?_ ?_
    · intro a2
      assumption
    · intro a3
      assumption
    · intro a4
      assumption
    · intro a5
      assumption
    · intro a6
      exact twf_tmod _ _ _ (by assumption)
    · assumption
  · assumption

theorem sound_paramsLoad {d : Dev} (hS : d.Sound) : (paramsLoad d).Sound := by
  unfold paramsLoad
  extract_lets +onlyGivenNames -underBinder d0
  clear_value d0
  extract_lets +onlyGivenNames -underBinder d2i0 d2i1 d2i2 d2i3 d2i4 d2i5 d2i6 d2
  have h3 : d2.Sound := by
    dsimp -zeta only [d2]
    assumption
  clear_value d2
  extract_lets +onlyGivenNames -underBinder d4
  have h5 : d4.Sound := by
    dsimp -zeta only [d4]
    exact sound_fwPut (sound_fwPut (by assumption))
  clear_value d4
  refine sound_foldl _ ?_ fun d6 a7 h8 => ?_
  · assumption
  · split
    · assumption
    · exact sound_post (by assumption)

theorem sound_keyLoad {b : Boot} {x : ℕ × KPair} {d : Dev} (hS : d.Sound) : (keyLoad b x d).Sound := by
  unfold keyLoad
  extract_lets +onlyGivenNames -underBinder d0
  clear_value d0
  split
  · assumption
  · split
    · split
      · exact sound_fatal (by assumption)
      · assumption
    · split
      · split
        · assumption
        · exact sound_fwPut (by assumption)
      · split
        · split
          · exact sound_fatal (by assumption)
          · exact sound_post (by assumption)
        · split <;> assumption

theorem sound_cphSlotBoot {b : Boot} {x : ℕ × KPair} {d : Dev} (hS : d.Sound) : (cphSlotBoot b x d).Sound := by
  unfold cphSlotBoot
  split
  · assumption
  · split
    · assumption
    · extract_lets +onlyGivenNames -underBinder d0
      clear_value d0
      split
      · exact sound_post (by assumption)
      · extract_lets +onlyGivenNames -underBinder d2
        clear_value d2
        assumption

theorem sound_selfTests {b : Boot} {d : Dev} (hS : d.Sound) : (selfTests b d).Sound := by
  unfold selfTests
  extract_lets +onlyGivenNames -underBinder d0
  have h1 : d0.Sound := by
    dsimp -zeta only [d0]
    refine sound_foldl _ ?_ fun d2 a3 h4 => ?_
    · assumption
    · extract_lets +onlyGivenNames -underBinder d5
      clear_value d5
      exact sound_post (by assumption)
  clear_value d0
  refine sound_foldl _ ?_ fun d7 a8 h9 => ?_
  · assumption
  · exact sound_monFail (by assumption)

theorem sound_bootStore {b : Boot} {d : Dev} (hS : d.Sound) : (bootStore b d).Sound := by
  unfold bootStore
  extract_lets +onlyGivenNames -underBinder d0
  have h1 : d0.Sound := by
    dsimp -zeta only [d0]
    refine sound_foldl _ ?_ fun d2 a3 h4 => ?_
    · assumption
    · exact sound_bootFix (by assumption)
  clear_value d0
  extract_lets +onlyGivenNames -underBinder d5
  have h6 : d5.Sound := by
    dsimp -zeta only [d5]
    refine sound_foldl _ ?_ fun d7 a8 h9 => ?_
    · refine sound_foldl _ ?_ fun d10 a11 h12 => ?_
      · assumption
      · exact sound_bootRow (by assumption)
    · exact sound_bootRow (by assumption)
  clear_value d5
  exact sound_fwPut (sound_paramsLoad (sound_markerRedo (by assumption)))

theorem sound_bootMap {b : Boot} {d : Dev} (hS : d.Sound) : (bootMap b d).Sound := by
  unfold bootMap
  extract_lets +onlyGivenNames -underBinder d0i0 d0
  have h1 : d0.Sound := by
    dsimp -zeta only [d0]
    assumption
  clear_value d0
  assumption

theorem sound_bootLife {d : Dev} (hS : d.Sound) : (bootLife d).Sound := by
  unfold bootLife
  extract_lets +onlyGivenNames -underBinder d0
  have h1 : d0.Sound := by
    dsimp -zeta only [d0]
    split
    · assumption
    · split
      · exact sound_fwPut (by assumption)
      · split
        · exact sound_fwPut (by assumption)
        · assumption
  clear_value d0
  split
  · exact sound_fwPut (sound_fwPut (by assumption))
  · assumption

theorem sound_unfurlRun {b : Boot} {d : Dev} (hS : d.Sound) : (unfurlRun b d).Sound := by
  unfold unfurlRun
  split
  · assumption
  · extract_lets +onlyGivenNames -underBinder d0
    have h1 : d0.Sound := by
      dsimp -zeta only [d0]
      exact sound_post (sound_suppliesSeen (by assumption))
    clear_value d0
    extract_lets +onlyGivenNames -underBinder d2i0 d2
    have h3 : d2.Sound := by
      dsimp -zeta only [d2]
      assumption
    clear_value d2
    split
    · assumption
    · extract_lets +onlyGivenNames -underBinder d4i0 d4i1 d4
      have h5 : d4.Sound := by
        dsimp -zeta only [d4]
        rename_i r6 r7
        refine sound_upd (d := r6) rfl rfl rfl rfl rfl rfl rfl id rfl rfl id id id id ?_
        exact sound_of_some (by assumption) (sound_bootSlot (by assumption))
      clear_value d4
      extract_lets +onlyGivenNames -underBinder d8
      have h9 : d8.Sound := by
        dsimp -zeta only [d8]
        exact sound_bootLife (sound_bootMap (sound_bootStore (by assumption)))
      clear_value d8
      extract_lets +onlyGivenNames -underBinder d10
      have h11 : d10.Sound := by
        dsimp -zeta only [d10]
        apply sound_selfTests
        refine sound_foldl _ ?_ fun d12 a13 h14 => ?_
        · assumption
        · exact sound_cphSlotBoot (by assumption)
      clear_value d10
      extract_lets +onlyGivenNames -underBinder d15
      have h16 : d15.Sound := by
        dsimp -zeta only [d15]
        refine sound_foldl _ ?_ fun d17 a18 h19 => ?_
        · assumption
        · exact sound_keyLoad (by assumption)
      clear_value d15
      split
      · exact sound_testStart (by assumption)
      · assumption

theorem sound_resetAgain {key : ℕ} {d : Dev} (hS : d.Sound) : (resetAgain key d).Sound := by
  have hf : ∀ (l : List ℕ) (f : Dev → ℕ → Dev), (∀ e p, e.Sound → (f e p).Sound) → (l.foldl f d).Sound :=
    fun l f h => sound_foldl l hS h
  exact sound_sbMod (sound_med (hf _ _ fun e p he => sound_blogAdd (sound_med he id)) id)

theorem sound_blocksLoad {buf : List BRec} {d : Dev} (hS : d.Sound) : (blocksLoad buf d).Sound := sound_med hS id

theorem sound_blocksRecover {buf : List BRec} {d : Dev} (hS : d.Sound) : (blocksRecover buf d).Sound := by
  have hf : ∀ (l : List ℕ) (e : Dev), e.Sound → (l.foldl (fun d k => resetAgain k d) e).Sound :=
    fun l e h => sound_foldl l h fun _ _ => sound_resetAgain
  unfold blocksRecover
  dsimp only
  split
  · exact hf _ _ (sound_blocksLoad hS)
  · exact sound_post (hf _ _ (sound_blocksLoad hS))

theorem sound_mapLoad {tail : List JRec} {d : Dev} (hS : d.Sound) : (mapLoad tail d).Sound := by
  unfold mapLoad
  exact sound_map (d := d) hS fun _ => twf_foldl_tset _ _ _ _ (twf_tbuild _ _)

theorem sound_flagsSet {d : Dev} (hS : d.Sound) : (flagsSet d).Sound := by
  unfold flagsSet
  extract_lets +onlyGivenNames -underBinder d0
  clear_value d0
  refine sound_foldl _ ?_ fun d2 a3 h4 => ?_
  · assumption
  · exact sound_setFlags (by assumption)

theorem sound_saveRestore {inPlace : Bool} {s : Save} {d : Dev} (hS : d.Sound) : (saveRestore inPlace s d).Sound := by
  unfold saveRestore
  refine sound_upd (d := d) rfl rfl rfl rfl rfl rfl rfl id rfl rfl id id (fun _ => ?_) id hS
  dsimp only
  exact twf_tbuild _ _

theorem sound_logRestore {f : Flush} {d : Dev} (hS : d.Sound) : (logRestore f d).Sound := by
  unfold logRestore
  dsimp only
  refine sound_protTake (sound_foldl (f := fun (d : Dev) (r : Rec) => logPut { r.restored with seq := d.evr.seqNext }
    { d with evr.seqNext := (d.evr.seqNext + 1) % 2 ^ 32 }) _ (sound_acceptAll (sound_post (sound_acceptAll hS))) ?_)
  intro e r he
  exact sound_logPut he

theorem sound_protRestore {d : Dev} (hS : d.Sound) : (protRestore d).Sound := by
  unfold protRestore
  dsimp only
  split
  · exact hS
  · exact sound_protTake (sound_acceptAll (sound_post (sound_acceptAll hS)))

theorem sound_rekeysResume {src : ℕ} {s : Option Save} {d : Dev} (hS : d.Sound) : (rekeysResume src s d).Sound := by
  unfold rekeysResume
  refine sound_foldl _ ?_ fun d0 a1 h2 => ?_
  · assumption
  · split
    · exact sound_post (by assumption)
    · assumption

theorem sound_bitmapsRebuild {d : Dev} (hS : d.Sound) : (bitmapsRebuild d).Sound := by
  unfold bitmapsRebuild
  extract_lets +onlyGivenNames -underBinder d0i0 d0
  have h1 : d0.Sound := by
    dsimp -zeta only [d0]
    assumption
  clear_value d0
  extract_lets +onlyGivenNames -underBinder d2
  have h3 : d2.Sound := by
    dsimp -zeta only [d2]
    refine sound_foldl _ ?_ fun d4 a5 h6 => ?_
    · assumption
    · split
      · exact sound_rowMark (by assumption)
      · assumption
  clear_value d2
  extract_lets +onlyGivenNames -underBinder d7
  clear_value d7
  assumption

theorem sound_sporeRestored {us : ℕ} {d : Dev} (hS : d.Sound) : (sporeRestored us d).Sound := by
  unfold sporeRestored
  extract_lets +onlyGivenNames -underBinder d0
  have h1 : d0.2.Sound := by
    dsimp -zeta only [d0]
    exact sound_draw (by assumption)
  clear_value d0
  exact sound_post (by assumption)

theorem sound_sporeIncomplete {slots : ℕ} {d : Dev} (hS : d.Sound) : (sporeIncomplete slots d).Sound := by
  unfold sporeIncomplete
  extract_lets +onlyGivenNames -underBinder d0i0 d0
  have h1 : d0.2.Sound := by
    dsimp -zeta only [d0]
    exact sound_draw (by assumption)
  clear_value d0
  exact sound_post (by assumption)

theorem sound_recoveryEnter {d : Dev} (hS : d.Sound) : (recoveryEnter d).Sound := by
  unfold recoveryEnter
  exact sound_modeEnter (by assumption)

theorem sound_cushionRestore {src : ℕ} {save : Option Save} {clean : Option (Tab (BitVec 64) × Bool)} {d : Dev} (hS : d.Sound) : (cushionRestore src save clean d).Sound := by
  unfold cushionRestore
  split
  · exact sound_saveRestore (by assumption)
  · split <;> assumption

theorem sound_recorderRestore {save : Option Save} {d : Dev} (hS : d.Sound) : (recorderRestore save d).Sound := by
  unfold recorderRestore
  split
  · exact sound_logRestore (by assumption)
  · exact sound_protRestore (by assumption)

theorem sound_sporeRecord {src : ℕ} {save : Option Save} {slots : ℕ} {d : Dev} (hS : d.Sound) : (sporeRecord src save slots d).Sound := by
  unfold sporeRecord
  split
  · exact sound_sporeRestored (by assumption)
  · split
    · exact sound_sporeIncomplete (by assumption)
    · assumption

theorem sound_eraseAgain {d : Dev} (hS : d.Sound) : (eraseAgain d).Sound := by
  unfold eraseAgain
  split
  · exact sound_sanitizeRun (by assumption)
  · assumption

theorem sound_sporeClosed {src : ℕ} {d : Dev} (hS : d.Sound) : (sporeClosed src d).Sound := by
  unfold sporeClosed
  split <;> assumption

theorem sound_recoveryStart {d : Dev} (hS : d.Sound) : (recoveryStart d).Sound := by
  unfold recoveryStart
  split
  · assumption
  · extract_lets +onlyGivenNames -underBinder d0
    have h1 : d0.Sound := by
      dsimp -zeta only [d0]
      exact sound_recoveryEnter (by assumption)
    clear_value d0
    extract_lets +onlyGivenNames -underBinder d2
    clear_value d2
    extract_lets +onlyGivenNames -underBinder d4
    clear_value d4
    extract_lets +onlyGivenNames -underBinder d6i0 d6
    have h7 : d6.Sound := by
      dsimp -zeta only [d6]
      exact sound_blocksRecover (by assumption)
    clear_value d6
    extract_lets +onlyGivenNames -underBinder d8
    have h9 : d8.Sound := by
      dsimp -zeta only [d8]
      exact sound_mapLoad (by assumption)
    clear_value d8
    extract_lets +onlyGivenNames -underBinder d10
    have h11 : d10.Sound := by
      dsimp -zeta only [d10]
      exact sound_flagsSet (sound_cushionRestore (by assumption))
    clear_value d10
    extract_lets +onlyGivenNames -underBinder d12
    have h13 : d12.Sound := by
      dsimp -zeta only [d12]
      exact sound_bitmapsRebuild (sound_sporeClosed (by assumption))
    clear_value d12
    exact sound_eraseAgain (sound_sporeRecord (sound_rekeysResume (sound_recorderRestore (by assumption))))

theorem sound_unfurlDone {em : ℕ} {d : Dev} (hS : d.Sound) : (unfurlDone em d).Sound := by
  unfold unfurlDone
  split
  · assumption
  · extract_lets +onlyGivenNames -underBinder d0
    have h1 : d0.Sound := by
      dsimp -zeta only [d0]
      exact sound_unfurlEnd (by assumption)
    clear_value d0
    split
    · exact sound_recoveryStart (by assumption)
    · assumption

theorem sound_bankCharged {b : Boot} {d : Dev} (hS : d.Sound) : (bankCharged b d).Sound := by
  unfold bankCharged
  split
  · assumption
  · extract_lets +onlyGivenNames -underBinder d0i0 d0
    have h1 : d0.Sound := by
      dsimp -zeta only [d0]
      exact sound_unfurlRun (by assumption)
    clear_value d0
    split
    · exact sound_testStart (by assumption)
    · assumption

theorem sound_spliceStart {d : Dev} (hS : d.Sound) : (spliceStart d).Sound := by
  unfold spliceStart
  extract_lets +onlyGivenNames -underBinder d0i0 d0
  have h1 : d0.Sound := by
    dsimp -zeta only [d0]
    exact sound_modeEnter (by assumption)
  clear_value d0
  split
  extract_lets +onlyGivenNames -underBinder d2
  clear_value d2
  split
  · exact sound_indexTake (sound_of_eq (by assumption) (sound_draw (by assumption)))
  · exact sound_recoveryStart (sound_frame (sound_heldOut (sound_of_eq (by assumption) (sound_draw (by assumption)))))

theorem sound_listenExpiry {d : Dev} (hS : d.Sound) : (listenExpiry d).Sound := by
  unfold listenExpiry
  split
  · assumption
  · split
    extract_lets +onlyGivenNames -underBinder d0
    have h1 : d0.Sound := by
      dsimp -zeta only [d0]
      split
      · exact sound_unfurlDone (sound_of_eq (by assumption) (sound_draw (by assumption)))
      · exact sound_of_eq (by assumption) (sound_draw (by assumption))
    clear_value d0
    split
    · assumption
    · split
      · exact sound_spliceStart (by assumption)
      · exact sound_recoveryStart (by assumption)

theorem sound_sporeFill {lane : ℕ} {d : Dev} (hS : d.Sound) : (sporeFill lane d).Sound := by
  unfold sporeFill
  split
  · assumption
  · refine sound_iter _ ?_ fun d0 h1 => ?_
    · assumption
    · split
      · assumption
      · split
        · exact sound_blogSb (by assumption)
        · split
          · exact sound_resetNow (by assumption)
          · assumption

theorem sound_recoveryDone {ms : ℕ} {d : Dev} (hS : d.Sound) : (recoveryDone ms d).Sound := by
  unfold recoveryDone
  split
  · assumption
  · extract_lets +onlyGivenNames -underBinder d0
    have h1 : d0.Sound := by
      dsimp -zeta only [d0]
      refine sound_foldl _ ?_ fun d2 a3 h4 => ?_
      · assumption
      · exact sound_sporeFill (by assumption)
    clear_value d0
    extract_lets +onlyGivenNames -underBinder d5i0 d5i1 d5
    have h6 : d5.Sound := by
      dsimp -zeta only [d5]
      apply sound_post
      refine sound_upd (d := d5i0) rfl rfl rfl rfl rfl rfl rfl id rfl rfl id id id id ?_
      dsimp -zeta only [d5i0]
      exact sound_anchorPut (by assumption)
    clear_value d5
    exact sound_admitEval (sound_modeEnter (by assumption))

end Sys2Proof.Machine
end

