-- ==== Sys2Proof/Laws/SoundModes.lean ====
section
/-! SUPPORT. Laws/SoundModes.lean: the operations of Modes.lean keep the node's stores in order. -/

namespace Sys2Proof.Machine

set_option linter.unusedVariables false

theorem sound_reqsShift {d : Dev} (hS : d.Sound) : (reqsShift d).Sound := by
  unfold reqsShift
  assumption

theorem sound_modeSwitch {m : Mode} {limit : ℕ} {d : Dev} (hS : d.Sound) : (modeSwitch m limit d).Sound := by
  unfold modeSwitch
  extract_lets +onlyGivenNames -underBinder d0
  have h1 : d0.Sound := by
    dsimp -zeta only [d0]
    split
    · assumption
    · exact sound_tasksModeEnd (by assumption)
  clear_value d0
  extract_lets +onlyGivenNames -underBinder d2i0 d2i1 d2i2 d2i3 d2
  have h3 : d2.Sound := by
    dsimp -zeta only [d2]
    exact sound_modeEnter (sound_reqsShift (by assumption))
  clear_value d2
  apply sound_admitEval
  split
  · exact sound_bitmapsRebuild (by assumption)
  · assumption

theorem sound_transitSwitch {d : Dev} (hS : d.Sound) : (transitSwitch d).Sound := by
  unfold transitSwitch
  split
  · split
    · split
      · assumption
      · extract_lets +onlyGivenNames -underBinder d0
        clear_value d0
        extract_lets +onlyGivenNames -underBinder d2
        have h3 : d2.Sound := by
          dsimp -zeta only [d2]
          exact sound_modeSwitch (by assumption)
        clear_value d2
        assumption
    · assumption
  · assumption

theorem sound_transitDone {r : Running} {slots : ℕ} {ms : ℕ} {d : Dev} (hS : d.Sound) : (transitDone r slots ms d).Sound := by
  unfold transitDone
  extract_lets +onlyGivenNames -underBinder d0
  clear_value d0
  extract_lets +onlyGivenNames -underBinder d2i0 d2
  have h3 : d2.Sound := by
    dsimp -zeta only [d2]
    exact sound_lapEnd (by assumption)
  clear_value d2
  extract_lets +onlyGivenNames -underBinder d4
  have h5 : d4.Sound := by
    dsimp -zeta only [d4]
    refine sound_foldl _ ?_ fun d6 a7 h8 => ?_
    · assumption
    · exact sound_rangeStore (by assumption)
  clear_value d4
  extract_lets +onlyGivenNames -underBinder d9
  have h10 : d9.Sound := by
    dsimp -zeta only [d9]
    exact sound_fwPut (by assumption)
  clear_value d9
  split
  extract_lets +onlyGivenNames -underBinder d11i0 d11i1 d11i2 d11i3 d11i4 d11i5 d11
  have h12 : d11.Sound := by
    dsimp -zeta only [d11]
    apply sound_post
    refine sound_upd (d := d11i0) rfl rfl rfl rfl rfl rfl rfl ?_ rfl rfl ?_ ?_ ?_ ?_ ?_
    · intro a13
      rfl
    · intro a14
      assumption
    · intro a15
      assumption
    · intro a16
      assumption
    · intro a17
      assumption
    · dsimp -zeta only [d11i0]
      exact sound_anchorPut (sound_of_eq (by assumption) (sound_draw (by assumption)))
  clear_value d11
  exact sound_cmdEnd (sound_darken (by assumption))

theorem sound_transitFailed {d : Dev} (hS : d.Sound) : (transitFailed d).Sound := by
  unfold transitFailed
  split
  · split
    · assumption
    · extract_lets +onlyGivenNames -underBinder d0
      clear_value d0
      extract_lets +onlyGivenNames -underBinder d2i0 d2i1 d2
      have h3 : d2.Sound := by
        dsimp -zeta only [d2]
        exact sound_modeSwitch (by assumption)
      clear_value d2
      extract_lets +onlyGivenNames -underBinder d4
      have h5 : d4.Sound := by
        dsimp -zeta only [d4]
        exact sound_post (by assumption)
      clear_value d4
      exact sound_cmdEnd (by assumption)
  · assumption

theorem sound_setMode {p : List Byte} {d : Dev} (hS : d.Sound) : (setMode p d).2.Sound := by
  unfold setMode
  extract_lets +onlyGivenNames -underBinder d0
  clear_value d0
  split
  · exact sound_ret (by assumption)
  · extract_lets +onlyGivenNames -underBinder d2
    clear_value d2
    extract_lets +onlyGivenNames -underBinder d4
    clear_value d4
    repeat' split
    all_goals first
      | with_reducible exact sound_ret (sound_modeSwitch (by assumption))
      | with_reducible exact sound_ret (by assumption)
      | assumption

theorem sound_leaveHeld {b : Boot} {d : Dev} (hS : d.Sound) : (leaveHeld b d).Sound := by
  unfold leaveHeld
  split
  · exact sound_unfurlRun (sound_volatileReset (by assumption))
  · exact sound_unfurlRun (by assumption)

theorem sound_nodeReset {d : Dev} (hS : d.Sound) : (nodeReset d).Sound := by
  unfold nodeReset
  extract_lets +onlyGivenNames -underBinder d0i0 d0
  have h1 : d0.Sound := by
    dsimp -zeta only [d0]
    assumption
  clear_value d0
  split
  · assumption
  · assumption
  · split
    · exact sound_modeEnter (by assumption)
    · assumption
  · split
    · assumption
    · extract_lets +onlyGivenNames -underBinder d2
      have h3 : d2.Sound := by
        dsimp -zeta only [d2]
        exact sound_acceptAll (sound_post (by assumption))
      clear_value d2
      extract_lets +onlyGivenNames -underBinder d4i0 d4
      have h5 : d4.Sound := by
        dsimp -zeta only [d4]
        exact sound_hostDown (by assumption)
      clear_value d4
      extract_lets +onlyGivenNames -underBinder d6
      have h7 : d6.Sound := by
        dsimp -zeta only [d6]
        exact sound_bypassClose (sound_stopMedia (sound_stopAdmission (by assumption)))
      clear_value d6
      exact sound_modeEnter (by assumption)

theorem sound_powerFail {d : Dev} (hS : d.Sound) : (powerFail d).Sound := by
  unfold powerFail
  split
  · assumption
  · assumption
  · assumption
  · split
    · assumption
    · extract_lets +onlyGivenNames -underBinder d0i0 d0
      have h1 : d0.Sound := by
        dsimp -zeta only [d0]
        exact sound_post (by assumption)
      clear_value d0
      exact sound_lanesDump (sound_stopMedia (sound_stopAdmission (by assumption)))

theorem sound_flushPages (n : Nat) : ∀ {d : Dev}, d.Sound → (flushPages n d).Sound := by
  induction n with
  | zero => intro d h; exact h
  | succ n ih =>
    intro d h
    unfold flushPages
    split
    · exact h
    · exact ih (sound_pageDone (sound_flashStart h))

theorem sound_dumpDone {complete : Bool} {us : ℕ} {lost : List (ℕ × ℕ)} {d : Dev} (hS : d.Sound) : (dumpDone complete us lost d).Sound := by
  unfold dumpDone
  split
  · assumption
  · extract_lets +onlyGivenNames -underBinder d0
    clear_value d0
    extract_lets +onlyGivenNames -underBinder d2
    have h3 : d2.Sound := by
      dsimp -zeta only [d2]
      split
      · assumption
      · split
        · extract_lets +onlyGivenNames -underBinder d4
          have h5 : d4.Sound := by
            dsimp -zeta only [d4]
            apply sound_acceptAll
            assumption
          clear_value d4
          apply sound_flushPages
          assumption
        · extract_lets +onlyGivenNames -underBinder d6
          have h7 : d6.Sound := by
            dsimp -zeta only [d6]
            apply sound_writeSpore
            assumption
          clear_value d6
          assumption
    clear_value d2
    extract_lets +onlyGivenNames -underBinder d8
    have h9 : d8.Sound := by
      dsimp -zeta only [d8]
      apply sound_bypassClose
      apply sound_hostDown
      assumption
    clear_value d8
    apply sound_enterMode
    assumption

end Sys2Proof.Machine
end

