-- ==== Sys2Proof/Laws/SoundMbxJobs.lean ====
section
/-! SUPPORT. Laws/SoundMbxJobs.lean: the operations of MbxJobs.lean keep the node's stores in order. -/

namespace Sys2Proof.Machine

set_option linter.unusedVariables false

theorem sound_jobWork {r : Running} {units : ℕ} {ts : Trouble} {d : Dev} (hS : d.Sound) : (jobWork r units ts d).2.Sound := by
  unfold jobWork
  extract_lets +onlyGivenNames -underBinder d0
  clear_value d0
  split
  · extract_lets +onlyGivenNames -underBinder d2
    clear_value d2
    split
    · exact sound_mk (by assumption)
    · exact sound_mk (sound_releaseSpan (by assumption))
  · extract_lets +onlyGivenNames -underBinder d4
    clear_value d4
    split
    · exact sound_mk (by assumption)
    · exact sound_mk (sound_releaseSpan (by assumption))
  · extract_lets +onlyGivenNames -underBinder d6
    clear_value d6
    split
    · exact sound_mk (by assumption)
    · exact sound_mk (sound_releaseSpan (by assumption))
  · extract_lets +onlyGivenNames -underBinder d8
    clear_value d8
    exact sound_mk (sound_scratchZero (sound_dramGrant (by assumption)))
  · exact sound_mk (sound_mediaGrant (by assumption))
  · split <;> exact sound_mk (sound_of_eq (by assumption) (sound_memTake (by assumption)))
  all_goals exact sound_mk (by assumption)

theorem sound_progressRefresh {units : ℕ} {ms : ℕ} {ts : Trouble} {d : Dev} (hS : d.Sound) : (progressRefresh units ms ts d).Sound := by
  unfold progressRefresh
  extract_lets +onlyGivenNames -underBinder d0
  have h1 : d0.Sound := by
    dsimp -zeta only [d0]
    exact sound_transitSwitch (by assumption)
  clear_value d0
  split
  · assumption
  · split
    apply sound_progSet
    rename_i r2 r3
    refine sound_upd (d := r2) rfl rfl rfl rfl rfl rfl rfl id rfl rfl id id id id ?_
    exact sound_of_eq (by assumption) (sound_jobWork (by assumption))

theorem sound_jobEnd {r : Running} {d : Dev} (hS : d.Sound) : (jobEnd r d).2.Sound := by
  have hm : ∀ (m : Mbx) (e : Dev), m.warnLog = e.mbx.warnLog → m.failLog = e.mbx.failLog → m.fatalLog = e.mbx.fatalLog →
      e.Sound → Dev.Sound { e with mbx := m } := fun m e h1 h2 h3 h =>
    sound_upd (d := e) rfl rfl rfl h1 h2 h3 rfl id rfl rfl id id id id h
  unfold jobEnd
  dsimp only
  split
  · exact sound_mk (sound_post (sound_releaseSpan hS))
  · split
    · exact sound_mk (hm _ _ rfl rfl rfl (sound_releaseSpan hS))
    · exact sound_mk (sound_eraseEnd (sound_releaseSpan hS))
  · exact sound_mk (sound_shedEnd (sound_releaseSpan hS))
  · exact sound_mk (sound_scratchZero (sound_dramGrant hS))
  · split
    · rename_i rc e h
      exact sound_upd (d := e) rfl rfl rfl rfl rfl rfl rfl id rfl rfl id id id id (sound_of_some2 h (sound_secRefused hS))
    · exact sound_mk (sound_sanitizeRun hS)
  · exact sound_scanEnd hS
  · exact hS
  · exact hS
  · split
    · rename_i h
      exact sound_partEnd hS _ h
    · exact hS
  · exact sound_mk (sound_activateEnd hS)
  · split <;> exact hS
  · exact hS
  · split <;> exact hS
  · split <;> exact hS
  · split <;> exact hS
  · exact hS
  · exact hS
  · exact hS
  · exact hS
  · split
    · exact sound_mk (sound_modeSwitch hS)
    · exact hS

theorem sound_commandComplete {ms : ℕ} {d : Dev} (hS : d.Sound) : (commandComplete ms d).Sound := by
  unfold commandComplete
  extract_lets +onlyGivenNames -underBinder d0
  have h1 : d0.Sound := by
    dsimp -zeta only [d0]
    exact sound_transitSwitch (by assumption)
  clear_value d0
  split
  · assumption
  · split
    · split
      · exact sound_transitDone (by assumption)
      · assumption
    · split
      · exact sound_of_eq (by assumption) (sound_jobEnd (by assumption))
      · extract_lets +onlyGivenNames -underBinder d2
        have h3 : d2.Sound := by
          dsimp -zeta only [d2]
          exact sound_cmdEnd (sound_of_eq (by assumption) (sound_jobEnd (by assumption)))
        clear_value d2
        split
        · exact sound_pstStart (by assumption)
        · assumption

end Sys2Proof.Machine
end

