-- ==== Sys2Proof/Laws/KeepsCipher.lean ====
section
/-! SUPPORT. Laws/KeepsCipher.lean: the commands of Cipher.lean keep the node's stores in order. -/

namespace Sys2Proof.Machine

set_option linter.unusedVariables false

theorem keeps_execCphKeyGenerate {tr : Transport} {p : List Byte} {s : State} (hS : s.dev.Sound) : Keeps (execCphKeyGenerate tr p s) := by
  unfold execCphKeyGenerate
  refine keeps_run ?_ hS
  intro d0 h1
  apply sound_command
  · assumption
  · intro a2 d3 h4
    exact sound_cphGenerate (by assumption)

theorem keeps_execCphKeyImport {tr : Transport} {p : List Byte} {secured : Bool} {s : State} (hS : s.dev.Sound) : Keeps (execCphKeyImport tr p secured s) := by
  unfold execCphKeyImport
  refine keeps_run ?_ hS
  intro d0 h1
  apply sound_command
  · assumption
  · intro a2 d3 h4
    exact sound_cphImport (by assumption)

theorem keeps_execCphKeyWrap {tr : Transport} {p : List Byte} {s : State} (hS : s.dev.Sound) : Keeps (execCphKeyWrap tr p s) := by
  unfold execCphKeyWrap
  refine keeps_run ?_ hS
  intro d0 h1
  apply sound_command
  · assumption
  · intro a2 d3 h4
    exact sound_cphWrap (by assumption)

theorem keeps_execCphRequest {tr : Transport} {p : List Byte} {s : State} (hS : s.dev.Sound) : Keeps (execCphRequest tr p s) := by
  unfold execCphRequest
  refine keeps_run ?_ hS
  intro d0 h1
  apply sound_command
  · assumption
  · intro a2 d3 h4
    exact sound_cphRequest (by assumption)

theorem keeps_execCipherRequestStart {core : ℕ} {s : State} (hS : s.dev.Sound) : Keeps (execCipherRequestStart core s) := by
  unfold execCipherRequestStart
  refine keeps_run ?_ hS
  intro d0 h1
  exact sound_cipherStart (by assumption)

end Sys2Proof.Machine
end

