-- ==== Sys2Proof/Laws/KeepsEngines.lean ====
section
/-! SUPPORT. Laws/KeepsEngines.lean: the commands of Engines.lean keep the node's stores in order. -/

namespace Sys2Proof.Machine

set_option linter.unusedVariables false

theorem keeps_execTaskDecide {s : State} (hS : s.dev.Sound) : Keeps (execTaskDecide s) := by
  unfold execTaskDecide
  refine keeps_run ?_ hS
  intro d0 h1
  split
  · assumption
  · exact sound_taskDecide (by assumption)

theorem keeps_execOpeTqDbTail {q : ℕ} {tail : ℕ} {s : State} (hS : s.dev.Sound) : Keeps (execOpeTqDbTail q tail s) := by
  unfold execOpeTqDbTail
  refine keeps_run ?_ hS
  intro d0 h1
  apply sound_gate
  · intro d2 h3
    exact sound_doorbell (by assumption)
  · assumption

theorem keeps_execChunkStart {e : ℕ} {s : State} (hS : s.dev.Sound) : Keeps (execChunkStart e s) := by
  unfold execChunkStart
  refine keeps_run ?_ hS
  intro d0 h1
  exact sound_chunkStart (by assumption)

theorem keeps_execChunkEnd {e : ℕ} {ts : Trouble} {scr : Option ℕ} {s : State} (hS : s.dev.Sound) : Keeps (execChunkEnd e ts scr s) := by
  unfold execChunkEnd
  refine keeps_run ?_ hS
  intro d0 h1
  exact sound_chunkEnd (by assumption)

theorem keeps_execDeadlineExpiry {entry : ℕ} {s : State} (hS : s.dev.Sound) : Keeps (execDeadlineExpiry entry s) := by
  unfold execDeadlineExpiry
  refine keeps_run ?_ hS
  intro d0 h1
  split
  · assumption
  · exact sound_taskStop (by assumption)

theorem keeps_execEngineFaulted {e : ℕ} {s : State} (hS : s.dev.Sound) : Keeps (execEngineFaulted e s) := by
  unfold execEngineFaulted
  refine keeps_run ?_ hS
  intro d0 h1
  split
  · assumption
  · extract_lets +onlyGivenNames -underBinder d2
    clear_value d2
    extract_lets +onlyGivenNames -underBinder d4i0 d4
    have h5 : d4.Sound := by
      dsimp -zeta only [d4]
      exact sound_post (by assumption)
    clear_value d4
    split
    · exact sound_taskStop (by assumption)
    · assumption

theorem keeps_execResultQueueStallEnd {r : ℕ} {s : State} (hS : s.dev.Sound) : Keeps (execResultQueueStallEnd r s) := by
  unfold execResultQueueStallEnd
  refine keeps_run ?_ hS
  intro d0 h1
  exact sound_rqFlush (by assumption)

theorem keeps_execOpeRqPtrRd {r : ℕ} {rd : ℕ} {ce : ℕ} {bad : List ℕ} {s : State} (hS : s.dev.Sound) : Keeps (execOpeRqPtrRd r rd ce bad s) := by
  unfold execOpeRqPtrRd
  refine keeps_run ?_ hS
  intro d0 h1
  apply sound_gate
  · intro d2 h3
    exact sound_rqRead (by assumption)
  · assumption

theorem keeps_execOpeEngEn {e : ℕ} {en : Bool} {s : State} (hS : s.dev.Sound) : Keeps (execOpeEngEn e en s) := by
  unfold execOpeEngEn
  refine keeps_run ?_ hS
  intro d0 h1
  apply sound_gate
  · intro d2 h3
    exact sound_engEnable (by assumption)
  · assumption

theorem keeps_execOpeTqCtlEn {q : ℕ} {en : Bool} {s : State} (hS : s.dev.Sound) : Keeps (execOpeTqCtlEn q en s) := by
  unfold execOpeTqCtlEn
  refine keeps_run ?_ hS
  intro d0 h1
  apply sound_gate
  · intro d2 h3
    exact sound_tqEnable (by assumption)
  · assumption

theorem keeps_execOpeRqCfgEn {r : ℕ} {en : Bool} {s : State} (hS : s.dev.Sound) : Keeps (execOpeRqCfgEn r en s) := by
  unfold execOpeRqCfgEn
  refine keeps_run ?_ hS
  intro d0 h1
  apply sound_gate
  · intro d2 h3
    exact sound_rqEnable (by assumption)
  · assumption

theorem keeps_execUnitDrainEnd {u : OpeUnit} {s : State} (hS : s.dev.Sound) : Keeps (execUnitDrainEnd u s) := by
  unfold execUnitDrainEnd
  refine keeps_run ?_ hS
  intro d0 h1
  split
  · split <;> assumption
  · split <;> assumption
  · split
    · assumption
    · exact sound_rqMod1 (by assumption)

theorem keeps_execOpeTqCtlAbort {q : ℕ} {s : State} (hS : s.dev.Sound) : Keeps (execOpeTqCtlAbort q s) := by
  unfold execOpeTqCtlAbort
  refine keeps_run ?_ hS
  intro d0 h1
  apply sound_gate
  · intro d2 h3
    exact sound_tqAbort (by assumption)
  · assumption

theorem keeps_execTask {c : Cell} {qw : List ℕ} {entries : List (ℕ × ℕ)} {s : State} (hS : s.dev.Sound) : Keeps (execTask c qw entries s) := by
  unfold execTask
  refine keeps_run ?_ hS
  intro d0 h1
  exact sound_taskCell (by assumption)

theorem keeps_execCredit {c : Cell} {n : ℕ} {s : State} (hS : s.dev.Sound) : Keeps (execCredit c n s) := by
  unfold execCredit
  refine keeps_run ?_ hS
  intro d0 h1
  exact sound_creditCell (by assumption)

theorem keeps_execAbort {c : Cell} {s : State} (hS : s.dev.Sound) : Keeps (execAbort c s) := by
  unfold execAbort
  refine keeps_run ?_ hS
  intro d0 h1
  split
  split
  · exact sound_of_eq (by assumption) (sound_acceptCell (by assumption))
  · split
    · exact sound_subAck (sound_of_eq (by assumption) (sound_acceptCell (by assumption)))
    · apply sound_subAck
      apply sound_post
      apply sound_taskDrop
      rename_i r2 r3 r4 r5 r6 r7
      refine sound_upd (d := r2) rfl rfl rfl rfl rfl rfl rfl id rfl rfl id id id id ?_
      exact sound_of_eq (by assumption) (sound_acceptCell (by assumption))

theorem keeps_execResult {c : Cell} {words : List ℕ} {s : State} (hS : s.dev.Sound) : Keeps (execResult c words s) := by
  unfold execResult
  refine keeps_run ?_ hS
  intro d0 h1
  exact sound_resultCell (by assumption)

theorem keeps_execTaskEnd {c : Cell} {cells : ℕ} {examined : ℕ} {word : ℕ} {fault : ℕ} {bytes : ℕ} {tag : List ℕ} {s : State} (hS : s.dev.Sound) : Keeps (execTaskEnd c cells examined word fault bytes tag s) := by
  unfold execTaskEnd
  refine keeps_run ?_ hS
  intro d0 h1
  exact sound_taskEnded (by assumption)

theorem keeps_execRequestRetry {type : ℕ} {tag : ℕ} {topo : Bool} {s : State} (hS : s.dev.Sound) : Keeps (execRequestRetry type tag topo s) := by
  unfold execRequestRetry
  refine keeps_run ?_ hS
  intro d0 h1
  split
  · exact sound_subRetry (by assumption)
  · split
    · exact sound_snpRetry (by assumption)
    · exact sound_remoteRetry (by assumption)

theorem keeps_execNak {c : Cell} {s : State} (hS : s.dev.Sound) : Keeps (execNak c s) := by
  unfold execNak
  refine keeps_run ?_ hS
  intro d0 h1
  split
  split
  · exact sound_of_eq (by assumption) (sound_acceptCell (by assumption))
  · split
    · exact sound_remotePut (sound_of_eq (by assumption) (sound_acceptCell (by assumption)))
    · split
      · split
        · exact sound_of_eq (by assumption) (sound_acceptCell (by assumption))
        · exact sound_subLost (sound_of_eq (by assumption) (sound_acceptCell (by assumption)))
      · exact sound_of_eq (by assumption) (sound_acceptCell (by assumption))

theorem keeps_execCipherRequestDone {core : ℕ} {s : State} (hS : s.dev.Sound) : Keeps (execCipherRequestDone core s) := by
  unfold execCipherRequestDone
  refine keeps_run ?_ hS
  intro d0 h1
  exact sound_cipherDone (by assumption)

theorem keeps_execCipherCoreDisabled {core : ℕ} {parity : Bool} {s : State} (hS : s.dev.Sound) : Keeps (execCipherCoreDisabled core parity s) := by
  unfold execCipherCoreDisabled
  refine keeps_run ?_ hS
  intro d0 h1
  split
  · assumption
  · extract_lets +onlyGivenNames -underBinder d2i0 d2
    have h3 : d2.Sound := by
      dsimp -zeta only [d2]
      assumption
    clear_value d2
    extract_lets +onlyGivenNames -underBinder d4
    have h5 : d4.Sound := by
      dsimp -zeta only [d4]
      exact sound_post (by assumption)
    clear_value d4
    extract_lets +onlyGivenNames -underBinder d6
    clear_value d6
    refine sound_foldl _ ?_ fun d8 a9 h10 => ?_
    · assumption
    · exact sound_cipherFinish (by assumption)

theorem keeps_execCphKeyZeroize {tr : Transport} {p : List Byte} {s : State} (hS : s.dev.Sound) : Keeps (execCphKeyZeroize tr p s) := by
  unfold execCphKeyZeroize
  refine keeps_run ?_ hS
  intro d0 h1
  apply sound_command
  · assumption
  · intro a2 d3 h4
    exact sound_cphZeroize (by assumption)

end Sys2Proof.Machine
end

