-- ==== Sys2Proof/Laws/KeepsHostMem.lean ====
section
/-! SUPPORT. Laws/KeepsHostMem.lean: the commands of HostMem.lean keep the node's stores in order. -/

namespace Sys2Proof.Machine

set_option linter.unusedVariables false

theorem keeps_execCxlMemRead {tag : ℕ} {addr : ℕ} {mv : Meta} {fx : ReqFx} {lat : Lat} {s : State} (hS : s.dev.Sound) : Keeps (execCxlMemRead tag addr mv fx lat s) := by
  unfold execCxlMemRead
  refine keeps_run ?_ hS
  intro d0 h1
  exact sound_hostRead (by assumption)

theorem keeps_execCxlMemWrite {tag : ℕ} {addr : ℕ} {mv : Meta} {data : Line} {be : BitVec 64} {poison : Bool} {fx : ReqFx} {lat : Lat} {s : State} (hS : s.dev.Sound) : Keeps (execCxlMemWrite tag addr mv data be poison fx lat s) := by
  unfold execCxlMemWrite
  refine keeps_run ?_ hS
  intro d0 h1
  exact sound_hostWrite (by assumption)

theorem keeps_execMemclnevct {tag : ℕ} {addr : ℕ} {mv : Meta} {sfBad : Bool} {s : State} (hS : s.dev.Sound) : Keeps (execMemclnevct tag addr mv sfBad s) := by
  unfold execMemclnevct
  refine keeps_run ?_ hS
  intro d0 h1
  apply sound_hostEnter
  · assumption
  · intro d2 h3
    exact sound_ndrHost (by assumption)
  · intro a4 a5 d6 h7
    exact sound_ndrHost (by assumption)

theorem keeps_execMapLineReadDone {id : ℕ} {bad : BitVec 64} {lat : Lat} {s : State} (hS : s.dev.Sound) : Keeps (execMapLineReadDone id bad lat s) := by
  unfold execMapLineReadDone
  refine keeps_run ?_ hS
  intro d0 h1
  exact sound_mapReadDone (by assumption)

theorem keeps_execMapLineRefetchDone {m : ℕ} {bad : BitVec 64} {s : State} (hS : s.dev.Sound) : Keeps (execMapLineRefetchDone m bad s) := by
  unfold execMapLineRefetchDone
  refine keeps_run ?_ hS
  intro d0 h1
  exact sound_mapRefetchDone (by assumption)

theorem keeps_execMapLineRecomputeDone {m : ℕ} {latestOk : Bool} {olderOk : Bool} {us : ℕ} {s : State} (hS : s.dev.Sound) : Keeps (execMapLineRecomputeDone m latestOk olderOk us s) := by
  unfold execMapLineRecomputeDone
  refine keeps_run ?_ hS
  intro d0 h1
  exact sound_mapRecomputeDone (by assumption)

theorem keeps_execCushionReadDone {id : ℕ} {bad : BitVec 64} {maskBad : Bool} {lat : Lat} {s : State} (hS : s.dev.Sound) : Keeps (execCushionReadDone id bad maskBad lat s) := by
  unfold execCushionReadDone
  refine keeps_run ?_ hS
  intro d0 h1
  exact sound_cushionReadDone (by assumption)

theorem keeps_execCushionMirrorRefetchDone {id : ℕ} {bad : BitVec 64} {lat : Lat} {s : State} (hS : s.dev.Sound) : Keeps (execCushionMirrorRefetchDone id bad lat s) := by
  unfold execCushionMirrorRefetchDone
  refine keeps_run ?_ hS
  intro d0 h1
  exact sound_cushionMirrorDone (by assumption)

theorem keeps_execMediaReadDone {id : ℕ} {badParts : BitVec 20} {lineBad : Bool} {lat : Lat} {s : State} (hS : s.dev.Sound) : Keeps (execMediaReadDone id badParts lineBad lat s) := by
  unfold execMediaReadDone
  refine keeps_run ?_ hS
  intro d0 h1
  exact sound_mediaReadDone (by assumption)

theorem keeps_execReadRefetchDone {id : ℕ} {badParts : BitVec 20} {lineBad : Bool} {lat : Lat} {s : State} (hS : s.dev.Sound) : Keeps (execReadRefetchDone id badParts lineBad lat s) := by
  unfold execReadRefetchDone
  refine keeps_run ?_ hS
  intro d0 h1
  exact sound_refetchDone (by assumption)

theorem keeps_execReadRecomputeDone {id : ℕ} {badParts : BitVec 20} {errs : ℕ} {lineBad : Bool} {us : ℕ} {lat : Lat} {s : State} (hS : s.dev.Sound) : Keeps (execReadRecomputeDone id badParts errs lineBad us lat s) := by
  unfold execReadRecomputeDone
  refine keeps_run ?_ hS
  intro d0 h1
  exact sound_recomputeDone (by assumption)

theorem keeps_execRecomputeSecondPass {id : ℕ} {badParts : BitVec 20} {errs : ℕ} {lineBad : Bool} {us : ℕ} {lat : Lat} {s : State} (hS : s.dev.Sound) : Keeps (execRecomputeSecondPass id badParts errs lineBad us lat s) := by
  unfold execRecomputeSecondPass
  refine keeps_run ?_ hS
  intro d0 h1
  exact sound_recomputeDone (by assumption)

theorem keeps_execCreditReturn {port : Port} {s : State} (hS : s.dev.Sound) : Keeps (execCreditReturn port s) := by
  unfold execCreditReturn
  refine keeps_run ?_ hS
  intro d0 h1
  exact sound_creditReturn (by assumption)

theorem keeps_execDramWriteQueueIssue {ch : ℕ} {s : State} (hS : s.dev.Sound) : Keeps (execDramWriteQueueIssue ch s) := by
  unfold execDramWriteQueueIssue
  refine keeps_run ?_ hS
  intro d0 h1
  exact sound_admitEval (by assumption)

theorem keeps_execDramRefreshWindow {s : State} (hS : s.dev.Sound) : Keeps (execDramRefreshWindow s) := by
  unfold execDramRefreshWindow
  refine keeps_run ?_ hS
  intro d0 h1
  extract_lets +onlyGivenNames -underBinder d2
  clear_value d2
  assumption

theorem keeps_execSliceBoundary {s : State} (hS : s.dev.Sound) : Keeps (execSliceBoundary s) := by
  unfold execSliceBoundary
  refine keeps_run ?_ hS
  intro d0 h1
  exact sound_sliceBoundary (by assumption)

end Sys2Proof.Machine
end

