-- ==== Sys2Proof/Laws/KeepsHostPort.lean ====
section
/-! SUPPORT. Laws/KeepsHostPort.lean: the commands of HostPort.lean keep the node's stores in order. -/

namespace Sys2Proof.Machine

set_option linter.unusedVariables false

theorem keeps_execHdmDecoderCommit {n : ℕ} {base : ℕ} {size : ℕ} {skip : ℕ} {bi : Bool} {iw : ℕ} {lock : Bool} {s : State} (hS : s.dev.Sound) : Keeps (execHdmDecoderCommit n base size skip bi iw lock s) := by
  unfold execHdmDecoderCommit
  refine keeps_run ?_ hS
  intro d0 h1
  exact sound_decCommit (by assumption)

theorem keeps_execWinClaim {c : Cell} {w : Win} {s : State} (hS : s.dev.Sound) : Keeps (execWinClaim c w s) := by
  unfold execWinClaim
  refine keeps_run ?_ hS
  intro d0 h1
  exact sound_winClaim (by assumption)

theorem keeps_execWinReply {c : Cell} {w : Win} {s : State} (hS : s.dev.Sound) : Keeps (execWinReply c w s) := by
  unfold execWinReply
  refine keeps_run ?_ hS
  intro d0 h1
  exact sound_winReplied (by assumption)

theorem keeps_execWinClaimReplyTimeout {n : ℕ} {s : State} (hS : s.dev.Sound) : Keeps (execWinClaimReplyTimeout n s) := by
  unfold execWinClaimReplyTimeout
  refine keeps_run ?_ hS
  intro d0 h1
  extract_lets +onlyGivenNames -underBinder d2
  clear_value d2
  split
  · assumption
  · split <;> exact sound_decFail (by assumption)

theorem keeps_execWinCommit {c : Cell} {w : Win} {s : State} (hS : s.dev.Sound) : Keeps (execWinCommit c w s) := by
  unfold execWinCommit
  refine keeps_run ?_ hS
  intro d0 h1
  split
  split
  · exact sound_winPut (sound_of_eq (by assumption) (sound_acceptCell (by assumption)))
  · exact sound_of_eq (by assumption) (sound_acceptCell (by assumption))

theorem keeps_execWinRelease {c : Cell} {w : Win} {s : State} (hS : s.dev.Sound) : Keeps (execWinRelease c w s) := by
  unfold execWinRelease
  refine keeps_run ?_ hS
  intro d0 h1
  split
  split
  · exact sound_winDrop (sound_of_eq (by assumption) (sound_acceptCell (by assumption)))
  · exact sound_of_eq (by assumption) (sound_acceptCell (by assumption))

theorem keeps_execHdmDecoderDecommit {n : ℕ} {s : State} (hS : s.dev.Sound) : Keeps (execHdmDecoderDecommit n s) := by
  unfold execHdmDecoderDecommit
  refine keeps_run ?_ hS
  intro d0 h1
  split
  · assumption
  · exact sound_decDecommit (by assumption)

theorem keeps_execSnpQry {c : Cell} {s : State} (hS : s.dev.Sound) : Keeps (execSnpQry c s) := by
  unfold execSnpQry
  refine keeps_run ?_ hS
  intro d0 h1
  split
  split
  · exact sound_snpAsk (sound_of_eq (by assumption) (sound_acceptCell (by assumption)))
  · exact sound_of_eq (by assumption) (sound_acceptCell (by assumption))

theorem keeps_execSnpDone {c : Cell} {s : State} (hS : s.dev.Sound) : Keeps (execSnpDone c s) := by
  unfold execSnpDone
  refine keeps_run ?_ hS
  intro d0 h1
  split
  split
  · rename_i r2 r3 r4
    refine sound_upd (d := r2) rfl rfl rfl rfl rfl rfl rfl id rfl rfl id id id id ?_
    exact sound_of_eq (by assumption) (sound_acceptCell (by assumption))
  · exact sound_of_eq (by assumption) (sound_acceptCell (by assumption))

theorem keeps_execBisnpSend {s : State} (hS : s.dev.Sound) : Keeps (execBisnpSend s) := by
  unfold execBisnpSend
  refine keeps_run ?_ hS
  intro d0 h1
  exact sound_bisnpSend (by assumption)

theorem keeps_execBirsp {line : ℕ} {writeBack : Option Line} {s : State} (hS : s.dev.Sound) : Keeps (execBirsp line writeBack s) := by
  unfold execBirsp
  refine keeps_run ?_ hS
  intro d0 h1
  exact sound_birsp (by assumption)

theorem keeps_execBiconflict {line : ℕ} {s : State} (hS : s.dev.Sound) : Keeps (execBiconflict line s) := by
  unfold execBiconflict
  refine keeps_run ?_ hS
  intro d0 h1
  split
  · assumption
  · split
    · assumption
    · exact sound_emit (by assumption)

theorem keeps_execLinkUp {width : ℕ} {rate : ℕ} {flit : ℕ} {s : State} (hS : s.dev.Sound) : Keeps (execLinkUp width rate flit s) := by
  unfold execLinkUp
  refine keeps_run ?_ hS
  intro d0 h1
  split
  · assumption
  · extract_lets +onlyGivenNames -underBinder d2i0 d2i1 d2
    have h3 : d2.Sound := by
      dsimp -zeta only [d2]
      exact sound_post (by assumption)
    clear_value d2
    exact sound_postIf (by assumption)

theorem keeps_execLinkDown {s : State} (hS : s.dev.Sound) : Keeps (execLinkDown s) := by
  unfold execLinkDown
  refine keeps_run ?_ hS
  intro d0 h1
  exact sound_portReset (by assumption)

theorem keeps_execPerstAsserted {s : State} (hS : s.dev.Sound) : Keeps (execPerstAsserted s) := by
  unfold execPerstAsserted
  refine keeps_run ?_ hS
  intro d0 h1
  extract_lets +onlyGivenNames -underBinder d2
  have h3 : d2.Sound := by
    dsimp -zeta only [d2]
    exact sound_portReset (by assumption)
  clear_value d2
  assumption

theorem keeps_execPerstDeasserted {s : State} (hS : s.dev.Sound) : Keeps (execPerstDeasserted s) := by
  unfold execPerstDeasserted
  refine keeps_run ?_ hS
  intro d0 h1
  assumption

theorem keeps_execHotReset {s : State} (hS : s.dev.Sound) : Keeps (execHotReset s) := by
  unfold execHotReset
  refine keeps_run ?_ hS
  intro d0 h1
  exact sound_portReset (by assumption)

theorem keeps_execCxlReset {s : State} (hS : s.dev.Sound) : Keeps (execCxlReset s) := by
  unfold execCxlReset
  refine keeps_run ?_ hS
  intro d0 h1
  exact sound_portReset (by assumption)

theorem keeps_execConfigRequest {tag : ℕ} {viral : Option Bool} {s : State} (hS : s.dev.Sound) : Keeps (execConfigRequest tag viral s) := by
  unfold execConfigRequest
  refine keeps_run ?_ hS
  intro d0 h1
  split
  · assumption
  · split
    · exact sound_emit (by assumption)
    · extract_lets +onlyGivenNames -underBinder d2i0 d2
      have h3 : d2.Sound := by
        dsimp -zeta only [d2]
        assumption
      clear_value d2
      exact sound_emit (by assumption)

theorem keeps_execDoeCdatRead {s : State} (hS : s.dev.Sound) : Keeps (execDoeCdatRead s) := by
  unfold execDoeCdatRead
  refine keeps_run ?_ hS
  intro d0 h1
  split
  · assumption
  · exact sound_emit (by assumption)

theorem keeps_execDoeSpdm {s : State} (hS : s.dev.Sound) : Keeps (execDoeSpdm s) := by
  unfold execDoeSpdm
  refine keeps_run ?_ hS
  intro d0 h1
  split
  · exact sound_emit (by assumption)
  · assumption

theorem keeps_execIdeKm {stream : ℕ} {skid : Bool} {s : State} (hS : s.dev.Sound) : Keeps (execIdeKm stream skid s) := by
  unfold execIdeKm
  refine keeps_run ?_ hS
  intro d0 h1
  split <;> assumption

theorem keeps_execGpfPhase1 {s : State} (hS : s.dev.Sound) : Keeps (execGpfPhase1 s) := by
  unfold execGpfPhase1
  refine keeps_run ?_ hS
  intro d0 h1
  split
  · exact sound_emit (by assumption)
  · assumption

theorem keeps_execGpfPhase2 {s : State} (hS : s.dev.Sound) : Keeps (execGpfPhase2 s) := by
  unfold execGpfPhase2
  refine keeps_run ?_ hS
  intro d0 h1
  split
  · exact sound_emit (by assumption)
  · assumption

end Sys2Proof.Machine
end

