-- ==== Sys2Proof/Laws/KeepsLanes.lean ====
section
/-! SUPPORT. Laws/KeepsLanes.lean: the commands of Lanes.lean keep the node's stores in order. -/

namespace Sys2Proof.Machine

set_option linter.unusedVariables false

theorem keeps_execMapUpdateApply {s : State} (hS : s.dev.Sound) : Keeps (execMapUpdateApply s) := by
  unfold execMapUpdateApply
  refine keeps_run ?_ hS
  intro d0 h1
  exact sound_mapUpdateApply (by assumption)

theorem keeps_execMapLapLate {s : State} (hS : s.dev.Sound) : Keeps (execMapLapLate s) := by
  unfold execMapLapLate
  refine keeps_run ?_ hS
  intro d0 h1
  split
  · assumption
  · split
    · assumption
    · exact sound_post (by assumption)

theorem keeps_execLaneOffer {lane : ℕ} {who : Consumer} {ts : Trouble} {s : State} (hS : s.dev.Sound) : Keeps (execLaneOffer lane who ts s) := by
  unfold execLaneOffer
  refine keeps_run ?_ hS
  intro d0 h1
  exact sound_laneOffer (by assumption)

theorem keeps_execPinLift {id : ℕ} {s : State} (hS : s.dev.Sound) : Keeps (execPinLift id s) := by
  unfold execPinLift
  refine keeps_run ?_ hS
  intro d0 h1
  exact sound_resetKick (sound_waveKick (by assumption))

theorem keeps_execProgramWaveDone {lane : ℕ} {fail : BitVec 20} {s : State} (hS : s.dev.Sound) : Keeps (execProgramWaveDone lane fail s) := by
  unfold execProgramWaveDone
  refine keeps_run ?_ hS
  intro d0 h1
  exact sound_programWaveDone (by assumption)

theorem keeps_execResetDone {lane : ℕ} {pos : ℕ} {ok : Bool} {s : State} (hS : s.dev.Sound) : Keeps (execResetDone lane pos ok s) := by
  unfold execResetDone
  refine keeps_run ?_ hS
  intro d0 h1
  exact sound_resetDone (by assumption)

theorem keeps_execOperationSuspended {lane : ℕ} {pos : ℕ} {s : State} (hS : s.dev.Sound) : Keeps (execOperationSuspended lane pos s) := by
  unfold execOperationSuspended
  refine keeps_run ?_ hS
  intro d0 h1
  exact sound_opSuspend (by assumption)

theorem keeps_execOperationResume {lane : ℕ} {pos : ℕ} {us : ℕ} {s : State} (hS : s.dev.Sound) : Keeps (execOperationResume lane pos us s) := by
  unfold execOperationResume
  refine keeps_run ?_ hS
  intro d0 h1
  split
  · split
    · assumption
    · extract_lets +onlyGivenNames -underBinder d2
      clear_value d2
      extract_lets +onlyGivenNames -underBinder d4
      have h5 : d4.Sound := by
        dsimp -zeta only [d4]
        exact sound_opMod (by assumption)
      clear_value d4
      split
      · split
        · exact sound_opStall (by assumption)
        · assumption
      · split
        · exact sound_opStall (by assumption)
        · assumption
  · assumption

theorem keeps_execOperationStall {lane : ℕ} {pos : ℕ} {us : ℕ} {s : State} (hS : s.dev.Sound) : Keeps (execOperationStall lane pos us s) := by
  unfold execOperationStall
  refine keeps_run ?_ hS
  intro d0 h1
  exact sound_opStall (by assumption)

theorem keeps_execDieFailed {ch : ℕ} {die : ℕ} {ops : ℕ} {s : State} (hS : s.dev.Sound) : Keeps (execDieFailed ch die ops s) := by
  unfold execDieFailed
  refine keeps_run ?_ hS
  intro d0 h1
  exact sound_dieFail (by assumption)

theorem keeps_execVerifyPassDone {nsb : ℕ} {pos : ℕ} {pages : List ℕ} {lost : List (ℕ × ℕ)} {s : State} (hS : s.dev.Sound) : Keeps (execVerifyPassDone nsb pos pages lost s) := by
  unfold execVerifyPassDone
  refine keeps_run ?_ hS
  intro d0 h1
  exact sound_verifyPassDone (by assumption)

theorem keeps_execSlotDrainEnd {key : ℕ} {s : State} (hS : s.dev.Sound) : Keeps (execSlotDrainEnd key s) := by
  unfold execSlotDrainEnd
  refine keeps_run ?_ hS
  intro d0 h1
  split
  · apply sound_admitEval
    refine sound_upd (d := d0) rfl rfl rfl rfl rfl rfl rfl ?_ rfl rfl ?_ ?_ ?_ ?_ ?_
    · intro a2
      assumption
    · intro a3
      assumption
    · intro a4
      assumption
    · intro a5
      exact twf_tset _ _ _ (by assumption)
    · intro a6
      assumption
    · assumption
  · assumption

theorem keeps_execGenLimitRetry {s : State} (hS : s.dev.Sound) : Keeps (execGenLimitRetry s) := by
  unfold execGenLimitRetry
  refine keeps_run ?_ hS
  intro d0 h1
  split
  · exact sound_fwPut (by assumption)
  · assumption

end Sys2Proof.Machine
end

