-- ==== Sys2Proof/Laws/KeepsMbxJobs.lean ====
section
/-! SUPPORT. Laws/KeepsMbxJobs.lean: the commands of MbxJobs.lean keep the node's stores in order. -/

namespace Sys2Proof.Machine

set_option linter.unusedVariables false

theorem keeps_execMbxProgressRefresh {units : ℕ} {ms : ℕ} {ts : Trouble} {s : State} (hS : s.dev.Sound) : Keeps (execMbxProgressRefresh units ms ts s) := by
  unfold execMbxProgressRefresh
  refine keeps_run ?_ hS
  intro d0 h1
  exact sound_progressRefresh (by assumption)

theorem keeps_execMbxCommandComplete {ms : ℕ} {s : State} (hS : s.dev.Sound) : Keeps (execMbxCommandComplete ms s) := by
  unfold execMbxCommandComplete
  refine keeps_run ?_ hS
  intro d0 h1
  exact sound_commandComplete (by assumption)

end Sys2Proof.Machine
end

