-- ==== Sys2Proof/Laws/KeepsMbxNode.lean ====
section
/-! SUPPORT. Laws/KeepsMbxNode.lean: the commands of MbxNode.lean keep the node's stores in order. -/

namespace Sys2Proof.Machine

set_option linter.unusedVariables false

theorem keeps_execGetRingStatus {tr : Transport} {p : List Byte} {s : State} (hS : s.dev.Sound) : Keeps (execGetRingStatus tr p s) := by
  unfold execGetRingStatus
  refine keeps_run ?_ hS
  intro d0 h1
  apply sound_command
  · assumption
  · intro a2 d3 h4
    exact sound_ans (by assumption)

theorem keeps_execSetRingIndex {tr : Transport} {p : List Byte} {s : State} (hS : s.dev.Sound) : Keeps (execSetRingIndex tr p s) := by
  unfold execSetRingIndex
  refine keeps_run ?_ hS
  intro d0 h1
  apply sound_command
  · assumption
  · intro a2 d3 h4
    exact sound_setRingIndex (by assumption)

theorem keeps_execRingGroupRekey {tr : Transport} {p : List Byte} {s : State} (hS : s.dev.Sound) : Keeps (execRingGroupRekey tr p s) := by
  unfold execRingGroupRekey
  refine keeps_run ?_ hS
  intro d0 h1
  apply sound_command
  · assumption
  · intro a2 d3 h4
    exact sound_ringRekey (by assumption)

theorem keeps_execRingLeave {tr : Transport} {p : List Byte} {s : State} (hS : s.dev.Sound) : Keeps (execRingLeave tr p s) := by
  unfold execRingLeave
  refine keeps_run ?_ hS
  intro d0 h1
  apply sound_command
  · assumption
  · intro a2 d3 h4
    exact sound_ringLeave (by assumption)

theorem keeps_execRingRejoin {tr : Transport} {p : List Byte} {s : State} (hS : s.dev.Sound) : Keeps (execRingRejoin tr p s) := by
  unfold execRingRejoin
  refine keeps_run ?_ hS
  intro d0 h1
  apply sound_command
  · assumption
  · intro a2 d3 h4
    exact sound_ringRejoin (by assumption)

theorem keeps_execGetEngineStatus {tr : Transport} {p : List Byte} {s : State} (hS : s.dev.Sound) : Keeps (execGetEngineStatus tr p s) := by
  unfold execGetEngineStatus
  refine keeps_run ?_ hS
  intro d0 h1
  apply sound_command
  · assumption
  · intro a2 d3 h4
    exact sound_ans (by assumption)

theorem keeps_execClearScratch {tr : Transport} {p : List Byte} {s : State} (hS : s.dev.Sound) : Keeps (execClearScratch tr p s) := by
  unfold execClearScratch
  refine keeps_run ?_ hS
  intro d0 h1
  apply sound_command
  · assumption
  · intro a2 d3 h4
    exact sound_clearScratch (by assumption)

theorem keeps_execReleaseRange {tr : Transport} {p : List Byte} {s : State} (hS : s.dev.Sound) : Keeps (execReleaseRange tr p s) := by
  unfold execReleaseRange
  refine keeps_run ?_ hS
  intro d0 h1
  apply sound_command
  · assumption
  · intro a2 d3 h4
    exact sound_releaseRange (by assumption)

theorem keeps_execShedCapacity {tr : Transport} {p : List Byte} {s : State} (hS : s.dev.Sound) : Keeps (execShedCapacity tr p s) := by
  unfold execShedCapacity
  refine keeps_run ?_ hS
  intro d0 h1
  apply sound_command
  · assumption
  · intro a2 d3 h4
    exact sound_shedCapacity (by assumption)

theorem keeps_execClearWriteRefused {tr : Transport} {p : List Byte} {s : State} (hS : s.dev.Sound) : Keeps (execClearWriteRefused tr p s) := by
  unfold execClearWriteRefused
  refine keeps_run ?_ hS
  intro d0 h1
  apply sound_command
  · assumption
  · intro a2 d3 h4
    exact sound_clearRefused (by assumption)

theorem keeps_execGetMediaLife {tr : Transport} {p : List Byte} {s : State} (hS : s.dev.Sound) : Keeps (execGetMediaLife tr p s) := by
  unfold execGetMediaLife
  refine keeps_run ?_ hS
  intro d0 h1
  apply sound_command
  · assumption
  · intro a2 d3 h4
    exact sound_ans (by assumption)

theorem keeps_execIdentifyNode {tr : Transport} {p : List Byte} {s : State} (hS : s.dev.Sound) : Keeps (execIdentifyNode tr p s) := by
  unfold execIdentifyNode
  refine keeps_run ?_ hS
  intro d0 h1
  apply sound_command
  · assumption
  · intro a2 d3 h4
    exact sound_ans (by assumption)

theorem keeps_execLedgerSnapshot {tr : Transport} {p : List Byte} {s : State} (hS : s.dev.Sound) : Keeps (execLedgerSnapshot tr p s) := by
  unfold execLedgerSnapshot
  refine keeps_run ?_ hS
  intro d0 h1
  apply sound_command
  · assumption
  · intro a2 d3 h4
    exact sound_ledgerSnapshot (by assumption)

theorem keeps_execMemRead {tr : Transport} {p : List Byte} {ts : Trouble} {dbg : Bool} {s : State} (hS : s.dev.Sound) : Keeps (execMemRead tr p ts dbg s) := by
  unfold execMemRead
  refine keeps_run ?_ hS
  intro d0 h1
  split
  · exact sound_debugRead (by assumption)
  · apply sound_command
    · assumption
    · intro a2 d3 h4
      exact sound_memRead (by assumption)

theorem keeps_execLockstepMismatch {pair : ℕ} {pc : ℕ} {s : State} (hS : s.dev.Sound) : Keeps (execLockstepMismatch pair pc s) := by
  unfold execLockstepMismatch
  refine keeps_run ?_ hS
  intro d0 h1
  exact sound_fatal (by assumption)

end Sys2Proof.Machine
end

