-- ==== Sys2Proof/Laws/KeepsMbxStd.lean ====
section
/-! SUPPORT. Laws/KeepsMbxStd.lean: the commands of MbxStd.lean keep the node's stores in order. -/

namespace Sys2Proof.Machine

set_option linter.unusedVariables false

theorem keeps_execIdentify {tr : Transport} {p : List Byte} {s : State} (hS : s.dev.Sound) : Keeps (execIdentify tr p s) := by
  unfold execIdentify
  refine keeps_run ?_ hS
  intro d0 h1
  apply sound_command
  · assumption
  · intro a2 d3 h4
    exact sound_ans (by assumption)

theorem keeps_execIdentifyMemoryDevice {tr : Transport} {p : List Byte} {s : State} (hS : s.dev.Sound) : Keeps (execIdentifyMemoryDevice tr p s) := by
  unfold execIdentifyMemoryDevice
  refine keeps_run ?_ hS
  intro d0 h1
  apply sound_command
  · assumption
  · intro a2 d3 h4
    exact sound_ans (by assumption)

theorem keeps_execGetFwInfo {tr : Transport} {p : List Byte} {s : State} (hS : s.dev.Sound) : Keeps (execGetFwInfo tr p s) := by
  unfold execGetFwInfo
  refine keeps_run ?_ hS
  intro d0 h1
  apply sound_command
  · assumption
  · intro a2 d3 h4
    exact sound_ans (by assumption)

theorem keeps_execGetSupportedLogs {tr : Transport} {p : List Byte} {s : State} (hS : s.dev.Sound) : Keeps (execGetSupportedLogs tr p s) := by
  unfold execGetSupportedLogs
  refine keeps_run ?_ hS
  intro d0 h1
  apply sound_command
  · assumption
  · intro a2 d3 h4
    exact sound_ans (by assumption)

theorem keeps_execGetLog {tr : Transport} {p : List Byte} {s : State} (hS : s.dev.Sound) : Keeps (execGetLog tr p s) := by
  unfold execGetLog
  refine keeps_run ?_ hS
  intro d0 h1
  apply sound_command
  · assumption
  · intro a2 d3 h4
    exact sound_getLog (by assumption)

theorem keeps_execGetHealthInfo {tr : Transport} {p : List Byte} {s : State} (hS : s.dev.Sound) : Keeps (execGetHealthInfo tr p s) := by
  unfold execGetHealthInfo
  refine keeps_run ?_ hS
  intro d0 h1
  apply sound_command
  · assumption
  · intro a2 d3 h4
    exact sound_ans (by assumption)

theorem keeps_execGetAlertConfiguration {tr : Transport} {p : List Byte} {s : State} (hS : s.dev.Sound) : Keeps (execGetAlertConfiguration tr p s) := by
  unfold execGetAlertConfiguration
  refine keeps_run ?_ hS
  intro d0 h1
  apply sound_command
  · assumption
  · intro a2 d3 h4
    exact sound_ans (by assumption)

theorem keeps_execSetAlertConfiguration {tr : Transport} {p : List Byte} {s : State} (hS : s.dev.Sound) : Keeps (execSetAlertConfiguration tr p s) := by
  unfold execSetAlertConfiguration
  refine keeps_run ?_ hS
  intro d0 h1
  apply sound_command
  · assumption
  · intro a2 d3 h4
    exact sound_ret (sound_setAlerts (by assumption))

theorem keeps_execGetEventRecords {tr : Transport} {p : List Byte} {s : State} (hS : s.dev.Sound) : Keeps (execGetEventRecords tr p s) := by
  unfold execGetEventRecords
  refine keeps_run ?_ hS
  intro d0 h1
  apply sound_command
  · assumption
  · intro a2 d3 h4
    exact sound_ans (by assumption)

theorem keeps_execClearEventRecords {tr : Transport} {p : List Byte} {s : State} (hS : s.dev.Sound) : Keeps (execClearEventRecords tr p s) := by
  unfold execClearEventRecords
  refine keeps_run ?_ hS
  intro d0 h1
  apply sound_command
  · assumption
  · intro a2 d3 h4
    exact sound_clearEvents (by assumption)

theorem keeps_execGetEventInterruptPolicy {tr : Transport} {p : List Byte} {s : State} (hS : s.dev.Sound) : Keeps (execGetEventInterruptPolicy tr p s) := by
  unfold execGetEventInterruptPolicy
  refine keeps_run ?_ hS
  intro d0 h1
  apply sound_command
  · assumption
  · intro a2 d3 h4
    exact sound_ans (by assumption)

theorem keeps_execSetEventInterruptPolicy {tr : Transport} {p : List Byte} {s : State} (hS : s.dev.Sound) : Keeps (execSetEventInterruptPolicy tr p s) := by
  unfold execSetEventInterruptPolicy
  refine keeps_run ?_ hS
  intro d0 h1
  apply sound_command
  · assumption
  · intro a2 d3 h4
    exact sound_ret (sound_setPolicy (by assumption))

theorem keeps_execGetTimestamp {tr : Transport} {p : List Byte} {s : State} (hS : s.dev.Sound) : Keeps (execGetTimestamp tr p s) := by
  unfold execGetTimestamp
  refine keeps_run ?_ hS
  intro d0 h1
  apply sound_command
  · assumption
  · intro a2 d3 h4
    exact sound_ans (by assumption)

theorem keeps_execSetTimestamp {tr : Transport} {p : List Byte} {s : State} (hS : s.dev.Sound) : Keeps (execSetTimestamp tr p s) := by
  unfold execSetTimestamp
  refine keeps_run ?_ hS
  intro d0 h1
  apply sound_command
  · assumption
  · intro a2 d3 h4
    exact sound_ret (sound_setTime (by assumption))

theorem keeps_execGetPoisonList {tr : Transport} {p : List Byte} {s : State} (hS : s.dev.Sound) : Keeps (execGetPoisonList tr p s) := by
  unfold execGetPoisonList
  refine keeps_run ?_ hS
  intro d0 h1
  apply sound_command
  · assumption
  · intro a2 d3 h4
    exact sound_getPoison (by assumption)

theorem keeps_execGetScanMediaCapabilities {tr : Transport} {p : List Byte} {s : State} (hS : s.dev.Sound) : Keeps (execGetScanMediaCapabilities tr p s) := by
  unfold execGetScanMediaCapabilities
  refine keeps_run ?_ hS
  intro d0 h1
  apply sound_command
  · assumption
  · intro a2 d3 h4
    split
    · exact sound_ans (by assumption)
    · exact sound_ret (by assumption)

theorem keeps_execScanMedia {tr : Transport} {p : List Byte} {s : State} (hS : s.dev.Sound) : Keeps (execScanMedia tr p s) := by
  unfold execScanMedia
  refine keeps_run ?_ hS
  intro d0 h1
  apply sound_command
  · assumption
  · intro a2 d3 h4
    exact sound_scanStart (by assumption)

theorem keeps_execGetScanMediaResults {tr : Transport} {p : List Byte} {s : State} (hS : s.dev.Sound) : Keeps (execGetScanMediaResults tr p s) := by
  unfold execGetScanMediaResults
  refine keeps_run ?_ hS
  intro d0 h1
  apply sound_command
  · assumption
  · intro a2 d3 h4
    exact sound_scanResults (by assumption)

end Sys2Proof.Machine
end

