-- ==== Sys2Proof/Laws/KeepsModes.lean ====
section
/-! SUPPORT. Laws/KeepsModes.lean: the commands of Modes.lean keep the node's stores in order. -/

namespace Sys2Proof.Machine

set_option linter.unusedVariables false

theorem keeps_execTransitFailed {s : State} (hS : s.dev.Sound) : Keeps (execTransitFailed s) := by
  unfold execTransitFailed
  refine keeps_run ?_ hS
  intro d0 h1
  exact sound_transitFailed (by assumption)

theorem keeps_execSetMode {tr : Transport} {p : List Byte} {s : State} (hS : s.dev.Sound) : Keeps (execSetMode tr p s) := by
  unfold execSetMode
  refine keeps_run ?_ hS
  intro d0 h1
  apply sound_command
  · assumption
  · intro a2 d3 h4
    exact sound_setMode (by assumption)

theorem keeps_execDormantIdle {s : State} (hS : s.dev.Sound) : Keeps (execDormantIdle s) := by
  unfold execDormantIdle
  refine keeps_run ?_ hS
  intro d0 h1
  assumption

theorem keeps_execPowerGood {s : State} (hS : s.dev.Sound) : Keeps (execPowerGood s) := by
  unfold execPowerGood
  refine keeps_run ?_ hS
  intro d0 h1
  split
  · exact sound_modeEnter (sound_suppliesSeen (by assumption))
  · assumption

theorem keeps_execLeaveHeld {b : Boot} {s : State} (hS : s.dev.Sound) : Keeps (execLeaveHeld b s) := by
  unfold execLeaveHeld
  refine keeps_run ?_ hS
  intro d0 h1
  exact sound_leaveHeld (by assumption)

theorem keeps_execNodeResetDeasserted {b : Boot} {s : State} (hS : s.dev.Sound) : Keeps (execNodeResetDeasserted b s) := by
  unfold execNodeResetDeasserted
  refine keeps_run ?_ hS
  intro d0 h1
  exact sound_leaveHeld (by assumption)

theorem keeps_execNodeResetAsserted {s : State} (hS : s.dev.Sound) : Keeps (execNodeResetAsserted s) := by
  unfold execNodeResetAsserted
  refine keeps_run ?_ hS
  intro d0 h1
  exact sound_nodeReset (by assumption)

theorem keeps_execPowerFailDump {s : State} (hS : s.dev.Sound) : Keeps (execPowerFailDump s) := by
  unfold execPowerFailDump
  refine keeps_run ?_ hS
  intro d0 h1
  exact sound_powerFail (by assumption)

theorem keeps_execDumpComplete {complete : Bool} {us : ℕ} {lost : List (ℕ × ℕ)} {s : State} (hS : s.dev.Sound) : Keeps (execDumpComplete complete us lost s) := by
  unfold execDumpComplete
  refine keeps_run ?_ hS
  intro d0 h1
  exact sound_dumpDone (by assumption)

theorem keeps_execClearHalt {tr : Transport} {p : List Byte} {s : State} (hS : s.dev.Sound) : Keeps (execClearHalt tr p s) := by
  unfold execClearHalt
  refine keeps_run ?_ hS
  intro d0 h1
  apply sound_command
  · assumption
  · intro a2 d3 h4
    split
    · exact sound_ret (sound_enterMode (by assumption))
    · exact sound_ret (by assumption)

end Sys2Proof.Machine
end

