-- ==== Sys2Proof/Laws/KeepsPower.lean ====
section
/-! SUPPORT. Laws/KeepsPower.lean: the commands of Power.lean keep the node's stores in order. -/

namespace Sys2Proof.Machine

set_option linter.unusedVariables false

theorem keeps_execMonitorFailed {rail : ℕ} {cause : ℕ} {mw : ℕ} {s : State} (hS : s.dev.Sound) : Keeps (execMonitorFailed rail cause mw s) := by
  unfold execMonitorFailed
  refine keeps_run ?_ hS
  intro d0 h1
  split
  · exact sound_monFail (by assumption)
  · assumption

theorem keeps_execMonitorConversion {rail : ℕ} {mw : ℕ} {s : State} (hS : s.dev.Sound) : Keeps (execMonitorConversion rail mw s) := by
  unfold execMonitorConversion
  refine keeps_run ?_ hS
  intro d0 h1
  exact sound_monitorConversion (by assumption)

theorem keeps_execSupplyOutOfRange {mv : ℕ} {s : State} (hS : s.dev.Sound) : Keeps (execSupplyOutOfRange mv s) := by
  unfold execSupplyOutOfRange
  refine keeps_run ?_ hS
  intro d0 h1
  exact sound_supplyOut (by assumption)

theorem keeps_execV12Overvoltage {s : State} (hS : s.dev.Sound) : Keeps (execV12Overvoltage s) := by
  unfold execV12Overvoltage
  refine keeps_run ?_ hS
  intro d0 h1
  exact sound_overvoltage (by assumption)

theorem keeps_execAuxLow {mv : ℕ} {s : State} (hS : s.dev.Sound) : Keeps (execAuxLow mv s) := by
  unfold execAuxLow
  refine keeps_run ?_ hS
  intro d0 h1
  split <;> assumption

theorem keeps_execAuxReset {s : State} (hS : s.dev.Sound) : Keeps (execAuxReset s) := by
  unfold execAuxReset
  refine keeps_run ?_ hS
  intro d0 h1
  exact sound_auxReset (by assumption)

theorem keeps_execAuxRestored {mv : ℕ} {s : State} (hS : s.dev.Sound) : Keeps (execAuxRestored mv s) := by
  unfold execAuxRestored
  refine keeps_run ?_ hS
  intro d0 h1
  exact sound_auxBack (by assumption)

theorem keeps_execClockFault {source : ℕ} {s : State} (hS : s.dev.Sound) : Keeps (execClockFault source s) := by
  unfold execClockFault
  refine keeps_run ?_ hS
  intro d0 h1
  exact sound_clockFault (by assumption)

theorem keeps_execThermalModelStep {s : State} (hS : s.dev.Sound) : Keeps (execThermalModelStep s) := by
  unfold execThermalModelStep
  refine keeps_run ?_ hS
  intro d0 h1
  exact sound_thermalStep (by assumption)

theorem keeps_execPowerLimitEvaluation {busyAvg : ℕ} {s : State} (hS : s.dev.Sound) : Keeps (execPowerLimitEvaluation busyAvg s) := by
  unfold execPowerLimitEvaluation
  refine keeps_run ?_ hS
  intro d0 h1
  exact sound_limitEval (by assumption)

theorem keeps_execTestDischargeStart {s : State} (hS : s.dev.Sound) : Keeps (execTestDischargeStart s) := by
  unfold execTestDischargeStart
  refine keeps_run ?_ hS
  intro d0 h1
  exact sound_testStart (by assumption)

theorem keeps_execTestDischargeRecharged {s : State} (hS : s.dev.Sound) : Keeps (execTestDischargeRecharged s) := by
  unfold execTestDischargeRecharged
  refine keeps_run ?_ hS
  intro d0 h1
  exact sound_testRecharged (by assumption)

theorem keeps_execSetThermalInput {tr : Transport} {p : List Byte} {s : State} (hS : s.dev.Sound) : Keeps (execSetThermalInput tr p s) := by
  unfold execSetThermalInput
  refine keeps_run ?_ hS
  intro d0 h1
  apply sound_command
  · assumption
  · intro a2 d3 h4
    exact sound_ret (by assumption)

theorem keeps_execSetPowerLimit {tr : Transport} {p : List Byte} {s : State} (hS : s.dev.Sound) : Keeps (execSetPowerLimit tr p s) := by
  unfold execSetPowerLimit
  refine keeps_run ?_ hS
  intro d0 h1
  apply sound_command
  · assumption
  · intro a2 d3 h4
    apply sound_ret
    split <;> assumption

theorem keeps_execGetPowerThermal {tr : Transport} {p : List Byte} {s : State} (hS : s.dev.Sound) : Keeps (execGetPowerThermal tr p s) := by
  unfold execGetPowerThermal
  refine keeps_run ?_ hS
  intro d0 h1
  apply sound_command
  · assumption
  · intro a2 d3 h4
    exact sound_ans (by assumption)

theorem keeps_execEnergyStoreTest {tr : Transport} {p : List Byte} {s : State} (hS : s.dev.Sound) : Keeps (execEnergyStoreTest tr p s) := by
  unfold execEnergyStoreTest
  refine keeps_run ?_ hS
  intro d0 h1
  apply sound_command
  · assumption
  · intro a2 d3 h4
    exact sound_mk (sound_testStart (by assumption))

theorem keeps_execPoweredHoursTick {s : State} (hS : s.dev.Sound) : Keeps (execPoweredHoursTick s) := by
  unfold execPoweredHoursTick
  refine keeps_run ?_ hS
  intro d0 h1
  split
  · exact sound_fwPut (by assumption)
  · assumption

theorem keeps_execSpdmOverMctp {tr : Transport} {s : State} (hS : s.dev.Sound) : Keeps (execSpdmOverMctp tr s) := by
  unfold execSpdmOverMctp
  refine keeps_run ?_ hS
  intro d0 h1
  split
  · exact sound_emit (by assumption)
  · assumption

theorem keeps_execEntdaa {da : ℕ} {s : State} (hS : s.dev.Sound) : Keeps (execEntdaa da s) := by
  unfold execEntdaa
  refine keeps_run ?_ hS
  intro d0 h1
  split <;> assumption

end Sys2Proof.Machine
end

