-- ==== Sys2Proof/Laws/KeepsPst.lean ====
section
/-! SUPPORT. Laws/KeepsPst.lean: the commands of Pst.lean keep the node's stores in order. -/

namespace Sys2Proof.Machine

set_option linter.unusedVariables false

theorem keeps_execPstRead {tr : Transport} {p : List Byte} {s : State} (hS : s.dev.Sound) : Keeps (execPstRead tr p s) := by
  unfold execPstRead
  refine keeps_run ?_ hS
  intro d0 h1
  apply sound_command
  · assumption
  · intro a2 d3 h4
    exact sound_pstRead (by assumption)

theorem keeps_execPstWrite {tr : Transport} {p : List Byte} {s : State} (hS : s.dev.Sound) : Keeps (execPstWrite tr p s) := by
  unfold execPstWrite
  refine keeps_run ?_ hS
  intro d0 h1
  extract_lets +onlyGivenNames -underBinder d2
  clear_value d2
  extract_lets +onlyGivenNames -underBinder d4
  have h5 : d4.Sound := by
    dsimp -zeta only [d4]
    apply sound_command
    · assumption
    · intro a6 d7 h8
      exact sound_pstWrite (by assumption)
  clear_value d4
  split
  · assumption
  · exact sound_hostRowStart (by assumption)

theorem keeps_execPstSetPassword {tr : Transport} {p : List Byte} {s : State} (hS : s.dev.Sound) : Keeps (execPstSetPassword tr p s) := by
  unfold execPstSetPassword
  refine keeps_run ?_ hS
  intro d0 h1
  apply sound_command
  · assumption
  · intro a2 d3 h4
    exact sound_pstSetPassword (by assumption)

theorem keeps_execPstGetInfo {tr : Transport} {p : List Byte} {s : State} (hS : s.dev.Sound) : Keeps (execPstGetInfo tr p s) := by
  unfold execPstGetInfo
  refine keeps_run ?_ hS
  intro d0 h1
  apply sound_command
  · assumption
  · intro a2 d3 h4
    exact sound_ans (by assumption)

theorem keeps_execPstRowWriteDone {s : State} (hS : s.dev.Sound) : Keeps (execPstRowWriteDone s) := by
  unfold execPstRowWriteDone
  refine keeps_run ?_ hS
  intro d0 h1
  exact sound_rowWriteDone (by assumption)

theorem keeps_execFlashEraseDone {ok : Bool} {s : State} (hS : s.dev.Sound) : Keeps (execFlashEraseDone ok s) := by
  unfold execFlashEraseDone
  refine keeps_run ?_ hS
  intro d0 h1
  exact sound_eraseDone (by assumption)

theorem keeps_execFlashEraseResume {s : State} (hS : s.dev.Sound) : Keeps (execFlashEraseResume s) := by
  unfold execFlashEraseResume
  refine keeps_run ?_ hS
  intro d0 h1
  split <;> assumption

theorem keeps_execFlashLogTimer {s : State} (hS : s.dev.Sound) : Keeps (execFlashLogTimer s) := by
  unfold execFlashLogTimer
  refine keeps_run ?_ hS
  intro d0 h1
  exact sound_flashStart (by assumption)

theorem keeps_execEraseMarkerRetry {s : State} (hS : s.dev.Sound) : Keeps (execEraseMarkerRetry s) := by
  unfold execEraseMarkerRetry
  refine keeps_run ?_ hS
  intro d0 h1
  exact sound_eraseNext (by assumption)

theorem keeps_execFlashSupplyCrossing {mv : ℕ} {s : State} (hS : s.dev.Sound) : Keeps (execFlashSupplyCrossing mv s) := by
  unfold execFlashSupplyCrossing
  refine keeps_run ?_ hS
  intro d0 h1
  extract_lets +onlyGivenNames -underBinder d2i0 d2
  have h3 : d2.Sound := by
    dsimp -zeta only [d2]
    assumption
  clear_value d2
  split
  · exact sound_waitSet (by assumption)
  · assumption

theorem keeps_execFlashPageProgramDone {ok : Bool} {s : State} (hS : s.dev.Sound) : Keeps (execFlashPageProgramDone ok s) := by
  unfold execFlashPageProgramDone
  refine keeps_run ?_ hS
  intro d0 h1
  exact sound_pageDone (by assumption)

theorem keeps_execTransferFw {tr : Transport} {p : List Byte} {progOk : Bool} {hashOk : Bool} {sigOk : Bool} {s : State} (hS : s.dev.Sound) : Keeps (execTransferFw tr p progOk hashOk sigOk s) := by
  unfold execTransferFw
  refine keeps_run ?_ hS
  intro d0 h1
  apply sound_command
  · assumption
  · intro a2 d3 h4
    exact sound_transferFw (by assumption)

theorem keeps_execActivateFw {tr : Transport} {p : List Byte} {sigOk : Bool} {s : State} (hS : s.dev.Sound) : Keeps (execActivateFw tr p sigOk s) := by
  unfold execActivateFw
  refine keeps_run ?_ hS
  intro d0 h1
  apply sound_command
  · assumption
  · intro a2 d3 h4
    exact sound_activateFw (by assumption)

theorem keeps_execFwWpChange {asserted : Bool} {s : State} (hS : s.dev.Sound) : Keeps (execFwWpChange asserted s) := by
  unfold execFwWpChange
  refine keeps_run ?_ hS
  intro d0 h1
  exact sound_fwWp (by assumption)

theorem keeps_execGetImageInfo {tr : Transport} {p : List Byte} {s : State} (hS : s.dev.Sound) : Keeps (execGetImageInfo tr p s) := by
  unfold execGetImageInfo
  refine keeps_run ?_ hS
  intro d0 h1
  apply sound_command
  · assumption
  · intro a2 d3 h4
    exact sound_ans (by assumption)

theorem keeps_execReadFlashLog {tr : Transport} {p : List Byte} {s : State} (hS : s.dev.Sound) : Keeps (execReadFlashLog tr p s) := by
  unfold execReadFlashLog
  refine keeps_run ?_ hS
  intro d0 h1
  apply sound_command
  · assumption
  · intro a2 d3 h4
    exact sound_readFlashLog (by assumption)

theorem keeps_execSetMinSecurityVersion {tr : Transport} {p : List Byte} {s : State} (hS : s.dev.Sound) : Keeps (execSetMinSecurityVersion tr p s) := by
  unfold execSetMinSecurityVersion
  refine keeps_run ?_ hS
  intro d0 h1
  apply sound_command
  · assumption
  · intro a2 d3 h4
    exact sound_setMinSec (by assumption)

end Sys2Proof.Machine
end

