-- ==== Sys2Proof/Laws/KeepsRecorder.lean ====
section
/-! SUPPORT. Laws/KeepsRecorder.lean: the commands of Recorder.lean keep the node's stores in order. -/

namespace Sys2Proof.Machine

set_option linter.unusedVariables false

theorem keeps_execRecordAccept {s : State} (hS : s.dev.Sound) : Keeps (execRecordAccept s) := by
  unfold execRecordAccept
  refine keeps_run ?_ hS
  intro d0 h1
  split
  · exact sound_acceptOne (by assumption)
  · assumption

theorem keeps_execCompatWindowEnd {s : State} (hS : s.dev.Sound) : Keeps (execCompatWindowEnd s) := by
  unfold execCompatWindowEnd
  refine keeps_run ?_ hS
  intro d0 h1
  split
  · assumption
  · exact sound_compatEnd (by assumption)

theorem keeps_execHistogramWindowEnd {s : State} (hS : s.dev.Sound) : Keeps (execHistogramWindowEnd s) := by
  unfold execHistogramWindowEnd
  refine keeps_run ?_ hS
  intro d0 h1
  split
  · assumption
  · exact sound_histEnd (by assumption)

theorem keeps_execFreezeExpired {s : State} (hS : s.dev.Sound) : Keeps (execFreezeExpired s) := by
  unfold execFreezeExpired
  refine keeps_run ?_ hS
  intro d0 h1
  exact sound_freezeExpired (by assumption)

theorem keeps_execFreezeLog {tr : Transport} {p : List Byte} {s : State} (hS : s.dev.Sound) : Keeps (execFreezeLog tr p s) := by
  unfold execFreezeLog
  refine keeps_run ?_ hS
  intro d0 h1
  apply sound_command
  · assumption
  · intro a2 d3 h4
    exact sound_ret (sound_freezeLog (by assumption))

theorem keeps_execReadLog {tr : Transport} {p : List Byte} {s : State} (hS : s.dev.Sound) : Keeps (execReadLog tr p s) := by
  unfold execReadLog
  refine keeps_run ?_ hS
  intro d0 h1
  apply sound_command
  · assumption
  · intro a2 d3 h4
    exact sound_readLog (by assumption)

theorem keeps_execReadProtected {tr : Transport} {p : List Byte} {s : State} (hS : s.dev.Sound) : Keeps (execReadProtected tr p s) := by
  unfold execReadProtected
  refine keeps_run ?_ hS
  intro d0 h1
  apply sound_command
  · assumption
  · intro a2 d3 h4
    exact sound_readProtected (by assumption)

theorem keeps_execClearProtected {tr : Transport} {p : List Byte} {s : State} (hS : s.dev.Sound) : Keeps (execClearProtected tr p s) := by
  unfold execClearProtected
  refine keeps_run ?_ hS
  intro d0 h1
  apply sound_command
  · assumption
  · intro a2 d3 h4
    exact sound_ret (sound_clearProtected (by assumption))

theorem keeps_execReadHistogram {tr : Transport} {p : List Byte} {s : State} (hS : s.dev.Sound) : Keeps (execReadHistogram tr p s) := by
  unfold execReadHistogram
  refine keeps_run ?_ hS
  intro d0 h1
  apply sound_command
  · assumption
  · intro a2 d3 h4
    exact sound_ans (by assumption)

end Sys2Proof.Machine
end

