-- ==== Sys2Proof/Laws/KeepsRegWrite.lean ====
section
/-! SUPPORT. Laws/KeepsRegWrite.lean: the commands of RegWrite.lean keep the node's stores in order. -/

namespace Sys2Proof.Machine

set_option linter.unusedVariables false

theorem keeps_execLdgCtlXtrmClr {s : State} (hS : s.dev.Sound) : Keeps (execLdgCtlXtrmClr s) := by
  unfold execLdgCtlXtrmClr
  refine keeps_run ?_ hS
  intro d0 h1
  apply sound_gate
  · intro d2 h3
    exact sound_xtrmClear (by assumption)
  · assumption

theorem keeps_execLdgCtlOvrClr {s : State} (hS : s.dev.Sound) : Keeps (execLdgCtlOvrClr s) := by
  unfold execLdgCtlOvrClr
  refine keeps_run ?_ hS
  intro d0 h1
  apply sound_gate
  · intro d2 h3
    exact sound_ovrClear (by assumption)
  · assumption

theorem keeps_execLdgBudBudget {n : ℕ} {v : ℕ} {s : State} (hS : s.dev.Sound) : Keeps (execLdgBudBudget n v s) := by
  unfold execLdgBudBudget
  refine keeps_run ?_ hS
  intro d0 h1
  apply sound_gate
  · intro d2 h3
    exact sound_budWrite (by assumption)
  · assumption

theorem keeps_execMapCtlCntClr {s : State} (hS : s.dev.Sound) : Keeps (execMapCtlCntClr s) := by
  unfold execMapCtlCntClr
  refine keeps_run ?_ hS
  intro d0 h1
  apply sound_gate
  · intro d2 h3
    exact sound_mapClear (by assumption)
  · assumption

theorem keeps_execMapCtlCacheInval {s : State} (hS : s.dev.Sound) : Keeps (execMapCtlCacheInval s) := by
  unfold execMapCtlCacheInval
  refine keeps_run ?_ hS
  intro d0 h1
  apply sound_gate
  · intro d2 h3
    exact sound_cacheInval (by assumption)
  · assumption

theorem keeps_execMapPeekFrond {f : ℕ} {s : State} (hS : s.dev.Sound) : Keeps (execMapPeekFrond f s) := by
  unfold execMapPeekFrond
  refine keeps_run ?_ hS
  intro d0 h1
  apply sound_gate
  · intro d2 h3
    exact sound_peekWrite (by assumption)
  · assumption

theorem keeps_execMedRdCtlCntClr {s : State} (hS : s.dev.Sound) : Keeps (execMedRdCtlCntClr s) := by
  unfold execMedRdCtlCntClr
  refine keeps_run ?_ hS
  intro d0 h1
  apply sound_gate
  · intro d2 h3
    exact sound_rdClear (by assumption)
  · assumption

theorem keeps_execCshCtlCntClr {s : State} (hS : s.dev.Sound) : Keeps (execCshCtlCntClr s) := by
  unfold execCshCtlCntClr
  refine keeps_run ?_ hS
  intro d0 h1
  apply sound_gate
  · intro d2 h3
    exact sound_cshClear (by assumption)
  · assumption

theorem keeps_execMedCtlCntClr {s : State} (hS : s.dev.Sound) : Keeps (execMedCtlCntClr s) := by
  unfold execMedCtlCntClr
  refine keeps_run ?_ hS
  intro d0 h1
  apply sound_gate
  · intro d2 h3
    exact sound_medClear (by assumption)
  · assumption

theorem keeps_execStwCtlCntClr {s : State} (hS : s.dev.Sound) : Keeps (execStwCtlCntClr s) := by
  unfold execStwCtlCntClr
  refine keeps_run ?_ hS
  intro d0 h1
  apply sound_gate
  · intro d2 h3
    exact sound_stwClear (by assumption)
  · assumption

theorem keeps_execSecCtlCntClr {s : State} (hS : s.dev.Sound) : Keeps (execSecCtlCntClr s) := by
  unfold execSecCtlCntClr
  refine keeps_run ?_ hS
  intro d0 h1
  apply sound_gate
  · intro d2 h3
    exact sound_secClear (by assumption)
  · assumption

theorem keeps_execHstCtlCntClr {s : State} (hS : s.dev.Sound) : Keeps (execHstCtlCntClr s) := by
  unfold execHstCtlCntClr
  refine keeps_run ?_ hS
  intro d0 h1
  apply sound_gate
  · intro d2 h3
    exact sound_hstClear (by assumption)
  · assumption

theorem keeps_execSrnCtlCntClr {s : State} (hS : s.dev.Sound) : Keeps (execSrnCtlCntClr s) := by
  unfold execSrnCtlCntClr
  refine keeps_run ?_ hS
  intro d0 h1
  apply sound_gate
  · intro d2 h3
    exact sound_srnClear (by assumption)
  · assumption

theorem keeps_execOpeCtlCntClr {s : State} (hS : s.dev.Sound) : Keeps (execOpeCtlCntClr s) := by
  unfold execOpeCtlCntClr
  refine keeps_run ?_ hS
  intro d0 h1
  apply sound_gate
  · intro d2 h3
    exact sound_opeClear (by assumption)
  · assumption

theorem keeps_execCphCtlCntClr {s : State} (hS : s.dev.Sound) : Keeps (execCphCtlCntClr s) := by
  unfold execCphCtlCntClr
  refine keeps_run ?_ hS
  intro d0 h1
  apply sound_gate
  · intro d2 h3
    exact sound_cphClear (by assumption)
  · assumption

theorem keeps_execMbxCtlCntClr {s : State} (hS : s.dev.Sound) : Keeps (execMbxCtlCntClr s) := by
  unfold execMbxCtlCntClr
  refine keeps_run ?_ hS
  intro d0 h1
  apply sound_gate
  · intro d2 h3
    exact sound_mbxClear (by assumption)
  · assumption

theorem keeps_execPstCtlCntClr {s : State} (hS : s.dev.Sound) : Keeps (execPstCtlCntClr s) := by
  unfold execPstCtlCntClr
  refine keeps_run ?_ hS
  intro d0 h1
  apply sound_gate
  · intro d2 h3
    exact sound_pstClear (by assumption)
  · assumption

theorem keeps_execBflCtlCntClr {s : State} (hS : s.dev.Sound) : Keeps (execBflCtlCntClr s) := by
  unfold execBflCtlCntClr
  refine keeps_run ?_ hS
  intro d0 h1
  apply sound_gate
  · intro d2 h3
    exact sound_bflClear (by assumption)
  · assumption

theorem keeps_execEvrCtlCntClr {s : State} (hS : s.dev.Sound) : Keeps (execEvrCtlCntClr s) := by
  unfold execEvrCtlCntClr
  refine keeps_run ?_ hS
  intro d0 h1
  apply sound_gate
  · intro d2 h3
    exact sound_evrClear (by assumption)
  · assumption

theorem keeps_execPwrCtlCntClr {s : State} (hS : s.dev.Sound) : Keeps (execPwrCtlCntClr s) := by
  unfold execPwrCtlCntClr
  refine keeps_run ?_ hS
  intro d0 h1
  apply sound_gate
  · intro d2 h3
    exact sound_pwrClear (by assumption)
  · assumption

theorem keeps_execThmCtlCntClr {s : State} (hS : s.dev.Sound) : Keeps (execThmCtlCntClr s) := by
  unfold execThmCtlCntClr
  refine keeps_run ?_ hS
  intro d0 h1
  apply sound_gate
  · intro d2 h3
    exact sound_thmClear (by assumption)
  · assumption

theorem keeps_execRegisterWrite {off : ℕ} {size : ℕ} {v : W64} {s : State} (hS : s.dev.Sound) : Keeps (execRegisterWrite off size v s) := by
  unfold execRegisterWrite
  refine keeps_run ?_ hS
  intro d0 h1
  exact sound_registerWrite (by assumption)

theorem keeps_execMbxProgressRead {size : ℕ} {off : ℕ} {s : State} (hS : s.dev.Sound) : Keeps (execMbxProgressRead size off s) := by
  unfold execMbxProgressRead
  refine keeps_run ?_ hS
  intro d0 h1
  exact sound_registerRead (by assumption)

end Sys2Proof.Machine
end

