-- ==== Sys2Proof/Laws/KeepsRing.lean ====
section
/-! SUPPORT. Laws/KeepsRing.lean: the commands of Ring.lean keep the node's stores in order. -/

namespace Sys2Proof.Machine

set_option linter.unusedVariables false

theorem keeps_execRdReq {c : Cell} {fx : ReqFx} {lat : Lat} {s : State} (hS : s.dev.Sound) : Keeps (execRdReq c fx lat s) := by
  unfold execRdReq
  refine keeps_run ?_ hS
  intro d0 h1
  exact sound_ringEnter (by assumption)

theorem keeps_execWrReq {c : Cell} {data : Line} {be : BitVec 64} {fx : ReqFx} {lat : Lat} {s : State} (hS : s.dev.Sound) : Keeps (execWrReq c data be fx lat s) := by
  unfold execWrReq
  refine keeps_run ?_ hS
  intro d0 h1
  exact sound_ringEnter (by assumption)

theorem keeps_execRdRsp {c : Cell} {data : Line} {lat : Lat} {s : State} (hS : s.dev.Sound) : Keeps (execRdRsp c data lat s) := by
  unfold execRdRsp
  refine keeps_run ?_ hS
  intro d0 h1
  exact sound_rdRsp (by assumption)

theorem keeps_execWrAck {c : Cell} {lat : Lat} {s : State} (hS : s.dev.Sound) : Keeps (execWrAck c lat s) := by
  unfold execWrAck
  refine keeps_run ?_ hS
  intro d0 h1
  exact sound_wrAck (by assumption)

theorem keeps_execCrdRet {c : Cell} {s : State} (hS : s.dev.Sound) : Keeps (execCrdRet c s) := by
  unfold execCrdRet
  refine keeps_run ?_ hS
  intro d0 h1
  split
  split
  · exact sound_of_eq (by assumption) (sound_acceptCell (by assumption))
  · exact sound_remoteRetryAll (sound_creditGive (sound_of_eq (by assumption) (sound_acceptCell (by assumption))))

theorem keeps_execCellForward {type : ℕ} {c : Cell} {s : State} (hS : s.dev.Sound) : Keeps (execCellForward type c s) := by
  unfold execCellForward
  refine keeps_run ?_ hS
  intro d0 h1
  exact sound_forwardCell (by assumption)

theorem keeps_execOwnerUnreachable {tag : ℕ} {lat : Lat} {s : State} (hS : s.dev.Sound) : Keeps (execOwnerUnreachable tag lat s) := by
  unfold execOwnerUnreachable
  refine keeps_run ?_ hS
  intro d0 h1
  exact sound_ownerUnreachable (by assumption)

theorem keeps_execWriteTagExpiry {src : ℕ} {tag : ℕ} {s : State} (hS : s.dev.Sound) : Keeps (execWriteTagExpiry src tag s) := by
  unfold execWriteTagExpiry
  refine keeps_run ?_ hS
  intro d0 h1
  assumption

theorem keeps_execLinkLossOfLock {side : Side} {s : State} (hS : s.dev.Sound) : Keeps (execLinkLossOfLock side s) := by
  unfold execLinkLossOfLock
  refine keeps_run ?_ hS
  intro d0 h1
  exact sound_linkDead (by assumption)

theorem keeps_execFecUncorrectable {side : Side} {corrected : ℕ} {s : State} (hS : s.dev.Sound) : Keeps (execFecUncorrectable side corrected s) := by
  unfold execFecUncorrectable
  refine keeps_run ?_ hS
  intro d0 h1
  split
  · assumption
  · extract_lets +onlyGivenNames -underBinder d2
    clear_value d2
    extract_lets +onlyGivenNames -underBinder d4
    clear_value d4
    extract_lets +onlyGivenNames -underBinder d6
    clear_value d6
    extract_lets +onlyGivenNames -underBinder d8
    clear_value d8
    extract_lets +onlyGivenNames -underBinder d10i0 d10
    have h11 : d10.Sound := by
      dsimp -zeta only [d10]
      exact sound_portMod (by assumption)
    clear_value d10
    extract_lets +onlyGivenNames -underBinder d12
    have h13 : d12.Sound := by
      dsimp -zeta only [d12]
      exact sound_postIf (by assumption)
    clear_value d12
    split
    · exact sound_linkDead (by assumption)
    · assumption

theorem keeps_execLinkRetrainAttempt {side : Side} {s : State} (hS : s.dev.Sound) : Keeps (execLinkRetrainAttempt side s) := by
  unfold execLinkRetrainAttempt
  refine keeps_run ?_ hS
  intro d0 h1
  extract_lets +onlyGivenNames -underBinder d2
  clear_value d2
  split
  · assumption
  · exact sound_portMod (by assumption)

theorem keeps_execLinkTrained {side : Side} {peer : ℕ} {ms : ℕ} {s : State} (hS : s.dev.Sound) : Keeps (execLinkTrained side peer ms s) := by
  unfold execLinkTrained
  refine keeps_run ?_ hS
  intro d0 h1
  exact sound_linkTrained (by assumption)

theorem keeps_execLinkTrainingFailed {side : Side} {s : State} (hS : s.dev.Sound) : Keeps (execLinkTrainingFailed side s) := by
  unfold execLinkTrainingFailed
  refine keeps_run ?_ hS
  intro d0 h1
  split
  · exact sound_portMod (by assumption)
  · apply sound_linkDead
    split
    · exact sound_spliceAbort (by assumption)
    · assumption

theorem keeps_execTopo {c : Cell} {a : ℕ} {b : ℕ} {s : State} (hS : s.dev.Sound) : Keeps (execTopo c a b s) := by
  unfold execTopo
  refine keeps_run ?_ hS
  intro d0 h1
  exact sound_topoCell (by assumption)

theorem keeps_execWrap {a : ℕ} {b : ℕ} {x16 : Side} {s : State} (hS : s.dev.Sound) : Keeps (execWrap a b x16 s) := by
  unfold execWrap
  refine keeps_run ?_ hS
  intro d0 h1
  extract_lets +onlyGivenNames -underBinder d2
  have h3 : d2.Sound := by
    dsimp -zeta only [d2]
    exact sound_lineSeen (by assumption)
  clear_value d2
  split
  · assumption
  · exact sound_topoChange (sound_ringUpdate (sound_deadAdd (by assumption)))

theorem keeps_execUnwrap {a : ℕ} {b : ℕ} {s : State} (hS : s.dev.Sound) : Keeps (execUnwrap a b s) := by
  unfold execUnwrap
  refine keeps_run ?_ hS
  intro d0 h1
  extract_lets +onlyGivenNames -underBinder d2
  have h3 : d2.Sound := by
    dsimp -zeta only [d2]
    exact sound_lineSeen (by assumption)
  clear_value d2
  split
  · assumption
  · exact sound_topoChange (sound_credBack (sound_ringUpdate (sound_deadDrop (by assumption))))

theorem keeps_execLeave {index : ℕ} {s : State} (hS : s.dev.Sound) : Keeps (execLeave index s) := by
  unfold execLeave
  refine keeps_run ?_ hS
  intro d0 h1
  extract_lets +onlyGivenNames -underBinder d2
  have h3 : d2.Sound := by
    dsimp -zeta only [d2]
    exact sound_lineSeen (by assumption)
  clear_value d2
  split
  · assumption
  · extract_lets +onlyGivenNames -underBinder d4i0 d4
    have h5 : d4.Sound := by
      dsimp -zeta only [d4]
      assumption
    clear_value d4
    split
    · exact sound_topoChange (sound_marksA (by assumption))
    · assumption

theorem keeps_execPlugPresence {side : Side} {present : Bool} {s : State} (hS : s.dev.Sound) : Keeps (execPlugPresence side present s) := by
  unfold execPlugPresence
  refine keeps_run ?_ hS
  intro d0 h1
  split
  · assumption
  · extract_lets +onlyGivenNames -underBinder d2
    clear_value d2
    extract_lets +onlyGivenNames -underBinder d4
    have h5 : d4.Sound := by
      dsimp -zeta only [d4]
      exact sound_portMod (by assumption)
    clear_value d4
    split
    · exact sound_linkDead (by assumption)
    · assumption

theorem keeps_execEpochKeyErase {s : State} (hS : s.dev.Sound) : Keeps (execEpochKeyErase s) := by
  unfold execEpochKeyErase
  refine keeps_run ?_ hS
  intro d0 h1
  assumption

theorem keeps_execSrnCtlGroupRekey {s : State} (hS : s.dev.Sound) : Keeps (execSrnCtlGroupRekey s) := by
  unfold execSrnCtlGroupRekey
  refine keeps_run ?_ hS
  intro d0 h1
  apply sound_gate
  · intro d2 h3
    exact sound_epochAsk (by assumption)
  · assumption

theorem keeps_execSpdmCell {c : Cell} {m : SpdmMsg} {s : State} (hS : s.dev.Sound) : Keeps (execSpdmCell c m s) := by
  unfold execSpdmCell
  refine keeps_run ?_ hS
  intro d0 h1
  split
  split
  · exact sound_spdmArrives (sound_of_eq (by assumption) (sound_acceptCell (by assumption)))
  · exact sound_of_eq (by assumption) (sound_acceptCell (by assumption))

theorem keeps_execSpdmFrame {m : SpdmMsg} {s : State} (hS : s.dev.Sound) : Keeps (execSpdmFrame m s) := by
  unfold execSpdmFrame
  refine keeps_run ?_ hS
  intro d0 h1
  extract_lets +onlyGivenNames -underBinder d2
  have h3 : d2.Sound := by
    dsimp -zeta only [d2]
    exact sound_lineSeen (by assumption)
  clear_value d2
  split
  · assumption
  · exact sound_spdmArrives (by assumption)

theorem keeps_execPresentWindowClose {s : State} (hS : s.dev.Sound) : Keeps (execPresentWindowClose s) := by
  unfold execPresentWindowClose
  refine keeps_run ?_ hS
  intro d0 h1
  exact sound_presentClose (by assumption)

theorem keeps_execPresent {p : Pres} {s : State} (hS : s.dev.Sound) : Keeps (execPresent p s) := by
  unfold execPresent
  refine keeps_run ?_ hS
  intro d0 h1
  extract_lets +onlyGivenNames -underBinder d2
  have h3 : d2.Sound := by
    dsimp -zeta only [d2]
    exact sound_lineSeen (by assumption)
  clear_value d2
  split
  · assumption
  · extract_lets +onlyGivenNames -underBinder d4i0 d4
    have h5 : d4.Sound := by
      dsimp -zeta only [d4]
      split <;> assumption
    clear_value d4
    assumption

theorem keeps_execPresentTimer {s : State} (hS : s.dev.Sound) : Keeps (execPresentTimer s) := by
  unfold execPresentTimer
  refine keeps_run ?_ hS
  intro d0 h1
  split
  · assumption
  · extract_lets +onlyGivenNames -underBinder d2
    clear_value d2
    extract_lets +onlyGivenNames -underBinder d4i0 d4
    have h5 : d4.Sound := by
      dsimp -zeta only [d4]
      split <;> assumption
    clear_value d4
    exact sound_frame (by assumption)

theorem keeps_execClaim {serial : ℕ} {index : ℕ} {ringId : ℕ} {s : State} (hS : s.dev.Sound) : Keeps (execClaim serial index ringId s) := by
  unfold execClaim
  refine keeps_run ?_ hS
  intro d0 h1
  split
  · assumption
  · extract_lets +onlyGivenNames -underBinder d2
    have h3 : d2.Sound := by
      dsimp -zeta only [d2]
      exact sound_cueFrame (sound_lineSeen (by assumption))
    clear_value d2
    split
    · assumption
    · extract_lets +onlyGivenNames -underBinder d4i0 d4
      have h5 : d4.Sound := by
        dsimp -zeta only [d4]
        split <;> assumption
      clear_value d4
      assumption

theorem keeps_execHeartbeat {index : ℕ} {x12 : ℕ} {s : State} (hS : s.dev.Sound) : Keeps (execHeartbeat index x12 s) := by
  unfold execHeartbeat
  refine keeps_run ?_ hS
  intro d0 h1
  split
  · assumption
  · extract_lets +onlyGivenNames -underBinder d2
    have h3 : d2.Sound := by
      dsimp -zeta only [d2]
      exact sound_cueFrame (sound_lineSeen (by assumption))
    clear_value d2
    split <;> assumption

theorem keeps_execHeartbeatTimer {s : State} (hS : s.dev.Sound) : Keeps (execHeartbeatTimer s) := by
  unfold execHeartbeatTimer
  refine keeps_run ?_ hS
  intro d0 h1
  split
  · exact sound_frame (by assumption)
  · assumption

theorem keeps_execColdFormLinksUp {westUp : Bool} {eastUp : Bool} {s : State} (hS : s.dev.Sound) : Keeps (execColdFormLinksUp westUp eastUp s) := by
  unfold execColdFormLinksUp
  refine keeps_run ?_ hS
  intro d0 h1
  split
  · assumption
  · extract_lets +onlyGivenNames -underBinder d2
    clear_value d2
    extract_lets +onlyGivenNames -underBinder d4
    clear_value d4
    extract_lets +onlyGivenNames -underBinder d6
    clear_value d6
    extract_lets +onlyGivenNames -underBinder d8i0 d8i1 d8i2 d8
    have h9 : d8.Sound := by
      dsimp -zeta only [d8]
      assumption
    clear_value d8
    extract_lets +onlyGivenNames -underBinder d10
    have h11 : d10.Sound := by
      dsimp -zeta only [d10]
      split
      · split
        · exact sound_sendCell (by assumption)
        · exact sound_deadAdd (by assumption)
      · assumption
    clear_value d10
    split
    · split
      · exact sound_sendCell (by assumption)
      · exact sound_deadAdd (by assumption)
    · assumption

theorem keeps_execRingIndexWriteRetry {s : State} (hS : s.dev.Sound) : Keeps (execRingIndexWriteRetry s) := by
  unfold execRingIndexWriteRetry
  refine keeps_run ?_ hS
  intro d0 h1
  split
  · exact sound_fwPut (by assumption)
  · assumption

theorem keeps_execSpliceReq {serial : ℕ} {index : ℕ} {s : State} (hS : s.dev.Sound) : Keeps (execSpliceReq serial index s) := by
  unfold execSpliceReq
  refine keeps_run ?_ hS
  intro d0 h1
  extract_lets +onlyGivenNames -underBinder d2
  have h3 : d2.Sound := by
    dsimp -zeta only [d2]
    exact sound_lineSeen (by assumption)
  clear_value d2
  split
  · assumption
  · extract_lets +onlyGivenNames -underBinder d4i0 d4
    have h5 : d4.Sound := by
      dsimp -zeta only [d4]
      assumption
    clear_value d4
    split
    · exact sound_spliceGrant (by assumption)
    · assumption

theorem keeps_execSpliceGo {index : ℕ} {s : State} (hS : s.dev.Sound) : Keeps (execSpliceGo index s) := by
  unfold execSpliceGo
  refine keeps_run ?_ hS
  intro d0 h1
  split
  · assumption
  · extract_lets +onlyGivenNames -underBinder d2
    have h3 : d2.Sound := by
      dsimp -zeta only [d2]
      exact sound_cueFrame (sound_lineSeen (by assumption))
    clear_value d2
    split
    · assumption
    · extract_lets +onlyGivenNames -underBinder d4i0 d4
      have h5 : d4.Sound := by
        dsimp -zeta only [d4]
        assumption
      clear_value d4
      split
      · exact sound_topoChange (sound_marksA (by assumption))
      · assumption

theorem keeps_execMark {src : ℕ} {ringB : Bool} {s : State} (hS : s.dev.Sound) : Keeps (execMark src ringB s) := by
  unfold execMark
  refine keeps_run ?_ hS
  intro d0 h1
  split
  · assumption
  · exact sound_markCell (by assumption)

theorem keeps_execEcho {side : Side} {serial : ℕ} {s : State} (hS : s.dev.Sound) : Keeps (execEcho side serial s) := by
  unfold execEcho
  refine keeps_run ?_ hS
  intro d0 h1
  split
  · assumption
  · extract_lets +onlyGivenNames -underBinder d2
    have h3 : d2.Sound := by
      dsimp -zeta only [d2]
      split
      · exact sound_portMod (by assumption)
      · assumption
    clear_value d2
    split
    · split
      · exact sound_markB (by assumption)
      · split
        · exact sound_tableSend (by assumption)
        · assumption
    · assumption

theorem keeps_execTable {c : Cell} {members : List (ℕ × Member)} {windows : List (Win × WinSt)} {s : State} (hS : s.dev.Sound) : Keeps (execTable c members windows s) := by
  unfold execTable
  refine keeps_run ?_ hS
  intro d0 h1
  split
  split
  · exact sound_of_eq (by assumption) (sound_acceptCell (by assumption))
  · extract_lets +onlyGivenNames -underBinder d2
    clear_value d2
    extract_lets +onlyGivenNames -underBinder d4i0 d4i1 d4
    have h5 : d4.Sound := by
      dsimp -zeta only [d4]
      rename_i r6 r7 r8
      refine sound_upd (d := r6) rfl rfl rfl rfl rfl rfl rfl id rfl rfl id id id id ?_
      exact sound_of_eq (by assumption) (sound_acceptCell (by assumption))
    clear_value d4
    exact sound_topoChange (sound_ringUpdate (by assumption))

theorem keeps_execSpliceAbort {index : ℕ} {step : ℕ} {cause : ℕ} {s : State} (hS : s.dev.Sound) : Keeps (execSpliceAbort index step cause s) := by
  unfold execSpliceAbort
  refine keeps_run ?_ hS
  intro d0 h1
  extract_lets +onlyGivenNames -underBinder d2
  have h3 : d2.Sound := by
    dsimp -zeta only [d2]
    exact sound_lineSeen (by assumption)
  clear_value d2
  split
  · assumption
  · exact sound_spliceStop (by assumption)

theorem keeps_execSpliceRequestAgain {s : State} (hS : s.dev.Sound) : Keeps (execSpliceRequestAgain s) := by
  unfold execSpliceRequestAgain
  refine keeps_run ?_ hS
  intro d0 h1
  split
  · exact sound_frame (by assumption)
  · assumption

theorem keeps_execSrnCtlPortEn {side : Side} {en : Bool} {s : State} (hS : s.dev.Sound) : Keeps (execSrnCtlPortEn side en s) := by
  unfold execSrnCtlPortEn
  refine keeps_run ?_ hS
  intro d0 h1
  apply sound_gate
  · intro d2 h3
    exact sound_portEnable (by assumption)
  · assumption

theorem keeps_execPortDrainEnd {side : Side} {s : State} (hS : s.dev.Sound) : Keeps (execPortDrainEnd side s) := by
  unfold execPortDrainEnd
  refine keeps_run ?_ hS
  intro d0 h1
  exact sound_portDrainEnd (by assumption)

end Sys2Proof.Machine
end

