-- ==== Sys2Proof/Laws/KeepsSecurity.lean ====
section
/-! SUPPORT. Laws/KeepsSecurity.lean: the commands of Security.lean keep the node's stores in order. -/

namespace Sys2Proof.Machine

set_option linter.unusedVariables false

theorem keeps_execKeyStoreRetry {s : State} (hS : s.dev.Sound) : Keeps (execKeyStoreRetry s) := by
  unfold execKeyStoreRetry
  refine keeps_run ?_ hS
  intro d0 h1
  refine sound_foldl _ ?_ fun d2 a3 h4 => ?_
  · assumption
  · extract_lets +onlyGivenNames -underBinder d5
    clear_value d5
    extract_lets +onlyGivenNames -underBinder d7
    clear_value d7
    extract_lets +onlyGivenNames -underBinder d9i0 d9
    have h10 : d9.Sound := by
      dsimp -zeta only [d9]
      exact sound_postIf (by assumption)
    clear_value d9
    split <;> exact sound_fwPut (by assumption)

theorem keeps_execOpenRange {tr : Transport} {p : List Byte} {s : State} (hS : s.dev.Sound) : Keeps (execOpenRange tr p s) := by
  unfold execOpenRange
  refine keeps_run ?_ hS
  intro d0 h1
  apply sound_command
  · assumption
  · intro a2 d3 h4
    exact sound_openRange (by assumption)

theorem keeps_execRekeyRange {tr : Transport} {p : List Byte} {s : State} (hS : s.dev.Sound) : Keeps (execRekeyRange tr p s) := by
  unfold execRekeyRange
  refine keeps_run ?_ hS
  intro d0 h1
  apply sound_command
  · assumption
  · intro a2 d3 h4
    exact sound_rekeyRange (by assumption)

theorem keeps_execCloseRange {tr : Transport} {p : List Byte} {s : State} (hS : s.dev.Sound) : Keeps (execCloseRange tr p s) := by
  unfold execCloseRange
  refine keeps_run ?_ hS
  intro d0 h1
  apply sound_command
  · assumption
  · intro a2 d3 h4
    split
    · exact sound_closeKeep (by assumption)
    · exact sound_closeErase (by assumption)

theorem keeps_execSetRangeAttr {tr : Transport} {p : List Byte} {s : State} (hS : s.dev.Sound) : Keeps (execSetRangeAttr tr p s) := by
  unfold execSetRangeAttr
  refine keeps_run ?_ hS
  intro d0 h1
  apply sound_command
  · assumption
  · intro a2 d3 h4
    exact sound_setRangeAttr (by assumption)

theorem keeps_execRekeyHeaderReadDone {range : ℕ} {s : State} (hS : s.dev.Sound) : Keeps (execRekeyHeaderReadDone range s) := by
  unfold execRekeyHeaderReadDone
  refine keeps_run ?_ hS
  intro d0 h1
  exact sound_rekeyHeader (by assumption)

theorem keeps_execRekeyDone {range : ℕ} {s : State} (hS : s.dev.Sound) : Keeps (execRekeyDone range s) := by
  unfold execRekeyDone
  refine keeps_run ?_ hS
  intro d0 h1
  exact sound_rekeyDone (by assumption)

theorem keeps_execRekeyBoundarySave {range : ℕ} {s : State} (hS : s.dev.Sound) : Keeps (execRekeyBoundarySave range s) := by
  unfold execRekeyBoundarySave
  refine keeps_run ?_ hS
  intro d0 h1
  split
  · exact sound_rangeStore (by assumption)
  · assumption

theorem keeps_execInjectPoison {tr : Transport} {p : List Byte} {s : State} (hS : s.dev.Sound) : Keeps (execInjectPoison tr p s) := by
  unfold execInjectPoison
  refine keeps_run ?_ hS
  intro d0 h1
  apply sound_command
  · assumption
  · intro a2 d3 h4
    exact sound_injectPoison (by assumption)

theorem keeps_execClearPoison {tr : Transport} {p : List Byte} {s : State} (hS : s.dev.Sound) : Keeps (execClearPoison tr p s) := by
  unfold execClearPoison
  refine keeps_run ?_ hS
  intro d0 h1
  apply sound_command
  · assumption
  · intro a2 d3 h4
    exact sound_clearPoison (by assumption)

theorem keeps_execSanitize {tr : Transport} {p : List Byte} {s : State} (hS : s.dev.Sound) : Keeps (execSanitize tr p s) := by
  unfold execSanitize
  refine keeps_run ?_ hS
  intro d0 h1
  apply sound_command
  · assumption
  · intro a2 d3 h4
    exact sound_sanitizeStart (by assumption)

theorem keeps_execSecureErase {tr : Transport} {p : List Byte} {s : State} (hS : s.dev.Sound) : Keeps (execSecureErase tr p s) := by
  unfold execSecureErase
  refine keeps_run ?_ hS
  intro d0 h1
  apply sound_command
  · assumption
  · intro a2 d3 h4
    exact sound_sanitizeStart (by assumption)

end Sys2Proof.Machine
end

