-- ==== Sys2Proof/Laws/KeepsStart.lean ====
section
/-! SUPPORT. Laws/KeepsStart.lean: the commands of Start.lean keep the node's stores in order. -/

namespace Sys2Proof.Machine

set_option linter.unusedVariables false

theorem keeps_execTestDischargeMeasured {stepMv : ℕ} {us : ℕ} {s : State} (hS : s.dev.Sound) : Keeps (execTestDischargeMeasured stepMv us s) := by
  unfold execTestDischargeMeasured
  refine keeps_run ?_ hS
  intro d0 h1
  split
  · extract_lets +onlyGivenNames -underBinder d2
    have h3 : d2.Sound := by
      dsimp -zeta only [d2]
      exact sound_testMeasured (by assumption)
    clear_value d2
    exact sound_unfurlDone (by assumption)
  · assumption

theorem keeps_execTestDischargeTimeout {s : State} (hS : s.dev.Sound) : Keeps (execTestDischargeTimeout s) := by
  unfold execTestDischargeTimeout
  refine keeps_run ?_ hS
  intro d0 h1
  split
  · exact sound_unfurlDone (sound_testFailed (by assumption))
  · assumption

theorem keeps_execBankCharged {b : Boot} {s : State} (hS : s.dev.Sound) : Keeps (execBankCharged b s) := by
  unfold execBankCharged
  refine keeps_run ?_ hS
  intro d0 h1
  exact sound_bankCharged (by assumption)

theorem keeps_execRhizoidListenExpiry {s : State} (hS : s.dev.Sound) : Keeps (execRhizoidListenExpiry s) := by
  unfold execRhizoidListenExpiry
  refine keeps_run ?_ hS
  intro d0 h1
  exact sound_listenExpiry (by assumption)

theorem keeps_execSpliceDone {index : ℕ} {ms : ℕ} {s : State} (hS : s.dev.Sound) : Keeps (execSpliceDone index ms s) := by
  unfold execSpliceDone
  refine keeps_run ?_ hS
  intro d0 h1
  split
  · assumption
  · extract_lets +onlyGivenNames -underBinder d2
    clear_value d2
    extract_lets +onlyGivenNames -underBinder d4
    have h5 : d4.Sound := by
      dsimp -zeta only [d4]
      apply sound_cueFrame
      split
      · assumption
      · exact sound_lineSeen (by assumption)
    clear_value d4
    split
    · assumption
    · extract_lets +onlyGivenNames -underBinder d6
      have h7 : d6.Sound := by
        dsimp -zeta only [d6]
        exact sound_spliceDone (by assumption)
      clear_value d6
      split
      · extract_lets +onlyGivenNames -underBinder d8i0 d8
        have h9 : d8.Sound := by
          dsimp -zeta only [d8]
          exact sound_frame (by assumption)
        clear_value d8
        split
        · exact sound_recoveryStart (by assumption)
        · assumption
      · assumption

theorem keeps_execHeld {serial : ℕ} {reason : ℕ} {s : State} (hS : s.dev.Sound) : Keeps (execHeld serial reason s) := by
  unfold execHeld
  refine keeps_run ?_ hS
  intro d0 h1
  split
  · assumption
  · extract_lets +onlyGivenNames -underBinder d2
    have h3 : d2.Sound := by
      dsimp -zeta only [d2]
      exact sound_cueFrame (sound_lineSeen (by assumption))
    clear_value d2
    split
    · exact sound_recoveryStart (sound_heldOut (by assumption))
    · assumption

theorem keeps_execSpdmSessionEstablished {peer : ℕ} {authOk : Bool} {ms : ℕ} {s : State} (hS : s.dev.Sound) : Keeps (execSpdmSessionEstablished peer authOk ms s) := by
  unfold execSpdmSessionEstablished
  refine keeps_run ?_ hS
  intro d0 h1
  split
  · assumption
  · split
    · split
      · assumption
      · exact sound_recoveryStart (sound_frame (sound_heldOut (by assumption)))
    · extract_lets +onlyGivenNames -underBinder d2i0 d2
      have h3 : d2.Sound := by
        dsimp -zeta only [d2]
        assumption
      clear_value d2
      split
      · split
        · exact sound_frame (by assumption)
        · assumption
      · split
        · exact sound_formReady (by assumption)
        · split
          · exact sound_frame (by assumption)
          · assumption

theorem keeps_execRecoveryDone {ms : ℕ} {s : State} (hS : s.dev.Sound) : Keeps (execRecoveryDone ms s) := by
  unfold execRecoveryDone
  refine keeps_run ?_ hS
  intro d0 h1
  exact sound_recoveryDone (by assumption)

end Sys2Proof.Machine
end

