-- ==== Sys2Proof/Laws/KeepsSteward.lean ====
section
/-! SUPPORT. Laws/KeepsSteward.lean: the commands of Steward.lean keep the node's stores in order. -/

namespace Sys2Proof.Machine

set_option linter.unusedVariables false

theorem keeps_execCandidateRebucket {s : State} (hS : s.dev.Sound) : Keeps (execCandidateRebucket s) := by
  unfold execCandidateRebucket
  refine keeps_run ?_ hS
  intro d0 h1
  assumption

theorem keeps_execPeriodStart {s : State} (hS : s.dev.Sound) : Keeps (execPeriodStart s) := by
  unfold execPeriodStart
  refine keeps_run ?_ hS
  intro d0 h1
  exact sound_periodStart (by assumption)

theorem keeps_execSentinelMeasurementDone {nsb : ℕ} {pos : ℕ} {dcOld : ℕ} {dcNew : ℕ} {s : State} (hS : s.dev.Sound) : Keeps (execSentinelMeasurementDone nsb pos dcOld dcNew s) := by
  unfold execSentinelMeasurementDone
  refine keeps_run ?_ hS
  intro d0 h1
  extract_lets +onlyGivenNames -underBinder d2
  clear_value d2
  extract_lets +onlyGivenNames -underBinder d4
  clear_value d4
  extract_lets +onlyGivenNames -underBinder d6
  have h7 : d6.Sound := by
    dsimp -zeta only [d6]
    exact sound_stepRaise (sound_measured (by assumption))
  clear_value d6
  split
  · exact sound_refreshQueue (by assumption)
  · assumption

theorem keeps_execPatrolRowReadDone {row : ℕ} {f : Finding} {s : State} (hS : s.dev.Sound) : Keeps (execPatrolRowReadDone row f s) := by
  unfold execPatrolRowReadDone
  refine keeps_run ?_ hS
  intro d0 h1
  exact sound_patrolRow (by assumption)

theorem keeps_execPatrolLapLate {s : State} (hS : s.dev.Sound) : Keeps (execPatrolLapLate s) := by
  unfold execPatrolLapLate
  refine keeps_run ?_ hS
  intro d0 h1
  exact sound_post (by assumption)

theorem keeps_execPatrolPositionSave {s : State} (hS : s.dev.Sound) : Keeps (execPatrolPositionSave s) := by
  unfold execPatrolPositionSave
  refine keeps_run ?_ hS
  intro d0 h1
  exact sound_fwPut (by assumption)

theorem keeps_execPatrolDrainEnd {s : State} (hS : s.dev.Sound) : Keeps (execPatrolDrainEnd s) := by
  unfold execPatrolDrainEnd
  refine keeps_run ?_ hS
  intro d0 h1
  assumption

theorem keeps_execStwCtlPatrolEn {en : Bool} {s : State} (hS : s.dev.Sound) : Keeps (execStwCtlPatrolEn en s) := by
  unfold execStwCtlPatrolEn
  refine keeps_run ?_ hS
  intro d0 h1
  apply sound_gate
  · intro d2 h3
    exact sound_patrolEnable (by assumption)
  · assumption

theorem keeps_execScrubRead {region : Region} {addr : ℕ} {mask : BitVec 64} {found : Scrub} {s : State} (hS : s.dev.Sound) : Keeps (execScrubRead region addr mask found s) := by
  unfold execScrubRead
  refine keeps_run ?_ hS
  intro d0 h1
  exact sound_scrubRead (by assumption)

theorem keeps_execScrubLapLate {sram : Bool} {seconds : ℕ} {s : State} (hS : s.dev.Sound) : Keeps (execScrubLapLate sram seconds s) := by
  unfold execScrubLapLate
  refine keeps_run ?_ hS
  intro d0 h1
  exact sound_post (by assumption)

theorem keeps_execMedDiagCmdGo {s : State} (hS : s.dev.Sound) : Keeps (execMedDiagCmdGo s) := by
  unfold execMedDiagCmdGo
  refine keeps_run ?_ hS
  intro d0 h1
  apply sound_gate
  · intro d2 h3
    exact sound_medDiagGo (by assumption)
  · assumption

theorem keeps_execMedDiagDone {s : State} (hS : s.dev.Sound) : Keeps (execMedDiagDone s) := by
  unfold execMedDiagDone
  refine keeps_run ?_ hS
  intro d0 h1
  exact sound_medDiagDone (by assumption)

end Sys2Proof.Machine
end

