-- ==== Sys2Proof/Laws/Line.lean ====
section
/-! SUPPORT. Laws/Line.lean: what a probe of the frond map does on its way in (R69, R91),
and what the end of a map line's error sequence touches (R81). -/

namespace Sys2Proof.Machine

/-- A request after its probe has looked up a frond whose line the cushion does not hold for it. -/
def Req.looked (r : Req) (d : Dev) : Req :=
  { r with entry := mapGet d r.frond, staged := (tget d.rp.stage r.frond).getLsbD r.line, key := none, snap := {},
           snapMask := 0, covered := false }

/-- A write, and a read of a frond without a slot, hold no slot. -/
theorem lookup_none (r : Req) (d : Dev) (hk : r.key = none) (h : r.wr.isSome = true ∨ slotFind d r.frond = none) :
    lookup r d = (r.looked d, d) := by
  rcases h with h | h <;> cases r <;> simp_all [lookup, Req.looked]

/-- A probe that misses the frond cache awaits its map line, with one burst of class C0. -/
theorem enterProbe_miss (r : Req) (fx : ReqFx) (lat : Lat) (d : Dev) (hk : r.key = none)
    (h1 : fx.dirBad = false) (h2 : fx.wayBad = false) (h3 : r.frond < d.map.limit)
    (h4 : setFind (tget d.map.cache (r.frond % 65536)) (r.frond / 65536) = none)
    (h5 : r.wr.isSome = true ∨ slotFind d r.frond = none) (h6 : lineHeld d r.frond = false)
    (h7 : (mapGet d r.frond).form ≠ .bad) (h8 : refreshing d (mapChan (mapLine r.frond)).1 = false) :
    enterProbe r fx lat d = dramGrant 0 1 { d with
      rp.reqs := d.rp.reqs ++ [{ r.looked d with subst := fx.substBad, stage := .mapRead }]
      rp.nextId := d.rp.nextId + 1
      map.cnt := bump d.map.cnt 1 } := by
  have hm : ¬ d.map.limit ≤ r.frond := by omega
  have hl := lookup_none { r with subst := fx.substBad }
    { d with rp.nextId := d.rp.nextId + 1, map.cnt := bump d.map.cnt 1 } hk h5
  simp only [enterProbe, h1, h2, hm, cacheProbe, h4, if_false, Bool.false_eq_true, hl]
  refine (if_neg fun h => Bool.noConfusion (Eq.trans (Eq.symm h) h6)).trans ((if_neg fun h => h7 h).trans ?_)
  refine (if_neg Bool.false_ne_true).trans ?_
  have hr : ∀ x : Dev, x.csh = d.csh → refreshing x (mapChan (mapLine r.frond)).1 = false := by
    intro x hx; rw [← h8]; simp only [refreshing, hx]
  simp only [mapBurst, Req.looked, hr, Bool.false_eq_true, if_false]
  rfl

/-- Looking a frond up touches the readers of slots alone. -/
theorem lookup_frame (r : Req) (d : Dev) : ∃ c : Csh, (lookup r d).2 = { d with csh := c } := by
  unfold lookup
  cases r.key <;> (dsimp only; split <;> [skip; split]) <;> exact ⟨_, rfl⟩

/-- A read of a map line is granted and counted. -/
theorem mapBurst_frame (cls f : Nat) (d : Dev) : ∃ (l : Ldg) (c : Csh), mapBurst cls f d = { d with ldg := l, csh := c } :=
  ⟨_, _, rfl⟩

/-- The end of a line's error sequence changes no entry: the line leaves the sequence, and the requests that waited for it
probe it again. -/
theorem lineRelease_frame (m : Nat) (d : Dev) : ∃ (mp : FMap) (rp : RdPath) (c : Csh) (l : Ldg),
    lineRelease m d = { d with map := mp, rp, csh := c, ldg := l } ∧ mp.ent = d.map.ent ∧ mp.err = tset d.map.err m none := by
  have hf : ∀ (l : List Req) (d : Dev), ∃ (rp : RdPath) (c : Csh) (g : Ldg), l.foldl (fun d r =>
      let (r, d) := lookup { r with stage := .mapRead } d
      reqPut r (mapBurst 0 r.frond d)) d = { d with rp, csh := c, ldg := g } := by
    intro l
    induction l with
    | nil => intro d; exact ⟨_, _, _, rfl⟩
    | cons r l ih =>
      intro d
      obtain ⟨c, h⟩ := lookup_frame { r with stage := .mapRead } d
      obtain ⟨rp', c', g', h'⟩ := ih (reqPut (lookup { r with stage := .mapRead } d).1
        (mapBurst 0 (lookup { r with stage := .mapRead } d).1.frond (lookup { r with stage := .mapRead } d).2))
      refine ⟨rp', c', g', h'.trans ?_⟩
      rw [h]
      rfl
  obtain ⟨rp, c, g, h⟩ := hf (d.rp.reqs.filter fun r => r.stage = .mapWait && mapLine r.frond = m)
    { d with map.err := tset d.map.err m none }
  unfold lineRelease
  simp only at h ⊢
  rw [h]
  split
  · exact ⟨_, _, _, _, rfl, rfl, rfl⟩
  · exact ⟨_, _, _, _, rfl, rfl, rfl⟩

end Sys2Proof.Machine
end

