-- ==== Sys2Proof/Laws/State.lean ====
section
/-! SUPPORT. Laws/State.lean: what the shared updates of the device leave as it was: one lemma per field per update. -/

namespace Sys2Proof.Machine

variable {d : Dev}

/-! ### A post changes the recorder alone (R385, R387) -/

@[simp] theorem post_variant {c v p0 p1 p2 p3 : Nat} : (post c v p0 p1 p2 p3 d).variant = d.variant := by unfold post; dsimp only; split <;> rfl
@[simp] theorem post_rootKey {c v p0 p1 p2 p3 : Nat} : (post c v p0 p1 p2 p3 d).rootKey = d.rootKey := by unfold post; dsimp only; split <;> rfl
@[simp] theorem post_time {c v p0 p1 p2 p3 : Nat} : (post c v p0 p1 p2 p3 d).time = d.time := by unfold post; dsimp only; split <;> rfl
@[simp] theorem post_ldg {c v p0 p1 p2 p3 : Nat} : (post c v p0 p1 p2 p3 d).ldg = d.ldg := by unfold post; dsimp only; split <;> rfl
@[simp] theorem post_map {c v p0 p1 p2 p3 : Nat} : (post c v p0 p1 p2 p3 d).map = d.map := by unfold post; dsimp only; split <;> rfl
@[simp] theorem post_rp {c v p0 p1 p2 p3 : Nat} : (post c v p0 p1 p2 p3 d).rp = d.rp := by unfold post; dsimp only; split <;> rfl
@[simp] theorem post_csh {c v p0 p1 p2 p3 : Nat} : (post c v p0 p1 p2 p3 d).csh = d.csh := by unfold post; dsimp only; split <;> rfl
@[simp] theorem post_med {c v p0 p1 p2 p3 : Nat} : (post c v p0 p1 p2 p3 d).med = d.med := by unfold post; dsimp only; split <;> rfl
@[simp] theorem post_stw {c v p0 p1 p2 p3 : Nat} : (post c v p0 p1 p2 p3 d).stw = d.stw := by unfold post; dsimp only; split <;> rfl
@[simp] theorem post_sec {c v p0 p1 p2 p3 : Nat} : (post c v p0 p1 p2 p3 d).sec = d.sec := by unfold post; dsimp only; split <;> rfl
@[simp] theorem post_hst {c v p0 p1 p2 p3 : Nat} : (post c v p0 p1 p2 p3 d).hst = d.hst := by unfold post; dsimp only; split <;> rfl
@[simp] theorem post_srn {c v p0 p1 p2 p3 : Nat} : (post c v p0 p1 p2 p3 d).srn = d.srn := by unfold post; dsimp only; split <;> rfl
@[simp] theorem post_ope {c v p0 p1 p2 p3 : Nat} : (post c v p0 p1 p2 p3 d).ope = d.ope := by unfold post; dsimp only; split <;> rfl
@[simp] theorem post_cph {c v p0 p1 p2 p3 : Nat} : (post c v p0 p1 p2 p3 d).cph = d.cph := by unfold post; dsimp only; split <;> rfl
@[simp] theorem post_mbx {c v p0 p1 p2 p3 : Nat} : (post c v p0 p1 p2 p3 d).mbx = d.mbx := by unfold post; dsimp only; split <;> rfl
@[simp] theorem post_pst {c v p0 p1 p2 p3 : Nat} : (post c v p0 p1 p2 p3 d).pst = d.pst := by unfold post; dsimp only; split <;> rfl
@[simp] theorem post_bfl {c v p0 p1 p2 p3 : Nat} : (post c v p0 p1 p2 p3 d).bfl = d.bfl := by unfold post; dsimp only; split <;> rfl
@[simp] theorem post_pwr {c v p0 p1 p2 p3 : Nat} : (post c v p0 p1 p2 p3 d).pwr = d.pwr := by unfold post; dsimp only; split <;> rfl
@[simp] theorem post_dark {c v p0 p1 p2 p3 : Nat} : (post c v p0 p1 p2 p3 d).dark = d.dark := by unfold post; dsimp only; split <;> rfl
@[simp] theorem post_out {c v p0 p1 p2 p3 : Nat} : (post c v p0 p1 p2 p3 d).out = d.out := by unfold post; dsimp only; split <;> rfl
@[simp] theorem post_free {c v p0 p1 p2 p3 : Nat} : (post c v p0 p1 p2 p3 d).free = d.free := by unfold post; dsimp only; split <;> rfl

/-! ### So does a conditional post -/

@[simp] theorem postIf_variant {b : Bool} {c v p0 p1 p2 p3 : Nat} : (postIf b c v p0 p1 p2 p3 d).variant = d.variant := by unfold postIf; split <;> simp
@[simp] theorem postIf_rootKey {b : Bool} {c v p0 p1 p2 p3 : Nat} : (postIf b c v p0 p1 p2 p3 d).rootKey = d.rootKey := by unfold postIf; split <;> simp
@[simp] theorem postIf_time {b : Bool} {c v p0 p1 p2 p3 : Nat} : (postIf b c v p0 p1 p2 p3 d).time = d.time := by unfold postIf; split <;> simp
@[simp] theorem postIf_ldg {b : Bool} {c v p0 p1 p2 p3 : Nat} : (postIf b c v p0 p1 p2 p3 d).ldg = d.ldg := by unfold postIf; split <;> simp
@[simp] theorem postIf_map {b : Bool} {c v p0 p1 p2 p3 : Nat} : (postIf b c v p0 p1 p2 p3 d).map = d.map := by unfold postIf; split <;> simp
@[simp] theorem postIf_rp {b : Bool} {c v p0 p1 p2 p3 : Nat} : (postIf b c v p0 p1 p2 p3 d).rp = d.rp := by unfold postIf; split <;> simp
@[simp] theorem postIf_csh {b : Bool} {c v p0 p1 p2 p3 : Nat} : (postIf b c v p0 p1 p2 p3 d).csh = d.csh := by unfold postIf; split <;> simp
@[simp] theorem postIf_med {b : Bool} {c v p0 p1 p2 p3 : Nat} : (postIf b c v p0 p1 p2 p3 d).med = d.med := by unfold postIf; split <;> simp
@[simp] theorem postIf_stw {b : Bool} {c v p0 p1 p2 p3 : Nat} : (postIf b c v p0 p1 p2 p3 d).stw = d.stw := by unfold postIf; split <;> simp
@[simp] theorem postIf_sec {b : Bool} {c v p0 p1 p2 p3 : Nat} : (postIf b c v p0 p1 p2 p3 d).sec = d.sec := by unfold postIf; split <;> simp
@[simp] theorem postIf_hst {b : Bool} {c v p0 p1 p2 p3 : Nat} : (postIf b c v p0 p1 p2 p3 d).hst = d.hst := by unfold postIf; split <;> simp
@[simp] theorem postIf_srn {b : Bool} {c v p0 p1 p2 p3 : Nat} : (postIf b c v p0 p1 p2 p3 d).srn = d.srn := by unfold postIf; split <;> simp
@[simp] theorem postIf_ope {b : Bool} {c v p0 p1 p2 p3 : Nat} : (postIf b c v p0 p1 p2 p3 d).ope = d.ope := by unfold postIf; split <;> simp
@[simp] theorem postIf_cph {b : Bool} {c v p0 p1 p2 p3 : Nat} : (postIf b c v p0 p1 p2 p3 d).cph = d.cph := by unfold postIf; split <;> simp
@[simp] theorem postIf_mbx {b : Bool} {c v p0 p1 p2 p3 : Nat} : (postIf b c v p0 p1 p2 p3 d).mbx = d.mbx := by unfold postIf; split <;> simp
@[simp] theorem postIf_pst {b : Bool} {c v p0 p1 p2 p3 : Nat} : (postIf b c v p0 p1 p2 p3 d).pst = d.pst := by unfold postIf; split <;> simp
@[simp] theorem postIf_bfl {b : Bool} {c v p0 p1 p2 p3 : Nat} : (postIf b c v p0 p1 p2 p3 d).bfl = d.bfl := by unfold postIf; split <;> simp
@[simp] theorem postIf_pwr {b : Bool} {c v p0 p1 p2 p3 : Nat} : (postIf b c v p0 p1 p2 p3 d).pwr = d.pwr := by unfold postIf; split <;> simp
@[simp] theorem postIf_dark {b : Bool} {c v p0 p1 p2 p3 : Nat} : (postIf b c v p0 p1 p2 p3 d).dark = d.dark := by unfold postIf; split <;> simp
@[simp] theorem postIf_out {b : Bool} {c v p0 p1 p2 p3 : Nat} : (postIf b c v p0 p1 p2 p3 d).out = d.out := by unfold postIf; split <;> simp
@[simp] theorem postIf_free {b : Bool} {c v p0 p1 p2 p3 : Nat} : (postIf b c v p0 p1 p2 p3 d).free = d.free := by unfold postIf; split <;> simp

/-! ### Sending changes the outputs alone -/

@[simp] theorem emit_variant {o : Out} : (emit o d).variant = d.variant := rfl
@[simp] theorem emit_rootKey {o : Out} : (emit o d).rootKey = d.rootKey := rfl
@[simp] theorem emit_time {o : Out} : (emit o d).time = d.time := rfl
@[simp] theorem emit_ldg {o : Out} : (emit o d).ldg = d.ldg := rfl
@[simp] theorem emit_map {o : Out} : (emit o d).map = d.map := rfl
@[simp] theorem emit_rp {o : Out} : (emit o d).rp = d.rp := rfl
@[simp] theorem emit_csh {o : Out} : (emit o d).csh = d.csh := rfl
@[simp] theorem emit_med {o : Out} : (emit o d).med = d.med := rfl
@[simp] theorem emit_stw {o : Out} : (emit o d).stw = d.stw := rfl
@[simp] theorem emit_sec {o : Out} : (emit o d).sec = d.sec := rfl
@[simp] theorem emit_hst {o : Out} : (emit o d).hst = d.hst := rfl
@[simp] theorem emit_srn {o : Out} : (emit o d).srn = d.srn := rfl
@[simp] theorem emit_ope {o : Out} : (emit o d).ope = d.ope := rfl
@[simp] theorem emit_cph {o : Out} : (emit o d).cph = d.cph := rfl
@[simp] theorem emit_mbx {o : Out} : (emit o d).mbx = d.mbx := rfl
@[simp] theorem emit_pst {o : Out} : (emit o d).pst = d.pst := rfl
@[simp] theorem emit_bfl {o : Out} : (emit o d).bfl = d.bfl := rfl
@[simp] theorem emit_evr {o : Out} : (emit o d).evr = d.evr := rfl
@[simp] theorem emit_pwr {o : Out} : (emit o d).pwr = d.pwr := rfl
@[simp] theorem emit_dark {o : Out} : (emit o d).dark = d.dark := rfl
@[simp] theorem emit_free {o : Out} : (emit o d).free = d.free := rfl

@[simp] theorem emit_out {o : Out} : (emit o d).out = o :: d.out := rfl

/-! ### Drawing a free value moves the counter alone -/

@[simp] theorem draw_variant : ((draw d).2).variant = d.variant := rfl
@[simp] theorem draw_rootKey : ((draw d).2).rootKey = d.rootKey := rfl
@[simp] theorem draw_time : ((draw d).2).time = d.time := rfl
@[simp] theorem draw_ldg : ((draw d).2).ldg = d.ldg := rfl
@[simp] theorem draw_map : ((draw d).2).map = d.map := rfl
@[simp] theorem draw_rp : ((draw d).2).rp = d.rp := rfl
@[simp] theorem draw_csh : ((draw d).2).csh = d.csh := rfl
@[simp] theorem draw_med : ((draw d).2).med = d.med := rfl
@[simp] theorem draw_stw : ((draw d).2).stw = d.stw := rfl
@[simp] theorem draw_sec : ((draw d).2).sec = d.sec := rfl
@[simp] theorem draw_hst : ((draw d).2).hst = d.hst := rfl
@[simp] theorem draw_srn : ((draw d).2).srn = d.srn := rfl
@[simp] theorem draw_ope : ((draw d).2).ope = d.ope := rfl
@[simp] theorem draw_cph : ((draw d).2).cph = d.cph := rfl
@[simp] theorem draw_mbx : ((draw d).2).mbx = d.mbx := rfl
@[simp] theorem draw_pst : ((draw d).2).pst = d.pst := rfl
@[simp] theorem draw_bfl : ((draw d).2).bfl = d.bfl := rfl
@[simp] theorem draw_evr : ((draw d).2).evr = d.evr := rfl
@[simp] theorem draw_pwr : ((draw d).2).pwr = d.pwr := rfl
@[simp] theorem draw_dark : ((draw d).2).dark = d.dark := rfl
@[simp] theorem draw_out : ((draw d).2).out = d.out := rfl

@[simp] theorem draw_free : (draw d).2.free = d.free + 1 := rfl

/-- A command's effect is on the device, never on the queue. -/
theorem run_eq {f : Dev → Dev} {s : State} : run f s = .next { s with dev := f s.dev } := rfl

/-- A post in terms of what it changes. -/
theorem post_eq {c v p0 p1 p2 p3 : Nat} : ∃ e : Evr, post c v p0 p1 p2 p3 d = { d with evr := e } := by
  unfold post; dsimp only; split <;> exact ⟨_, rfl⟩

end Sys2Proof.Machine
end

