-- ==== Sys2Proof/Laws/Map.lean ====
section
/-! SUPPORT. Laws/Map.lean: what writing an entry of the frond map does to every entry (R68). -/

namespace Sys2Proof.Machine

/-- Writing an entry keeps the map canonical. -/
theorem mapPut_wf {f : Nat} {e : Entry} {d : Dev} (h : twf d.map.ent = true) : twf (mapPut f e d).map.ent = true := by
  unfold mapPut
  split
  · exact h
  · exact twf_tset _ _ _ h

/-- The entries after an entry is written: the new one, and every other as it was. -/
theorem mapPut_get {f : Nat} {e : Entry} {d : Dev} (h : twf d.map.ent = true) (g : Nat) :
    mapGet (mapPut f e d) g = if g = f then e else mapGet d g := by
  unfold mapPut
  split
  · rename_i he
    split
    · rename_i hg; rw [hg]; exact he
    · rfl
  · split
    · rename_i hg; subst hg; exact tget_tset _ _ _ h
    · rename_i hg; exact tget_tset_ne _ _ _ _ hg

/-- Writing an entry changes the map alone. -/
theorem mapPut_frame {f : Nat} {e : Entry} {d : Dev} : ∃ m : FMap, mapPut f e d = { d with map := m } ∧ m.err = d.map.err := by
  unfold mapPut
  split
  · exact ⟨d.map, rfl, rfl⟩
  · exact ⟨_, rfl, rfl⟩

/-- Writing the entries that a function gives to a list of fronds. -/
theorem mapPut_foldl (l : List Nat) (v : Nat → Entry) : ∀ d : Dev, twf d.map.ent = true →
    twf ((l.map fun f => (f, v f)).foldl (fun d x => mapPut x.1 x.2 d) d).map.ent = true ∧
    (∀ g, mapGet ((l.map fun f => (f, v f)).foldl (fun d x => mapPut x.1 x.2 d) d) g = if g ∈ l then v g else mapGet d g) ∧
    (∃ m : FMap, (l.map fun f => (f, v f)).foldl (fun d x => mapPut x.1 x.2 d) d = { d with map := m } ∧ m.err = d.map.err) := by
  induction l with
  | nil => intro d h; exact ⟨h, fun g => by simp, d.map, rfl, rfl⟩
  | cons f l ih =>
    intro d h
    obtain ⟨h1, h2, m, h3, h4⟩ := ih (mapPut f (v f) d) (mapPut_wf h)
    obtain ⟨m', h5, h6⟩ := mapPut_frame (f := f) (e := v f) (d := d)
    refine ⟨h1, fun g => ?_, m, ?_, ?_⟩
    · simp only [List.map_cons, List.foldl_cons, h2 g, mapPut_get h g, List.mem_cons]
      by_cases hl : g ∈ l
      · simp [hl]
      · by_cases hg : g = f
        · simp [hg]
        · simp [hl, hg]
    · simp only [List.map_cons, List.foldl_cons, h3]; rw [h5]
    · rw [h4, h5]; exact h6

/-! ### What follows an update leaves the map as the update made it -/

@[simp] theorem rowMark_map (s : Nat) (v : Bool) (d : Dev) : (rowMark s v d).map = d.map := rfl

@[simp] theorem rowsMoved_map (o n : Entry) (d : Dev) : (rowsMoved o n d).map = d.map := by
  unfold rowsMoved
  dsimp only
  split <;> split <;> rfl

@[simp] theorem pidxAdd_map (f : Nat) (m : BitVec 64) (d : Dev) : (pidxAdd f m d).map = d.map := by
  unfold pidxAdd
  split
  · rfl
  · split
    · rfl
    · exact post_map

@[simp] theorem pidxDrop_map (f : Nat) (d : Dev) : (pidxDrop f d).map = d.map := rfl

@[simp] theorem sbMod_map (k : Nat) (f : Sb → Sb) (d : Dev) : (sbMod k f d).map = d.map := rfl

@[simp] theorem blogAdd_map (a b c e v : Nat) (d : Dev) : (blogAdd a b c e v d).map = d.map := by
  unfold blogAdd; simp

theorem foldl_map {α : Type} (f : Dev → α → Dev) (h : ∀ d x, (f d x).map = d.map) (l : List α) :
    ∀ d, (l.foldl f d).map = d.map := by
  induction l with
  | nil => intro d; rfl
  | cons x l ih => intro d; exact (ih _).trans (h d x)

@[simp] theorem blogSb_map (a k : Nat) (d : Dev) : (blogSb a k d).map = d.map := by
  unfold blogSb
  exact foldl_map _ (fun d _ => blogAdd_map _ _ _ _ _ d) _ d

@[simp] theorem sbLost_map (k p : Nat) (b : Bool) (d : Dev) : (sbLost k p b d).map = d.map := by
  unfold sbLost; exact postIf_map

theorem donorConvert_map {lane : Nat} {d e : Dev} (h : donorConvert lane d = some e) : e.map = d.map := by
  unfold donorConvert at h
  split at h
  · cases h
  · cases h
    exact post_map

@[simp] theorem substitute_map (k p : Nat) (d : Dev) : (substitute k p d).2.map = d.map := by
  unfold substitute
  dsimp only
  split
  · exact sbLost_map _ _ _ _
  · split
    · exact post_map.trans (blogAdd_map _ _ _ _ _ _)
    · split
      · exact sbLost_map _ _ _ _
      · rename_i h
        have hm := donorConvert_map h
        split
        · exact (post_map.trans (blogAdd_map _ _ _ _ _ _)).trans hm
        · exact (sbLost_map _ _ _ _).trans hm

@[simp] theorem retireWorn_map (k : Nat) (d : Dev) : (retireWorn k d).map = d.map := by
  refine foldl_map _ (fun d p => ?_) _ d
  dsimp only
  split
  · exact (substitute_map _ _ _).trans (post_map.trans (blogAdd_map _ _ _ _ _ _))
  · rfl

@[simp] theorem intentPut_map (k : Nat) (d : Dev) : (intentPut k d).map = d.map := by
  unfold intentPut
  dsimp only
  split
  · exact retireWorn_map _ _
  · simp only [sbMod_map, blogSb_map, retireWorn_map]

@[simp] theorem intentLog_map (k : Nat) (d : Dev) : (intentLog k d).map = d.map := by
  unfold intentLog
  dsimp only
  split
  · exact intentPut_map _ _
  · rfl

@[simp] theorem victimTake_map (d : Dev) : (victimTake d).map = d.map := by
  unfold victimTake
  dsimp only
  split <;> rfl

/-- A row's update, once it applies: its record is the tail's last, its entry is written, every other entry stands (R73, R75). -/
theorem updApply_map {u : Upd} {d : Dev} {s : Nat} {p : Bool} (h : condOk d u = true) (ho : u.op = .setRow s p ∨ u.op = .moveRow s p)
    (hw : u.why = .host ∨ u.why = .gc ∨ u.why = .wear ∨ u.why = .refresh ∨ u.why = .evacuate) :
    (updApply u d).map = (mapJournal u.frond (updEntry u.op (mapGet d u.frond)) d).map := by
  have k : ∀ e : Dev, (updDone u true e).map = e.map := by
    intro e
    rcases hw with h | h | h | h | h <;> simp [updDone, h]
  have k2 : ∀ (b : Bool) (e : Dev), (if b = true then pidxAdd u.frond (tget e.med.rows s).lpoison e else pidxDrop u.frond e).map = e.map := by
    intro b e; split
    · exact pidxAdd_map _ _ _
    · rfl
  have k3 : ∀ (X : Dev) (o : Entry), (if (!o.v) = true then X
      else if (tget X.med.sb (slotSb o.slot)).role = .victim then victimTake (intentLog (slotSb o.slot) X)
      else intentLog (slotSb o.slot) X).map = X.map := by
    intro X o; split
    · rfl
    · split
      · exact (victimTake_map _).trans (intentLog_map _ _)
      · exact intentLog_map _ _
  have k4 : ∀ (X : Dev) (l : Nat), (if u.why = .evacuate then { X with stw.evacRows := bump X.stw.evacRows l } else X).map = X.map := by
    intro X l; split <;> rfl
  unfold updApply
  rw [if_neg (by rw [h]; decide)]
  rcases ho with ho | ho <;> rw [ho] <;> dsimp only <;>
    exact (k3 _ _).trans ((k4 _ _).trans ((k _).trans ((k2 _ _).trans (rowsMoved_map _ _ _))))

end Sys2Proof.Machine
end

