-- ==== Sys2Proof/Laws/Mbx.lean ====
section
/-! SUPPORT. Laws/Mbx.lean: what the executor does with a command, one lemma per way it goes (R340–R342). -/

namespace Sys2Proof.Machine

variable {opcode : Nat} {g : Modes} {ro : Bool} {lenOk : Nat → Bool} {fieldsOk : List Byte → Bool}
  {body : List Byte → Dev → Res × Dev} {tr : Transport} {p : List Byte} {d d' : Dev}

/-- A command whose checks pass and whose body ends it. -/
theorem command_done {rc : Nat} {out : List Byte} (h : d.takes g tr) (hr : (ro && d.isM) = false)
    (hl : lenOk p.length = true) (hs : p.length ≤ 4096) (hf : fieldsOk p = true) (hb : body p d = (.done rc out, d')) :
    command opcode g ro lenOk fieldsOk body tr p d = cmdEnd tr opcode rc out 0 false d' := by
  obtain ⟨h1, h2, h3⟩ := h
  simp [command, h1, h2, h3, hr, hl, Nat.not_lt.mpr hs, hf, hb]

/-- A command whose checks pass and whose body runs on. -/
theorem command_long {j : Job} {unit total : Nat} (h : d.takes g tr) (hr : (ro && d.isM) = false)
    (hl : lenOk p.length = true) (hs : p.length ≤ 4096) (hf : fieldsOk p = true) (hb : body p d = (.long j unit total, d')) :
    command opcode g ro lenOk fieldsOk body tr p d = cmdRun tr opcode j unit total d' := by
  obtain ⟨h1, h2, h3⟩ := h
  simp [command, h1, h2, h3, hr, hl, Nat.not_lt.mpr hs, hf, hb]

/-- The step of a command whose checks pass and whose body ends it. -/
theorem run_done {q : List Instr} {rc : Nat} {out : List Byte} (h : d.takes g tr) (hr : (ro && d.isM) = false)
    (hl : lenOk p.length = true) (hs : p.length ≤ 4096) (hf : fieldsOk p = true) (hb : body p d = (.done rc out, d')) :
    run (command opcode g ro lenOk fieldsOk body tr p) ⟨d, q⟩ = .next ⟨cmdEnd tr opcode rc out 0 false d', q⟩ := by
  simp only [run, command_done h hr hl hs hf hb]

/-- The step of a command whose checks pass and whose body runs on. -/
theorem run_long {q : List Instr} {j : Job} {unit total : Nat} (h : d.takes g tr) (hr : (ro && d.isM) = false)
    (hl : lenOk p.length = true) (hs : p.length ≤ 4096) (hf : fieldsOk p = true) (hb : body p d = (.long j unit total, d')) :
    run (command opcode g ro lenOk fieldsOk body tr p) ⟨d, q⟩ = .next ⟨cmdRun tr opcode j unit total d', q⟩ := by
  simp only [run, command_long h hr hl hs hf hb]

end Sys2Proof.Machine
end

