-- ==== Sys2Proof/Laws/Slice.lean ====
section
/-! SUPPORT. Laws/Slice.lean: what the guards' evaluation, the slice's judgement and the new capacity change (R55–R59, R133). -/

namespace Sys2Proof.Machine

/-- Evaluating the guards touches the cushion's credit state, the guard-failed mark of the slice, and the recorder. -/
theorem admitEval_frame (d : Dev) : ∃ (c : Csh) (g : Bool) (e : Evr),
    admitEval d = { d with csh := c, ldg.guardFailed := g, evr := e } ∧ c.dir = d.csh.dir := by
  unfold admitEval
  dsimp only
  split
  · exact Exists.elim post_eq fun e he => ⟨_, _, e, he, rfl⟩
  · split
    · exact ⟨_, _, d.evr, rfl, rfl⟩
    · exact ⟨_, _, d.evr, rfl, rfl⟩

@[simp] theorem admitEval_variant (d : Dev) : (admitEval d).variant = d.variant := by
  obtain ⟨_, _, _, h, _⟩ := admitEval_frame d; rw [h]
@[simp] theorem admitEval_rootKey (d : Dev) : (admitEval d).rootKey = d.rootKey := by
  obtain ⟨_, _, _, h, _⟩ := admitEval_frame d; rw [h]
@[simp] theorem admitEval_dark (d : Dev) : (admitEval d).dark = d.dark := by
  obtain ⟨_, _, _, h, _⟩ := admitEval_frame d; rw [h]
@[simp] theorem admitEval_time (d : Dev) : (admitEval d).time = d.time := by
  obtain ⟨_, _, _, h, _⟩ := admitEval_frame d; rw [h]
@[simp] theorem admitEval_map (d : Dev) : (admitEval d).map = d.map := by
  obtain ⟨_, _, _, h, _⟩ := admitEval_frame d; rw [h]
@[simp] theorem admitEval_rp (d : Dev) : (admitEval d).rp = d.rp := by
  obtain ⟨_, _, _, h, _⟩ := admitEval_frame d; rw [h]
@[simp] theorem admitEval_med (d : Dev) : (admitEval d).med = d.med := by
  obtain ⟨_, _, _, h, _⟩ := admitEval_frame d; rw [h]
@[simp] theorem admitEval_stw (d : Dev) : (admitEval d).stw = d.stw := by
  obtain ⟨_, _, _, h, _⟩ := admitEval_frame d; rw [h]
@[simp] theorem admitEval_sec (d : Dev) : (admitEval d).sec = d.sec := by
  obtain ⟨_, _, _, h, _⟩ := admitEval_frame d; rw [h]
@[simp] theorem admitEval_hst (d : Dev) : (admitEval d).hst = d.hst := by
  obtain ⟨_, _, _, h, _⟩ := admitEval_frame d; rw [h]
@[simp] theorem admitEval_srn (d : Dev) : (admitEval d).srn = d.srn := by
  obtain ⟨_, _, _, h, _⟩ := admitEval_frame d; rw [h]
@[simp] theorem admitEval_ope (d : Dev) : (admitEval d).ope = d.ope := by
  obtain ⟨_, _, _, h, _⟩ := admitEval_frame d; rw [h]
@[simp] theorem admitEval_cph (d : Dev) : (admitEval d).cph = d.cph := by
  obtain ⟨_, _, _, h, _⟩ := admitEval_frame d; rw [h]
@[simp] theorem admitEval_mbx (d : Dev) : (admitEval d).mbx = d.mbx := by
  obtain ⟨_, _, _, h, _⟩ := admitEval_frame d; rw [h]
@[simp] theorem admitEval_pst (d : Dev) : (admitEval d).pst = d.pst := by
  obtain ⟨_, _, _, h, _⟩ := admitEval_frame d; rw [h]
@[simp] theorem admitEval_bfl (d : Dev) : (admitEval d).bfl = d.bfl := by
  obtain ⟨_, _, _, h, _⟩ := admitEval_frame d; rw [h]
@[simp] theorem admitEval_pwr (d : Dev) : (admitEval d).pwr = d.pwr := by
  obtain ⟨_, _, _, h, _⟩ := admitEval_frame d; rw [h]
@[simp] theorem admitEval_out (d : Dev) : (admitEval d).out = d.out := by
  obtain ⟨_, _, _, h, _⟩ := admitEval_frame d; rw [h]
@[simp] theorem admitEval_free (d : Dev) : (admitEval d).free = d.free := by
  obtain ⟨_, _, _, h, _⟩ := admitEval_frame d; rw [h]
@[simp] theorem admitEval_ldg_bud (d : Dev) : (admitEval d).ldg.bud = d.ldg.bud := by
  obtain ⟨_, _, _, h, _⟩ := admitEval_frame d; rw [h]
@[simp] theorem admitEval_ldg_budNow (d : Dev) : (admitEval d).ldg.budNow = d.ldg.budNow := by
  obtain ⟨_, _, _, h, _⟩ := admitEval_frame d; rw [h]
@[simp] theorem admitEval_ldg_env (d : Dev) : (admitEval d).ldg.env = d.ldg.env := by
  obtain ⟨_, _, _, h, _⟩ := admitEval_frame d; rw [h]
@[simp] theorem admitEval_ldg_envNow (d : Dev) : (admitEval d).ldg.envNow = d.ldg.envNow := by
  obtain ⟨_, _, _, h, _⟩ := admitEval_frame d; rw [h]
@[simp] theorem admitEval_ldg_sliceB0 (d : Dev) : (admitEval d).ldg.sliceB0 = d.ldg.sliceB0 := by
  obtain ⟨_, _, _, h, _⟩ := admitEval_frame d; rw [h]
@[simp] theorem admitEval_ldg_sliceW (d : Dev) : (admitEval d).ldg.sliceW = d.ldg.sliceW := by
  obtain ⟨_, _, _, h, _⟩ := admitEval_frame d; rw [h]
@[simp] theorem admitEval_ldg_sliceF (d : Dev) : (admitEval d).ldg.sliceF = d.ldg.sliceF := by
  obtain ⟨_, _, _, h, _⟩ := admitEval_frame d; rw [h]
@[simp] theorem admitEval_ldg_runB0 (d : Dev) : (admitEval d).ldg.runB0 = d.ldg.runB0 := by
  obtain ⟨_, _, _, h, _⟩ := admitEval_frame d; rw [h]
@[simp] theorem admitEval_ldg_runW (d : Dev) : (admitEval d).ldg.runW = d.ldg.runW := by
  obtain ⟨_, _, _, h, _⟩ := admitEval_frame d; rw [h]
@[simp] theorem admitEval_ldg_runF (d : Dev) : (admitEval d).ldg.runF = d.ldg.runF := by
  obtain ⟨_, _, _, h, _⟩ := admitEval_frame d; rw [h]
@[simp] theorem admitEval_ldg_noCredit (d : Dev) : (admitEval d).ldg.noCredit = d.ldg.noCredit := by
  obtain ⟨_, _, _, h, _⟩ := admitEval_frame d; rw [h]
@[simp] theorem admitEval_ldg_uOpt (d : Dev) : (admitEval d).ldg.uOpt = d.ldg.uOpt := by
  obtain ⟨_, _, _, h, _⟩ := admitEval_frame d; rw [h]
@[simp] theorem admitEval_ldg_uModNow (d : Dev) : (admitEval d).ldg.uModNow = d.ldg.uModNow := by
  obtain ⟨_, _, _, h, _⟩ := admitEval_frame d; rw [h]
@[simp] theorem admitEval_ldg_uMod (d : Dev) : (admitEval d).ldg.uMod = d.ldg.uMod := by
  obtain ⟨_, _, _, h, _⟩ := admitEval_frame d; rw [h]
@[simp] theorem admitEval_ldg_oOpt (d : Dev) : (admitEval d).ldg.oOpt = d.ldg.oOpt := by
  obtain ⟨_, _, _, h, _⟩ := admitEval_frame d; rw [h]
@[simp] theorem admitEval_ldg_oMod (d : Dev) : (admitEval d).ldg.oMod = d.ldg.oMod := by
  obtain ⟨_, _, _, h, _⟩ := admitEval_frame d; rw [h]
@[simp] theorem admitEval_ldg_uOptNow (d : Dev) : (admitEval d).ldg.uOptNow = d.ldg.uOptNow := by
  obtain ⟨_, _, _, h, _⟩ := admitEval_frame d; rw [h]
@[simp] theorem admitEval_ldg_oOptNow (d : Dev) : (admitEval d).ldg.oOptNow = d.ldg.oOptNow := by
  obtain ⟨_, _, _, h, _⟩ := admitEval_frame d; rw [h]
@[simp] theorem admitEval_ldg_oModNow (d : Dev) : (admitEval d).ldg.oModNow = d.ldg.oModNow := by
  obtain ⟨_, _, _, h, _⟩ := admitEval_frame d; rw [h]
@[simp] theorem admitEval_ldg_late (d : Dev) : (admitEval d).ldg.late = d.ldg.late := by
  obtain ⟨_, _, _, h, _⟩ := admitEval_frame d; rw [h]
@[simp] theorem admitEval_ldg_devload (d : Dev) : (admitEval d).ldg.devload = d.ldg.devload := by
  obtain ⟨_, _, _, h, _⟩ := admitEval_frame d; rw [h]
@[simp] theorem admitEval_dir (d : Dev) : (admitEval d).csh.dir = d.csh.dir := by
  obtain ⟨_, _, _, h, h2⟩ := admitEval_frame d; rw [h]; exact h2

/-- An overrun touches the ledger's overrun registers and the recorder. -/
theorem overrun_frame (cause cls cc addr : Nat) (d : Dev) : ∃ (o : Cnt) (a b c : Nat) (e : Evr),
    overrun cause cls cc addr d =
      { d with ldg := { d.ldg with ovr := o, lastCause := a, lastCls := b, lastCc := c }, evr := e } := by
  unfold overrun
  exact Exists.elim post_eq fun e he => ⟨_, _, _, _, e, he⟩

/-- A fold of steps of that kind is one of that kind. -/
theorem overrun_foldl {α : Type} {f : Dev → α → Dev} (hf : ∀ d w, ∃ (o : Cnt) (a b c : Nat) (e : Evr),
      f d w = { d with ldg := { d.ldg with ovr := o, lastCause := a, lastCls := b, lastCc := c }, evr := e }) (l : List α) :
    ∀ d : Dev, ∃ (o : Cnt) (a b c : Nat) (e : Evr),
      l.foldl f d = { d with ldg := { d.ldg with ovr := o, lastCause := a, lastCls := b, lastCc := c }, evr := e } := by
  induction l with
  | nil => intro d; exact ⟨_, _, _, _, d.evr, rfl⟩
  | cons w l ih =>
    intro d
    obtain ⟨o, a, b, c, e, h1⟩ := hf d w
    obtain ⟨o', a', b', c', e', h2⟩ := ih (f d w)
    refine ⟨o', a', b', c', e', ?_⟩
    rw [List.foldl_cons, h2, h1]

/-- So does a write's judgement under all its causes (R41). -/
theorem overruns_frame (cs : List Nat) (cls cc addr : Nat) (d : Dev) : ∃ (o : Cnt) (a b c : Nat) (e : Evr),
    overruns cs cls cc addr d =
      { d with ldg := { d.ldg with ovr := o, lastCause := a, lastCls := b, lastCc := c }, evr := e } :=
  overrun_foldl (fun d c => overrun_frame c cls cc addr d) cs d

/-- A conditional post in terms of what it changes. -/
theorem postIf_eq {b : Bool} {c v p0 p1 p2 p3 : Nat} {d : Dev} : ∃ e : Evr, postIf b c v p0 p1 p2 p3 d = { d with evr := e } := by
  unfold postIf
  split
  · exact post_eq
  · exact ⟨d.evr, rfl⟩

/-- Judging a slice leaves its running counts and its settings, and clears the late writes. -/
theorem sliceJudge_frame (d : Dev) : ∃ (o : List LateWrite) (ms : List Nat) (cnt : Cnt) (a b c m g : Nat) (e : Evr),
    sliceJudge d = { d with ldg := { d.ldg with ovr := cnt, lastCause := a, lastCls := b, lastCc := c, envMiss := m,
                                                groupPosted := g, missSlices := ms, late := o }, evr := e } ∧ o = [] := by
  have fin : ∀ (x : Bool) (e : Dev), ∃ (o : Cnt) (a b c : Nat) (ev : Evr),
      e.ldg.late.foldl (fun d w => overruns (lateCauses x w.causes) w.cls w.cc w.addr d) e =
        { e with ldg := { e.ldg with ovr := o, lastCause := a, lastCls := b, lastCc := c }, evr := ev } :=
    fun x e => overrun_foldl (fun d w => overruns_frame _ _ _ _ d) _ e
  unfold sliceJudge
  extract_lets n miss ms g src d1 d2
  have h1 : ∃ (m g' : Nat) (e0 : Evr), d1 = { d with ldg := { d.ldg with envMiss := m, groupPosted := g' }, evr := e0 } := by
    dsimp -zeta only [d1]
    split
    · exact Exists.elim postIf_eq fun e he => ⟨_, _, e, he⟩
    · exact ⟨_, _, d.evr, rfl⟩
  obtain ⟨m, g', e0, h1⟩ := h1
  obtain ⟨o, a, b, c, ev, h2⟩ : ∃ (o : Cnt) (a b c : Nat) (ev : Evr),
      d2 = { d1 with ldg := { d1.ldg with ovr := o, lastCause := a, lastCls := b, lastCc := c }, evr := ev } := fin miss d1
  refine ⟨[], ms, o, a, b, c, m, g', ev, ?_, rfl⟩
  clear_value d2
  subst h2
  clear_value d1
  subst h1
  rfl

/-- A new capacity touches the cushion's capacity and the recorder. -/
theorem sliceCapacity_frame (d : Dev) : ∃ (c : Csh) (e : Evr), sliceCapacity d = { d with csh := c, evr := e } ∧ c.dir = d.csh.dir := by
  unfold sliceCapacity
  dsimp only
  split
  · exact ⟨_, d.evr, rfl, rfl⟩
  · exact Exists.elim postIf_eq fun e he => ⟨_, e, he, rfl⟩

/-- The edge into Draining touches its mark, the store's shortfall mark and the recorder (R137). -/
theorem drainEdge_frame (d : Dev) : ∃ (b1 b2 : Bool) (e : Evr),
    drainEdge d = { d with csh.overD := b1, pwr.short := b2, evr := e } := by
  unfold drainEdge
  extract_lets o above short d1 d2
  obtain ⟨e1, h1⟩ : ∃ e, d1 = { d with evr := e } := postIf_eq
  obtain ⟨e2, h2⟩ : ∃ e, d2 = { d1 with evr := e } := postIf_eq
  refine ⟨above, short, e2, ?_⟩
  clear_value d2
  subst h2
  clear_value d1
  subst h1
  rfl

end Sys2Proof.Machine
end

