-- ==== Sys2Proof/Laws/Period.lean ====
section
/-! SUPPORT. Laws/Period.lean: what the start of a background period leaves as it was (R177–R192): everything that its
housekeeping has no part in, and the settings that took effect; a refused write of the store may be marked to be asked again. -/

namespace Sys2Proof.Machine

/-- Two devices that agree on the time, the settings in effect, and every subsystem without a part in a period. -/
structure PeriodSame (d t : Dev) : Prop where
  variant : t.variant = d.variant
  rootKey : t.rootKey = d.rootKey
  time : t.time = d.time
  now : t.stw.now = d.stw.now
  set : t.stw.set = d.stw.set
  ent : t.map.ent = d.map.ent
  tail : t.map.tail = d.map.tail
  updq : t.map.updq = d.map.updq
  rp : t.rp.reqs = d.rp.reqs
  dir : t.csh.dir = d.csh.dir
  rStall : t.med.rStallNow = d.med.rStallNow
  pStall : t.med.pStallNow = d.med.pStallNow
  minProg : t.med.minProgNow = d.med.minProgNow
  minReset : t.med.minResetNow = d.med.minResetNow
  setR : t.med.rStall = d.med.rStall
  setP : t.med.pStall = d.med.pStall
  setG : t.med.minProg = d.med.minProg
  setM : t.med.minReset = d.med.minReset
  sec : { t.sec with zeroRetry := d.sec.zeroRetry } = d.sec
  hst : t.hst = d.hst
  srn : { t.srn with indexRetry := d.srn.indexRetry } = d.srn
  ope : t.ope = d.ope
  cph : t.cph = d.cph
  mbx : t.mbx = d.mbx
  bfl : t.bfl = d.bfl
  pwr : t.pwr = d.pwr
  dark : t.dark = d.dark
  out : t.out = d.out

theorem PeriodSame.rfl' (d : Dev) : PeriodSame d d := by constructor <;> rfl

theorem PeriodSame.trans {a b c : Dev} (h : PeriodSame a b) (k : PeriodSame b c) : PeriodSame a c where
  variant := k.variant.trans h.variant
  rootKey := k.rootKey.trans h.rootKey
  time := k.time.trans h.time
  now := k.now.trans h.now
  set := k.set.trans h.set
  ent := k.ent.trans h.ent
  tail := k.tail.trans h.tail
  updq := k.updq.trans h.updq
  rp := k.rp.trans h.rp
  dir := k.dir.trans h.dir
  rStall := k.rStall.trans h.rStall
  pStall := k.pStall.trans h.pStall
  minProg := k.minProg.trans h.minProg
  minReset := k.minReset.trans h.minReset
  setR := k.setR.trans h.setR
  setP := k.setP.trans h.setP
  setG := k.setG.trans h.setG
  setM := k.setM.trans h.setM
  sec := (congrArg (fun x : Sec => { x with zeroRetry := a.sec.zeroRetry }) k.sec).trans h.sec
  hst := k.hst.trans h.hst
  srn := (congrArg (fun x : Srn => { x with indexRetry := a.srn.indexRetry }) k.srn).trans h.srn
  ope := k.ope.trans h.ope
  cph := k.cph.trans h.cph
  mbx := k.mbx.trans h.mbx
  bfl := k.bfl.trans h.bfl
  pwr := k.pwr.trans h.pwr
  dark := k.dark.trans h.dark
  out := k.out.trans h.out

theorem post_period (c v p0 p1 p2 p3 : Nat) (d : Dev) : PeriodSame d (post c v p0 p1 p2 p3 d) := by
  constructor <;> simp

theorem postIf_period (b : Bool) (c v p0 p1 p2 p3 : Nat) (d : Dev) : PeriodSame d (postIf b c v p0 p1 p2 p3 d) := by
  constructor <;> simp

theorem foldl_period {α : Type} (f : Dev → α → Dev) (h : ∀ d x, PeriodSame d (f d x)) (l : List α) :
    ∀ d, PeriodSame d (l.foldl f d) := by
  induction l with
  | nil => intro d; exact PeriodSame.rfl' d
  | cons x l ih => intro d; exact (h d x).trans (ih _)

theorem ite_period {d a b : Dev} {c : Prop} [Decidable c] (h : PeriodSame d a) (k : PeriodSame d b) :
    PeriodSame d (if c then a else b) := by split <;> assumption

theorem sbMod_period (k : Nat) (f : Sb → Sb) (d : Dev) : PeriodSame d (sbMod k f d) := by constructor <;> rfl

theorem blogAdd_period (a b c e v : Nat) (d : Dev) : PeriodSame d (blogAdd a b c e v d) := by constructor <;> simp [blogAdd]

theorem blogSb_period (a k : Nat) (d : Dev) : PeriodSame d (blogSb a k d) :=
  foldl_period _ (fun d _ => blogAdd_period _ _ _ _ _ d) _ d

theorem stw_period (x : Stw) (d : Dev) (h : x.now = d.stw.now) (k : x.set = d.stw.set) : PeriodSame d { d with stw := x } := by
  constructor <;> first | exact h | exact k | rfl

theorem sbLost_period (k p : Nat) (b : Bool) (d : Dev) : PeriodSame d (sbLost k p b d) :=
  (sbMod_period k _ d).trans (postIf_period _ _ _ _ _ _ _ _)

theorem donorConvert_period {lane : Nat} {d e : Dev} (h : donorConvert lane d = some e) : PeriodSame d e := by
  unfold donorConvert at h
  split at h <;> cases h
  dsimp only
  refine PeriodSame.trans ?_ (post_period _ _ _ _ _ _ _)
  exact (sbMod_period _ _ d).trans (stw_period _ _ rfl rfl)

theorem substitute_period (k p : Nat) (d : Dev) : PeriodSame d (substitute k p d).2 := by
  have put : ∀ (m : Med) (e : Dev), PeriodSame d e → PeriodSame e { e with med := m } → ∀ a b c x y z : Nat,
      PeriodSame d (post 0x5008 1 a b c x (blogAdd 2 y z c x { e with med := m })) := fun _ _ h h2 _ _ _ _ _ _ =>
    ((h.trans h2).trans (blogAdd_period _ _ _ _ _ _)).trans (post_period _ _ _ _ _ _ _)
  unfold substitute
  dsimp only
  split
  · exact sbLost_period k p true d
  · split
    · exact put _ d (.rfl' d) (by constructor <;> rfl) _ _ _ _ _ _
    · split
      · exact sbLost_period k p false d
      · rename_i h
        have hd := donorConvert_period h
        split
        · exact put _ _ hd (by constructor <;> rfl) _ _ _ _ _ _
        · exact hd.trans (sbLost_period k p false _)

theorem retireWorn_period (k : Nat) (d : Dev) : PeriodSame d (retireWorn k d) := by
  refine foldl_period _ (fun d p => ?_) _ d
  dsimp only
  split
  · refine PeriodSame.trans ?_ (substitute_period _ _ _)
    refine PeriodSame.trans ?_ (post_period _ _ _ _ _ _ _)
    refine PeriodSame.trans ?_ (blogAdd_period _ _ _ _ _ _)
    constructor <;> rfl
  · exact .rfl' d

theorem intentPut_period (k : Nat) (d : Dev) : PeriodSame d (intentPut k d) := by
  unfold intentPut
  exact ite_period (retireWorn_period k d) (((retireWorn_period k d).trans (blogSb_period 0 k _)).trans (sbMod_period _ _ _))

theorem intentLog_period (k : Nat) (d : Dev) : PeriodSame d (intentLog k d) := by
  unfold intentLog
  dsimp only
  split
  · refine PeriodSame.trans ?_ (intentPut_period _ _)
    exact stw_period _ d rfl rfl
  · exact .rfl' d

theorem opsStart_period {lane nsb c : Nat} {ps : List Nat} {r : Bool} {d e : Dev} (h : opsStart lane nsb ps r c d = some e) :
    PeriodSame d e := by
  unfold opsStart mediaGrant at h
  split at h <;> cases h
  constructor <;> rfl

theorem waveStart_period (lane : Nat) (d : Dev) : PeriodSame d (waveStart lane d) := by
  unfold waveStart
  split
  · exact .rfl' d
  · dsimp only
    split
    · exact .rfl' d
    · split
      · rename_i h
        exact (opsStart_period h).trans (by constructor <;> rfl)
      · exact ite_period (.rfl' d) (by constructor <;> rfl)

theorem resetStart_period (key : Nat) (d : Dev) : PeriodSame d (resetStart key d) := by
  unfold resetStart
  dsimp only
  split
  · exact .rfl' d
  · split
    · rename_i h
      exact ((opsStart_period h).trans (by constructor <;> rfl)).trans (sbMod_period _ _ _)
    · exact ite_period (.rfl' d) (PeriodSame.trans (by constructor <;> rfl) (sbMod_period _ _ _))

theorem resetKick_period (d : Dev) : PeriodSame d (resetKick d) := by
  refine foldl_period _ (fun d x => ?_) _ d
  split
  · exact ite_period (.rfl' d) (resetStart_period _ _)
  · exact ite_period (.rfl' d) (resetStart_period _ _)
  · exact .rfl' d

theorem waveKick_period (d : Dev) : PeriodSame d (waveKick d) := foldl_period _ (fun d l => waveStart_period l d) _ d

theorem admitEval_period (d : Dev) : PeriodSame d (admitEval d) := by constructor <;> simp

theorem endPeriod_period (d : Dev) : PeriodSame d (endPeriod d) := by
  unfold endPeriod
  dsimp only
  split
  · exact PeriodSame.rfl' d
  · split
    · constructor <;> rfl
    · exact PeriodSame.trans (by constructor <;> rfl) (post_period _ _ _ _ _ _ _)

theorem rescueDrop_period (f : Nat) (d : Dev) : PeriodSame d (rescueDrop f d) := by
  unfold rescueDrop
  constructor <;> rfl

theorem rescueSweep_period (d : Dev) : PeriodSame d (rescueSweep d) := by
  unfold rescueSweep
  exact foldl_period _ (fun d x => ite_period (.rfl' d) (rescueDrop_period _ d)) _ d

theorem freeUpdate_period (d : Dev) : PeriodSame d (freeUpdate d) := by
  unfold freeUpdate
  exact PeriodSame.trans (by constructor <;> rfl) (postIf_period _ _ _ _ _ _ _ _)

theorem cyclesUpdate_period (d : Dev) : PeriodSame d (cyclesUpdate d) := by
  unfold cyclesUpdate
  constructor <;> rfl

theorem wearUpdate_period (d : Dev) : PeriodSame d (wearUpdate d) := by
  have h : ∀ (e : Dev) (o : Option Nat), PeriodSame e (match o with
      | some k => sbMod k (fun b => { b with role := .wear }) e
      | none => e) := by
    intro e o; cases o
    · exact PeriodSame.rfl' e
    · exact sbMod_period _ _ _
  unfold wearUpdate
  exact ite_period (PeriodSame.trans (PeriodSame.trans (by constructor <;> rfl) (postIf_period _ _ _ _ _ _ _ _)) (h _ _))
    (PeriodSame.trans (by constructor <;> rfl) (postIf_period _ _ _ _ _ _ _ _))

theorem govUpdate_period (d : Dev) : PeriodSame d (govUpdate d) := by
  unfold govUpdate
  exact PeriodSame.trans (by constructor <;> rfl) (postIf_period _ _ _ _ _ _ _ _)

theorem victimTake_period (d : Dev) : PeriodSame d (victimTake d) := by
  unfold victimTake
  dsimp only
  refine PeriodSame.trans ?_ (stw_period _ _ rfl rfl)
  split
  · exact sbMod_period _ _ d
  · exact .rfl' d

theorem victimUpdate_period (d : Dev) : PeriodSame d (victimUpdate d) :=
  (foldl_period _ (fun d k => intentLog_period k d) _ d).trans (victimTake_period _)

theorem evacUpdate_period (d : Dev) : PeriodSame d (evacUpdate d) := by
  unfold evacUpdate
  refine PeriodSame.trans (b := { d with med := { d.med with
      sb := tmap d.med.sb fun k b => if readOnlyLane d (k / 1344) ∧ !b.valid.isEmpty then { b with role := .evac } else b } }) (by constructor <;> rfl) ?_
  exact foldl_period _ (fun d x => ite_period (PeriodSame.rfl' d) (PeriodSame.trans (by constructor <;> rfl) (post_period _ _ _ _ _ _ _))) _ _

theorem lapStart_period (b : Bool) (d : Dev) : PeriodSame d (lapStart b d) := by
  unfold lapStart
  split
  · exact PeriodSame.rfl' d
  · constructor <;> rfl

/-- A patrol lap's write of the store: it starts, it waits, or one before it is refused and marked (R366). -/
theorem fwPut_period (w : FwWrite) (d : Dev) : PeriodSame d (fwPut w d) := by
  have ref : ∀ (w : FwWrite) (d : Dev), PeriodSame d (fwRefused w d) := by
    intro w d
    unfold fwRefused
    split <;> constructor <;> rfl
  have pst : ∀ (x : Pst) (d : Dev), PeriodSame d { d with pst := x } := by intro x d; constructor <;> rfl
  unfold fwPut pstStart
  refine (pst { d.pst with fwq := d.pst.fwq ++ [w] } d).trans ?_
  generalize ({ d with pst := { d.pst with fwq := d.pst.fwq ++ [w] } } : Dev) = e
  split
  · exact .rfl' e
  · split
    · exact .rfl' e
    · split
      · exact pst _ e
      · split
        · exact pst _ e
        · refine PeriodSame.trans ?_ (ref _ _)
          refine PeriodSame.trans ?_ (post_period _ _ _ _ _ _ _)
          constructor <;> rfl

theorem patrolLapEnd_period (d : Dev) : PeriodSame d (patrolLapEnd d) := by
  unfold patrolLapEnd
  dsimp only
  refine PeriodSame.trans ?_ (post_period _ _ _ _ _ _ _)
  refine PeriodSame.trans ?_ (fwPut_period _ _)
  exact stw_period _ d rfl rfl

theorem patrolLapStart_period (d : Dev) : PeriodSame d (patrolLapStart d) := by
  unfold patrolLapStart
  exact ite_period (.rfl' d) (stw_period _ d rfl rfl)

theorem planPeriod_period (d : Dev) : PeriodSame d (planPeriod d) := by
  unfold planPeriod
  exact PeriodSame.trans (by constructor <;> rfl) (postIf_period _ _ _ _ _ _ _ _)

/-- PERIOD_START: the settings take effect at the period's start, and everything after leaves them and the rest as they are. -/
theorem periodStart_spec (d : Dev) (h : d.periodsOn = true) :
    PeriodSame (periodSettings { endPeriod d with time := alignUp 100000 (endPeriod d).time }) (periodStart d) := by
  have pace : ∀ e : Dev, PeriodSame e { e with
      med := { e.med with blogAt := e.med.blogBuf.length }, csh := { e.csh with pace := e.csh.destaged, destaged := 0 } } := by
    intro e; constructor <;> rfl
  unfold periodStart
  rw [if_neg (by rw [h]; decide)]
  refine PeriodSame.trans ?_ (resetKick_period _)
  refine PeriodSame.trans ?_ (waveKick_period _)
  refine PeriodSame.trans ?_ (admitEval_period _)
  refine PeriodSame.trans ?_ (planPeriod_period _)
  refine PeriodSame.trans ?_ (ite_period (patrolLapEnd_period _) (.rfl' _))
  refine PeriodSame.trans ?_ (lapStart_period _ _)
  refine PeriodSame.trans ?_ (evacUpdate_period _)
  refine PeriodSame.trans ?_ (victimUpdate_period _)
  refine PeriodSame.trans ?_ (govUpdate_period _)
  refine PeriodSame.trans ?_ (wearUpdate_period _)
  refine PeriodSame.trans ?_ (cyclesUpdate_period _)
  refine PeriodSame.trans ?_ (freeUpdate_period _)
  refine PeriodSame.trans ?_ (pace _)
  refine PeriodSame.trans ?_ (patrolLapStart_period _)
  exact rescueSweep_period _

/-- The mailbox has no part in a period. -/
@[simp] theorem periodStart_mbx (d : Dev) : (periodStart d).mbx = d.mbx := by
  cases h : d.periodsOn with
  | false => simp [periodStart, h]
  | true =>
    refine (periodStart_spec d h).mbx.trans ?_
    show (endPeriod d).mbx = d.mbx
    unfold endPeriod
    split
    · rfl
    · dsimp only
      split
      · rfl
      · rw [post_mbx]

end Sys2Proof.Machine
end

