-- ==== Sys2Proof/Laws/Ring.lean ====
section
/-! SUPPORT. Laws/Ring.lean: what the ring's paths depend on, and what its shared operations leave as it was (R269–R296). -/

namespace Sys2Proof.Machine

/-- A walk depends on the dead links alone. -/
theorem hopsAlong_congr {d e : Dev} (h : e.srn.dead = d.srn.dead) (dst : Nat) (l : List Nat) :
    ∀ a n, hopsAlong e dst a l n = hopsAlong d dst a l n := by
  induction l with
  | nil => intro a n; rfl
  | cons x l ih => intro a n; simp only [hopsAlong, deadLink, h, ih]; rfl

/-- A path depends on the index, the members, the dead links, the splice and the two ports' states alone. -/
theorem pathTo_congr {d e : Dev} (h1 : e.srn.index = d.srn.index) (h2 : e.srn.members = d.srn.members)
    (h3 : e.srn.dead = d.srn.dead) (h4 : e.srn.splice = d.srn.splice) (h5 : e.srn.west.st = d.srn.west.st)
    (h6 : e.srn.east.st = d.srn.east.st) (dst : Nat) : pathTo e dst = pathTo d dst := by
  have hw : eastWalk e = eastWalk d := by simp only [eastWalk, liveOrder, h1, h2]
  simp only [pathTo, spliceRing, hopsAlong_congr h3, h1, h4, h5, h6, hw]
  rfl

/-- So do the hops. -/
theorem hopsTo_congr {d e : Dev} (h1 : e.srn.index = d.srn.index) (h2 : e.srn.members = d.srn.members)
    (h3 : e.srn.dead = d.srn.dead) (h4 : e.srn.splice = d.srn.splice) (h5 : e.srn.west.st = d.srn.west.st)
    (h6 : e.srn.east.st = d.srn.east.st) (dst : Nat) : hopsTo e dst = hopsTo d dst := by
  simp only [hopsTo, pathTo_congr h1 h2 h3 h4 h5 h6]

/-- A cell queued changes the two ports alone (R272, R288). -/
theorem queueCell_frame (b : Bool) (c : QCell) (d : Dev) : ∃ w e : RPort, queueCell b c d = { d with srn := { d.srn with west := w, east := e } } := by
  unfold queueCell
  dsimp only
  split <;> cases b <;> exact ⟨_, _, rfl⟩

/-- A cell sent counts SEQ and SRN_CNT_0 and waits at a port; nothing else changes (R272, R273). -/
theorem sendCell_frame (ty dst tag line : Nat) (b : Bool) (st : Nat) (p : Bool) (w : List Nat) (d : Dev) : ∃ x y : RPort,
    sendCell ty dst tag line b st p w d = { d with
      srn := { d.srn with seqNext := d.srn.seqNext + 1, cnt := bump d.srn.cnt 0, west := x, east := y } } := by
  unfold sendCell
  exact Exists.elim (queueCell_frame _ _ _) fun x hx => Exists.elim hx fun y hy => ⟨x, y, hy⟩

/-- A device that differs from another in the ring's state, the host's CDAT and windows, the recorder, the cushion's
credits, what was sent and the free values drawn alone. -/
structure RingSame (d t : Dev) : Prop where
  variant : t.variant = d.variant
  rootKey : t.rootKey = d.rootKey
  time : t.time = d.time
  ldg : t.ldg = d.ldg
  map : t.map = d.map
  rp : t.rp = d.rp
  med : t.med = d.med
  stw : t.stw = d.stw
  cph : t.cph = d.cph
  mbx : t.mbx = d.mbx
  pst : t.pst = d.pst
  bfl : t.bfl = d.bfl
  pwr : t.pwr = d.pwr
  dark : t.dark = d.dark
  dir : t.csh.dir = d.csh.dir
  slots : t.sec.slots = d.sec.slots

theorem RingSame.rfl' (d : Dev) : RingSame d d := by constructor <;> rfl

theorem RingSame.trans {a b c : Dev} (h : RingSame a b) (k : RingSame b c) : RingSame a c where
  variant := k.variant.trans h.variant
  rootKey := k.rootKey.trans h.rootKey
  time := k.time.trans h.time
  ldg := k.ldg.trans h.ldg
  map := k.map.trans h.map
  rp := k.rp.trans h.rp
  med := k.med.trans h.med
  stw := k.stw.trans h.stw
  cph := k.cph.trans h.cph
  mbx := k.mbx.trans h.mbx
  pst := k.pst.trans h.pst
  bfl := k.bfl.trans h.bfl
  pwr := k.pwr.trans h.pwr
  dark := k.dark.trans h.dark
  dir := k.dir.trans h.dir
  slots := k.slots.trans h.slots

/-- An update of the ring's state keeps everything else. -/
theorem srn_ring (x : Srn) (d : Dev) : RingSame d { d with srn := x } := by constructor <;> rfl

/-- Whichever branch is taken, when both keep everything else. -/
theorem ite_ring {d a b : Dev} {c : Prop} [Decidable c] (h : RingSame d a) (k : RingSame d b) : RingSame d (if c then a else b) := by
  split <;> assumption

theorem post_ring (c v p0 p1 p2 p3 : Nat) (d : Dev) : RingSame d (post c v p0 p1 p2 p3 d) := by
  constructor <;> simp

theorem sendCell_ring (ty dst tag line : Nat) (b : Bool) (st : Nat) (p : Bool) (w : List Nat) (d : Dev) :
    RingSame d (sendCell ty dst tag line b st p w d) := by
  obtain ⟨x, y, h⟩ := sendCell_frame ty dst tag line b st p w d
  rw [h]
  exact srn_ring _ d

theorem cellTo_ring (ty dst tag line st : Nat) (w : List Nat) (d : Dev) : RingSame d (cellTo ty dst tag line st w d) :=
  sendCell_ring _ _ _ _ _ _ _ _ d

/-- A fold of operations that keep everything else keeps it. -/
theorem foldl_ring {α : Type} (f : Dev → α → Dev) (h : ∀ d x, RingSame d (f d x)) (l : List α) :
    ∀ d, RingSame d (l.foldl f d) := by
  induction l with
  | nil => intro d; exact RingSame.rfl' d
  | cons x l ih => intro d; exact (h d x).trans (ih _)

theorem cellAll_ring (ty st : Nat) (w : List Nat) (d : Dev) : RingSame d (cellAll ty st w d) :=
  foldl_ring _ (fun d _ => cellTo_ring _ _ _ _ _ _ d) _ d

theorem frame_ring (ty : Nat) (w : List Nat) (d : Dev) : RingSame d (frame ty w d) := by
  unfold frame; split
  · exact RingSame.rfl' d
  · exact srn_ring _ d

theorem creditTake_ring (o : Nat) (b : Bool) (d e : Dev) (h : creditTake o b d = some e) : RingSame d e := by
  unfold creditTake at h
  dsimp only at h
  split at h <;> split at h <;> cases h <;> (constructor <;> rfl)

theorem remoteSend_ring (r : Remote) (d : Dev) : RingSame d (remoteSend r d).2 := by
  unfold remoteSend
  dsimp only
  split
  · exact RingSame.rfl' d
  · split
    · exact sendCell_ring _ _ _ _ _ _ _ _ d
    · split
      · exact RingSame.rfl' d
      · rename_i h
        exact (creditTake_ring _ _ _ _ h).trans (sendCell_ring _ _ _ _ _ _ _ _ _)

theorem remoteRetryAll_ring (d : Dev) : RingSame d (remoteRetryAll d) := by
  refine foldl_ring _ (fun d r => ?_) _ d
  split
  · exact (remoteSend_ring _ d).trans (by constructor <;> rfl)
  · exact RingSame.rfl' d

theorem topoChange_ring (d : Dev) : RingSame d (topoChange d) := by
  unfold topoChange
  exact RingSame.trans (by constructor <;> rfl) (remoteRetryAll_ring _)

theorem cdatRebuild_ring (d : Dev) : RingSame d (cdatRebuild d) := by
  unfold cdatRebuild; split
  · exact RingSame.rfl' d
  · exact RingSame.trans (by constructor <;> rfl) (post_ring _ _ _ _ _ _ _)

theorem ringUpdate_ring (d : Dev) : RingSame d (ringUpdate d) := by
  unfold ringUpdate
  dsimp only
  split
  · exact RingSame.rfl' d
  · refine RingSame.trans ?_ (cdatRebuild_ring _)
    exact ite_ring (RingSame.trans (by constructor <;> rfl) (post_ring _ _ _ _ _ _ _)) (by constructor <;> rfl)

theorem credReset_ring (d : Dev) : RingSame d (credReset d) := by constructor <;> rfl

theorem deadAdd_ring (a b : Nat) (d : Dev) : RingSame d (deadAdd a b d) := by
  unfold deadAdd; split
  · exact RingSame.rfl' d
  · constructor <;> rfl

theorem deadDrop_ring (a b : Nat) (d : Dev) : RingSame d (deadDrop a b d) := by constructor <;> rfl

theorem portMod_ring (s : Side) (f : RPort → RPort) (d : Dev) : RingSame d (portMod s f d) := by
  cases s <;> (constructor <;> rfl)

theorem portTurn_ring (s : Side) (d : Dev) : RingSame d (portTurn s d) := by
  unfold portTurn
  exact (portMod_ring _ _ d).trans (portMod_ring _ _ _)

theorem spliceStop_ring (c : Nat) (d : Dev) : RingSame d (spliceStop c d) := by
  unfold spliceStop
  split
  · exact RingSame.rfl' d
  · split
    · exact srn_ring _ d
    · exact ite_ring (((srn_ring _ d).trans (post_ring _ _ _ _ _ _ _)).trans (srn_ring _ _))
        (((srn_ring _ d).trans (post_ring _ _ _ _ _ _ _)).trans (srn_ring _ _))

theorem spliceAbort_ring (c : Nat) (d : Dev) : RingSame d (spliceAbort c d) := by
  unfold spliceAbort
  split
  · exact ite_ring ((spliceStop_ring c d).trans (frame_ring _ _ _)) (spliceStop_ring c d)
  · exact RingSame.rfl' d

theorem cnt_ring (k : Nat) (d : Dev) : RingSame d { d with srn := { d.srn with cnt := bump d.srn.cnt k } } := by constructor <;> rfl

/-- A dead link touches the ring, the host's CDAT and the recorder alone (R288). -/
theorem linkDead_ring (s : Side) (d : Dev) : RingSame d (linkDead s d) := by
  unfold linkDead
  split
  · exact RingSame.rfl' d
  · split
    · exact portMod_ring _ _ d
    · dsimp only
      refine RingSame.trans ?_ (post_ring _ _ _ _ _ _ _)
      refine RingSame.trans ?_ (frame_ring _ _ _)
      refine RingSame.trans ?_ (cnt_ring 13 _)
      refine RingSame.trans ?_ (topoChange_ring _)
      refine RingSame.trans ?_ (cellAll_ring _ _ _ _)
      refine RingSame.trans ?_ (ringUpdate_ring _)
      refine RingSame.trans ?_ (deadAdd_ring _ _ _)
      exact ((portMod_ring _ _ d).trans (portTurn_ring _ _)).trans (spliceAbort_ring _ _)

/-- Neither the index nor the members follow a topology change. -/
@[simp] theorem deadAdd_index (a b : Nat) (d : Dev) : (deadAdd a b d).srn.index = d.srn.index := by unfold deadAdd; split <;> rfl

@[simp] theorem cdatRebuild_srn (d : Dev) : (cdatRebuild d).srn = d.srn := by
  unfold cdatRebuild; split
  · rfl
  · simp

@[simp] theorem ringUpdate_index (d : Dev) : (ringUpdate d).srn.index = d.srn.index := by
  unfold ringUpdate
  dsimp only
  split
  · rfl
  · rw [cdatRebuild_srn]
    split <;> split <;> simp

/-- A write to the store asked for leaves the ring as it is, but for the mark that asks again (R283). -/
theorem fwPut_frame (w : FwWrite) (d : Dev) : ∃ (p : Pst) (e : Evr) (fr : Nat) (b : Bool) (c : Csh) (f : Bfl) (s : Sec),
    fwPut w d = { d with pst := p, evr := e, free := fr, srn := { d.srn with indexRetry := b }, csh := c, bfl := f, sec := s } := by
  have low : ∀ (a b : Nat) (d : Dev), ∃ (p : Pst) (e : Evr), supplyLow a b d = { d with pst := p, evr := e } := by
    intro a b d
    obtain ⟨e, he⟩ := post_eq (c := 0x9012) (v := 1) (p0 := a) (p1 := b) (p2 := d.pst.auxMv) (p3 := d.pst.holdUj)
      (d := { d with pst := { d.pst with cnt := bump d.pst.cnt 4 } })
    exact ⟨_, e, he⟩
  have ref : ∀ (w : FwWrite) (d : Dev), ∃ (b : Bool) (c : Csh) (f : Bfl) (s : Sec),
      fwRefused w d = { d with srn := { d.srn with indexRetry := b }, csh := c, bfl := f, sec := s } := by
    intro w d
    unfold fwRefused
    split <;> exact ⟨_, _, _, _, rfl⟩
  unfold fwPut pstStart
  split
  · exact ⟨_, d.evr, d.free, d.srn.indexRetry, d.csh, d.bfl, d.sec, rfl⟩
  · split
    · exact ⟨_, d.evr, d.free, d.srn.indexRetry, d.csh, d.bfl, d.sec, rfl⟩
    · split
      · exact ⟨_, d.evr, d.free, d.srn.indexRetry, d.csh, d.bfl, d.sec, rfl⟩
      · split
        · exact ⟨_, d.evr, d.free, d.srn.indexRetry, d.csh, d.bfl, d.sec, rfl⟩
        · simp only [draw]
          rename_i w' rest _ _ _ _
          obtain ⟨p, e, h1⟩ := low w'.part (Config.freeValue d.free % 1020)
            { d with pst := { d.pst with fwq := rest }, free := d.free + 1 }
          rw [h1]
          obtain ⟨b, c, f, s, h2⟩ := ref w' { d with pst := p, evr := e, free := d.free + 1 }
          exact ⟨p, e, d.free + 1, b, c, f, s, h2⟩

@[simp] theorem fwPut_variant (w : FwWrite) (d : Dev) : (fwPut w d).variant = d.variant := by
  obtain ⟨_, _, _, _, _, _, _, h⟩ := fwPut_frame w d; rw [h]
@[simp] theorem fwPut_time (w : FwWrite) (d : Dev) : (fwPut w d).time = d.time := by
  obtain ⟨_, _, _, _, _, _, _, h⟩ := fwPut_frame w d; rw [h]
@[simp] theorem fwPut_ldg (w : FwWrite) (d : Dev) : (fwPut w d).ldg = d.ldg := by
  obtain ⟨_, _, _, _, _, _, _, h⟩ := fwPut_frame w d; rw [h]
@[simp] theorem fwPut_map (w : FwWrite) (d : Dev) : (fwPut w d).map = d.map := by
  obtain ⟨_, _, _, _, _, _, _, h⟩ := fwPut_frame w d; rw [h]
@[simp] theorem fwPut_rp (w : FwWrite) (d : Dev) : (fwPut w d).rp = d.rp := by
  obtain ⟨_, _, _, _, _, _, _, h⟩ := fwPut_frame w d; rw [h]
@[simp] theorem fwPut_med (w : FwWrite) (d : Dev) : (fwPut w d).med = d.med := by
  obtain ⟨_, _, _, _, _, _, _, h⟩ := fwPut_frame w d; rw [h]
@[simp] theorem fwPut_stw (w : FwWrite) (d : Dev) : (fwPut w d).stw = d.stw := by
  obtain ⟨_, _, _, _, _, _, _, h⟩ := fwPut_frame w d; rw [h]
@[simp] theorem fwPut_hst (w : FwWrite) (d : Dev) : (fwPut w d).hst = d.hst := by
  obtain ⟨_, _, _, _, _, _, _, h⟩ := fwPut_frame w d; rw [h]
@[simp] theorem fwPut_ope (w : FwWrite) (d : Dev) : (fwPut w d).ope = d.ope := by
  obtain ⟨_, _, _, _, _, _, _, h⟩ := fwPut_frame w d; rw [h]
@[simp] theorem fwPut_cph (w : FwWrite) (d : Dev) : (fwPut w d).cph = d.cph := by
  obtain ⟨_, _, _, _, _, _, _, h⟩ := fwPut_frame w d; rw [h]
@[simp] theorem fwPut_mbx (w : FwWrite) (d : Dev) : (fwPut w d).mbx = d.mbx := by
  obtain ⟨_, _, _, _, _, _, _, h⟩ := fwPut_frame w d; rw [h]
@[simp] theorem fwPut_pwr (w : FwWrite) (d : Dev) : (fwPut w d).pwr = d.pwr := by
  obtain ⟨_, _, _, _, _, _, _, h⟩ := fwPut_frame w d; rw [h]
@[simp] theorem fwPut_out (w : FwWrite) (d : Dev) : (fwPut w d).out = d.out := by
  obtain ⟨_, _, _, _, _, _, _, h⟩ := fwPut_frame w d; rw [h]

/-- Taking an index sets it and the RING_ID, and touches the store's queue, the recorder and the line's queue (R283). -/
theorem indexTake_frame (i rid : Nat) (d : Dev) : ∃ (p : Pst) (e : Evr) (fr : Nat) (b : Bool) (c : Csh) (f : Bfl) (s : Sec)
    (l : List (Nat × List Nat)), indexTake i rid d = { d with
      pst := p, evr := e, free := fr, csh := c, bfl := f, sec := s
      srn := { d.srn with index := i, indexed := true, ringId := rid, indexRetry := b, rlq := l } } := by
  have line : ∀ (ty : Nat) (w : List Nat) (d : Dev), ∃ l, frame ty w d = { d with srn := { d.srn with rlq := l } } := by
    intro ty w d
    unfold frame
    split
    · exact ⟨d.srn.rlq, rfl⟩
    · exact ⟨_, rfl⟩
  have last : ∀ (w : List Nat) (v p0 p1 p2 p3 : Nat) (d : Dev), ∃ (l : List (Nat × List Nat)) (e : Evr),
      post 0x2009 v p0 p1 p2 p3 (frame 0x11 w d) = { d with srn := { d.srn with rlq := l }, evr := e } := by
    intro w v p0 p1 p2 p3 d
    obtain ⟨l, h⟩ := line 0x11 w d
    rw [h]
    exact Exists.elim post_eq fun e he => ⟨l, e, he⟩
  have done : ∀ (x : Dev), (∃ (p : Pst) (e : Evr) (fr : Nat) (b : Bool) (c : Csh) (f : Bfl) (s : Sec), x = { d with
      pst := p, evr := e, free := fr, csh := c, bfl := f, sec := s
      srn := { d.srn with index := i, indexed := true, ringId := rid, indexRetry := b } }) → ∀ (k : Nat), ∃ (p : Pst) (e : Evr)
        (fr : Nat) (b : Bool) (c : Csh) (f : Bfl) (s : Sec) (l : List (Nat × List Nat)),
      post 0x2009 0 i rid k 0 (frame 0x11 [x.pst.nv.serial, i, rid] x) = { d with
        pst := p, evr := e, free := fr, csh := c, bfl := f, sec := s
        srn := { d.srn with index := i, indexed := true, ringId := rid, indexRetry := b, rlq := l } } := by
    rintro x ⟨p, e, fr, b, c, f, s, h⟩ k
    obtain ⟨l, ev, h2⟩ := last [x.pst.nv.serial, i, rid] 0 i rid k 0 x
    subst h
    exact ⟨p, ev, fr, b, c, f, s, l, h2⟩
  unfold indexTake
  refine done _ ?_ _
  dsimp only
  split
  · exact ⟨d.pst, d.evr, d.free, d.srn.indexRetry, d.csh, d.bfl, d.sec, rfl⟩
  · exact fwPut_frame _ _

end Sys2Proof.Machine
end

