-- ==== Sys2Proof/WellFormed.lean ====
section
/-! DEFINITION. WellFormed.lean: which commands can reach the node: every operand lies in the range the manual gives it.
The meanings are total; a statement that needs a range names it. -/

namespace Sys2Proof

/-- A request's tag, 16 bits (R273). -/
def okTag (t : Nat) : Bool := decide (t < 2 ^ 16)

/-- A byte address of a 64-byte line in the host's 52 bits (R23, R245). -/
def okAddr (a : Nat) : Bool := a % 64 = 0 && decide (a < 2 ^ 52)

/-- A line of a frond (R64). -/
def okLine (l : Nat) : Bool := decide (l < 64)

/-- A line of the ring space, DPA[43:6] (R273). -/
def okRingLine (l : Nat) : Bool := decide (l < 2 ^ 38)

/-- A ring index (R265). -/
def okIndex (i : Nat) : Bool := decide (i < 16)

/-- A ring index or 31, none (R283). -/
def okIndexOr (i : Nat) : Bool := okIndex i || i = 31

/-- A frond number (R24). -/
def okFrond (f : Nat) : Bool := decide (f < 2 ^ 32)

/-- A media lane (R165). -/
def okLane (l : Nat) : Bool := decide (l < 128)

/-- A position of a lane (R149). -/
def okPos (p : Nat) : Bool := decide (p < 20)

/-- A sorus-block key: lane · 1344 + number (R158). -/
def okSb (n : Nat) : Bool := decide (n < 128 * 1344)

/-- A row of the media (R24). -/
def okRow (r : Nat) : Bool := decide (r < 2 ^ 33)

/-- A protected range (R220). -/
def okRange (r : Nat) : Bool := decide (r < 64)

/-- An operator engine (R298). -/
def okEngine (e : Nat) : Bool := decide (e < 16)

/-- A task or result queue (R300). -/
def okQueue (q : Nat) : Bool := decide (q < 64)

/-- A cipher core (R332). -/
def okCore (c : Nat) : Bool := decide (c < 8)

/-- An HDM decoder (R245). -/
def okDec (n : Nat) : Bool := decide (n < 4)

/-- A rail (R431). -/
def okRail (r : Nat) : Bool := decide (r < 6)

/-- A boot flash or log offset; a register offset in BAR2 (R33). -/
def okOff (o : Nat) : Bool := decide (o < 2 ^ 24)

/-- Measured times: the eight ledger lines (R37). -/
def Lat.wf (l : Lat) : Bool := l.lines.length = 8

/-- A mailbox payload (R339). -/
def okPayload (p : List Byte) : Bool := decide (p.length ≤ 4096)

/-- A cell's header fields are in range (R273). -/
def Cell.wf (c : Cell) : Bool :=
  okIndex c.src && okIndex c.dst && okTag c.tag && okRingLine c.line && decide (c.ttl < 32) && decide (c.seq < 2 ^ 64)
    && decide (c.devload < 4) && decide (c.epoch < 4) && decide (c.status < 2 ^ 16)
    && decide (c.plen < 4) && decide (c.icv < 2 ^ 64) && decide (c.ct.length ≤ 256)

/-- A window names a port and one of its decoders (R264). -/
def Win.wf (w : Win) : Bool := okIndex w.port && okDec w.dec && decide (1 ≤ w.size)

/-- The boot verdicts are causes of R380. -/
def Boot.wf (b : Boot) : Bool :=
  b.bad1.all (fun c => decide (c < 8)) && b.bad2.all (fun c => decide (c < 8)) && b.keyBad.all (fun k => decide (k < 65))
    && b.cphBad.all (fun k => decide (k < 32)) && b.coreBad.all okCore && b.monBad.all okRail

/-- Who may accept a lane's offer names blocks and ranges that exist. -/
def Consumer.wf : Consumer → Bool
  | .move step nsb => decide (step < 16) && okSb nsb
  | .rekey range => okRange range
  | .reset nsb => okSb nsb
  | .destage | .journal | .image | .blockLog | .rescue => true

/-- What patrol finds lies within its row. -/
def Finding.wf : Finding → Bool
  | .clean => true
  | .stepUp pos line => okPos pos && okLine line
  | .recomputed line | .poisoned line => okLine line
  | .parity column => decide (column < 160)

/-- A unit with an enable bit exists (R322). -/
def OpeUnit.wf : OpeUnit → Bool
  | .engine e => okEngine e
  | .taskQueue q => okQueue q
  | .resultQueue r => okQueue r

/-- Every operand of the command is in range. -/
def Instr.wf : Instr → Bool
  | .cxlMemRead tag addr _ _ lat => okTag tag && okAddr addr && lat.wf
  | .mapLineReadDone _ _ lat | .cushionReadDone _ _ _ lat | .cushionMirrorRefetchDone _ _ lat
  | .mediaReadDone _ _ _ lat | .readRefetchDone _ _ _ lat | .readRecomputeDone _ _ _ _ _ lat
  | .recomputeSecondPass _ _ _ _ _ lat => lat.wf
  | .cxlMemWrite tag addr _ _ _ _ _ lat => okTag tag && okAddr addr && lat.wf
  | .memclnevct tag addr _ _ => okTag tag && okAddr addr
  | .dramWriteQueueIssue ch => decide (ch < 12)
  | .rdReq c _ lat => c.wf && lat.wf
  | .rdRsp c _ lat => c.wf && lat.wf
  | .wrReq c _ _ _ lat => c.wf && lat.wf
  | .wrAck c lat => c.wf && lat.wf
  | .cellForward type c => decide (type < 32) && c.wf
  | .mark src _ => okIndex src
  | .crdRet c | .nak c | .abort c | .snpQry c | .snpDone c => c.wf
  | .requestRetry _ tag _ => okTag tag
  | .ownerUnreachable tag lat => okTag tag && lat.wf
  | .writeTagExpiry src tag => okIndex src && okTag tag
  | .task c qw entries => c.wf && decide (qw.length = 16) && decide (entries.length ≤ 8)
  | .credit c _ => c.wf
  | .result c words => c.wf && decide (words.length ≤ 32)
  | .taskEnd c .. => c.wf
  | .winClaim c w | .winReply c w | .winCommit c w | .winRelease c w => c.wf && w.wf
  | .table c ms ws => c.wf && ms.all (fun m => okIndex m.1) && decide (ws.length ≤ 64)
  | .spdmCell c _ => c.wf
  | .topo c a b => c.wf && okIndex a && okIndex b
  | .linkTrained _ peer _ => okIndex peer
  | .wrap a b _ => okIndex a && okIndex b
  | .unwrap a b => okIndex a && okIndex b
  | .leave i | .spliceGo i | .spliceAbort i _ _ | .spliceDone i _ | .heartbeat i _ | .spliceReq _ i => okIndex i
  | .claim _ index _ => okIndex index
  | .present p => p.index.all okIndex
  | .spdmSessionEstablished peer _ _ => okIndex peer
  | .laneOffer lane who _ => okLane lane && who.wf
  | .programWaveDone lane _ => okLane lane
  | .resetDone lane pos _ | .operationSuspended lane pos | .operationResume lane pos _ | .operationStall lane pos _ =>
    okLane lane && okPos pos
  | .dieFailed ch die _ => decide (ch < 40) && decide (die < 16)
  | .verifyPassDone nsb pos _ _ => okSb nsb && okPos pos
  | .sentinelMeasurementDone nsb pos _ _ => okSb nsb && okPos pos
  | .patrolRowReadDone row f => okRow row && f.wf
  | .rekeyHeaderReadDone r | .rekeyDone r | .rekeyBoundarySave r => okRange r
  | .linkUp width rate flit => decide (width ∈ [4, 8, 16]) && decide (rate ∈ [16, 32, 64]) && decide (flit < 3)
      && (flit ≠ 0 || decide (rate ≤ 32))
  | .ideKm stream _ => decide (stream < 3)
  | .configRequest tag _ => okTag tag
  | .hdmDecoderCommit n base size .. => okDec n && base % 2 ^ 28 = 0 && size % 2 ^ 28 = 0
  | .hdmDecoderDecommit n | .winClaimReplyTimeout n => okDec n
  | .opeTqDbTail q tail => okQueue q && decide (tail < 32)
  | .opeEngEn e _ | .chunkStart e | .chunkEnd e .. | .engineFaulted e => okEngine e
  | .resultQueueStallEnd r | .opeRqCfgEn r _ | .opeRqPtrRd r .. => okQueue r
  | .opeTqCtlEn q _ | .opeTqCtlAbort q => okQueue q
  | .unitDrainEnd u => u.wf
  | .cipherRequestStart c | .cipherRequestDone c | .cipherCoreDisabled c _ => okCore c
  | .mbxProgressRead size off => (size = 4 || size = 8) && okOff off
  | .identify _ p | .getEventRecords _ p | .clearEventRecords _ p | .getEventInterruptPolicy _ p
  | .setEventInterruptPolicy _ p | .getFwInfo _ p | .transferFw _ p _ _ _ | .activateFw _ p _ | .getTimestamp _ p
  | .setTimestamp _ p | .getSupportedLogs _ p | .getLog _ p | .identifyMemoryDevice _ p | .getHealthInfo _ p
  | .getAlertConfiguration _ p | .setAlertConfiguration _ p | .getPoisonList _ p | .injectPoison _ p | .clearPoison _ p
  | .getScanMediaCapabilities _ p | .scanMedia _ p | .getScanMediaResults _ p | .sanitize _ p | .secureErase _ p
  | .getRingStatus _ p | .setRingIndex _ p | .ringGroupRekey _ p | .ringLeave _ p | .ringRejoin _ p
  | .getEngineStatus _ p | .clearScratch _ p | .openRange _ p | .closeRange _ p | .rekeyRange _ p | .setRangeAttr _ p
  | .cphKeyGenerate _ p | .cphKeyImport _ p _ | .cphKeyZeroize _ p | .cphRequest _ p | .cphKeyWrap _ p
  | .releaseRange _ p | .shedCapacity _ p | .clearWriteRefused _ p | .getMediaLife _ p | .setMode _ p
  | .setPowerLimit _ p | .setThermalInput _ p | .getPowerThermal _ p | .clearHalt _ p | .energyStoreTest _ p
  | .readLog _ p | .freezeLog _ p | .readProtected _ p | .clearProtected _ p | .readHistogram _ p | .pstRead _ p
  | .pstWrite _ p | .pstSetPassword _ p | .pstGetInfo _ p | .getImageInfo _ p | .readFlashLog _ p
  | .setMinSecurityVersion _ p | .identifyNode _ p | .ledgerSnapshot _ p | .memRead _ p .. => okPayload p
  | .lockstepMismatch pair _ => decide (pair < 2)
  | .registerWrite off size _ => okOff off && (size = 4 || size = 8)
  | .ldgBudBudget n v => decide (n < 8) && decide (v < 2 ^ 16)
  | .mapPeekFrond f => okFrond f
  | .nodeResetDeasserted b | .bankCharged b | .leaveHeld b => b.wf
  | .monitorConversion rail _ | .monitorFailed rail _ _ => okRail rail
  | .clockFault source => decide (source < 2)
  | .entdaa da => decide (da < 128)
  | .birsp line _ | .biconflict line => okRingLine line
  | .mapLineRefetchDone .. | .mapLineRecomputeDone .. | .creditReturn .. | .dramRefreshWindow | .sliceBoundary
  | .fecUncorrectable .. | .epochKeyErase | .echo .. | .linkLossOfLock .. | .linkRetrainAttempt ..
  | .presentTimer | .presentWindowClose | .held .. | .spdmFrame .. | .heartbeatTimer | .rhizoidListenExpiry
  | .coldFormLinksUp .. | .portDrainEnd .. | .plugPresence .. | .mapUpdateApply | .mapLapLate | .pinLift ..
  | .slotDrainEnd .. | .genLimitRetry | .periodStart | .candidateRebucket | .patrolLapLate | .patrolPositionSave
  | .patrolDrainEnd | .scrubRead .. | .scrubLapLate .. | .keyStoreRetry | .linkDown | .perstAsserted | .perstDeasserted
  | .hotReset | .cxlReset | .doeCdatRead | .doeSpdm | .gpfPhase1 | .gpfPhase2 | .bisnpSend | .taskDecide
  | .deadlineExpiry .. | .mbxProgressRefresh .. | .mbxCommandComplete .. | .transitFailed | .pstRowWriteDone
  | .flashEraseDone .. | .flashEraseResume | .flashPageProgramDone .. | .eraseMarkerRetry | .flashSupplyCrossing ..
  | .fwWpChange .. | .recordAccept | .flashLogTimer | .freezeExpired | .histogramWindowEnd | .compatWindowEnd
  | .ldgCtlXtrmClr | .ldgCtlOvrClr | .mapCtlCntClr | .mapCtlCacheInval | .medRdCtlCntClr | .cshCtlCntClr | .medCtlCntClr
  | .medDiagCmdGo | .medDiagDone | .stwCtlCntClr | .stwCtlPatrolEn .. | .secCtlCntClr | .hstCtlCntClr | .srnCtlCntClr
  | .srnCtlPortEn .. | .srnCtlGroupRekey | .opeCtlCntClr | .cphCtlCntClr | .mbxCtlCntClr | .pstCtlCntClr | .bflCtlCntClr
  | .evrCtlCntClr | .pwrCtlCntClr | .thmCtlCntClr | .powerGood | .recoveryDone .. | .dormantIdle | .nodeResetAsserted
  | .powerFailDump | .dumpComplete .. | .thermalModelStep | .powerLimitEvaluation .. | .supplyOutOfRange ..
  | .v12Overvoltage | .auxLow .. | .auxReset | .testDischargeStart | .testDischargeMeasured .. | .testDischargeTimeout
  | .testDischargeRecharged | .poweredHoursTick | .linkTrainingFailed .. | .ringIndexWriteRetry | .spliceRequestAgain
  | .spdmOverMctp .. | .auxRestored .. => true

end Sys2Proof
end

