-- ==== Sys2Proof/Tests/Slice0.lean ====
section
/-! SUPPORT. Tests/Slice0.lean: the model's own tests: ill-formed commands that WellFormed refuses; published vectors of AES,
GCM, key wrap and SHA-384; a few values worked out in the manual; and, as wit_<statement>, concrete states that meet the
hypotheses of each statement. -/

set_option maxHeartbeats 400000

namespace Sys2Proof.Tests

open Sys2Proof Sys2Proof.Machine

/-! ### Commands that are not well formed -/

/-- A well-formed cell. -/
def wC : Cell := { src := 1, dst := 0, tag := 7, line := 5, ringB := false, ttl := 15, epoch := 0, seq := 3, hdrOk := true,
                   icvOk := true, poison := false, devload := 0, status := 1 }
/-- A well-formed set of measured times. -/
def wL : Sys2Proof.Lat := { total := 100, lines := [0, 0, 0, 0, 0, 0, 0, 0] }
/-- A request whose check bits hold. -/
def wF : ReqFx := { sfBad := false, wayBad := false, dirBad := false, ideBad := false }
/-- A boot without a fault. -/
def wB : Boot := { bad1 := none, bad2 := none, keyBad := [], cushKeyBad := false, cphBad := [], coreBad := [], monBad := [],
                   rowsLost := [], rowsReverted := [], rowsFixed := [], anchorBad := [], retainedBad := false }
/-- A window. -/
def wW : Win := { base := 0, size := 4, port := 0, dec := 0, db := false }

theorem test_wf_good : (Instr.cxlMemRead 65535 (2 ^ 52 - 64) .a wF wL).wf ∧ (Instr.rdReq wC wF wL).wf ∧
    (Instr.nodeResetDeasserted wB).wf ∧ (Instr.winClaim wC wW).wf := by decide

theorem test_wf_cxlMemRead : ¬ (Instr.cxlMemRead 65536 0 .a wF wL).wf ∧ ¬ (Instr.cxlMemRead 0 32 .a wF wL).wf ∧
    ¬ (Instr.cxlMemRead 0 (2 ^ 52) .a wF wL).wf ∧ ¬ (Instr.cxlMemRead 0 0 .a wF { wL with lines := [] }).wf := by decide
theorem test_wf_readEnds : ¬ (Instr.mapLineReadDone 0 0 { wL with lines := [1] }).wf ∧ ¬ (Instr.cushionReadDone 0 0 false { wL with lines := [1] }).wf ∧
    ¬ (Instr.cushionMirrorRefetchDone 0 0 { wL with lines := [1] }).wf ∧ ¬ (Instr.mediaReadDone 0 0 false { wL with lines := [1] }).wf ∧
    ¬ (Instr.readRefetchDone 0 0 false { wL with lines := [1] }).wf ∧ ¬ (Instr.readRecomputeDone 0 0 0 false 0 { wL with lines := [1] }).wf ∧
    ¬ (Instr.recomputeSecondPass 0 0 0 false 0 { wL with lines := [1] }).wf := by decide
theorem test_wf_cxlMemWrite : ¬ (Instr.cxlMemWrite 65536 0 .a 0 0 false wF wL).wf ∧ ¬ (Instr.cxlMemWrite 0 1 .a 0 0 false wF wL).wf ∧
    ¬ (Instr.cxlMemWrite 0 0 .a 0 0 false wF { wL with lines := [1] }).wf ∧ ¬ (Instr.memclnevct 65536 0 .a false).wf ∧
    ¬ (Instr.memclnevct 0 8 .a false).wf ∧ ¬ (Instr.dramWriteQueueIssue 12).wf := by decide
theorem test_wf_cell : ¬ (Instr.nak { wC with src := 16 }).wf ∧ ¬ (Instr.nak { wC with dst := 16 }).wf ∧ ¬ (Instr.nak { wC with tag := 65536 }).wf ∧
    ¬ (Instr.nak { wC with line := 2 ^ 38 }).wf ∧ ¬ (Instr.nak { wC with ttl := 32 }).wf ∧ ¬ (Instr.nak { wC with seq := 2 ^ 64 }).wf ∧
    ¬ (Instr.nak { wC with plen := 4 }).wf ∧ ¬ (Instr.nak { wC with icv := 2 ^ 64 }).wf ∧
    ¬ (Instr.mark 16 false).wf ∧ ¬ (Instr.nak { wC with devload := 4 }).wf ∧ ¬ (Instr.nak { wC with epoch := 4 }).wf ∧ ¬ (Instr.nak { wC with status := 65536 }).wf := by decide
theorem test_wf_icv (l : List Byte) (h : l.length = 257) : ¬ (Instr.nak { wC with ct := l }).wf := by simp [Instr.wf, Cell.wf, h]
theorem test_wf_cells : ¬ (Instr.rdReq wC wF { wL with lines := [1] }).wf ∧ ¬ (Instr.rdRsp { wC with src := 16 } 0 wL).wf ∧
    ¬ (Instr.wrReq { wC with src := 16 } 0 0 wF wL).wf ∧ ¬ (Instr.wrReq wC 0 0 wF { wL with lines := [1] }).wf ∧ ¬ (Instr.wrAck wC { wL with lines := [1] }).wf ∧ ¬ (Instr.crdRet { wC with src := 16 }).wf ∧
    ¬ (Instr.cellForward 1 { wC with dst := 16 }).wf ∧ ¬ (Instr.cellForward 32 wC).wf ∧ ¬ (Instr.abort { wC with src := 16 }).wf ∧ ¬ (Instr.snpQry { wC with src := 16 }).wf ∧
    ¬ (Instr.snpDone { wC with src := 16 }).wf ∧ ¬ (Instr.credit { wC with src := 16 } 1).wf ∧ ¬ (Instr.spdmCell { wC with src := 16 } .message).wf := by decide
theorem test_wf_requester : ¬ (Instr.requestRetry 1 65536 false).wf ∧ ¬ (Instr.ownerUnreachable 65536 wL).wf ∧ ¬ (Instr.writeTagExpiry 16 0).wf ∧
    ¬ (Instr.writeTagExpiry 0 65536).wf := by decide
theorem test_wf_tasks : ¬ (Instr.task wC [] []).wf ∧ ¬ (Instr.task wC (List.replicate 16 0) (List.replicate 9 (0, 0))).wf ∧
    ¬ (Instr.result wC (List.replicate 33 0)).wf ∧ ¬ (Instr.taskEnd { wC with src := 16 } 0 0 0 0 0 []).wf := by decide
theorem test_wf_windows : ¬ (Instr.winClaim wC { wW with port := 16 }).wf ∧ ¬ (Instr.winCommit wC { wW with dec := 4 }).wf ∧
    ¬ (Instr.winRelease wC { wW with size := 0 }).wf ∧ ¬ (Instr.winReply wC { wW with dec := 4 }).wf ∧ ¬ (Instr.table wC [(16, default)] []).wf ∧
    ¬ (Instr.table wC [] (List.replicate 65 (wW, .claiming))).wf := by decide
theorem test_wf_members : ¬ (Instr.topo wC 16 0).wf ∧ ¬ (Instr.linkTrained .west 16 0).wf ∧ ¬ (Instr.wrap 0 16 .west).wf ∧ ¬ (Instr.unwrap 16 0).wf ∧
    ¬ (Instr.leave 16).wf ∧ ¬ (Instr.present { serial := 0, ringId := 0, hasId := false, index := some 16, variant := 0, fresh := true }).wf ∧
    ¬ (Instr.claim 0 16 0).wf ∧ ¬ (Instr.spliceReq 0 16).wf ∧ ¬ (Instr.spliceGo 16).wf ∧ ¬ (Instr.spliceAbort 16 0 0).wf ∧ ¬ (Instr.spliceDone 16 0).wf ∧
    ¬ (Instr.heartbeat 16 0).wf ∧ ¬ (Instr.spdmSessionEstablished 16 true 0).wf := by decide
theorem test_wf_lanes : ¬ (Instr.laneOffer 128 .destage []).wf ∧ ¬ (Instr.laneOffer 0 (.move 16 0) []).wf ∧ ¬ (Instr.laneOffer 0 (.rekey 64) []).wf ∧
    ¬ (Instr.laneOffer 0 (.reset 172032) []).wf ∧ ¬ (Instr.programWaveDone 128 0).wf ∧ ¬ (Instr.resetDone 0 20 true).wf ∧
    ¬ (Instr.operationSuspended 128 0).wf ∧ ¬ (Instr.operationResume 0 20 0).wf ∧ ¬ (Instr.operationStall 0 20 0).wf ∧ ¬ (Instr.dieFailed 40 0 0).wf ∧
    ¬ (Instr.dieFailed 0 16 0).wf ∧ ¬ (Instr.verifyPassDone 172032 0 [] []).wf ∧ ¬ (Instr.sentinelMeasurementDone 0 20 0 0).wf := by decide
theorem test_wf_patrol : ¬ (Instr.patrolRowReadDone (2 ^ 33) .clean).wf ∧ ¬ (Instr.patrolRowReadDone 0 (.stepUp 20 0)).wf ∧
    ¬ (Instr.patrolRowReadDone 0 (.recomputed 64)).wf ∧ ¬ (Instr.patrolRowReadDone 0 (.poisoned 64)).wf ∧ ¬ (Instr.patrolRowReadDone 0 (.parity 160)).wf ∧
    ¬ (Instr.rekeyHeaderReadDone 64).wf ∧ ¬ (Instr.rekeyDone 64).wf ∧ ¬ (Instr.rekeyBoundarySave 64).wf := by decide
theorem test_wf_host : ¬ (Instr.linkUp 17 0 0).wf ∧ ¬ (Instr.linkUp 16 64 4).wf ∧ ¬ (Instr.linkUp 16 64 0).wf ∧ ¬ (Instr.ideKm 3 false).wf ∧ ¬ (Instr.configRequest 65536 none).wf ∧
    ¬ (Instr.hdmDecoderCommit 4 0 0 0 false 0 false).wf ∧ ¬ (Instr.hdmDecoderCommit 0 1 0 0 false 0 false).wf ∧ ¬ (Instr.hdmDecoderCommit 0 0 1 0 false 0 false).wf ∧
    ¬ (Instr.hdmDecoderDecommit 4).wf ∧ ¬ (Instr.winClaimReplyTimeout 4).wf ∧ ¬ (Instr.birsp (2 ^ 38) none).wf ∧ ¬ (Instr.biconflict (2 ^ 38)).wf := by decide
theorem test_wf_engines : ¬ (Instr.opeTqDbTail 64 0).wf ∧ ¬ (Instr.opeTqDbTail 0 32).wf ∧ ¬ (Instr.opeEngEn 16 true).wf ∧ ¬ (Instr.chunkStart 16).wf ∧
    ¬ (Instr.chunkEnd 16 [] none).wf ∧ ¬ (Instr.engineFaulted 16).wf ∧ ¬ (Instr.resultQueueStallEnd 64).wf ∧ ¬ (Instr.opeRqCfgEn 64 true).wf ∧
    ¬ (Instr.opeRqPtrRd 64 0 0 []).wf ∧ ¬ (Instr.opeTqCtlEn 64 true).wf ∧ ¬ (Instr.opeTqCtlAbort 64).wf ∧ ¬ (Instr.unitDrainEnd (.engine 16)).wf ∧
    ¬ (Instr.unitDrainEnd (.taskQueue 64)).wf ∧ ¬ (Instr.unitDrainEnd (.resultQueue 64)).wf ∧ ¬ (Instr.cipherRequestStart 8).wf ∧
    ¬ (Instr.cipherRequestDone 8).wf ∧ ¬ (Instr.cipherCoreDisabled 8 false).wf := by decide
theorem test_wf_registers : ¬ (Instr.mbxProgressRead 2 0).wf ∧ ¬ (Instr.mbxProgressRead 8 (2 ^ 24)).wf ∧ ¬ (Instr.registerWrite (2 ^ 24) 8 0).wf ∧
    ¬ (Instr.registerWrite 0 2 0).wf ∧ ¬ (Instr.ldgBudBudget 8 0).wf ∧ ¬ (Instr.ldgBudBudget 0 65536).wf ∧ ¬ (Instr.mapPeekFrond (2 ^ 32)).wf ∧
    ¬ (Instr.lockstepMismatch 2 0).wf := by decide
theorem test_wf_power : ¬ (Instr.monitorConversion 6 0).wf ∧ ¬ (Instr.monitorFailed 6 0 0).wf ∧ ¬ (Instr.clockFault 2).wf ∧ ¬ (Instr.entdaa 128).wf ∧
    ¬ (Instr.nodeResetDeasserted { wB with bad1 := some 8 }).wf ∧ ¬ (Instr.bankCharged { wB with keyBad := [65] }).wf ∧
    ¬ (Instr.leaveHeld { wB with cphBad := [32] }).wf ∧ ¬ (Instr.leaveHeld { wB with coreBad := [8] }).wf ∧ ¬ (Instr.leaveHeld { wB with monBad := [6] }).wf := by decide
/-- A mailbox payload longer than 4,096 bytes. -/
theorem test_wf_payload (p : List Byte) (h : p.length = 4097) : ¬ (Instr.identify .primary p).wf ∧ ¬ (Instr.cphRequest .i3c p).wf := by
  simp [Instr.wf, okPayload, h]

/-! ### Published vectors -/

/-- FIPS 197, appendix C.1. -/
theorem test_aes128 : aesEnc [0x00, 0x01, 0x02, 0x03, 0x04, 0x05, 0x06, 0x07, 0x08, 0x09, 0x0a, 0x0b, 0x0c, 0x0d, 0x0e, 0x0f]
    [0x00, 0x11, 0x22, 0x33, 0x44, 0x55, 0x66, 0x77, 0x88, 0x99, 0xaa, 0xbb, 0xcc, 0xdd, 0xee, 0xff] =
    [0x69, 0xc4, 0xe0, 0xd8, 0x6a, 0x7b, 0x04, 0x30, 0xd8, 0xcd, 0xb7, 0x80, 0x70, 0xb4, 0xc5, 0x5a] := by decide +kernel

/-- RFC 3394, section 4.1. -/
theorem test_keyWrap : keyWrap [0x00, 0x01, 0x02, 0x03, 0x04, 0x05, 0x06, 0x07, 0x08, 0x09, 0x0a, 0x0b, 0x0c, 0x0d, 0x0e, 0x0f]
    [0x00, 0x11, 0x22, 0x33, 0x44, 0x55, 0x66, 0x77, 0x88, 0x99, 0xaa, 0xbb, 0xcc, 0xdd, 0xee, 0xff] =
    [0x1f, 0xa6, 0x8b, 0x0a, 0x81, 0x12, 0xb4, 0x47, 0xae, 0xf3, 0x4b, 0xd8, 0xfb, 0x5a, 0x7b, 0x82, 0x9d, 0x3e, 0x86, 0x23, 0x71, 0xd2,
     0xcf, 0xe5] := by decide +kernel

/-- FIPS 180-4's example: the SHA-384 digest of "abc". -/
theorem test_sha384 : sha384 [0x61, 0x62, 0x63] =
    [0xcb, 0x00, 0x75, 0x3f, 0x45, 0xa3, 0x5e, 0x8b, 0xb5, 0xa0, 0x3d, 0x69, 0x9a, 0xc6, 0x50, 0x07, 0x27, 0x2c, 0x32, 0xab, 0x0e, 0xde, 0xd1, 0x63,
     0x1a, 0x8b, 0x60, 0x5a, 0x43, 0xff, 0x5b, 0xed, 0x80, 0x86, 0x07, 0x2b, 0xa1, 0xe7, 0xcc, 0x23, 0x58, 0xba, 0xec, 0xa1, 0x34, 0xc8, 0x25, 0xa7] := by decide +kernel

/-- Test case 14 of the GCM submission to NIST: AES-256, a key, an IV and a block of zeros. -/
theorem test_gcm : gcmCtr (List.replicate 32 0) (List.replicate 12 0) (List.replicate 16 0) =
    [0xce, 0xa7, 0x40, 0x3d, 0x4d, 0x60, 0x6b, 0x6e, 0x07, 0x4e, 0xc5, 0xd3, 0xba, 0xf3, 0x9d, 0x18] ∧
    gcmTag (List.replicate 32 0) (List.replicate 12 0) [] [0xce, 0xa7, 0x40, 0x3d, 0x4d, 0x60, 0x6b, 0x6e, 0x07, 0x4e, 0xc5, 0xd3, 0xba, 0xf3, 0x9d, 0x18] =
    [0xd0, 0xd1, 0xc8, 0xa7, 0x99, 0x99, 0x6b, 0xf0, 0x26, 0x5b, 0x98, 0xb5, 0xd4, 0x8a, 0xb9, 0x19] := by decide +kernel

/-! ### Values the manual works out -/

/-- R439's example: 120 W with L_auto at 200 W, P_mod 165 W, busy 480, 16 engines at divisor 8: limit 344, divisor 64. -/
theorem test_power_example : actuators (availOf 120 165000 480000 16 8) 16 = (344, 64) := by decide +kernel

/-- The bound of R43 over one link is 496 cc. -/
theorem test_bound : boundCc 0 = 400 ∧ boundCc 1 = 496 := by decide

/-! ### Concrete states for the statements' hypotheses -/

/-- A node in Service, its host linked, everything else as at reset. -/
def tD : Dev := { State.reset.dev with pwr.mode := .service, pwr.unfurl := .done, hst.up := true, hst.ready := true,
                                       map.limit := 4294967296, pst.nv.genLimit := 2 ^ 30, csh.d := 1000, csh.hw := 850, pst.auxMv := 3300, pst.holdUj := 2000 }

/-- The same node in Maintenance. -/
def tM : Dev := { tD with pwr.mode := .maintenance }

/-- A cell of member 1 to this node. -/
def tC : Cell := { src := 1, dst := 0, tag := 7, line := 5, ringB := false, ttl := 15, epoch := 0, seq := 3, hdrOk := true,
                   icvOk := true, poison := false, devload := 0, status := 1 }
/-- A Service node of a ring of two. -/
def tS : Dev := { tD with srn.ring := .intact, srn.index := 0, srn.indexed := true, srn.bypassA := false, srn.bypassB := false, csh.credW := 16, csh.credE := 16,
                          srn.members := [(0, { st := .live, pos := 0, serial := 0, variant := 0 }), (1, { st := .live, pos := 1, serial := 9, variant := 0 })] }
/-- A remote request of it. -/
def tRm (w : Option WrBody) : Remote := { tag := 7, hostTag := 3, addr := 2 ^ 43, wr := w, owner := 1, slice := 0, sent := true, usedA := 1 }

theorem wit_PostingBuffer : tD.evr.buf.length < 240 ∧
    (∃ d : Dev, 240 ≤ d.evr.buf.length) :=
  ⟨by decide, ⟨{ tD with evr.buf := List.replicate 240 ⟨0x1000, 0, 0, 0, 0, 0, false⟩ }, by rw [List.length_replicate]⟩⟩
theorem wit_RecordAccepted : ∃ (d : Dev) (p : Post), d.pwr.mode.firmware = true ∧ d.evr.buf = [p] ∧ p.sev < 2 ∧
    p.code / 4096 ∈ span 1 11 ∧ d.evr.frozen = false ∧ d.evr.compatEnNow = false ∧ d.evr.protFull = false ∧ p.code ≠ 0xA006 ∧
    (tget d.evr.log (d.evr.seqNext % 65536)).code = 0 :=
  ⟨{ tD with evr.buf := [⟨0x1040, 1, 0, 0, 0, 0, false⟩] }, ⟨0x1040, 1, 0, 0, 0, 0, false⟩, by decide⟩
theorem wit_IdleStepIsOneTick : tS.srn.west.q = [] ∧ tS.srn.east.used = [] ∧ tS.srn.east.back = [] ∧ tS.srn.rlCur = none ∧
    tS.srn.rlq = [] ∧ tS.srn.seqNext ≤ 2 ^ 63 ∧ tS.srn.seqs = [] ∧ tS.pwr.stopping = false ∧ tS.srn.west.used = [] ∧
    tS.srn.west.back = [] ∧ tS.srn.east.q = [] := by decide
theorem wit_RecorderWindows : tD.pwr.mode.firmware = true ∧ tD.evr.codes = [] ∧ tD.evr.frozen = false ∧
    (∃ d : Dev, d.evr.frozen = true ∧ d.evr.hold = []) := by
  refine ⟨?_, ?_, ?_, { tD with evr.frozen := true }, ?_⟩ <;> decide
theorem wit_RecorderCommands : tD.takes mAll .primary ∧ (∃ p, p.length = 5 ∧ byte p 4 = 127) ∧
    (tM.takes mUM .primary ∧ tM.pwr.mode ≠ .splice ∧ tM.evr.frozen = false ∧ byte [1] 0 = 1 ∧ byte [0] 0 = 0) ∧
    (∃ d : Dev, d.takes mUM .primary ∧ d.pwr.mode ≠ .splice ∧ d.evr.frozen = true) ∧
    (∃ p, p.length = 3 ∧ byte p 2 = 127) ∧ tM.takes mM .primary ∧
    (∃ p, p.length = 2 ∧ byte p 0 = 4 ∧ byte p 1 = 1) ∧ (∃ p, p.length = 2 ∧ byte p 0 = 4 ∧ byte p 1 = 0) ∧
    (∃ p, p.length = 2 ∧ byte p 0 = 23 ∧ byte p 1 = 1) := by
  refine ⟨?_, ⟨[0, 0, 0, 0, 127], ?_⟩, ?_, ⟨{ tM with evr.frozen := true }, ?_⟩, ⟨[0, 0, 127], ?_⟩, ?_, ⟨[4, 1], ?_⟩, ⟨[4, 0], ?_⟩,
    ⟨[23, 1], ?_⟩⟩ <;> decide

/-- The service node with one decoder over the whole space, one host credit. -/
def tH : Dev := { tD with hst.decs := [(0, { base := 0, size := 2 ^ 47, st := .committed })], csh.credHost := 1 }
/-- A read of frond 0 in a stage. -/
def tR (st : Stage) : Req := { id := 0, org := .host 3, frond := 0, line := 5, stage := st, cu := 1, snap := { st := .full, chk := BitVec.allOnes 64 } }
def tRd (r : Req) : Dev := { tD with rp.reqs := [r], rp.nextId := 1, med.rows := [(0, { kind := .host, keyid := 1 })], sec.slots := [(0, { tget tD.sec.slots 0 with st := .loaded, keyid := 1 })] }
theorem wit_HostRequestsEnter : let a := decWinBase tH 0 + (0 - 0)
    (tH.hst.up = true ∧ tH.pwr.dumping = false ∧ tH.pwr.stopping = false ∧ (tget tH.hst.ide 0).insecure = false ∧ tH.pwr.mode = .service ∧
    decFind tH 0 = some (0, { base := 0, size := 2 ^ 47, st := .committed }) ∧ addrIndex a = tH.srn.index ∧ addrFrond a < tH.map.limit ∧
    setFind (tget tH.map.cache (addrFrond a % 65536)) (addrFrond a / 65536) = none ∧ slotFind tH (addrFrond a) = none ∧
    lineHeld tH (addrFrond a) = false ∧ (mapGet tH (addrFrond a)).form ≠ .bad) ∧
    (decFind tD 0 = none ∧ tD.hst.refusedSec = 0) ∧
    (∃ d : Dev, refreshing { d with csh.rfWindow := 1 } (mapChan (mapLine (addrFrond a))).1 = false) ∧
    (∃ d : Dev, ∃ x : Dec, decFind d 0 = some (0, x) ∧ x.bi = true ∧ sfLook d (decWinBase d 0 + (0 - x.base)) = some (0, .a)) := by
  refine ⟨by decide, by decide, ⟨tH, by decide⟩, { tH with hst.decs := [(0, { base := 0, size := 2 ^ 47, bi := true, st := .committed })], hst.sf := [(0, { ways := [(0, some (0, .a))] })] },
    { base := 0, size := 2 ^ 47, bi := true, st := .committed }, ?_⟩
  decide
theorem wit_MapLineSequence : reqGet (tRd (tR .mapRead)) 0 = some (tR .mapRead) ∧ probeBehind (tRd (tR .mapRead)) (tR .mapRead) = false ∧
    formMask tD 0 = 0 ∧ (1#64 &&& entMask 0 ≠ 0) ∧ tget [(2, some (LineErr.refetch 1))] 2 = some (LineErr.refetch 1) ∧
    refreshing { tD with csh.rfWindow := 1 } (mapChan 0).1 = false ∧ recomputes tD < 4 := by decide +kernel
theorem wit_MapLineRecomputed : ∃ d : Dev, twf d.map.ent = true ∧ tget d.map.err 2 = some .recompute ∧
    ((tset d.map.err 2 none).find? fun x => decide (x.2 = some LineErr.waiting)) = none := ⟨{ tD with map.err := [(2, some .recompute)] }, by decide⟩
theorem wit_CushionReads : (reqGet (tRd (tR .cushion)) 0 = some (tR .cushion) ∧ (tR .cushion).cu = 1 ∧ (tR .cushion).snap.st = .full ∧
    (tR .cushion).snap.chk = lineChk (tR .cushion).snap.data) ∧
    (∃ r : Req, reqGet (tRd r) 0 = some r ∧ r.cu = 2 ∧ r.stage = .mirror ∧ r.cuBad &&& 1#64 = 0) := by
  refine ⟨?_, { tR .mirror with cu := 2, cuBad := 2 }, ?_⟩ <;> decide +kernel

/-- A read of sources in a stage. -/
def tRs (st : Stage) (src : BitVec 20) : Req := { tR st with src }
theorem wit_MediaReads :
    (reqGet (tRd (tRs .media 1)) 0 = some (tRs .media 1) ∧ (tRs .media 1).around = false ∧ (1#20 &&& (tRs .media 1).src) ≠ 0 ∧
      (busyMask (tRd (tRs .media 1)) (slotLane (tRs .media 1).entry.slot)).getLsbD (posOf (slotRow (tRs .media 1).entry.slot) (lineSect 5)) = false) ∧
    (reqGet (tRd (tRs .refetch 1)) 0 = some (tRs .refetch 1) ∧ (tRs .refetch 1).around = false ∧
      keyOk (tRd (tRs .refetch 1)) 0 (reqRow (tRd (tRs .refetch 1)) (tRs .refetch 1)) = true) ∧
    (reqGet (tRd (tRs .recompute 0xFFFFF)) 0 = some (tRs .recompute 0xFFFFF) ∧
      rsOk 0 (popBits (~~~ 0xFFFFF#20 ||| badData (tRs .recompute 0xFFFFF) 1) 20) = true) ∧
    (0xFFFFE#20 ||| deadMask tD (slotLane (tRs .recompute 0xFFFFE).entry.slot) ≠ BitVec.allOnes 20) ∧
    (reqGet (tRd (tRs .second 0xFFFFF)) 0 = some (tRs .second 0xFFFFF) ∧
      (tRs .second 0xFFFFF).busyAt &&& busyMask tD (slotLane (tRs .second 0xFFFFF).entry.slot) = 0) := by
  refine ⟨?_, ?_, ?_, ?_, ?_⟩ <;> decide +kernel
theorem wit_CreditsAndDram : ∃ d : Dev, creditOk (admitEval d) = true ∧ 0 < (admitEval d).csh.owedHost ∧ 0 < (admitEval d).csh.owedW ∧
    ((admitEval d).srn.owed.find? fun x => decide (x.1 % 2 = 0)) = some (2, 1) :=
  ⟨{ tD with csh.owedHost := 1, csh.owedW := 1, srn.owed := [(2, 1)] }, by decide⟩

theorem wit_CellAcceptance : (tS.pwr.mode.ringOn = true ∧ tS.isM = false ∧ tS.pwr.dumping = false ∧ tC.epoch = tS.srn.epoch ∧
    tC.plen ≠ 3 ∧ (tget tS.srn.seqs (tC.src * 4 + tC.epoch)).high < tC.seq ∧ tC.seq ∉ (tget tS.srn.seqs (tC.src * 4 + tC.epoch)).seen ∧
    tS.srn.authSec ≠ tS.time / 100000000 + 1) ∧
    (∃ d : Dev, d.pwr.mode.ringOn = true ∧ d.isM = false ∧ d.pwr.dumping = false ∧ tC.epoch = d.srn.epoch ∧
      tC.seq ∈ (tget d.srn.seqs (tC.src * 4 + tC.epoch)).seen) := by
  refine ⟨by decide, { tS with srn.seqs := [(4, { high := 3, seen := [3] })] }, ?_⟩
  decide
theorem wit_OwnerCells : ∃ e, acceptCell tC 0x01 true tS = (true, e) ∧ e.pwr.dumping = false ∧ e.pwr.stopping = false ∧
    isMember e = true ∧ e.pwr.mode = .service ∧ tC.line / 64 < e.map.limit ∧
    setFind (tget e.map.cache (tC.line / 64 % 65536)) (tC.line / 64 / 65536) = none ∧ slotFind e (tC.line / 64) = none ∧
    lineHeld e (tC.line / 64) = false ∧ (mapGet e (tC.line / 64)).form ≠ .bad ∧
    refreshing { e with csh.rfWindow := 1 } (mapChan (mapLine (tC.line / 64))).1 = false :=
  ⟨_, rfl, by decide⟩
theorem wit_OwnerCells_write : ∃ e, acceptCell tC 0x03 true tS = (true, e) ∧ isMember e = true ∧ e.pwr.mode = .service ∧
    (e.srn.applied.any fun x => x.1 = tC.src * 65536 + tC.tag) = false :=
  ⟨_, rfl, by decide⟩
theorem wit_OwnerCells_out : (∃ e, acceptCell tC 0x01 true { tS with pwr.mode := .recovery } = (true, e) ∧ isMember e = true ∧
      e.pwr.dumping = false ∧ e.pwr.stopping = false ∧ e.pwr.mode.serves = false) ∧
    (∃ e, acceptCell tC 0x03 true { tS with srn.applied := [(65543, 0)] } = (true, e) ∧
      (e.srn.applied.any fun x => x.1 = tC.src * 65536 + tC.tag) = true) ∧
    (∃ e, acceptCell tC 0x03 true { tS with pwr.dumping := true } = (true, e) ∧ e.pwr.dumping = true) :=
  ⟨⟨_, rfl, by decide⟩, ⟨_, rfl, by decide⟩, ⟨_, rfl, by decide⟩⟩
theorem wit_RequesterCells : (∃ e, acceptCell tC 0x02 true { tS with srn.remotes := [tRm none] } = (true, e) ∧
      remoteGet e tC.tag = some (tRm none) ∧ (tRm none).hostTag < 65536) ∧
    (∃ e, acceptCell tC 0x02 true tS = (true, e) ∧ remoteGet e tC.tag = none) ∧
    (∃ e, acceptCell tC 0x05 true tS = (true, e) ∧ tC.ringB = false) ∧
    (∃ e, acceptCell { tC with ringB := true } 0x05 true tS = (true, e)) ∧
    (∃ e, acceptCell tC 0x04 true { tS with srn.remotes := [tRm (some ⟨0, 0, false⟩)] } = (true, e) ∧
      remoteGet e tC.tag = some (tRm (some ⟨0, 0, false⟩)) ∧ tC.status % 256 = 1) ∧
    (∃ e, acceptCell { tC with line := 2 ^ 37 } 0x06 true { tS with srn.remotes := [tRm none] } = (true, e) ∧
      remoteGet e tC.tag = some (tRm none) ∧ (tRm none).owner = tC.src ∧
      lineNo (addrFrond (tRm none).addr) (addrLine (tRm none).addr) % 2 ^ 38 = 2 ^ 37) := by
  refine ⟨⟨_, rfl, rfl, by decide⟩, ⟨_, rfl, rfl⟩, ⟨_, rfl, rfl⟩, ⟨_, rfl⟩, ⟨_, rfl, rfl, by decide⟩, ⟨_, rfl, rfl, by decide⟩⟩
theorem wit_RequesterHolds : (tS.pwr.mode.ringOn = true ∧ tS.isM = false ∧ (if tC.ringB ≠ tC.fold then tS.srn.bypassB else tS.srn.bypassA) = false ∧
    1 < tC.ttl ∧ ({ tC with ttl := 1 } : Cell).ttl ≤ 1 ∧ cellTypeOk 1 = true ∧ tC.plen ≠ 3) ∧
    (∃ d : Dev, ∃ b, remoteGet d 7 = some (tRm none) ∧ (tRm none).attempts < (tRm none).limit ∧
      (tget d.srn.members 1).st = .live ∧ pathTo d 1 = some (b, 1)) ∧
    (∃ d : Dev, ∃ r, remoteGet d 7 = some r ∧ r.sent = true ∧ r.limit ≤ r.attempts) ∧
    (∃ d : Dev, ∃ r, remoteGet d 7 = some r ∧ r.holding = true ∧ r.wr = none) := by
  refine ⟨by decide, ⟨{ tS with srn.remotes := [tRm none] }, false, rfl, by decide⟩,
   ⟨{ tS with srn.remotes := [{ tRm none with attempts := 255 }] }, { tRm none with attempts := 255 }, rfl, rfl, by decide⟩,
   ⟨{ tS with srn.remotes := [{ tRm none with holding := true }] }, { tRm none with holding := true }, rfl, rfl, rfl⟩⟩

theorem wit_LinkEvents : (∃ d : Dev, (1 : Nat) = (if (portOf d .west).fecMs = msOf d.time + 1 then (portOf d .west).fec + 1 else 1) ∧
      (portOf d .west).fecMs ≠ 0 ∧ ((portOf d .west).fecMs - 1) / 1000 = msOf d.time / 1000 ∧ d.isM = false ∧ d.pwr.mode.ringOn = true) ∧
    (∃ d : Dev, d.isM = false ∧ d.pwr.mode.ringOn = true ∧ (portOf d .west).peer = some 1 ∧ d.srn.splice = none) ∧
    (tS.isM = false ∧ tS.pwr.mode.ringOn = true ∧ (portOf tS .west).en = true ∧ (portOf tS .west).st ≠ .up ∧
      (portOf tS .west).wrapped = false ∧ tS.srn.splice = none) ∧
    (∃ d : Dev, (portOf d .west).wrapped = true ∧ d.isM = false ∧ d.pwr.mode.ringOn = true ∧ (portOf d .west).en = true ∧
      (portOf d .west).peer = some 1 ∧ d.srn.splice = none) := by
  refine ⟨⟨{ tS with srn.west.fecMs := 2 }, ?_⟩, ⟨{ tS with srn.west.peer := some 1 }, ?_⟩, ?_, ⟨{ tS with srn.west.wrapped := true, srn.west.peer := some 1 }, ?_⟩⟩ <;> decide
theorem wit_TopologyFrames : (∃ e, acceptCell { tC with status := 0 } 0x18 true tS = (true, e) ∧ deadLink e 0 1 = false) ∧
    (∃ e, acceptCell tC 0x18 true tS = (true, e) ∧ tC.status = 1) ∧
    (∃ e, acceptCell { tC with status := 2 } 0x18 true tS = (true, e)) ∧
    (deadLink (lineSeen 1 tS) 0 1 = false ∧ (lineSeen 1 tS).pwr.mode.ringOn = true ∧ (lineSeen 1 tS).isM = false) ∧
    (∃ d : Dev, (lineSeen 2 d).pwr.mode.ringOn = true ∧ (lineSeen 2 d).isM = false ∧ deadLink (lineSeen 2 d) 0 1 = true) := by
  refine ⟨⟨_, rfl, ?_⟩, ⟨_, rfl, ?_⟩, ⟨_, rfl⟩, ?_, { tS with srn.dead := [(1, 0)] }, ?_⟩ <;> decide
theorem wit_GroupKey : (∃ e, acceptCell tC 0x15 false tS = (true, e) ∧ isMember e = true) ∧
    (∃ e, acceptCell tC 0x15 false { tS with srn.newKey := some (1, 5), srn.acks := [1] } = (true, e) ∧ e.srn.newKey = some (1, 5) ∧
      e.srn.acks.filter (· ≠ 1) = [] ∧ holderOf e = e.srn.index) ∧
    (∃ d : Dev, (lineSeen 0x30 d).srn.newKey = some (1, 5) ∧ (lineSeen 0x30 d).pwr.mode.ringOn = true ∧ (lineSeen 0x30 d).isM = false) ∧
    (blockOn 7 tS = true ∧ isMember tS = true ∧ holderOf tS = tS.srn.index) ∧
    (∃ d : Dev, blockOn 7 d = true ∧ isMember d = true ∧ holderOf d ≠ d.srn.index) := by
  refine ⟨⟨_, rfl, ?_⟩, ⟨_, rfl, ?_⟩, ⟨{ tS with srn.newKey := some (1, 5) }, ?_⟩, ?_, { tS with srn.index := 1 }, ?_⟩ <;> decide
theorem wit_ColdForm : (∃ d : Dev, d.isM = false ∧ d.pwr.mode = .recovery ∧ d.srn.ring = .alone ∧ d.srn.indexed = false ∧ d.srn.coldOpen = false) ∧
    (∃ d : Dev, d.isM = false ∧ d.srn.presenting = true ∧ d.srn.coldOpen = true) ∧
    (∃ d : Dev, ∃ ps, d.srn.coldOpen = true ∧ ps = sortBy (·.serial) (ownPresent d :: d.srn.presents.filter fun p => p.serial ≠ (ownPresent d).serial) ∧
      ringIdOf ps = some 4 ∧ (resolveClaims ps).find? (fun x => x.1 = (ownPresent d).serial) = some ((ownPresent d).serial, .index 1) ∧
      ps.length ≠ 1 ∧ d.srn.west.en = true ∧ d.srn.east.en = true) ∧
    (tS.isM = false ∧ (lineSeen 0x11 tS).pwr.mode.ringOn = true ∧ (lineSeen 0x11 tS).pwr.unfurl ≠ .listening ∧ 5 ≠ (lineSeen 0x11 tS).pst.nv.serial ∧
      (lineSeen 0x11 tS).srn.ring ≠ .forming ∧ (tget (lineSeen 0x11 tS).srn.members 3).st = .absent ∧ isMember tS = true) ∧
    (∃ d : Dev, d.isM = false ∧ (lineSeen 0x3F d).pwr.mode = .splice ∧ (lineSeen 0x3F d).pwr.unfurl ≠ .listening ∧
      (tget (lineSeen 0x3F d).srn.members 3).st = .absent) ∧
    (∃ d : Dev, d.srn.ring = .forming ∧
      ((sortBy (fun x => x.2.pos) (d.srn.members.filter fun x => x.2.st ≠ .heldOut)).map (·.1)).getLast? = some 1 ∧
      ((sortBy (fun x => x.2.pos) (d.srn.members.filter fun x => x.2.st ≠ .heldOut)).map (·.1))[1]? = some 1) ∧
    (∃ d : Dev, d.srn.indexRetry = true ∧ d.srn.indexed = true) := by
  refine ⟨⟨{ tD with pwr.mode := .recovery }, ?_⟩, ⟨{ tD with srn.presenting := true, srn.coldOpen := true }, ?_⟩,
   ⟨{ tD with srn.coldOpen := true, srn.presents := [{ serial := 9, ringId := 4, hasId := true, index := some 0, variant := 0, fresh := false }] }, _, ?_, rfl, ?_⟩,
   ?_, ⟨{ tD with pwr.mode := .splice }, ?_⟩, ⟨{ tS with srn.ring := .forming }, ?_⟩, { tS with srn.indexRetry := true }, ?_⟩ <;> decide
theorem wit_SpliceCommands : (isMember (lineSeen 0x20 tS) = true ∧ (tget (lineSeen 0x20 tS).srn.members 3).st ≠ .live) ∧
    (tS.isM = false ∧ (lineSeen 0x21 tS).pwr.unfurl ≠ .listening ∧ (lineSeen 0x21 tS).pwr.mode.ringOn = true) ∧
    (∃ d : Dev, ∃ sp, d.isM = false ∧ d.pwr.mode.ringOn = true ∧ d.srn.splice = some sp ∧ sp.step = 1 ∧ sp.index = d.srn.index ∧
      sp.leaving = false ∧ marksDone { sp with marks := 1 :: sp.marks } d = true ∧ marksDone { sp with marks := 2 :: sp.marks } d = false) ∧
    (∃ d : Dev, ∃ sp m, d.isM = false ∧ d.pwr.mode.ringOn = true ∧ tfind d.srn.members (fun _ m => m.serial = 9) = some (1, m) ∧
      d.srn.splice = some sp ∧ sp.step = 3) ∧
    (∃ e, acceptCell tC 0x14 true tS = (true, e) ∧ e.srn.splice = none) ∧
    (∃ d : Dev, (lineSeen 0x22 d).isM = false ∧ (lineSeen 0x22 d).pwr.mode.ringOn = true ∧ isMember (lineSeen 0x22 d) = false ∧
      d.isM = false ∧ d.pwr.mode = .splice ∧ d.srn.splice = none) := by
  refine ⟨?_, ?_, ⟨{ tS with srn.splice := some { index := 0 } }, { index := 0 }, ?_⟩,
   ⟨{ tS with srn.splice := some { index := 2, step := 3 } }, { index := 2, step := 3 }, { st := .live, pos := 1, serial := 9, variant := 0 }, ?_⟩,
   ⟨_, rfl, ?_⟩, { tD with pwr.mode := .splice }, ?_⟩ <;> decide
theorem wit_PortControl : (∃ d : Dev, blockOn 7 d = true ∧ d.isM = false ∧ (portOf d .west).st = .disabled ∧ d.srn.bypassA = false) ∧
    (∃ d : Dev, blockOn 7 d = true ∧ d.isM = false ∧ (portOf d .east).st = .up ∧ (portOf d (otherSide .east)).en = true) ∧
    (∃ d : Dev, (portOf d .west).st = .draining ∧ (portOf d .west).rejoin = false ∧ leaving d = false) ∧
    (∃ d : Dev, (portOf d .west).st = .pending ∧ (portOf d .west).rejoin = false ∧ (portOf d .west).en = true) := by
  refine ⟨⟨{ tS with srn.west.st := .disabled }, ?_⟩, ⟨{ tS with srn.east.st := .up }, ?_⟩, ⟨{ tS with srn.west.st := .draining }, ?_⟩,
    { tS with srn.west.st := .pending }, ?_⟩ <;> decide

/-- A set of lane 0 in its first wave, one operation of it. -/
def tL : Dev := { tD with
  med.sets := [{ lane := 0, nsb := 0, page := 0, kind := .host, rows := [], n := 0, wave := 0, destage := false }]
  med.ops := [{ lane := 0, pos := 0, reset := false, nsb := 0, startT := 0 }] }
/-- A reset of lane 0. -/
def tX : Dev := { tD with med.ops := [{ lane := 0, pos := 0, reset := true, nsb := 0, startT := 0 }] }
/-- A write of a row that waits for its turn. -/
def tU : Upd := { frond := 3, op := .setRow 8 false, cond := none, why := .host }
theorem wit_MapUpdateApplied : (∃ d : Dev, d.pwr.dumping = false ∧ twf d.map.ent = true ∧ updFront d = some 0 ∧ d.map.updq[0]? = some tU ∧
      tailRoom d = true ∧ condOk d tU = true ∧ tU.op = .setRow 8 false ∧ tU.why = .host) ∧
    (∃ d : Dev, d.pwr.dumping = true) ∧ (∃ d : Dev, ∃ l, d.map.lap = some l ∧ l.late = false) :=
  ⟨⟨{ tD with map.updq := [tU] }, by decide⟩, ⟨{ tD with pwr.dumping := true }, rfl⟩,
   ⟨{ tD with map.lap := some { area := 0, js := 0, startT := 0, ver0 := 0, bseq0 := 0, transit := false } }, _, rfl, rfl⟩⟩
theorem wit_MapUpdateApplied_full : ∃ d : Dev, updFront d = some 0 ∧ d.map.updq[0]? = some tU ∧ tailRoom d = false ∧ tU.waited = false :=
  ⟨{ tD with map.updq := [tU], map.tail := List.replicate 4194304 ⟨0, {}, 0⟩ },
   rfl, rfl, by unfold tailRoom; simp only [List.length_replicate]; decide, rfl⟩
/-- A node whose plan has slots for resets and the journal, an emptied sorus-block 0, an OPEN journal sorus-block 0 of lane 0. -/
def tO : Dev := { tM with
  stw.plan := { left := [(21, 1), (27, 1)], yield := 16 }
  med.offered := 127
  med.lanes := [(0, { st := .idle })]
  med.sb := [(0, { st := .resetting, resetPos := [0, 1, 2, 3, 4] })]
  med.metaOpen := [(kindCode .journal, 1)]
  med.limit := 512
  pst.nv.verLimit := 2 ^ 40
  stw.now.retire := 100000 }
/-- The same node at the turn of the resets. -/
def tOr : Dev := { tO with med.turn := 1 }
theorem wit_LaneOffers_turn : tOr.periodsOn = true ∧ (tget tOr.med.lanes 0).st = .idle ∧ laneNext tOr = some 0 ∧
    tOr.med.turn = groupOf (.reset 0) ∧ took tOr (offerTo 0 (.reset 0) {} tOr) = true := by decide +kernel
theorem wit_LaneOffers_journal : ∃ d : Dev, payer d [21] none 0 = some 21 ∧ 8192 ≤ d.map.tail.length ∧ verOk d = true ∧
    d.map.mediaJ.length + 8192 ≤ journalMax ∧ (∃ e, metaOpen .journal 0 d = (some 0, e)) :=
  ⟨{ tO with map.tail := List.replicate 8192 ⟨0, {}, 0⟩ }, rfl, by rw [List.length_replicate], by decide, by decide, ⟨_, rfl⟩⟩
/-- A Resetting lane with one reset of the sorus-block still to start. -/
def tOw : Dev := { tO with med.lanes := [(0, { st := .resetting })] }
theorem wit_LaneOffers_reset : tOw.periodsOn = true ∧ (tget tOw.med.lanes 0).st = .resetting ∧ readOnlyLane tOw 0 = false ∧
    payer tOw (if sporeCount tOw 0 < 2 then [23, 27] else [27]) none 0 = some 27 ∧ (tget tOw.med.sb 0).waited = false ∧
    tOw.med.ops.length < (resetStart 0 tOw).med.ops.length := by decide +kernel
theorem wit_LaneOffers_out : laneNext tO ≠ some 1 ∧ (tget tO.med.lanes 1).st ≠ .resetting := by decide +kernel
theorem wit_PatrolAndScrub_diag : ∃ d : Dev, ∃ row s, d.med.diagBusy = true ∧ diagRead d = (0, some (row, s)) ∧ row ≠ default ∧ row.kslot = 0 :=
  ⟨{ tD with med.diagBusy := true, med.rows := [(0, { kind := .host, frond := 9 })] }, { kind := .host, frond := 9 }, 0, by decide⟩
theorem wit_PatrolAndScrub_prot : ∃ d : Dev, ∃ row s, d.med.diagBusy = true ∧ diagRead d = (0, some (row, s)) ∧ row ≠ default ∧ s < 16 ∧
    1 ≤ row.kslot ∧ row.kind = .host :=
  ⟨{ tD with med.diagBusy := true, med.rows := [(0, { kind := .host, frond := 9, kslot := 1 })] }, { kind := .host, frond := 9, kslot := 1 }, 0, by decide⟩
theorem wit_LaneEnds_wave : (∃ st, tL.med.sets.find? (·.lane = 0) = some st ∧ st.wave < 4) ∧
    (tL.med.ops.filter fun o => o.lane = 0 && !o.reset) ≠ [] ∧
    (∃ d : Dev, ∃ st, d.med.sets.find? (·.lane = 0) = some st ∧ st.wave = 4 ∧ (d.med.ops.filter fun o => o.lane = 0 && !o.reset) ≠ []) :=
  ⟨⟨_, rfl, by decide⟩, by decide,
   ⟨{ tL with med.sets := [{ lane := 0, nsb := 0, page := 0, kind := .host, rows := [], n := 0, wave := 4, destage := false }] }, _, rfl, rfl, by decide⟩⟩
theorem wit_LaneEnds_ops : (∃ o, (tX.med.ops.find? fun o => o.lane = 0 && o.pos = 0 && o.reset) = some o ∧ opAt tX 0 0 = some o ∧ o.stalled = false ∧
      o.suspended = false ∧ o.resumeT = none ∧ awaited tX 0 0 = false ∧ o.reset = true) ∧
    (∃ d : Dev, ∃ o, opAt d 0 0 = some o ∧ o.suspended = true ∧ o.suspUs + 5 ≤ (if o.reset = true then d.med.rStallNow * 1000 else d.med.pStallNow)) ∧
    (tget tD.med.dies 3).failed = false ∧
    (∃ d : Dev, d.periodsOn = true ∧ (tget d.med.sb 5).st = .full ∧ 1 ∈ (tget d.med.sb 5).passLeft ∧
      ((tget d.med.sb 5).passLeft.filter (· ≠ 1)) ≠ [] ∧ passFirst d = []) :=
  ⟨⟨_, rfl, by decide⟩,
   ⟨{ tX with med.ops := [{ lane := 0, pos := 0, reset := true, nsb := 0, startT := 0, suspended := true }], med.rStallNow := 30 },
     _, rfl, by decide⟩, by decide, ⟨{ tD with med.sb := [(5, { st := .full, passLeft := [1, 2] })] }, by decide +kernel⟩⟩
theorem wit_CushionEnds : ∃ d : Dev, d.csh.genRetry = true := ⟨{ tD with csh.genRetry := true }, rfl⟩
theorem wit_CushionEnds_draining : ∃ d : Dev, (tget d.csh.dir 6).st = .draining ∧ (tget d.csh.dir 6).readers.isEmpty = true :=
  ⟨{ tD with csh.dir := [(6, { st := .draining })] }, by decide⟩
theorem wit_StewardPeriods : tD.periodsOn = true ∧
    (max (tget (measured 0 5 tD).med.pb (serving (measured 0 5 tD).med 0 0 5)).step (min 15 (20 / 16)) < 14 ∧
     max (tget (measured 0 5 tD).med.pb (serving (measured 0 5 tD).med 0 0 5)).step (min 15 (20 / 16)) < (measured 0 5 tD).stw.now.rewrite) ∧
    min 15 (20 / 16) ≤ min 15 (0 / 16) + 3 := by decide +kernel
theorem wit_PatrolAndScrub_row : ∃ d : Dev, d.periodsOn = true ∧ d.stw.lapOver = false ∧ d.stw.patrol ≠ .disabled ∧
    d.stw.patPos * 32768 + d.stw.patRow ≤ slotSb 0 * 32768 + slotIn 0 ∧ patrolAhead d (slotSb 0) (slotIn 0) = false ∧
    tget (tget d.med.sb (slotSb 0)).valid (slotIn 0) = true ∧
    patrolLeft { d with stw.patPos := slotSb 0, stw.patRow := slotIn 0 + 1 } ≠ 0 :=
  ⟨{ tD with med.sb := [(0, { valid := [(0, true), (1, true)] })], stw.patrol := .enabled }, by decide +kernel⟩
theorem wit_PatrolAndScrub : (∃ d : Dev, d.stw.patrol = .draining ∧ blockOn 4 d = true) ∧ (∃ d : Dev, d.stw.patrol = .pending) ∧
    (∃ d : Dev, blockOn 4 d = true ∧ d.stw.patrol = .enabled) ∧
    (tget tD.med.sb 5).kind = .host ∧ blockOn 3 tD = true ∧ tD.med.diagBusy = false :=
  ⟨⟨{ tD with stw.patrol := .draining }, by decide⟩, ⟨{ tD with stw.patrol := .pending }, rfl⟩, ⟨{ tD with stw.patrol := .enabled }, by decide⟩, by decide⟩

theorem wit_RangeCommands_open : ∃ p k id e, tD.takes mSM .primary ∧ p.length = 12 ∧ byte p 0 < 64 ∧ byte p 1 < 2 ∧ zeros p 2 2 = true ∧
    (tget tD.sec.ranges (byte p 0)).st = .closed ∧ le p 4 4 ≤ le p 8 4 ∧ le p 8 4 < tD.map.limit ∧
    (tD.sec.ranges.any fun x => x.2.st ≠ .closed && spansMeet (le p 4 4) (le p 8 4) x.2.base x.2.last) = false ∧ freeSlot tD = some k ∧
    rekeysRunning tD < 4 ∧ secRefused 2 tD = none ∧
    rekeyStart (byte p 0) k { base := le p 4 4, last := le p 8 4, engineRead := bit (byte p 1) 0 } (post 0x7001 0 (byte p 0) (le p 4 4) (le p 8 4) k tD) = (id, e) := by
  refine ⟨[63, 0, 0, 0, 1, 0, 0, 0, 9, 0, 0, 0], 1, _, _, ?_, ?_, ?_, ?_, ?_, ?_, ?_, ⟨?_, ?_, ?_, ?_, ?_, rfl⟩⟩ <;> decide
/-- A node whose range 5 is Open; LOCK as given. -/
def tOpn (lock : Bool) : Dev := { tD with sec.ranges := [(5, { st := .opn, base := 0, last := 9, cur := 2, lock })] }
theorem wit_RangeCommands : (tOpn false).takes mSM .primary ∧ (tget (tOpn false).sec.ranges 5).st = .opn ∧ (tget (tOpn false).sec.ranges 5).lock = false ∧
    freeSlot (tOpn false) = some 1 ∧ rekeysRunning (tOpn false) < 4 ∧ secRefused 2 (tOpn false) = none ∧
    (tget (tOpn true).sec.ranges 5).st ≠ .closed ∧ (tget (tOpn true).sec.ranges 5).lock = true ∧
    (tget (tOpn true).sec.ranges 5).engineRead ≠ bit (byte [5, 1] 1) 0 ∧ byte [5, 1] 1 < 4 := by decide
/-- A node whose range 5 is Rekeying under the slot given, with one frond of it on media. -/
def tWalk (cur : Nat) : Dev := { tD with sec.ranges := [(5, { st := .rekeying, base := 0, last := 9, cur })], map.ent := [(3, { v := true })] }
theorem wit_RekeyWalk : (∀ cur ∈ [0, 2], (tget (tWalk cur).sec.ranges 5).walks = true ∧ (tget (tWalk cur).sec.ranges 5).again = [] ∧
      ((tWalk cur).map.ent.find? fun (x : Nat × Entry) => x.2.v && decide ((tget (tWalk cur).sec.ranges 5).next ≤ x.1) &&
        decide (x.1 ≤ (tget (tWalk cur).sec.ranges 5).last) && decide (x.1 < (tWalk cur).map.limit)) = some (3, { v := true }) ∧
      (mapGet (tWalk cur) 3).v = true) ∧
    (tget (tWalk 2).med.rows (mapGet (tWalk 2) 3).slot).kslot ≠ (tget (tWalk 2).sec.ranges 5).cur ∧
    (tget (tWalk 0).med.rows (mapGet (tWalk 0) 3).slot).kslot = (tget (tWalk 0).sec.ranges 5).cur ∧
    (∃ r : Range, r.st = .rekeying ∧ r.former = [] ∧ r.last < r.boundary ∧ r.old = 0 ∧ rekeyReads tD r = false) ∧
    (∃ d : Dev, d.sec.zeroRetry = [(0, 3)]) :=
  ⟨by decide, by decide, by decide, ⟨{ st := .rekeying, base := 0, last := 9, boundary := 10 }, by decide⟩, { tD with sec.zeroRetry := [(0, 3)] }, rfl⟩
theorem wit_PoisonAndErase_inject : ∃ p k e, tD.takes mSM .primary ∧ p.length = 8 ∧ le p 0 8 % 64 = 0 ∧ addrIndex (le p 0 8) = tD.srn.index ∧ le p 0 8 < 2 ^ 48 ∧
    addrFrond (le p 0 8) < tD.map.limit ∧ addrFrond (le p 0 8) ∉ tD.sec.frozen ∧ admitState tD ≠ 4 ∧ rangeLocked tD (addrFrond (le p 0 8)) = false ∧
    slotGet (addrFrond (le p 0 8)) tD = (k, e) := by
  refine ⟨[64, 0, 0, 0, 0, 0, 0, 0], _, _, ?_, ?_, ?_, ?_, ?_, ?_, ?_, ⟨?_, ?_, rfl⟩⟩ <;> decide
theorem wit_PoisonAndErase : addrIndex (le [0, 0, 0, 0, 0, 16, 0, 0] 0 8) ≠ tD.srn.index ∧ tM.takes mM .primary ∧ secRefused 2 tM = none ∧
    reachable .primary tD = true ∧ tD.mbx.run = none ∧ tD.pwr.mode = .service := by decide
theorem wit_PoisonAndErase_clear : ∃ p : List Byte, p.length = 72 ∧ le p 0 8 % 64 = 0 ∧ addrIndex (le p 0 8) = tD.srn.index ∧
    (mapGet (writeLine 0 1 ⟨bytesLine (p.drop 8), BitVec.allOnes 64, false⟩ (le p 0 8) 6 255 tD) 0).p = false :=
  ⟨64 :: List.replicate 71 0, rfl, by decide, by decide, rfl⟩

theorem wit_HostWindows : (∃ e, e = decMod 0 (fun _ => ({ base := 0, size := 2 ^ 28, skip := 0, startT := tD.time } : Dec)) tD ∧
      (tget tD.hst.decs 0).st = .uncommitted ∧ decLocal e 0 0 (2 ^ 28) 0 false 0 = none ∧ winCheck e (decWin e 0) = (0, 31, 0) ∧ peers e = []) ∧
    (∃ e, e = decMod 0 (fun _ => ({ base := 1, size := 2 ^ 28, skip := 0, startT := tD.time } : Dec)) tD ∧ decLocal e 0 1 (2 ^ 28) 0 false 0 = some 2) ∧
    (∃ e, acceptCell tC 0x10 true tS = (true, e) ∧ sliceFits e ⟨0, 1, 1, 0, false⟩ = true ∧
      (e.hst.wins.filter fun x => winOverlap x.1 ⟨0, 1, 1, 0, false⟩ && !(x.1.port = 1 && x.1.dec = 0)) = []) ∧
    (∃ d e, ∃ x : Dec, acceptCell { tC with status := 0, tag := 0 } 0x11 true d = (true, e) ∧ x = tget e.hst.decs 0 ∧ x.st = .claiming ∧ x.waiting = [1] ∧
      x.reason = 0) ∧
    (∃ d : Dev, d.hst.up = true ∧ (tget d.hst.decs 0).st = .committed ∧ (tget d.hst.decs 0).release = false ∧ (tget d.hst.decs 0).bi = false ∧
      (tget d.hst.decs 0).lock = false) :=
  ⟨⟨_, rfl, by decide⟩, ⟨_, rfl, by decide⟩, ⟨_, rfl, by decide⟩,
   ⟨{ tS with hst.decs := [(0, { st := .claiming, waiting := [1] })] }, _, _, rfl, rfl, by decide⟩,
   { tD with hst.decs := [(0, { st := .committed, size := 2 ^ 28 })] }, by decide⟩
theorem wit_HostSnoops_query : ∃ e, acceptCell tC 0x0B true tS = (true, e) ∧
    (∀ l, l / 64 = tC.src * 2 ^ 32 + tC.line / 64 → (sfLook e (l * 64)).map (·.2) ≠ some .a) ∧
    snpBlocked e (tC.src * 2 ^ 32 + tC.line / 64) = false ∧ (∀ x ∈ e.hst.snpAsks, snpBlocked e x.2.2 = true) ∧ tC.src ≠ e.srn.index :=
  have h : ∀ e : Dev, e.hst.sf = [] → ∀ a, sfLook e a = none := by intro e he a; simp only [sfLook, he]; rfl
  ⟨_, rfl, fun l _ => by rw [h _ rfl]; decide, by decide⟩
/-- A node with one back-invalidate of line 4, sent or not. -/
def tBi (sent : Bool) : Dev := { tD with hst.bis := [{ line := 4, why := .victim, sent }] }
theorem wit_HostSnoops : (∃ e, acceptCell tC 0x0C true tS = (true, e)) ∧
    (∃ b : Bi, (tBi false).hst.up = true ∧ ((tBi false).hst.bis.findIdx? fun b => !b.sent) = some 0 ∧ (tBi false).hst.bis[0]? = some b) ∧
    (∃ b : Bi, ((tBi true).hst.bis.find? fun b => b.line = 4 && b.sent) = some b ∧ b.why = .victim ∧
      ((tBi true).hst.bis.findIdx? fun b => b.line = 4 && b.sent && !b.conflict) = some 0 ∧ (tBi true).hst.bis[0]? = some b) :=
  ⟨⟨_, rfl⟩, ⟨{ line := 4, why := .victim }, by decide⟩, { line := 4, why := .victim, sent := true }, by decide⟩
theorem wit_HostLink : (∃ d : Dev, d.hst.up = false ∧ d.hst.perst = false ∧ d.pwr.mode.firmware = true ∧ d.pwr.mode ≠ .halt ∧ d.pwr.unfurl = .done) ∧
    (tD.hst.up = true ∧ tD.rp.reqs = [] ∧ tD.hst.decs = [] ∧
      tD.hst.snpAsks = [] ∧ tD.srn.remotes = [] ∧ tD.mbx.run = none ∧ tD.hst.ready = true) :=
  ⟨⟨{ tD with hst.up := false, hst.perst := false }, by decide⟩, by decide⟩

/-- A Service node with a 256-bit key in cipher slot 2. -/
def tK : Dev := { tD with cph.slots := [(2, { st := .loaded, len := 2, engine := true, exportable := true, keyid := 9, key := List.replicate 32 1 })],
                          hst.ide := [(1, { keyed := true })] }
/-- A CPH_REQUEST payload: ECB of sixteen inline bytes under slot 2. -/
def tCp : List Byte := [2, 0, 0, 0, 0, 0, 0, 0, 16] ++ List.replicate 71 0
/-- Its request. -/
def tCr : CReq := { origin := .host .primary, qw := (List.range 8).map fun i => le tCp (8 * i) 8,
                    aad := (tCp.drop 64).take (bits (le tCp 8 8) 47 32), msg := tCp.drop (64 + bits (le tCp 8 8) 47 32) }
/-- A running CPH_REQUEST. -/
def tRun : Running := { tr := .primary, opcode := 0xC213, job := .cipher, startT := 0 }
/-- A CMAC verification under core 0 whose expected tag is wrong. -/
def tCv : CReq := { origin := .host .primary, qw := [2 + 5 * 32 + 512, 16, 0, 0, 0, 0, 0, 0], msg := List.replicate 16 0, core := some 0,
                    key := List.replicate 16 1 }
theorem wit_CipherKeys : tD.takes mSDTM .primary ∧ byte [23, 15] 0 < 24 ∧ byte [23, 15] 1 < 32 ∧ (tget tD.cph.slots 23).st = .empty ∧
    bit 15 4 = false ∧ (∃ id e, freshKeyid tD = (id, e)) ∧
    tK.takes mSDTM .primary ∧ importSafe .primary true tK = true ∧
    (∃ p : List Byte, 8 ≤ p.length ∧ byte p 0 = 23 ∧ byte p 1 = 2 ∧ byte p 2 = 0 ∧ byte p 3 < 32 ∧ zeros p 6 2 = true ∧
      le p 4 2 = keyLen (2 % 4) ∧ p.length = 8 + keyLen (2 % 4) ∧ (tget tK.cph.slots 23).st = .empty) ∧
    (tget tK.cph.slots 2).st = .loaded ∧ (tget tK.cph.slots 2).exportable = true ∧ (tget tK.cph.slots 2).len = 2 ∧
    (tget tK.cph.slots 2).persist = false ∧ tK.cph.queue = [] ∧ (2 : Nat) < 24 ∧
    (∃ d : Dev, d.takes mSDTM .primary ∧ (tget d.cph.slots 2).persist = false ∧ d.cph.queue = [{ tCr with core := some 0 }]
      ∧ ({ tCr with core := some 0 } : CReq).slot = 2) :=
  by
  refine ⟨?_, ?_, ?_, ?_, ?_, ⟨_, _, rfl⟩, ?_, ?_, ⟨[23, 2, 0, 0, 32, 0, 0, 0] ++ List.replicate 32 7, ?_⟩, ?_, ?_, ?_, ?_, ?_, ?_,
    ⟨{ tK with cph.queue := [{ tCr with core := some 0 }] }, ?_⟩⟩ <;> decide
theorem wit_CipherRequests : tK.takes mSDTM .primary ∧ 64 ≤ tCp.length ∧ tK.pwr.mode ≠ .transit ∧ preStatus tK tCr (tCp.length - 64) = 0 ∧
    tK.cph.coresOff.length < 8 ∧ 7 ∉ tK.cph.coresOff ∧ tCr.core = none ∧ bits (tCr.q 0) 11 10 = 0 ∧ bits (tCr.q 0) 13 12 = 0 ∧
    descOk { tCr with qw := tCr.qw.set 7 1 } (tCp.length - 64) = false ∧
    (cipherWork tCr.mode tCr.dec (List.replicate 32 1) tCr.iv tCr.aad tCr.msg tCr.tagF tCr.du).status = 0 ∧
    tRun.job = .cipher ∧ tK.cph.failSec ≠ tK.time / 100000000 + 1 ∧ bits (tCv.q 0) 13 12 = 0 :=
  by decide +kernel
/-- The same payload with a reserved bit of QW7 set. -/
def tCx : List Byte := tCp.set 60 1
theorem wit_CipherRequests_form : ∃ r : CReq, r = { origin := .host .primary, qw := (List.range 8).map (fun i => le tCx (8 * i) 8), aad := (tCx.drop 64).take (bits (le tCx 8 8) 47 32), msg := tCx.drop (64 + bits (le tCx 8 8) 47 32) } ∧
    descOk r (tCx.length - 64) = false := ⟨_, rfl, by decide⟩
theorem wit_CipherRequests_fail : (cipherWork tCv.mode tCv.dec tCv.key tCv.iv tCv.aad tCv.msg tCv.tagF tCv.du).status = 1 := by decide +kernel
/-- A descriptor: COPY of 64 bytes from the node's first line to scratch 0, result queue 0. -/
def tW : List Nat := [6, 5000, 0, 64, 0, 0, 0, 0, 0, 0, 0, 0, 0, 0, 0, 0]
/-- A Service node with it rung in task queue 0. -/
def tQ : Dev := { tS with ope.slots := [(0, 6), (1, 5000), (3, 64)], ope.tq := [(0, { tail := 1 })], ope.rq := [(0, { st := .enabled })] }
/-- A task of one chunk in table entry 0. -/
def tT : Task := { entry := 0, tq := 0, qw := tW, deadline := 5000, size := 64, chunks := 1 }
/-- A node that works on it. -/
def tE : Dev := { tQ with ope.tasks := [tT], ope.eng := [(0, { chunk := some (0, 0) })], ope.lateSec := 1 }
theorem wit_Tasks : blockOn 8 tD = true ∧ 0 < queues tD ∧ (1 + 32 - (tget tD.ope.tq 0).head) % 32 ≤ 16 ∧
    ((tget tD.ope.tq 0).tail + 32 - (tget tD.ope.tq 0).head) % 32 ≤ (1 + 32 - (tget tD.ope.tq 0).head) % 32 ∧
    16 < (17 + 32 - (tget tD.ope.tq 0).head) % 32 ∧
    (tQ.isM = false ∧ tQ.pwr.dumping = false ∧ tQ.pwr.stopping = false ∧ blockOn 8 tQ = true ∧ nextTq tQ = some 0) ∧
    (tget tD.ope.eng 3).st = .enabled ∧ 3 < tD.engines ∧ (tget tD.ope.eng 3).chunk = none ∧ tD.pwr.stopping = false ∧
    (sortBy (·.deadline) ([tT].filter fun t => decide (t.next < t.chunks))).head? = some tT ∧
    taskGet tE 0 = some tT ∧ (tget tE.ope.eng 0).chunk = some (0, 0) ∧
    (tget (tmod tE.ope.rq (rqOf tT.qw) (fun r => { r with waiting := r.waiting.map fun p => if p.entry = 0 then voidPacket p else p })) (rqOf tT.qw)).waiting = [] ∧
    msiOf tT.qw = false ∧ tE.ope.lateSec = (max tE.time tT.deadline) / 100000000 + 1 :=
  by refine ⟨?_, ?_, ?_, ?_, ?_, ?_, ?_, ⟨?_, ?_, ?_, ?_, ?_, ?_, ?_, ⟨?_, ?_⟩⟩⟩ <;> decide
theorem wit_Tasks_admit : ∃ e : Dev, ∃ lo size, e = { tQ with ope.tq := tmod tQ.ope.tq 0 (fun x => { x with head := ((tget tQ.ope.tq 0).head + 1) % 32 }), ope.rr := (0 + 1) % queues tQ } ∧
    ((List.range 16).map fun i => tget tQ.ope.slots ((0 * 16 + (tget tQ.ope.tq 0).head % 16) * 16 + i)) = tW ∧
    gatherSplit e tW = ([], []) ∧ fanOf tW = false ∧ admitReason {} e 0 tW [] (tW.getD 1 0) false = none ∧ tget (tget e.ope.tq 0).sets 0 = {} ∧ localShare e tW = (lo, size) :=
  ⟨_, _, _, rfl, by decide, by decide, by decide, by decide, by decide, Prod.mk.eta.symm⟩
theorem wit_Tasks_refuse : ∃ e : Dev, e.ope.refSec = e.time / 100000000 + 1 ∧ rqOf tW < queues e ∧ (tget e.ope.rq (rqOf tW)).st = .enabled ∧
    gatherSplit e (tW.set 0 0) = ([], []) ∧ (tget e.ope.rq (rqOf tW)).waiting = [] ∧ (tget e.ope.rq (rqOf tW)).words.length + 6 ≤ rqCap (tget e.ope.rq (rqOf tW)) ∧
    admitReason {} e 0 (tW.set 0 0) [] ((tW.set 0 0).getD 1 0) false = some 3 :=
  ⟨{ tQ with ope.refSec := 1 }, by decide⟩
theorem wit_Tasks_refuse_off : ∃ e : Dev, e.ope.refSec = e.time / 100000000 + 1 ∧ (tget e.ope.rq (rqOf tW)).st ≠ .enabled ∧
    admitReason {} e 0 tW [] (tW.getD 1 0) false = some 2 :=
  ⟨{ tQ with ope.refSec := 1, ope.rq := [] }, by decide⟩
/-- A node that works on a HASH of that line. -/
def tEg : Dev := { tE with ope.tasks := [{ tT with qw := tW.set 0 (7 + 1 * 2 ^ 38) }] }
theorem wit_Tasks_chunk : ∃ t : Machine.Task, ∃ g, ∃ e f : Dev, taskGet tEg 0 = some t ∧ (tget tEg.ope.eng 0).chunk = some (0, 0) ∧ stalled t tEg = false ∧
    tEg.ope.asking = [] ∧ opcodeOf t.qw ≠ 8 ∧ probesWait (chunkFronds tEg (chunkLines t 0)) tEg = (false, e) ∧
    engLines t [] (chunkLines t 0) 0 [] e = (none, g, f) ∧ (chunkWork f g t 0).copy = none := by
  refine ⟨{ tT with qw := tW.set 0 (7 + 1 * 2 ^ 38) }, _, _, _, ?_, ?_, ?_, ?_, ?_, rfl, rfl, rfl⟩ <;> decide
theorem wit_Tasks_fault : ∃ g, ∃ d e f : Dev, (tget d.ope.eng 0).chunk = some (0, 0) ∧ taskGet d 0 = some tT ∧
    stalled tT d = false ∧ opcodeOf tT.qw ≠ 8 ∧ probesWait (chunkFronds d (chunkLines tT 0)) d = (false, e) ∧
    engLines tT [] (chunkLines tT 0) 0 [] e = (some (0, 0, 3), g, f) :=
  ⟨_, { tE with map.limit := 0 }, _, _, by decide, by decide, by decide, by decide, rfl, rfl⟩
theorem wit_EnablesAndQueues : blockOn 8 tD = true ∧ 63 < queues tD ∧ 15 < tD.engines ∧ (tget tD.ope.tq 63).st = .enabled ∧ (tget tD.ope.rq 63).st = .disabled ∧
    (tget tQ.ope.rq 0).st = .enabled ∧ (5 : Nat) < rqMod (tget tD.ope.rq 0) ∧ rqMod (tget tD.ope.rq 0) ≤ 2 ^ 24 ∧
    (0 + rqMod (tget tD.ope.rq 0) - (tget tD.ope.rq 0).rd % rqMod (tget tD.ope.rq 0)) % rqMod (tget tD.ope.rq 0) ≤ (tget tD.ope.rq 0).words.length ∧
    (tget tD.ope.rq 0).words.length < (5 + rqMod (tget tD.ope.rq 0) - (tget tD.ope.rq 0).rd % rqMod (tget tD.ope.rq 0)) % rqMod (tget tD.ope.rq 0) ∧
    (∃ x : Rq, ∃ p : QPkt, x.waiting = [p] ∧ p.last = false ∧ x.words.length + p.words.length ≤ rqCap x) :=
  by
  refine ⟨?_, ?_, ?_, ?_, ?_, ?_, ?_, ⟨?_, ?_, ?_,
   { waiting := [{ entry := 0, last := false, words := [4, 5, 6, 7] }] }, { entry := 0, last := false, words := [4, 5, 6, 7] }, ?_⟩⟩ <;> decide
theorem wit_EnablesAndQueues_last : ∃ d : Dev, ∃ p : QPkt, (tget d.ope.rq 0).waiting = [p] ∧ p.last = true ∧
    (tget d.ope.rq 0).words.length + p.words.length ≤ rqCap (tget d.ope.rq 0) ∧ taskGet d p.entry = some tT ∧ d.time < tT.deadline :=
  ⟨{ tE with ope.rq := [(0, { waiting := [{ entry := 0, last := true, words := [4, 5, 6] }] })] }, { entry := 0, last := true, words := [4, 5, 6] }, by decide⟩
theorem wit_SubTasks : ∃ e, acceptCell tC 0x08 true tQ = (true, e) ∧ e.pwr.dumping = false ∧ e.pwr.stopping = false ∧ isMember e = true ∧
    subTask e tC.src tC.tag = none ∧ tW.length = 16 ∧
    admitReason e.ope.set { e with ope.cnt := bump e.ope.cnt 8 } 0 tW [] (e.time + tW.getD 1 0 - e.ope.set.margin) true = none ∧
    admitReason e.ope.set { e with ope.cnt := bump e.ope.cnt 8 } 0 (tW.set 0 0) [] (e.time + tW.getD 1 0 - e.ope.set.margin) true = some 3 :=
  ⟨_, rfl, by decide⟩
/-- A node that runs the sub-task 7 of member 1, a result cell waiting. -/
def tSub : Dev := { tQ with ope.tasks := [{ tT with sub := some (1, 7), outq := [[1, 2, 3]], credits := 0 }] }
theorem wit_SubTasks_credit : ∃ e g : Dev, ∃ k, acceptCell tC 0x08 true tSub = (true, e) ∧
    subTask e tC.src tC.tag = some { tT with sub := some (1, 7), outq := [[1, 2, 3]], credits := 0 } ∧
    cellsFlush tT.entry (taskMod tT.entry (fun t => { t with credits := t.credits + 8 }) e) = (k, g) ∧ k ≠ 0 :=
  ⟨_, _, _, rfl, by decide, rfl, by decide⟩
/-- A node whose task has sub-task 7 at member 1. -/
def tReq : Dev := { tQ with ope.tasks := [{ tT with subs := [{ owner := 1, tag := 7 }] }] }
theorem wit_SubTasks_result : ∃ e : Dev, acceptCell tC 0x09 true tReq = (true, e) ∧
    subOf e tC.src tC.tag = some ({ tT with subs := [{ owner := 1, tag := 7 }] }, { owner := 1, tag := 7 }) ∧
    (([0, 0, 5] : List Nat).drop 2).take (min 30 tC.status) ≠ [] := ⟨_, rfl, by decide⟩
theorem wit_SubTasks_end : ∃ e : Dev, acceptCell { tC with status := 0 } 0x0A true tReq = (true, e) ∧
    subOf e 1 7 = some ({ tT with subs := [{ owner := 1, tag := 7 }] }, { owner := 1, tag := 7 }) ∧ ({ tC with status := 0 } : Cell).status % 16 = 0 :=
  ⟨_, rfl, by decide⟩

theorem wit_CounterClears : ∀ b ∈ [1, 2, 3, 4, 5, 6, 7, 8, 9, 10, 12, 14], blockOn b tD = true := by decide
theorem wit_RegisterWrites : (7 : Nat) < 8 ∧ (72 : Nat) ≤ budDesign 7 ∧ budDesign 7 < 73 ∧ (2047 : Nat) / 256 < queues tD ∧
    (2 ^ 20 : Nat) ≤ 0x1001A4 ∧ 0x1001A4 % 8 ≠ 0 ∧ lineHeld tD 5 = false ∧ formMask tD (mapLine 5) = 0 := by decide +kernel
theorem wit_RegisterWrites_off : blockOn (0x200030 / 2 ^ 20) State.reset.dev = blockOn 2 State.reset.dev ∧
    blockOn (0x800000 / 2 ^ 20) { tD with variant := .M } = false ∧ 0x800000 % 8 = 0 := by decide
/-- A PST_READ payload: partition 12, one row, no password. -/
def tPr : List Byte := [12, 0, 0, 0, 32] ++ List.replicate 35 0
/-- A PST_WRITE payload of two rows. -/
def tPw : List Byte := [12, 0, 0, 0, 64] ++ List.replicate 99 0
/-- A PST_SET_PASSWORD payload: the write password. -/
def tPs : List Byte := [15, 1, 0, 32] ++ List.replicate 68 0
theorem wit_ParameterStore : tD.takes mNotH .primary ∧ tPr.length = 40 ∧ byte tPr 1 = 0 ∧ byte tPr 7 = 0 ∧ byte tPr 6 ≤ 32 ∧ 1 ≤ le tPr 4 2 ∧
    le tPr 4 2 ≤ 4032 ∧ hostSpan (byte tPr 0) (le tPr 2 2) (le tPr 4 2) = true ∧ pwOk tD (byte tPr 0) 0 ((tPr.drop 8).take (byte tPr 6)) = true ∧
    (∃ bs lost e, rowsRead (byte tPr 0) (le tPr 2 2) (le tPr 4 2) tD = (bs, lost, e)) ∧
    pwOk { tD with pst.rpw := [(12, some 5)] } (byte tPr 0) 0 ((tPr.drop 8).take (byte tPr 6)) = false ∧
    (tD.takes mSDTM .primary ∧ tPw.length = 40 + 32 * 2 ∧ le tPw 4 2 = 32 * 2 ∧ le tPw 2 2 % 32 = 0 ∧
      hostSpan (byte tPw 0) (le tPw 2 2) (le tPw 4 2) = true ∧ pwOk tD (byte tPw 0) 1 ((tPw.drop 8).take (byte tPw 6)) = true ∧
      byte tPw 0 ∉ tD.pst.worn ∧ tD.pst.writing = false ∧ supplyOk { tD with pst.holdUj := 2000 } = true) ∧
    (tD.takes mSM .primary ∧ tPs.length = 72 ∧ 12 ≤ byte tPs 0 ∧ byte tPs 0 ≤ 15 ∧ byte tPs 1 = 1 ∧ byte tPs 2 ≤ 32 ∧ 8 ≤ byte tPs 3 ∧
      byte tPs 3 ≤ 32 ∧ zeros tPs 4 4 = true ∧ pwOk tD (byte tPs 0) 1 ((tPs.drop 8).take (byte tPs 2)) = true) ∧ tD.takes mAll .primary :=
  by refine ⟨?_, ?_, ?_, ?_, ?_, ?_, ?_, ⟨?_, ?_, ⟨_, _, _, Prod.mk.eta.symm⟩, ?_, ?_, ?_, ?_⟩⟩ <;> decide
theorem wit_ParameterStore_rows : (∃ d : Dev, ∃ r : Running, d.pst.writing = true ∧ d.pst.hostRow = true ∧ d.mbx.run = some r ∧
      r.job = .pstWrite 12 1 (r.done + 1) (List.replicate 32 5) ∧ r.opcode = 0xC601) ∧
    (∃ d : Dev, d.pst.writing = true ∧ d.pst.hostRow = false ∧ d.pst.fwq = [.life 1, .life 2] ∧
      pstBusy (fwWrite (.life 1) { d with pst.fwq := [.life 2], pst.writing := false }) = false) :=
  ⟨⟨{ tD with pst.writing := true, pst.hostRow := true,
              mbx.run := some { tr := .primary, opcode := 0xC601, job := .pstWrite 12 1 2 (List.replicate 32 5), startT := 0, done := 1 } },
    { tr := .primary, opcode := 0xC601, job := .pstWrite 12 1 2 (List.replicate 32 5), startT := 0, done := 1 }, by decide⟩,
   { tD with pst.writing := true, pst.hostRow := false, pst.fwq := [.life 1, .life 2] }, by decide⟩
/-- A Transfer FW payload: the first part of slot 2. -/
def tFw : List Byte := [1, 2] ++ List.replicate 126 0
theorem wit_BootFlash : tD.takes mSDTM .primary ∧ tM.takes mM .primary ∧ 128 ≤ tFw.length ∧ tFw.length ≤ 4096 ∧ byte tFw 0 = 1 ∧ byte tFw 1 = 2 ∧
    tD.bfl.running ≠ 2 ∧ tD.bfl.wp = false ∧ le tFw 4 4 = 0 ∧ zeros tFw 2 2 = true ∧ zeros tFw 8 120 = true ∧ tD.mbx.fwNext = none ∧
    secRefused 0 tD = none ∧ slotSt { tD with bfl.state1 := 1 } 1 = 1 ∧ tD.pst.nv.minSec ≤ slotSec tD 1 ∧ tD.on = true ∧ tD.bfl.erasing = none ∧ tD.bfl.page = [] ∧
    tD.bfl.programming = false ∧ tD.mbx.run = none ∧ tD.takes mNotH .primary ∧
    1 ≤ le [0, 0, 0, 1, 16, 0] 4 2 ∧ le [0, 0, 0, 1, 16, 0] 4 2 ≤ 4064 ∧ le [0, 0, 240, 0, 16, 0] 0 4 + le [0, 0, 240, 0, 16, 0] 4 2 ≤ 0x1000000 ∧
    tM.pst.nv.minSec ≤ le [0, 0, 0, 0] 0 4 ∧ le [0, 0, 0, 0] 0 4 ≤ slotSec tM tM.bfl.running ∧ tD.takes mSM .primary :=
  by decide +kernel
theorem wit_BootFlash_ops : (∃ d : Dev, d.bfl.erasing = some 900 ∧ d.bfl.wp = false) ∧ (∃ d : Dev, d.bfl.programming = true) ∧
    (∃ d : Dev, flashCanStart d = true) ∧ (∃ d : Dev, d.bfl.eraseQ = [900] ∧ d.bfl.wp = false ∧ d.bfl.erasing = none ∧ FwWrite.marker (some 900) ∉ d.pst.fwq) ∧
    (∃ d : Dev, ∃ r : Running, d.mbx.run = some r ∧ r.job = .fwPart 2 0 false [] true true true) :=
  ⟨⟨{ tD with bfl.erasing := some 900 }, by decide⟩, ⟨{ tD with bfl.programming := true }, rfl⟩,
   ⟨{ tD with evr.flashQ := [default] }, by decide⟩, ⟨{ tD with bfl.eraseQ := [900] }, by decide⟩,
   { tD with mbx.run := some { tr := .primary, opcode := 0x0201, job := .fwPart 2 0 false [] true true true, startT := 0 } }, _, rfl, rfl⟩

/-- A GET_LOG payload for the first eight bytes of the Command Effects Log. -/
def tGl : List Byte := celUuid ++ toLe 4 0 ++ toLe 4 8
theorem wit_StandardQueries : (tD.takes mAll .primary ∧ tGl.length = 24 ∧ tGl.take 16 = celUuid ∧ le tGl 16 4 + le tGl 20 4 ≤ (cel tD).length) ∧
    (tD.takes mAll .vdm ∧ byte [3] 0 < 4) ∧
    (∃ (p : List Byte) (d : Dev), p.length = 16 ∧ le p 0 8 % 64 = 0 ∧ spanOk d (le p 0 8) (le p 8 8) = true ∧ d.takes mSDTM .primary ∧
      d.pwr.mode = .transit ∧ d.sec.transitCopy = some ([], true) ∧ d.mbx.poisonNext = some (le p 0 8, le p 8 8, 5)) ∧
    (tD.takes mSDTM .primary ∧ ∀ k, tD.mbx.poisonNext ≠ some (256, 4, k)) := by
  refine ⟨⟨?_, ?_, ?_, ?_⟩, ⟨?_, ?_⟩, ⟨[0, 1, 0, 0, 0, 0, 0, 0, 4, 0, 0, 0, 0, 0, 0, 0],
    { tD with pwr.mode := .transit, sec.transitCopy := some ([], true), mbx.poisonNext := some (256, 4, 5) }, ?_⟩, ?_, ?_⟩
  case refine_2 => rfl
  case refine_3 => rfl
  case refine_9 => intro k h; cases h
  all_goals decide +kernel
theorem wit_StandardSettings : tD.takes mAll .primary ∧ byte [1, 31, 90, 0, 0, 0, 0, 0, 0, 0, 0, 0] 0 < 32 ∧ byte [1, 31, 90, 0] 1 < 32 ∧ byte [1, 31, 100, 0] 2 ≤ 100 ∧
    byte [2, 1, 0, 0, 0, 0] 0 = 2 ∧ zeros [2, 1, 0, 0, 0, 0] 3 3 = true ∧ byte [2, 0, 1, 0, 0, 0, 9, 0] 2 = 1 ∧ tD.mbx.failLog = [] ∧ byte [2, 2, 2, 2] 3 < 3 ∧
    tM.takes mM .primary ∧ spanOk tM (le (List.replicate 17 0) 0 8) (le (List.replicate 17 0) 8 8) = true ∧ byte (List.replicate 17 0) 16 < 2 ∧
    (∃ d : Dev, d.takes mSDTM .primary ∧ d.mbx.scanRes = some (0, 8, [(0, 1)]) ∧ (poisonIn [(0, 1)] (0 * 64) (8 - 0)).length ≤ 254) := by
  refine ⟨?_, ?_, ?_, ?_, ?_, ?_, ?_, ⟨?_, ?_, ?_, ?_, ?_, { tD with mbx.scanRes := some (0, 8, [(0, 1)]) }, ?_⟩⟩ <;> decide
/-- A MEM_READ payload of one line at the node's own address 0. -/
def tMr : List Byte := [0, 0, 0, 0, 0, 0, 0, 0, 64, 0]
/-- A range over frond 0, open. -/
def tRg : Dev := { tD with sec.ranges := [(3, { (default : Range) with st := .opn })] }
theorem wit_NodeQueries : (tD.takes mNotH .primary ∧ tD.isM = false ∧ tD.variant = .A ∧ tD.takes mSDTM .primary ∧ byte [1] 0 < 2) ∧
    ({ tD with srn.indexed := true, bfl.running := 2 } : Dev).takes mAll .primary ∧
    (tD.takes mSM .primary ∧ le tMr 0 8 % 64 = 0 ∧ le tMr 8 2 % 64 = 0 ∧ 64 ≤ le tMr 8 2 ∧ le tMr 8 2 ≤ 4032 ∧ le tMr 0 8 < 2 ^ 48 ∧
      addrIndex (le tMr 0 8) = tD.srn.index ∧ le tMr 0 8 % 2 ^ 44 / 64 + le tMr 8 2 / 64 ≤ tD.map.limit * 64) ∧
    (memTake 0 1 [] tD).1 = some (0, lineBytes 0) ∧ rangeOf tD (0 / 64) = none ∧ (backRead 6 0 0 [] tD).1 = (0, false) ∧
    (∃ d : Dev, (memTake 0 1 [] d).1 = none) ∧ (∃ d : Dev, rangeOf d 0 = none ∧ (backRead 6 0 0 [] d).1.2 = true) ∧
    (∃ (d : Dev) (n : Nat) (r : Range), rangeOf d 0 = some (n, r)) ∧ tD.on = true ∧ addrFrond 0 < tD.map.limit ∧
    (dmaLine 1 [] 0 tD).1 = 0 ∧ (∃ d : Dev, d.on = true ∧ (dmaLine 1 [] 0 d).1 = rcPoisoned) := by
  refine ⟨?_, ?_, ?_, ?_, ?_, ?_, ⟨{ tD with map.err := [(0, some .recompute)] }, ?_⟩,
    ⟨{ tD with map.ent := [(0, { v := false, z := false, p := true })] }, ?_⟩, ⟨tRg, 3, { (default : Range) with st := .opn }, ?_⟩, ?_, ?_, ?_,
    ⟨{ tD with map.ent := [(0, { v := false, z := false, p := true })] }, ?_⟩⟩ <;> decide +kernel
theorem wit_NodeCommands : tM.takes mUM .primary ∧ tM.isM = false ∧ byte [15] 0 < 16 ∧ secRefused 6 tM = none ∧ mapFresh tM = true ∧
    (tget ({ tM with srn.ring := .heldOut } : Dev).srn.members 15).st = .absent ∧ isMember tM = false ∧
    tS.takes mSDTM .primary ∧ isMember tS = true ∧ tS.srn.ring ≠ .parted ∧ tS.takes mSTM .primary ∧
    (peers (frame 0x03 [tS.srn.index] { tS with srn.members := tmod tS.srn.members tS.srn.index fun m => { m with st := .leaving } })).isEmpty = false ∧
    (∃ d : Dev, d.takes mSTM .primary ∧ isMember d = true ∧
      (peers (frame 0x03 [d.srn.index] { d with srn.members := tmod d.srn.members d.srn.index fun m => { m with st := .leaving } })).isEmpty = true) ∧
    (∃ d : Dev, d.takes mSTM .primary ∧ isMember d = false ∧ d.srn.west.st = .draining) ∧
    (tD.takes mSTM .primary ∧ isMember tD = false ∧ tD.srn.west.st = .down ∧ tD.srn.east.st = .down) ∧
    (tD.takes mSM .primary ∧ le [0, 0, 0, 255, 1, 0, 0, 0, 16, 0, 0, 0] 0 8 % 2 ^ 20 = 0 ∧ 1 ≤ le [0, 0, 0, 255, 1, 0, 0, 0, 16, 0, 0, 0] 8 4 ∧
      le [0, 0, 0, 255, 1, 0, 0, 0, 16, 0, 0, 0] 0 8 / 2 ^ 20 + le [0, 0, 0, 255, 1, 0, 0, 0, 16, 0, 0, 0] 8 4 ≤ 8192 ∧ tD.ope.rq = []) ∧
    (le [0, 16, 0, 0, 0, 0, 0, 0, 1, 0, 0, 0, 0, 0, 0, 0] 0 8 % 4096 = 0 ∧ le [0, 16, 0, 0, 0, 0, 0, 0, 1, 0, 0, 0, 0, 0, 0, 0] 8 8 ≠ 0 ∧
      le [0, 16, 0, 0, 0, 0, 0, 0, 1, 0, 0, 0, 0, 0, 0, 0] 0 8 / 4096 + le [0, 16, 0, 0, 0, 0, 0, 0, 1, 0, 0, 0, 0, 0, 0, 0] 8 8 ≤ tD.map.limit) ∧
    (8192 ≤ le [0, 32, 0, 0] 0 4 ∧ le [0, 32, 0, 0] 0 4 < tD.map.limit / 262144 ∧ windowAbove tD (le [0, 32, 0, 0] 0 4 * 262144) = false) ∧
    tD.stw.free ≠ .exhausted ∧ secRefused 7 tD = none ∧ (4294967295 : Nat) < 2 ^ 32 := by
  refine ⟨?_, ?_, ?_, ?_, ?_, ?_, ?_, ⟨?_, ?_, ?_, ?_, ?_, ⟨{ tS with srn.members := [(0, { st := .live, pos := 0, serial := 0, variant := 0 })] }, ?_⟩,
    ⟨{ tD with srn.west.st := .draining }, ?_⟩, ?_⟩⟩ <;> decide +kernel

/-- The node in Halt. -/
def tHalt : Dev := { tD with pwr.mode := .halt, pwr.rearmed := true }
/-- A node in Held with every supply in range. -/
def tHeld : Dev := { State.reset.dev with pst.auxMv := 3300, pst.holdUj := 2000, pwr.mode := .held, pwr.v12 := 12000, pwr.v12Low := false }
/-- A node in Unfurl that listens. -/
def tListen : Dev := { tHeld with pwr.mode := .unfurl, pwr.unfurl := .listening }
/-- The same node in Splice. -/
def tSplice : Dev := { tListen with pwr.mode := .splice }
/-- A running command. -/
def tRunning (opcode : Nat) (j : Job) : Running := { tr := .primary, opcode, job := j, startT := 0, unit := 0, total := 8 }
theorem wit_DevLoadOfResponses : (∃ e, acceptCell tC 0x02 true { tS with srn.remotes := [tRm none] } = (true, e) ∧
      remoteGet e tC.tag = some (tRm none) ∧ (tRm none).wr = none ∧ (tRm none).hostTag < 65536) ∧
    (∃ e, acceptCell tC 0x04 true { tS with srn.remotes := [tRm (some ⟨0, 0, false⟩)] } = (true, e) ∧
      remoteGet e tC.tag = some (tRm (some ⟨0, 0, false⟩)) ∧ (tRm (some ⟨0, 0, false⟩)).wr.isSome = true) :=
  ⟨⟨_, rfl, rfl, rfl, by decide⟩, ⟨_, rfl, rfl, rfl⟩⟩
theorem wit_SuppliesAndClocks : tD.pwr.mode ≠ .off ∧ tD.pwr.mode ≠ .held ∧ (5 : Nat) < 6 ∧ (tget tD.pwr.rails 5).failed = false ∧
    (3750 : Nat) ≤ 1250 * railRated 5 ∧ 1250 * railRated 5 < 3751 ∧ (10800 : Nat) ≤ 10800 ∧ (11399 : Nat) < 11400 ∧ tD.pwr.dumping = false ∧
    ({ tD with pwr.mgmtReset := true } : Dev).pwr.mgmtReset = true ∧ tD.pwr.mgmtReset = false ∧ tD.pwr.mode.firmware = true ∧
    tD.pwr.backup = false := by
  refine ⟨?_, ?_, ?_, ?_, ?_, ?_, ?_, ⟨?_, ?_, ?_, ?_, ?_, ?_⟩⟩ <;> decide
theorem wit_ThermalAndPower : (∃ e : Dev, e = { tD with
      time := alignUp 100000 tD.time
      pwr.rails := tmap tD.pwr.rails fun _ r => if r.n = 0 then r else { r with mw := r.sum / r.n, sum := 0, n := 0 } } ∧
      trippedPoint { e with pwr.points := e.pwr.points.zipIdx.map fun (x : ThPoint × Nat) => pointStep e x.2 x.1 } = none) ∧
    (∃ d e : Dev, e = { d with
      time := alignUp 100000 d.time
      pwr.rails := tmap d.pwr.rails fun _ r => if r.n = 0 then r else { r with mw := r.sum / r.n, sum := 0, n := 0 } } ∧
      d.pwr.mode = .service ∧
      trippedPoint { e with pwr.points := e.pwr.points.zipIdx.map fun (x : ThPoint × Nat) => pointStep e x.2 x.1 } = some 3) ∧
    tD.pwr.mode ≠ .off ∧ tD.pwr.mode.firmware = true ∧ tD.pwr.dumping = false ∧ tD.pwr.mode ≠ .capped ∧ 60 ≤ tD.pwr.lAuto ∧ tD.pwr.lAuto ≤ 200 ∧
    tD.pwr.mgmtReset = false ∧ tD.takes mAll .primary ∧ thermalOk [0xF6, 7] = true ∧ tD.takes mSM .primary ∧ 60 ≤ le [60, 0] 0 2 ∧ le [200, 0] 0 2 ≤ 200 ∧
    tD.on = true ∧ reachable .i3c tD = true ∧ (127 : Nat) < 128 ∧
    (∀ ms < 2, ∃ (d : Dev) (p : ThPoint), d.pwr.stopping = false ∧ d.pwr.dumping = false ∧ d.pwr.mode ≠ .transit ∧ d.pwr.points[0]? = some p ∧
      nodeHeadroom d = some (199 + ms)) := by
  refine ⟨⟨_, rfl, by decide +kernel⟩, ⟨{ tD with pwr.points := tD.pwr.points.map fun p => { p with t := 71000000000 } }, _, rfl,
    by decide, by decide +kernel⟩, ?_, ?_, ?_, ?_, ?_, ?_, ?_, ⟨?_, ?_, ?_, ?_, ?_, ?_, ?_, ⟨?_, ?_⟩⟩⟩
  case refine_16 => intro ms _; exact ⟨{ tD with pwr.points := [{ t := 0, th := 95, thNow := 95, headroom := some (199 + ms) }] }, _, rfl, rfl, (fun h => by cases h), rfl, rfl⟩
  all_goals decide
theorem wit_ModelBelowRearm : tHalt.pwr.mode = .halt ∧ tHalt.takes mH .i3c ∧ tHalt.pwr.rearmed = true ∧
    ({ tHalt with pwr.rearmed := false } : Dev).takes mH .i3c ∧ (∃ d : Dev, (tget d.pwr.rails 2).failed = true) :=
  ⟨by decide, by decide, by decide, by decide, ⟨{ tD with pwr.rails := [(2, { failed := true })] }, by decide⟩⟩
theorem wit_EnergyStore : tD.pwr.testing = 0 ∧ tD.pwr.mode = .service ∧ tD.pwr.dumping = false ∧
    16000 ≤ ({ tD with pwr.vbank := 16000 } : Dev).pwr.vbank ∧ tHalt.pwr.testing = 0 ∧ tHalt.pwr.mode = .halt ∧
    ({ tD with pwr.testing := 1 } : Dev).pwr.testing = 1 ∧ 0 < dumpable ((300000 - 80 * 500) / 25) ∧ dumpable ((0 - 80 * 500) / 25) = 0 ∧
    ({ tD with pwr.testing := 2 } : Dev).pwr.testing = 2 ∧ tD.takes mSM .primary ∧ tD.pwr.store = .charging ∧
    ({ tListen with pwr.unfurl := .loaded } : Dev).pwr.unfurl = .loaded ∧ tListen.pwr.mode = .unfurl ∧ tListen.isM = false := by
  refine ⟨?_, ?_, ?_, ?_, ?_, ?_, ?_, ⟨?_, ?_, ?_, ?_, ?_, ?_, ?_, ?_⟩⟩ <;> decide
theorem wit_StartUp : (∃ d e : Dev, d.pwr.mode = .off ∧ e = suppliesSeen { d with pwr.mgmtReset := false }) ∧
    (tHeld.pwr.mode = .held ∧ tHeld.pwr.mgmtReset = false ∧ tHeld.pwr.dumping = false ∧ supplyBad tHeld = false ∧
      ({ tHeld with pwr.nodeReset := false } : Dev).pwr.nodeReset = false) ∧ (tListen.pwr.mode = .unfurl ∧ tListen.pwr.unfurl = .listening) ∧
    (tSplice.isM = false ∧ isMember tSplice = false ∧ (cueFrame tSplice).pwr.mode.ringOn = true ∧ tSplice.pwr.mode = .splice) ∧
    (tS.isM = false ∧ isMember tS = true ∧ (cueFrame (lineSeen 0x23 tS)).pwr.mode.ringOn = true) ∧
    ((cueFrame (lineSeen 0x12 tSplice)).srn.ring ≠ .heldOut ∧ (cueFrame (lineSeen 0x12 tSplice)).pwr.mode = .splice ∧
      (cueFrame (lineSeen 0x12 tSplice)).pst.nv.serial ≠ 77) ∧
    (∃ d : Dev, d.isM = false ∧ isMember d = false ∧ d.srn.ring = .forming) ∧
    (∃ d : Dev, d.isM = false ∧ isMember d = false ∧ d.srn.ring ≠ .forming ∧ d.pwr.mode = .splice) ∧
    (∃ d : Dev, d.pwr.mode = .recovery ∧ ringSettled d = true) ∧
    (tD.pwr.mode = .service ∧ tD.pwr.dumping = false) ∧ (∃ d : Dev, d.pwr.mode = .halt ∧ d.pwr.rearmed = false) ∧ tHalt.pwr.rearmed = true := by
  refine ⟨⟨{ tD with pwr.mode := .off }, _, rfl, rfl⟩, ?_, ?_, ?_, ?_, ?_, ⟨{ tD with srn.ring := .forming }, ?_⟩, ⟨tSplice, ?_⟩,
    ⟨{ tS with pwr.mode := .recovery }, ?_⟩, ?_, ⟨{ tHalt with pwr.rearmed := false }, ?_⟩, ?_⟩ <;> decide
theorem wit_SetModeCurrent : (tD.takes mSDTM .primary ∧ byte [5, 0, 0, 0] 1 = 0 ∧ byte [5, 0, 0, 0] 0 = tD.pwr.mode.code ∧ tD.pwr.mode ≠ .capped ∧
      tD.pwr.stopping = false) ∧
    (({ tD with pwr.mode := .capped } : Dev).takes mSDTM .primary ∧ byte [6, 0, 60, 0] 0 = Mode.capped.code ∧ 60 ≤ le [6, 0, 60, 0] 2 2 ∧
      le [6, 0, 200, 0] 2 2 ≤ 200 ∧ byte [6, 0, 200, 0] 1 = 0) ∧ tD.pwr.mode = .service ∧
    (∃ d : Dev, d.pwr.mode = .capped ∧ d.pwr.dumping = false) ∧ ({ tD with pwr.stopping := true } : Dev).takes mSDTM .vdm :=
  ⟨by decide, by decide, by decide, ⟨{ tD with pwr.mode := .capped }, by decide⟩, by decide⟩
theorem wit_ModesAndDump : (tD.takes mSDTM .primary ∧ byte [8, 0, 0, 0] 0 = Mode.dormant.code ∧ byte [10, 0, 0, 0] 0 = Mode.maintenance.code ∧
      byte [9, 0, 0, 0] 0 = Mode.transit.code ∧ byte [9, 0, 0, 0] 1 = 0 ∧ tD.pwr.mode = .service ∧ tD.pwr.dumping = false ∧ tD.pwr.stopping = false) ∧
    (∃ d : Dev, d.mbx.run = some (tRunning 0xC400 (.transit .service 1)) ∧ d.pwr.transitLeft = some .service ∧ occ d ≠ 0) ∧ tHeld.pwr.mode = .held ∧
    (∃ d : Dev, d.pwr.dumping = true ∧ d.pwr.mode = .service) ∧ (∀ m, (tRunning 0xC101 (.scratch 0 8)).job ≠ .transit m 0) ∧
    (∀ m n, (tRunning 0xC600 (.hold rcPassword)).job ≠ .transit m n) ∧ (tRunning 0xC600 (.hold rcPassword)).opcode ≠ 0xC601 ∧
    jobEnd (tRunning 0xC600 (.hold rcPassword)) tD = (some (rcPassword, []), tD) ∧
    (∃ d : Dev, d.mbx.run = some (tRunning 0xC405 .storeTest) ∧ (jobEnd (tRunning 0xC405 .storeTest) d).1 = none) ∧
    (∃ d : Dev, d.mbx.run = some (tRunning 0xC400 (.transit .service 1)) ∧ occ d = 0) := by
  exact ⟨by decide, ⟨{ tD with mbx.run := some (tRunning 0xC400 (.transit .service 1)), pwr.transitLeft := some .service, csh.dir := [(0, { st := .opn })] }, rfl, rfl, by decide⟩, by decide, ⟨{ tD with pwr.dumping := true }, by decide⟩,
    (fun m h => by cases h), (fun m n h => by cases h), by decide, rfl,
    ⟨{ tD with mbx.run := some (tRunning 0xC405 .storeTest), pwr.testing := 1 }, rfl, rfl⟩,
    ⟨{ tD with mbx.run := some (tRunning 0xC400 (.transit .service 1)) }, rfl, rfl⟩⟩

theorem wit_EveryStepKeepsTheStores : ∃ s t : State, s.dev.Sound ∧ step s = .next t := by
  refine ⟨⟨{ tD with evr.buf := [⟨0x1040, 1, 0, 0, 0, 0, false⟩] }, []⟩, _, ?_, rfl⟩
  unfold Dev.Sound
  decide

end Sys2Proof.Tests
end

section
/-! Proofs of the statements on scope and shared registers: the step, the idle tick, the values at reset, the counter
clears and the register accesses. -/

namespace Sys2Proof.Machine

/-! ### The step -/

/-- A step at a queued command is that command's meaning on the rest of the queue. -/
theorem step_cons (d : Dev) (c : Instr) (q : List Instr) : step ⟨d, c :: q⟩ = exec c ⟨d, q⟩ := rfl

/-- A step on an empty queue is one tick. -/
theorem step_nil (d : Dev) :
    step ⟨d, []⟩ = .next ⟨tripFollow (linkTick { d with time := d.time + 1 }), []⟩ := rfl

/-! ### A tick of an idle ring changes nothing but TIME -/

/-- A port at which nothing waits, with no credit owed either way, does nothing in a tick (log entry 74). -/
theorem portTick_idle {side : Side} {d : Dev} (hq : (portOf d side).q = []) (hu : (portOf d side).used = [])
    (hb : (portOf d side).back = []) : portTick side d = d := by
  simp only [portTick, hq, hu, hb, if_true, List.length_nil]
  rfl

/-- No epoch is asked for while no SEQ has passed 2^63 (R280). -/
theorem seqWatch_below {d : Dev} (hn : d.srn.seqNext ≤ 2 ^ 63) (hs : ∀ x ∈ d.srn.seqs, x.2.high ≤ 2 ^ 63) :
    seqWatch d = d := by
  have hany : (d.srn.seqs.any fun x => decide (x.1 % 4 = d.srn.epoch) && decide (2 ^ 63 < x.2.high)) = false := by
    rw [List.any_eq_false]
    intro x hx
    rw [decide_eq_false (Nat.not_lt.mpr (hs x hx)), Bool.and_false]
    exact Bool.false_ne_true
  unfold seqWatch
  rw [hany, decide_eq_false (Nat.not_lt.mpr hn), Bool.or_false, Bool.and_false]
  rfl

/-- The rhizoid line rests while no frame is on it and none waits (R281). -/
theorem lineTick_idle {d : Dev} (hc : d.srn.rlCur = none) (hq : d.srn.rlq = []) : lineTick d = d := by
  simp only [lineTick, hc, hq]

/-- The ring's part of a tick does nothing at a node where nothing waits, no credit is owed and no SEQ has passed 2^63. -/
theorem linkTick_idle {d : Dev} (hwq : d.srn.west.q = []) (hwu : d.srn.west.used = []) (hwb : d.srn.west.back = [])
    (heq : d.srn.east.q = []) (heu : d.srn.east.used = []) (heb : d.srn.east.back = []) (hc : d.srn.rlCur = none)
    (hl : d.srn.rlq = []) (hn : d.srn.seqNext ≤ 2 ^ 63) (hs : ∀ x ∈ d.srn.seqs, x.2.high ≤ 2 ^ 63) :
    linkTick d = d := by
  have hw : portTick .west d = d := portTick_idle hwq hwu hwb
  have he : portTick .east d = d := portTick_idle heq heu heb
  simp only [linkTick, hw, he, seqWatch_below hn hs, ite_self, lineTick_idle hc hl]

/-- Nothing is followed up while no orderly trip runs (R424). -/
theorem tripFollow_idle {d : Dev} (h : d.pwr.stopping = false) : tripFollow d = d := by
  simp only [tripFollow, h, Bool.false_and, Bool.false_eq_true, if_false]

/-! ### The gate of a block's registers (R34) -/

theorem gate_on {b : Nat} {d : Dev} (f : Dev → Dev) (h : blockOn b d = true) : gate b f d = f d := if_pos h

theorem gate_off {b : Nat} {d : Dev} (f : Dev → Dev) (h : blockOn b d = false) : gate b f d = d :=
  if_neg (Bool.eq_false_iff.mp h)

/-- A gated command acts while its block takes accesses. -/
theorem run_gate_on {b : Nat} {d : Dev} (f : Dev → Dev) (q : List Instr) (h : blockOn b d = true) :
    run (gate b f) ⟨d, q⟩ = .next ⟨f d, q⟩ := by
  rw [run_eq, gate_on f h]

/-- A gated command is ignored while its block takes none. -/
theorem run_gate_off {b : Nat} {d : Dev} (f : Dev → Dev) (q : List Instr) (h : blockOn b d = false) :
    run (gate b f) ⟨d, q⟩ = .next ⟨d, q⟩ := by
  rw [run_eq, gate_off f h]

/-! ### The clears -/

/-- The clears, each beside the block of BAR2 that holds its register (R33). -/
def clearCommands : List (Nat × Instr) :=
  [(1, .ldgCtlXtrmClr), (1, .ldgCtlOvrClr), (1, .mapCtlCntClr), (1, .mapCtlCacheInval), (2, .cshCtlCntClr),
    (3, .medRdCtlCntClr), (3, .medCtlCntClr), (4, .stwCtlCntClr), (5, .secCtlCntClr), (6, .hstCtlCntClr), (7, .srnCtlCntClr),
    (8, .opeCtlCntClr), (9, .cphCtlCntClr), (10, .mbxCtlCntClr), (10, .pstCtlCntClr), (10, .bflCtlCntClr),
    (12, .evrCtlCntClr), (14, .pwrCtlCntClr), (14, .thmCtlCntClr)]

/-- Every clear is one effect behind the gate of its block. -/
theorem exec_clear_gated : ∀ x ∈ clearCommands, ∃ f : Dev → Dev, ∀ s, exec x.2 s = run (gate x.1 f) s := by
  simp only [clearCommands, List.forall_mem_cons]
  exact ⟨⟨xtrmClear, fun _ => rfl⟩, ⟨ovrClear, fun _ => rfl⟩, ⟨mapClear, fun _ => rfl⟩, ⟨cacheInval, fun _ => rfl⟩,
    ⟨cshClear, fun _ => rfl⟩, ⟨rdClear, fun _ => rfl⟩, ⟨medClear, fun _ => rfl⟩, ⟨stwClear, fun _ => rfl⟩,
    ⟨secClear, fun _ => rfl⟩, ⟨hstClear, fun _ => rfl⟩, ⟨srnClear, fun _ => rfl⟩, ⟨opeClear, fun _ => rfl⟩,
    ⟨cphClear, fun _ => rfl⟩, ⟨mbxClear, fun _ => rfl⟩, ⟨pstClear, fun _ => rfl⟩, ⟨bflClear, fun _ => rfl⟩,
    ⟨evrClear, fun _ => rfl⟩, ⟨pwrClear, fun _ => rfl⟩, ⟨thmClear, fun _ => rfl⟩, fun _ h => nomatch h⟩

/-- A clear of a block that takes no accesses is ignored (R34). -/
theorem exec_clear_off {b : Nat} {i : Instr} {d : Dev} (q : List Instr) (hi : (b, i) ∈ clearCommands)
    (h : blockOn b d = false) : exec i ⟨d, q⟩ = .next ⟨d, q⟩ := by
  obtain ⟨f, hf⟩ := exec_clear_gated _ hi
  exact (hf _).trans (run_gate_off f q h)

/-! ### Ledger budgets (R62) -/

/-- No design budget is above 160. -/
theorem budDesign_le {n : Nat} (h : n < 8) : budDesign n ≤ 160 := by
  interval_cases n <;> decide

/-- A budget up to its design value is taken. -/
theorem budWrite_within {n v : Nat} (d : Dev) (hn : n < 8) (hv : v ≤ budDesign n) :
    budWrite n v d = { d with ldg.bud := d.ldg.bud.set n v } := by
  rw [budWrite, if_neg (Nat.not_le.mpr hn), if_neg (Nat.not_lt.mpr hv)]

/-- A budget above its design value is recorded and not taken. -/
theorem budWrite_above {n v : Nat} (d : Dev) (hn : n < 8) (hv : budDesign n < v) :
    budWrite n v d = post 0x3012 1 n v (budDesign n) 0 d := by
  rw [budWrite, if_neg (Nat.not_le.mpr hn), if_pos hv]

/-! ### The peek of a map entry (R90) -/

/-- Whether a frond's line is held depends on the lines in error alone. -/
theorem lineHeld_congr {d e : Dev} (h : e.map.err = d.map.err) (f : Nat) : lineHeld e f = lineHeld d f := by
  simp only [lineHeld, h]

/-- The bad entries of a line depend on the entries alone. -/
theorem formMask_congr {d e : Dev} (h : e.map.ent = d.map.ent) (m : Nat) : formMask e m = formMask d m := by
  unfold formMask mapGet
  rw [h]

/-- A peek of a frond whose line nothing holds and whose entries all match a form is taken once the line is read. -/
theorem peekWrite_passes {f : Nat} {d e : Dev} (hh : lineHeld d f = false) (hm : formMask d (mapLine f) = 0)
    (he : e = mapBurst 5 f { d with map.peek := f, map.peekValid := false, map.peekWait := false }) :
    peekWrite f d = { e with
      map.peekEnt := mapGet d f
      map.peekSeq := tget d.map.seq (mapLine f)
      map.peekValid := true
      map.peekWait := false } := by
  have hh' : lineHeld e f = false := (lineHeld_congr (by rw [he]; rfl) f).trans hh
  have hm' : formMask e (mapLine f) = 0 := (formMask_congr (by rw [he]; rfl) _).trans hm
  have hdone : peekWrite f d = peekDone e := by
    simp only [peekWrite, ← he, hm', hh', ne_eq, not_true_eq_false, false_and, if_false, or_self, Bool.false_eq_true]
  rw [hdone, he]
  rfl

/-! ### Writes of registers (R13, R16) -/

/-- An aligned 64-bit write behind the CXL device registers acts on its block's register. -/
theorem registerWrite_aligned {off : Nat} (v : W64) (d : Dev) (ho : 2 ^ 20 ≤ off) (h8 : off % 8 = 0) :
    registerWrite off 8 v d = regWrite off v.toNat d := by
  rw [registerWrite, if_neg (Nat.not_lt.mpr ho), if_pos ⟨rfl, h8⟩]

/-- An access of the wrong size or alignment behind the CXL device registers is recorded (R16). -/
theorem badAccess_post {off : Nat} (size : Nat) (wr : Bool) (d : Dev) (ho : 2 ^ 20 ≤ off) :
    badAccess off size wr d = post 0x1041 1 off size (b2n wr) 0 d := by
  rw [badAccess, postIf, if_pos (decide_eq_true ho)]

/-- A write of the wrong size or alignment is recorded and does nothing else. -/
theorem registerWrite_misfit {off size : Nat} (v : W64) (d : Dev) (ho : 2 ^ 20 ≤ off) (h : size ≠ 8 ∨ off % 8 ≠ 0) :
    registerWrite off size v d = post 0x1041 1 off size 1 0 d := by
  rw [registerWrite, if_neg (Nat.not_lt.mpr ho), if_neg (by tauto), badAccess_post size true d ho]
  rfl

/-- A write to a block that takes no accesses is ignored (R34). -/
theorem regWrite_off {off v : Nat} {d : Dev} (h : blockOn (off / 2 ^ 20) d = false) : regWrite off v d = d :=
  gate_off _ h

/-- The 2,048 words of the task queues' slots start at 0x0081_0000, and a word of a queue that the variant has is taken (R300). -/
theorem regWrite_slot {i : Nat} (v : Nat) {d : Dev} (hon : blockOn 8 d = true) (hi : i < 2048) (hq : i / 256 < queues d) :
    regWrite (0x810000 + 8 * i) v d = { d with ope.slots := tset d.ope.slots i v } := by
  have ho : (0x810000 + 8 * i) % 2 ^ 20 = 0x10000 + 8 * i := by omega
  have hb : (0x810000 + 8 * i) / 2 ^ 20 = 8 := by omega
  have hs : (0x10000 + 8 * i - 0x10000) / 8 = i := by omega
  unfold regWrite
  simp only [ho, hb, gate_on _ hon]
  unfold writeOpe
  rw [if_neg (by omega), if_neg (by omega), if_pos (by omega)]
  simp only [hs, if_neg (Nat.not_le.mpr hq)]

/-! ### Reads of registers (R16, R343) -/

/-- An aligned 64-bit read answers its register; one of MBX_PROGRESS latches DONE and TOTAL besides. -/
theorem registerRead_word {off : Nat} (d : Dev) (ho : 2 ^ 20 ≤ off) (hb : off + 8 ≤ 2 ^ 24) (h8 : off % 8 = 0) :
    registerRead 8 off d = emit (.reg off (regRead d off)) (if off = 0xA00018 then
      { d with mbx.latched := some (d.mbx.progDone, d.mbx.progTotal) } else d) := by
  unfold registerRead
  rw [if_neg (Nat.not_lt.mpr hb), if_neg (Nat.not_lt.mpr ho), if_pos ⟨rfl, h8⟩]

/-- An aligned 32-bit read answers its half of the register and is recorded. -/
theorem registerRead_half {off : Nat} (d : Dev) (ho : 2 ^ 20 ≤ off) (hb : off + 4 ≤ 2 ^ 24) (h4 : off % 4 = 0) :
    registerRead 4 off d = post 0x1041 1 off 4 0 0
      (emit (.reg off (regRead d (off / 8 * 8) / 2 ^ (8 * (off % 8)) % 2 ^ 32)) d) := by
  unfold registerRead
  rw [if_neg (Nat.not_lt.mpr hb), if_neg (Nat.not_lt.mpr ho), if_neg (fun h => absurd h.1 (by decide)),
    if_pos ⟨rfl, h4⟩, badAccess_post 4 false _ ho]
  rfl

/-! ### The commands of the register accesses -/

theorem exec_ldgBudBudget (n v : Nat) (s : State) : exec (.ldgBudBudget n v) s = run (gate 1 (budWrite n (v % 1024))) s := rfl
theorem exec_mapPeekFrond (f : Nat) (s : State) : exec (.mapPeekFrond f) s = run (gate 1 (peekWrite (f % 2 ^ 32))) s := rfl
theorem exec_registerWrite (off size : Nat) (v : W64) (s : State) :
    exec (.registerWrite off size v) s = run (registerWrite off size v) s := rfl
theorem exec_mbxProgressRead (size off : Nat) (s : State) :
    exec (.mbxProgressRead size off) s = run (registerRead size off) s := rfl

/-! ### The statements -/

/-- Settles O1, by the step's equation at a queued command. -/
theorem stepRunsTheFrontCommand : Obligations.StepRunsTheFrontCommand :=
  fun c q d => step_cons d c q

/-- Settles O2: the tick's ring part and the trip's part each do nothing under the second clause's hypotheses. -/
theorem idleStepIsOneTick : Obligations.IdleStepIsOneTick := by
  refine ⟨step_nil, fun d hwq hwu hwb heq heu heb hc hl hn hs hstop => ?_⟩
  have hlink : linkTick { d with time := d.time + 1 } = { d with time := d.time + 1 } :=
    linkTick_idle hwq hwu hwb heq heu heb hc hl hn hs
  have htrip : tripFollow { d with time := d.time + 1 } = { d with time := d.time + 1 } := tripFollow_idle hstop
  rw [step_nil, hlink, htrip]

/-- Settles O4: the reset state is written out in the model, and each value is read off it. -/
theorem resetValues : Obligations.ResetValues := by
  unfold Obligations.ResetValues
  decide

/-- Settles O45: every clear is one effect behind the gate of its block, and the gate is open or shut. -/
theorem counterClears : Obligations.CounterClears := by
  refine ⟨fun b i d q hi h => exec_clear_off q hi h, ?ldgMap, ?csh, ?med, ?stw, ?sec, ?hst, ?srn, ?ope, ?cph, ?mgmt, ?evr, ?pwr⟩
  case ldgMap =>
    exact fun d q h => ⟨run_gate_on xtrmClear q h, run_gate_on ovrClear q h, run_gate_on mapClear q h, run_gate_on cacheInval q h⟩
  case csh => exact fun d q h => run_gate_on cshClear q h
  case med => exact fun d q h => ⟨run_gate_on rdClear q h, run_gate_on medClear q h⟩
  case stw => exact fun d q h => run_gate_on stwClear q h
  case sec => exact fun d q h => run_gate_on secClear q h
  case hst => exact fun d q h => run_gate_on hstClear q h
  case srn => exact fun d q h => run_gate_on srnClear q h
  case ope => exact fun d q h => run_gate_on opeClear q h
  case cph => exact fun d q h => run_gate_on cphClear q h
  case mgmt => exact fun d q h => ⟨run_gate_on mbxClear q h, run_gate_on pstClear q h, run_gate_on bflClear q h⟩
  case evr => exact fun d q h => run_gate_on evrClear q h
  case pwr => exact fun d q h => ⟨run_gate_on pwrClear q h, run_gate_on thmClear q h⟩

/-- Settles O46: each register by the equation of its write or read. -/
theorem registerWrites : Obligations.RegisterWrites := by
  refine ⟨?budget, ?budgetAbove, ?peek, ?devload, ?destage, ?snoop, ?readSeq, ?slot, ?misfit, ?blockOff, ?readWord, ?readHalf⟩
  case budget =>
    intro n v d q hon hn hv
    have hmod : v % 1024 = v := Nat.mod_eq_of_lt (by have := budDesign_le hn; omega)
    rw [exec_ldgBudBudget, run_gate_on _ q hon, hmod, budWrite_within d hn hv]
  case budgetAbove =>
    intro n v d q hon hn hv habove
    rw [exec_ldgBudBudget, run_gate_on _ q hon, Nat.mod_eq_of_lt hv, budWrite_above d hn habove]
  case peek =>
    intro f d e q hon hf hh hm he
    rw [exec_mapPeekFrond, run_gate_on _ q hon, Nat.mod_eq_of_lt hf, peekWrite_passes hh hm he]
  case devload =>
    rintro v uo um oo om d q hon rfl rfl rfl rfl
    exact run_gate_on (devloadWrite v.toNat) q hon
  case destage =>
    rintro v l m h r d q hon rfl rfl rfl rfl
    exact run_gate_on (dfloorWrite v.toNat) q hon
  case snoop =>
    rintro v h l d q hon rfl rfl
    exact run_gate_on (writeHst 0x20 v.toNat) q hon
  case readSeq => exact fun v d q hon => run_gate_on (writeEvr 0x20 v.toNat) q hon
  case slot =>
    intro v i d q hon hi hq
    rw [exec_registerWrite, run_eq, registerWrite_aligned v d (by omega) (by omega), regWrite_slot v.toNat hon hi hq]
  case misfit =>
    intro off size v d q ho h
    rw [exec_registerWrite, run_eq, registerWrite_misfit v d ho h]
  case blockOff =>
    intro off v d q ho h8 hoff
    rw [exec_registerWrite, run_eq, registerWrite_aligned v d ho h8, regWrite_off hoff]
  case readWord =>
    intro off d q ho hb h8
    rw [exec_mbxProgressRead, run_eq, registerRead_word d ho hb h8]
  case readHalf =>
    intro off d q ho hb h4
    rw [exec_mbxProgressRead, run_eq, registerRead_half d ho hb h4]

end Sys2Proof.Machine
end

section
/-! Proofs of the statements on the architecture's boundaries and on the vendor commands of ring, engines and map: the slice,
the background period and the drift, and one lemma for each command's body. -/

namespace Sys2Proof.Machine

/-! ### The slice boundary: a new capacity and the edge into Draining change the cushion, the store's mark and the recorder alone -/

@[simp] theorem sliceCapacity_time (d : Dev) : (sliceCapacity d).time = d.time := by
  obtain ⟨_, _, h, _⟩ := sliceCapacity_frame d; rw [h]
@[simp] theorem sliceCapacity_ldg (d : Dev) : (sliceCapacity d).ldg = d.ldg := by
  obtain ⟨_, _, h, _⟩ := sliceCapacity_frame d; rw [h]
@[simp] theorem sliceCapacity_map (d : Dev) : (sliceCapacity d).map = d.map := by
  obtain ⟨_, _, h, _⟩ := sliceCapacity_frame d; rw [h]
@[simp] theorem sliceCapacity_rp (d : Dev) : (sliceCapacity d).rp = d.rp := by
  obtain ⟨_, _, h, _⟩ := sliceCapacity_frame d; rw [h]
@[simp] theorem sliceCapacity_med (d : Dev) : (sliceCapacity d).med = d.med := by
  obtain ⟨_, _, h, _⟩ := sliceCapacity_frame d; rw [h]
@[simp] theorem sliceCapacity_sec (d : Dev) : (sliceCapacity d).sec = d.sec := by
  obtain ⟨_, _, h, _⟩ := sliceCapacity_frame d; rw [h]
@[simp] theorem sliceCapacity_pst (d : Dev) : (sliceCapacity d).pst = d.pst := by
  obtain ⟨_, _, h, _⟩ := sliceCapacity_frame d; rw [h]
@[simp] theorem sliceCapacity_dir (d : Dev) : (sliceCapacity d).csh.dir = d.csh.dir := by
  obtain ⟨_, _, h, hdir⟩ := sliceCapacity_frame d; rw [h]; exact hdir

@[simp] theorem drainEdge_time (d : Dev) : (drainEdge d).time = d.time := by
  obtain ⟨_, _, _, h⟩ := drainEdge_frame d; rw [h]
@[simp] theorem drainEdge_ldg (d : Dev) : (drainEdge d).ldg = d.ldg := by
  obtain ⟨_, _, _, h⟩ := drainEdge_frame d; rw [h]
@[simp] theorem drainEdge_map (d : Dev) : (drainEdge d).map = d.map := by
  obtain ⟨_, _, _, h⟩ := drainEdge_frame d; rw [h]
@[simp] theorem drainEdge_rp (d : Dev) : (drainEdge d).rp = d.rp := by
  obtain ⟨_, _, _, h⟩ := drainEdge_frame d; rw [h]
@[simp] theorem drainEdge_med (d : Dev) : (drainEdge d).med = d.med := by
  obtain ⟨_, _, _, h⟩ := drainEdge_frame d; rw [h]
@[simp] theorem drainEdge_sec (d : Dev) : (drainEdge d).sec = d.sec := by
  obtain ⟨_, _, _, h⟩ := drainEdge_frame d; rw [h]
@[simp] theorem drainEdge_pst (d : Dev) : (drainEdge d).pst = d.pst := by
  obtain ⟨_, _, _, h⟩ := drainEdge_frame d; rw [h]
@[simp] theorem drainEdge_dir (d : Dev) : (drainEdge d).csh.dir = d.csh.dir := by
  obtain ⟨_, _, _, h⟩ := drainEdge_frame d; rw [h]

/-! ### The start of a period -/

/-- A period starts at the next multiple of 100,000 ticks (R177). -/
theorem periodStart_time {d : Dev} (h : d.periodsOn = true) : (periodStart d).time = alignUp 100000 d.time :=
  (periodStart_spec d h).time.trans (congrArg (alignUp 100000) (endPeriod_period d).time)

/-- The settings of the steward and of the operations on media take effect as they were written (R36). -/
theorem periodStart_settings {d : Dev} (h : d.periodsOn = true) :
    (periodStart d).stw.now = d.stw.set ∧ (periodStart d).stw.set = d.stw.set ∧
    (periodStart d).med.rStallNow = d.med.rStall ∧ (periodStart d).med.pStallNow = d.med.pStall ∧
    (periodStart d).med.minProgNow = d.med.minProg ∧ (periodStart d).med.minResetNow = d.med.minReset := by
  have hend : PeriodSame d (endPeriod d) := endPeriod_period d
  have hset := periodStart_spec d h
  exact ⟨hset.now.trans hend.set, hset.set.trans hend.set, hset.rStall.trans hend.setR, hset.pStall.trans hend.setP,
    hset.minProg.trans hend.setG, hset.minReset.trans hend.setM⟩

/-! ### Drift (R195, R196) -/

/-- A step below escalation and below the rewrite threshold is set, and no refresh is queued. -/
theorem stepRaise_below {nsb pos step k st : Nat} {d : Dev} (hk : k = serving d.med (nsb / 1344) (nsb % 1344) pos)
    (hst : st = max (tget d.med.pb k).step (min 15 step)) (hesc : st < 14) (hrw : st < d.stw.now.rewrite) :
    stepRaise nsb pos step d = { d with med.pb := tmod d.med.pb k fun b => { b with step := st } } := by
  subst hk hst
  unfold stepRaise
  dsimp only
  rw [if_neg (Nat.not_le.mpr hesc), if_neg (Nat.not_le.mpr hrw)]

/-! ### The bodies of the vendor commands, where their conditions hold (R350, R351, R353) -/

/-- SET_RING_INDEX stores what the payload names: an index below 16, or none for one from 16 on (R284). -/
theorem setRingIndex_stores {i : Nat} {idx : Option Nat} {d : Dev} (hidx : idx = if i < 16 then some i else none)
    (hfresh : mapFresh d = true) (hout : d.srn.ring = .heldOut ∨ isMember d = false)
    (hfree : i < 16 → (tget d.srn.members i).st = .absent ∨ (tget d.srn.members i).serial = d.pst.nv.serial)
    (hsec : secRefused 6 d = none) :
    setRingIndex i d = ret rcOk { fwWrite (.ringIndex idx (d.pst.nv.ringId.getD 0)) d with
      pst.nv.ringId := d.pst.nv.ringId
      srn.index := idx.getD 0
      srn.indexed := idx.isSome } := by
  have hout' : d.srn.ring = .heldOut ∨ (!isMember d) = true := hout.imp_right fun hm => by rw [hm]; rfl
  have hok : ¬(!mapFresh d ∨ !(d.srn.ring = .heldOut ∨ !isMember d) ∨
      (i < 16 ∧ (tget d.srn.members i).st ≠ .absent ∧ (tget d.srn.members i).serial ≠ d.pst.nv.serial)) := by
    rintro (h | h | ⟨hi, habs, hser⟩)
    · simp [hfresh] at h
    · rw [decide_eq_true hout'] at h
      exact Bool.false_ne_true h
    · exact (hfree hi).elim habs hser
  subst hidx
  unfold setRingIndex
  dsimp only
  rw [if_neg hok, hsec]

/-- RING_GROUP_REKEY asks for an epoch and runs on (R280). -/
theorem ringRekey_runs {d : Dev} (hm : isMember d = true) (hp : d.srn.ring ≠ .parted) :
    ringRekey d = (.long (.rekeyGroup d.srn.epoch) 0 0, epochAsk d) := by
  rw [ringRekey, if_neg (by simp [hm]), if_neg hp]

/-- RING_LEAVE starts the leave and runs on (R287). -/
theorem ringLeave_runs {d : Dev} (hm : isMember d = true) : ringLeave d = (.long .leave 0 0, leaveStart d) := by
  rw [ringLeave, if_neg (by simp [hm])]

/-- A leave beside other members marks ring A; alone, both bypass sets close (R287). -/
theorem leaveStart_eq {d e : Dev} (he : e = frame 0x03 [d.srn.index]
      { d with srn.members := tmod d.srn.members d.srn.index fun m => { m with st := .leaving } }) :
    leaveStart d = if (peers e).isEmpty then bypassClose e
      else marksA { e with srn.splice := some { index := e.srn.index, leaving := true, startT := e.time } } := by
  subst he
  rfl

/-- RING_REJOIN asks for a splice and runs on while no port drains (R350). -/
theorem ringRejoin_runs {d : Dev} (hm : isMember d = false) (hw : ¬(d.srn.west.st = .draining ∨ d.srn.west.st = .pending))
    (he : ¬(d.srn.east.st = .draining ∨ d.srn.east.st = .pending)) :
    ringRejoin d = (.long .rejoin 0 0, frame 0x20 [d.pst.nv.serial, d.srn.index] { d with srn.rejoin := true }) := by
  rw [ringRejoin, if_neg (by simp [hm]), if_neg hw, if_neg he]

/-- RING_REJOIN waits for the end of the west port's drain (R344, R350). -/
theorem ringRejoin_waits {d : Dev} (hm : isMember d = false) (hw : d.srn.west.st = .draining ∨ d.srn.west.st = .pending) :
    ringRejoin d = ret rcPending { d with srn.west.rejoin := true } := by
  rw [ringRejoin, if_neg (by simp [hm]), if_pos hw]

/-- CLEAR_SCRATCH runs over a span of scratch that no enabled spill region meets (R351). -/
theorem clearScratch_runs {p : List Byte} {d : Dev} (hspan : le p 0 8 / 2 ^ 20 + le p 8 4 ≤ 8192)
    (hspill : ∀ x ∈ d.ope.rq, x.2.spill = true → x.2.st = .disabled) :
    clearScratch p d = (.long (.scratch (le p 0 8) (le p 0 8 + le p 8 4 * 2 ^ 20)) 2 (le p 8 4 * 2 ^ 20), d) := by
  have hmeets : ∀ lo hi : Nat, (d.ope.rq.any fun x => x.2.spill && x.2.st ≠ .disabled && decide (x.2.baseMib < hi)
      && decide (lo < x.2.baseMib + x.2.sizeMib)) = false := by
    intro lo hi
    rw [List.any_eq_false]
    intro x hx
    cases hs : x.2.spill with
    | false => simp
    | true => simp [hspill x hx hs]
  unfold clearScratch
  dsimp only
  rw [if_neg]
  rintro (h | h)
  · exact absurd hspan (Nat.not_le.mpr h)
  · exact absurd h (by simp only [hmeets, Bool.false_eq_true, not_false_eq_true])

/-- RELEASE_RANGE runs over a frond-aligned span below MAP_LIMIT (R84). -/
theorem releaseRange_runs {p : List Byte} {a n : Nat} {d : Dev} (ha : a = le p 0 8) (hn : n = le p 8 8) (halign : a % 4096 = 0)
    (hpos : n ≠ 0) (hlim : a / 4096 + n ≤ d.map.limit) :
    releaseRange p d = (.long (.release (a / 4096) (a / 4096 + n - 1) (a / 4096)) 1 n, d) := by
  subst ha hn
  unfold releaseRange
  dsimp only
  rw [if_neg (by omega)]

/-- SHED_CAPACITY runs over the fronds above its limit, which the cushion empties first (R86). -/
theorem shedCapacity_runs {p : List Byte} {g : Nat} {d : Dev} (hg : g = le p 0 4) (hlo : 8192 ≤ g) (hhi : g < d.map.limit / 262144)
    (hwin : windowAbove d (g * 262144) = false) (hp : d.srn.ring ≠ .parted) :
    shedCapacity p d =
      (.long (.shed (g * 262144) (g * 262144)) 1 (d.map.limit - g * 262144), { d with csh.emptying := true }) := by
  subst hg
  unfold shedCapacity
  dsimp only
  rw [if_neg (by rw [hwin]; simp only [Bool.false_eq_true, or_false]; omega), if_neg hp]

/-- CLEAR_WRITE_REFUSED stores the end of the refusal and records it (R193). -/
theorem clearRefused_ends {d : Dev} (hfree : d.stw.free ≠ .exhausted) (hsec : secRefused 7 d = none) :
    clearRefused d = ret rcOk (post 0x6012 0 0 0 0 0 { fwWrite (.writeRefused false) d with stw.refused := false }) := by
  rw [clearRefused, if_neg hfree, hsec]

/-! ### The commands that pass no mailbox -/

theorem exec_sentinelMeasurementDone (nsb pos dcOld dcNew : Nat) (s : State) :
    exec (.sentinelMeasurementDone nsb pos dcOld dcNew) s = run (fun d =>
      if min 15 (dcNew / 16) + 3 < min 15 (dcOld / 16) then
        refreshQueue nsb (min 15 (dcOld / 16)) false (stepRaise nsb pos (min 15 (dcOld / 16)) (measured nsb pos d))
      else stepRaise nsb pos (min 15 (dcOld / 16)) (measured nsb pos d)) s := rfl
theorem exec_lockstepMismatch (pair pc : Nat) (s : State) :
    exec (.lockstepMismatch pair pc) s = run (fatal 0x9004 pair (pc % 2 ^ 32) 0 0) s := rfl

/-! ### The statements -/

/-- Settles O17: the judgement, the capacity, the edge into Draining and the guards leave what the boundary shifts and sets. -/
theorem sliceBoundaryHolds : Obligations.SliceBoundary := by
  intro d q
  obtain ⟨late, ms, cnt, a, b, c, m, g, e, hjudge, rfl⟩ := sliceJudge_frame d
  refine ⟨sliceBoundary d, rfl, ?_⟩
  simp [sliceBoundary, hjudge, alignUp]

/-- Settles O32: the old period's end and the settings' change frame the start; the drift's step stays below both thresholds. -/
theorem stewardPeriods : Obligations.StewardPeriods := by
  refine ⟨?start, fun d q => rfl, ?drift⟩
  case start =>
    intro d q hon
    have hend : PeriodSame d (endPeriod d) := endPeriod_period d
    have hset := periodStart_spec d hon
    obtain ⟨hnow, hwritten, hrs, hps, hmp, hmr⟩ := periodStart_settings hon
    have hsec : { (periodStart d).sec with zeroRetry := d.sec.zeroRetry } = d.sec :=
      (congrArg (fun x : Sec => { x with zeroRetry := d.sec.zeroRetry }) hset.sec).trans hend.sec
    have hsrn : { (periodStart d).srn with indexRetry := d.srn.indexRetry } = d.srn :=
      (congrArg (fun x : Srn => { x with indexRetry := d.srn.indexRetry }) hset.srn).trans hend.srn
    exact ⟨periodStart d, rfl, periodStart_time hon, hnow, hwritten, hrs, hps, hmp, hmr, hset.ent.trans hend.ent,
      hset.tail.trans hend.tail, hset.updq.trans hend.updq, hset.rp.trans hend.rp, hset.dir.trans hend.dir, hsec,
      hset.hst.trans hend.hst, hsrn, hset.ope.trans hend.ope, hset.cph.trans hend.cph, hset.mbx.trans hend.mbx,
      hset.bfl.trans hend.bfl, hset.pwr.trans hend.pwr, hset.out.trans hend.out⟩
  case drift =>
    intro nsb pos dcOld dcNew st k d e q he hk hst hesc hrw hdrop
    subst he
    have hraise := stepRaise_below (step := min 15 (dcOld / 16)) hk (by rw [hst]; omega) hesc hrw
    rw [exec_sentinelMeasurementDone, run_eq]
    simp only [hraise, if_neg (Nat.not_lt.mpr hdrop)]

/-- Settles O52: each command passes its checks and its body goes the way that the lemma about it says. -/
theorem nodeCommands : Obligations.NodeCommands := by
  refine ⟨?index, ?noIndex, ?rekey, ?leave, ?rejoin, ?rejoinWaits, ?scratch, ?release, ?shed, ?refused, ?lockstep⟩
  case index =>
    intro tr p d e q ht hM hl hi hfresh hout hfree hsec he
    subst he
    exact run_done ht (by simp [hM]) (by simp [len, hl]) (by omega) (by simp [hi])
      (setRingIndex_stores (if_pos hi).symm hfresh hout (fun _ => hfree) hsec)
  case noIndex =>
    intro tr d e q ht hM hfresh hout hsec he
    subst he
    exact run_done ht (by simp [hM]) rfl (by decide) rfl
      (setRingIndex_stores (i := 31) rfl hfresh hout (fun h => absurd h (by decide)) hsec)
  case rekey =>
    intro tr d q ht hM hm hp
    exact run_long ht (by simp [hM]) rfl (by decide) rfl (ringRekey_runs hm hp)
  case leave =>
    intro tr d e q ht hM hm he
    have hb := ringLeave_runs hm
    rw [leaveStart_eq he] at hb
    refine ⟨fun hp => ?_, fun hp => ?_⟩
    · rw [if_neg (by simp [hp])] at hb
      exact run_long ht (by simp [hM]) rfl (by decide) rfl hb
    · rw [if_pos hp] at hb
      exact run_long ht (by simp [hM]) rfl (by decide) rfl hb
  case rejoin =>
    intro tr d q ht hM hm hwd hwp hed hep
    exact run_long ht (by simp [hM]) rfl (by decide) rfl (ringRejoin_runs hm (not_or.mpr ⟨hwd, hwp⟩) (not_or.mpr ⟨hed, hep⟩))
  case rejoinWaits =>
    intro tr d q ht hM hm hw
    exact run_done ht (by simp [hM]) rfl (by decide) rfl (ringRejoin_waits hm hw)
  case scratch =>
    rintro tr p off n d q ht hM hl rfl rfl halign hpos hspan hspill
    exact run_long ht (by simp [hM]) (by simp [len, hl]) (by omega) (by simp only [halign, hpos, decide_true, Bool.and_self])
      (clearScratch_runs hspan hspill)
  case release =>
    intro tr p a n d q ht hl ha hn halign hpos hlim
    exact run_long ht rfl (by simp [len, hl]) (by omega) rfl (releaseRange_runs ha hn halign hpos hlim)
  case shed =>
    intro tr p g d q ht hl hg hlo hhi hwin hp
    exact run_long ht rfl (by simp [len, hl]) (by omega) rfl (shedCapacity_runs hg hlo hhi hwin hp)
  case refused =>
    intro tr d e q ht hfree hsec he
    subst he
    exact run_done ht rfl rfl (by decide) rfl (clearRefused_ends hfree hsec)
  case lockstep =>
    intro pair pc d q hpc
    rw [exec_lockstepMismatch, run_eq, Nat.mod_eq_of_lt hpc]

end Sys2Proof.Machine
end

section
/-! Proofs of the statements on the cells a requester takes: what each answers the host and restores, and the DevLoad that
a response carries (R60, R276, R277, R291). -/

namespace Sys2Proof.Machine

/-! ### What an operation sends: the outputs it leaves as they were -/

/-- A fold of operations that send nothing sends nothing. -/
theorem foldl_out {α : Type} {f : Dev → α → Dev} (h : ∀ d x, (f d x).out = d.out) (l : List α) (d : Dev) :
    (l.foldl f d).out = d.out :=
  List.foldlRecOn (motive := fun e => e.out = d.out) l f rfl fun e he x _ => (h e x).trans he

@[simp] theorem sendCell_out (ty dst tag line : Nat) (b : Bool) (st : Nat) (p : Bool) (w : List Nat) (d : Dev) :
    (sendCell ty dst tag line b st p w d).out = d.out := by
  obtain ⟨x, y, h⟩ := sendCell_frame ty dst tag line b st p w d
  rw [h]

@[simp] theorem cellTo_out (ty dst tag line st : Nat) (w : List Nat) (d : Dev) : (cellTo ty dst tag line st w d).out = d.out :=
  sendCell_out ..

@[simp] theorem creditGive_out (o a b : Nat) (d : Dev) : (creditGive o a b d).out = d.out := rfl
@[simp] theorem creditGive_ldg (o a b : Nat) (d : Dev) : (creditGive o a b d).ldg = d.ldg := rfl
@[simp] theorem hopsTo_creditGive (o a b : Nat) (d : Dev) (dst : Nat) : hopsTo (creditGive o a b d) dst = hopsTo d dst :=
  hopsTo_congr (d := d) (e := creditGive o a b d) rfl rfl rfl rfl rfl rfl dst
@[simp] theorem remoteDrop_out (tag : Nat) (d : Dev) : (remoteDrop tag d).out = d.out := rfl
@[simp] theorem remotePut_out (r : Remote) (d : Dev) : (remotePut r d).out = d.out := rfl

theorem creditTake_out {o : Nat} {b : Bool} {d e : Dev} (h : creditTake o b d = some e) : e.out = d.out := by
  unfold creditTake at h
  dsimp only at h
  split at h <;> split at h <;> cases h <;> rfl

@[simp] theorem remoteSend_out (r : Remote) (d : Dev) : (remoteSend r d).2.out = d.out := by
  unfold remoteSend
  dsimp only
  split
  case h_1 => rfl
  case h_2 =>
    split
    case h_1 => exact sendCell_out ..
    case h_2 =>
      split
      case h_1 => rfl
      case h_2 hc => exact (sendCell_out ..).trans (creditTake_out hc)

/-- The held and delayed requests go out as cells at a port, not to the host. -/
@[simp] theorem remoteRetryAll_out (d : Dev) : (remoteRetryAll d).out = d.out := by
  refine foldl_out (fun e r => ?_) _ d
  split
  · exact remoteSend_out _ e
  · rfl

/-- The snoop queries are answered to this node's engines or by cells. -/
@[simp] theorem snpAnswer_out (d : Dev) : (snpAnswer d).out = d.out := by
  refine foldl_out (fun e x => ?_) _ _
  split
  · rfl
  · exact cellTo_out ..

theorem feedLines_out (lat : Lat) (d : Dev) : (feedLines lat d).out = d.out := by
  refine foldl_out (fun e i => ?_) _ d
  dsimp only
  split <;> rfl

theorem overruns_out (cs : List Nat) (cls cc addr : Nat) (d : Dev) : (overruns cs cls cc addr d).out = d.out := by
  obtain ⟨o, a, b, c, e, h⟩ := overruns_frame cs cls cc addr d
  rw [h]

theorem overrun_out (cause cls cc addr : Nat) (d : Dev) : (overrun cause cls cc addr d).out = d.out := post_out

/-- A request's judgement counts and records, and sends nothing (R40, R41). -/
@[simp] theorem account_out (cls : Nat) (lat : Lat) (cs : List Nat) (addr h slice : Nat) (d : Dev) :
    (account cls lat cs addr h slice d).out = d.out := by
  have hfed : (feedBin cls lat.total (feedLines lat d)).out = d.out := feedLines_out lat d
  unfold account
  dsimp only
  split_ifs
  · exact hfed
  · exact hfed
  · exact (overruns_out ..).trans hfed
  · exact (overruns_out ..).trans hfed
  · exact (overrun_out ..).trans hfed
  · exact hfed

/-! ### What each cell does at the requester -/

theorem exec_rdRsp (c : Cell) (data : Line) (lat : Lat) (s : State) : exec (.rdRsp c data lat) s = run (rdRsp c data lat) s := rfl
theorem exec_wrAck (c : Cell) (lat : Lat) (s : State) : exec (.wrAck c lat) s = run (wrAck c lat) s := rfl
theorem exec_crdRet (c : Cell) (s : State) : exec (.crdRet c) s = execCrdRet c s := rfl
theorem exec_nak (c : Cell) (s : State) : exec (.nak c) s = execNak c s := rfl

theorem toHost_tagged {tag : Nat} (o : Out) (d : Dev) (h : tag < 65536) : toHost tag o d = emit o d := if_pos h

section
variable {c : Cell} {d e : Dev} {r : Remote}

/-- An accepted RD_RSP ends its read, which the host gets with the higher DevLoad (R60, R112). -/
theorem rdRsp_answers (data : Line) (lat : Lat) (hacc : acceptCell c 0x02 true d = (true, e)) (hget : remoteGet e c.tag = some r)
    (hrd : r.wr = none) (htag : r.hostTag < 65536) :
    rdRsp c data lat d = account 2 lat r.causes r.addr (hopsTo e r.owner) r.slice { e with
      srn.remotes := e.srn.remotes.filter (·.tag ≠ c.tag)
      hst.cnt := bump e.hst.cnt 0
      out := .data r.hostTag (if c.poison then 0 else data) c.poison (max e.ldg.devload c.devload) :: e.out } := by
  simp only [rdRsp, hacc, hget, hrd, toHost_tagged _ _ htag]
  rfl

/-- An accepted RD_RSP to a TAG without a request changes nothing more. -/
theorem rdRsp_of_unknown_tag (data : Line) (lat : Lat) (hacc : acceptCell c 0x02 true d = (true, e)) (hget : remoteGet e c.tag = none) :
    rdRsp c data lat d = e := by
  simp only [rdRsp, hacc, hget]
  rfl

/-- An accepted WR_ACK ends its write: its attempts' credits return, and the host gets the completion with the higher DevLoad
(R60, R276). -/
theorem wrAck_completes (lat : Lat) (hacc : acceptCell c 0x04 true d = (true, e)) (hget : remoteGet e c.tag = some r)
    (hwr : r.wr.isSome = true) :
    wrAck c lat d =
      let lastB := decide (0 < r.usedB)
      let f := creditGive r.owner (r.usedA - b2n (!lastB) + (if lastB then 0 else c.status % 256))
        (r.usedB - b2n lastB + (if lastB then c.status % 256 else 0)) e
      snpAnswer (remoteRetryAll (account 3 lat
        (if r.causes = [] ∧ r.waited ∧ boundCc (hopsTo e r.owner) < lat.total then [6] else r.causes)
        r.addr (hopsTo e r.owner) r.slice
        (toHost r.hostTag (.ndr r.hostTag (max e.ldg.devload c.devload)) (hostCredit r.hostTag (admitEval
          { remoteDrop c.tag f with hst.cnt := bump e.hst.cnt 1 }))))) := by
  obtain ⟨w, hw⟩ := Option.isSome_iff_exists.mp hwr
  simp only [wrAck, hacc, hget, hw, Bool.not_true, Option.isNone_some, Bool.false_eq_true, if_false, hopsTo_creditGive]
  rfl

/-- An accepted CRD_RET restores the credits of its ring, and the writes that waited go (R276). -/
theorem crdRet_restores (q : List Instr) (hacc : acceptCell c 0x05 true d = (true, e)) :
    exec (.crdRet c) ⟨d, q⟩ =
      .next ⟨remoteRetryAll (creditGive c.src (if c.ringB then 0 else c.status) (if c.ringB then c.status else 0) e), q⟩ := by
  simp only [exec_crdRet, execCrdRet, run_eq, hacc]
  rfl

/-- An accepted NAK of a memory request holds it (R291). -/
theorem nak_holds (q : List Instr) (hacc : acceptCell c 0x06 true d = (true, e)) (hget : remoteGet e c.tag = some r)
    (hown : r.owner = c.src) (hline : lineNo (addrFrond r.addr) (addrLine r.addr) % 2 ^ 38 = c.line) :
    exec (.nak c) ⟨d, q⟩ = .next ⟨remotePut { r with holding := true, sent := false } e, q⟩ := by
  have hmine : (some r).filter (fun r => r.owner = c.src &&
      lineNo (addrFrond r.addr) (addrLine r.addr) % 2 ^ 38 = c.line) = some r := by
    simp only [Option.filter_some, hown, hline, decide_true, Bool.and_self, if_true]
  simp only [exec_nak, execNak, run_eq, hacc, hget, hmine]
  rfl

end

/-! ### A cell waits and goes out as it was made -/

@[simp] theorem portOf_portMod (s : Side) (f : RPort → RPort) (d : Dev) : portOf (portMod s f d) s = f (portOf d s) := by
  cases s <;> rfl

@[simp] theorem portMod_out (s : Side) (f : RPort → RPort) (d : Dev) : (portMod s f d).out = d.out := by
  cases s <;> rfl

/-- A cell queued waits at one of the ports, its body as it was given (R272, R288). -/
theorem queueCell_waits (b : Bool) (k : QCell) (d : Dev) :
    ∃ (s : Side) (k' : QCell), k' ∈ (portOf (queueCell b k d) s).q ∧ k'.body = k.body := by
  unfold queueCell
  dsimp only
  split
  case isTrue => exact ⟨otherSide (ringSide b), { k with fold := true }, by simp, rfl⟩
  case isFalse => exact ⟨ringSide b, k, by simp, rfl⟩

/-- The next cell leaves a port once the budget takes its units, and its bytes are made of its body (R271, R272). -/
theorem portSend_next {s : Side} {n : Nat} {k : QCell} {d : Dev} (hnext : nextCell (portOf d s) = some k) (hfits : k.units ≤ n) :
    (portSend s 1 n d).out = .cell s k.fold k.body (cellWire d.srn.index k.fold k.body) :: d.out := by
  simp only [portSend, hnext, if_neg (Nat.not_lt.mpr hfits), emit_out, portMod_out]

/-! ### The statements -/

/-- Settles O20: each kind of cell by the equation of what it does at the requester. -/
theorem requesterCells : Obligations.RequesterCells := by
  refine ⟨?response, ?unknown, ?ack, ?creditsA, ?creditsB, ?nak⟩
  case response =>
    intro c data lat d e q r hacc hget hrd htag
    rw [exec_rdRsp, run_eq, rdRsp_answers data lat hacc hget hrd htag]
  case unknown =>
    intro c data lat d e q hacc hget
    rw [exec_rdRsp, run_eq, rdRsp_of_unknown_tag data lat hacc hget]
  case ack =>
    rintro c lat d e _ q r hacc hget hwr hA hB hst hwait rfl
    rw [exec_wrAck, run_eq, wrAck_completes lat hacc hget hwr]
    simp only [hA, hB, hst, hwait, Bool.false_eq_true, false_and, and_false, if_false]
    rfl
  case creditsA =>
    intro c d e q hacc hring
    rw [crdRet_restores q hacc, hring]
    rfl
  case creditsB =>
    intro c d e q hacc hring
    rw [crdRet_restores q hacc, hring]
    rfl
  case nak =>
    intro c d e q r hacc hget hown hline
    rw [nak_holds q hacc hget hown hline]
    rfl

/-- Settles O53: a cell waits and leaves with the DevLoad it was made with, and the operations that follow an answer to the
host leave it sent. -/
theorem devLoadOfResponses : Obligations.DevLoadOfResponses := by
  refine ⟨?queued, ?sent, ?read, ?write⟩
  case queued =>
    intro ty dst tag line st b po pl d
    exact queueCell_waits ..
  case sent =>
    intro s n k d hnext hfits
    exact ⟨_, portSend_next hnext hfits⟩
  case read =>
    intro c data lat d e q r hacc hget hrd htag
    refine ⟨rdRsp c data lat d, exec_rdRsp c data lat _, ?_⟩
    rw [rdRsp_answers data lat hacc hget hrd htag, account_out]
  case write =>
    intro c lat d e q r hacc hget hwr htag
    refine ⟨wrAck c lat d, exec_wrAck c lat _, ?_⟩
    rw [wrAck_completes lat hacc hget hwr]
    simp only [snpAnswer_out, remoteRetryAll_out, account_out, toHost_tagged _ _ htag, emit_out, List.mem_cons_self]

end Sys2Proof.Machine
end

section
/-! Proofs of the statements on the node's stores: reset has them in order, and every step keeps them so. -/

namespace Sys2Proof.Machine

/-- Every command keeps the stores in order: each by the law of its family. -/
theorem keeps_exec (c : Instr) {s : State} (h : s.dev.Sound) : Keeps (exec c s) :=
  match c with
  | .cxlMemRead .. => keeps_execCxlMemRead h
  | .mapLineReadDone .. => keeps_execMapLineReadDone h
  | .mapLineRefetchDone .. => keeps_execMapLineRefetchDone h
  | .mapLineRecomputeDone .. => keeps_execMapLineRecomputeDone h
  | .cushionReadDone .. => keeps_execCushionReadDone h
  | .cushionMirrorRefetchDone .. => keeps_execCushionMirrorRefetchDone h
  | .mediaReadDone .. => keeps_execMediaReadDone h
  | .readRefetchDone .. => keeps_execReadRefetchDone h
  | .readRecomputeDone .. => keeps_execReadRecomputeDone h
  | .recomputeSecondPass .. => keeps_execRecomputeSecondPass h
  | .cxlMemWrite .. => keeps_execCxlMemWrite h
  | .memclnevct .. => keeps_execMemclnevct h
  | .creditReturn .. => keeps_execCreditReturn h
  | .dramWriteQueueIssue .. => keeps_execDramWriteQueueIssue h
  | .dramRefreshWindow .. => keeps_execDramRefreshWindow h
  | .sliceBoundary .. => keeps_execSliceBoundary h
  | .rdReq .. => keeps_execRdReq h
  | .rdRsp .. => keeps_execRdRsp h
  | .wrReq .. => keeps_execWrReq h
  | .wrAck .. => keeps_execWrAck h
  | .crdRet .. => keeps_execCrdRet h
  | .nak .. => keeps_execNak h
  | .cellForward .. => keeps_execCellForward h
  | .fecUncorrectable .. => keeps_execFecUncorrectable h
  | .requestRetry .. => keeps_execRequestRetry h
  | .ownerUnreachable .. => keeps_execOwnerUnreachable h
  | .writeTagExpiry .. => keeps_execWriteTagExpiry h
  | .task .. => keeps_execTask h
  | .credit .. => keeps_execCredit h
  | .abort .. => keeps_execAbort h
  | .result .. => keeps_execResult h
  | .taskEnd .. => keeps_execTaskEnd h
  | .snpQry .. => keeps_execSnpQry h
  | .snpDone .. => keeps_execSnpDone h
  | .winClaim .. => keeps_execWinClaim h
  | .winReply .. => keeps_execWinReply h
  | .winCommit .. => keeps_execWinCommit h
  | .winRelease .. => keeps_execWinRelease h
  | .table .. => keeps_execTable h
  | .spdmCell .. => keeps_execSpdmCell h
  | .epochKeyErase .. => keeps_execEpochKeyErase h
  | .echo .. => keeps_execEcho h
  | .mark .. => keeps_execMark h
  | .topo .. => keeps_execTopo h
  | .linkLossOfLock .. => keeps_execLinkLossOfLock h
  | .linkRetrainAttempt .. => keeps_execLinkRetrainAttempt h
  | .linkTrained .. => keeps_execLinkTrained h
  | .wrap _ _ side => keeps_execWrap (x16 := side) h
  | .unwrap .. => keeps_execUnwrap h
  | .leave .. => keeps_execLeave h
  | .present .. => keeps_execPresent h
  | .presentTimer .. => keeps_execPresentTimer h
  | .presentWindowClose .. => keeps_execPresentWindowClose h
  | .claim .. => keeps_execClaim h
  | .held .. => keeps_execHeld h
  | .spliceReq .. => keeps_execSpliceReq h
  | .spliceGo .. => keeps_execSpliceGo h
  | .spliceAbort .. => keeps_execSpliceAbort h
  | .spliceDone .. => keeps_execSpliceDone h
  | .spdmFrame .. => keeps_execSpdmFrame h
  | .heartbeat _ epoch => keeps_execHeartbeat (x12 := epoch) h
  | .heartbeatTimer .. => keeps_execHeartbeatTimer h
  | .rhizoidListenExpiry .. => keeps_execRhizoidListenExpiry h
  | .coldFormLinksUp .. => keeps_execColdFormLinksUp h
  | .spdmSessionEstablished .. => keeps_execSpdmSessionEstablished h
  | .portDrainEnd .. => keeps_execPortDrainEnd h
  | .plugPresence .. => keeps_execPlugPresence h
  | .mapUpdateApply .. => keeps_execMapUpdateApply h
  | .mapLapLate .. => keeps_execMapLapLate h
  | .laneOffer .. => keeps_execLaneOffer h
  | .pinLift .. => keeps_execPinLift h
  | .programWaveDone .. => keeps_execProgramWaveDone h
  | .resetDone .. => keeps_execResetDone h
  | .operationSuspended .. => keeps_execOperationSuspended h
  | .operationResume .. => keeps_execOperationResume h
  | .operationStall .. => keeps_execOperationStall h
  | .dieFailed .. => keeps_execDieFailed h
  | .verifyPassDone .. => keeps_execVerifyPassDone h
  | .slotDrainEnd .. => keeps_execSlotDrainEnd h
  | .genLimitRetry .. => keeps_execGenLimitRetry h
  | .periodStart .. => keeps_execPeriodStart h
  | .candidateRebucket .. => keeps_execCandidateRebucket h
  | .sentinelMeasurementDone .. => keeps_execSentinelMeasurementDone h
  | .patrolRowReadDone .. => keeps_execPatrolRowReadDone h
  | .patrolLapLate .. => keeps_execPatrolLapLate h
  | .patrolPositionSave .. => keeps_execPatrolPositionSave h
  | .patrolDrainEnd .. => keeps_execPatrolDrainEnd h
  | .scrubRead .. => keeps_execScrubRead h
  | .scrubLapLate .. => keeps_execScrubLapLate h
  | .rekeyHeaderReadDone .. => keeps_execRekeyHeaderReadDone h
  | .rekeyDone .. => keeps_execRekeyDone h
  | .rekeyBoundarySave .. => keeps_execRekeyBoundarySave h
  | .keyStoreRetry .. => keeps_execKeyStoreRetry h
  | .linkUp .. => keeps_execLinkUp h
  | .linkDown .. => keeps_execLinkDown h
  | .perstAsserted .. => keeps_execPerstAsserted h
  | .perstDeasserted .. => keeps_execPerstDeasserted h
  | .hotReset .. => keeps_execHotReset h
  | .cxlReset .. => keeps_execCxlReset h
  | .configRequest .. => keeps_execConfigRequest h
  | .doeCdatRead .. => keeps_execDoeCdatRead h
  | .doeSpdm .. => keeps_execDoeSpdm h
  | .ideKm .. => keeps_execIdeKm h
  | .gpfPhase1 .. => keeps_execGpfPhase1 h
  | .gpfPhase2 .. => keeps_execGpfPhase2 h
  | .bisnpSend .. => keeps_execBisnpSend h
  | .birsp .. => keeps_execBirsp h
  | .hdmDecoderCommit .. => keeps_execHdmDecoderCommit h
  | .hdmDecoderDecommit .. => keeps_execHdmDecoderDecommit h
  | .opeTqDbTail .. => keeps_execOpeTqDbTail h
  | .taskDecide .. => keeps_execTaskDecide h
  | .chunkStart .. => keeps_execChunkStart h
  | .chunkEnd .. => keeps_execChunkEnd h
  | .deadlineExpiry .. => keeps_execDeadlineExpiry h
  | .engineFaulted .. => keeps_execEngineFaulted h
  | .resultQueueStallEnd .. => keeps_execResultQueueStallEnd h
  | .unitDrainEnd .. => keeps_execUnitDrainEnd h
  | .cipherRequestStart .. => keeps_execCipherRequestStart h
  | .cipherRequestDone .. => keeps_execCipherRequestDone h
  | .cipherCoreDisabled .. => keeps_execCipherCoreDisabled h
  | .mbxProgressRefresh .. => keeps_execMbxProgressRefresh h
  | .mbxProgressRead .. => keeps_execMbxProgressRead h
  | .mbxCommandComplete .. => keeps_execMbxCommandComplete h
  | .identify .. => keeps_execIdentify h
  | .getEventRecords .. => keeps_execGetEventRecords h
  | .clearEventRecords .. => keeps_execClearEventRecords h
  | .getEventInterruptPolicy .. => keeps_execGetEventInterruptPolicy h
  | .setEventInterruptPolicy .. => keeps_execSetEventInterruptPolicy h
  | .getFwInfo .. => keeps_execGetFwInfo h
  | .transferFw .. => keeps_execTransferFw h
  | .activateFw .. => keeps_execActivateFw h
  | .getTimestamp .. => keeps_execGetTimestamp h
  | .setTimestamp .. => keeps_execSetTimestamp h
  | .getSupportedLogs .. => keeps_execGetSupportedLogs h
  | .getLog .. => keeps_execGetLog h
  | .identifyMemoryDevice .. => keeps_execIdentifyMemoryDevice h
  | .getHealthInfo .. => keeps_execGetHealthInfo h
  | .getAlertConfiguration .. => keeps_execGetAlertConfiguration h
  | .setAlertConfiguration .. => keeps_execSetAlertConfiguration h
  | .getPoisonList .. => keeps_execGetPoisonList h
  | .injectPoison .. => keeps_execInjectPoison h
  | .clearPoison .. => keeps_execClearPoison h
  | .getScanMediaCapabilities .. => keeps_execGetScanMediaCapabilities h
  | .scanMedia .. => keeps_execScanMedia h
  | .getScanMediaResults .. => keeps_execGetScanMediaResults h
  | .sanitize .. => keeps_execSanitize h
  | .secureErase .. => keeps_execSecureErase h
  | .getRingStatus .. => keeps_execGetRingStatus h
  | .setRingIndex .. => keeps_execSetRingIndex h
  | .ringGroupRekey .. => keeps_execRingGroupRekey h
  | .ringLeave .. => keeps_execRingLeave h
  | .ringRejoin .. => keeps_execRingRejoin h
  | .getEngineStatus .. => keeps_execGetEngineStatus h
  | .clearScratch .. => keeps_execClearScratch h
  | .openRange .. => keeps_execOpenRange h
  | .closeRange .. => keeps_execCloseRange h
  | .rekeyRange .. => keeps_execRekeyRange h
  | .setRangeAttr .. => keeps_execSetRangeAttr h
  | .cphKeyGenerate .. => keeps_execCphKeyGenerate h
  | .cphKeyImport .. => keeps_execCphKeyImport h
  | .cphKeyZeroize .. => keeps_execCphKeyZeroize h
  | .cphRequest .. => keeps_execCphRequest h
  | .cphKeyWrap .. => keeps_execCphKeyWrap h
  | .releaseRange .. => keeps_execReleaseRange h
  | .shedCapacity .. => keeps_execShedCapacity h
  | .clearWriteRefused .. => keeps_execClearWriteRefused h
  | .getMediaLife .. => keeps_execGetMediaLife h
  | .setMode .. => keeps_execSetMode h
  | .transitFailed .. => keeps_execTransitFailed h
  | .setPowerLimit .. => keeps_execSetPowerLimit h
  | .setThermalInput .. => keeps_execSetThermalInput h
  | .getPowerThermal .. => keeps_execGetPowerThermal h
  | .clearHalt .. => keeps_execClearHalt h
  | .energyStoreTest .. => keeps_execEnergyStoreTest h
  | .readLog .. => keeps_execReadLog h
  | .freezeLog .. => keeps_execFreezeLog h
  | .readProtected .. => keeps_execReadProtected h
  | .clearProtected .. => keeps_execClearProtected h
  | .readHistogram .. => keeps_execReadHistogram h
  | .pstRead .. => keeps_execPstRead h
  | .pstWrite .. => keeps_execPstWrite h
  | .pstSetPassword .. => keeps_execPstSetPassword h
  | .pstGetInfo .. => keeps_execPstGetInfo h
  | .getImageInfo .. => keeps_execGetImageInfo h
  | .readFlashLog .. => keeps_execReadFlashLog h
  | .setMinSecurityVersion .. => keeps_execSetMinSecurityVersion h
  | .identifyNode .. => keeps_execIdentifyNode h
  | .ledgerSnapshot .. => keeps_execLedgerSnapshot h
  | .memRead .. => keeps_execMemRead h
  | .lockstepMismatch .. => keeps_execLockstepMismatch h
  | .pstRowWriteDone .. => keeps_execPstRowWriteDone h
  | .flashEraseDone .. => keeps_execFlashEraseDone h
  | .flashEraseResume .. => keeps_execFlashEraseResume h
  | .flashPageProgramDone .. => keeps_execFlashPageProgramDone h
  | .eraseMarkerRetry .. => keeps_execEraseMarkerRetry h
  | .flashSupplyCrossing .. => keeps_execFlashSupplyCrossing h
  | .fwWpChange .. => keeps_execFwWpChange h
  | .recordAccept .. => keeps_execRecordAccept h
  | .flashLogTimer .. => keeps_execFlashLogTimer h
  | .freezeExpired .. => keeps_execFreezeExpired h
  | .histogramWindowEnd .. => keeps_execHistogramWindowEnd h
  | .compatWindowEnd .. => keeps_execCompatWindowEnd h
  | .registerWrite .. => keeps_execRegisterWrite h
  | .ldgCtlXtrmClr .. => keeps_execLdgCtlXtrmClr h
  | .ldgCtlOvrClr .. => keeps_execLdgCtlOvrClr h
  | .ldgBudBudget .. => keeps_execLdgBudBudget h
  | .mapCtlCntClr .. => keeps_execMapCtlCntClr h
  | .mapCtlCacheInval .. => keeps_execMapCtlCacheInval h
  | .mapPeekFrond .. => keeps_execMapPeekFrond h
  | .medRdCtlCntClr .. => keeps_execMedRdCtlCntClr h
  | .cshCtlCntClr .. => keeps_execCshCtlCntClr h
  | .medCtlCntClr .. => keeps_execMedCtlCntClr h
  | .medDiagCmdGo .. => keeps_execMedDiagCmdGo h
  | .medDiagDone .. => keeps_execMedDiagDone h
  | .stwCtlCntClr .. => keeps_execStwCtlCntClr h
  | .stwCtlPatrolEn .. => keeps_execStwCtlPatrolEn h
  | .secCtlCntClr .. => keeps_execSecCtlCntClr h
  | .hstCtlCntClr .. => keeps_execHstCtlCntClr h
  | .srnCtlCntClr .. => keeps_execSrnCtlCntClr h
  | .srnCtlPortEn .. => keeps_execSrnCtlPortEn h
  | .srnCtlGroupRekey .. => keeps_execSrnCtlGroupRekey h
  | .opeCtlCntClr .. => keeps_execOpeCtlCntClr h
  | .opeEngEn .. => keeps_execOpeEngEn h
  | .opeTqCtlEn .. => keeps_execOpeTqCtlEn h
  | .opeTqCtlAbort .. => keeps_execOpeTqCtlAbort h
  | .opeRqCfgEn .. => keeps_execOpeRqCfgEn h
  | .opeRqPtrRd .. => keeps_execOpeRqPtrRd h
  | .cphCtlCntClr .. => keeps_execCphCtlCntClr h
  | .mbxCtlCntClr .. => keeps_execMbxCtlCntClr h
  | .pstCtlCntClr .. => keeps_execPstCtlCntClr h
  | .bflCtlCntClr .. => keeps_execBflCtlCntClr h
  | .evrCtlCntClr .. => keeps_execEvrCtlCntClr h
  | .pwrCtlCntClr .. => keeps_execPwrCtlCntClr h
  | .thmCtlCntClr .. => keeps_execThmCtlCntClr h
  | .powerGood .. => keeps_execPowerGood h
  | .nodeResetDeasserted .. => keeps_execNodeResetDeasserted h
  | .recoveryDone .. => keeps_execRecoveryDone h
  | .dormantIdle .. => keeps_execDormantIdle h
  | .nodeResetAsserted .. => keeps_execNodeResetAsserted h
  | .powerFailDump .. => keeps_execPowerFailDump h
  | .dumpComplete .. => keeps_execDumpComplete h
  | .thermalModelStep .. => keeps_execThermalModelStep h
  | .powerLimitEvaluation .. => keeps_execPowerLimitEvaluation h
  | .monitorConversion .. => keeps_execMonitorConversion h
  | .monitorFailed .. => keeps_execMonitorFailed h
  | .supplyOutOfRange .. => keeps_execSupplyOutOfRange h
  | .v12Overvoltage .. => keeps_execV12Overvoltage h
  | .auxLow .. => keeps_execAuxLow h
  | .auxReset .. => keeps_execAuxReset h
  | .clockFault .. => keeps_execClockFault h
  | .bankCharged .. => keeps_execBankCharged h
  | .testDischargeStart .. => keeps_execTestDischargeStart h
  | .testDischargeMeasured .. => keeps_execTestDischargeMeasured h
  | .testDischargeTimeout .. => keeps_execTestDischargeTimeout h
  | .testDischargeRecharged .. => keeps_execTestDischargeRecharged h
  | .poweredHoursTick .. => keeps_execPoweredHoursTick h
  | .leaveHeld .. => keeps_execLeaveHeld h
  | .linkTrainingFailed .. => keeps_execLinkTrainingFailed h
  | .ringIndexWriteRetry .. => keeps_execRingIndexWriteRetry h
  | .spliceRequestAgain .. => keeps_execSpliceRequestAgain h
  | .winClaimReplyTimeout .. => keeps_execWinClaimReplyTimeout h
  | .spdmOverMctp .. => keeps_execSpdmOverMctp h
  | .auxRestored .. => keeps_execAuxRestored h
  | .entdaa .. => keeps_execEntdaa h
  | .biconflict .. => keeps_execBiconflict h

/-- A tick keeps the stores in order: so do the ring's part of it and the follow-up of a trip. -/
theorem sound_tick {s : State} (h : s.dev.Sound) : (tick s).dev.Sound :=
  sound_tripFollow (sound_linkTick h)

/-- A step keeps the stores in order: it is a tick or the command at the front of the queue. -/
theorem keeps_step {s : State} (h : s.dev.Sound) : Keeps (step s) := by
  obtain ⟨d, q⟩ := s
  cases q with
  | nil => intro t ht; cases ht; exact sound_tick h
  | cons c q => exact keeps_exec c h

/-- Settles O5: the reset state is written out in the model, its stores empty or short. -/
theorem resetIsSound : Obligations.ResetIsSound := by
  unfold Obligations.ResetIsSound Dev.Sound
  decide

/-- Settles O6, by the step's two cases. -/
theorem everyStepKeepsTheStores : Obligations.EveryStepKeepsTheStores :=
  fun _ t h => keeps_step h t

end Sys2Proof.Machine
end

section
/-! Proofs of the statements on the frond map's ways in and out: host requests up to their probe, the error sequence of a
map line, the updates of the map, and the offers of lanes. -/

namespace Sys2Proof.Machine

/-! ### A request from the host enters, or is refused (R21, R250, R257, R261) -/

section
variable {d : Dev} (hup : d.hst.up = true) (hdump : d.pwr.dumping = false) (hstop : d.pwr.stopping = false)
  (hmode : d.pwr.mode = .service) {rd wrq : Bool} {addr : Nat} {mv : Meta} {fx : ReqFx} {refuse : Dev → Dev}
  {go : Nat → List Nat → Dev → Dev} (hide : ideDrops fx d = false)

include hup hdump hstop hmode hide

/-- In Service a request that a decoder maps goes to its ring address with no cause, the snoop filter following it first
where the window is one of HDM-DB. -/
theorem hostEnter_mapped {n : Nat} {x : Dec} (hdec : decFind d addr = some (n, x)) (hsf : (x.bi && fx.sfBad) = false) :
    hostEnter rd wrq addr mv fx refuse go d =
      go (decWinBase d n + (addr - x.base)) []
        (if x.bi then sfAfter rd wrq mv (decWinBase d n + (addr - x.base)) d else d) := by
  have hbad : ¬(x.bi = true ∧ fx.sfBad = true) := by rw [← Bool.and_eq_true, hsf]; exact Bool.false_ne_true
  simp [hostEnter, hup, hdump, hstop, hide, hmode, hdec, hbad, Mode.serves, wakeCause]

/-- In Service a request that no decoder maps is refused as one without a decoder. -/
theorem hostEnter_unmapped (hdec : decFind d addr = none) :
    hostEnter rd wrq addr mv fx refuse go d = refuse (notServed 0 addr d) := by
  simp [hostEnter, hup, hdump, hstop, hide, hmode, hdec, Mode.serves]

end

/-- On a secure stream a request whose MAC passes is not dropped (R257). -/
theorem ideDrops_of_secure {fx : ReqFx} {d : Dev} (hfx : fx.ideBad = false) (hins : (tget d.hst.ide 0).insecure = false) :
    ideDrops fx d = false := by
  rw [ideDrops, hfx, hins, Bool.or_self]

/-- A read whose MAC passes starts like any (R257). -/
theorem hostRead_of_mac {tag addr : Nat} {mv : Meta} {fx : ReqFx} {lat : Lat} {d : Dev} (hfx : fx.ideBad = false) :
    hostRead tag addr mv fx lat d = readStart tag addr mv fx lat d := by
  simp [hostRead, hfx]

/-- A refusal in a second that has its record already is counted alone (R261). -/
theorem notServed_again {cause a : Nat} {d : Dev} (h : d.hst.refusedSec = d.time / 100000000 + 1) :
    notServed cause a d = { d with hst.cnt := bump d.hst.cnt 4 } := by
  unfold notServed postIf
  simp only [h, ne_eq, not_true_eq_false, decide_false, Bool.false_eq_true, if_false]

/-- A line in the snoop filter leaves it by its way (R253). -/
theorem sfDrop_found {a w : Nat} {st : SfSt} {d : Dev} (h : sfLook d a = some (w, st)) :
    sfDrop a d = { d with hst.sf := tmod d.hst.sf (sfSet a) fun s => { s with ways := tset s.ways w none } } := by
  simp only [sfDrop, h]

/-! ### A map line fails or passes (R66, R81) -/

/-- Which bytes of a map line fail does not depend on the bursts granted. -/
theorem mapFail_dramGrant (cls n m : Nat) (bad : BitVec 64) (d : Dev) :
    mapFail (dramGrant cls n d) m bad = mapFail d m bad := rfl

/-- Bytes that the DRAM read reports fail whatever else does. -/
theorem mapFail_ne_zero {m : Nat} {bad : BitVec 64} {d : Dev} (h : bad ≠ 0) : mapFail d m bad ≠ 0 := by
  intro h0
  obtain ⟨h1, -⟩ := BitVec.or_eq_zero_iff.mp h0
  exact h (BitVec.or_eq_zero_iff.mp h1).1

section
variable {d : Dev} {id : Nat} {r : Req} (hget : reqGet d id = some r) (hst : r.stage = .mapRead)
  (hfirst : probeBehind d r = false) {bad : BitVec 64} (lat : Lat)

include hget hst hfirst

/-- A clean read of a line that nothing holds fills the frond's way, and its request proceeds (R69). -/
theorem mapReadDone_clean (hok : mapFail d (mapLine r.frond) bad = 0) (hheld : lineHeld d r.frond = false) :
    mapReadDone id bad lat d = proceed r lat (cacheFill r.frond d) := by
  have hon : ¬(r.stage ≠ .mapRead ∨ probeBehind d r = true) := by simp [hst, hfirst]
  have hgo : ¬((0 : BitVec 64) &&& entMask r.frond ≠ 0 ∨ lineHeld d r.frond = true) := by simp [hheld]
  simp only [mapReadDone, hget, if_neg hon, hok, if_neg hgo, ne_eq, not_true_eq_false, if_false]

/-- A read in which the frond's own entry fails holds its request and starts the line's error sequence (R66, R81). -/
theorem mapReadDone_failed (hbad : mapFail d (mapLine r.frond) bad &&& entMask r.frond ≠ 0) :
    mapReadDone id bad lat d = reqPut { r with stage := .mapWait, causes := addCause 3 r.causes }
      (lineErr (mapLine r.frond) (mapFail d (mapLine r.frond) bad) d) := by
  have hne : mapFail d (mapLine r.frond) bad ≠ 0 := by
    intro h0
    rw [h0] at hbad
    exact hbad BitVec.zero_and
  have hon : ¬(r.stage ≠ .mapRead ∨ probeBehind d r = true) := by simp [hst, hfirst]
  simp only [mapReadDone, hget, if_neg hon, if_pos hne, if_pos (Or.inl hbad)]

end

/-- A clean refetch is counted and recorded, and releases its line (R81). -/
theorem mapRefetchDone_clean {m : Nat} {mask bad : BitVec 64} {d : Dev} (herr : tget d.map.err m = some (.refetch mask))
    (hok : mapFail d m bad = 0) :
    mapRefetchDone m bad d = lineRelease m (post 0x3020 1 m (mask.toNat % 2 ^ 32) (mask.toNat / 2 ^ 32) 0
      { dramGrant 0 1 d with map.cnt := bump d.map.cnt 4 }) := by
  have hok' : mapFail (dramGrant 0 1 d) m bad = 0 := (mapFail_dramGrant ..).trans hok
  simp only [mapRefetchDone, herr, if_pos hok']
  rfl

/-- A failed refetch is counted, and the line is recomputed while fewer than four are (R81). -/
theorem mapRefetchDone_failed {m : Nat} {mask bad : BitVec 64} {d : Dev} (herr : tget d.map.err m = some (.refetch mask))
    (hbad : mapFail d m bad ≠ 0) (hfew : recomputes d < 4) :
    mapRefetchDone m bad d = { dramGrant 0 1 d with
      map.cnt := bump d.map.cnt 3
      map.err := tset d.map.err m (some .recompute) } := by
  have hbad' : mapFail (dramGrant 0 1 d) m bad ≠ 0 := by rwa [mapFail_dramGrant]
  have hfew' : recomputes (dramGrant 0 1 d) < 4 := hfew
  simp only [mapRefetchDone, herr, if_neg hbad', if_pos hfew']
  rfl

/-! ### A line written anew (R68, R81) -/

/-- The entries after a line is written: those it gives, and every other as it was. -/
theorem lineWrite_get {d : Dev} (m : Nat) (fs : List Nat) (v : Nat → Entry) (seq : Nat) (h : twf d.map.ent = true) (g : Nat) :
    mapGet (lineWrite m (fs.map fun f => (f, v f)) seq d) g = if g ∈ fs then v g else mapGet d g := by
  obtain ⟨-, hget, -⟩ := mapPut_foldl fs v d h
  exact hget g

/-- Writing a line changes the map alone, and no line's error sequence. -/
theorem lineWrite_frame {d : Dev} (m : Nat) (fs : List Nat) (v : Nat → Entry) (seq : Nat) (h : twf d.map.ent = true) :
    ∃ mp : FMap, lineWrite m (fs.map fun f => (f, v f)) seq d = { d with map := mp } ∧ mp.err = d.map.err := by
  obtain ⟨-, -, mp, hmp, herr⟩ := mapPut_foldl fs v d h
  unfold lineWrite
  rw [hmp]
  exact ⟨_, rfl, herr⟩

/-- The entry that a frond has by the latest image, the journal and the directory (R81). -/
def recomputedEntry (d : Dev) (f : Nat) : Entry := withFlags d f (entryFrom (imgLatest d) (journal d) f)

/-- The state in which a recompute from the latest image releases its line: the line written, its LINE_SEQ counted on by the
journal's records of the line and by the flags that changed, the recompute counted and recorded (R68, R81). -/
def recomputed (m us : Nat) (d : Dev) : Dev :=
  let n := ((journal d).filter fun r => decide (mapLine r.frond = m) && decide ((imgLatest d).js ≤ r.jseq)).length
  let ents := (lineFronds m).map fun f => (f, recomputedEntry d f)
  let flags := (ents.filter fun x => decide (x.2 ≠ entryFrom (imgLatest d) (journal d) x.1)).length
  post 0x3021 2 m n us d.map.area
    (lineWrite m ents (tget (imgLatest d).seq m + n + flags) { d with map.cnt := bump d.map.cnt 5 })

/-- A recompute up to its release changes the map and the recorder alone, and no line's error sequence. -/
theorem recomputed_frame {d : Dev} (m us : Nat) (h : twf d.map.ent = true) :
    ∃ (mp : FMap) (e : Evr), recomputed m us d = { d with map := mp, evr := e } ∧ mp.err = d.map.err := by
  unfold recomputed
  extract_lets n ents flags
  obtain ⟨mp, hline, herr⟩ := lineWrite_frame (d := { d with map.cnt := bump d.map.cnt 5 }) m (lineFronds m)
    (recomputedEntry d) (tget (imgLatest d).seq m + n + flags) h
  rw [hline]
  exact Exists.elim post_eq fun e he => ⟨mp, e, he, herr⟩

/-- The entries after a recompute: its line's by image, journal and directory, every other as it was. -/
theorem recomputed_get {d : Dev} (m us : Nat) (h : twf d.map.ent = true) (f : Nat) :
    mapGet (recomputed m us d) f = if f ∈ lineFronds m then recomputedEntry d f else mapGet d f :=
  (congrArg (fun mp : FMap => tget mp.ent f) post_map).trans
    (lineWrite_get (d := { d with map.cnt := bump d.map.cnt 5 }) m (lineFronds m) (recomputedEntry d) _ h f)

/-- The end of a line's error sequence leaves every entry. -/
theorem lineRelease_get (m : Nat) (d : Dev) (f : Nat) : mapGet (lineRelease m d) f = mapGet d f := by
  obtain ⟨mp, rp, c, l, hrel, hent, -⟩ := lineRelease_frame m d
  unfold mapGet
  rw [hrel, hent]

/-- A recompute from the latest image, while no other line waits for one, writes its line and releases it. -/
theorem mapRecomputeDone_latest {d : Dev} {m : Nat} (us : Nat) (olderOk : Bool) (herr : tget d.map.err m = some .recompute)
    (hwf : twf d.map.ent = true)
    (hnone : ((tset d.map.err m none).find? fun x => decide (x.2 = some LineErr.waiting)) = none) :
    mapRecomputeDone m true olderOk us d = lineRelease m (recomputed m us d) := by
  have hfind : ((lineRelease m (recomputed m us d)).map.err.find? fun x => decide (x.2 = some LineErr.waiting)) = none := by
    obtain ⟨mp, e, hrec, hsame⟩ := recomputed_frame m us hwf
    obtain ⟨mp', rp, c, l, hrel, -, hend⟩ := lineRelease_frame m (recomputed m us d)
    rw [hrel, hend, hrec, hsame, hnone]
  have hsplit : mapRecomputeDone m true olderOk us d =
      match (lineRelease m (recomputed m us d)).map.err.find? fun x => x.2 = some .waiting with
      | some (m', _) => { lineRelease m (recomputed m us d) with
          map.err := tset (lineRelease m (recomputed m us d)).map.err m' (some .recompute) }
      | none => lineRelease m (recomputed m us d) := if_neg (not_not_intro herr)
  rw [hsplit, hfind]

/-! ### The updates of the map (R71–R76) -/

@[simp] theorem mapPut_err (f : Nat) (e : Entry) (d : Dev) : (mapPut f e d).map.err = d.map.err := by
  unfold mapPut; split <;> rfl
@[simp] theorem mapPut_limit (f : Nat) (e : Entry) (d : Dev) : (mapPut f e d).map.limit = d.map.limit := by
  unfold mapPut; split <;> rfl
@[simp] theorem mapPut_tail (f : Nat) (e : Entry) (d : Dev) : (mapPut f e d).map.tail = d.map.tail := by
  unfold mapPut; split <;> rfl
@[simp] theorem mapPut_updq (f : Nat) (e : Entry) (d : Dev) : (mapPut f e d).map.updq = d.map.updq := by
  unfold mapPut; split <;> rfl

/-- The entries after a journaled update: the new one, and every other as it was. -/
theorem mapJournal_get {f : Nat} {e : Entry} {d : Dev} (h : twf d.map.ent = true) (g : Nat) :
    mapGet (mapJournal f e d) g = if g = f then e else mapGet d g :=
  mapPut_get (d := jAppend f e d) h g

/-- With room in the tail the update at the front applies, out of the queue (R71, R75). -/
theorem mapUpdateApply_front {d : Dev} {i : Nat} {u : Upd} (hdump : d.pwr.dumping = false) (hfront : updFront d = some i)
    (hu : d.map.updq[i]? = some u) (hroom : tailRoom d = true) :
    mapUpdateApply d = admitEval (updApply u { d with map.updq := d.map.updq.eraseIdx i }) := by
  simp only [mapUpdateApply, hdump, hfront, hu, hroom, if_true, Bool.false_eq_true, if_false]

/-- With the tail full the update at the front waits, counted and recorded as it begins to (R76). -/
theorem mapUpdateApply_full {d : Dev} {i : Nat} {u : Upd} (hdump : d.pwr.dumping = false) (hfront : updFront d = some i)
    (hu : d.map.updq[i]? = some u) (hroom : tailRoom d = false) (hwait : u.waited = false) :
    mapUpdateApply d = post 0x3025 1 d.map.tail.length d.map.jseq 0 0 { d with
      map.updq := d.map.updq.set i { u with waited := true }
      map.cnt := bump d.map.cnt 7 } := by
  simp only [mapUpdateApply, hdump, hfront, hu, hroom, hwait, Bool.false_eq_true, if_false]

/-- Once a dump has begun nothing applies. -/
theorem mapUpdateApply_dumping {d : Dev} (h : d.pwr.dumping = true) : mapUpdateApply d = d := if_pos h

/-- The map after a row's update from the front of the queue: its record is the tail's last, its entry is written, the queue has
one less. -/
theorem mapUpdateApply_row {d : Dev} {i s : Nat} {p : Bool} {u : Upd} (hdump : d.pwr.dumping = false)
    (hfront : updFront d = some i) (hu : d.map.updq[i]? = some u) (hroom : tailRoom d = true) (hcond : condOk d u = true)
    (hop : u.op = .setRow s p ∨ u.op = .moveRow s p)
    (hwhy : u.why = .host ∨ u.why = .gc ∨ u.why = .wear ∨ u.why = .refresh ∨ u.why = .evacuate) :
    (mapUpdateApply d).map = (mapJournal u.frond (updEntry u.op (mapGet d u.frond))
      { d with map.updq := d.map.updq.eraseIdx i }).map := by
  rw [mapUpdateApply_front hdump hfront hu hroom, admitEval_map]
  exact updApply_map (d := { d with map.updq := d.map.updq.eraseIdx i }) hcond hop hwhy

/-! ### The offers of a lane (R165, R168, R178, R183) -/

/-- Consumers take turns in four groups. -/
theorem groupOf_lt (who : Consumer) : groupOf who < 4 := by
  unfold groupOf; split <;> decide

/-- The lane offered next, at its consumer's turn, carries what a consumer that takes it does, and the turn moves on. -/
theorem laneOffer_taken {lane : Nat} {who : Consumer} (ts : Trouble) {d : Dev} (hon : d.periodsOn = true)
    (hidle : (tget d.med.lanes lane).st = .idle) (hnext : laneNext d = some lane) (hturn : d.med.turn = groupOf who)
    (hpass : awaiting d lane < 2 ∨ ∃ n, who = .reset n) (htook : took d (offerTo lane who ts d) = true) :
    laneOffer lane who ts d = { offerTo lane who ts d with med.offered := lane, med.turn := (groupOf who + 1) % 4 } := by
  have hahead : ((List.range 4).map fun i => (d.med.turn + i) % 4).takeWhile (· ≠ groupOf who) = [] := by
    have hmod : (groupOf who + 0) % 4 = groupOf who := Nat.mod_eq_of_lt (groupOf_lt who)
    rw [hturn, List.range_succ_eq_map, List.map_cons, hmod]
    exact List.takeWhile_cons_of_neg (by simp)
  have hst : (tget d.med.lanes lane).st ≠ .resetting := by rw [hidle]; decide
  have hoffer : laneOffer lane who ts d = offerStep lane (groupOf who) d (offerTo lane who ts d) := by
    unfold laneOffer
    simp only [hon, hahead, hnext, decide_eq_false hst, Bool.and_false, Bool.false_and, Bool.not_true, Bool.false_eq_true,
      if_false, List.any_nil]
    rcases hpass with hfew | ⟨n, rfl⟩
    · simp [Nat.not_le.mpr hfew]
    · simp
  exact hoffer.trans (if_pos htook)

/-- A reset offered to a Resetting lane is a further wave of it. -/
theorem laneOffer_resetting {lane nsb : Nat} (ts : Trouble) {d : Dev} (hon : d.periodsOn = true)
    (hst : (tget d.med.lanes lane).st = .resetting) (hro : readOnlyLane d lane = false) :
    laneOffer lane (.reset nsb) ts d = offerReset lane nsb d := by
  simp [laneOffer, hon, hst, hro, offerTo]

/-- A lane that is neither next nor Resetting is offered to no one. -/
theorem laneOffer_passed {lane : Nat} (who : Consumer) (ts : Trouble) {d : Dev} (hnext : laneNext d ≠ some lane)
    (hst : (tget d.med.lanes lane).st ≠ .resetting) : laneOffer lane who ts d = d := by
  simp [laneOffer, hnext, hst]

/-- A reset that starts is paid for by what its lane has left (R178). -/
theorem offerReset_starts {lane nsb k : Nat} {d : Dev}
    (hpay : payer d (if sporeCount d lane < 2 then [23, 27] else [27]) none lane = some k) (hlane : nsb / 1344 = lane)
    (hwait : (tget d.med.sb nsb).waited = false) (hstart : d.med.ops.length < (resetStart nsb d).med.ops.length) :
    offerReset lane nsb d = pay k lane true (resetStart nsb d) := by
  have hgo : ¬(nsb / 1344 ≠ lane ∨ (tget d.med.sb nsb).waited = true) := by simp [hlane, hwait]
  simp only [offerReset, hpay, if_neg hgo, if_pos (Or.inl hstart)]

/-- With 8,192 records in the tail the journal's set takes them in 32 rows (R76). -/
theorem offerJournal_full {lane k key : Nat} {d e : Dev} (hpay : payer d [21] none lane = some k)
    (htail : 8192 ≤ d.map.tail.length) (hver : verOk d = true) (hmax : d.map.mediaJ.length + 8192 ≤ journalMax)
    (hopen : metaOpen .journal lane d = (some key, e)) :
    offerJournal lane d = metaSet lane key .journal 8192 ((List.range 32).map fun i =>
      ((((((e.map.tail.take 8192).drop (256 * i)).take 256).head?.map (·.jseq)).getD 0) % 2 ^ 32,
        linesOfBytes ((((e.map.tail.take 8192).drop (256 * i)).take 256).flatMap JRec.bytes))) (pay k lane false e) := by
  have hn : min 8192 d.map.tail.length = 8192 := Nat.min_eq_left htail
  have hroom : ¬journalMax < d.map.mediaJ.length + 8192 := Nat.not_lt.mpr hmax
  simp [offerJournal, hpay, hn, hver, hopen, hroom]

/-! ### The commands -/

theorem exec_cxlMemRead (tag addr : Nat) (mv : Meta) (fx : ReqFx) (lat : Lat) (s : State) :
    exec (.cxlMemRead tag addr mv fx lat) s = run (hostRead tag addr mv fx lat) s := rfl
theorem exec_cxlMemWrite (tag addr : Nat) (mv : Meta) (data : Line) (be : BitVec 64) (poison : Bool) (fx : ReqFx) (lat : Lat)
    (s : State) :
    exec (.cxlMemWrite tag addr mv data be poison fx lat) s = run (hostWrite tag addr mv ⟨data, be, poison⟩ fx lat) s := rfl
theorem exec_memclnevct (tag addr : Nat) (mv : Meta) (sfBad : Bool) (s : State) :
    exec (.memclnevct tag addr mv sfBad) s =
      run (hostEnter false false addr mv ⟨sfBad, false, false, false, none⟩ (ndrHost tag) fun _ _ d => ndrHost tag d) s := rfl
theorem exec_mapLineReadDone (id : Nat) (bad : BitVec 64) (lat : Lat) (s : State) :
    exec (.mapLineReadDone id bad lat) s = run (mapReadDone id bad lat) s := rfl
theorem exec_mapLineRefetchDone (m : Nat) (bad : BitVec 64) (s : State) :
    exec (.mapLineRefetchDone m bad) s = run (mapRefetchDone m bad) s := rfl
theorem exec_mapLineRecomputeDone (m : Nat) (latestOk olderOk : Bool) (us : Nat) (s : State) :
    exec (.mapLineRecomputeDone m latestOk olderOk us) s = run (mapRecomputeDone m latestOk olderOk us) s := rfl
theorem exec_mapUpdateApply (s : State) : exec .mapUpdateApply s = run mapUpdateApply s := rfl
theorem exec_mapLapLate (s : State) : exec .mapLapLate s = execMapLapLate s := rfl
theorem exec_laneOffer (lane : Nat) (who : Consumer) (ts : Trouble) (s : State) :
    exec (.laneOffer lane who ts) s = run (laneOffer lane who ts) s := rfl

/-! ### The statements -/

/-- Settles O11: each request by the way it enters; a probe that misses awaits its map line. -/
theorem hostRequestsEnter : Obligations.HostRequestsEnter := by
  refine ⟨?read, ?write, ?clean, ?unmapped⟩
  case read =>
    intro d q tag addr n a mv fx lat x hup hdump hstop hfx hins hmode hdec hbi hdir hway ha hidx hlim hset hslot hheld hform href
    subst ha
    rw [exec_cxlMemRead, run_eq, hostRead_of_mac hfx, readStart,
      hostEnter_mapped hup hdump hstop hmode (ideDrops_of_secure hfx hins) hdec (by rw [hbi]; rfl)]
    simp only [hbi, Bool.false_eq_true, if_false, if_pos hidx]
    rw [enterProbe_miss]
    case h5 => exact Or.inr hslot
    exacts [rfl, rfl, hdir, hway, hlim, hset, hheld, hform, href]
  case write =>
    intro d q tag addr n a mv data be poison fx lat x hup hdump hstop hfx hins hmode hdec hbi hdir hway ha hidx hlim hset hheld
      hform href
    subst ha
    rw [exec_cxlMemWrite, run_eq, hostWrite,
      hostEnter_mapped hup hdump hstop hmode (ideDrops_of_secure hfx hins) hdec (by rw [hbi]; rfl)]
    simp only [hbi, Bool.false_eq_true, if_false, if_pos hidx]
    rw [enterProbe_miss]
    case h5 => exact Or.inl rfl
    exacts [rfl, rfl, hdir, hway, hlim, hset, hheld, hform, href]
  case clean =>
    intro d q tag addr n a w st x hup hdump hstop hins hmode hdec hbi ha hlook htag
    subst ha
    rw [exec_memclnevct, run_eq,
      hostEnter_mapped hup hdump hstop hmode (ideDrops_of_secure rfl hins) hdec (Bool.and_false _), if_pos hbi, sfAfter,
      sfDrop_found hlook, ndrHost, toHost_tagged _ _ htag]
    rfl
  case unmapped =>
    intro d q tag addr mv fx lat hup hdump hstop hfx hins hmode hdec htag hsec
    rw [exec_cxlMemRead, run_eq, hostRead_of_mac hfx, readStart,
      hostEnter_unmapped hup hdump hstop hmode (ideDrops_of_secure hfx hins) hdec, hfx, notServed_again hsec]
    simp only [Bool.false_eq_true, if_false, poisonHost, toHost_tagged _ _ htag]
    rfl

/-- Settles O12: each return of a map line by the equation of its case. -/
theorem mapLineSequence : Obligations.MapLineSequence := by
  refine ⟨?clean, ?failed, ?refetched, ?refetchFailed⟩
  case clean =>
    intro d q id lat r hget hst hfirst hok hheld
    rw [exec_mapLineReadDone, run_eq, mapReadDone_clean hget hst hfirst lat hok hheld]
    rfl
  case failed =>
    intro d q id bad lat r hget hst hfirst hbad
    rw [exec_mapLineReadDone, run_eq, mapReadDone_failed hget hst hfirst lat hbad]
  case refetched =>
    intro d q m mask herr hok
    rw [exec_mapLineRefetchDone, run_eq, mapRefetchDone_clean herr hok]
  case refetchFailed =>
    intro d q m mask bad herr hbad hfew
    rw [exec_mapLineRefetchDone, run_eq, mapRefetchDone_failed herr (mapFail_ne_zero hbad) hfew]

/-- Settles O13: the line is written before its release, which changes no entry. -/
theorem mapLineRecomputed : Obligations.MapLineRecomputed := by
  intro d q m us olderOk hwf herr hnone
  obtain ⟨mp, e, hrec, hsame⟩ := recomputed_frame m us hwf
  obtain ⟨mp', rp, c, l, hrel, -, hend⟩ := lineRelease_frame m (recomputed m us d)
  refine ⟨lineRelease m (recomputed m us d), ?_, fun f hf => ?_, fun f hf => ?_, ?_, ?_, ?_, ?_⟩
  · rw [exec_mapLineRecomputeDone, run_eq, mapRecomputeDone_latest us olderOk herr hwf hnone]
  · rw [lineRelease_get, recomputed_get m us hwf, if_pos hf, recomputedEntry]
  · rw [lineRelease_get, recomputed_get m us hwf, if_neg hf]
  · rw [hrel, hend, hrec, hsame]
  all_goals rw [hrel, hrec]

/-- Settles O28: the map after a row's update is that of its journaled write; the other rows are one case of the command. -/
theorem mapUpdateApplied : Obligations.MapUpdateApplied := by
  refine ⟨?applies, ?waits, ?dumping, ?late⟩
  case applies =>
    intro d q i s p u hdump hwf hfront hu hroom hcond hop hwhy
    have hmap := mapUpdateApply_row hdump hfront hu hroom hcond hop hwhy
    have hget (g : Nat) : mapGet (mapUpdateApply d) g =
        if g = u.frond then updEntry u.op (mapGet d u.frond) else mapGet d g :=
      (congrArg (fun mp : FMap => tget mp.ent g) hmap).trans
        (mapJournal_get (d := { d with map.updq := d.map.updq.eraseIdx i }) hwf g)
    refine ⟨mapUpdateApply d, exec_mapUpdateApply _, ?_, fun g hg => ?_, ?_, ?_, ?_, ?_⟩
    · rw [hget, if_pos rfl]
    · rw [hget, if_neg hg]
    all_goals
      rw [hmap]
      simp [mapJournal, jAppend]
  case waits =>
    intro d q i u hdump hfront hu hroom hwait
    rw [exec_mapUpdateApply, run_eq, mapUpdateApply_full hdump hfront hu hroom hwait]
  case dumping =>
    intro d q hdump
    rw [exec_mapUpdateApply, run_eq, mapUpdateApply_dumping hdump]
  case late =>
    intro d q l hlap hlate
    simp only [exec_mapLapLate, execMapLapLate, run_eq, hlap, hlate, Bool.false_eq_true, if_false]

/-- Settles O29: each offer by the equation of its case. -/
theorem laneOffers : Obligations.LaneOffers := by
  refine ⟨?turn, ?journal, ?reset, ?passed⟩
  case turn =>
    intro lane who ts d e q hon hidle hnext hturn hpass he htook
    subst he
    rw [exec_laneOffer, run_eq, laneOffer_taken ts hon hidle hnext hturn hpass htook]
  case journal =>
    intro lane k key ts d e hpay htail hver hmax hopen
    exact offerJournal_full hpay htail hver hmax hopen
  case reset =>
    intro lane nsb k ts d e q hon hst hro hpay hlane hwait he hstart
    subst he
    rw [exec_laneOffer, run_eq, laneOffer_resetting ts hon hst hro, offerReset_starts hpay hlane hwait hstart]
    rfl
  case passed =>
    intro lane who ts d q hnext hst
    rw [exec_laneOffer, run_eq, laneOffer_passed who ts hnext hst]

end Sys2Proof.Machine
end

section
/-! Proofs of the statements on the read path: reads of the cushion's copy and of the media with their error sequences, the ends
of a lane's operations, and the cushion's own ends. -/

namespace Sys2Proof.Machine

/-! ### The cushion's copy (R101, R103) -/

/-- A full line's read that has no media part to wait for is answered. -/
theorem cushionPart_answered {r : Req} (lat : Lat) (d : Dev) (h : r.stage = .cushion ∨ r.stage = .mirror) :
    cushionPart r false lat d = finishRead { r with cu := 0 } (snapPlain r d) false lat d := by
  simp only [cushionPart, if_pos h, Bool.or_false]
  rfl

section
variable {d : Dev} {id : Nat} {bad : BitVec 64} {r : Req} (hget : reqGet d id = some r) (hcu : r.cu = 1)
  (hfull : r.snap.st = .full) (lat : Lat)

include hget hcu hfull

/-- A first read of a full line in which no byte fails ends the cushion part well. -/
theorem cushionReadDone_clean (hok : bad ||| chkFail r.snap.data r.snap.chk = 0) :
    cushionReadDone id bad false lat d = cushionPart r false lat d := by
  simp [cushionReadDone, hget, hcu, hfull, hok]

/-- A first read of a full line in which bytes fail goes to the other mirror. -/
theorem cushionReadDone_failed (hbad : bad ||| chkFail r.snap.data r.snap.chk ≠ 0) :
    cushionReadDone id bad false lat d =
      reqPut (mirrorPlan r (bad ||| chkFail r.snap.data r.snap.chk) d).1
        (mirrorPlan r (bad ||| chkFail r.snap.data r.snap.chk) d).2 := by
  simp only [cushionReadDone, hget, hcu, hfull, if_neg hbad, ne_eq, not_true_eq_false, reduceCtorEq, Bool.false_eq_true,
    false_and, if_false]

end

/-- The request that reads the other mirror, no media part with it. -/
theorem mirrorPlan_alone {r : Req} (bad : BitVec 64) (d : Dev) (h : r.stage = .cushion) :
    mirrorPlan r bad d = ({ r with cu := 2, cuBad := bad, mirror := 1 - r.mirror, causes := addCause 1 r.causes,
                                   stage := .mirror }, dramGrant r.grantCls 1 d) := by
  rw [mirrorPlan, if_pos h]

/-- The state in which mirrors that fail in different bytes give the line: counted and recorded. -/
def mirrorRebuilt (r : Req) (d : Dev) : Dev :=
  post 0x4040 1 r.frond r.packed (r.cuBad.toNat % 2 ^ 32) (r.cuBad.toNat / 2 ^ 32) { d with rp.cnt := bump d.rp.cnt 12 }

/-- The count and the record leave what the copy deciphers to. -/
theorem snapPlain_mirrorRebuilt (r : Req) (d : Dev) : snapPlain r (mirrorRebuilt r d) = snapPlain r d := by
  have hsec : (mirrorRebuilt r d).sec = d.sec := post_sec
  simp only [snapPlain, cushStream, hsec]

/-- Where no byte fails in both mirrors, the other's read ends the cushion part well. -/
theorem cushionMirrorDone_rebuilt {d : Dev} {id : Nat} {bad : BitVec 64} {r : Req} (lat : Lat) (hget : reqGet d id = some r)
    (hcu : r.cu = 2) (hboth : r.cuBad &&& (bad ||| chkFail r.snap.data r.snap.chk) = 0) :
    cushionMirrorDone id bad lat d = cushionPart r false lat (mirrorRebuilt r d) := by
  simp only [cushionMirrorDone, hget, hcu, mirrorCheck, if_pos hboth, ne_eq, not_true_eq_false, if_false]
  rfl

/-! ### The checks of a media read (R94, R106) -/

/-- A plain read whose parts and line checks pass has passed. -/
theorem firstCheck_passed {r : Req} {bad : BitVec 20} {d : Dev} (hplain : r.around = false) (hparts : bad &&& r.src = 0)
    (hline : lineOk d r false = true) : firstCheck r bad false d = (true, 0, r, d) := by
  simp [firstCheck, hplain, hparts, hline]

/-- A plain read with a failed part has failed there. -/
theorem firstCheck_failed {r : Req} {bad : BitVec 20} (lineBad : Bool) (d : Dev) (hplain : r.around = false)
    (hparts : bad &&& r.src ≠ 0) : firstCheck r bad lineBad d = (false, bad &&& r.src, r, d) := by
  simp only [firstCheck, hplain, Bool.false_eq_true, if_false, if_pos hparts]

/-- A plain read is read again at the next step while its plane is free. -/
theorem refetchPlan_free {r : Req} (failed : BitVec 20) {d : Dev} (hplain : r.around = false)
    (hfree : (busyMask d (slotLane r.entry.slot)).getLsbD (posOf (slotRow r.entry.slot) (lineSect r.line)) = false) :
    refetchPlan r failed d = (some { r with stage := .refetch, failed, causes := addCause 1 r.causes, next := r.src },
      mediaGrant r.grantCls (popBits r.src 20) { d with rp.cnt := bump d.rp.cnt 6 }) := by
  have hplain' : Req.around { r with stage := .refetch, failed, causes := addCause 1 r.causes } = false := hplain
  simp only [refetchPlan, hplain', hfree, Bool.not_false, Bool.false_eq_true, if_true, if_false]
  rfl

/-- The state in which a refetch that passed delivers its line: counted, its measurements called, recorded. -/
def refetched (r : Req) (d : Dev) : Dev :=
  post 0x5040 1 r.frond r.packed (r.failed.toNat + refetchStep r d * 2 ^ 24) 0
    (readLast r 1 (overdueAdd r.entry.slot (if r.next = 0 then r.src else r.next) { d with rp.cnt := bump d.rp.cnt 7 }))

/-- A plain refetch whose parts and line checks pass has passed. -/
theorem refetchCheck_passed {r : Req} {bad : BitVec 20} {d : Dev} (hplain : r.around = false) (hparts : bad &&& r.src = 0)
    (hline : lineOk d r false = true) :
    refetchCheck r bad false d = (true, { r with failed := 0 }, refetched r d) := by
  have hline' : lineOk d { r with failed := 0 } false = true := hline
  simp only [refetchCheck, hplain, hparts, hline', decide_true, Bool.and_self, Bool.false_eq_true, if_true, if_false]
  rfl

/-! ### The passes of a recompute (R107, R108) -/

/-- How many parts a recompute pass lacks: not read, or failed. -/
def missingParts (r : Req) (bad : BitVec 20) : Nat := popBits (~~~ r.src ||| badData r bad) 20

/-- The state in which a decoded pass delivers its line: counted, the frond listed for rescue, recorded with the pass. -/
def recomputeServed (r : Req) (bad : BitVec 20) (errs us pass : Nat) (d : Dev) : Dev :=
  post 0x5041 2 r.frond r.packed (errs % 16 + missingParts r bad % 16 * 16 + pass) us
    (readLast r 2 (rescueAdd r.frond .recomputed { d with rp.cnt := bump d.rp.cnt 9 }))

/-- A pass that decodes to a good line serves it. -/
theorem recomputeCheck_served {r : Req} {bad : BitVec 20} {errs : Nat} (us : Nat) {d : Dev}
    (hdec : rsOk errs (missingParts r bad) = true) (hline : lineOk d { r with failed := badData r bad } false = true) :
    recomputeCheck r bad errs false us d = (true, { r with failed := badData r bad },
      recomputeServed r bad errs us ((if r.stage = .second then 2 else 1) * 256) d) := by
  rw [missingParts] at hdec
  simp only [recomputeCheck, hdec, hline, Bool.and_self, if_true]
  rfl

/-- More than two symbol errors are past the code's distance, whatever is missing. -/
theorem rsOk_of_errors {errs : Nat} (f : Nat) (h : 4 < 2 * errs) : rsOk errs f = false :=
  decide_eq_false (by omega)

/-- A pass with too many errors serves nothing and changes nothing but what the request knows to have failed. -/
theorem recomputeCheck_undecoded (r : Req) (bad : BitVec 20) {errs : Nat} (lineBad : Bool) (us : Nat) (d : Dev)
    (h : 4 < 2 * errs) : recomputeCheck r bad errs lineBad us d = (false, { r with failed := badData r bad }, d) := by
  simp [recomputeCheck, rsOk_of_errors _ h]

section
variable {d : Dev} {id : Nat} {r : Req} {st : Stage} {bad : BitVec 20} {errs : Nat} (us : Nat) (lat : Lat)
  (hget : reqGet d id = some r) (hst : r.stage = st)
  (hfree : st = .second → r.busyAt &&& busyMask d (slotLane r.entry.slot) = 0)

include hst hfree

/-- A pass that comes in its stage, the positions it waited for free, is not put off. -/
theorem pass_not_putOff : ¬(r.stage ≠ st ∨ (st = .second ∧ r.busyAt &&& busyMask d (slotLane r.entry.slot) ≠ 0)) := by
  rintro (hne | ⟨hsecond, hbusy⟩)
  · exact hne hst
  · exact hbusy (hfree hsecond)

include hget

/-- A pass that decodes to a good line delivers it. -/
theorem recomputeDone_served (hdec : rsOk errs (missingParts r bad) = true)
    (hline : lineOk d { r with failed := badData r bad } false = true) :
    let t := recomputeServed r bad errs us ((if st = .second then 2 else 1) * 256) d
    recomputeDone id st bad errs false us lat d = mediaPart { r with failed := badData r bad }
      (mediaLine { r with failed := badData r bad } t) lat t := by
  subst hst
  simp only [recomputeDone, hget, if_neg (pass_not_putOff rfl hfree), recomputeCheck_served us hdec hline]

/-- A pass with too many errors waits for the second, where one is due, and else poisons the line. -/
theorem recomputeDone_undecoded (lineBad : Bool) (h : 4 < 2 * errs) :
    recomputeDone id st bad errs lineBad us lat d =
      if secondDue { r with failed := badData r bad } d then reqPut (secondPlan { r with failed := badData r bad } d) d
      else mediaPart { r with failed := badData r bad } (0, true) lat (poisonLine { r with failed := badData r bad } us d) := by
  simp only [recomputeDone, hget, if_neg (pass_not_putOff hst hfree), recomputeCheck_undecoded r bad lineBad us d h]

end

/-- A second pass is due of a first that left positions of dies in order unread. -/
theorem secondDue_of_unread {r : Req} {d : Dev} (hst : r.stage = .recompute)
    (hunread : r.src ||| deadMask d (slotLane r.entry.slot) ≠ BitVec.allOnes 20) : secondDue r d = true := by
  rw [secondDue, hst, decide_eq_true hunread]
  rfl

/-- No third pass follows a second. -/
theorem secondDue_of_second {r : Req} (d : Dev) (hst : r.stage = .second) : secondDue r d = false := by
  rw [secondDue, hst]
  rfl

/-! ### Waves and resets that end (R159, R166, R167) -/

/-- An operation that ends well changes its die's count alone: every set stays. -/
theorem dieGood_foldl_sets (lane : Nat) (ps : List Nat) (d : Dev) :
    (ps.foldl (fun d p => dieGood (laneDie lane p) d) d).med.sets = d.med.sets := by
  induction ps generalizing d with
  | nil => rfl
  | cons p ps ih => exact ih _

/-- The positions that a lane's wave programs. -/
def waveEnds (lane : Nat) (d : Dev) : List Nat := (d.med.ops.filter fun o => o.lane = lane && !o.reset).map (·.pos)

/-- The state in which every program of a lane's wave has passed verify: its operations over, its pages on media. -/
def wavePassed (lane : Nat) (st : PSet) (d : Dev) : Dev :=
  pagesVerified st (waveEnds lane d) ((waveEnds lane d).foldl (fun d p => dieGood (laneDie lane p) d)
    { d with med.ops := d.med.ops.filter fun o => !(o.lane = lane && !o.reset) })

/-- A wave that ends well verifies its set when it is the fifth, and else the next starts. -/
theorem programWaveDone_passed {lane : Nat} {d : Dev} {st : PSet} (hset : d.med.sets.find? (·.lane = lane) = some st)
    (hops : (d.med.ops.filter fun o => o.lane = lane && !o.reset) ≠ []) :
    programWaveDone lane 0 d = if 4 ≤ st.wave then setVerified { st with wave := 5 } (wavePassed lane st d)
      else waveStart lane { wavePassed lane st d with
        med.sets := updWhere (wavePassed lane st d).med.sets (·.lane = lane) fun s => { s with wave := s.wave + 1 } } := by
  have hends : (waveEnds lane d).isEmpty = false := by
    rw [waveEnds, List.isEmpty_map]
    exact List.isEmpty_eq_false_iff.mpr hops
  have hbad : (waveEnds lane d).filter (fun p => (0 : BitVec 20).getLsbD p) = [] := by simp
  have hgood : (waveEnds lane d).filter (fun p => !(0 : BitVec 20).getLsbD p) = waveEnds lane d := by simp
  unfold waveEnds at hends hbad hgood
  simp only [programWaveDone, hends, hbad, hgood, dieGood_foldl_sets, hset, List.isEmpty_nil, Bool.not_true,
    Bool.false_eq_true, if_false]
  rfl

/-- A plane-block's good reset counts a cycle and clears its step (R159). -/
theorem resetDone_good {lane pos k : Nat} {d : Dev} {o : Op}
    (hop : (d.med.ops.find? fun o => o.lane = lane && o.pos = pos && o.reset) = some o)
    (hk : k = serving d.med lane (o.nsb % 1344) pos) :
    resetDone lane pos true d = laneIdle lane (resetEnd o.nsb (blogAdd 1 (laneDie lane pos) (lane % 4) (k % 1344)
      (min 16777215 ((tget d.med.pb k).cycles + 1)) (dieGood (laneDie lane pos) { d with
        med.ops := d.med.ops.filter fun o => !(o.lane = lane && o.pos = pos)
        med.pb := tset d.med.pb k { tget d.med.pb k with
          cycles := min 16777215 ((tget d.med.pb k).cycles + 1), step := 0 } }))) := by
  subst hk
  simp only [resetDone, hop, if_true]

/-! ### Suspension (R170) -/

section
variable {lane pos : Nat} {d : Dev} {o : Op} (hop : opAt d lane pos = some o)

include hop

/-- An operation that runs, was never resumed and is not awaited is suspended. -/
theorem opSuspend_granted (hstall : o.stalled = false) (hsusp : o.suspended = false) (hres : o.resumeT = none)
    (hawait : awaited d lane pos = false) :
    opSuspend lane pos d = opMod lane pos (fun o => { o with suspended := true, suspT := d.time })
      { d with med.cnt := bump d.med.cnt 5 } := by
  simp [opSuspend, hop, hstall, hsusp, hawait, tooSoon, hres]

/-- A suspended operation resumes while the suspended time adds up to no more than its limit. -/
theorem execOperationResume_within {us : Nat} (q : List Instr) (hsusp : o.suspended = true)
    (hlim : o.suspUs + us ≤ if o.reset = true then d.med.rStallNow * 1000 else d.med.pStallNow) :
    execOperationResume lane pos us ⟨d, q⟩ = .next ⟨opMod lane pos (fun x =>
      { x with suspended := false, suspUs := o.suspUs + us, resumeT := some d.time }) d, q⟩ := by
  rw [execOperationResume, run_eq]
  simp only [hop, hsusp, Bool.not_true, Bool.false_eq_true, if_false]
  exact congrArg (fun t => (.next ⟨t, q⟩ : Ans)) (if_neg (Nat.not_lt.mpr hlim))

/-- A reset is stalled, counted and recorded under its own sorus-block. -/
theorem opStall_reset (us : Nat) (hstall : o.stalled = false) (hreset : o.reset = true) :
    opStall lane pos us d = post 0x5003 1 (laneDie lane pos) (lane % 4)
      (serving d.med lane (o.nsb % 1344) pos % 1344) (us / 1000)
      { opMod lane pos (fun o => { o with stalled := true, suspended := false, suspUs := us }) d with
        med.cnt := bump d.med.cnt 6 } := by
  simp only [opStall, hop, hstall, hreset, Bool.false_eq_true, if_false, if_true]
  split <;> rfl

end

/-! ### Dies and verify passes (R169, R172) -/

/-- A die that fails: kept and recorded, its operations end, its four lanes close. -/
theorem dieFail_fresh {k : Nat} (ops : Nat) {d : Dev} (hok : (tget d.med.dies k).failed = false) :
    let e := post 0x500A 3 k ops 0 0
      (dieKeep k { tget d.med.dies k with failed := true, ops := max ops (tget d.med.dies k).ops } d)
    dieFail k ops d = ((List.range 4).map fun q => (planeAt k q).1).foldl (fun d l => laneClose l d) { e with
      med.ops := e.med.ops.filter fun o =>
        !(((List.range 4).map fun q => (planeAt k q).1).contains o.lane && o.pos = (planeAt k 0).2) } := by
  simp only [dieFail, hok, Bool.false_eq_true, if_false]

/-- A clean pass in its turn, others of the sorus-block left, is counted and noted. -/
theorem verifyPassDone_clean {nsb pos : Nat} {d : Dev} (hon : d.periodsOn = true) (hfull : (tget d.med.sb nsb).st = .full)
    (hpos : pos ∈ (tget d.med.sb nsb).passLeft) (hleft : (tget d.med.sb nsb).passLeft.filter (· ≠ pos) ≠ [])
    (hturn : passFirst d = [] ∨ nsb ∈ passFirst d) :
    verifyPassDone nsb pos [] [] d =
      sbMod nsb (fun b => { b with passLeft := (tget d.med.sb nsb).passLeft.filter (· ≠ pos) })
        (mediaGrant 2 (32 * (tget d.med.sb nsb).page) { d with
          med.cnt := bump d.med.cnt 8
          stw.plan.passQ := d.stw.plan.passQ - 1 }) := by
  have hgo : ¬((!d.periodsOn) = true ∨ (tget d.med.sb nsb).st ≠ .full ∨ pos ∉ (tget d.med.sb nsb).passLeft ∨
      ((!(passFirst d).isEmpty) = true ∧ nsb ∉ passFirst d)) := by
    rintro (hoff | hst | hmem | ⟨hfirst, hnot⟩)
    · simp [hon] at hoff
    · exact hst hfull
    · exact hmem hpos
    · rcases hturn with hnil | hin
      · simp [hnil] at hfirst
      · exact hnot hin
  have hmore : ((tget d.med.sb nsb).passLeft.filter (· ≠ pos)).isEmpty = false := List.isEmpty_eq_false_iff.mpr hleft
  simp only [verifyPassDone, if_neg hgo, hmore, List.length_nil, Bool.false_eq_true, if_false, if_true]

/-! ### The commands -/

theorem exec_cushionReadDone (id : Nat) (bad : BitVec 64) (maskBad : Bool) (lat : Lat) (s : State) :
    exec (.cushionReadDone id bad maskBad lat) s = run (cushionReadDone id bad maskBad lat) s := rfl
theorem exec_cushionMirrorRefetchDone (id : Nat) (bad : BitVec 64) (lat : Lat) (s : State) :
    exec (.cushionMirrorRefetchDone id bad lat) s = run (cushionMirrorDone id bad lat) s := rfl
theorem exec_mediaReadDone (id : Nat) (bad : BitVec 20) (lineBad : Bool) (lat : Lat) (s : State) :
    exec (.mediaReadDone id bad lineBad lat) s = run (mediaReadDone id bad lineBad lat) s := rfl
theorem exec_readRefetchDone (id : Nat) (bad : BitVec 20) (lineBad : Bool) (lat : Lat) (s : State) :
    exec (.readRefetchDone id bad lineBad lat) s = run (refetchDone id bad lineBad lat) s := rfl
theorem exec_readRecomputeDone (id : Nat) (bad : BitVec 20) (errs : Nat) (lineBad : Bool) (us : Nat) (lat : Lat) (s : State) :
    exec (.readRecomputeDone id bad errs lineBad us lat) s =
      run (recomputeDone id .recompute bad errs lineBad us lat) s := rfl
theorem exec_recomputeSecondPass (id : Nat) (bad : BitVec 20) (errs : Nat) (lineBad : Bool) (us : Nat) (lat : Lat) (s : State) :
    exec (.recomputeSecondPass id bad errs lineBad us lat) s =
      run (recomputeDone id .second bad errs lineBad us lat) s := rfl
theorem exec_pinLift (id : Nat) (s : State) : exec (.pinLift id) s = execPinLift id s := rfl
theorem exec_programWaveDone (lane : Nat) (fail : BitVec 20) (s : State) :
    exec (.programWaveDone lane fail) s = run (programWaveDone lane fail) s := rfl
theorem exec_resetDone (lane pos : Nat) (ok : Bool) (s : State) :
    exec (.resetDone lane pos ok) s = run (resetDone lane pos ok) s := rfl
theorem exec_operationSuspended (lane pos : Nat) (s : State) :
    exec (.operationSuspended lane pos) s = run (opSuspend lane pos) s := rfl
theorem exec_operationResume (lane pos us : Nat) (s : State) :
    exec (.operationResume lane pos us) s = execOperationResume lane pos us s := rfl
theorem exec_operationStall (lane pos us : Nat) (s : State) :
    exec (.operationStall lane pos us) s = run (opStall lane pos us) s := rfl
theorem exec_dieFailed (ch die ops : Nat) (s : State) :
    exec (.dieFailed ch die ops) s = run (dieFail (16 * ch + die) ops) s := rfl
theorem exec_verifyPassDone (nsb pos : Nat) (pages : List Nat) (lost : List (Nat × Nat)) (s : State) :
    exec (.verifyPassDone nsb pos pages lost) s = run (verifyPassDone nsb pos pages lost) s := rfl
theorem exec_slotDrainEnd (key : Nat) (s : State) : exec (.slotDrainEnd key) s = execSlotDrainEnd key s := rfl
theorem exec_genLimitRetry (s : State) : exec .genLimitRetry s = execGenLimitRetry s := rfl

/-! ### The statements -/

/-- Settles O14: the first mirror's read by the bytes that fail in it, the other's by those that fail in both. -/
theorem cushionReads : Obligations.CushionReads := by
  refine ⟨?clean, ?failed, ?rebuilt⟩
  case clean =>
    intro d q id lat r hget hcu hfull hst hchk
    have hok : 0 ||| chkFail r.snap.data r.snap.chk = 0 := by rw [hchk]; rfl
    rw [exec_cushionReadDone, run_eq, cushionReadDone_clean hget hcu hfull lat hok, cushionPart_answered lat d (Or.inl hst)]
    rfl
  case failed =>
    intro d q id bad lat r hget hcu hfull hst hbad
    rw [exec_cushionReadDone, run_eq, cushionReadDone_failed hget hcu hfull lat hbad, mirrorPlan_alone _ d hst]
  case rebuilt =>
    intro d q id bad lat r hget hcu hboth hst
    rw [exec_cushionMirrorRefetchDone, run_eq, cushionMirrorDone_rebuilt lat hget hcu hboth,
      cushionPart_answered lat _ (Or.inr hst), snapPlain_mirrorRebuilt]
    rfl

/-- Settles O15: each read of the media by its checks, both passes of a recompute by one equation. -/
theorem mediaReads : Obligations.MediaReads := by
  refine ⟨?passed, ?refetch, ?refetched, ?recomputed, ?waits, ?second, ?poisoned⟩
  case passed =>
    intro d q id bad lat r hget hst hplain hparts hline
    rw [exec_mediaReadDone, run_eq]
    simp only [mediaReadDone, hget, hst, firstCheck_passed hplain hparts hline, ne_eq, not_true_eq_false, if_false]
  case refetch =>
    intro d q id bad lineBad lat r hget hst hplain hparts hfree
    rw [exec_mediaReadDone, run_eq]
    simp only [mediaReadDone, hget, hst, firstCheck_failed lineBad d hplain hparts, refetch,
      refetchPlan_free (bad &&& r.src) hplain hfree, ne_eq, not_true_eq_false, if_false]
  case refetched =>
    intro d t q id bad lat r hget hst hplain hparts hline ht
    subst ht
    rw [exec_readRefetchDone, run_eq]
    simp only [refetchDone, hget, hst, refetchCheck_passed hplain hparts hline, ne_eq, not_true_eq_false, if_false]
    rfl
  case recomputed =>
    intro d t q id bad errs us lat r r' hget hst hr hdec hline ht
    subst hr ht
    rw [exec_readRecomputeDone, run_eq, recomputeDone_served us lat hget hst nofun hdec hline]
    rfl
  case waits =>
    intro d q id bad errs us lineBad lat r hget hst herrs hunread
    have hdue : secondDue { r with failed := badData r bad } d = true := secondDue_of_unread hst hunread
    rw [exec_readRecomputeDone, run_eq, recomputeDone_undecoded us lat hget hst nofun lineBad herrs, if_pos hdue]
  case second =>
    intro d t q id bad errs us lat r r' hget hst hfree hr hdec hline ht
    subst hr ht
    rw [exec_recomputeSecondPass, run_eq, recomputeDone_served us lat hget hst (fun _ => hfree) hdec hline]
    rfl
  case poisoned =>
    intro d q id bad errs us lineBad lat r r' hget hst hfree herrs hr
    subst hr
    have hdue : secondDue { r with failed := badData r bad } d = false := secondDue_of_second d hst
    rw [exec_recomputeSecondPass, run_eq, recomputeDone_undecoded us lat hget hst (fun _ => hfree) lineBad herrs, hdue]
    rfl

/-- Settles O30: each end by the equation of its case; a wave by whether it is the fifth. -/
theorem laneEnds : Obligations.LaneEnds := by
  refine ⟨?pin, ?wave, ?fifth, ?reset, ?suspended, ?resumed, ?stalled, ?die, ?pass⟩
  case pin =>
    intro id d q
    rw [exec_pinLift, execPinLift, run_eq]
  case wave =>
    intro lane d e q st hset hwave hops he
    subst he
    rw [exec_programWaveDone, run_eq, programWaveDone_passed hset hops, if_neg (Nat.not_le.mpr hwave)]
    rfl
  case fifth =>
    intro lane d e q st hset hwave hops he
    subst he
    rw [exec_programWaveDone, run_eq, programWaveDone_passed hset hops, if_pos hwave.ge]
    rfl
  case reset =>
    intro lane pos k d q o hop hk
    rw [exec_resetDone, run_eq, resetDone_good hop hk]
  case suspended =>
    intro lane pos d q o hop hstall hsusp hres hawait
    rw [exec_operationSuspended, run_eq, opSuspend_granted hop hstall hsusp hres hawait]
    rfl
  case resumed =>
    intro lane pos us d q o hop hsusp hlim
    rw [exec_operationResume, execOperationResume_within hop q hsusp hlim]
    rfl
  case stalled =>
    intro lane pos us d q o hop hstall hreset
    rw [exec_operationStall, run_eq, opStall_reset hop us hstall hreset]
    rfl
  case die =>
    intro ch die ops k d e q x hk hx hok he
    subst hk hx he
    rw [exec_dieFailed, run_eq, dieFail_fresh ops hok]
  case pass =>
    intro nsb pos d q hon hfull hpos hleft hturn
    rw [exec_verifyPassDone, run_eq, verifyPassDone_clean hon hfull hpos hleft hturn]
    rfl

/-- Settles O31: both commands are their guard and one effect. -/
theorem cushionEnds : Obligations.CushionEnds := by
  refine ⟨?drain, ?retry⟩
  case drain =>
    intro key d q
    rw [exec_slotDrainEnd, execSlotDrainEnd, run_eq]
  case retry =>
    intro d q h
    rw [exec_genLimitRetry, execGenLimitRetry, run_eq]
    simp only [h, if_true]

end Sys2Proof.Machine
end

section
/-! Proof of the statement on write credits, the DRAM write queues and the refresh windows. -/

namespace Sys2Proof.Machine

/-! ### A withheld write credit goes back (R133, R135, R276) -/

/-- A credit is returned: in Paced it takes one of the period's (R135). -/
def pacePay (d : Dev) : Dev := { d with csh.pace := if admitState d = 2 then d.csh.pace - 1 else d.csh.pace }

section
variable {d : Dev} (hok : creditOk (admitEval d) = true)

include hok

/-- A host credit that is owed goes back to the pool. -/
theorem creditReturn_host (howed : 0 < (admitEval d).csh.owedHost) :
    creditReturn .host d = { pacePay (admitEval d) with
      csh.owedHost := (admitEval d).csh.owedHost - 1, csh.credHost := (admitEval d).csh.credHost + 1 } := by
  simp only [creditReturn, hok, howed.ne', Bool.not_true, Bool.false_eq_true, if_false]
  rfl

variable {k n : Nat}

/-- A credit owed at the West port goes out on ring A, to the first member that ring's pool owes one (log entry 45). -/
theorem creditReturn_west (howed : 0 < (admitEval d).csh.owedW)
    (hto : ((admitEval d).srn.owed.find? fun x => decide (x.1 % 2 = 0)) = some (k, n)) :
    creditReturn .west d = sendCell 0x05 (k / 2) 0 0 false 1 false [] { pacePay (admitEval d) with
      csh.owedW := (admitEval d).csh.owedW - 1, csh.credW := (admitEval d).csh.credW + 1
      srn.owed := tset (admitEval d).srn.owed k (n - 1) } := by
  have hring : b2n false = 0 := rfl
  simp only [creditReturn, hok, howed.ne', hring, hto, Bool.not_true, Bool.false_eq_true, if_false]
  rfl

/-- A credit owed at the East port goes out on ring B, to the first member that ring's pool owes one (log entry 45). -/
theorem creditReturn_east (howed : 0 < (admitEval d).csh.owedE)
    (hto : ((admitEval d).srn.owed.find? fun x => decide (x.1 % 2 = 1)) = some (k, n)) :
    creditReturn .east d = sendCell 0x05 (k / 2) 0 0 true 1 false [] { pacePay (admitEval d) with
      csh.owedE := (admitEval d).csh.owedE - 1, csh.credE := (admitEval d).csh.credE + 1
      srn.owed := tset (admitEval d).srn.owed k (n - 1) } := by
  have hring : b2n true = 1 := rfl
  simp only [creditReturn, hok, howed.ne', hring, hto, Bool.not_true, Bool.false_eq_true, if_false]
  rfl

end

/-! ### The refresh windows (R119) -/

/-- The window that opens at the next multiple of n is the one after the window TIME stands in. -/
theorem alignUp_div {n : Nat} (hn : 0 < n) (t : Nat) : alignUp n t / n = t / n + 1 := Nat.mul_div_cancel _ hn

/-! ### The arms of these commands -/

theorem exec_creditReturn (port : Port) (s : State) : exec (.creditReturn port) s = run (creditReturn port) s := rfl
theorem exec_dramWriteQueueIssue (ch : Nat) (s : State) :
    exec (.dramWriteQueueIssue ch) s = execDramWriteQueueIssue ch s := rfl
theorem exec_dramRefreshWindow (s : State) : exec .dramRefreshWindow s = execDramRefreshWindow s := rfl

/-! ### The statement -/

/-- Settles O16: a credit by its port, a queued line by the queue's length, a window by the next multiple of 65. -/
theorem creditsAndDram : Obligations.CreditsAndDram := by
  refine ⟨?host, ?west, ?east, ?issue, ?window⟩
  case host =>
    intro d t q ht hok howed
    subst ht
    rw [exec_creditReturn, run_eq, creditReturn_host hok howed]
    rfl
  case west =>
    intro d t q k n ht hok howed hto
    subst ht
    rw [exec_creditReturn, run_eq, creditReturn_west hok howed hto]
    rfl
  case east =>
    intro d t q k n ht hok howed hto
    subst ht
    rw [exec_creditReturn, run_eq, creditReturn_east hok howed hto]
    rfl
  case issue =>
    intro d q ch
    rw [exec_dramWriteQueueIssue, execDramWriteQueueIssue, run_eq, tmod]
  case window =>
    intro d q
    have hopen : alignUp 65 d.time / 65 = d.time / 65 + 1 := alignUp_div (by decide) d.time
    simp only [exec_dramRefreshWindow, execDramRefreshWindow, run_eq, hopen]
    rfl

end Sys2Proof.Machine
end

section
/-! Proof of the statement on patrol, the scrubber and the raw read. -/

namespace Sys2Proof.Machine

/-! ### Patrol's next row (R197) -/

/-- The walk's position just past a row. -/
def patrolPast (slot : Nat) (d : Dev) : Dev := { d with stw.patPos := slotSb slot, stw.patRow := slotIn slot + 1 }

/-- A row that patrol has read: counted, and taken off the period's quota. -/
def patrolCounted (d : Dev) : Dev :=
  mediaGrant 4 20 { d with
    stw.plan.patrolQ := d.stw.plan.patrolQ - 1
    stw.patRead := d.stw.patRead + 1
    stw.cnt := bump d.stw.cnt 11 }

/-- What is left of a lap depends on the rows and the walk's position alone. -/
theorem patrolLeft_counted (d : Dev) : patrolLeft (patrolCounted d) = patrolLeft d := rfl

/-- A clean valid row that comes next, others of the lap left, is counted and passed. -/
theorem patrolRow_clean {slot : Nat} {d : Dev} (hon : d.periodsOn = true) (hlap : d.stw.lapOver = false)
    (hen : d.stw.patrol ≠ .disabled)
    (hpos : d.stw.patPos * 32768 + d.stw.patRow ≤ slotSb slot * 32768 + slotIn slot)
    (hnext : patrolAhead d (slotSb slot) (slotIn slot) = false)
    (hvalid : tget (tget d.med.sb (slotSb slot)).valid (slotIn slot) = true)
    (hleft : patrolLeft (patrolPast slot d) ≠ 0) :
    patrolRow slot .clean d = patrolCounted (patrolPast slot d) := by
  have hgo : (!d.periodsOn || d.stw.lapOver || decide (d.stw.patrol = .disabled)
      || decide (slotSb slot * 32768 + slotIn slot < d.stw.patPos * 32768 + d.stw.patRow)
      || patrolAhead d (slotSb slot) (slotIn slot)) = false := by
    simp [hon, hlap, hen, hnext, hpos]
  have hmore : ¬(patrolLeft (patrolCounted (patrolPast slot d)) = 0 ∧ 0 < (patrolCounted (patrolPast slot d)).stw.patRead) :=
    fun ⟨hzero, _⟩ => hleft ((patrolLeft_counted _).symm.trans hzero)
  simp only [patrolRow, hgo, hvalid, Bool.not_true, Bool.false_eq_true, if_false]
  exact if_neg hmore

/-! ### The scrubber (R206) -/

/-- The laps keep to the steward's fields, and count nothing. -/
theorem scrubLap_frame (r : Region) (a : Nat) (d : Dev) :
    ∃ w : Stw, scrubLap r a d = { d with stw := w } ∧ w.cnt = d.stw.cnt := by
  unfold scrubLap
  dsimp only
  split_ifs <;> exact ⟨_, rfl, rfl⟩

/-- A find of the scrubber: counted and recorded under its region. -/
def scrubRecorded (r : Region) (a : Nat) (mask : BitVec 64) (code sev c : Nat) (d : Dev) : Dev :=
  post code sev (regionCode r) (a % 2 ^ 32) (a / 2 ^ 32 % 256) (mask.toNat % 2 ^ 32) { d with stw.cnt := bump d.stw.cnt c }

/-- A correction in the cushion changes no more than the count and the record. -/
theorem scrubRead_cushion_single (a : Nat) (mask : BitVec 64) (d : Dev) :
    scrubRead .cushion a mask .single d = scrubRecorded .cushion a mask 0x600C 1 13 (scrubLap .cushion a d) := rfl

/-- A sorus-block whose bitmap was lost in both mirrors: a host block's is rebuilt from the map. -/
def bitmapRebuilt (a : Nat) (d : Dev) (b : Sb) : Sb :=
  { b with valid := if b.kind = .host then bitmapOf d a else b.valid, out := false }

/-- An uncorrectable bitmap is recorded, and rebuilt. -/
theorem scrubRead_bitmap_both (a : Nat) (mask : BitVec 64) (d : Dev) :
    scrubRead .bitmap a mask .both d =
      sbMod a (bitmapRebuilt a (scrubRecorded .bitmap a mask 0x600D 2 14 (scrubLap .bitmap a d)))
        (scrubRecorded .bitmap a mask 0x600D 2 14 (scrubLap .bitmap a d)) := rfl

/-- A find that is counted and recorded keeps to the steward and the recorder. -/
theorem scrubRecorded_lap_frame (r : Region) (a : Nat) (mask : BitVec 64) (code sev c : Nat) (d : Dev) :
    ∃ (w : Stw) (v : Evr), w.cnt = bump d.stw.cnt c ∧
      scrubRecorded r a mask code sev c (scrubLap r a d) = { d with stw := w, evr := v } := by
  obtain ⟨w, hlap, hcnt⟩ := scrubLap_frame r a d
  obtain ⟨v, hpost⟩ := post_eq (d := { d with stw := { w with cnt := bump w.cnt c } }) (c := code) (v := sev)
    (p0 := regionCode r) (p1 := a % 2 ^ 32) (p2 := a / 2 ^ 32 % 256) (p3 := mask.toNat % 2 ^ 32)
  refine ⟨{ w with cnt := bump w.cnt c }, v, congrArg (bump · c) hcnt, ?_⟩
  rw [scrubRecorded, hlap]
  exact hpost

/-! ### The raw read (R174, R221) -/

/-- A suspension changes the media's operations and counts alone. -/
theorem opSuspend_frame (lane pos : Nat) (d : Dev) : ∃ m : Med, opSuspend lane pos d = { d with med := m } := by
  unfold opSuspend
  split
  · split
    · exact ⟨_, rfl⟩
    · exact ⟨_, rfl⟩
  · exact ⟨_, rfl⟩

/-- The state in which a raw read reaches its plane: counted, the plane's operation suspended. -/
def diagReached (d : Dev) : Dev :=
  let lp := planeAt (16 * bits d.med.diagAddr 5 0 + bits d.med.diagAddr 9 6) (bits d.med.diagAddr 11 10)
  opSuspend lp.1 lp.2 { d with med.cnt := bump d.med.cnt 13 }

/-- The end of a raw read with a status and bytes. -/
def diagEnd (code : Nat) (data : List Byte) (d : Dev) : Dev :=
  { d with med.diagBusy := false, med.diagDone := true, med.diagCode := code, med.diagData := data }

/-- The refusal of a protected sector: counted and recorded with the sector's address and range. -/
def diagRefused (row : Row) (s : Nat) (d : Dev) : Dev :=
  post 0x7010 2 2 (ringAddr d.srn.index row.frond (4 * s) / 65536) (ringAddr d.srn.index row.frond (4 * s) % 65536)
    (((rangeOf d row.frond).map (·.1)).getD 127) { d with sec.cnt := bump d.sec.cnt 4 }

section
variable {d : Dev} {row : Row} {s : Nat} (hbusy : d.med.diagBusy = true) (hread : diagRead d = (0, some (row, s)))

include hbusy hread

/-- A programmed sector ends the read by whether it is protected. -/
theorem medDiagDone_row : medDiagDone d =
    if s < 16 ∧ 1 ≤ row.kslot ∧ row.kind = .host then diagEnd 4 [] (diagRefused row s (diagReached d))
    else diagEnd 0 (sectorOf row s) (mediaGrant 5 1 (diagReached d)) := by
  have hgo : ¬(!d.med.diagBusy) = true := by simp [hbusy]
  rw [medDiagDone, if_neg hgo, hread]
  rfl

/-- A sector under no key gives its bytes. -/
theorem medDiagDone_unprotected (hkey : row.kslot = 0) :
    medDiagDone d = diagEnd 0 (sectorOf row s) (mediaGrant 5 1 (diagReached d)) := by
  have hopen : ¬(s < 16 ∧ 1 ≤ row.kslot ∧ row.kind = .host) := by omega
  rw [medDiagDone_row hbusy hread, if_neg hopen]

/-- A host sector under a key is refused. -/
theorem medDiagDone_protected (hs : s < 16) (hkey : 1 ≤ row.kslot) (hhost : row.kind = .host) :
    medDiagDone d = diagEnd 4 [] (diagRefused row s (diagReached d)) := by
  rw [medDiagDone_row hbusy hread, if_pos ⟨hs, hkey, hhost⟩]

end

/-- A refusal is counted in the security's count of them, whatever the read suspended. -/
theorem diagRefused_reached_cnt (row : Row) (s : Nat) (d : Dev) :
    (diagRefused row s (diagReached d)).sec.cnt = bump d.sec.cnt 4 := by
  obtain ⟨m, hm⟩ : ∃ m : Med, diagReached d = { d with med := m } := opSuspend_frame _ _ _
  rw [diagRefused, post_sec, hm]

/-! ### The commands -/

theorem exec_patrolRowReadDone (slot : Nat) (f : Finding) (s : State) :
    exec (.patrolRowReadDone slot f) s = run (patrolRow slot f) s := rfl
theorem exec_patrolLapLate (s : State) : exec .patrolLapLate s = execPatrolLapLate s := rfl
theorem exec_patrolPositionSave (s : State) : exec .patrolPositionSave s = execPatrolPositionSave s := rfl
theorem exec_patrolDrainEnd (s : State) : exec .patrolDrainEnd s = execPatrolDrainEnd s := rfl
theorem exec_stwCtlPatrolEn (en : Bool) (s : State) :
    exec (.stwCtlPatrolEn en) s = run (gate 4 (patrolEnable en)) s := rfl
theorem exec_scrubRead (r : Region) (a : Nat) (mask : BitVec 64) (found : Scrub) (s : State) :
    exec (.scrubRead r a mask found) s = run (scrubRead r a mask found) s := rfl
theorem exec_scrubLapLate (sram : Bool) (n : Nat) (s : State) :
    exec (.scrubLapLate sram n) s = execScrubLapLate sram n s := rfl
theorem exec_medDiagCmdGo (s : State) : exec .medDiagCmdGo s = run (gate 3 medDiagGo) s := rfl
theorem exec_medDiagDone (s : State) : exec .medDiagDone s = run medDiagDone s := rfl

/-! ### The statement -/

/-- Settles O33: patrol by its walk's guards, the scrubber by what a find records, the raw read by whether its sector is
under a key. -/
theorem patrolAndScrub : Obligations.PatrolAndScrub := by
  refine ⟨?row, ?lapLate, ?save, ?drained, ?latched, ?disable, ?enable, ?single, ?bitmap, ?scrubLate, ?go, ?bytes, ?refused⟩
  case row =>
    intro slot d q hon hlap hen hpos hnext hvalid hleft
    rw [exec_patrolRowReadDone, run_eq, patrolRow_clean hon hlap hen hpos hnext hvalid hleft]
    rfl
  case lapLate =>
    intro d q
    rw [exec_patrolLapLate, execPatrolLapLate, run_eq]
  case save =>
    intro d q
    rw [exec_patrolPositionSave, execPatrolPositionSave, run_eq]
  case drained =>
    intro d q hst
    simp only [exec_patrolDrainEnd, execPatrolDrainEnd, run_eq, hst]
  case latched =>
    intro d q hst
    simp only [exec_patrolDrainEnd, execPatrolDrainEnd, run_eq, hst]
  case disable =>
    intro d q hon hst
    simp only [exec_stwCtlPatrolEn, run_eq, gate_on _ hon, patrolEnable, hst]
  case enable =>
    intro d q hon hst
    simp only [exec_stwCtlPatrolEn, run_eq, gate_on _ hon, patrolEnable, hst]
  case single =>
    intro a mask d e q he
    subst he
    rw [exec_scrubRead, run_eq, scrubRead_cushion_single]
    rfl
  case bitmap =>
    intro a mask d q _
    obtain ⟨w, v, hcnt, hrec⟩ := scrubRecorded_lap_frame .bitmap a mask 0x600D 2 14 d
    rw [exec_scrubRead, run_eq, scrubRead_bitmap_both, hrec]
    exact ⟨_, rfl, rfl, hcnt, rfl, rfl, rfl, rfl, rfl, rfl⟩
  case scrubLate =>
    intro sram n d q
    rw [exec_scrubLapLate, execScrubLapLate, run_eq]
  case go =>
    intro d q hon hidle
    simp only [exec_medDiagCmdGo, run_eq, gate_on _ hon, medDiagGo, hidle, Bool.false_eq_true, if_false]
  case bytes =>
    intro d e q row s lp hbusy hread hkey hlp he
    subst hlp he
    rw [exec_medDiagDone, run_eq, medDiagDone_unprotected hbusy hread hkey]
    rfl
  case refused =>
    intro d q row s hbusy hread hs hkey hhost
    rw [exec_medDiagDone, run_eq, medDiagDone_protected hbusy hread hs hkey hhost]
    exact ⟨_, rfl, rfl, rfl, rfl, diagRefused_reached_cnt row s d⟩

end Sys2Proof.Machine
end

section
/-! Proofs of the statements on protected ranges, the rekey walk and the poison commands with Sanitize and Secure Erase: one
lemma for each body, where its conditions hold. -/

namespace Sys2Proof.Machine

/-! ### Opening, rekeying and closing a range, and its attributes (R222, R224) -/

section
variable {p : List Byte} {d e : Dev} {n k id : Nat}

/-- OPEN_RANGE of a Closed range over a free span starts its rekey from slot 0 under the lowest Empty slot. -/
theorem openRange_starts {base last : Nat} (hn : n = byte p 0) (hb : base = le p 4 4) (hl : last = le p 8 4)
    (hst : (tget d.sec.ranges n).st = .closed) (hspan : base ≤ last) (hlim : last < d.map.limit)
    (hfree : (d.sec.ranges.any fun x => x.2.st ≠ .closed && spansMeet base last x.2.base x.2.last) = false)
    (hslot : freeSlot d = some k) (hrun : rekeysRunning d < 4) (hsec : secRefused 2 d = none)
    (he : rekeyStart n k { base, last, engineRead := bit (byte p 1) 0 } (post 0x7001 0 n base last k d) = (id, e)) :
    openRange p d = ans rcOk (slotAnswer k id) e := by
  subst hn hb hl
  have hok : ¬((tget d.sec.ranges (byte p 0)).st ≠ .closed ∨ le p 8 4 < le p 4 4 ∨ d.map.limit ≤ le p 8 4
      ∨ (d.sec.ranges.any fun x => x.2.st ≠ .closed && spansMeet (le p 4 4) (le p 8 4) x.2.base x.2.last) = true) := by
    rintro (h | h | h | h)
    · exact h hst
    · exact absurd hspan (Nat.not_le.mpr h)
    · exact absurd hlim (Nat.not_lt.mpr h)
    · exact Bool.false_ne_true (hfree.symm.trans h)
  unfold openRange
  dsimp only
  rw [if_neg hok, hslot]
  dsimp only
  rw [if_neg (Nat.not_le.mpr hrun), hsec]
  dsimp only
  rw [he]

/-- REKEY_RANGE of an Open range starts a rekey to the lowest Empty slot. -/
theorem rekeyRange_starts (hn : n = byte p 0) (hst : (tget d.sec.ranges n).st = .opn) (hslot : freeSlot d = some k)
    (hrun : rekeysRunning d < 4) (hsec : secRefused 2 d = none) (he : rekeyStart n k (tget d.sec.ranges n) d = (id, e)) :
    rekeyRange p d = ans rcOk (slotAnswer k id) e := by
  subst hn
  unfold rekeyRange
  dsimp only
  rw [if_neg (not_not.mpr hst), hslot]
  dsimp only
  rw [if_neg (Nat.not_le.mpr hrun), hsec]
  dsimp only
  rw [he]

/-- CLOSE_RANGE in keep mode makes the Closing range's walk to slot 0 start at its base. -/
theorem closeKeep_walks {r s : Range} (hr : r = tget d.sec.ranges n) (hst : r.st = .opn) (hlock : r.lock = false)
    (hrun : rekeysRunning d < 4) (hsec : secRefused 2 d = none)
    (hs : s = { r with st := .closing, old := r.cur, cur := 0, boundary := r.base, next := r.base, rewriting := [], again := [],
                       rewritten := 0, started := d.time, endId := 0 })
    (he : e = fwWrite (.range n s) { d with
      sec.ranges := tset d.sec.ranges n s
      sec.slots := tmod d.sec.slots r.cur fun x => { x with role := 2 } }) :
    closeKeep n d = ret rcOk (post 0x7003 0 n r.cur 0 (tget e.sec.slots 0).keyid e) := by
  subst hr hs he
  unfold closeKeep
  dsimp only
  rw [if_neg (not_not.mpr hst), if_neg (Bool.eq_false_iff.mp hlock), if_neg (Nat.not_le.mpr hrun), hsec]

/-- CLOSE_RANGE in erase mode runs on over the Closing range's fronds, under the slots it gives up. -/
theorem closeErase_runs {r s : Range} (hr : r = tget d.sec.ranges n) (hst : r.st = .opn ∨ r.st = .rekeying)
    (hlock : r.lock = false) (hsec : secRefused 2 d = none)
    (hs : s = { r with st := .closing, old := r.cur, cur := 0, rewriting := [], again := [], boundary := r.last + 1,
                       next := r.last + 1, former := r.cur :: (if r.st = .rekeying ∧ r.old ≠ 0 then [r.old] else []) })
    (he : e = fwWrite (.range n s) { d with
      sec.ranges := tset d.sec.ranges n s
      sec.slots := tmod d.sec.slots r.cur fun x => { x with role := 2 } }) :
    closeErase n d = (.long (.eraseRange n r.base r.last) 1 (r.last + 1 - r.base), e) := by
  subst hr hs he
  unfold closeErase
  dsimp only
  rw [if_neg (fun h => hst.elim h.1 h.2), if_neg (Bool.eq_false_iff.mp hlock), hsec]

/-- SET_RANGE_ATTR stores ENGINE_READ and LOCK; a locked range's ENGINE_READ may only be confirmed. -/
theorem setRangeAttr_stores {r : Range} (hn : n = byte p 0) (hst : (tget d.sec.ranges n).st ≠ .closed)
    (hlock : (tget d.sec.ranges n).lock = false ∨ (tget d.sec.ranges n).engineRead = bit (byte p 1) 0)
    (hsec : secRefused 2 d = none)
    (hr : r = { tget d.sec.ranges n with
      engineRead := bit (byte p 1) 0, lock := (tget d.sec.ranges n).lock || bit (byte p 1) 1 }) :
    setRangeAttr p d = ret rcOk (fwWrite (.range n r.saved) { d with sec.ranges := tset d.sec.ranges n r }) := by
  subst hn hr
  have hok : ¬((tget d.sec.ranges (byte p 0)).lock = true ∧ (tget d.sec.ranges (byte p 0)).engineRead ≠ bit (byte p 1) 0) :=
    fun ⟨hl, her⟩ => hlock.elim (fun h => Bool.false_ne_true (h.symm.trans hl)) her
  unfold setRangeAttr
  dsimp only
  rw [if_neg hst, if_neg hok, hsec]

/-- SET_RANGE_ATTR of a locked range refuses another ENGINE_READ. -/
theorem setRangeAttr_locked (hn : n = byte p 0) (hst : (tget d.sec.ranges n).st ≠ .closed)
    (hlock : (tget d.sec.ranges n).lock = true) (her : (tget d.sec.ranges n).engineRead ≠ bit (byte p 1) 0) :
    setRangeAttr p d = ret rcLocked d := by
  subst hn
  unfold setRangeAttr
  dsimp only
  rw [if_neg hst, if_pos ⟨hlock, her⟩]

end

/-! ### The rekey walk (R226–R228) -/

section
variable {n f : Nat} {d : Dev} {r : Range} {e : Entry}

/-- The next frond of a walk that has none to examine again: its header is read, and the walk skips it or awaits its rewrite. -/
theorem rekeyHeader_next (hr : r = tget d.sec.ranges n) (hw : r.walks = true) (hagain : r.again = [])
    (hfind : (d.map.ent.find? fun (x : Nat × Entry) =>
      x.2.v && decide (r.next ≤ x.1) && decide (x.1 ≤ r.last) && decide (x.1 < d.map.limit)) = some (f, e))
    (hv : (mapGet d f).v = true) :
    rekeyHeader n d = if (tget d.med.rows (mapGet d f).slot).kslot = r.cur then
        { mediaGrant 4 20 d with
          sec.ranges := tset d.sec.ranges n (rekeyStep (mediaGrant 4 20 d) { r with next := f + 1 })
          sec.cnt := bump d.sec.cnt 7 }
      else { mediaGrant 4 20 d with
        sec.ranges := tset d.sec.ranges n
          (rekeyStep (mediaGrant 4 20 d) { r with next := f + 1, rewriting := r.rewriting ++ [f] }) } := by
  subst hr
  unfold rekeyHeader
  simp only [hw, hagain, hfind, hv, Bool.not_true, Bool.false_eq_true, if_false, Option.any_some, if_true]
  by_cases hcur : (tget d.med.rows (mapGet d f).slot).kslot = (tget d.sec.ranges n).cur
  · simp only [hcur, if_true]
    rfl
  · simp only [hcur, Bool.false_eq_true, if_false]
    rfl

/-- A walk of a Rekeying range that passed its last frond, no read of it under way and no slot left behind, ends Open. -/
theorem rekeyDone_opens (hr : r = tget d.sec.ranges n) (hst : r.st = .rekeying) (hformer : r.former = [])
    (hpast : r.last < r.boundary) (hold : r.old = 0) (hreads : rekeyReads d r = false) :
    rekeyDone n d = post 0x7004 0 n 0 r.rewritten ((d.time - r.started) / 100000000)
      (rangeStore n { d with sec.ranges := tset d.sec.ranges n { r with st := .opn, old := 0 } }) := by
  subst hr
  have hwalks : (tget d.sec.ranges n).walks = true := by simp only [Range.walks, hst, hformer]; rfl
  have hgo : ¬((!(tget d.sec.ranges n).walks) = true ∨ (tget d.sec.ranges n).boundary ≤ (tget d.sec.ranges n).last ∨
      ((tget d.sec.ranges n).old ≠ 0 ∧ setUnder d (tget d.sec.ranges n).old = true) ∨
      rekeyReads d (tget d.sec.ranges n) = true) := by
    rintro (h | h | ⟨h, -⟩ | h)
    · simp [hwalks] at h
    · exact absurd hpast (Nat.not_lt.mpr h)
    · exact h hold
    · exact Bool.false_ne_true (hreads.symm.trans h)
  unfold rekeyDone
  dsimp only
  rw [if_neg hgo]
  simp only [hst, hold, if_true, reduceCtorEq, if_false, decide_false, postIf, Bool.false_eq_true, rangeStore, fwPut_time]

end

/-- The one EMPTY record that was refused is asked for again, its first retry recorded (R212, log entry 55). -/
theorem execKeyStoreRetry_one {k n : Nat} {d e : Dev} (q : List Instr) (hz : d.sec.zeroRetry = [(0, k)])
    (hn : n = tget d.sec.retried k)
    (he : e = { d with sec.zeroRetry := [], sec.retried := tset d.sec.retried k (n + 1) }) :
    execKeyStoreRetry ⟨d, q⟩ = .next ⟨if n = 0 then
        fwPut (.keyRec k (emptyRecOf (post 0x7031 1 k 1 0 0 e) k)) (post 0x7031 1 k 1 0 0 e)
      else fwPut (.keyRec k (emptyRecOf e k)) e, q⟩ := by
  subst hn he
  rw [execKeyStoreRetry, run_eq]
  simp only [hz, List.foldl_cons, List.foldl_nil, Nat.zero_mul, Nat.zero_add, Nat.add_zero, true_and, if_true, postIf,
    decide_eq_true_eq]
  split_ifs <;> rfl

/-! ### The poison commands (R234) -/

section
variable {p : List Byte} {d e g : Dev} {f l : Nat}

/-- An address of this node's slice below MAP_LIMIT is not refused. -/
theorem poisonAddr_inside {a : Nat} (hidx : addrIndex a = d.srn.index) (haddr : a < 2 ^ 48)
    (hlim : addrFrond a < d.map.limit) : ¬(addrIndex a ≠ d.srn.index ∨ 2 ^ 48 ≤ a ∨ d.map.limit ≤ addrFrond a) := by
  rintro (h | h | h)
  · exact h hidx
  · exact absurd haddr (Nat.not_lt.mpr h)
  · exact absurd hlim (Nat.not_lt.mpr h)

/-- INJECT_POISON makes the line Poisoned in the frond's slot, and P and the index say so. -/
theorem injectPoison_poisons {k : Nat} {s : Slot} (hidx : addrIndex (le p 0 8) = d.srn.index) (haddr : le p 0 8 < 2 ^ 48)
    (hf : f = addrFrond (le p 0 8)) (hl : l = addrLine (le p 0 8)) (hlim : f < d.map.limit) (hfrozen : f ∉ d.sec.frozen)
    (hroom : admitState d ≠ 4 ∨ (slotFind d f).isSome = true) (hlock : rangeLocked d f = false) (hslot : slotGet f d = (k, e))
    (hs : s = { tget e.csh.dir k with
      lines := tmod (tget e.csh.dir k).lines l (fun x => { x with st := .poisoned }), dirty := true })
    (hg : g = setPoison f (pidxAdd f (BitVec.ofNat 64 (2 ^ l))
      (setFlags f { sparseFree f l e with csh.dir := tset e.csh.dir k s }))) :
    injectPoison p d = ret rcOk (post 0x7020 0 f l 0 0 (admitEval { g with sec.cnt := bump g.sec.cnt 9 })) := by
  subst hf hl hs hg
  have htakes : ¬(addrFrond (le p 0 8) ∈ d.sec.frozen ∨
      (admitState d = 4 ∧ (slotFind d (addrFrond (le p 0 8))).isNone = true)) := by
    rintro (h | ⟨hfull, hnone⟩)
    · exact hfrozen h
    · exact hroom.elim (fun h => h hfull) fun h => by simp [Option.isNone_iff_eq_none.mp hnone] at h
  unfold injectPoison
  dsimp only
  rw [if_neg (poisonAddr_inside hidx haddr hlim), if_neg htakes, if_neg (Bool.eq_false_iff.mp hlock), hslot]

/-- INJECT_POISON of an address of another index is refused. -/
theorem injectPoison_elsewhere (hidx : addrIndex (le p 0 8) ≠ d.srn.index) : injectPoison p d = ret rcPhys d := by
  rw [injectPoison]
  exact if_pos (.inl hidx)

/-- CLEAR_POISON writes the line; of a frond that has P clear afterwards the index alone loses it. -/
theorem clearPoison_clears {h : Dev} (hidx : addrIndex (le p 0 8) = d.srn.index) (haddr : le p 0 8 < 2 ^ 48)
    (hf : f = addrFrond (le p 0 8)) (hl : l = addrLine (le p 0 8)) (hlim : f < d.map.limit) (hfrozen : f ∉ d.sec.frozen)
    (he : e = writeLine f l ⟨bytesLine (p.drop 8), BitVec.allOnes 64, false⟩ (le p 0 8) 6 255 d)
    (hh : h = if (mapGet e f).v = true then mediaGrant 5 20 e else e)
    (hg : g = { h with rp.stage := tset h.rp.stage f (setBit (tget h.rp.stage f) l false) })
    (hp : (mapGet g f).p = false) :
    clearPoison p d = ret rcOk (post 0x7021 0 f l 0 0 (admitEval { g with
      sec.pidx := tset g.sec.pidx f (setBit (tget g.sec.pidx f) l false)
      sec.cnt := bump g.sec.cnt 10 })) := by
  subst hf hl hg
  dsimp only at hp
  unfold clearPoison
  dsimp only
  rw [if_neg (poisonAddr_inside hidx haddr hlim), if_neg hfrozen, ← he, ← hh]
  simp only [hp, Bool.false_and, Bool.false_eq_true, if_false]
  rfl

end

/-! ### Sanitize and Secure Erase (R238) -/

/-- An erasure that its key records allow runs on, marked to be run again, with the cushion emptying. -/
theorem sanitizeStart_runs {d : Dev} (full : Bool) (unit total : Nat) (hsec : secRefused 2 d = none) :
    sanitizeStart full unit total d =
      (.long (.sanitize full) unit total, { d with pwr.rerun := some full, csh.emptying := true }) := by
  rw [sanitizeStart, hsec]

/-- The step of a command that its transport does not allow in the node's mode: refused and counted (R341, R345). -/
theorem run_wrongMode {opcode : Nat} {g : Modes} {lenOk : Nat → Bool} {fieldsOk : List Byte → Bool}
    {body : List Byte → Dev → Res × Dev} {tr : Transport} {d : Dev} (p : List Byte) (q : List Instr)
    (hreach : reachable tr d = true) (hrun : d.mbx.run = none) (hmode : modeOk g tr d = false) :
    run (command opcode g false lenOk fieldsOk body tr p) ⟨d, q⟩ =
      .next ⟨cmdEnd tr opcode rcMode [] 0 false { d with mbx.cnt := bump d.mbx.cnt 5 }, q⟩ := by
  simp only [run_eq, command, hreach, hrun, hmode, Bool.not_true, Bool.not_false, Bool.false_and, Bool.false_eq_true, if_false,
    if_true]

/-- A command of Maintenance alone is not allowed in Service. -/
theorem modeOk_maintenance_service {d : Dev} (tr : Transport) (h : d.pwr.mode = .service) : modeOk mM tr d = false := by
  simp only [modeOk, h]
  rfl

/-! ### The commands that pass no mailbox -/

theorem exec_rekeyHeaderReadDone (n : Nat) (s : State) : exec (.rekeyHeaderReadDone n) s = run (rekeyHeader n) s := rfl
theorem exec_rekeyDone (n : Nat) (s : State) : exec (.rekeyDone n) s = run (rekeyDone n) s := rfl
theorem exec_rekeyBoundarySave (n : Nat) (s : State) :
    exec (.rekeyBoundarySave n) s = run (fun d => if (tget d.sec.ranges n).walks then rangeStore n d else d) s := rfl
theorem exec_keyStoreRetry (s : State) : exec .keyStoreRetry s = execKeyStoreRetry s := rfl

/-! ### The statements -/

/-- Settles O34: each command passes its checks and its body goes the way that the lemma about it says. -/
theorem rangeCommands : Obligations.RangeCommands := by
  refine ⟨?openRange, ?rekey, ?keep, ?erase, ?attr, ?locked⟩
  case openRange =>
    intro tr p d e q n base last k id ht hl hn hn64 hb1 hzero hb hlast hst hspan hlim hfree hslot hrun hsec he
    exact run_done ht rfl (by simp [len, hl]) (by omega) (by simp [← hn, hn64, hb1, hzero])
      (openRange_starts hn hb hlast hst hspan hlim hfree hslot hrun hsec he)
  case rekey =>
    intro tr p d e q n k id ht hl hn hn64 hst hslot hrun hsec he
    exact run_done ht rfl (by simp [len, hl]) (by omega) (by simp [← hn, hn64]) (rekeyRange_starts hn hst hslot hrun hsec he)
  case keep =>
    intro tr p d e q n r s ht hl hn hn64 hmode hr hst hlock hrun hsec hs he
    subst hn
    exact run_done ht rfl (by simp [len, hl]) (by omega) (by simp [hn64, hmode])
      ((if_pos hmode).trans (closeKeep_walks hr hst hlock hrun hsec hs he))
  case erase =>
    intro tr p d e q n r s ht hl hn hn64 hmode hr hst hlock hsec hs he
    subst hn
    exact run_long ht rfl (by simp [len, hl]) (by omega) (by simp [hn64, hmode])
      ((if_neg (by omega)).trans (closeErase_runs hr hst hlock hsec hs he))
  case attr =>
    intro tr p d q n r ht hl hn hn64 hb1 hst hlock hsec hr
    exact run_done ht rfl (by simp [len, hl]) (by omega) (by simp [← hn, hn64, hb1]) (setRangeAttr_stores hn hst hlock hsec hr)
  case locked =>
    intro tr p d q n ht hl hn hn64 hb1 hst hlock her
    exact run_done ht rfl (by simp [len, hl]) (by omega) (by simp [← hn, hn64, hb1]) (setRangeAttr_locked hn hst hlock her)

/-- Settles O35: a header read by whether the row has the current slot, the walk's end, its boundary, and the retry of one
key record. -/
theorem rekeyWalk : Obligations.RekeyWalk := by
  refine ⟨?skip, ?rewrite, ?done, ?save, ?retry⟩
  case skip =>
    intro n f e d g q r hr hw hagain hfind hv hcur hg
    subst hg
    rw [exec_rekeyHeaderReadDone, run_eq, rekeyHeader_next hr hw hagain hfind hv, if_pos hcur]
  case rewrite =>
    intro n f e d g q r hr hw hagain hfind hv hcur hg
    subst hg
    rw [exec_rekeyHeaderReadDone, run_eq, rekeyHeader_next hr hw hagain hfind hv, if_neg hcur]
  case done =>
    intro n d q r hr hst hformer hpast hold hreads
    rw [exec_rekeyDone, run_eq, rekeyDone_opens hr hst hformer hpast hold hreads]
  case save =>
    intro n d q hw
    rw [exec_rekeyBoundarySave, run_eq, if_pos hw]
  case retry =>
    intro k n d e q hz hn he
    rw [exec_keyStoreRetry, execKeyStoreRetry_one q hz hn he]

/-- Settles O36: the poison commands by their bodies, the erasures by whether the mode allows them. -/
theorem poisonAndErase : Obligations.PoisonAndErase := by
  refine ⟨?inject, ?elsewhere, ?clear, ?sanitize, ?secureErase, ?secureEraseRefused, ?sanitizeRefused⟩
  case inject =>
    intro tr p d e g q f l k s ht hlen halign hidx haddr hf hl hlim hfrozen hroom hlock hslot hs hg
    exact run_done ht rfl (by simp [len, hlen]) (by omega) (by simp [halign])
      (injectPoison_poisons hidx haddr hf hl hlim hfrozen hroom hlock hslot hs hg)
  case elsewhere =>
    intro tr p d q ht hlen halign hidx
    exact run_done ht rfl (by simp [len, hlen]) (by omega) (by simp [halign]) (injectPoison_elsewhere hidx)
  case clear =>
    intro tr p d e h g q f l ht hlen halign hidx haddr hf hl hlim hfrozen he hh hg hp
    exact run_done ht rfl (by simp [len, hlen]) (by omega) (by simp [halign])
      (clearPoison_clears hidx haddr hf hl hlim hfrozen he hh hg hp)
  case sanitize =>
    intro tr d q ht hsec
    exact run_long ht rfl rfl (by decide) rfl (sanitizeStart_runs true 4 _ hsec)
  case secureErase =>
    intro tr d q ht hsec
    exact run_long ht rfl rfl (by decide) rfl (sanitizeStart_runs false 5 1000 hsec)
  case secureEraseRefused =>
    intro tr p d q hreach hrun hmode
    exact run_wrongMode p q hreach hrun (modeOk_maintenance_service tr hmode)
  case sanitizeRefused =>
    intro tr p d q hreach hrun hmode
    exact run_wrongMode p q hreach hrun (modeOk_maintenance_service tr hmode)

end Sys2Proof.Machine
end

section
/-! Proofs of the statements on the standard commands of CXL: the queries, and the settings with Scan Media. -/

namespace Sys2Proof.Machine

/-! ### A query without an operand (R345) -/

/-- The step of a query with an empty payload that the executor takes: it answers Success and changes nothing else. -/
theorem run_query {opcode : Nat} {g : Modes} {ro : Bool} {out : Dev → List Byte} {tr : Transport} {d : Dev} {q : List Instr}
    (ht : d.takes g tr) (hr : (ro && d.isM) = false) :
    run (command opcode g ro (len 0) (fun _ => true) (fun _ d => ans rcOk (out d) d) tr []) ⟨d, q⟩ =
      .next ⟨cmdEnd tr opcode rcOk (out d) 0 false d, q⟩ :=
  run_done ht hr rfl (by decide) rfl rfl

/-! ### Logs and the poison list (R236, R345, R347) -/

section
variable {p : List Byte} {d : Dev}

/-- Get Log of the Command Effects Log gives the bytes asked for. -/
theorem getLog_inside (huuid : p.take 16 = celUuid) (hlen : le p 16 4 + le p 20 4 ≤ (cel d).length) :
    getLog p d = ans rcOk (((cel d).drop (le p 16 4)).take (le p 20 4)) d := by
  have hok : ¬(p.take 16 ≠ celUuid ∨ (cel d).length < le p 16 4 + le p 20 4) := by
    rintro (h | h)
    · exact h huuid
    · exact absurd hlen (Nat.not_le.mpr h)
  unfold getLog
  dsimp only
  rw [if_neg hok]

/-- Get Poison List goes on where the same request stopped, else at the span's first line; it answers 254 lines at most, and
keeps where the same request goes on. -/
theorem getPoison_lists {a n at0 : Nat} {ix : Tab (BitVec 64)} {ovf : Bool} {ls : List Nat} (ha : a = le p 0 8)
    (hn : n = le p 8 8) (hspan : spanOk d a n = true)
    (hix : (ix, ovf) = if d.pwr.mode = .transit then d.sec.transitCopy.getD (d.sec.pidx, d.sec.povf) else (d.sec.pidx, d.sec.povf))
    (hat : d.mbx.poisonNext = some (a, n, at0) ∨ (at0 = 0 ∧ ∀ k, d.mbx.poisonNext ≠ some (a, n, k)))
    (hls : ls = (poisonIn ix a n).filter fun k => decide (at0 ≤ k)) :
    getPoison p d = ans rcOk (toLe 1 (b2n (decide (254 < ls.length)) + 2 * b2n ovf) ++ toLe 1 0 ++ stdBytes 11 0 8
        ++ toLe 2 (min 254 ls.length) ++ toLe 20 0 ++ (ls.take 254).flatMap (poisonRec d))
      { d with mbx.poisonNext := (ls[254]?).map fun k => (a, n, k) } := by
  subst ha hn hls
  unfold getPoison
  dsimp only
  rw [if_neg (by simp [hspan]), ← hix]
  rcases hat with hsame | ⟨rfl, hother⟩
  · simp only [hsame, and_self, if_true]
    rfl
  · cases hnext : d.mbx.poisonNext with
    | none => rfl
    | some next =>
      obtain ⟨a, n, k⟩ := next
      have hnew : ¬(a = le p 0 8 ∧ n = le p 8 8) := fun ⟨ha, hn⟩ => hother k (by rw [hnext, ha, hn])
      simp only [if_neg hnew]
      rfl

end

/-! ### Clearing event records and the interrupt policy (R345) -/

section
variable {p : List Byte} {d : Dev}

/-- A clear of the whole Failure log drops its records and its overflow. -/
theorem clearEvents_failure_all (hlog : byte p 0 = 2) (hall : byte p 1 = 1) :
    clearEvents p d = ret rcOk { d with
      mbx.logOvf := tset d.mbx.logOvf 2 0, mbx.ovfT := d.mbx.ovfT.filter (fun x => x.1 ≠ 2), mbx.failLog := [] } := by
  unfold clearEvents
  dsimp only
  rw [hlog, hall, if_pos (by decide)]
  simp only [logDrop, List.filter_false]

/-- A clear that names one record by a handle its log lacks clears nothing. -/
theorem clearEvents_unknown (hall : byte p 1 = 0) (hone : byte p 2 = 1) (hno : ∀ e ∈ evLog d (byte p 0), e.handle ≠ le p 6 2) :
    clearEvents p d = ret rcHandle d := by
  have hlacks : ((evLog d (byte p 0)).any fun e => decide (e.handle = le p 6 2)) = false := by
    rw [List.any_eq_false]
    intro e he
    simp [hno e he]
  unfold clearEvents
  dsimp only
  rw [hall, hone, if_neg (by decide)]
  exact if_pos (by simp [List.range_one, hlacks])

/-- A byte past the end of a payload reads zero (R11). -/
theorem byte_past {i : Nat} (h : p.length ≤ i) : byte p i = 0 := by
  simp [byte, le, List.drop_eq_nil_of_le h]

/-- A policy of modes below 3 is stored as it came. -/
theorem setPolicy_stores (h0 : byte p 0 < 3) (h1 : byte p 1 < 3) (h2 : byte p 2 < 3) (h3 : byte p 3 < 3) :
    setPolicy p d = { d with mbx.policy := [byte p 0, byte p 1, byte p 2, byte p 3] } := by
  have hmod : ∀ v : Nat, v < 3 → v % 4 = v := fun v hv => Nat.mod_eq_of_lt (by omega)
  have hrange : List.range 4 = [0, 1, 2, 3] := rfl
  simp only [setPolicy, hrange, List.map_cons, List.map_nil, hmod _ h0, hmod _ h1, hmod _ h2, hmod _ h3]

end

/-! ### The timestamp (R348) -/

/-- Set Timestamp moves TIME by the jump, not below 0. -/
theorem setTime_time (ns : Nat) (d : Dev) : (setTime ns d).time = jumpT (jumpBy d.time (ns / 10)) d.time := rfl

/-- What the jump leaves of the request is the residual; the period that starts keeps it. -/
theorem setTime_residual (ns : Nat) (d : Dev) :
    (setTime ns d).mbx.residual = ((ns / 10 : Nat) : Int) - (setTime ns d).time := by
  rw [setTime_time]
  simp only [setTime, periodStart_mbx]
  rfl

/-! ### Scan Media (R236, R345) -/

section
variable {p : List Byte} {d : Dev} {lo n : Nat}

/-- Scan Media of a span of this node runs over the span's fronds. -/
theorem scanStart_runs (hspan : spanOk d (le p 0 8) n = true) (hn : n = le p 8 8) (hlo : lo = le p 0 8 % 2 ^ 44 / 64) :
    scanStart p d = (.long (.scan (lo / 64) ((lo + n + 63) / 64) (decide (lo = 0) && decide (n = d.map.limit * 64))) 1
      ((lo + n + 63) / 64 - lo / 64), { d with mbx.scanRes := some (lo, lo + n, []) }) := by
  subst hn hlo
  unfold scanStart
  dsimp only
  rw [if_neg (by simp [hspan])]

/-- A read of results that all fit takes them all. -/
theorem scanResults_all {hi : Nat} {ix : Tab (BitVec 64)} (hres : d.mbx.scanRes = some (lo, hi, ix))
    (hfit : (poisonIn ix (lo * 64) (hi - lo)).length ≤ 254) :
    scanResults d = ans rcOk (toLe 8 0 ++ toLe 8 0 ++ toLe 1 0 ++ toLe 1 0
        ++ toLe 2 (poisonIn ix (lo * 64) (hi - lo)).length ++ toLe 12 0
        ++ (poisonIn ix (lo * 64) (hi - lo)).flatMap (poisonRec d))
      { d with mbx.scanRes := some (hi, hi, ix) } := by
  simp only [scanResults, hres, Option.getD_some, List.getElem?_eq_none hfit, decide_eq_false (Nat.not_lt.mpr hfit), b2n,
    Bool.false_eq_true, if_false, Nat.min_eq_right hfit, List.take_of_length_le hfit, Option.map_some]

end

/-! ### The statements -/

/-- Settles O49: the queries without an operand answer what their rule gives; the others where their operand is in bounds. -/
theorem standardQueries : Obligations.StandardQueries := by
  refine ⟨?noOperand, ?log, ?events, ?poison, ?scan⟩
  case noOperand =>
    intro tr d q ht
    exact ⟨run_query ht rfl, run_query ht rfl, run_query ht rfl, run_query ht rfl, run_query ht rfl, run_query ht rfl,
      run_query ht rfl, run_query ht rfl⟩
  case log =>
    intro tr p d q ht hl huuid hlen
    exact run_done ht rfl (by simp [len, hl]) (by omega) rfl (getLog_inside huuid hlen)
  case events =>
    intro tr p d q ht hl hlog
    exact run_done ht rfl (by simp [len, hl]) (by omega) (by simp [hlog]) rfl
  case poison =>
    intro tr p a n at0 ix ovf ls d q ht hl ha hn halign hspan hix hat hls
    exact run_done ht rfl (by simp [len, hl]) (by omega) (by simp [← ha, halign])
      (getPoison_lists ha hn hspan hix hat hls)
  case scan =>
    intro tr p d q ht hl halign hspan
    exact run_done ht rfl (by simp [len, hl]) (by omega) (by simp [halign]) (if_pos hspan)

/-- Settles O50: each setting passes its checks and is stored as the lemma about its body says. -/
theorem standardSettings : Obligations.StandardSettings := by
  refine ⟨?alerts, ?clearAll, ?clearUnknown, ?policy, ?time, ?scan, ?results⟩
  case alerts =>
    intro tr p d q ht hl h0 h1 h2 h3
    exact run_done ht rfl (by simp [len, hl]) (by omega) (by simp [h0, h1, h2, h3]) rfl
  case clearAll =>
    intro tr p d q ht hl hlog hall hnone hzero
    exact run_done ht rfl (by simp [hl, hnone]) (by omega) (by simp [hlog, hall, hzero]) (clearEvents_failure_all hlog hall)
  case clearUnknown =>
    intro tr p d q ht hl hlog hall hone hzero hno
    have hno' : ∀ e ∈ evLog d (byte p 0), e.handle ≠ le p 6 2 := by
      rw [hlog]
      exact hno
    exact run_done ht rfl (by simp [hl, hone]) (by omega) (by simp [hlog, hall, hzero]) (clearEvents_unknown hall hone hno')
  case policy =>
    intro tr p d q ht hl h0 h1 h2 h3
    have hfields : ((List.range 4).all (fun i => decide (byte p i < 3)) && decide (byte p 4 = 0)) = true := by
      simp [List.range_succ, h0, h1, h2, h3, byte_past hl.le]
    exact run_done ht rfl (by simp [hl]) (by omega) hfields (congrArg (ret rcOk) (setPolicy_stores h0 h1 h2 h3))
  case time =>
    intro tr p d q ht hl
    exact ⟨setTime (le p 0 8) d, run_done ht rfl (by simp [len, hl]) (by omega) rfl rfl, setTime_time _ d, setTime_residual _ d⟩
  case scan =>
    intro tr p lo n d q ht hl halign hflags hspan hn hlo
    exact run_long ht rfl (by simp [len, hl]) (by omega) (by simp [halign, hflags]) (scanStart_runs hspan hn hlo)
  case results =>
    intro tr lo hi ix d q ht hres hfit
    exact ⟨_, run_done ht rfl rfl (by decide) rfl (scanResults_all hres hfit), rfl⟩

end Sys2Proof.Machine
end

section
/-! Proof of the statement on the node's own queries: status and ledger, and the reads of memory through the mailbox and the
debug access port. -/

namespace Sys2Proof.Machine

/-! ### Status and ledger (R350, R351, R353, R358) -/

section
variable {d : Dev}

/-- IDENTIFY_NODE of an indexed TN-1640-A that runs the image of slot 2. -/
theorem identifyNode_indexed (hvar : d.variant = .A) (hidx : d.srn.indexed = true) (hrun : d.bfl.running = 2) :
    identifyNode d = toLe 1 0 ++ toLe 1 16 ++ toLe 1 2 ++ toLe 1 d.srn.index ++ toLe 4 0 ++ toLe 8 d.pst.nv.serial
      ++ toLe 8 d.bfl.version2 ++ toLe 8 d.map.limit := by
  simp only [identifyNode, Dev.engines, Dev.isM, hvar, hidx, hrun]
  rfl

/-- LEDGER_SNAPSHOT clears the maxima, the exclusions and the overruns where byte 0 asks for it. -/
theorem ledgerSnapshot_clears {p : List Byte} (h : byte p 0 < 2) :
    ledgerSnapshot p d = ans rcOk
      (regBytes d 0x100080 8 ++ regBytes d 0x100100 16 ++ regBytes d 0x100180 1 ++ regBytes d 0x100190 1)
      (if byte p 0 = 1 then { d with ldg.xtrmMax := [], ldg.xtrmExc := [], ldg.ovr := [], ldg.envMiss := 0 } else d) := by
  have hbit : bit (byte p 0) 0 = decide (byte p 0 = 1) := by interval_cases byte p 0 <;> rfl
  simp only [ledgerSnapshot, hbit, decide_eq_true_eq]
  rfl

end

/-! ### A line of management DMA (R221, R358) -/

section
variable {m k : Nat} {ts : Trouble} {d e : Dev}

/-- A line of a protected frond gives no data; the access is counted and recorded under its master. -/
theorem dmaLine_protected {n : Nat} {r : Range} (h : rangeOf d (k / 64) = some (n, r)) :
    dmaLine m ts k d = (rcProtected, 0, post 0x7010 2 m (ringAddr d.srn.index (k / 64) (k % 64) / 65536)
      (ringAddr d.srn.index (k / 64) (k % 64) % 65536) n { d with sec.cnt := bump d.sec.cnt 4 }) := by
  simp only [dmaLine, h]

/-- A line of no protected range is read, and says whether it is poisoned. -/
theorem dmaLine_open {x : Line} {po : Bool} (h : rangeOf d (k / 64) = none)
    (hread : backRead 6 (k / 64) (k % 64) ts d = ((x, po), e)) :
    dmaLine m ts k d = (if po then rcPoisoned else rcOk, x, e) := by
  simp only [dmaLine, h, hread]

/-- A good line is output, and the read goes on. -/
theorem memLines_good {ks : List Nat} {out : List Byte} {x : Line} (h : dmaLine 0 ts k d = (0, x, e)) :
    memLines ts (k :: ks) out d = memLines ts ks (out ++ lineBytes x) e := by
  simp only [memLines, h]

/-- A line that stops the read: those before it are output where it is poisoned, none where it is not. -/
theorem memLines_stops {rc : Nat} {ks : List Nat} {out : List Byte} {x : Line} (hrc : rc ≠ 0)
    (h : dmaLine 0 ts k d = (rc, x, e)) :
    memLines ts (k :: ks) out d = (rc, if rc = rcPoisoned then out else [], e) := by
  obtain ⟨c, rfl⟩ := Nat.exists_eq_succ_of_ne_zero hrc
  simp only [memLines, h]

end

/-! ### MEM_READ and the debug access port (R81, R221, R358) -/

section
variable {ts : Trouble} {d e : Dev}

/-- MEM_READ of a span of this node below MAP_LIMIT answers what its lines give, or runs on until the map line they wait for
is had. -/
theorem memRead_inside {p : List Byte} {k n : Nat} {taken : Option (Nat × List Byte)} (haddr : le p 0 8 < 2 ^ 48)
    (hidx : addrIndex (le p 0 8) = d.srn.index) (hk : k = le p 0 8 % 2 ^ 44 / 64) (hn : n = le p 8 2 / 64)
    (hlim : k + n ≤ d.map.limit * 64) (htake : memTake k n ts d = (taken, e)) :
    memRead ts p d = (taken.elim (.long (.mem k n) 0 n) fun x => .done x.1 x.2, e) := by
  subst hk hn
  have hin : ¬(2 ^ 48 ≤ le p 0 8 ∨ addrIndex (le p 0 8) ≠ d.srn.index ∨
      d.map.limit * 64 < le p 0 8 % 2 ^ 44 / 64 + le p 8 2 / 64) := by
    rintro (h | h | h)
    · exact absurd haddr (Nat.not_lt.mpr h)
    · exact h hidx
    · exact absurd hlim (Nat.not_le.mpr h)
  unfold memRead
  dsimp only
  rw [if_neg hin, htake]
  cases taken <;> rfl

/-- What the debug access port answers for a line. -/
def dbgData (rc : Nat) (x : Line) : Option Line := if rc = 0 then some x else none

/-- The debug access port takes a line of this node below MAP_LIMIT, or a bus error where the line cannot be had. -/
theorem debugRead_inside {a rc : Nat} {x : Line} (hon : d.on = true) (haddr : a < 2 ^ 48) (hidx : addrIndex a = d.srn.index)
    (hlim : addrFrond a < d.map.limit) (h : dmaLine 1 ts (a % 2 ^ 44 / 64) d = (rc, x, e)) :
    debugRead ts a d = emit (.dbg a (dbgData rc x)) e := by
  have hin : ¬(2 ^ 48 ≤ a ∨ addrIndex a ≠ d.srn.index) := by
    rintro (h | h)
    · exact absurd haddr (Nat.not_lt.mpr h)
    · exact h hidx
  rw [debugRead, if_neg (by simp [hon]), if_neg hin, if_neg (Nat.not_le.mpr hlim), h]
  cases rc <;> rfl

end

/-- The payload of a MEM_READ names whole lines, 63 at most. -/
def memFieldsOk (p : List Byte) : Bool :=
  decide (le p 0 8 % 64 = 0) && decide (le p 8 2 % 64 = 0) && decide (64 ≤ le p 8 2) && decide (le p 8 2 ≤ 4032)

/-- MEM_READ by a host is a mailbox command. -/
theorem exec_memRead_mailbox (tr : Transport) (p : List Byte) (ts : Trouble) (s : State) :
    exec (.memRead tr p ts false) s = run (command 0xC802 mSM false (len 10) memFieldsOk (memRead ts) tr p) s := rfl

/-- MEM_READ through the debug access port passes no mailbox. -/
theorem exec_memRead_debug (tr : Transport) (p : List Byte) (ts : Trouble) (s : State) :
    exec (.memRead tr p ts true) s = run (debugRead ts (le p 0 8)) s := rfl

/-! ### The statement -/

/-- Settles O51: the status commands answer what they name; a read of memory by what its lines give. -/
theorem nodeQueries : Obligations.NodeQueries := by
  refine ⟨?status, ?life, ?identify, ?snapshot, ?read, ?lines, ?refused, ?unprotected, ?debug⟩
  case status =>
    intro tr d q ht hM
    exact ⟨run_query ht (by simp [hM]), run_query ht (by simp [hM])⟩
  case life =>
    intro tr d q ht
    exact run_query ht rfl
  case identify =>
    intro tr d q ht hvar hidx hrun
    exact run_done ht rfl rfl (by decide) rfl (congrArg (ans rcOk · d) (identifyNode_indexed hvar hidx hrun))
  case snapshot =>
    intro tr p d q ht hl h
    exact run_done ht rfl (by simp [len, hl]) (by omega) (by simp [h]) (ledgerSnapshot_clears h)
  case read =>
    intro tr p ts k n d q ht hl halign hsize hmin hmax haddr hidx hk hn hlim
    have hfields : memFieldsOk p = true := by simp [memFieldsOk, halign, hsize, hmin, hmax]
    refine ⟨fun rc out e htake => ?_, fun e htake => ?_⟩ <;> rw [exec_memRead_mailbox]
    · exact run_done ht rfl (by simp [len, hl]) (by omega) hfields (memRead_inside haddr hidx hk hn hlim htake)
    · exact run_long ht rfl (by simp [len, hl]) (by omega) hfields (memRead_inside haddr hidx hk hn hlim htake)
  case lines =>
    exact fun ts k ks out x d e =>
      ⟨fun h => memLines_good h, fun h => memLines_stops (by decide) h, fun h => memLines_stops (by decide) h⟩
  case refused => exact fun m ts k n r d h => dmaLine_protected h
  case unprotected => exact fun m ts k x d e h => ⟨fun hread => dmaLine_open h hread, fun hread => dmaLine_open h hread⟩
  case debug =>
    intro tr p a ts d q hon ha haddr hidx hlim
    subst ha
    refine ⟨fun x e hline => ?_, fun rc x e hrc hline => ?_⟩
    · rw [exec_memRead_debug, run_eq, debugRead_inside hon haddr hidx hlim hline, dbgData, if_pos rfl]
    · rw [exec_memRead_debug, run_eq, debugRead_inside hon haddr hidx hlim hline, dbgData, if_neg hrc]

end Sys2Proof.Machine
end

section
/-! Proofs of the statements on the host port: decoders with their ring windows, back-invalidates with the snoop queries of
engine reads, and the link with its resets. -/

namespace Sys2Proof.Machine

/-! ### The arms of these commands -/

theorem exec_hdmDecoderCommit (n base size skip : Nat) (bi : Bool) (iw : Nat) (lock : Bool) (s : State) :
    exec (.hdmDecoderCommit n base size skip bi iw lock) s = run (decCommit n base size skip bi iw lock) s := rfl
theorem exec_hdmDecoderDecommit (n : Nat) (s : State) :
    exec (.hdmDecoderDecommit n) s = execHdmDecoderDecommit n s := rfl
theorem exec_winClaim (c : Cell) (w : Win) (s : State) : exec (.winClaim c w) s = run (winClaim c w) s := rfl
theorem exec_winReply (c : Cell) (w : Win) (s : State) : exec (.winReply c w) s = run (winReplied c w) s := rfl
theorem exec_winClaimReplyTimeout (n : Nat) (s : State) :
    exec (.winClaimReplyTimeout n) s = execWinClaimReplyTimeout n s := rfl
theorem exec_winCommit (c : Cell) (w : Win) (s : State) : exec (.winCommit c w) s = execWinCommit c w s := rfl
theorem exec_winRelease (c : Cell) (w : Win) (s : State) : exec (.winRelease c w) s = execWinRelease c w s := rfl
theorem exec_snpQry (c : Cell) (s : State) : exec (.snpQry c) s = execSnpQry c s := rfl
theorem exec_snpDone (c : Cell) (s : State) : exec (.snpDone c) s = execSnpDone c s := rfl
theorem exec_bisnpSend (s : State) : exec .bisnpSend s = run bisnpSend s := rfl
theorem exec_birsp (line : Nat) (wb : Option Line) (s : State) : exec (.birsp line wb) s = run (birsp line wb) s := rfl
theorem exec_biconflict (line : Nat) (s : State) : exec (.biconflict line) s = execBiconflict line s := rfl
theorem exec_linkUp (w r flit : Nat) (s : State) : exec (.linkUp w r flit) s = execLinkUp w r flit s := rfl
theorem exec_linkDown (s : State) : exec .linkDown s = run (portReset 3) s := rfl
theorem exec_hotReset (s : State) : exec .hotReset s = run (portReset 1) s := rfl
theorem exec_cxlReset (s : State) : exec .cxlReset s = run (portReset 2) s := rfl

/-- The three resets of the port differ in their cause alone (R259). -/
theorem exec_portReset {c : Nat} {i : Instr} (h : (i, c) ∈ [(Instr.hotReset, 1), (.cxlReset, 2), (.linkDown, 3)]) (s : State) :
    exec i s = .next { s with dev := portReset c s.dev } := by
  simp only [List.mem_cons, Prod.mk.injEq, List.not_mem_nil, or_false] at h
  rcases h with ⟨rfl, rfl⟩ | ⟨rfl, rfl⟩ | ⟨rfl, rfl⟩
  · exact exec_hotReset s
  · exact exec_cxlReset s
  · exact exec_linkDown s

theorem exec_perstAsserted (s : State) : exec .perstAsserted s = execPerstAsserted s := rfl
theorem exec_perstDeasserted (s : State) : exec .perstDeasserted s = execPerstDeasserted s := rfl
theorem exec_configRequest (tag : Nat) (v : Option Bool) (s : State) :
    exec (.configRequest tag v) s = execConfigRequest tag v s := rfl
theorem exec_doeCdatRead (s : State) : exec .doeCdatRead s = execDoeCdatRead s := rfl
theorem exec_doeSpdm (s : State) : exec .doeSpdm s = execDoeSpdm s := rfl
theorem exec_ideKm (k : Nat) (skid : Bool) (s : State) : exec (.ideKm k skid) s = execIdeKm k skid s := rfl
theorem exec_gpfPhase1 (s : State) : exec .gpfPhase1 s = execGpfPhase1 s := rfl
theorem exec_gpfPhase2 (s : State) : exec .gpfPhase2 s = execGpfPhase2 s := rfl

/-! ### Decoders and windows -/

/-- A node alone in its ring has no one to send a cell to. -/
theorem cellAll_alone {d : Dev} (type st : Nat) (payload : List Nat) (h : peers d = []) : cellAll type st payload d = d := by
  rw [cellAll, h, List.foldl_nil]

/-- A window enters the table in its decoder's place while 63 others at most are in it (R247). -/
theorem winPut_fits {w : Win} {d : Dev} (st : WinSt)
    (h : (d.hst.wins.filter fun x => !(x.1.port = w.port && x.1.dec = w.dec)).length < 64) :
    winPut w st d = { d with
      hst.wins := (d.hst.wins.filter fun x => !(x.1.port = w.port && x.1.dec = w.dec)) ++ [(w, st)] } :=
  if_pos h

section
variable {n base size skip iw : Nat} {bi lock : Bool} {d e : Dev}
  (hn : n < 4) (hup : d.hst.up = true) (hst : (tget d.hst.decs n).st = .uncommitted)
  (he : e = decMod n (fun _ => { base, size, skip, bi, lock, startT := d.time }) d)

include hn hup hst he

/-- A commit that breaks one of rules 1 to 4 is refused with that rule's reason (R246). -/
theorem decCommit_refuses {r : Nat} (hlocal : decLocal e n base size skip bi iw = some r) :
    decCommit n base size skip bi iw lock d = decRefuse n r 31 0 e := by
  subst he
  simp [decCommit, hup, hst, hlocal, Nat.not_le.mpr hn]

/-- A commit whose rules hold needs no claim where there is no other member (R247). -/
theorem decCommit_alone (hlocal : decLocal e n base size skip bi iw = none) (hwin : winCheck e (decWin e n) = (0, 31, 0))
    (halone : peers e = []) : decCommit n base size skip bi iw lock d = decCommitted n e := by
  subst he
  simp [decCommit, hup, hst, hlocal, hwin, halone, Nat.not_le.mpr hn]

end

/-- Alone, a node that commits enters the window in its own table only. -/
theorem decCommitted_alone {n : Nat} {d : Dev} (h : peers d = []) : decCommitted n d =
    post 0x1010 0 n ((decWin d n).base * 4096) (decWin d n).size (b2n (decWin d n).db)
      (decMod n (fun x => { x with st := .committed, reason := 0, peer := 31, peerDec := 0, waiting := [] })
        (winPut (decWin d n) .committed d)) := by
  rw [decCommitted, cellAll_alone _ _ _ h]

section
variable {c : Cell} {w : Win} {d e : Dev}

/-- A claim that fits this slice and meets no other decoder's window is granted (R247). -/
theorem winClaim_grants (hacc : acceptCell c 0x10 true d = (true, e)) (hfit : sliceFits e w = true)
    (hfree : (e.hst.wins.filter fun x => winOverlap x.1 w && !(x.1.port = w.port && x.1.dec = w.dec)) = []) :
    winClaim c w d = cellTo 0x11 c.src c.tag 0 0 (winWords w) (winPut w .claiming e) := by
  simp only [winClaim, hacc, hfit, hfree, Bool.not_true, Bool.false_eq_true, if_false, List.filter_nil, List.foldl_nil]

/-- The member that grants last commits the claim that no one refused (R247). -/
theorem winReplied_last_grant {n : Nat} {f : Dev} (hacc : acceptCell c 0x11 true d = (true, e)) (hgrant : c.status = 0)
    (hn : n = c.tag % 4) (hst : (tget e.hst.decs n).st = .claiming) (hwait : (tget e.hst.decs n).waiting = [c.src])
    (hf : f = decMod n (fun x => { x with waiting := x.waiting.filter (· ≠ c.src) }) e)
    (hnone : (tget f.hst.decs n).waiting = []) (hreason : (tget f.hst.decs n).reason = 0) :
    winReplied c w d = decCommitted n f := by
  subst hn hf
  simp only [winReplied, hacc, hgrant, hst, hwait, List.mem_singleton, not_true_eq_false, ne_eq, or_self, Bool.not_true,
    Bool.false_eq_true, if_false, decide_false, Bool.false_and]
  rw [if_neg (by simpa using hnone), if_pos hreason]

end

/-- A claim without a reply fails with reason 7 where no lower reason was gathered (R247). -/
theorem winClaimReplyTimeout_fails {n : Nat} {d : Dev} (q : List Instr) (hst : (tget d.hst.decs n).st = .claiming)
    (hreason : (tget d.hst.decs n).reason = 0 ∨ 7 ≤ (tget d.hst.decs n).reason) :
    exec (.winClaimReplyTimeout n) ⟨d, q⟩ = .next ⟨decFail n 7 31 0 d, q⟩ := by
  have hno : ¬((tget d.hst.decs n).reason ≠ 0 ∧ (tget d.hst.decs n).reason < 7) := by omega
  simp only [exec_winClaimReplyTimeout, execWinClaimReplyTimeout, run_eq, hst, ne_eq, not_true_eq_false, if_false, if_neg hno]

/-- An accepted WIN_COMMIT enters its window. -/
theorem winCommit_enters {c : Cell} {d e : Dev} (w : Win) (q : List Instr) (hacc : acceptCell c 0x12 true d = (true, e)) :
    exec (.winCommit c w) ⟨d, q⟩ = .next ⟨winPut w .committed e, q⟩ := by
  simp only [exec_winCommit, execWinCommit, run_eq, hacc, if_true]

/-- An accepted WIN_RELEASE removes its window. -/
theorem winRelease_removes {c : Cell} {d e : Dev} (w : Win) (q : List Instr) (hacc : acceptCell c 0x13 true d = (true, e)) :
    exec (.winRelease c w) ⟨d, q⟩ = .next ⟨winDrop w.port w.dec e, q⟩ := by
  simp only [exec_winRelease, execWinRelease, run_eq, hacc, if_true]

/-- A committed decoder with no line to back-invalidate is released at once (R249). -/
theorem decDecommit_releases {n : Nat} {d : Dev} (hst : (tget d.hst.decs n).st = .committed)
    (hrel : (tget d.hst.decs n).release = false) (hlines : (tget d.hst.decs n).bi = false ∨ sfLines d (decWin d n) = []) :
    decDecommit n d = decRelease n (decMod n (fun x => { x with release := true, removed := 0, startT := d.time }) d) := by
  have hnone : (if (tget d.hst.decs n).bi = true then sfLines d (decWin d n) else []) = [] := by
    rcases hlines with hbi | hsf
    · rw [hbi]; rfl
    · rw [hsf, ite_self]
  simp [decDecommit, hst, hrel, hnone]

/-! ### Snoop queries and back-invalidates -/

/-- What blocks a ring frond is a waiting back-invalidate or a write-back on the ring (R309). -/
theorem snpBlocked_congr {d e : Dev} (hbis : e.hst.bis = d.hst.bis) (hrem : e.srn.remotes = d.srn.remotes) :
    snpBlocked e = snpBlocked d := by
  funext rf
  rw [snpBlocked, hbis, hrem]
  rfl

/-- With no query outstanding nothing is answered. -/
theorem snpAnswer_nil {d : Dev} (h : d.hst.snpAsks = []) : snpAnswer d = { d with hst.snpAsks := [] } := by
  rw [snpAnswer, h]
  rfl

/-- Behind queries that stay blocked, one of another node that nothing blocks is answered at once (R309). -/
theorem snpAnswer_newest {d : Dev} {asks : List (Nat × Nat × Nat)} {src tag rf : Nat} (h : d.hst.snpAsks = asks ++ [(src, tag, rf)])
    (hheld : ∀ x ∈ asks, snpBlocked d x.2.2 = true) (hfree : snpBlocked d rf = false) (hsrc : src ≠ d.srn.index) :
    snpAnswer d = cellTo 0x0C src tag (rf % 2 ^ 32 * 64) 0 [] { d with hst.snpAsks := asks } := by
  have hkeep : (asks.filter fun x => snpBlocked d x.2.2) = asks := List.filter_eq_self.mpr hheld
  have hdrop : (asks.filter fun x => !snpBlocked d x.2.2) = [] := List.filter_eq_nil_iff.mpr fun x hx => by simp [hheld x hx]
  simp [snpAnswer, h, List.partition_eq_filter_filter, hkeep, hdrop, hfree, hsrc, Function.comp_def]

/-- A query for a ring frond of which the host holds no line in state A, and that nothing blocks, is answered at once (R309). -/
theorem snpAsk_answers {d : Dev} {src tag rf : Nat} (hclean : ∀ l, l / 64 = rf → (sfLook d (l * 64)).map (·.2) ≠ some .a)
    (hfree : snpBlocked d rf = false) (hheld : ∀ x ∈ d.hst.snpAsks, snpBlocked d x.2.2 = true) (hsrc : src ≠ d.srn.index) :
    snpAsk src tag rf d = cellTo 0x0C src tag (rf % 2 ^ 32 * 64) 0 [] d := by
  have hlines : (((List.range 64).map (rf * 64 + ·)).filter fun l => ((sfLook d (l * 64)).map (·.2)) = some .a) = [] := by
    rw [List.filter_eq_nil_iff]
    intro l hl
    obtain ⟨i, hi, rfl⟩ := List.mem_map.mp hl
    rw [decide_eq_true_eq]
    exact hclean _ (by have := List.mem_range.mp hi; omega)
  simp only [snpAsk, hlines, List.filter_nil, List.map_nil, List.append_nil]
  have hsame := snpBlocked_congr (d := d) (e := { d with hst.snpAsks := d.hst.snpAsks ++ [(src, tag, rf)] }) rfl rfl
  exact snpAnswer_newest rfl (by rwa [hsame]) (by rwa [hsame]) hsrc

/-- The oldest waiting back-invalidate goes out once and is counted; only an engine's query leaves the line with the host (R254). -/
theorem bisnpSend_oldest {d : Dev} {i : Nat} {b : Bi} (hup : d.hst.up = true)
    (hi : (d.hst.bis.findIdx? fun b => !b.sent) = some i) (hb : d.hst.bis[i]? = some b) :
    bisnpSend d = { d with
      hst.bis := d.hst.bis.set i { b with sent := true }
      hst.cnt := bump d.hst.cnt 3
      out := .bisnp b.line (match b.why with
        | .engine _ => false
        | _ => true) :: d.out } := by
  simp only [bisnpSend, hup, hi, hb, Bool.not_true, Bool.false_eq_true, if_false]
  rfl

/-- A response without data retires the victim's entry, which may lift the withholding of credits (R254, R255). -/
theorem birsp_retires_victim {d : Dev} {line : Nat} {b : Bi} (hb : (d.hst.bis.find? fun b => b.line = line && b.sent) = some b)
    (hwhy : b.why = .victim) : birsp line none d = snpAnswer (sfThresholds { d with hst.bis := d.hst.bis.erase b }) := by
  simp only [birsp, hb, hwhy]

/-- The conflict handshake of a line answers its entry sent, once (R254). -/
theorem biconflict_answers {d : Dev} {line i : Nat} {b : Bi} (q : List Instr)
    (hi : (d.hst.bis.findIdx? fun b => b.line = line && b.sent && !b.conflict) = some i) (hb : d.hst.bis[i]? = some b) :
    exec (.biconflict line) ⟨d, q⟩ = .next ⟨{ d with
      hst.bis := d.hst.bis.set i { b with conflict := true }
      out := .conflictDone line :: d.out }, q⟩ := by
  simp only [exec_biconflict, execBiconflict, run_eq, hi, hb]
  rfl

/-! ### The link and its resets -/

/-- A link comes up while the node's firmware runs and PERST is not held (R241, R259). -/
theorem linkUp_offers_credits {d : Dev} (w r flit : Nat) (q : List Instr) (hup : d.hst.up = false) (hperst : d.hst.perst = false)
    (hfw : d.pwr.mode.firmware = true) (hhalt : d.pwr.mode ≠ .halt) :
    exec (.linkUp w r flit) ⟨d, q⟩ = .next ⟨postIf (decide (w < 16) || decide (r < 64)) 0x1003 1 w r 0 0
        (post 0x1001 0 w r flit 0 { d with
      hst.up := true
      hst.width := w
      hst.rate := r
      hst.flit := flit
      hst.memActive := d.pwr.mode.serves
      csh.credHost := 512
      csh.owedHost := 0 }), q⟩ := by
  rw [exec_linkUp, execLinkUp, run_eq, if_neg (by simp [hup, hperst, hfw, hhalt])]

/-- A reset of a port with nothing under way takes what the port holds and no more (R259). -/
theorem portReset_quiet {d : Dev} (c : Nat) (hup : d.hst.up = true) (hreqs : d.rp.reqs = [])
    (hdecs : ∀ n, (tget d.hst.decs n).st ≠ .committed ∧ (tget d.hst.decs n).st ≠ .claiming) (hasks : d.hst.snpAsks = [])
    (hrem : d.srn.remotes = []) (hrun : d.mbx.run = none) :
    portReset c d = admitEval { post 0x1002 1 c 0 0 0 { d with
      hst.width := 0
      hst.rate := 0
      hst.flit := 0
      hst.up := false
      hst.memActive := false
      hst.decs := []
      hst.sf := []
      hst.bis := []
      hst.credHeld := false
      csh.credHost := 0
      csh.owedHost := 0 } with hst.snpAsks := [] } := by
  have hremotes : ∀ f, d.srn.remotes.map f = d.srn.remotes := fun f => by rw [hrem, List.map_nil]
  have hcommand : ∀ f, d.mbx.run.map f = d.mbx.run := fun f => by rw [hrun, Option.map_none]
  unfold portReset
  rw [if_neg (by simp [hup])]
  dsimp only
  rw [List.foldl_fixed' (a := d)]
  case hf =>
    intro n
    obtain ⟨hcom, hcl⟩ := hdecs n
    split
    · contradiction
    · contradiction
    · rfl
  rw [hreqs, List.filter_nil, List.foldl_nil, hremotes, hcommand, hostDown, postIf, if_pos hup]
  exact congrArg admitEval (snpAnswer_nil hasks)

/-! ### The statements -/

/-- Settles O37: each command of decoders and windows by the equation of its case. -/
theorem hostWindows : Obligations.HostWindows := by
  refine ⟨?commit, ?refuse, ?claim, ?reply, ?timeout, ?enter, ?remove, ?decommit, ?locked⟩
  case commit =>
    intro n base size skip bi lock d e q hn hup hst he hlocal hwin halone
    rw [exec_hdmDecoderCommit, run_eq, decCommit_alone hn hup hst he hlocal hwin halone, decCommitted_alone halone]
  case refuse =>
    intro n base size skip bi lock d e q hn hup hst he hlocal
    rw [exec_hdmDecoderCommit, run_eq, decCommit_refuses hn hup hst he hlocal]
    rfl
  case claim =>
    intro c w d e q hacc hfit hfree
    rw [exec_winClaim, run_eq, winClaim_grants hacc hfit hfree]
  case reply =>
    rintro c w n d e f q _ hacc hgrant hn rfl hst hwait - hf hnone hreason
    rw [exec_winReply, run_eq, winReplied_last_grant hacc hgrant hn hst hwait hf hnone hreason]
  case timeout =>
    rintro n d _ q hst hreason rfl
    exact winClaimReplyTimeout_fails q hst hreason
  case enter =>
    intro c w d e q hacc hroom
    rw [winCommit_enters w q hacc, winPut_fits _ hroom]
  case remove => exact fun c w d e q hacc => winRelease_removes w q hacc
  case decommit =>
    intro n d q hn hup hst hrel hlock hlines
    rw [exec_hdmDecoderDecommit, execHdmDecoderDecommit, run_eq, if_neg (by simp [hn, hup, hlock]),
      decDecommit_releases hst hrel hlines]
  case locked =>
    intro n d q hst hlock
    rw [exec_hdmDecoderDecommit, execHdmDecoderDecommit, run_eq, if_pos (.inr (.inr ⟨hlock, hst⟩))]

/-- Settles O38: a query by what blocks its frond, each back-invalidate by its place in the buffer. -/
theorem hostSnoops : Obligations.HostSnoops := by
  refine ⟨?query, ?done, ?send, ?response, ?conflict⟩
  case query =>
    intro c d e q hacc hclean hfree hheld hsrc
    simp only [exec_snpQry, execSnpQry, run_eq, hacc, if_true, snpAsk_answers hclean hfree hheld hsrc]
  case done =>
    intro c d e q hacc
    simp only [exec_snpDone, execSnpDone, run_eq, hacc, if_true]
  case send =>
    intro d q i b hup hi hb
    exact congrArg (fun e : Dev => Host.Outcome.next (State.mk e q)) (bisnpSend_oldest hup hi hb)
  case response =>
    intro line d q b hb hwhy
    rw [exec_birsp, run_eq, birsp_retires_victim hb hwhy]
  case conflict => exact fun line i d q b hi hb => biconflict_answers q hi hb

/-- Settles O39: a reset of a quiet port by what it takes, every other command by its guard. -/
theorem hostLink : Obligations.HostLink := by
  refine ⟨?up, ?quiet, ?perst, ?ready, ?resets, ?retry, ?config, ?cdat, ?spdm, ?keys, ?gpf1, ?gpf2⟩
  case up => exact fun w r flit d q hup hperst hfw hhalt => linkUp_offers_credits w r flit q hup hperst hfw hhalt
  case quiet =>
    intro c i d q hi hup hreqs hdecs hasks hrem hrun
    rw [exec_portReset hi, portReset_quiet c hup hreqs hdecs hasks hrem hrun]
  case perst => exact fun d q => exec_perstAsserted _
  case ready =>
    intro d q hfw hhalt hboot hno
    simp [exec_perstDeasserted, execPerstDeasserted, run_eq, hfw, hhalt, hboot, hno]
  case resets => exact fun d q => ⟨exec_hotReset _, exec_cxlReset _, exec_linkDown _⟩
  case retry =>
    intro tag v d q hup hready
    rw [exec_configRequest, execConfigRequest, run_eq, if_neg (by simp [hup]), if_pos (by simp [hready]), emit]
  case config =>
    rintro tag v d _ q hup hready rfl
    rw [exec_configRequest, execConfigRequest, run_eq, if_neg (by simp [hup]), if_neg (by simp [hready]), emit]
  case cdat =>
    intro d q hup hready
    rw [exec_doeCdatRead, execDoeCdatRead, run_eq, if_neg (by simp [hup, hready]), emit]
  case spdm =>
    intro d q hup hready
    rw [exec_doeSpdm, execDoeSpdm, run_eq, if_pos ⟨hup, hready⟩, emit]
  case keys =>
    intro s k d q hup hready hs
    rw [exec_ideKm, execIdeKm, run_eq, if_pos ⟨hup, hready, hs⟩]
  case gpf1 =>
    intro d q hup
    rw [exec_gpfPhase1, execGpfPhase1, run_eq, if_pos hup, emit]
  case gpf2 =>
    intro d q hup
    rw [exec_gpfPhase2, execGpfPhase2, run_eq, if_pos hup, emit]

end Sys2Proof.Machine
end

section
/-! Proofs of the statements on the ring's cells: what becomes of a cell at its destination and on its way, what an owner
answers, and the requester's retries and holds (R271–R278, R290, R291). -/

namespace Sys2Proof.Machine

/-! ### A command's next state, and what a change of a port leaves as it was -/

/-- A command whose effect is known goes on with it, the queue as it was. -/
theorem run_next {f : Dev → Dev} {d t : Dev} (q : List Instr) (h : f d = t) : run f ⟨d, q⟩ = .next ⟨t, q⟩ := by
  rw [run_eq, h]

section
variable (s : Side) (f : RPort → RPort) (d : Dev)

@[simp] theorem portMod_time : (portMod s f d).time = d.time := by cases s <;> rfl
@[simp] theorem portMod_index : (portMod s f d).srn.index = d.srn.index := by cases s <;> rfl
@[simp] theorem portMod_splice : (portMod s f d).srn.splice = d.srn.splice := by cases s <;> rfl
@[simp] theorem portMod_cnt : (portMod s f d).srn.cnt = d.srn.cnt := by cases s <;> rfl
@[simp] theorem portMod_epoch : (portMod s f d).srn.epoch = d.srn.epoch := by cases s <;> rfl
@[simp] theorem portMod_prevEpoch : (portMod s f d).srn.prevEpoch = d.srn.prevEpoch := by cases s <;> rfl
@[simp] theorem portMod_seqs : (portMod s f d).srn.seqs = d.srn.seqs := by cases s <;> rfl
@[simp] theorem portMod_authSec : (portMod s f d).srn.authSec = d.srn.authSec := by cases s <;> rfl
@[simp] theorem portMod_bypassA : (portMod s f d).srn.bypassA = d.srn.bypassA := by cases s <;> rfl
@[simp] theorem portMod_bypassB : (portMod s f d).srn.bypassB = d.srn.bypassB := by cases s <;> rfl

@[simp] theorem portOf_otherSide_portMod : portOf (portMod s f d) (otherSide s) = portOf d (otherSide s) := by cases s <;> rfl

/-- Two changes of a port are one. -/
theorem portMod_portMod (g : RPort → RPort) : portMod s g (portMod s f d) = portMod s (fun p => g (f p)) d := by cases s <;> rfl

end

/-! ### A cell at its destination (R273, R275, R278) -/

section
variable (s : Side) (vc units : Nat) (d : Dev)

@[simp] theorem linkFree_cnt : (linkFree s vc units d).srn.cnt = d.srn.cnt := portMod_cnt ..
@[simp] theorem linkFree_time : (linkFree s vc units d).time = d.time := portMod_time ..
@[simp] theorem linkFree_epoch : (linkFree s vc units d).srn.epoch = d.srn.epoch := portMod_epoch ..
@[simp] theorem linkFree_prevEpoch : (linkFree s vc units d).srn.prevEpoch = d.srn.prevEpoch := portMod_prevEpoch ..
@[simp] theorem linkFree_seqs : (linkFree s vc units d).srn.seqs = d.srn.seqs := portMod_seqs ..
@[simp] theorem linkFree_authSec : (linkFree s vc units d).srn.authSec = d.srn.authSec := portMod_authSec ..

end

section
variable {c : Cell} {ty : Nat} {d : Dev} (hon : d.pwr.mode.ringOn = true) (hm : d.isM = false) (hdump : d.pwr.dumping = false)
include hon hm hdump

/-- A cell that fails its header CRC is discarded, its space free again. -/
theorem acceptCell_badHeader (ci : Bool) (hhdr : c.hdrOk = false) :
    acceptCell c ty ci d = (false, { linkFree (arriveSide c) (cellVc ty) (plenUnits c.plen) d with srn.cnt := bump d.srn.cnt 5 }) := by
  simp [acceptCell, hon, hm, hdump, hhdr]

variable (hhdr : c.hdrOk = true) (hplen : c.plen ≠ 3)
include hhdr hplen

/-- A cell of a plain type is accepted on its header. -/
theorem acceptCell_plain :
    acceptCell c ty false d =
      (true, { linkFree (arriveSide c) (cellVc ty) (plenUnits c.plen) d with srn.cnt := bump d.srn.cnt 1 }) := by
  simp [acceptCell, hon, hm, hdump, hhdr, hplen]

/-- A cell that fails its ICV is discarded; the first of a second is recorded. -/
theorem acceptCell_badIcv (hicv : c.icvOk = false) :
    acceptCell c ty true d = (false, postIf (decide (d.srn.authSec ≠ d.time / 100000000 + 1)) 0x200B 2 c.src ty c.seq 1
      { linkFree (arriveSide c) (cellVc ty) (plenUnits c.plen) d with
        srn.cnt := bump d.srn.cnt 6
        srn.authSec := d.time / 100000000 + 1 }) := by
  simp [acceptCell, hon, hm, hdump, hhdr, hplen, hicv]

variable (hicv : c.icvOk = true) (hep : c.epoch = d.srn.epoch ∨ d.srn.prevEpoch = some c.epoch)
include hicv hep

/-- A cell whose ICV holds, under an epoch in force, is accepted when its SEQ is not below the window and was not seen; the
window follows it. -/
theorem acceptCell_new {w : SeqWin} (hw : w = tget d.srn.seqs (c.src * 4 + c.epoch)) (hwin : w.high ≤ c.seq + 1024)
    (hnew : c.seq ∉ w.seen) :
    acceptCell c ty true d = (true, { linkFree (arriveSide c) (cellVc ty) (plenUnits c.plen) d with
      srn.seqs := tset d.srn.seqs (c.src * 4 + c.epoch) {
        high := max w.high c.seq
        seen := (c.seq :: w.seen).filter fun q => decide (max w.high c.seq ≤ q + 1024) }
      srn.cnt := bump d.srn.cnt 1 }) := by
  have hin : (decide (c.epoch = d.srn.epoch) || decide (d.srn.prevEpoch = some c.epoch)) = true := by simpa using hep
  simp [acceptCell, hon, hm, hdump, hhdr, hplen, hicv, hin, ← hw, hnew, Nat.not_lt.mpr hwin]

/-- One whose SEQ was accepted is discarded. -/
theorem acceptCell_replayed (hseen : c.seq ∈ (tget d.srn.seqs (c.src * 4 + c.epoch)).seen) :
    acceptCell c ty true d =
      (false, { linkFree (arriveSide c) (cellVc ty) (plenUnits c.plen) d with srn.cnt := bump d.srn.cnt 7 }) := by
  have hin : (decide (c.epoch = d.srn.epoch) || decide (d.srn.prevEpoch = some c.epoch)) = true := by simpa using hep
  simp [acceptCell, hon, hm, hdump, hhdr, hplen, hicv, hin, hseen, List.ne_nil_of_mem hseen]

end

/-- Settles O18: a cell goes by its header, then by its ICV, then by its SEQ, which a window below it accepts and one that has seen
it does not. -/
theorem cellAcceptance : Obligations.CellAcceptance := by
  refine ⟨?accepted, ?plain, ?header, ?icv, ?replayed⟩
  case accepted =>
    intro c ty d hon hm hdump hhdr hplen hicv hep hhigh hseen
    rw [acceptCell_new hon hm hdump hhdr hplen hicv hep rfl (by omega) hseen, Nat.max_eq_right hhigh.le]
  case plain => exact fun c ty d hon hm hdump hhdr hplen => acceptCell_plain hon hm hdump hhdr hplen
  case header => exact fun c ty ci d hon hm hdump hhdr => acceptCell_badHeader hon hm hdump ci hhdr
  case icv =>
    intro c ty d hon hm hdump hhdr hplen hicv hfirst
    rw [acceptCell_badIcv hon hm hdump hhdr hplen hicv, decide_eq_true hfirst]
    rfl
  case replayed =>
    exact fun c ty d hon hm hdump hhdr hplen hicv hep hseen => acceptCell_replayed hon hm hdump hhdr hplen hicv hep hseen

/-! ### Requests at the owner (R274, R276, R277, R290) -/

section
variable {c : Cell} {ty : Nat} {wr : Option WrBody} {d e : Dev} (fx : ReqFx) (lat : Lat)
  (hacc : acceptCell c ty true d = (true, e))
include hacc

/-- A node that dumps answers every accepted request by NAK. -/
theorem ringEnter_dumping (hdump : e.pwr.dumping = true) :
    ringEnter c ty wr fx lat d = sendCell 0x06 c.src c.tag c.line (ringTo e c.src) 1 false [] e := by
  simp [ringEnter, hacc, hdump]

variable (hdump : e.pwr.dumping = false) (hstop : e.pwr.stopping = false) (hmem : isMember e = true)
include hdump hstop hmem

/-- A member out of the modes that serve answers a read with poison. -/
theorem ringEnter_unserved_read (hmode : e.pwr.mode.serves = false) :
    ringEnter c ty none fx lat d = sendCell 0x02 c.src c.tag c.line (ringTo e c.src) 0 true [0] e := by
  simp [ringEnter, hacc, hdump, hstop, hmem, hmode]

/-- A write whose TAG was applied is acknowledged again, counted. -/
theorem ringEnter_again (hmode : e.pwr.mode.serves = true) (hwr : wr.isSome = true)
    (happ : (e.srn.applied.any fun x => x.1 = c.src * 65536 + c.tag) = true) :
    ringEnter c ty wr fx lat d =
      sendCell 0x04 c.src c.tag c.line (ringTo e c.src) 1 false [] { e with srn.cnt := bump e.srn.cnt 10 } := by
  simp only [ringEnter, hacc, hdump, hstop, hmem, hmode, hwr, happ]
  rfl

/-- In Service a request that was not applied enters the probe, a write with the check of its port's credits (R147). -/
theorem ringEnter_service (hmode : e.pwr.mode = .service)
    (hnew : wr.isSome = true → (e.srn.applied.any fun x => x.1 = c.src * 65536 + c.tag) = false) :
    ringEnter c ty wr fx lat d =
      enterProbe { id := e.rp.nextId, org := .ring c.src c.tag c.ringB, frond := c.line / 64, line := c.line % 64, wr,
                   stage := .mapRead, slice := e.time / 100 } fx lat
        { e with ldg.noCredit := e.ldg.noCredit ||
            (wr.isSome && decide ((if c.ringB then e.csh.credE else e.csh.credW) ≤ ringWrites c.ringB e)) } := by
  simp only [ringEnter, hacc, hdump, hstop, hmem, hmode, Bool.and_eq_false_imp.mpr hnew, Mode.serves, wakeCause]
  rfl

end

/-- Settles O19: the owner's answer goes by its state, and a request that it serves misses both caches and awaits its map line. -/
theorem ownerCells : Obligations.OwnerCells := by
  refine ⟨?read, ?poison, ?write, ?again, ?nak, ?expiry⟩
  case read =>
    intro c fx lat d e q hacc hdump hstop hmem hmode hdir hway hlim hset hslot hheld hform href
    refine run_next q ?_
    rw [ringEnter_service (wr := none) fx lat hacc hdump hstop hmem hmode nofun]
    simp only [Option.isSome_none, Bool.false_and, Bool.or_false]
    rw [enterProbe_miss]
    case h5 => exact .inr hslot
    exacts [rfl, rfl, hdir, hway, hlim, hset, hheld, hform, href]
  case poison =>
    intro c fx lat d e q hacc hdump hstop hmem hmode
    exact run_next q (ringEnter_unserved_read fx lat hacc hdump hstop hmem hmode)
  case write =>
    intro c data be fx lat d e q hacc hdump hstop hmem hmode happ hdir hway hlim hset hheld hform href
    refine run_next q ?_
    rw [ringEnter_service fx lat hacc hdump hstop hmem hmode (fun _ => happ), enterProbe_miss]
    case h5 => exact .inl rfl
    exacts [rfl, rfl, hdir, hway, hlim, hset, hheld, hform, href]
  case again =>
    intro c data be fx lat d e q hacc hdump hstop hmem hmode happ
    exact run_next q (ringEnter_again fx lat hacc hdump hstop hmem hmode rfl happ)
  case nak =>
    intro c data be fx lat d e q hacc hdump
    exact run_next q (ringEnter_dumping fx lat hacc hdump)
  case expiry => exact fun src tag d q => rfl

/-! ### Cells on their way, retries and holds (R271–R273, R277, R291) -/

section
variable {ty : Nat} {c : Cell} {d : Dev} (hon : d.pwr.mode.ringOn = true) (hm : d.isM = false)
  (hset : (if c.ringB ≠ c.fold then d.srn.bypassB else d.srn.bypassA) = false) (hhdr : c.hdrOk = true)
  (hty : cellTypeOk ty = true) (hplen : c.plen ≠ 3)
include hon hm hset hhdr hty hplen

/-- A cell for another member goes on at the port of its ring with one link less to live. -/
theorem forwardCell_waits (httl : 1 < c.ttl) :
    forwardCell ty c d = queueCell (c.ringB ≠ c.fold) {
        transit := true, cls := cellCls ty, vc := cellVc ty, units := plenUnits c.plen, fold := c.fold,
        body := .transit ty { c with ttl := c.ttl - 1 } }
      { linkFree (arriveSide c) (cellVc ty) (plenUnits c.plen) d with srn.cnt := bump d.srn.cnt 2 } := by
  simp [forwardCell, hon, hm, hset, hhdr, hty, hplen, Nat.not_le.mpr httl]

/-- A cell whose TTL is spent is dropped and counted. -/
theorem forwardCell_spent (httl : c.ttl ≤ 1) :
    forwardCell ty c d = { linkFree (arriveSide c) (cellVc ty) (plenUnits c.plen) d with srn.cnt := bump d.srn.cnt 8 } := by
  simp [forwardCell, hon, hm, hset, hhdr, hty, hplen, httl]

end

section
variable {tag : Nat} {d : Dev} {r : Remote}

/-- Counting changes no path. -/
theorem pathTo_cnt (x : Cnt) (d : Dev) (dst : Nat) : pathTo { d with srn.cnt := x } dst = pathTo d dst :=
  pathTo_congr (d := d) (e := { d with srn.cnt := x }) rfl rfl rfl rfl rfl rfl dst

/-- A read whose owner is Live and has a path goes out under its TAG. -/
theorem remoteSend_read {b : Bool} {h : Nat} (hlive : (tget d.srn.members r.owner).st = .live) (hpath : pathTo d r.owner = some (b, h))
    (hrd : r.wr = none) :
    remoteSend r d = ({ r with holding := false, sent := true, route := some (b, h) },
      sendCell 0x01 r.owner r.tag (lineNo (addrFrond r.addr) (addrLine r.addr)) b 0 false [] d) := by
  simp [remoteSend, hlive, hpath, hrd]

/-- A retry with attempts left is one more attempt, counted under its cause. -/
theorem remoteRetry_again {topo : Bool} {r' : Remote} {e : Dev} (hget : remoteGet d tag = some r) (hsent : r.sent = true)
    (hleft : r.attempts < r.limit)
    (hsend : remoteSend { r with attempts := r.attempts + 1, causes := addCause (if topo then 5 else 7) r.causes }
      { d with srn.cnt := bump d.srn.cnt 9 } = (r', e)) :
    remoteRetry tag topo d = remotePut r' e := by
  simp only [remoteRetry, hget, hsent, if_neg (Nat.not_le.mpr hleft), Bool.not_true, Bool.false_eq_true, if_false]
  rw [hsent] at hsend
  rw [hsend]

/-- A retry without attempts left holds the request. -/
theorem remoteRetry_holds (topo : Bool) (hget : remoteGet d tag = some r) (hsent : r.sent = true) (hused : r.limit ≤ r.attempts) :
    remoteRetry tag topo d = remotePut { r with holding := true, sent := false } d := by
  simp only [remoteRetry, hget, hsent, if_pos hused]
  rfl

/-- A held read whose wait ends is answered with poison. -/
theorem ownerUnreachable_read (lat : Lat) (hget : remoteGet d tag = some r) (hhold : r.holding = true) (hrd : r.wr = none) :
    ownerUnreachable tag lat d = snpAnswer (account 2 lat r.causes r.addr 0 r.slice (poisonHost r.hostTag
      (post 0x200C 3 (r.addr / 65536) (r.addr % 65536 + 2 * 65536) 0 r.holdMs
        { remoteDrop tag d with srn.cnt := bump d.srn.cnt 11 }))) := by
  simp only [ownerUnreachable, hget, hhold, hrd]
  rfl

end

/-- Settles O21: a cell by its TTL, a retry by the attempts left, a hold by its request. -/
theorem requesterHolds : Obligations.RequesterHolds := by
  refine ⟨?transit, ?spent, ?again, ?holds, ?unreachable⟩
  case transit =>
    intro ty c d q hon hm hset hhdr hty hplen httl
    exact run_next q (forwardCell_waits hon hm hset hhdr hty hplen httl)
  case spent =>
    intro ty c d q hon hm hset hhdr hty hplen httl
    exact run_next q (forwardCell_spent hon hm hset hhdr hty hplen httl)
  case again =>
    intro tag h d q r b hget hsent hleft hrd hlive hpath
    have hsend := remoteSend_read (r := { r with attempts := r.attempts + 1, causes := addCause 7 r.causes })
      (d := { d with srn.cnt := bump d.srn.cnt 9 }) hlive ((pathTo_cnt (bump d.srn.cnt 9) d r.owner).trans hpath) hrd
    rw [← hsent] at hsend
    exact run_next q (remoteRetry_again hget hsent hleft hsend)
  case holds =>
    intro tag topo d q r hget hsent hused
    exact run_next q (remoteRetry_holds topo hget hsent hused)
  case unreachable =>
    intro tag lat d q r hget hhold hrd
    exact run_next q (ownerUnreachable_read lat hget hhold hrd)

end Sys2Proof.Machine
end

section
/-! Proofs of the statements on the ring's links, its topology, its group key and its ports' enables (R266, R274, R279, R280,
R282, R287–R290, R294). -/

namespace Sys2Proof.Machine

/-! ### Ports: a change by what it makes of the port as it stands, training, the turn at a wrap -/

/-- A change of a port is what it makes of the port as it stands. -/
theorem portMod_congr {s : Side} {f g : RPort → RPort} {d : Dev} (h : f (portOf d s) = g (portOf d s)) :
    portMod s f d = portMod s g d := by
  cases s
  case west => exact congrArg (fun p : RPort => { d with srn.west := p }) h
  case east => exact congrArg (fun p : RPort => { d with srn.east := p }) h

/-- An enabled port trains (R294). -/
theorem portTrain_enabled {s : Side} {d : Dev} (h : (portOf d s).en = true) :
    portTrain s d = portMod s (fun p => { p with st := .training, retrains := p.retrains + 1 }) d :=
  portMod_congr (if_pos h)

section
variable (s : Side) (d : Dev)

@[simp] theorem portTurn_index : (portTurn s d).srn.index = d.srn.index := by simp [portTurn]
@[simp] theorem portTurn_splice : (portTurn s d).srn.splice = d.srn.splice := by simp [portTurn]

end

/-- Without a splice there is none to abort. -/
theorem spliceAbort_none {cause : Nat} {d : Dev} (h : d.srn.splice = none) : spliceAbort cause d = d := by
  simp only [spliceAbort, h]

/-! ### Links (R266, R288, R290) -/

theorem exec_fecUncorrectable (side : Side) (corrected : Nat) (s : State) :
    exec (.fecUncorrectable side corrected) s = execFecUncorrectable side corrected s := rfl
theorem exec_plugPresence (side : Side) (present : Bool) (s : State) :
    exec (.plugPresence side present) s = execPlugPresence side present s := rfl

section
variable {side : Side} {peer : Nat} {d e f : Dev}

/-- A dead link of a port with a neighbour, in no splice: the port wraps, the link joins the dead ones, all are told (R288). -/
theorem linkDead_wraps (hm : d.isM = false) (hon : d.pwr.mode.ringOn = true) (hpeer : (portOf d side).peer = some peer)
    (hsp : d.srn.splice = none)
    (hf : f = ringUpdate (deadAdd d.srn.index peer
      (portTurn side (portMod side (fun p => { p with st := .down, wrapped := true, fec := 0 }) d))))
    (he : e = topoChange (cellAll 0x18 0 [f.srn.index, peer] f)) :
    linkDead side d = post 0x2005 2 (sideCode side) peer e.srn.ring.code 0
      (frame 0x01 [e.srn.index, peer, sideCode side] { e with srn.cnt := bump e.srn.cnt 13 }) := by
  subst he hf
  have hnone : spliceAbort 0 (portTurn side (portMod side (fun p => { p with st := .down, wrapped := true, fec := 0 }) d)) =
      portTurn side (portMod side (fun p => { p with st := .down, wrapped := true, fec := 0 }) d) :=
    spliceAbort_none (by rw [portTurn_splice, portMod_splice, hsp])
  simp only [linkDead, hm, hon, hpeer, hnone, portTurn_index, portMod_index, Bool.not_true, Bool.or_self, Bool.false_eq_true,
    if_false]

/-- An uncorrectable codeword below the sixteenth of its millisecond, and not the first of its second, is counted (R266). -/
theorem fecUncorrectable_counts {n cor : Nat} (q : List Instr) (hm : d.isM = false) (hon : d.pwr.mode.ringOn = true)
    (hn : n = if (portOf d side).fecMs = msOf d.time + 1 then (portOf d side).fec + 1 else 1) (hfew : n < 16)
    (hseen : (portOf d side).fecMs ≠ 0) (hsec : ((portOf d side).fecMs - 1) / 1000 = msOf d.time / 1000) :
    exec (.fecUncorrectable side cor) ⟨d, q⟩ = .next ⟨portMod side (fun p => { p with fec := n, fecMs := msOf d.time + 1 })
      { d with srn.cnt := bump (bump d.srn.cnt 4) 3 cor }, q⟩ := by
  simp [exec_fecUncorrectable, execFecUncorrectable, run_eq, hm, hon, ← hn, Nat.not_le.mpr hfew, hseen, hsec, postIf]

/-- A link that trains in no splice, at a port that is not wrapped, is up. -/
theorem linkTrained_up (ms : Nat) (hm : d.isM = false) (hon : d.pwr.mode.ringOn = true) (hen : (portOf d side).en = true)
    (hwrap : (portOf d side).wrapped = false) (hsp : d.srn.splice = none) :
    linkTrained side peer ms d = portMod side (fun p => { p with st := .up, peer := some peer, wrapped := false }) d := by
  simp [linkTrained, hm, hon, hen, hwrap, hsp]

/-- A link that trains again to the neighbour it was lost to ends the fold (R290). -/
theorem linkTrained_unwraps (ms : Nat) (hm : d.isM = false) (hon : d.pwr.mode.ringOn = true) (hen : (portOf d side).en = true)
    (hwrap : (portOf d side).wrapped = true) (hpeer : (portOf d side).peer = some peer) (hsp : d.srn.splice = none)
    (hf : f = ringUpdate (deadDrop d.srn.index peer (deadDrop d.srn.index peer
      (portMod side (fun p => { p with st := .up, peer := some peer, wrapped := false }) d))))
    (he : e = topoChange (credBack d (cellAll 0x18 1 [f.srn.index, peer] f))) :
    linkTrained side peer ms d =
      post 0x2006 0 (sideCode side) peer e.srn.ring.code ms (frame 0x02 [e.srn.index, peer] e) := by
  subst he hf
  simp only [linkTrained, hm, hon, hen, hwrap, hpeer, portMod_splice, hsp]
  simp [deadDrop]

end

/-- Settles O22: each event of a link by what it does to the link's port; a dead link touches the ring, the host's CDAT and the
recorder alone. -/
theorem linkEvents : Obligations.LinkEvents := by
  refine ⟨?codeword, ?lost, ?frame, ?retrain, ?up, ?unwraps, ?failed, ?plug⟩
  case codeword =>
    intro side n cor d q hm hon hn hfew hseen hsec
    exact fecUncorrectable_counts q hm hon hn hfew hseen hsec
  case lost =>
    intro side peer d f e q hm hon hpeer hsp hf he
    exact run_next q (linkDead_wraps hm hon hpeer hsp hf he)
  case frame =>
    intro side d q
    have hkeep := linkDead_ring side d
    exact ⟨linkDead side d, rfl, hkeep.rp, hkeep.map, hkeep.med, hkeep.stw, hkeep.dir, hkeep.slots, hkeep.pst, hkeep.bfl,
      hkeep.pwr, hkeep.mbx, hkeep.cph, hkeep.ldg, hkeep.time⟩
  case retrain =>
    intro side d q hm hon hen hst
    exact run_next q (if_neg (by simp [hm, hon, hen, hst]))
  case up =>
    intro side peer ms d q hm hon hen hwrap hsp
    exact run_next q (linkTrained_up ms hm hon hen hwrap hsp)
  case unwraps =>
    intro side peer ms d f e q hm hon hen hwrap hpeer hsp hf he
    exact run_next q (linkTrained_unwraps ms hm hon hen hwrap hpeer hsp hf he)
  case failed =>
    intro side d q hwrap
    exact run_next q (if_pos (by simp [hwrap]))
  case plug =>
    intro side d q hm
    simp [exec_plugPresence, execPlugPresence, run_eq, hm]

/-! ### Topology (R274, R282, R287, R288, R290) -/

/-- A link that was alive joins the dead ones. -/
theorem deadAdd_alive {a b : Nat} {d : Dev} (h : deadLink d a b = false) :
    deadAdd a b d = { d with srn.dead := d.srn.dead ++ [(a, b)] } := by
  simp [deadAdd, h]

section
variable {c : Cell} {a b : Nat} {d e : Dev}

/-- An accepted TOPO of a wrap adds the dead link. -/
theorem topoCell_wrap (hacc : acceptCell c 0x18 true d = (true, e)) (hst : c.status = 0) :
    topoCell c a b d = topoChange (ringUpdate (deadAdd a b e)) := by
  simp only [topoCell, hacc, hst, Bool.not_true, Bool.false_eq_true, if_false]

/-- One of an unwrap restores it, with the credits toward the members it brings back. -/
theorem topoCell_unwrap (hacc : acceptCell c 0x18 true d = (true, e)) (hst : c.status = 1) :
    topoCell c a b d = topoChange (credBack e (ringUpdate (deadDrop a b e))) := by
  simp only [topoCell, hacc, hst, Bool.not_true, Bool.false_eq_true, if_false]

/-- One of a leave takes the member out. -/
theorem topoCell_leave (hacc : acceptCell c 0x18 true d = (true, e)) (hst : c.status = 2) :
    topoCell c a b d = topoChange (ringUpdate (memberGone a 0 e)) := by
  simp only [topoCell, hacc, hst, Bool.not_true, Bool.false_eq_true, if_false]

end

/-- Settles O23: the cell by its STATUS, the frame by what is known of its link or member. -/
theorem topologyFrames : Obligations.TopologyFrames := by
  refine ⟨?wrapCell, ?unwrapCell, ?leaveCell, ?wrap, ?known, ?unwrap, ?leave⟩
  case wrapCell =>
    intro c a b d e q hacc hst hnew
    rw [← deadAdd_alive hnew]
    exact run_next q (topoCell_wrap hacc hst)
  case unwrapCell => exact fun c a b d e q hacc hst => run_next q (topoCell_unwrap hacc hst)
  case leaveCell => exact fun c a b d e q hacc hst => run_next q (topoCell_leave hacc hst)
  case wrap =>
    rintro a b side d _ q rfl hon hm hnew
    rw [← deadAdd_alive hnew]
    exact run_next q (if_neg (by simp [hon, hm, hnew]))
  case known =>
    rintro a b side d _ q rfl hdead
    exact run_next q (if_pos (by simp [hdead]))
  case unwrap =>
    rintro a b d _ q rfl hon hm hdead
    exact run_next q (if_neg (by simp [hon, hm, hdead]))
  case leave =>
    rintro i d _ _ q rfl hon hm rfl
    exact run_next q (if_neg (by simp [hon, hm]))

/-! ### The group key (R279, R280) -/

section
variable {c : Cell} {m : SpdmMsg} {ep k : Nat} {d e : Dev}

theorem exec_spdmCell (s : State) : exec (.spdmCell c m) s = execSpdmCell c m s := rfl

/-- An accepted SPDM cell does what its message says. -/
theorem exec_spdmCell_accepted (q : List Instr) (hacc : acceptCell c 0x15 false d = (true, e)) :
    exec (.spdmCell c m) ⟨d, q⟩ = .next ⟨spdmArrives m e, q⟩ := by
  simp only [exec_spdmCell, execSpdmCell, run_eq, hacc, if_true]

/-- A member keeps a new key for its switch and acknowledges it. -/
theorem spdmArrives_groupKey (hmem : isMember d = true) :
    spdmArrives (.groupKey ep k) d =
      cellTo 0x15 d.srn.holder 0 0 0 [2, d.srn.index] { d with srn.newKey := some (ep, k) } :=
  if_pos hmem

/-- The last acknowledgement: the holder sends the switch to all and takes the epoch itself. -/
theorem spdmArrives_lastAck {mem : Nat} (hkey : d.srn.newKey = some (ep, k)) (hlast : d.srn.acks.filter (· ≠ mem) = [])
    (hholder : holderOf d = d.srn.index) :
    spdmArrives (.keyAck mem) d = epochSwitch ep k d.srn.keyCause
      (cellAll 0x15 0 [3, ep, d.srn.keyCause] { d with srn.acks := [] }) := by
  simp only [spdmArrives, spdmMsg, hkey, hlast, List.isEmpty_nil]
  exact if_pos ⟨trivial, hholder⟩

/-- The switch of the epoch that waits takes it. -/
theorem spdmArrives_switch (cause : Nat) (hkey : d.srn.newKey = some (ep, k)) :
    spdmArrives (.switch ep cause) d = epochSwitch ep k cause d := by
  simp only [spdmArrives, spdmMsg, hkey, if_true]

/-- The holder starts a new epoch that is asked for. -/
theorem epochAsk_holder (hmem : isMember d = true) (hholder : holderOf d = d.srn.index) : epochAsk d = epochStart 2 d := by
  simp [epochAsk, hmem, hholder]

/-- Another member asks the holder. -/
theorem epochAsk_member (hmem : isMember d = true) (hholder : holderOf d ≠ d.srn.index) :
    epochAsk d = cellTo 0x15 (holderOf d) 0 0 0 [4] d := by
  simp [epochAsk, hmem, hholder]

end

/-- Settles O24: each message by what a member does with it; the switch is one operation, by cell and by frame. -/
theorem groupKey : Obligations.GroupKey := by
  refine ⟨?delivered, ?lastAck, ?switchCell, ?switchFrame, fun d q => rfl, ?starts, ?asks⟩
  case delivered =>
    intro c ep k d e q hacc hmem
    rw [exec_spdmCell_accepted q hacc, spdmArrives_groupKey hmem]
  case lastAck =>
    intro c m ep k d e q hacc hkey hlast hholder
    rw [exec_spdmCell_accepted q hacc, spdmArrives_lastAck hkey hlast hholder]
  case switchCell =>
    intro c ep k cause d e q hacc hkey
    rw [exec_spdmCell_accepted q hacc, spdmArrives_switch cause hkey, epochSwitch]
  case switchFrame =>
    rintro ep k cause d _ q rfl hon hm hkey
    exact run_next q ((if_neg (by simp [hon, hm])).trans (spdmArrives_switch cause hkey))
  case starts =>
    intro d q hblk hmem hholder
    exact (run_gate_on epochAsk q hblk).trans (by rw [epochAsk_holder hmem hholder])
  case asks =>
    intro d q hblk hmem hholder
    exact (run_gate_on epochAsk q hblk).trans (by rw [epochAsk_member hmem hholder])

/-! ### Port control (R294) -/

section
variable {side : Side} {d : Dev}

/-- Enabling a Disabled port of a node with an open set trains it. -/
theorem portEnable_trains (hm : d.isM = false) (hst : (portOf d side).st = .disabled)
    (hopen : d.srn.bypassA = false ∨ d.srn.bypassB = false) :
    portEnable side true d =
      portMod side (fun p => { p with en := true, st := .training, retrains := p.retrains + 1 }) d := by
  have hsets : ¬(d.srn.bypassA = true ∧ d.srn.bypassB = true) := by
    rcases hopen with h | h <;> simp [h]
  simp only [portEnable, hm, hst, portMod_bypassA, portMod_bypassB, if_neg hsets, Bool.false_eq_true, if_false, if_true]
  rw [portTrain_enabled (by rw [portOf_portMod]), portMod_portMod]

/-- Disabling a port that is up, while the other is enabled, drains it. -/
theorem portEnable_drains (hm : d.isM = false) (hst : (portOf d side).st = .up) (hother : (portOf d (otherSide side)).en = true) :
    portEnable side false d =
      topoChange (sendCell 0x17 ((portOf d side).peer.getD 0) 0 0 (decide (side = .west)) 0 false []
        (portMod side (fun p => { p with en := false, st := .draining }) d)) := by
  simp [portEnable, hm, hst, hother, portMod_portMod]

/-- The end of a drain folds the ring around the port. -/
theorem portDrainEnd_folds (hst : (portOf d side).st = .draining) (hrej : (portOf d side).rejoin = false) (hleave : leaving d = false) :
    portDrainEnd side d = portMod side (fun p => { p with st := .disabled }) (linkDead side d) := by
  simp [portDrainEnd, hst, hrej, hleave]

/-- Where the port's enable was latched, it trains at the end of the drain. -/
theorem portDrainEnd_trains (hst : (portOf d side).st = .pending) (hrej : (portOf d side).rejoin = false)
    (hen : (portOf d side).en = true) :
    portDrainEnd side d = portMod side (fun p => { p with st := .training, retrains := p.retrains + 1 }) d := by
  simp [portDrainEnd, hst, hrej, portTrain_enabled hen]

end

/-- Settles O27: an enable and the end of a drain by the state of their port. -/
theorem portControl : Obligations.PortControl := by
  refine ⟨?trains, ?drains, ?folds, ?again⟩
  case trains =>
    intro side d q hblk hm hst hopen
    exact (run_gate_on _ q hblk).trans (by rw [portEnable_trains hm hst hopen])
  case drains =>
    intro side d q hblk hm hst hother
    exact (run_gate_on _ q hblk).trans (by rw [portEnable_drains hm hst hother])
  case folds =>
    intro side d q hst hrej hleave
    exact run_next q (portDrainEnd_folds hst hrej hleave)
  case again =>
    intro side d q hst hrej hen
    exact run_next q (portDrainEnd_trains hst hrej hen)

end Sys2Proof.Machine
end

section
/-! Proofs of the statements on the forming of a ring and on the splice: what each frame, cell and timer does at a node that joins
and at its neighbours (R282–R286, R293). -/

namespace Sys2Proof.Machine

/-! ### What a frame on the line and a cell leave as they were -/

/-- On a node with a ring a frame waits for the line. -/
theorem frame_waits {d : Dev} (ty : Nat) (pl : List Nat) (hm : d.isM = false) :
    frame ty pl d = { d with srn.rlq := d.srn.rlq ++ [(ty, pl)] } := by
  simp [frame, hm]

/-- A node that does not listen takes no cue. -/
theorem cueFrame_heard {d : Dev} (h : d.pwr.unfurl ≠ .listening) : cueFrame d = d := if_neg h

@[simp] theorem sendCell_pst (ty dst tag line : Nat) (b : Bool) (st : Nat) (p : Bool) (w : List Nat) (d : Dev) :
    (sendCell ty dst tag line b st p w d).pst = d.pst := (sendCell_ring ..).pst

/-! ### The cold-form (R282–R285) -/

theorem exec_present (p : Pres) (s : State) : exec (.present p) s = execPresent p s := rfl
theorem exec_presentTimer (s : State) : exec .presentTimer s = execPresentTimer s := rfl
theorem exec_claim (serial i rid : Nat) (s : State) : exec (.claim serial i rid) s = execClaim serial i rid s := rfl
theorem exec_heartbeat (i ep : Nat) (s : State) : exec (.heartbeat i ep) s = execHeartbeat i ep s := rfl
theorem exec_heartbeatTimer (s : State) : exec .heartbeatTimer s = execHeartbeatTimer s := rfl
theorem exec_coldFormLinksUp (w e : Bool) (s : State) : exec (.coldFormLinksUp w e) s = execColdFormLinksUp w e s := rfl
theorem exec_ringIndexWriteRetry (s : State) : exec .ringIndexWriteRetry s = execRingIndexWriteRetry s := rfl

/-- At the window's end a node that the claims give an index, among others, takes it, opens both sets and trains its ports. -/
theorem presentClose_joins {d : Dev} {rid i : Nat} {ps : List Pres} (hopen : d.srn.coldOpen = true)
    (hps : ps = sortBy (·.serial) (ownPresent d :: d.srn.presents.filter fun p => p.serial ≠ (ownPresent d).serial))
    (hrid : ringIdOf ps = some rid)
    (hres : (resolveClaims ps).find? (fun x => x.1 = (ownPresent d).serial) = some ((ownPresent d).serial, .index i))
    (hlen : ps.length ≠ 1) :
    ∃ (ms : Tab Member) (h : Nat), presentClose d = portTrain .west (portTrain .east
      { indexTake i rid { d with srn.coldOpen := false, srn.presenting := false } with
        srn.members := ms
        srn.bypassA := false
        srn.bypassB := false
        srn.epoch := 0
        srn.keyid := 0
        srn.holder := h
        srn.ring := .forming }) := by
  subst hps
  simp only [presentClose, hopen, hrid, hres, Option.map_some, if_neg hlen, Bool.not_true, Bool.false_eq_true, if_false]
  exact ⟨_, _, rfl⟩

/-- Settles O25: each frame by what it makes of the set of nodes or of a member, the window's end by the claims' result. -/
theorem coldForm : Obligations.ColdForm := by
  refine ⟨?present, ?timer, ?close, ?claim, ?heartbeat, ?heartbeatTimer, ?linksUp, ?again⟩
  case present =>
    rintro p d _ q rfl hm hmode hring hidx hopen
    simp [exec_present, execPresent, run_eq, hm, hmode, hring, hidx, hopen]
  case timer =>
    intro d q hm hpres hopen
    simp [exec_presentTimer, execPresentTimer, run_eq, hm, hpres, hopen, frame_waits]
  case close =>
    intro d q rid i ps hopen hps hrid hres hlen hwest heast
    obtain ⟨ms, h, hclose⟩ := presentClose_joins hopen hps hrid hres hlen
    obtain ⟨p, ev, fr, b, c, f, s, l, htake⟩ := indexTake_frame i rid { d with srn.coldOpen := false, srn.presenting := false }
    refine ⟨presentClose d, rfl, ?_⟩
    rw [hclose, htake]
    simp [portTrain, portMod, hwest, heast]
  case claim =>
    rintro serial i rid d _ q rfl hm hon hlisten hserial hring habs
    simp [exec_claim, execClaim, run_eq, hm, cueFrame_heard hlisten, hon, hlisten, hserial, hring, tmod, habs]
  case heartbeat =>
    rintro i ep d _ q rfl hm hmode hlisten habs
    simp [exec_heartbeat, execHeartbeat, run_eq, hm, cueFrame_heard hlisten, hmode, tmod, habs]
  case heartbeatTimer =>
    intro d q hmem hm
    simp [exec_heartbeatTimer, execHeartbeatTimer, run_eq, hmem, frame_waits _ _ hm]
  case linksUp =>
    intro d q o w e hring ho hw he
    simp only [exec_coldFormLinksUp, execColdFormLinksUp, run_eq, ne_eq, hring, not_true_eq_false, if_false, if_true, ← ho, hw, he,
      sendCell_pst, Bool.not_true]
  case again =>
    intro d q hretry hidx
    simp [exec_ringIndexWriteRetry, execRingIndexWriteRetry, run_eq, hretry, hidx]

/-! ### The splice (R286, R293) -/

theorem exec_spliceReq (serial i : Nat) (s : State) : exec (.spliceReq serial i) s = execSpliceReq serial i s := rfl
theorem exec_spliceGo (i : Nat) (s : State) : exec (.spliceGo i) s = execSpliceGo i s := rfl
theorem exec_mark (src : Nat) (ringB : Bool) (s : State) : exec (.mark src ringB) s = execMark src ringB s := rfl
theorem exec_echo (side : Side) (serial : Nat) (s : State) : exec (.echo side serial) s = execEcho side serial s := rfl
theorem exec_table (c : Cell) (ms : List (Nat × Member)) (ws : List (Win × WinSt)) (s : State) :
    exec (.table c ms ws) s = execTable c ms ws s := rfl
theorem exec_spliceAbort (i step cause : Nat) (s : State) : exec (.spliceAbort i step cause) s = execSpliceAbort i step cause s := rfl
theorem exec_spliceRequestAgain (s : State) : exec .spliceRequestAgain s = execSpliceRequestAgain s := rfl

section
variable {src : Nat} {d : Dev} {sp : SpliceSt}

/-- Which MARKs are awaited follows the members alone. -/
theorem marksDone_noted (x : Option SpliceSt) (n : Cnt) :
    marksDone sp { d with srn.splice := x, srn.cnt := n } = marksDone sp d := rfl

/-- A MARK on ring A that is not the last one is noted. -/
theorem markCell_noted (hsp : d.srn.splice = some sp) (hwait : marksDone { sp with marks := src :: sp.marks } d = false) :
    markCell src false d = { d with
      srn.splice := some { sp with marks := src :: sp.marks }
      srn.cnt := bump d.srn.cnt 1 } := by
  simp [markCell, hsp, marksDone_noted, hwait]

/-- The last MARK on ring A of step 1 opens ring A at the node that joins. -/
theorem markCell_opensA (hsp : d.srn.splice = some sp) (hstep : sp.step = 1) (hmine : sp.index = d.srn.index)
    (hjoin : sp.leaving = false) (hdone : marksDone { sp with marks := src :: sp.marks } d = true) :
    markCell src false d = portTrain .west { d with
      srn.splice := some { sp with step := 2, marks := [] }
      srn.cnt := bump d.srn.cnt 1
      srn.bypassA := false } := by
  obtain ⟨i, step, ms, out, t⟩ := sp
  obtain ⟨rfl, rfl, rfl⟩ : step = 1 ∧ i = d.srn.index ∧ out = false := ⟨hstep, hmine, hjoin⟩
  simp [markCell, hsp, marksDone_noted, hdone]

/-- Whether a record is posted, a node is a member. -/
@[simp] theorem isMember_post (c v p0 p1 p2 p3 : Nat) (d : Dev) : isMember (post c v p0 p1 p2 p3 d) = isMember d := by
  simp [isMember, Dev.isM]

/-- An abort closes both sets of the node that was joining, counted and recorded (R293). -/
theorem spliceStop_joining (cause : Nat) (hsp : d.srn.splice = some sp) (hmine : sp.index = d.srn.index)
    (hjoin : sp.leaving = false) (hmem : isMember d = false) :
    spliceStop cause d = { (post 0x2003 1 sp.index sp.step cause 0
      { d with srn.cnt := bump d.srn.cnt 15, srn.splice := none }) with srn.bypassA := true, srn.bypassB := true } := by
  have hout : isMember { d with srn.cnt := bump d.srn.cnt 15, srn.splice := none } = false := hmem
  simp [spliceStop, hsp, hjoin, hmine, hout]

end

/-- Settles O26: each frame and cell by the step of the splice it comes in. -/
theorem spliceCommands : Obligations.SpliceCommands := by
  refine ⟨?request, ?go, ?mark, ?lastMark, ?echo, ?table, ?abort, ?again⟩
  case request =>
    rintro serial i d _ _ q rfl hmem hlive rfl
    simp [exec_spliceReq, execSpliceReq, run_eq, hmem, tmod, hlive]
  case go =>
    rintro i d _ _ q rfl hm hlisten hon rfl
    simp [exec_spliceGo, execSpliceGo, run_eq, hm, cueFrame_heard hlisten, hon]
  case mark =>
    intro src d q sp hm hon hsp hwait
    simp [exec_mark, execMark, run_eq, hm, hon, markCell_noted hsp hwait]
  case lastMark =>
    intro src d q sp hm hon hsp hstep hmine hjoin hdone
    simp [exec_mark, execMark, run_eq, hm, hon, markCell_opensA hsp hstep hmine hjoin hdone]
  case echo =>
    intro side serial i m sp d q hm hon hfind hsp hstep
    simp [exec_echo, execEcho, run_eq, hm, hon, hfind, hsp, hstep]
  case table =>
    rintro c ms ws d e _ q hacc hsp rfl
    simp [exec_table, execTable, run_eq, hacc, hsp]
  case abort =>
    rintro step cause d _ q rfl hm hon hmem
    simp [exec_spliceAbort, execSpliceAbort, run_eq, hm, hon, spliceStop_joining (d := { lineSeen 0x22 d with
      srn.splice := some { index := (lineSeen 0x22 d).srn.index, step, startT := 0 } }) cause rfl rfl rfl hmem]
  case again =>
    intro d q hm hmode hsp
    simp [exec_spliceRequestAgain, execSpliceRequestAgain, run_eq, hmode, hsp, frame_waits _ _ hm]

end Sys2Proof.Machine
end

section
/-! Proofs of the statement on start-up and reset: the supplies at power good, the departure from Held, the ways into Recovery, the
entry into Service, and NODE_RESET# (R279, R285, R286, R408–R413, R423, R425, R464). -/

namespace Sys2Proof.Machine

theorem exec_powerGood (s : State) : exec .powerGood s = execPowerGood s := rfl
theorem exec_spliceDone (i ms : Nat) (s : State) : exec (.spliceDone i ms) s = execSpliceDone i ms s := rfl
theorem exec_held (serial reason : Nat) (s : State) : exec (.held serial reason) s = execHeld serial reason s := rfl
theorem exec_spdmSessionEstablished (peer : Nat) (ok : Bool) (ms : Nat) (s : State) :
    exec (.spdmSessionEstablished peer ok ms) s = execSpdmSessionEstablished peer ok ms s := rfl

/-! ### Out of Off and Held (R408, R464) -/

/-- A value kept where it lies in a range, and drawn from the range where it does not, lies in it. -/
theorem kept_inRange {lo hi v : Nat} (x : Nat) (hv : lo + v ≤ hi) :
    lo ≤ (if lo ≤ x ∧ x ≤ hi then x else lo + v) ∧ (if lo ≤ x ∧ x ≤ hi then x else lo + v) ≤ hi := by
  split <;> omega

/-- The supplies that bring a node up are within their ranges. -/
theorem suppliesSeen_inRange {d e : Dev} (he : e = suppliesSeen d) :
    11400 ≤ e.pwr.v12 ∧ e.pwr.v12 ≤ 12600 ∧ 3135 ≤ e.pst.auxMv ∧ e.pst.auxMv ≤ 3465 ∧ 1500 ≤ e.pst.holdUj := by
  subst he
  have hv12 := kept_inRange d.pwr.v12 (show 11400 + Config.freeValue d.free % 1201 ≤ 12600 by omega)
  have haux := kept_inRange d.pst.auxMv (show 3135 + Config.freeValue (d.free + 1) % 331 ≤ 3465 by omega)
  have hhold : 1500 ≤ if 1500 ≤ d.pst.holdUj then d.pst.holdUj else 1500 + Config.freeValue (d.free + 2) := by
    split <;> omega
  exact ⟨hv12.1, hv12.2, haux.1, haux.2, hhold⟩

/-- A node whose reset is released, with its supplies in range, leaves Held. -/
theorem leaveHeld_unfurls {d : Dev} (b : Boot) (hmode : d.pwr.mode = .held) (hreset : d.pwr.nodeReset = false)
    (hmgmt : d.pwr.mgmtReset = false) (hdump : d.pwr.dumping = false) (hsup : supplyBad d = false) :
    leaveHeld b d = unfurlRun b (volatileReset d) :=
  if_pos (by simp [hmode, hreset, hmgmt, hdump, hsup])

/-- The listen ends in Splice where a ring was heard, else in Recovery (R411). -/
theorem listenExpiry_listening {d : Dev} (hmode : d.pwr.mode = .unfurl) (hlisten : d.pwr.unfurl = .listening) :
    listenExpiry d = if d.srn.cue then spliceStart (draw d).2 else recoveryStart (draw d).2 := by
  simp [listenExpiry, hmode, hlisten]

/-- A session opened is one more; a holder lets the newcomer fetch its key, a ring that forms goes on forming, a splicing node
with all its sessions asks for its splice (R279, R285, R286). -/
theorem spdmSession_opens {peer ms : Nat} {d e : Dev} (q : List Instr) (hm : d.isM = false)
    (he : e = { d with srn.sessions := if peer ∈ d.srn.sessions then d.srn.sessions else d.srn.sessions ++ [peer] })
    (hjoin : d.srn.ring = .forming ∨ d.pwr.mode = .splice ∨ d.srn.rejoin = true ∨ isMember d = true) :
    exec (.spdmSessionEstablished peer true ms) ⟨d, q⟩ = .next ⟨
      if isMember d then (if holderOf e = e.srn.index ∧ (tget e.srn.members peer).st ≠ .live then frame 0x30 [] e else e)
      else if d.srn.ring = .forming then formReady ms e
      else if sessionsDone e then frame 0x20 [e.pst.nv.serial, e.srn.index] e else e, q⟩ := by
  rw [exec_spdmSessionEstablished, execSpdmSessionEstablished, run_eq, if_neg (by simp [hm, hjoin]), he]
  rfl

/-! ### The end of Recovery and NODE_RESET# (R413, R423, R425) -/

/-- Recovery of a settled node ends in Service: the SPORE reserve, the consumed row, its record. -/
theorem recoveryDone_serves {ms : Nat} {d e : Dev} (hmode : d.pwr.mode = .recovery) (hring : ringSettled d = true)
    (he : e = (List.range 128).foldl (fun d l => sporeFill l d) d) :
    recoveryDone ms d = admitEval (modeEnter .service 5 { post 0x9032 0 ms e.pwr.source (occ e) e.srn.ring.code
      { anchorPut .consumed e with pwr.retained := none, pwr.spore := none, pwr.persistLost := decide (e.pwr.source = 3) } with
        hst.memActive := (anchorPut .consumed e).hst.up }) := by
  unfold recoveryDone
  rw [if_neg (by simp [hmode, hring]), ← he]
  simp only [post_hst]

/-- A reset in Service keeps the cushion as the retained save and enters Held. -/
theorem nodeReset_service {d e : Dev} (hmode : d.pwr.mode = .service) (hdump : d.pwr.dumping = false)
    (he : e = acceptAll (post 0x9039 1 Mode.service.code (occ d) 0 0 { d with pwr.nodeReset := true })) :
    nodeReset d = modeEnter .held 4 { bypassClose (stopMedia (stopAdmission
      (hostDown 3 { e with pwr.retained := saveNow [] e }))) with
        pwr.transitLeft := none, pwr.testing := 0, pwr.stopping := false } := by
  subst he
  simp only [nodeReset, hmode, hdump, Bool.false_eq_true, if_false]
  rfl

/-- Below re-arm a reset leaves Halt for Held; above it the reset is but noted. -/
theorem nodeReset_halt {d : Dev} (hmode : d.pwr.mode = .halt) :
    nodeReset d = if d.pwr.rearmed then modeEnter .held 4 { d with pwr.nodeReset := true } else { d with pwr.nodeReset := true } := by
  simp only [nodeReset, hmode]

/-- Settles O58: each command by its guard, then by the operation that its clause names. -/
theorem startUp : Obligations.StartUp := by
  refine ⟨?powerGood, ?leaves, ?listen, ?spliced, ?other, ?held, ?heldOther, ?failed, ?session, ?recovered, ?reset, ?below, ?above⟩
  case powerGood =>
    intro d e q hmode he
    refine ⟨?_, suppliesSeen_inRange he⟩
    rw [exec_powerGood, execPowerGood, run_eq, if_pos hmode, he]
  case leaves =>
    intro b d q hmode hmgmt hdump hsup
    exact ⟨fun hreset => run_next q (leaveHeld_unfurls b hmode hreset hmgmt hdump hsup),
      run_next q (leaveHeld_unfurls b (d := { d with pwr.nodeReset := false }) hmode rfl hmgmt hdump hsup)⟩
  case listen => exact fun d q hmode hlisten => run_next q (listenExpiry_listening hmode hlisten)
  case spliced =>
    rintro index ms d _ _ q hm rfl hmem rfl hon rfl
    simp [exec_spliceDone, execSpliceDone, run_eq, hm, hmem, hon]
  case other =>
    rintro index ms d _ q hm hother rfl hon
    have hown : (decide (index = d.srn.index) && !isMember d) = false := by
      rcases hother with h | h <;> simp [h]
    simp only [exec_spliceDone, execSpliceDone, run_eq, hm, hown, hon, Bool.not_true, Bool.false_eq_true, if_false]
  case held =>
    rintro serial reason d _ q hm rfl hserial hring hmode
    rw [exec_held, execHeld, run_eq]
    simp [hm, ← hserial, hring, hmode]
  case heldOther =>
    rintro serial reason d _ q hm rfl hserial
    simp [exec_held, execHeld, run_eq, hm, hserial]
  case failed =>
    intro peer ms d q hm hjoin hmem
    have hwaits : d.srn.ring = .forming ∨ d.pwr.mode = .splice ∨ d.srn.rejoin = true ∨ isMember d = true :=
      hjoin.imp_right (Or.imp_right .inl)
    rw [exec_spdmSessionEstablished, execSpdmSessionEstablished, run_eq, if_neg (by simp [hm, hwaits]), if_pos (by rfl),
      if_neg (Bool.eq_false_iff.mp hmem)]
  case session =>
    rintro peer ms d _ q hm rfl
    refine ⟨fun hmem => ?_, fun hmem hring => ?_, fun hmem hring hjoin => ?_⟩
    · rw [spdmSession_opens q hm rfl (.inr (.inr (.inr hmem))), if_pos hmem]
    · rw [spdmSession_opens q hm rfl (.inl hring), if_neg (Bool.eq_false_iff.mp hmem), if_pos hring]
    · rw [spdmSession_opens q hm rfl (.inr (hjoin.imp_right .inl)), if_neg (Bool.eq_false_iff.mp hmem), if_neg hring]
  case recovered => exact fun ms d e q hmode hring he => run_next q (recoveryDone_serves hmode hring he)
  case reset => exact fun d e q hmode hdump he => run_next q (nodeReset_service hmode hdump he)
  case below =>
    intro d q hmode hre
    exact run_next q ((nodeReset_halt hmode).trans (if_pos hre))
  case above =>
    intro d q hmode hre
    exact run_next q ((nodeReset_halt hmode).trans (if_neg (by simp [hre])))

end Sys2Proof.Machine
end

section
/-! Proofs of the statements on the operator engines: doorbells, admission, chunks and endings, enables and result queues,
and sub-tasks over the ring (R299–R301, R308–R322). -/

namespace Sys2Proof.Machine

/-- A gated command whose block takes accesses leads to what its effect makes of the device. -/
theorem run_gate_next {b : Nat} {f : Dev → Dev} {d e : Dev} (q : List Instr) (hon : blockOn b d = true) (h : f d = e) :
    run (gate b f) ⟨d, q⟩ = .next ⟨e, q⟩ := by
  rw [run_gate_on f q hon, h]

theorem exec_taskDecide (s : State) : exec .taskDecide s = execTaskDecide s := rfl
theorem exec_deadlineExpiry (id : Nat) (s : State) : exec (.deadlineExpiry id) s = execDeadlineExpiry id s := rfl
theorem exec_engineFaulted (n : Nat) (s : State) : exec (.engineFaulted n) s = execEngineFaulted n s := rfl
theorem exec_unitDrainEnd (u : OpeUnit) (s : State) : exec (.unitDrainEnd u) s = execUnitDrainEnd u s := rfl
theorem exec_abort (c : Cell) (s : State) : exec (.abort c) s = execAbort c s := rfl

/-! ### Result queues (R318–R321) -/

/-- The words of a LAST packet of the node's own without PEER (R320). -/
theorem packet_last (d : Dev) (tq : Nat) (w : List Nat) (pseq status reason src ord : Nat) (data : List Nat) :
    packet d tq w pseq status reason src true false ord data = (data.length + 3 + 2 ^ 14) ::
      (tagOf w + tq % 64 * 2 ^ 16 + opcodeOf w * 2 ^ 22 + pseq % 65536 * 2 ^ 32 + status % 16 * 2 ^ 48 + reason % 16 * 2 ^ 52
        + src % 16 * 2 ^ 56) :: ord % 2 ^ 48 :: data := by
  simp only [packet, b2n, if_true, Bool.false_eq_true, if_false, Nat.one_mul, Nat.zero_mul, Nat.add_zero]

section
variable {n : Nat} {x : Rq} {p : QPkt} {d : Dev}

/-- A packet enters a queue with room at which none waits. -/
theorem rqPush_enters (hx : x = tget d.ope.rq n) (hw : x.waiting = []) (hroom : x.words.length + p.words.length ≤ rqCap x) :
    rqPush n p d = (true, { d with ope.rq := tset d.ope.rq n { x with words := x.words ++ p.words } }) := by
  subst hx
  exact if_pos ⟨by rw [hw]; rfl, hroom⟩

/-- A packet that enters its queue without a vector leaves the words alone changed (R319, R320). -/
theorem rqPush_closes {w : List Nat} (hx : x = tget d.ope.rq n) (hw : x.waiting = [])
    (hroom : x.words.length + p.words.length ≤ rqCap x) (hmsi : msiOf w = false) :
    (if (rqPush n p d).1 = true then rqMsi n w (rqPush n p d).2 else (rqPush n p d).2) =
      { d with ope.rq := tset d.ope.rq n { x with words := x.words ++ p.words } } := by
  rw [rqPush_enters hx hw hroom, rqMsi, hmsi]
  rfl

/-- The one packet that waits enters once there is room, with its vector; a LAST packet of a task still in the table ends it OK
(R319, R315). -/
theorem rqFlush_enters {e g : Dev} (hx : x = tget d.ope.rq n) (hw : x.waiting = [p])
    (hroom : x.words.length + p.words.length ≤ rqCap x)
    (hlate : p.last = true → ∀ t, taskGet d p.entry = some t → d.time < t.deadline)
    (he : e = { d with ope.rq := tset d.ope.rq n { x with words := x.words ++ p.words, waiting := [] } })
    (hg : g = if p.msi = true then emit (.msix x.vec) e else e) :
    rqFlush n d = if p.last = true ∧ (taskGet d p.entry).isSome = true then
      taskDrop p.entry { g with ope.cnt := bump g.ope.cnt 2 } else g := by
  have hget : taskGet g p.entry = taskGet d p.entry := by
    subst hg he
    split <;> rfl
  subst hx
  simp only [rqFlush, hw, List.length_singleton, iter, if_neg (Nat.not_lt.mpr hroom), rqMod1, tmod, ← he, ← hg, hget,
    Bool.and_eq_true]
  refine if_neg ?_
  split
  case h_1 t ht =>
    rw [Bool.and_eq_true, decide_eq_true_eq]
    exact fun h => Nat.not_le.mpr (hlate h.1 t ht) h.2
  case h_2 => exact Bool.false_ne_true

/-- RD moves over words that the queue holds, and consumes them; no word of the window is uncorrectable (R321). -/
theorem rqRead_consumes {rd k : Nat} (ce : Nat) (hn : n < queues d) (hx : x = tget d.ope.rq n) (hrd : rd < rqMod x)
    (hmod : rqMod x ≤ 2 ^ 24) (hk : k = (rd + rqMod x - x.rd % rqMod x) % rqMod x) (hin : k ≤ x.words.length) :
    rqRead n rd ce [] d = { d with
      ope.rq := tset d.ope.rq n { x with rd, words := x.words.drop k, ce := x.ce + ce, ueMask := 0 }
      ope.cnt := bump d.ope.cnt 15 ce } := by
  subst hx hk
  have hrd' : rd % 2 ^ 24 = rd := Nat.mod_eq_of_lt (by omega)
  simp only [rqRead, if_neg (Nat.not_le.mpr hn), hrd', if_neg (not_or.mpr ⟨Nat.not_le.mpr hrd, Nat.not_lt.mpr hin⟩)]
  rfl

/-- A write of RD past the words that the queue holds is ignored (R321). -/
theorem rqRead_past {rd : Nat} (ce : Nat) (bad : List Nat) (hx : x = tget d.ope.rq n)
    (hrd : rd < rqMod x) (hmod : rqMod x ≤ 2 ^ 24) (hpast : x.words.length < (rd + rqMod x - x.rd % rqMod x) % rqMod x) :
    rqRead n rd ce bad d = d := by
  subst hx
  have hrd' : rd % 2 ^ 24 = rd := Nat.mod_eq_of_lt (by omega)
  simp only [rqRead, hrd', if_pos (Or.inr hpast), ite_self]

end

/-! ### Doorbells (R300) -/

section
variable {k tail : Nat} {x : Tq} {d : Dev}

/-- A doorbell that covers at most sixteen entries, and no fewer than are rung, sets TAIL; its new entries take the settings of now. -/
theorem doorbell_rings (hk : k < queues d) (ht : tail < 32) (hx : x = tget d.ope.tq k) (hn : (tail + 32 - x.head) % 32 ≤ 16)
    (hfwd : (x.tail + 32 - x.head) % 32 ≤ (tail + 32 - x.head) % 32) :
    doorbell k tail d = { d with ope.tq := tset d.ope.tq k { x with
      tail
      sets := (List.range ((tail + 32 - x.tail) % 32)).foldl (fun s i => tset s ((x.tail + i) % 16) d.ope.set) x.sets } } := by
  subst hx
  simp only [doorbell, if_neg (Nat.not_le.mpr hk), Nat.mod_eq_of_lt ht, if_pos (And.intro hn hfwd)]
  rfl

/-- A doorbell that covers more is ignored, counted and recorded. -/
theorem doorbell_ignored (hk : k < queues d) (ht : tail < 32) (hx : x = tget d.ope.tq k) (hn : 16 < (tail + 32 - x.head) % 32) :
    doorbell k tail d = post 0x8007 1 k tail x.head x.tail { d with ope.cnt := bump d.ope.cnt 14 } := by
  subst hx
  simp only [doorbell, if_neg (Nat.not_le.mpr hk), Nat.mod_eq_of_lt ht, if_neg (fun h => Nat.not_le.mpr hn (And.left h))]

end

/-! ### Admission and refusal (R301, R302) -/

/-- A task without FANOUT sends no sub-task (R312). -/
theorem fanOut_single {w : List Nat} (id deadline : Nat) (l : List (Nat × Nat)) (d : Dev) (h : fanOf w = false) :
    fanOut id w deadline l d = d := by
  simp [fanOut, h]

/-- A task is entered at the lowest free entry, with this node's share of its source (R301, R308). -/
theorem taskAdmit_enters {id lo size k deadline : Nat} {s : OpeSet} {w : List Nat} {sub : Option (Nat × Nat)} {g : List (Nat × Nat)}
    {d : Dev} (hid : id = freeEntry d) (hshare : localShare d w = (lo, size)) :
    taskAdmit s k w sub g deadline d = (id, { d with
      ope.tasks := d.ope.tasks ++ [{ entry := id, tq := k, qw := w, sub, gather := g, deadline, lo, size,
                                     chunks := chunkCount w lo size, bytesLeft := bLocal d w g, refused := closedToEngines d,
                                     credits := s.cells }]
      ope.cnt := bump d.ope.cnt 0 }) := by
  simp only [taskAdmit, hshare, ← hid]

/-- TASK_DECIDE acts on a node with engines, outside a stop or dump. -/
theorem taskDecide_acts {d : Dev} (q : List Instr) (hm : d.isM = false) (hdump : d.pwr.dumping = false)
    (hstop : d.pwr.stopping = false) (hon : blockOn 8 d = true) : exec .taskDecide ⟨d, q⟩ = .next ⟨taskDecide d, q⟩ := by
  simp [exec_taskDecide, execTaskDecide, run_eq, hm, hdump, hstop, hon]

section
variable {k : Nat} {w : List Nat} {g l : List (Nat × Nat)} {s : OpeSet} {d e : Dev}
variable (hnext : nextTq d = some k)
  (hw : w = (List.range 16).map fun i => tget d.ope.slots ((k * 16 + (tget d.ope.tq k).head % 16) * 16 + i))
  (he : e = { d with
    ope.tq := tmod d.ope.tq k (fun x => { x with head := ((tget d.ope.tq k).head + 1) % 32 })
    ope.rr := (k + 1) % queues d })
  (hs : s = tget (tget e.ope.tq k).sets ((tget d.ope.tq k).head % 16)) (hsplit : gatherSplit e w = (g, l))
include hnext hw he hs hsplit

/-- A descriptor that a check refuses: HEAD advances, and the refusal goes out. -/
theorem taskDecide_refuses {r : Nat} (hr : admitReason s e k w g (w.getD 1 0) false = some r) :
    taskDecide d = taskRefuse k w r e := by
  subst hw he hs
  dsimp only at hsplit hr
  simp only [taskDecide, hnext, hsplit, hr]

/-- A descriptor that passes every check: HEAD advances, it is entered in the table, and fans out. -/
theorem taskDecide_admits {id : Nat} {h : Dev} (hr : admitReason s e k w g (w.getD 1 0) false = none)
    (hadm : taskAdmit s k w none g (w.getD 1 0) e = (id, h)) :
    taskDecide d = taskCheck id (fanOut id w (w.getD 1 0) l h) := by
  subst hw he hs
  dsimp only at hsplit hr hadm
  simp only [taskDecide, hnext, hsplit, hr, hadm]

end

section
variable {k r : Nat} {w : List Nat} {d : Dev}

/-- A refusal whose result queue is not Enabled is held in the task queue's registers; the second's record is already posted. -/
theorem taskRefuse_toRegisters (hsec : d.ope.refSec = d.time / 100000000 + 1) (hst : (tget d.ope.rq (rqOf w)).st ≠ .enabled) :
    taskRefuse k w r d = { d with
      ope.cnt := bump d.ope.cnt 1
      ope.tq := tmod d.ope.tq k fun x => { x with lastTag := tagOf w, lastReason := r } } := by
  simp [taskRefuse, ← hsec, postIf, hst]

/-- A refusal enters its result queue as a LAST packet with status BUSY. -/
theorem taskRefuse_toQueue {x : Rq} (hsec : d.ope.refSec = d.time / 100000000 + 1) (hq : rqOf w < queues d)
    (hx : x = tget d.ope.rq (rqOf w)) (hst : x.st = .enabled) (hwait : x.waiting = []) (hroom : x.words.length + 6 ≤ rqCap x)
    (hmsi : msiOf w = false) :
    taskRefuse k w r d = { d with
      ope.cnt := bump d.ope.cnt 1
      ope.rq := tset d.ope.rq (rqOf w) { x with words := x.words ++ [6 + 2 ^ 14, tagOf w + k % 64 * 2 ^ 16 + opcodeOf w * 2 ^ 22
        + 2 * 2 ^ 48 + r % 16 * 2 ^ 52 + d.srn.index % 16 * 2 ^ 56, 0, 0, 0, 0] } } := by
  have hopen : ¬(decide (queues d ≤ rqOf w) || decide (¬(tget d.ope.rq (rqOf w)).st = .enabled)) = true := by
    simp [Nat.not_le.mpr hq, ← hx, hst]
  simp only [taskRefuse, postIf, ← hsec, ne_eq, not_true_eq_false, decide_false, Bool.false_eq_true, if_false]
  refine (if_neg hopen).trans ((rqPush_closes (d := { d with ope.cnt := bump d.ope.cnt 1 }) hx hwait ?_ hmsi).trans ?_)
  · simpa [packet_last] using hroom
  · simp [packet_last]

end

/-! ### Chunks (R308–R310) -/

/-- A free engine takes the next chunk of the earliest deadline. -/
theorem chunkStart_takes {n : Nat} {t : Task} {d : Dev} (hstop : d.pwr.stopping = false) (hn : n < d.engines)
    (hst : (tget d.ope.eng n).st = .enabled) (hfree : (tget d.ope.eng n).chunk = none)
    (hfirst : (sortBy (·.deadline) (d.ope.tasks.filter fun t => decide (t.next < t.chunks))).head? = some t) :
    chunkStart n d = snpStart t.entry ((chunkLines t t.next).filter fun k => decide (k / 2 ^ 38 = d.srn.index))
      (taskMod t.entry (fun t => { t with next := t.next + 1 }) { d with
        ope.eng := tmod d.ope.eng n fun x => { x with chunk := some (t.entry, t.next) } }) := by
  simp only [chunkStart, hstop, hst, hfree, Nat.not_le.mpr hn, hfirst, Option.isSome_none, Bool.false_eq_true, ne_eq,
    not_true_eq_false, or_self, if_false]
  rfl

/-- A chunk whose task does not wait reads its lines: the first that cannot be read ends the task, a scratch byte that fails its
check ends it where every line was read, and else the chunk's work is done. -/
theorem chunkEnd_reads {n id i : Nat} {ts : Trouble} {scr : Option Nat} {t : Task} {d e : Dev}
    {r : Option (Nat × Nat × Nat) × Tab Line × Dev}
    (hchunk : (tget d.ope.eng n).chunk = some (id, i)) (htask : taskGet d id = some t) (hroom : stalled t d = false)
    (hask : (d.ope.asking.any fun x => decide (x.1 = id) && (chunkLines t i).any fun k => decide (k / 64 % 2 ^ 32 = x.2)) = false)
    (hop : opcodeOf t.qw ≠ 8) (hprobe : probesWait (chunkFronds d (chunkLines t i)) d = (false, e))
    (hlines : engLines t ts (chunkLines t i) 0 [] e = r) :
    chunkEnd n ts scr d = r.1.elim
      (scr.elim (chunkDone n i t (chunkLines t i) r.2.1 r.2.2) fun x =>
        taskStop id 3 0 r.2.2.srn.index (x % 2 ^ 63 + 2 ^ 63) r.2.2)
      fun bad => taskStop id bad.2.2 0 r.2.2.srn.index (if opcodeOf t.qw = 3 then bad.1 * 64 else max (bad.1 * 64) t.lo)
        { r.2.2 with ope.cnt := bump r.2.2.ope.cnt 11 bad.2.1 } := by
  obtain ⟨bad, g, f⟩ := r
  simp only [chunkEnd, hchunk, htask, hroom, hask, hop, hprobe, hlines, Bool.or_false, Bool.false_eq_true, false_and, if_false]
  cases bad with
  | some bad => rfl
  | none => cases scr <;> rfl

/-- The work of a chunk that writes nothing to scratch is added to its task, and its output goes out. -/
theorem chunkDone_adds {n i : Nat} {t : Task} {ks : List Nat} {g : Tab Line} {o : ChunkOut} {f h : Dev} (hop : opcodeOf t.qw ≠ 8)
    (hh : h = { f with
      ope.eng := tmod f.ope.eng n fun x => { x with chunk := none, chunks := x.chunks + 1 }
      ope.cnt := bump (bump f.ope.cnt 10) 11 ks.length })
    (ho : o = chunkWork h g t i) (hcopy : o.copy = none) :
    chunkDone n i t ks g f = taskCheck t.entry (taskOut t.entry o.items (taskMod t.entry (fun y => { y with
      done := y.done + 1
      examined := y.examined + o.examined
      result := y.result + o.result
      bytesLeft := y.bytesLeft - (if opcodeOf t.qw = 3 then 64 * ks.length else (chunkSpan t i).2)
      crcs := tset y.crcs i o.crc
      groups := o.groups.foldl (fun g x => tmod g x.1 fun z => Grp.merge (colOf (bits (t.q 13) 31 16)).signed z x.2) y.groups })
      h)) := by
  simp only [chunkDone, if_neg hop, ← hh, ← ho, hcopy]

/-! ### Endings (R315, R317) -/

/-- A LATE ending in a second whose record is already posted posts none (R323). -/
theorem endRecord_late_posted {own : Bool} {t : Task} {reason fault : Nat} {d : Dev}
    (hsec : d.ope.lateSec = d.time / 100000000 + 1) : endRecord own t 1 reason fault d = d := by
  simp only [endRecord, postIf, ← hsec, ne_eq, not_true_eq_false, decide_false, Bool.false_eq_true, if_false]

/-- A task of the node's own without sub-tasks leaves the table, its open packets turn void, and its LAST packet enters its queue
(R315, R316). -/
theorem taskStop_closes {id st reason src fault : Nat} {t : Task} {x : Rq} {d e : Dev} (hget : taskGet d id = some t)
    (hsub : t.sub = none) (hsubs : t.subs = [])
    (he : e = endRecord (decide (src = d.srn.index)) t st reason fault { taskDrop id d with
      ope.rq := tmod d.ope.rq (rqOf t.qw) fun r => { r with waiting := r.waiting.map fun p => if p.entry = id then voidPacket p else p }
      ope.cnt := bump (bump d.ope.cnt 13 ((tget d.ope.rq (rqOf t.qw)).waiting.filter fun p => p.entry = id).length) (statusCnt st) })
    (hx : x = tget e.ope.rq (rqOf t.qw)) (hwait : x.waiting = [])
    (hroom : x.words.length + (lastWords t fault t.result).length + 3 ≤ rqCap x) (hmsi : msiOf t.qw = false) :
    taskStop id st reason src fault d = { e with ope.rq := tset e.ope.rq (rqOf t.qw) { x with
      words := x.words ++ packet e t.tq t.qw t.pseq st reason src true false 0 (lastWords t fault t.result) } } := by
  subst he
  simp only [taskStop, hget, hsub, hsubs, Option.isSome_none, Bool.false_eq_true, if_false, List.filter_nil, List.foldl_nil, rqMod1]
  refine rqPush_closes hx hwait ?_ hmsi
  simp only [packet_last, List.length_cons]
  omega

/-- A task of the node's own, without sub-tasks, that its deadline ends: its LAST packet enters with status LATE. -/
theorem taskStop_late {id : Nat} {t : Task} {x : Rq} {m : Tab Rq} {d : Dev} (hget : taskGet d id = some t) (hsub : t.sub = none)
    (hsubs : t.subs = [])
    (hm : m = tmod d.ope.rq (rqOf t.qw) fun r => { r with waiting := r.waiting.map fun p => if p.entry = id then voidPacket p else p })
    (hx : x = tget m (rqOf t.qw)) (hwait : x.waiting = []) (hroom : x.words.length + 6 ≤ rqCap x) (htag : t.tagWords = [])
    (hmsi : msiOf t.qw = false) (hsec : d.ope.lateSec = d.time / 100000000 + 1) :
    taskStop id 1 0 d.srn.index 0 d = { taskDrop id d with
      ope.cnt := bump (bump d.ope.cnt 13 ((tget d.ope.rq (rqOf t.qw)).waiting.filter fun p => p.entry = id).length) 3
      ope.rq := tset m (rqOf t.qw) { x with words := x.words ++ [6 + 2 ^ 14,
        tagOf t.qw + t.tq % 64 * 2 ^ 16 + opcodeOf t.qw * 2 ^ 22 + t.pseq % 65536 * 2 ^ 32 + 1 * 2 ^ 48 + d.srn.index % 16 * 2 ^ 56,
        0, t.examined, 0, t.result] } } := by
  have hlast : lastWords t 0 t.result = [t.examined, 0, t.result] := by rw [lastWords, htag]; rfl
  subst hm
  refine (taskStop_closes hget hsub hsubs (endRecord_late_posted ?sec).symm (x := x) ?queue hwait ?room hmsi).trans ?_
  case sec => exact hsec
  case queue => exact hx
  case room => rwa [hlast]
  rw [hlast]
  simp [packet_last, statusCnt]

/-- A task whose deadline arrives ends at that time, as LATE (R315). -/
theorem deadlineExpiry_ends {id : Nat} {t : Task} {d : Dev} (q : List Instr) (hget : taskGet d id = some t) :
    exec (.deadlineExpiry id) ⟨d, q⟩ =
      .next ⟨taskStop id 1 0 d.srn.index 0 { d with time := max d.time t.deadline }, q⟩ := by
  simp only [exec_deadlineExpiry, execDeadlineExpiry, run_eq, hget]

/-- The one task of a queue is the one that the queue's abort ends (R317). -/
theorem tqAbort_single {k : Nat} {t : Task} {d : Dev} (hk : k < queues d) (hone : d.ope.tasks = [t]) (htq : t.tq = k)
    (hsub : t.sub = none) : tqAbort k d = taskStop t.entry 5 1 d.srn.index 0 d := by
  simp [tqAbort, Nat.not_le.mpr hk, hone, htq, hsub]

/-- An engine that faults ends the task of its chunk, if it runs one (R317). -/
theorem engineFaulted_ends {n : Nat} {d e : Dev} (q : List Instr) (hn : n < d.engines)
    (he : e = post 0x8008 3 n (((tget d.ope.eng n).chunk.map (·.1)).getD 0) 0 0
      { d with ope.eng := tmod d.ope.eng n fun x => { x with st := .faulted, chunk := none } }) :
    exec (.engineFaulted n) ⟨d, q⟩ =
      .next ⟨(tget d.ope.eng n).chunk.elim e fun c => taskStop c.1 5 4 d.srn.index 0 e, q⟩ := by
  have hsrn : e.srn.index = d.srn.index := by rw [he, post_srn]
  simp only [exec_engineFaulted, execEngineFaulted, run_eq, if_neg (Nat.not_le.mpr hn), ← he, hsrn]
  cases (tget d.ope.eng n).chunk <;> rfl

/-! ### The statement on tasks -/

/-- Settles O42: each command by the equation of its operation in the case that the clause names. -/
theorem tasks : Obligations.Tasks := by
  refine ⟨?doorbell, ?ignored, ?admitted, ?toRegisters, ?toQueue, ?start, ?works, ?badLine, ?badScratch, ?late, ?faulted, ?abort⟩
  case doorbell =>
    rintro k tail x s d q hon hk ht hx rfl hn hfwd
    exact run_gate_next q hon (doorbell_rings hk ht hx hn hfwd)
  case ignored =>
    intro k tail x d q hon hk ht hx hn
    exact run_gate_next q hon (doorbell_ignored hk ht hx hn)
  case admitted =>
    intro k id lo size w g s d e q hm hdump hstop hon hnext hw he hs hsplit hfan hr hid hshare
    rw [taskDecide_acts q hm hdump hstop hon, taskDecide_admits hnext hw he hs hsplit hr (taskAdmit_enters hid hshare),
      fanOut_single _ _ _ _ hfan]
  case toRegisters =>
    intro k r w g l s d e q hm hdump hstop hon hnext hw he hs hsplit hr hsec hst
    rw [taskDecide_acts q hm hdump hstop hon, taskDecide_refuses hnext hw he hs hsplit hr, taskRefuse_toRegisters hsec hst]
  case toQueue =>
    intro k r w g l x s d e q hm hdump hstop hon hnext hw he hs hsplit hr hsec hq hx hst hwait hroom hmsi
    rw [taskDecide_acts q hm hdump hstop hon, taskDecide_refuses hnext hw he hs hsplit hr,
      taskRefuse_toQueue hsec hq hx hst hwait hroom hmsi]
  case start =>
    intro n t d q hstop hn hst hfree hfirst
    exact run_next q (chunkStart_takes hstop hn hst hfree hfirst)
  case works =>
    intro n id i ts t g o d e f h q hchunk htask hroom hask hop hprobe hlines hh ho hcopy
    exact run_next q ((chunkEnd_reads hchunk htask hroom hask hop hprobe hlines).trans (chunkDone_adds hop hh ho hcopy))
  case badLine =>
    intro n id i k m st ts scr t g d e f q hchunk htask hroom hask hop hprobe hlines
    exact run_next q (chunkEnd_reads hchunk htask hroom hask hop hprobe hlines)
  case badScratch =>
    intro n id i x ts t g d e f q hchunk htask hroom hask hop hprobe hlines
    exact run_next q (chunkEnd_reads hchunk htask hroom hask hop hprobe hlines)
  case late =>
    intro id t x m d q hget hsub hsubs hm hx hwait hroom htag hmsi hsec
    rw [deadlineExpiry_ends q hget]
    exact run_next q
      (taskStop_late (d := { d with time := max d.time t.deadline }) hget hsub hsubs hm hx hwait hroom htag hmsi hsec)
  case faulted =>
    rintro n _ d e q hn rfl he
    rw [engineFaulted_ends q hn he]
    cases (tget d.ope.eng n).chunk <;> rfl
  case abort =>
    intro k t d q hon hk hone htq hsub
    exact run_gate_next q hon (tqAbort_single hk hone htq hsub)

/-! ### Enables and drains (R322) -/

/-- A task queue is idle when no descriptor is rung and no task of the node's own came by it. -/
theorem tqIdle_iff {n : Nat} {d : Dev} : tqIdle d n = true ↔
    (tget d.ope.tq n).head = (tget d.ope.tq n).tail ∧ ∀ t ∈ d.ope.tasks, t.sub = none → t.tq ≠ n := by
  simp [tqIdle]

/-- A result queue is idle when no task of the node's own names it. -/
theorem rqIdle_iff {n : Nat} {d : Dev} : rqIdle d n = true ↔ ∀ t ∈ d.ope.tasks, t.sub = none → rqOf t.qw ≠ n := by
  simp [rqIdle]

/-- Clearing EN of an Enabled unit disables it when nothing is left to drain, and drains it when something is. -/
theorem enWrite_clear (idle : Bool) : enWrite false idle .enabled = if idle = true then .disabled else .draining := rfl

section
variable {n : Nat} {d : Dev}

/-- A write of EN of an engine of the variant. -/
theorem engEnable_eq {x : Eng} (en : Bool) (hn : n < d.engines) (hx : x = tget d.ope.eng n) :
    engEnable n en d = { d with ope.eng := tset d.ope.eng n { x with en, st := enWrite en x.chunk.isNone x.st } } := by
  subst hx
  exact if_neg (Nat.not_le.mpr hn)

/-- A write of EN of a task queue of the variant. -/
theorem tqEnable_eq {x : Tq} (en : Bool) (hn : n < queues d) (hx : x = tget d.ope.tq n) :
    tqEnable n en d = { d with ope.tq := tset d.ope.tq n { x with st := enWrite en (tqIdle d n) x.st } } := by
  subst hx
  exact if_neg (Nat.not_le.mpr hn)

/-- A write of EN of a result queue of the variant. -/
theorem rqEnable_eq {x : Rq} (en : Bool) (hn : n < queues d) (hx : x = tget d.ope.rq n) :
    rqEnable n en d = { d with ope.rq := tset d.ope.rq n { x with st := enWrite en (rqIdle d n) x.st } } := by
  subst hx
  exact if_neg (Nat.not_le.mpr hn)

/-- The drain of an engine without a chunk ends. -/
theorem unitDrainEnd_engine {x : Eng} (q : List Instr) (hx : x = tget d.ope.eng n) (hchunk : x.chunk = none) :
    exec (.unitDrainEnd (.engine n)) ⟨d, q⟩ = .next ⟨{ d with ope.eng := tset d.ope.eng n { x with st := drained x.st } }, q⟩ := by
  subst hx
  rw [exec_unitDrainEnd, execUnitDrainEnd]
  refine run_next q ?_
  simp only [hchunk, Option.isSome_none, Bool.false_eq_true, if_false, tmod]

/-- The drain of an idle task queue ends. -/
theorem unitDrainEnd_taskQueue {x : Tq} (q : List Instr) (hx : x = tget d.ope.tq n) (hidle : tqIdle d n = true) :
    exec (.unitDrainEnd (.taskQueue n)) ⟨d, q⟩ = .next ⟨{ d with ope.tq := tset d.ope.tq n { x with st := drained x.st } }, q⟩ := by
  subst hx
  rw [exec_unitDrainEnd, execUnitDrainEnd]
  refine run_next q ?_
  simp only [hidle, Bool.not_true, Bool.false_eq_true, if_false, tmod]

end

/-! ### The statement on enables and result queues -/

/-- Settles O43: each unit's state after a write of EN or a drain's end, and each result queue by what enters and what is read. -/
theorem enablesAndQueues : Obligations.EnablesAndQueues := by
  refine ⟨?engine, ?tqClear, ?tqLatch, ?rqClear, ?rqSet, ?engineDrained, ?tqDrained, ?packet, ?last, ?read, ?past⟩
  case engine =>
    intro n en x d q hon hn hx
    refine run_gate_next q hon ((engEnable_eq en hn hx).trans ?_)
    cases x.st <;> cases en <;> simp [enWrite]
  case tqClear =>
    intro n x d q hon hn hx hst
    refine run_gate_next q hon ((tqEnable_eq false hn hx).trans ?_)
    simp only [hst, enWrite_clear, tqIdle_iff, ← hx]
  case tqLatch =>
    intro n x d q hon hn hx hst
    refine run_gate_next q hon ((tqEnable_eq true hn hx).trans ?_)
    rw [hst]
    rfl
  case rqClear =>
    intro n x d q hon hn hx hst
    refine run_gate_next q hon ((rqEnable_eq false hn hx).trans ?_)
    simp only [hst, enWrite_clear, rqIdle_iff]
  case rqSet =>
    intro n x d q hon hn hx hst
    refine run_gate_next q hon ((rqEnable_eq true hn hx).trans ?_)
    rw [hst]
    rfl
  case engineDrained =>
    intro n x d q hx hchunk hst
    rw [unitDrainEnd_engine q hx hchunk, hst]
    rfl
  case tqDrained =>
    intro n x d q hx hrung hnone hst
    have hidle : tqIdle d n = true := tqIdle_iff.mpr ⟨hx ▸ hrung, by simp [hnone]⟩
    rw [unitDrainEnd_taskQueue q hx hidle, hst]
    rfl
  case packet =>
    intro n x p d e q hx hwait hlast hroom he
    refine run_next q ((rqFlush_enters hx hwait hroom (by simp [hlast]) he rfl).trans ?_)
    simp only [hlast, Bool.false_eq_true, false_and, if_false]
  case last =>
    intro n x p t d e g q hx hwait hlast hroom hget htime he hg
    have hlate : p.last = true → ∀ u, taskGet d p.entry = some u → d.time < u.deadline := fun _ u hu => by
      rwa [← Option.some.inj (hget.symm.trans hu)]
    refine run_next q ((rqFlush_enters hx hwait hroom hlate he hg).trans ?_)
    simp only [hlast, hget, Option.isSome_some, and_self, if_true]
  case read =>
    intro n rd ce k x d q hon hn hx hrd hmod hk hin
    exact run_gate_next q hon (rqRead_consumes ce hn hx hrd hmod hk hin)
  case past =>
    intro n rd ce x bad d q hon hn hx hrd hmod hpast
    exact run_gate_next q hon (rqRead_past ce bad hx hrd hmod hpast)

/-! ### Sub-tasks (R312–R314) -/

/-- The sixteen quadwords of a descriptor, read one by one, are the descriptor. -/
theorem quadwords_eq {w : List Nat} (hw : w.length = 16) : ((List.range 16).map fun i => w.getD i 0) = w := by
  refine List.ext_getElem (by simp [hw]) fun i _ hi => ?_
  simp [hi]

section
variable {c : Cell} {d e : Dev}

section
variable {w : List Nat} {l : List (Nat × Nat)} (hacc : acceptCell c 0x08 true d = (true, e)) (hdump : e.pwr.dumping = false)
  (hstop : e.pwr.stopping = false) (hmem : isMember e = true)
include hacc hdump hstop hmem

/-- A TASK cell whose sub-task already runs is acknowledged, and admitted no second time. -/
theorem taskCell_again {t : Task} (hsub : subTask e c.src c.tag = some t) : taskCell c w l d = subAck c e := by
  simp only [taskCell, hacc, hdump, hstop, hmem, hsub, Bool.not_true, Bool.false_eq_true, or_self, Option.isSome_some, if_true,
    if_false]

variable {g : Dev} (hsub : subTask e c.src c.tag = none) (hw : w.length = 16) (hg : g = { e with ope.cnt := bump e.ope.cnt 8 })
include hsub hw hg

/-- A sub-descriptor that passes every check is entered in the table and acknowledged. -/
theorem taskCell_admits {id : Nat} {h : Dev}
    (hr : admitReason g.ope.set g 0 w l (e.time + w.getD 1 0 - e.ope.set.margin) true = none)
    (hadm : taskAdmit g.ope.set 0 w (some (c.src, c.tag)) l (e.time + w.getD 1 0 - e.ope.set.margin) g = (id, h)) :
    taskCell c w l d = taskCheck id (subAck c h) := by
  subst hg
  dsimp only at hr hadm
  simp only [taskCell, hacc, hdump, hstop, hmem, hsub, quadwords_eq hw, hr, hadm, Bool.not_true, Bool.false_eq_true, or_self,
    Option.isSome_none, if_false]

/-- A sub-descriptor that a check refuses is acknowledged and ended with BUSY, counted, and recorded once in a second. -/
theorem taskCell_refuses {r : Nat}
    (hr : admitReason g.ope.set g 0 w l (e.time + w.getD 1 0 - e.ope.set.margin) true = some r) :
    taskCell c w l d = cellTo 0x0A c.src c.tag 0 (2 + r * 16) [0, 0, 0, 0, 0] (subAck c
      (postIf (decide (e.ope.refSec ≠ e.time / 100000000 + 1)) 0x8001 0 0 r (tagOf w) 1
        { g with ope.cnt := bump g.ope.cnt 1, ope.refSec := e.time / 100000000 + 1 })) := by
  subst hg
  dsimp only at hr
  simp only [taskCell, hacc, hdump, hstop, hmem, hsub, quadwords_eq hw, hr, Bool.not_true, Bool.false_eq_true, or_self,
    Option.isSome_none, if_false]

end

/-- A CREDIT cell lets waiting cells go, which answer it, or is acknowledged (R313). -/
theorem creditCell_gives {n k : Nat} {t : Task} {g : Dev} (hacc : acceptCell c 0x08 true d = (true, e))
    (hsub : subTask e c.src c.tag = some t)
    (hflush : cellsFlush t.entry (taskMod t.entry (fun t => { t with credits := t.credits + n }) e) = (k, g)) :
    creditCell c n d = taskCheck t.entry (if k = 0 then subAck c g else g) := by
  simp only [creditCell, hacc, hsub, hflush, Bool.not_true, Bool.false_eq_true, if_false]

/-- An ABORT cell drops its sub-task, recorded and acknowledged (R313). -/
theorem abort_drops {t : Task} (q : List Instr) (hacc : acceptCell c 0x08 true d = (true, e))
    (hsub : subTask e c.src c.tag = some t) :
    exec (.abort c) ⟨d, q⟩ = .next ⟨subAck c (post 0x8004 1 t.tq 5 (tagOf t.qw) 0
      (taskDrop t.entry { e with ope.cnt := bump e.ope.cnt 6 })), q⟩ := by
  simp only [exec_abort, execAbort, run_eq, hacc, hsub, Bool.not_true, Bool.false_eq_true, if_false]

/-- A RESULT cell with words becomes a packet with PEER, or is merged into the groups; each eighth cell returns its credits (R313). -/
theorem resultCell_takes {w ws : List Nat} {t : Task} {s : Sub} {g : Dev} (hacc : acceptCell c 0x09 true d = (true, e))
    (hsub : subOf e c.src c.tag = some (t, s)) (hopen : s.ended = false) (hws : ws = (w.drop 2).take (min 30 c.status))
    (hne : ws ≠ [])
    (hg : g = (if opcodeOf t.qw = 4 then taskMod t.entry (fun y => { y with groups := (groupsOf ws).foldl (fun g x =>
          tmod g x.1 fun z => Grp.merge (colOf (bits (t.q 13) 31 16)).signed z x.2) y.groups })
          (subMod t.entry c.tag (fun x => { x with acked := true }) e)
      else (rqPush (rqOf t.qw) { entry := t.entry, last := false, words := (ws.length + 3 + 2 ^ 15) :: (tagOf t.qw + t.tq % 64 * 2 ^ 16
          + opcodeOf t.qw * 2 ^ 22 + bits (w.getD 0 0) 47 32 * 2 ^ 32 + c.src % 16 * 2 ^ 56) :: w.getD 1 0 :: ws }
        (subMod t.entry c.tag (fun x => { x with acked := true }) e)).2)) :
    resultCell c w d = if 8 ≤ s.uncred + 1 then
        cellTo 0x08 c.src c.tag 0 0 [0xF0, s.uncred + 1] (subMod t.entry c.tag (fun x => { x with
          cells := x.cells + 1, uncred := 0, acked := false, attempts := 1, limit := g.srn.attempts, payload := [0xF0, s.uncred + 1] }) g)
      else subMod t.entry c.tag (fun x => { x with cells := x.cells + 1, uncred := s.uncred + 1 }) g := by
  have hdata : ws.isEmpty = false := by simpa using hne
  simp only [resultCell, hacc, hsub, ← hws, hdata, hopen, ← hg, Bool.not_true, Bool.false_eq_true, or_self, if_false]

/-- TASK_END ends its sub-task, and its task by the status, by the cells that came, or not yet (R314). -/
theorem taskEnded_ends {cells examined word fault bytes : Nat} {tag : List Nat} {t : Task} {s : Sub} {g : Dev}
    (hacc : acceptCell c 0x0A true d = (true, e)) (hsub : subOf e c.src c.tag = some (t, s)) (hopen : s.ended = false)
    (hg : g = taskMod t.entry (fun t => { t with
      examined := t.examined + examined
      tagWords := if tag = [] then t.tagWords else tag
      result := if opcodeOf t.qw = 7 ∧ hmodeOf t.qw = 0 then t.result else t.result + word })
      (subMod t.entry c.tag (fun s => { s with ended := true, acked := true, bytes, crc := word }) e)) :
    taskEnded c cells examined word fault bytes tag d =
      if c.status % 16 ≠ 0 then taskStop t.entry (c.status % 16) (if c.status % 16 = 2 then 9 else c.status / 16 % 16) c.src fault g
      else if s.cells < cells then subLost t s cells g
      else taskCheck t.entry g := by
  simp only [taskEnded, hacc, hsub, hopen, ← hg, Bool.not_true, Bool.false_eq_true, if_false]

end

/-! ### The statement on sub-tasks -/

/-- Settles O44: each cell of a task by what it does at the node it comes to. -/
theorem subTasks : Obligations.SubTasks := by
  refine ⟨?admitted, ?refused, ?again, ?credit, ?abort, ?result, ?taskEnd⟩
  case admitted =>
    intro c w l d e g h id q hacc hdump hstop hmem hsub hw hg hr hadm
    exact run_next q (taskCell_admits hacc hdump hstop hmem hsub hw hg hr hadm)
  case refused =>
    intro c w l r d e g q hacc hdump hstop hmem hsub hw hg hr
    exact run_next q (taskCell_refuses hacc hdump hstop hmem hsub hw hg hr)
  case again =>
    intro c w l t d e q hacc hdump hstop hmem hsub
    exact run_next q (taskCell_again hacc hdump hstop hmem hsub)
  case credit =>
    intro c n k t d e g q hacc hsub hflush
    exact run_next q (creditCell_gives hacc hsub hflush)
  case abort =>
    intro c t d e q hacc hsub
    exact abort_drops q hacc hsub
  case result =>
    intro c w ws t s d e g q hacc hsub hopen hws hne hg
    exact run_next q (resultCell_takes hacc hsub hopen hws hne hg)
  case taskEnd =>
    intro c cells examined word fault bytes tag t s d e g q hacc hsub hopen hg
    exact run_next q (taskEnded_ends hacc hsub hopen hg)

end Sys2Proof.Machine
end

section
/-! Proofs of the statements on the command step and on the event recorder: the posting buffer, acceptance, the windows and
the frozen log, and the recorder's commands. -/

namespace Sys2Proof.Machine

/-! ### Every command acts on the device alone (R402) -/

/-- A command's answer is a next state that differs in the device alone. -/
theorem exec_changes_device (c : Instr) (s : State) : ∃ d : Dev, exec c s = .next { s with dev := d } := by
  cases c <;> exact ⟨_, rfl⟩

/-! ### The posting buffer (R387) -/

/-- A post that finds an entry takes it. -/
theorem post_enters {code sev p0 p1 p2 p3 : Nat} {d : Dev}
    (h : d.evr.buf.length < 240 ∨ (sev = 4 ∧ d.evr.buf.length < 256)) :
    post code sev p0 p1 p2 p3 d = { d with evr.buf := d.evr.buf ++
      [{ code, sev, p0 := p0 % 2 ^ 32, p1 := p1 % 2 ^ 32, p2 := p2 % 2 ^ 32, p3 := p3 % 2 ^ 32 }] } := if_pos h

/-- A post of a lower severity that finds the common entries taken is dropped. -/
theorem post_drops {code sev p0 p1 p2 p3 : Nat} {d : Dev} (hs : sev ≠ 4) (h : 240 ≤ d.evr.buf.length) :
    post code sev p0 p1 p2 p3 d = { d with evr.cnt := bump d.evr.cnt 2, evr.lostBefore := true } :=
  if_neg (by rintro (hroom | hsev) <;> omega)

/-! ### Acceptance (R385, R386) -/

section
variable {d : Dev} {p : Post}

/-- With no rate limit every post passes. -/
theorem compatPass_off (h : d.evr.compatEnNow = false) : compatPass p d = (true, d) := by
  simp only [compatPass, h, Bool.false_eq_true, false_and, if_false]

/-- The port that holds the one waiting post is served next. -/
theorem nextPort_single (hbuf : d.evr.buf = [p]) (hport : p.code / 4096 ∈ span 1 11) :
    nextPort d = some (p.code / 4096) := by
  obtain ⟨j, hj, hk⟩ : ∃ j < 11, 1 + j = p.code / 4096 := by simpa [span] using hport
  have hreached : p.code / 4096 ∈ (List.range 11).map fun i => (d.evr.port + i) % 11 + 1 :=
    List.mem_map.mpr ⟨(j + 11 - d.evr.port % 11) % 11, List.mem_range.mpr (by omega), by omega⟩
  unfold nextPort
  simp only [hbuf, List.any_cons, List.any_nil, Bool.or_false]
  cases hfind : ((List.range 11).map fun i => (d.evr.port + i) % 11 + 1).find? fun q => decide (p.code / 4096 = q) with
  | none => exact absurd (List.find?_eq_none.mp hfind _ hreached) (by simp)
  | some q =>
    have hq : p.code / 4096 = q := by simpa using List.find?_some hfind
    rw [hq]

/-- The record of a post that takes no place in the protected area and none in a CXL event log: its SEQ and TIME are those of
the moment of acceptance (R386). -/
def plainRec (p : Post) (d : Dev) : Rec :=
  { code := p.code, sev := p.sev, flags := 4 * b2n (!d.evr.epochSet) + 16 * b2n d.evr.lostBefore + 32 * b2n p.summary,
    seq := d.evr.seqNext, time := d.time, p0 := p.p0, p1 := p.p1, p2 := p.p2, p3 := p.p3 }

/-- A post of severity 0 or 1 goes to the log alone while the log is not frozen: not to the protected area, not to a CXL event
log, and to the flash only when it is 0xA006. -/
theorem acceptRec_low (hsev : p.sev < 2) (hcode : p.code ≠ 0xA006) (hfrozen : d.evr.frozen = false) :
    acceptRec p d = logPut (plainRec p d) { d with
      evr.seqNext := (d.evr.seqNext + 1) % 2 ^ 32
      evr.lostBefore := false
      evr.cnt := bump d.evr.cnt 0 } := by
  have hprot : p.sev ≠ 4 := by omega
  have hfail : p.sev ≠ 3 := by omega
  have hcxl : ∀ r e, cxlPut p.sev r e = e := by
    intro r e
    interval_cases p.sev <;> rfl
  have hroom : cxlRoom d p.sev = false := by interval_cases p.sev <;> rfl
  delta plainRec
  simp [acceptRec, hcxl, hroom, hprot, hfail, hcode, hfrozen, b2n]

/-- A post of severity 0 or 1, with the rate limit off and the log not frozen. -/
theorem acceptPost_low (hsev : p.sev < 2) (hcode : p.code ≠ 0xA006) (hfrozen : d.evr.frozen = false)
    (hrate : d.evr.compatEnNow = false) (hfull : d.evr.protFull = false) :
    acceptPost p d = logPut (plainRec p d) { d with
      evr.seqNext := (d.evr.seqNext + 1) % 2 ^ 32
      evr.lostBefore := false
      evr.cnt := bump d.evr.cnt 0 } := by
  simp [acceptPost, compatPass_off hrate, acceptRec_low hsev hcode hfrozen, hfrozen, hfull, logPut]

/-- The one waiting post leaves the buffer, and its port is the last served. -/
theorem acceptOne_single (hbuf : d.evr.buf = [p]) (hport : p.code / 4096 ∈ span 1 11) :
    acceptOne d = acceptPost p { d with evr.buf := [], evr.port := p.code / 4096 % 11 } := by
  simp [acceptOne, nextPort_single hbuf hport, hbuf]

/-- Acceptance of the one waiting post of severity 0 or 1, with the rate limit off and the log not frozen. -/
theorem acceptOne_low (hbuf : d.evr.buf = [p]) (hport : p.code / 4096 ∈ span 1 11) (hsev : p.sev < 2) (hcode : p.code ≠ 0xA006)
    (hfrozen : d.evr.frozen = false) (hrate : d.evr.compatEnNow = false) (hfull : d.evr.protFull = false) :
    acceptOne d = logPut (plainRec p d) { d with
      evr.buf := []
      evr.port := p.code / 4096 % 11
      evr.seqNext := (d.evr.seqNext + 1) % 2 ^ 32
      evr.lostBefore := false
      evr.cnt := bump d.evr.cnt 0 } :=
  (acceptOne_single hbuf hport).trans
    (acceptPost_low (d := { d with evr.buf := [], evr.port := p.code / 4096 % 11 }) hsev hcode hfrozen hrate hfull)

end

/-! ### The windows and the frozen log (R394, R395, R399) -/

section
variable {d : Dev}

/-- The histogram window closes at the moment given: what it gathered becomes the last window's. -/
theorem histEnd_at (t : Nat) : histEnd { d with time := t } = { d with
    time := t
    evr.binsLast := d.evr.bins
    evr.bins := []
    evr.extLast := d.evr.ext
    evr.ext := []
    evr.lastStart := d.evr.winStart
    evr.lastLen := t - d.evr.winStart
    evr.winStart := t
    evr.winMsNow := d.evr.winMs } := rfl

theorem exec_histogramWindowEnd (s : State) : exec .histogramWindowEnd s =
    run (fun d => if !d.pwr.mode.firmware then d else histEnd { d with time := alignUp (d.evr.winMsNow * 100000) d.time }) s := rfl

/-- A compatibility window with no code suppressed posts no summary. -/
theorem compatEnd_silent (h : ∀ c ∈ d.evr.codes, c.2.2 = 0) : compatEnd d = { d with
    evr.codes := []
    evr.compatEnNow := d.evr.compatEn
    evr.compatLimitNow := d.evr.compatLimit
    evr.compatMsNow := d.evr.compatMs } := by
  have hsilent : ∀ l : List (Nat × Nat × Nat), (∀ c ∈ l, c.2.2 = 0) →
      l.foldl (fun d c => if c.2.2 = 0 then d else postSummary c.1 c.2.2 d.evr.compatMsNow d) d = d := by
    intro l hl
    induction l with
    | nil => rfl
    | cons c l ih =>
      rw [List.foldl_cons, if_pos (hl c List.mem_cons_self)]
      exact ih fun x hx => hl x (List.mem_cons_of_mem c hx)
  unfold compatEnd
  rw [hsilent d.evr.codes h]

/-- A frozen log that holds no record thaws to itself. -/
theorem thaw_empty (hf : d.evr.frozen = true) (hh : d.evr.hold = []) :
    thaw d = { d with evr.frozen := false, evr.hold := [] } := by
  simp [thaw, hf, hh]

end

/-! ### The recorder's commands (R355) -/

section
variable {tr : Transport} {p : List Byte} {d : Dev} {q : List Instr}

/-- FREEZE_LOG where the executor takes it: outside Splice. -/
theorem run_freezeLog {e : Dev} (ht : d.takes mUM tr) (hs : d.pwr.mode ≠ .splice) (hl : p.length = 1) (hb : byte p 0 < 2)
    (he : freezeLog (decide (byte p 0 = 1)) d = e) :
    exec (.freezeLog tr p) ⟨d, q⟩ = .next ⟨cmdEnd tr 0xC501 0 [] 0 false e, q⟩ := by
  have hg : (if d.pwr.mode = .splice then {} else mUM) = mUM := if_neg hs
  exact run_done (hg.symm ▸ ht) rfl (by simp [len, hl]) (by omega) (by simp [hb]) (congrArg (ret rcOk) he)

/-- READ_HISTOGRAM of a class or an extreme, of the running or the last window. -/
theorem run_readHistogram {out : List Byte} (ht : d.takes mAll tr) (hl : p.length = 2)
    (hc : byte p 0 < 5 ∨ (16 ≤ byte p 0 ∧ byte p 0 < 24)) (hw : byte p 1 < 2) (hout : readHistogram p d = out) :
    exec (.readHistogram tr p) ⟨d, q⟩ = .next ⟨cmdEnd tr 0xC504 0 out 0 false d, q⟩ :=
  run_done ht rfl (by simp [len, hl]) (by omega) (by simp [hc, hw]) (congrArg (ans rcOk · d) hout)

end

/-! ### The statements -/

/-- Settles O3: a command's answer differs from the state in the device alone. -/
theorem everyCommandGoesOn : Obligations.EveryCommandGoesOn := by
  intro c s
  obtain ⟨d, h⟩ := exec_changes_device c s
  exact ⟨_, h, rfl⟩

/-- Settles O7: a post finds an entry or does not. -/
theorem postingBuffer : Obligations.PostingBuffer :=
  ⟨fun _ _ _ _ _ _ _ h => post_enters h, fun _ _ _ _ _ _ _ hs h => post_drops hs h⟩

/-- Settles O8: the record of the one waiting post goes to the log alone, into a slot that was empty. -/
theorem recordAccepted : Obligations.RecordAccepted := by
  intro d q p hfw hbuf hsev hport hfrozen hrate hfull hcode hslot
  have hacc := acceptOne_low hbuf hport hsev hcode hfrozen hrate hfull
  refine ⟨acceptOne d, run_next q (if_pos hfw), ?_⟩
  rw [hacc]
  delta plainRec
  simp only [logPut]
  simp [hslot]

/-- Settles O9: each window's end and the thaw by the equation of its effect. -/
theorem recorderWindows : Obligations.RecorderWindows := by
  refine ⟨?histogram, ?compat, ?thawed, ?notFrozen⟩
  case histogram =>
    intro d q hfw
    rw [exec_histogramWindowEnd, run_eq, if_neg (by simp [hfw]), histEnd_at]
    rfl
  case compat =>
    intro d q hfw hsilent
    exact run_next q ((if_neg (by simp [hfw])).trans
      (compatEnd_silent (d := { d with time := alignUp (d.evr.compatMsNow * 100000) d.time }) hsilent))
  case thawed =>
    intro d q hf hh
    exact run_next q ((if_pos hf).trans (by rw [thaw_empty hf hh, hh, List.length_nil]))
  case notFrozen =>
    intro d q hf
    exact run_next q (if_neg (by simp [hf]))

/-- Settles O10: each command passes its checks and its body answers what the statement names. -/
theorem recorderCommands : Obligations.RecorderCommands := by
  refine ⟨?readLog, ?freeze, ?frozen, ?thawed, ?readProt, ?clear, ?last, ?running, ?extreme⟩
  case readLog =>
    intro tr p d q ht hl hmin hmax
    exact run_done ht rfl (by simp [len, hl]) (by omega) (by simp [hmin, hmax]) rfl
  case freeze =>
    intro tr p d q ht hs hl hone hfrozen
    exact run_freezeLog ht hs hl (by simp [hone]) (by simp [freezeLog, hone, hfrozen])
  case frozen =>
    intro tr p d q ht hs hl hone hfrozen
    exact run_freezeLog ht hs hl (by simp [hone]) (by simp [freezeLog, hone, hfrozen])
  case thawed =>
    intro tr p d q ht hs hl hzero
    exact run_freezeLog ht hs hl (by simp [hzero]) (by simp [freezeLog, hzero])
  case readProt =>
    rintro tr p d q first n ht hl hmin hmax rfl rfl
    exact run_done ht rfl (by simp [len, hl]) (by omega) (by simp [hmin, hmax]) rfl
  case clear =>
    intro tr d q ht
    exact run_done ht rfl rfl (by decide) rfl rfl
  case last =>
    intro tr p d q ht hl hclass hwin
    exact run_readHistogram ht hl (.inl hclass) (by omega) (by simp [readHistogram, hclass, hwin])
  case running =>
    intro tr p d q ht hl hclass hwin
    exact run_readHistogram ht hl (.inl hclass) (by omega) (by simp [readHistogram, hclass, hwin])
  case extreme =>
    intro tr p d q ht hl hmin hmax hwin
    exact run_readHistogram ht hl (.inr ⟨hmin, hmax⟩) hwin (by simp only [readHistogram, if_neg (Nat.not_lt.mpr (by omega : 5 ≤ byte p 0))])

end Sys2Proof.Machine
end

section
/-! Proofs of the statements on the cipher engine: its keys (R325–R328) and its requests (R329–R336). -/

namespace Sys2Proof.Machine

/-! ### Loading a key (R326, R328) -/

section
variable {tr : Transport} {k a how id : Nat} {key : Nat → List Byte} {p : List Byte} {d e : Dev}

/-- A key that does not persist is loaded under a fresh KEYID and recorded; nothing is stored. -/
theorem cphLoad_volatile (ha : bit a 4 = false) (hid : freshKeyid d = (id, e)) :
    cphLoad k a how key d = ans rcOk (toLe 4 id) (post 0x7040 0 k how id a { e with
      cph.slots := tset e.cph.slots k { st := .loaded, len := a % 4, engine := bit a 2, exportable := bit a 3,
                                        persist := false, keyid := id, key := key id }
      cph.cnt := bump e.cph.cnt 7 }) := by
  delta cphLoad
  simp [ha, hid, attrSlot]

/-- A key that persists is loaded, and its record is stored under the root key. -/
theorem cphLoad_persists {x : CSlot} {g : Dev} (ha : bit a 4 = true) (hworn : 3 ∉ d.pst.worn) (hok : supplyOk d = true)
    (hid : freshKeyid d = (id, e)) (hx : x = attrSlot a id (key id))
    (hg : g = fwWrite (.cphRec k { keyid := id, wrapped := keyWrap (fitTo 32 (Config.keyBytes e.rootKey)) x.key,
                                   seq := (tget e.pst.nv.cphKeys k).next, empty := false } { x with key := [] }) e) :
    cphLoad k a how key d = ans rcOk (toLe 4 id) (post 0x7040 0 k how id a { g with
      cph.slots := tset g.cph.slots k x
      cph.cnt := bump g.cph.cnt 7 }) := by
  have hpersist : (attrSlot a id (key id)).persist = true := ha
  subst hg hx
  delta cphLoad
  simp only [ha, hworn, hok, hid, hpersist, if_true, if_false]

/-- CPH_KEY_GENERATE into an Empty slot loads what the generator draws. -/
theorem cphGenerate_empty (h : (tget d.cph.slots (byte p 0)).st = .empty) :
    cphGenerate p d = cphLoad (byte p 0) (byte p 1) 0 (fun id => fitTo (keyLen (byte p 1 % 4)) (Config.keyBytes id)) d :=
  if_neg (not_not.mpr h)

/-! ### Importing a key (R326) -/

/-- A plaintext key under a secured session is loaded as it came. -/
theorem cphImport_plain {s : Bool} (hst : (tget d.cph.slots (byte p 0)).st = .empty) (hform : byte p 2 = 0)
    (hsafe : importSafe tr s d = true) :
    cphImport tr s p d = cphLoad (byte p 0) (byte p 1) 1 (fun _ => (p.drop 8).take (le p 4 2)) d := by
  delta cphImport
  simp only [hst, hform, hsafe, ne_eq, not_true_eq_false, if_false, if_true, Nat.zero_ne_one]

/-- A plaintext key outside a secured session is refused and recorded. -/
theorem cphImport_unsecured (hst : (tget d.cph.slots (byte p 0)).st = .empty) (hform : byte p 2 = 0) :
    cphImport tr false p d = ret rcSecState (post 0x7043 1 (byte p 0) 0 rcSecState 0 d) := by
  delta cphImport
  simp only [importSafe, hst, hform, Bool.false_and, Bool.false_eq_true, ne_eq, not_true_eq_false, if_false,
    Nat.zero_ne_one]

/-- A wrapped key is loaded as its KEK unwraps it. -/
theorem cphImport_wrapped {s : Bool} {kek bytes : List Byte} (hst : (tget d.cph.slots (byte p 0)).st = .empty)
    (hform : byte p 2 = 1) (hkek : kekOf d (byte p 3) = some kek)
    (hkey : keyUnwrap kek ((p.drop 8).take (le p 4 2)) = some bytes) :
    cphImport tr s p d = cphLoad (byte p 0) (byte p 1) 1 (fun _ => fitTo (keyLen (byte p 1 % 4)) bytes) d := by
  delta cphImport
  simp only [hst, hform, hkek, hkey, ne_eq, not_true_eq_false, if_false, if_true]

/-! ### Wrapping and clearing a key (R326, R327) -/

/-- CPH_KEY_WRAP of an exportable slot under a Loaded 256-bit KEK. -/
theorem cphWrap_exports {x w : CSlot} (hx : x = tget d.cph.slots (byte p 0)) (hw : w = tget d.cph.slots (byte p 1))
    (hslot : byte p 1 < 24) (hxst : x.st = .loaded) (hexp : x.exportable = true) (hwst : w.st = .loaded) (hlen : w.len = 2) :
    cphWrap p d = ans rcOk (keyWrap w.key x.key) d := by
  subst hx hw
  have hkek : kekOf d (byte p 1) = some (tget d.cph.slots (byte p 1)).key := if_pos ⟨hwst, hlen, hslot⟩
  simp only [cphWrap, hkek, hxst, hexp, ne_eq, not_true_eq_false, Bool.not_true, Bool.false_eq_true, or_self, if_false]

/-- CPH_KEY_ZEROIZE of a slot on which no request waits empties it; it runs on while a core works on the slot. -/
theorem cphZeroize_empties {started : Bool} (hp : (tget d.cph.slots (byte p 0)).persist = false)
    (hwait : d.cph.queue.filter (fun r => r.core.isNone && r.slot = byte p 0) = [])
    (hstart : d.cph.queue.any (fun r => r.core.isSome && r.slot = byte p 0) = started) :
    cphZeroize p d = (if started then .long (.zeroize (byte p 0)) 0 1 else .done rcOk [],
      post 0x7041 0 (byte p 0) (tget d.cph.slots (byte p 0)).keyid 0 0
        { d with cph.slots := tset d.cph.slots (byte p 0) {} }) := by
  subst hstart
  unfold cphZeroize
  simp only [hwait, hp, List.foldl_nil, List.length_nil, Bool.false_eq_true, if_false]
  split <;> rfl

end

/-! ### A request enters (R332–R334) -/

section
variable {tr : Transport} {p : List Byte} {d : Dev}

/-- The request that a CPH_REQUEST carries. -/
def hostReq (tr : Transport) (p : List Byte) : CReq :=
  { origin := .host tr, qw := (List.range 8).map fun i => le p (8 * i) 8,
    aad := (p.drop 64).take (bits (le p 8 8) 47 32), msg := p.drop (64 + bits (le p 8 8) 47 32) }

/-- A request without a fault enters the queue and holds the mailbox. -/
theorem cphRequest_queued (hm : d.pwr.mode ≠ .transit) (hpre : preStatus d (hostReq tr p) (p.length - 64) = 0)
    (hcores : d.cph.coresOff.length < 8) :
    cphRequest tr p d = (.long .cipher 2 (hostReq tr p).n, cphEnq (hostReq tr p) d) := by
  unfold cphRequest
  rw [if_neg (fun h => hm h.1)]
  exact (if_neg (not_not.mpr hpre)).trans (if_neg (Nat.not_le.mpr hcores))

/-- An ill formed request is counted under its origin and among the refused, and refused. -/
theorem cphRequest_illFormed (hm : d.pwr.mode ≠ .transit) (hdesc : descOk (hostReq tr p) (p.length - 64) = false) :
    cphRequest tr p d = ret rcInput { d with cph.cnt := bump (bump d.cph.cnt 1) 5 } := by
  have hpre : preStatus d (hostReq tr p) (p.length - 64) = 5 := if_pos (by simp [hdesc])
  have hstop : preStatus d (hostReq tr p) (p.length - 64) ≠ 0 := by simp [hpre]
  unfold cphRequest
  rw [if_neg (fun h => hm h.1)]
  exact (if_pos hstop).trans (congrArg (fun st => ret rcInput (cphCount (.host tr) st d)) hpre)

end

/-! ### A core takes and ends a request (R332, R334, R336) -/

section
variable {core : Nat} {r : CReq} {d : Dev}

/-- A free core takes the one waiting request of operands in the payload, with its slot's key. -/
theorem cipherStart_takes (hcore : core < 8) (hon : core ∉ d.cph.coresOff) (hq : d.cph.queue = [r]) (hwait : r.core = none)
    (hsrc : bits (r.q 0) 11 10 = 0) :
    cipherStart core d = { d with
      cph.queue := [{ r with core := some core, key := (tget d.cph.slots r.slot).key }] } := by
  have hfree : ¬(8 ≤ core ∨ core ∈ d.cph.coresOff ∨ (d.cph.queue.any fun r => r.core = some core) = true) := by
    simp [hon, hq, hwait, hcore]
  unfold cipherStart
  rw [if_neg hfree]
  simp [hq, hwait, hsrc, sortBy, insertBy]

/-- The core's request ends with what the work on it gives. -/
theorem cipherDone_works {res : CRes} (hq : d.cph.queue = [r]) (hcore : r.core = some core) (hkey : r.key ≠ [])
    (hres : res = cipherWork r.mode r.dec r.key r.iv r.aad r.msg r.tagF r.du) :
    cipherDone core d = cipherFinish r res d := by
  simp [cipherDone, hq, hcore, hkey, hres]

section
variable {tr : Transport} {res : CRes} {c : Running}

/-- A host's request with inline output ends its command with the output when it is OK. -/
theorem cipherHostEnd_ok (hdst : bits (r.q 0) 13 12 = 0) (hrun : d.mbx.run = some c) (hjob : c.job = .cipher)
    (hst : res.status = 0) :
    cipherHostEnd tr r res d = cmdEnd tr c.opcode 0
      (toLe 8 (bits (r.q 0) 47 32 * 65536) ++ toLe 8 res.out.length ++ fitTo 16 res.tag ++ res.out)
      (msOf (d.time - c.startT)) c.lost d := by
  delta cipherHostEnd
  rw [hdst, hst]
  dsimp only
  rw [if_pos rfl, hrun, Nat.zero_add]
  exact if_pos hjob

/-- With a failed tag it ends without output. -/
theorem cipherHostEnd_tagFail (hdst : bits (r.q 0) 13 12 = 0) (hrun : d.mbx.run = some c) (hjob : c.job = .cipher)
    (hst : res.status = 1) :
    cipherHostEnd tr r res d = cmdEnd tr c.opcode 0
      (toLe 8 (1 + bits (r.q 0) 47 32 * 65536) ++ toLe 8 0 ++ fitTo 16 res.tag) (msOf (d.time - c.startT)) c.lost d := by
  delta cipherHostEnd
  rw [hdst, hst]
  dsimp only
  rw [if_pos rfl, hrun]
  refine (if_pos hjob).trans ?_
  exact congrArg (fun out => cmdEnd tr c.opcode 0 out _ c.lost d) (List.append_nil _)

/-- With a fault it ends with Internal Error. -/
theorem cipherHostEnd_fault (hdst : bits (r.q 0) 13 12 = 0) (hrun : d.mbx.run = some c) (hjob : c.job = .cipher)
    (hst : res.status = 6) :
    cipherHostEnd tr r res d = cmdEnd tr c.opcode 0x0004 [] (msOf (d.time - c.startT)) c.lost d := by
  delta cipherHostEnd
  rw [hdst, hst]
  dsimp only
  rw [if_pos rfl, hrun]
  exact if_pos hjob

/-- The one request, a host's, leaves the queue with an ending other than a failed check. -/
theorem cipherFinish_unfailed (hq : d.cph.queue = [r]) (horigin : r.origin = .host tr) (hst : ¬(res.status = 1 ∨ res.status = 2)) :
    cipherFinish r res d = cipherHostEnd tr r res (cphCount (.host tr) res.status { d with cph.queue := [] }) := by
  have herase : d.cph.queue.erase r = [] := by rw [hq, List.erase_cons_head]
  delta cipherFinish
  rw [horigin, herase]
  dsimp only
  rw [if_neg hst]

/-- The one request leaves the queue OK. -/
theorem cipherFinish_ok (hq : d.cph.queue = [r]) (horigin : r.origin = .host tr) (hst : res.status = 0) :
    cipherFinish r res d = cipherHostEnd tr r res { d with cph.queue := [], cph.cnt := bump d.cph.cnt 1 } := by
  rw [cipherFinish_unfailed hq horigin (by omega), hst]
  rfl

/-- The one request leaves the queue with the first failed tag of this second, which is recorded (R334). -/
theorem cipherFinish_tagFail (hq : d.cph.queue = [r]) (horigin : r.origin = .host tr) (hst : res.status = 1)
    (hsec : d.cph.failSec ≠ d.time / 100000000 + 1) :
    cipherFinish r res d = cipherHostEnd tr r res (post 0x7042 1 1 1 r.slot (bits (r.q 0) 47 32) { d with
      cph.queue := [], cph.cnt := bump (bump d.cph.cnt 1) 3, cph.failSec := d.time / 100000000 + 1 }) := by
  have herase : d.cph.queue.erase r = [] := by rw [hq, List.erase_cons_head]
  delta cipherFinish
  rw [horigin, herase, hst]
  dsimp only
  rw [if_pos (.inl rfl)]
  exact congrArg (cipherHostEnd tr r res) (if_pos (decide_eq_true hsec))

/-- The one request leaves the queue with FAULT, and its command ends. -/
theorem cipherFinish_fault (hq : d.cph.queue = [r]) (horigin : r.origin = .host tr) (hdst : bits (r.q 0) 13 12 = 0)
    (hrun : d.mbx.run = some c) (hjob : c.job = .cipher) (hst : res.status = 6) :
    cipherFinish r res d = cmdEnd tr c.opcode 0x0004 [] (msOf (d.time - c.startT)) c.lost
      { d with cph.queue := [], cph.cnt := bump (bump d.cph.cnt 1) 6 } := by
  rw [cipherFinish_unfailed hq horigin (by omega), hst]
  exact cipherHostEnd_fault hdst hrun hjob hst

end

/-- A core that faults leaves the engine, and each request that it worked on ends with FAULT. -/
theorem cipherCoreDisabled_ends {parity : Bool} {l : List CReq} {e : Dev} {q : List Instr} (hcore : core < 8)
    (hon : core ∉ d.cph.coresOff)
    (he : e = post 0x7045 3 core (b2n parity) (7 - d.cph.coresOff.length) 0 { d with cph.coresOff := d.cph.coresOff ++ [core] })
    (hl : d.cph.queue.filter (fun r => r.core = some core || decide (8 ≤ d.cph.coresOff.length + 1)) = l) :
    exec (.cipherCoreDisabled core parity) ⟨d, q⟩ =
      .next ⟨l.foldl (fun d r => cipherFinish r { status := 6 } d) e, q⟩ := by
  have hnot : ¬(8 ≤ core ∨ core ∈ d.cph.coresOff) := by simp [hcore, hon]
  have hleft : 8 - (d.cph.coresOff.length + 1) = 7 - d.cph.coresOff.length := by omega
  subst he hl
  refine run_next q ?_
  rw [if_neg hnot]
  simp [hleft]

end

/-! ### The statements -/

/-- Settles O40: a key's way into a slot is its form's, then the load's; wrapping and clearing by their bodies. -/
theorem cipherKeys : Obligations.CipherKeys := by
  refine ⟨?generate, ?generatePersists, ?plain, ?wrapped, ?unsecured, ?wrap, ?zeroize, ?zeroizeRuns⟩
  case generate =>
    rintro tr _ _ id p d e q ht hl rfl rfl hk ha hst hpersist hid
    exact run_done ht rfl (by simp [len, hl]) (by omega) (by simp [hk, ha])
      ((cphGenerate_empty hst).trans (cphLoad_volatile hpersist hid))
  case generatePersists =>
    rintro tr _ _ id p x d e g q ht hl rfl rfl hk ha hst hpersist hworn hok hid hx hg
    exact run_done ht rfl (by simp [len, hl]) (by omega) (by simp [hk, ha])
      ((cphGenerate_empty hst).trans (cphLoad_persists hpersist hworn hok hid hx hg))
  case plain =>
    rintro tr _ _ id p d e q ht hmin hmax rfl rfl hk ha hform hkek hzero hn hl hst hpersist hsafe hid
    rw [← hn]
    exact run_done ht rfl (by simp [hl, hn]) hmax (by simp [hk, ha, hform, hkek, hzero, hn])
      ((cphImport_plain hst hform hsafe).trans (cphLoad_volatile hpersist hid))
  case wrapped =>
    rintro tr _ _ id s p key kek d e q ht hmin hmax rfl rfl hk ha hform hslot hzero hn hl hst hkek hkey hpersist hid
    exact run_done ht rfl (by simp [hl]) hmax (by simp [hk, ha, hform, hslot, hzero, hn])
      ((cphImport_wrapped hst hform hkek hkey).trans (cphLoad_volatile hpersist hid))
  case unsecured =>
    rintro tr _ _ p d q ht hmin hmax rfl rfl hk ha hform hkek hzero hn hl hst
    exact run_done ht rfl (by simp [hl, hn]) hmax (by simp [hk, ha, hform, hkek, hzero, hn])
      (cphImport_unsecured hst hform)
  case wrap =>
    intro tr p x w d q ht hl hx0 hw0 hx hw hxst hexp hwst hlen
    exact run_done ht rfl (by simp [len, hl]) (by omega) (by simp [hx0, hw0]) (cphWrap_exports hx hw hw0 hxst hexp hwst hlen)
  case zeroize =>
    rintro tr p _ _ d q ht hl rfl hk rfl hp hnone
    exact run_done ht rfl (by simp [len, hl]) (by omega) (by simp [hk])
      (cphZeroize_empties (started := false) hp (by simpa using fun r hr _ => hnone r hr) (by simpa using fun r hr _ => hnone r hr))
  case zeroizeRuns =>
    rintro tr p _ _ r d q ht hl rfl hk rfl hp hq hslot hcore
    have hwork : r.core.isNone = false := by simpa using hcore
    exact run_long ht rfl (by simp [len, hl]) (by omega) (by simp [hk])
      (cphZeroize_empties (started := true) hp (by simp [hq, hwork]) (by simp [hq, hcore, hslot]))

/-- Settles O41: a request enters, is taken by a core, and ends as its work or its core's fault says. -/
theorem cipherRequests : Obligations.CipherRequests := by
  refine ⟨?queued, ?illFormed, ?start, ?ok, ?tagFail, ?disabled, ?fault⟩
  case queued =>
    rintro tr p _ d q ht hmin hmax hm rfl hpre hcores
    exact run_long ht rfl (by simp [hmin]) hmax rfl (cphRequest_queued hm hpre hcores)
  case illFormed =>
    rintro tr p _ d q ht hmin hmax hm rfl hdesc
    exact run_done ht rfl (by simp [hmin]) hmax rfl (cphRequest_illFormed hm hdesc)
  case start =>
    intro core r d q hcore hon hq hwait hsrc
    exact run_next q (cipherStart_takes hcore hon hq hwait hsrc)
  case ok =>
    intro core tr r res c d q hq hcore horigin hkey hdst hrun hjob hres hst
    refine run_next q ((cipherDone_works hq hcore hkey hres).trans ?_)
    rw [cipherFinish_ok hq horigin hst]
    exact cipherHostEnd_ok hdst hrun hjob hst
  case tagFail =>
    intro core tr r res c d q hq hcore horigin hkey hdst hrun hjob hres hst hsec
    refine run_next q ((cipherDone_works hq hcore hkey hres).trans ?_)
    rw [cipherFinish_tagFail hq horigin hst hsec, cipherHostEnd_tagFail hdst (by simpa using hrun) hjob hst, post_time]
  case disabled =>
    intro core parity d q hcore hon hq
    exact cipherCoreDisabled_ends (l := []) hcore hon rfl (by simp [hq])
  case fault =>
    intro core tr r c d e q hcore hon hq hr horigin hdst hrun hjob he
    have hqueue : e.cph.queue = [r] := by simp [he, hq]
    have hmbx : e.mbx.run = some c := by simp [he, hrun]
    have htime : e.time = d.time := by simp [he]
    have hcnt : e.cph.cnt = d.cph.cnt := by simp [he]
    rw [cipherCoreDisabled_ends (l := [r]) hcore hon he (by simp [hq, hr]), List.foldl_cons, List.foldl_nil,
      cipherFinish_fault hqueue horigin hdst hmbx hjob rfl, htime, hcnt]

end Sys2Proof.Machine
end

section
/-! Proof of the statement on the parameter store's host partitions (R356, R363–R366, R369). -/

namespace Sys2Proof.Machine

section
variable {tr : Transport} {p : List Byte} {d : Dev}

/-! ### Reads and passwords (R356, R364, R369) -/

/-- A wrong password is counted, recorded and held. -/
theorem pstRead_wrongPassword (h : pwOk d (byte p 0) 0 ((p.drop 8).take (byte p 6)) = false) :
    pstRead tr p d = pwFail (byte p 0) 0 tr d := by
  delta pstRead pwField
  simp [h]

/-- PST_READ under its password answers the rows' bytes, or Internal Error where one is lost. -/
theorem pstRead_rows {bs : List Byte} {lost : Bool} {e : Dev} (h : pwOk d (byte p 0) 0 ((p.drop 8).take (byte p 6)) = true)
    (hrows : rowsRead (byte p 0) (le p 2 2) (le p 4 2) d = (bs, lost, e)) :
    pstRead tr p d = (if lost then .done rcInternal [] else .done rcOk bs, e) := by
  delta pstRead pwField
  simp only [h, hrows]
  cases lost <;> rfl

/-- PST_SET_PASSWORD stores the digest in the control row of its kind. -/
theorem pstSetPassword_stores {h : BitVec 256} {e : Dev} (hpw : pwOk d (byte p 0) 1 ((p.drop 8).take (byte p 2)) = true)
    (hworn : byte p 0 ∉ d.pst.worn) (hok : supplyOk d = true)
    (hh : h = pwDigest d (byte p 0) (byte p 1) ((p.drop 40).take (byte p 3)))
    (he : e = fwWrite (.host (byte p 0) (1020 + byte p 1) h) d) :
    pstSetPassword tr p d = ret rcOk (if byte p 1 = 0 then { e with pst.rpw := tset e.pst.rpw (byte p 0) (some h) }
      else { e with pst.wpw := tset e.pst.wpw (byte p 0) (some h) }) := by
  subst hh he
  delta pstSetPassword pwField
  simp only [hpw, hworn, hok, Bool.not_true, Bool.false_eq_true, if_false]

/-- A flag of a register word, by its condition. -/
theorem bfld_decide (i : Nat) (c : Prop) [Decidable c] : bfld i (decide c) = if c then 2 ^ i else 0 := by
  by_cases h : c <;> simp [bfld, b2n, h]

/-- The write count of a partition, as PST_GET_INFO shows it: bit 32 its WORN mark, bit 33 a host's partition. -/
theorem pstInfo_eq : pstInfo d = (List.range 16).flatMap fun n =>
    toLe 8 (min (tget d.pst.maxCount n) (2 ^ 32 - 1) + (if n ∈ d.pst.worn then 2 ^ 32 else 0) + (if 12 ≤ n then 2 ^ 33 else 0)) := by
  simp only [pstInfo, sat, bfld_decide]

/-! ### Row writes (R363, R365, R366) -/

/-- PST_WRITE under its password, to a partition that is not WORN, runs over its rows. -/
theorem pstWrite_runs {rows : Nat} (hpw : pwOk d (byte p 0) 1 ((p.drop 8).take (byte p 6)) = true)
    (hworn : byte p 0 ∉ d.pst.worn) (hn : le p 4 2 = 32 * rows) :
    pstWrite tr p d = (.long (.pstWrite (byte p 0) (le p 2 2 / 32) rows (p.drop 40)) 3 rows, d) := by
  have hrows : le p 4 2 / 32 = rows := by omega
  delta pstWrite pwField
  simp only [hpw, hworn, hrows, Bool.not_true, Bool.false_eq_true, if_false]

/-- What the executor asks of PST_WRITE's fields. -/
def writeFields (p : List Byte) : Bool :=
  hostSpan (byte p 0) (le p 2 2) (le p 4 2) && decide (32 ≤ le p 4 2) && decide (le p 4 2 ≤ 1024)
    && decide (le p 4 2 % 32 = 0) && decide (le p 2 2 % 32 = 0) && decide (byte p 6 ≤ 32) && decide (byte p 1 = 0)
    && decide (byte p 7 = 0)

/-- PST_WRITE with no command running: the executor, then the first row. -/
theorem exec_pstWrite_idle {q : List Instr} (h : d.mbx.run = none) : exec (.pstWrite tr p) ⟨d, q⟩ =
    .next ⟨hostRowStart (command 0xC601 mSDTM false (fun n => decide (n = 40 + le p 4 2)) writeFields (pstWrite tr) tr p d), q⟩ :=
  run_next q (if_neg (by simp [h]))

/-- The first row of a PST_WRITE starts while no row is written, its partition is not WORN and the supply holds. -/
theorem hostRowStart_starts {r : Running} {part row n : Nat} {data : List Byte} (hrun : d.mbx.run = some r)
    (hjob : r.job = .pstWrite part row n data) (hidle : d.pst.writing = false) (hworn : part ∉ d.pst.worn)
    (hok : supplyOk d = true) : hostRowStart d = { d with pst.writing := true, pst.hostRow := true } := by
  simp only [hostRowStart, hrun, hjob, hidle, hworn, hok, Bool.false_eq_true, if_false, if_true]

/-- The commit of the last row holds PST_WRITE to its end. -/
theorem hostRowDone_last {r : Running} {part row : Nat} {data : List Byte} {e : Dev} (hrun : d.mbx.run = some r)
    (hjob : r.job = .pstWrite part row (r.done + 1) data)
    (he : e = fwWrite (.host part row (BitVec.ofNat 256 (le data 0 32))) { d with pst.writing := false, pst.hostRow := false }) :
    hostRowDone d = progSet { r with done := r.done + 1, job := .hold rcOk } (msOf (e.time - r.startT))
      { e with mbx.run := some { r with done := r.done + 1, job := .hold rcOk } } := by
  subst he
  delta hostRowDone
  simp only [hrun, hjob, if_true]
  rfl

/-- The commit of a row before the last asks for the next one. -/
theorem hostRowDone_next {r s : Running} {part row n : Nat} {data : List Byte} {e : Dev} (hrun : d.mbx.run = some r)
    (hjob : r.job = .pstWrite part row n data) (hn : r.done + 1 ≠ n)
    (hs : s = { r with done := r.done + 1, job := .pstWrite part (row + 1) n (data.drop 32) })
    (he : e = fwWrite (.host part row (BitVec.ofNat 256 (le data 0 32))) { d with pst.writing := false, pst.hostRow := false }) :
    hostRowDone d = hostRowStart (progSet s (msOf (e.time - r.startT)) { e with mbx.run := some s }) := by
  subst he hs
  delta hostRowDone
  simp only [hrun, hjob, if_neg hn]

/-- A committed row of PST_WRITE is the running command's. -/
theorem rowWriteDone_host (hw : d.pst.writing = true) (hh : d.pst.hostRow = true) : rowWriteDone d = hostRowDone d := by
  delta rowWriteDone
  simp [hw, hh]

/-- A committed row of the node's own, no sector's marker, lets the next one start while no command writes the store. -/
theorem rowWriteDone_node {w : FwWrite} {l : List FwWrite} {e : Dev} (hw : d.pst.writing = true) (hh : d.pst.hostRow = false)
    (hq : d.pst.fwq = w :: l) (hmarker : ∀ s, w ≠ .marker (some s))
    (he : e = fwWrite w { d with pst.fwq := l, pst.writing := false }) (hidle : pstBusy e = false) :
    rowWriteDone d = pstStart e := by
  subst he
  delta rowWriteDone
  rw [if_neg (by simp [hw]), if_neg (by simp [hh]), hq]
  cases w with
  | marker s =>
    cases s with
    | none => exact if_neg (Bool.eq_false_iff.mp hidle)
    | some s => exact absurd rfl (hmarker s)
  | _ => exact if_neg (Bool.eq_false_iff.mp hidle)

end

/-! ### The statement -/

/-- Settles O47: each command passes its checks and its body, or the row's commit, goes the way that its lemma says. -/
theorem parameterStore : Obligations.ParameterStore := by
  refine ⟨?read, ?wrongPassword, ?write, ?lastRow, ?nextRow, ?nodeRow, ?setPassword, ?info⟩
  case read =>
    intro tr p bs lost d e q ht hl h1 h7 h6 hmin hmax hspan hpw hrows
    have hb := pstRead_rows (tr := tr) hpw hrows
    cases lost <;> exact run_done ht rfl (by simp [len, hl]) (by omega) (by simp [h1, h7, h6, hmin, hmax, hspan]) hb
  case wrongPassword =>
    intro tr p d q ht hl h1 h7 h6 hmin hmax hspan hpw
    exact run_long ht rfl (by simp [len, hl]) (by omega) (by simp [h1, h7, h6, hmin, hmax, hspan])
      (pstRead_wrongPassword hpw)
  case write =>
    intro tr p rows d q ht hl h1 h7 h6 hmin hmax hn hoff hspan hpw hworn hidle hok
    obtain ⟨_, hidle', _⟩ := id ht
    have hlen : 32 ≤ le p 4 2 ∧ le p 4 2 ≤ 1024 ∧ le p 4 2 % 32 = 0 := by omega
    have hfields : writeFields p = true := by delta writeFields; simp [h1, h7, h6, hoff, hspan, hlen]
    have hstart := hostRowStart_starts (d := cmdRun tr 0xC601 (.pstWrite (byte p 0) (le p 2 2 / 32) rows (p.drop 40)) 3 rows d)
      rfl rfl hidle hworn hok
    refine ⟨_, rfl, ?_⟩
    rw [exec_pstWrite_idle hidle', command_long ht rfl (by simp [hl, hn]) (by omega) hfields (pstWrite_runs hpw hworn hn), hstart]
  case lastRow =>
    intro part row data r d e q hw hh hrun hjob _ he
    exact run_next q ((rowWriteDone_host hw hh).trans (hostRowDone_last hrun hjob he))
  case nextRow =>
    intro part row n data r s d e q hw hh hrun hjob hn hs he
    exact run_next q ((rowWriteDone_host hw hh).trans (hostRowDone_next hrun hjob hn hs he))
  case nodeRow =>
    intro w l d e q hw hh hq hmarker he hidle
    exact run_next q (rowWriteDone_node hw hh hq hmarker he hidle)
  case setPassword =>
    intro tr p h d e q ht hl hlo hhi hkind hold hmin hmax hzero hpw hworn hok hh he
    exact run_done ht rfl (by simp [len, hl]) (by omega) (by simp [hlo, hhi, hkind, hold, hmin, hmax, hzero])
      (pstSetPassword_stores hpw hworn hok hh he)
  case info =>
    intro tr d q ht
    exact run_done ht rfl rfl (by decide) rfl (congrArg (ans rcOk · d) pstInfo_eq)

end Sys2Proof.Machine
end

section
/-! Proof of the statement on the boot flash (R345, R357, R371–R378, R389). -/

namespace Sys2Proof.Machine

section
variable {d : Dev}

/-! ### Erases (R375, R377, R378) -/

/-- A sector that FW_WP# does not protect is erased as soon as its erase starts. -/
theorem eraseStart_open {s : Nat} (h : d.bfl.wp = false ∨ 784 ≤ s) : eraseStart s d = { d with
    bfl.eraseQ := d.bfl.eraseQ.filter (· ≠ s), bfl.erasing := some s, bfl.suspended := false, bfl.cnt := bump d.bfl.cnt 0 } := by
  have hopen : ¬(d.bfl.wp = true ∧ s < 784) := by
    rintro ⟨hwp, hs⟩
    rcases h with h | h
    · simp [h] at hwp
    · omega
  exact if_neg hopen

/-- A verified erase clears its sector and its marker. -/
theorem eraseDone_verified {s : Nat} (h : d.bfl.erasing = some s) : eraseDone true d =
    flashKick (eraseNext (fwPut (.marker none) (sectorErase s { d with bfl.erasing := none, bfl.suspended := false }))) := by
  delta eraseDone
  simp only [h, if_true]

/-- A failed erase is recorded and runs again. -/
theorem eraseDone_failed {s : Nat} (h : d.bfl.erasing = some s) :
    eraseDone false d = eraseStart s (post 0x9023 2 (s * 65536) 1 0 0 d) := by
  delta eraseDone
  simp only [h, Bool.false_eq_true, if_false]

/-- Without write protection the marker of the first sector that waits is asked for, where none is. -/
theorem eraseNext_asks {s : Nat} {l : List Nat} (hq : d.bfl.eraseQ = s :: l) (hwp : d.bfl.wp = false)
    (hidle : d.bfl.erasing = none) (hasked : FwWrite.marker (some s) ∉ d.pst.fwq) :
    eraseNext d = fwPut (.marker (some s)) d := by
  have hall : (d.bfl.eraseQ.filter fun s => !d.bfl.wp || decide (784 ≤ s)) = d.bfl.eraseQ := by simp [hwp]
  unfold eraseNext
  simp only [hall]
  split
  case h_1 hnil => exact absurd (hq.symm.trans hnil) (by simp)
  case h_2 hcons =>
    obtain ⟨rfl, -⟩ := List.cons.inj (hq.symm.trans hcons)
    exact if_neg (by simp [hidle, hasked])

/-! ### The pages of the log (R389) -/

/-- The place of the write pointer after a page: circular over the log region. -/
def nextPtr (d : Dev) : Nat := if d.bfl.wptr + 256 = 0x4000000 then 0x3100000 else d.bfl.wptr + 256

/-- The write pointer moves on; the page that ends a sector asks for the erase of the sector after. -/
theorem pageNext_eq {w : Nat} {g : Dev} (hw : w = nextPtr d)
    (hg : g = { d with bfl.wptr := w, bfl.page := [], bfl.programming := false }) :
    pageNext d = if w % 65536 = 0 then eraseAsk (nextSector (w / 65536)) g else g := by
  subst hw hg
  rfl

/-- A page of the log that ends: stored, or recorded when it failed, and the pointer moves on. -/
theorem pageDone_log {ok : Bool} {w : Nat} {e g : Dev} (hp : d.bfl.programming = true)
    (he : e = if ok = true then logProgram d.bfl.wptr (d.bfl.page.flatMap Rec.bytes) { d with
        evr.flashQ := d.evr.flashQ.drop d.bfl.page.length
        bfl.cnt := bump d.bfl.cnt 1
        evr.cnt := bump d.evr.cnt 5 d.bfl.page.length } else post 0x9023 2 d.bfl.wptr 0 0 0 d)
    (hw : w = nextPtr d) (hg : g = { e with bfl.wptr := w, bfl.page := [], bfl.programming := false }) :
    pageDone ok d = flashKick (if w % 65536 = 0 then eraseAsk (nextSector (w / 65536)) g else g) := by
  have hptr : nextPtr d = nextPtr e := by
    have hsame : e.bfl.wptr = d.bfl.wptr := by
      rw [he]
      split
      · rfl
      · exact congrArg Bfl.wptr post_bfl
    delta nextPtr
    rw [hsame]
  have hpage : pageDone ok d = flashKick (pageNext e) := by
    subst he
    exact if_neg (by simp [hp])
  rw [hpage, pageNext_eq (hw.trans hptr) hg]

/-! ### Transfer and activation of an image (R345, R373–R375) -/

/-- Slots are 1 and 2: a check of another slot's number or a condition fails on neither count. -/
theorem slot_passes {s : Nat} {c : Prop} (hslot : s = 1 ∨ s = 2) (h : ¬c) : ¬((s ≠ 1 ∧ s ≠ 2) ∨ c) := by
  rintro (⟨h1, h2⟩ | hc)
  · exact hslot.elim h1 h2
  · exact h hc

/-- The first part sets its slot invalid, asks for its sectors' erases and runs. -/
theorem transferFw_first {a b c : Bool} {p : List Byte} {s : Nat} (ha : byte p 0 < 2) (hs : s = byte p 1) (hslot : s = 1 ∨ s = 2)
    (hrun : d.bfl.running ≠ s) (hwp : d.bfl.wp = false) (hoff : le p 4 4 = 0) (hlen : p.length ≤ 4096)
    (hnext : d.mbx.fwNext = none) (hsec : secRefused 0 d = none) :
    transferFw a b c p d = (.long (.fwPart s 0 (decide (byte p 0 = 0)) (p.drop 128) a b c) 2 (p.drop 128).length,
      (sectorsOf (slotBase s) (p.drop 128).length).foldl (fun d s => eraseAsk s d) (fwWrite (.slotState s 2) d)) := by
  subst hs
  have hin : ¬0x1800000 < p.length - 128 := by omega
  have hok : ¬((byte p 1 ≠ 1 ∧ byte p 1 ≠ 2) ∨ byte p 1 = d.bfl.running) := slot_passes hslot hrun.symm
  have hfirst : byte p 0 = 0 ∨ byte p 0 = 1 := by omega
  delta transferFw
  rcases hfirst with h | h <;> rw [h, hsec] <;> dsimp only <;>
    simp [if_neg hok, hwp, hoff, hin, hnext]

/-- A later part in its order goes on with the slot. -/
theorem transferFw_later {a b c : Bool} {p : List Byte} {s off : Nat} (ha : byte p 0 = 2 ∨ byte p 0 = 3) (hs : s = byte p 1)
    (hslot : s = 1 ∨ s = 2) (hrun : d.bfl.running ≠ s) (hwp : d.bfl.wp = false) (hoff : off = le p 4 4 * 128)
    (hlen : off + (p.drop 128).length ≤ 0x1800000) (hnext : d.mbx.fwNext = some (s, off)) (hsec : secRefused 0 d = none) :
    transferFw a b c p d = (.long (.fwPart s off (decide (byte p 0 = 3)) (p.drop 128) a b c) 2 (p.drop 128).length,
      (sectorsOf (slotBase s + off) (p.drop 128).length).foldl (fun d s => eraseAsk s d) d) := by
  subst hs hoff
  have hok : ¬((byte p 1 ≠ 1 ∧ byte p 1 ≠ 2) ∨ byte p 1 = d.bfl.running) := slot_passes hslot hrun.symm
  have hin : ¬0x1800000 < le p 4 4 * 128 + (p.length - 128) := by simpa using hlen
  delta transferFw
  rcases ha with h | h <;> rw [h, hsec] <;> dsimp only <;>
    simp [if_neg hok, hwp, hin, hnext]

/-- Activate FW of a valid slot, its image signed and of no lower security version, makes it preferred and stages it. -/
theorem activateFw_stages {p : List Byte} {e : Dev} (hslot : byte p 1 = 1 ∨ byte p 1 = 2) (hst : slotSt d (byte p 1) = 1)
    (hver : d.pst.nv.minSec ≤ slotSec d (byte p 1)) (hsec : secRefused 0 d = none) (he : e = fwWrite (.preferred (byte p 1)) d) :
    activateFw true p d = (if byte p 0 = 1 then .done rcOk [] else .long (.activate (byte p 1)) 0 0,
      { e with mbx.fwStaged := byte p 1 }) := by
  subst he
  have hok : ¬((byte p 1 ≠ 1 ∧ byte p 1 ≠ 2) ∨ slotSt d (byte p 1) ≠ 1) := slot_passes hslot (not_not.mpr hst)
  unfold activateFw
  simp only [if_neg hok, if_neg (Nat.not_lt.mpr hver), hsec, Bool.not_true, Bool.false_eq_true, if_false]
  split <;> rfl

/-! ### FW_WP# (R375) -/

/-- FW_WP# alone changes where no command runs or it is lifted. -/
theorem fwWp_level {wp : Bool} (h : d.mbx.run = none ∨ wp = false) : fwWp wp d = { d with bfl.wp := wp } := by
  rcases h with h | rfl
  · simp only [fwWp, h]
  · unfold fwWp
    dsimp only
    split
    · split <;> rfl
    · rfl

/-- FW_WP# asserted during a part ends it. -/
theorem fwWp_endsPart {slot off : Nat} {l a b c : Bool} {data : List Byte} {r : Running} (hrun : d.mbx.run = some r)
    (hjob : r.job = .fwPart slot off l data a b c) :
    fwWp true d = cmdEnd r.tr r.opcode rcWp [] (msOf (d.time - r.startT)) r.lost
      (post 0x9020 1 slot 5 0 0 { d with bfl.wp := true, mbx.fwNext := none }) := by
  delta fwWp
  simp only [hrun, hjob, if_true]

/-! ### The log's bytes and the minimum version (R357) -/

/-- READ_FLASH_LOG suspends a running erase, and counts a read of the sector under erase. -/
theorem readFlashLog_bytes {p : List Byte} {a n : Nat} {susp hit : Bool} {c : Cnt} (ha : a = 0x3000000 + le p 0 4)
    (hn : n = le p 4 2) (hsusp : susp = (d.bfl.erasing.isSome && !d.bfl.suspended))
    (hc : c = if susp = true then bump d.bfl.cnt 2 else d.bfl.cnt)
    (hhit : hit = d.bfl.erasing.elim false fun s => decide (a / 65536 ≤ s) && decide (s ≤ (a + n - 1) / 65536)) :
    readFlashLog p d = ans rcOk
      ((List.range n).map fun i => if d.bfl.erasing = some ((a + i) / 65536) then 0xFF else flashByte d (a + i)) { d with
        bfl.suspended := d.bfl.suspended || susp
        bfl.cnt := if hit = true then bump c 3 else c } := by
  subst ha hn hsusp hc hhit
  unfold readFlashLog
  cases d.bfl.erasing <;> rfl

/-- SET_MIN_SECURITY_VERSION raises the minimum within the running image's. -/
theorem setMinSec_raises {p : List Byte} (hlo : d.pst.nv.minSec ≤ le p 0 4) (hhi : le p 0 4 ≤ slotSec d d.bfl.running)
    (hsec : secRefused 0 d = none) : setMinSec p d = ret rcOk (fwWrite (.minSec (le p 0 4)) d) := by
  have hin : ¬(le p 0 4 < d.pst.nv.minSec ∨ slotSec d d.bfl.running < le p 0 4) := by omega
  unfold setMinSec
  simp only [if_neg hin, hsec]

end

/-! ### The statement -/

/-- Settles O48: the flash's events by their equations; each command passes its checks and its body goes as its lemma says. -/
theorem bootFlash : Obligations.BootFlash := by
  refine ⟨?erased, ?eraseFailed, ?page, ?timer, ?retry, ?supply, ?first, ?later, ?stage, ?activate, ?wp, ?wpPart, ?info, ?log, ?minSec⟩
  case erased =>
    intro s d q h
    refine ⟨run_next q (eraseDone_verified h), run_next q ?_⟩
    cases hp : d.bfl.programming <;> simp [h, hp]
  case eraseFailed =>
    intro s d e q h hopen he
    have hbfl : e.bfl = d.bfl := by rw [he, post_bfl]
    refine run_next q ((eraseDone_failed h).trans ?_)
    rw [← he, eraseStart_open (by rw [hbfl]; exact hopen), congrArg Bfl.eraseQ hbfl, congrArg Bfl.cnt hbfl]
  case page =>
    intro ok w d e g q hp he hw hg
    exact run_next q (pageDone_log hp he hw hg)
  case timer =>
    intro d q h
    exact run_next q (if_pos h)
  case retry =>
    intro s l d q hq hwp hidle hasked
    exact run_next q (eraseNext_asks hq hwp hidle hasked)
  case supply =>
    intro mv d q hon
    exact run_next q (if_pos hon)
  case first =>
    intro tr p a b c s d q ht hmin hmax ha hs hslot hrun hwp hoff hz2 hz8 hnext hsec
    exact run_long ht rfl (by simp [hmin, hmax]) hmax (by simp [hz2, hz8]; omega)
      (transferFw_first ha hs hslot hrun hwp hoff hmax hnext hsec)
  case later =>
    intro tr p a b c s off d q ht hmin hmax ha hs hslot hrun hwp hoff hlen hz2 hz8 hnext hsec
    exact run_long ht rfl (by simp [hmin, hmax]) hmax (by simp [hz2, hz8]; omega)
      (transferFw_later ha hs hslot hrun hwp hoff hlen hnext hsec)
  case stage =>
    intro tr p d e q ht hl ha hslot hst hver hsec he
    have hmodes : (if byte p 0 = 0 then mM else mSDTM) = mSDTM := if_neg (by omega)
    have hb := activateFw_stages hslot hst hver hsec he
    rw [if_pos ha] at hb
    exact run_done (hmodes.symm ▸ ht) rfl (by simp [len, hl]) (by omega) (by simp [ha]) hb
  case activate =>
    intro tr p d e q ht hl ha hslot hst hver hsec he
    have hmodes : (if byte p 0 = 0 then mM else mSDTM) = mM := if_pos ha
    have hb := activateFw_stages hslot hst hver hsec he
    rw [if_neg (by omega)] at hb
    exact run_long (hmodes.symm ▸ ht) rfl (by simp [len, hl]) (by omega) (by simp [ha]) hb
  case wp =>
    intro wp d q h
    exact run_next q (fwWp_level h)
  case wpPart =>
    intro slot off l a b c data r d q hrun hjob
    exact run_next q (fwWp_endsPart hrun hjob)
  case info =>
    intro tr d q ht
    exact run_query ht rfl
  case log =>
    intro tr p a n susp hit c d q ht hl ha hn hmin hmax hend hsusp hc hhit
    have hhit' : hit = d.bfl.erasing.elim false fun s => decide (a / 65536 ≤ s) && decide (s ≤ (a + n - 1) / 65536) := by
      rw [hhit]
      cases d.bfl.erasing <;> rfl
    exact run_done ht rfl (by simp [len, hl]) (by omega) (by simp [← hn, hmin, hmax, hend]) (readFlashLog_bytes ha hn hsusp hc hhit')
  case minSec =>
    intro tr p d q ht hl hlo hhi hsec
    exact run_done ht rfl (by simp [len, hl]) (by omega) rfl (setMinSec_raises hlo hhi hsec)

end Sys2Proof.Machine
end

section
/-! Proofs of the statements on monitors, supplies and clocks (R365, R430, R432, R434, R466) and on the energy store
(R440–R442). -/

namespace Sys2Proof.Machine

section
variable {d : Dev}

/-- The node is powered in every mode but Off. -/
theorem powered_of_on (h : d.pwr.mode ≠ .off) : powered d = true := decide_eq_true h

/-- A mode in which firmware runs is powered. -/
theorem powered_of_firmware (h : d.pwr.mode.firmware = true) : powered d = true :=
  powered_of_on fun hoff => by simp [hoff, Mode.firmware] at h

/-! ### Monitors (R432) -/

/-- A monitor that has not failed fails, with its record. -/
theorem monFail_first {rail cause mw : Nat} (h : (tget d.pwr.rails rail).failed = false) :
    monFail rail cause mw d = post 0xB002 2 rail cause mw 0 { d with
      pwr.rails := tmod d.pwr.rails rail fun r => { r with failed := true }
      pwr.pwrCnt := bump d.pwr.pwrCnt 5 } := if_neg (by simp [h])

/-- A monitor of the node's rails that reports its failure fails. -/
theorem exec_monitorFailed_powered {rail cause mw : Nat} (q : List Instr) (hp : d.pwr.mode ≠ .off) (hr : rail < 6) :
    exec (.monitorFailed rail cause mw) ⟨d, q⟩ = .next ⟨monFail rail cause mw d, q⟩ :=
  run_next q (if_pos ⟨powered_of_on hp, hr⟩)

/-- A conversion up to 125 % of its rail's rating joins its step's sum; one above fails the monitor. -/
theorem monitorConversion_powered {rail mw : Nat} (hp : d.pwr.mode ≠ .off) (hr : rail < 6) :
    monitorConversion rail mw d = if 1250 * railRated rail < mw then monFail rail 1 mw d
      else { d with pwr.rails := tmod d.pwr.rails rail fun r => { r with sum := r.sum + mw, n := r.n + 1 } } :=
  if_neg (by simp [powered_of_on hp, hr])

/-! ### Supplies (R434, R466) -/

/-- 12 V of a powered node: in range it clears V12_LOW; below 11.4 V, still above the loss of power, it is recorded. -/
theorem supplyOut_powered {mv : Nat} (hp : d.pwr.mode ≠ .off) (hmv : 10800 ≤ mv) :
    supplyOut mv d = if 11400 ≤ mv then { d with pwr.v12 := mv, pwr.v12Low := false }
      else post 0xB001 2 0 mv 0 0 { d with pwr.v12 := mv, pwr.v12Low := true, pwr.pwrCnt := bump d.pwr.pwrCnt 4 } := by
  simp only [supplyOut, powered_of_on hp, Nat.not_lt.mpr hmv, Bool.not_true, Bool.false_eq_true, if_false]

/-- The voltage that the over-voltage monitor sees: free above 13.2 V. -/
def overMv (d : Dev) : Nat := 13201 + (draw d).1 % 19567

/-- An over-voltage enters Halt unless a dump runs. -/
theorem overvoltage_halts (hp : d.pwr.mode ≠ .off) (hd : d.pwr.dumping = false) : overvoltage d =
    haltEntry 0xB001 false false true (post 0xB001 2 0 (overMv d) 0 0 { (draw d).2 with pwr.v12 := overMv d }) :=
  if_neg (by simp [powered_of_on hp, hd])

/-- The auxiliary voltage that resets the management complex: free below 2.9 V. -/
def auxResetMv (d : Dev) : Nat := (draw d).1 % 2900

/-- An aux reset drops the running command and puts L_auto at its floor. -/
theorem auxReset_powered (hp : d.pwr.mode ≠ .off) : auxReset d = throttlePost d.pwr.lAuto { (draw d).2 with
    pst.auxMv := auxResetMv d, pst.writing := false, pst.hostRow := false, mbx.run := none, mbx.fwNext := none,
    pwr.mgmtReset := true, pwr.lAuto := 60 } :=
  if_neg (by simp [powered_of_on hp])

/-- The aux supply returns to a management complex held in reset: firmware restarts, and its writes go on. -/
theorem auxBack_restarts {mv : Nat} (hreset : d.pwr.mgmtReset = true) (hfw : d.pwr.mode.firmware = true) :
    auxBack mv d = pstStart (post 0xB001 2 1 mv 0 0 { d with pst.auxMv := mv, pwr.mgmtReset := false }) := by
  delta auxBack
  simp only [powered_of_firmware hfw, hreset, hfw, Bool.not_true, Bool.false_eq_true, if_false, if_true]

/-- The aux supply's level changes alone where firmware runs on. -/
theorem auxBack_level {mv : Nat} (hreset : d.pwr.mgmtReset = false) (hp : d.pwr.mode ≠ .off) :
    auxBack mv d = { d with pst.auxMv := mv } := by
  delta auxBack
  simp only [powered_of_on hp, hreset, Bool.not_true, Bool.not_false, Bool.false_eq_true, if_false, if_true]

/-! ### Clocks (R430) -/

/-- A lost clock is recorded once and enters Halt; the crystal's takes the links down first. -/
theorem clockFault_halts {source : Nat} (hoff : d.pwr.mode ≠ .off) (hheld : d.pwr.mode ≠ .held) (hb : d.pwr.backup = false)
    (hd : d.pwr.dumping = false) {e : Dev} (he : e = post 0xB008 4 source 0 0 0 { d with
      pwr.backup := true
      pwr.rootLock := d.pwr.rootLock && decide (source = 0)
      pwr.hostLock := d.pwr.hostLock && !decide (source = 0)
      pwr.ringWLock := d.pwr.ringWLock && !decide (source = 0)
      pwr.ringELock := d.pwr.ringELock && !decide (source = 0) }) :
    clockFault source d = haltEntry 0xB008 false false true (if source = 0 then hostDown 4 e else e) := by
  have hrun : e.pwr.dumping = false := by simp [he, hd]
  subst he
  have hlost : ¬(d.pwr.mode = .off ∨ d.pwr.mode = .held ∨ d.pwr.backup = true) := by simp [hoff, hheld, hb]
  unfold clockFault
  rw [if_neg hlost]
  refine (if_neg (by simp [hd])).trans ?_
  simp only [decide_eq_true_eq]

end

/-! ### Test discharges (R441, R442) -/

section
variable {d : Dev}

/-- A test discharge starts on a charged bank in a mode that lets it run. -/
theorem testStart_starts (htest : d.pwr.testing = 0) (hp : d.pwr.mode ≠ .off) (hok : testModeOk d = true)
    (hbank : 16000 ≤ d.pwr.vbank) : testStart d = { d with
      pwr.testing := 1, pwr.testDue := false, csh.derate := true, csh.pendEm := some (d.csh.pendEm.getD d.csh.em) } := by
  unfold testStart
  rw [if_neg (by simp [htest, hp]), if_pos (by simp [hok, hbank])]

/-- In a mode that does not let it run it stays due. -/
theorem testStart_due (htest : d.pwr.testing = 0) (hp : d.pwr.mode ≠ .off) (hok : testModeOk d = false) :
    testStart d = { d with pwr.testDue := true } := by
  unfold testStart
  rw [if_neg (by simp [htest, hp]), if_neg (by simp [hok])]

/-- The measured energy of a step and a time in range. -/
def measuredEm (stepMv us : Nat) : Nat := (us - 80 * stepMv) / 25

/-- A measurement in range gives C_m, ESR_m and E_m, recorded; too little energy is recorded besides. -/
theorem testMeasured_inRange {mv us em : Nat} (htest : d.pwr.testing = 1) (hmv : mv ≤ 500) (hus : us ≤ 300000)
    (hem : em = measuredEm mv us) : testMeasured mv us d = postIf (decide (dumpable em = 0)) 0xB007 3 em 0 0 0
      (post 0xB005 0 em (us / 300) (10 * mv) (dumpable em) (fwPut (.store (us / 300) (10 * mv) em) { d with
        pwr.testing := 2, pwr.vbank := 15700, pwr.cm := us / 300, pwr.esr := 10 * mv, pwr.em := em, pwr.store := storeOf em
        csh.pendEm := some em })) := by
  subst hem
  unfold testMeasured
  rw [if_neg (by simp [htest]), if_neg (by omega)]
  delta measuredEm
  delta storeSet
  simp only [fwPut_pwr]

/-- A measurement out of range fails the test. -/
theorem testMeasured_outOfRange {mv us : Nat} (htest : d.pwr.testing = 1) (h : 500 < mv ∨ 300000 < us) :
    testMeasured mv us d = testFailed d := by
  unfold testMeasured
  rw [if_neg (by simp [htest]), if_pos h]

/-- A failed test leaves an E_m of 0 and a failed store. -/
theorem testFailed_eq {e : Dev} (he : e = post 0xB007 3 0 1 0 0 { d with pwr.testing := 2 }) :
    testFailed d = fwPut (.store e.pwr.cm e.pwr.esr 0)
      { e with pwr.em := 0, pwr.store := .failed, csh.pendEm := some 0 } := by
  subst he
  rfl

theorem testFailed_em : (testFailed d).pwr.em = 0 := by
  rw [testFailed, storeSet, fwPut_pwr]

/-- The step of a measurement: the test's part, then Unfurl's. -/
theorem exec_testDischargeMeasured_running {mv us : Nat} {e : Dev} (q : List Instr) (htest : d.pwr.testing = 1)
    (he : testMeasured mv us d = e) :
    exec (.testDischargeMeasured mv us) ⟨d, q⟩ = .next ⟨unfurlDone e.pwr.em e, q⟩ :=
  run_next q ((if_pos htest).trans (by rw [he]))

theorem exec_testDischargeTimeout_running (q : List Instr) (htest : d.pwr.testing = 1) :
    exec .testDischargeTimeout ⟨d, q⟩ = .next ⟨unfurlDone 0 (testFailed d), q⟩ :=
  run_next q (if_pos htest)

/-! ### The end of Unfurl (R409, R410) -/

/-- A measurement outside Unfurl ends no Unfurl. -/
theorem unfurlDone_elsewhere {em : Nat} (h : d.pwr.mode ≠ .unfurl) : unfurlDone em d = d := if_pos (.inl h)

/-- In Unfurl, once step 7 is done, it ends Unfurl. -/
theorem unfurlDone_loaded {em : Nat} (hmode : d.pwr.mode = .unfurl) (hloaded : d.pwr.unfurl = .loaded) (hm : d.isM = false) :
    unfurlDone em d = unfurlEnd em (occAfterRecovery d) d := by
  have hvariant : (unfurlEnd em (occAfterRecovery d) d).variant = d.variant := postIf_variant.trans post_variant
  have hkeeps : (unfurlEnd em (occAfterRecovery d) d).isM = false := by rw [Dev.isM, hvariant]; exact hm
  unfold unfurlDone
  rw [if_neg (by simp [hmode, hloaded])]
  simp only [hkeeps, Bool.false_eq_true, if_false]

/-- The boot runs on in Unfurl alone. -/
theorem unfurlRun_elsewhere {b : Boot} (h : d.pwr.mode ≠ .unfurl) : unfurlRun b d = d := if_pos (.inl h)

/-- A charged bank in Service starts the store's first test. -/
theorem bankCharged_service {b : Boot} (hm : d.pwr.mode = .service) : bankCharged b d =
    if d.pwr.store = .charging then testStart { d with pwr.vbank := 16000 } else { d with pwr.vbank := 16000 } := by
  have hboot : unfurlRun b { d with pwr.vbank := 16000 } = { d with pwr.vbank := 16000 } :=
    unfurlRun_elsewhere (by simp [hm])
  unfold bankCharged
  rw [if_neg (by simp [powered, hm]), hboot]
  simp [hm, Mode.firmware]

end

/-! ### The statements -/

/-- Settles O54: each event by its guard and the lemma about its effect. -/
theorem suppliesAndClocks : Obligations.SuppliesAndClocks := by
  refine ⟨?failed, ?joins, ?above, ?low, ?back, ?overvoltage, ?aux, ?auxReset, ?restored, ?level, ?clocks⟩
  case failed =>
    intro rail cause mw d q hp hr hok
    rw [exec_monitorFailed_powered q hp hr, monFail_first hok]
  case joins =>
    intro rail mw d q hp hr hin
    exact run_next q ((monitorConversion_powered hp hr).trans (if_neg (Nat.not_lt.mpr hin)))
  case above =>
    intro rail mw d q hp hr habove _
    rw [exec_monitorFailed_powered q hp hr]
    exact run_next q ((monitorConversion_powered hp hr).trans (if_pos habove))
  case low =>
    intro mv d q hp hmin hmax
    exact run_next q ((supplyOut_powered hp hmin).trans (if_neg (Nat.not_le.mpr hmax)))
  case back =>
    intro mv d q hp hmin
    exact run_next q ((supplyOut_powered hp (by omega)).trans (if_pos hmin))
  case overvoltage =>
    intro d q hp hd
    exact ⟨overMv d, by delta overMv; omega, run_next q (overvoltage_halts hp hd)⟩
  case aux =>
    intro mv d q hp
    exact run_next q (if_pos (powered_of_on hp))
  case auxReset =>
    intro d q hp
    exact ⟨auxResetMv d, Nat.mod_lt _ (by decide), run_next q (auxReset_powered hp)⟩
  case restored =>
    intro mv d q hreset hfw
    exact run_next q (auxBack_restarts hreset hfw)
  case level =>
    intro mv d q hreset hp
    exact run_next q (auxBack_level hreset hp)
  case clocks =>
    intro d q hoff hheld hb hd
    refine ⟨run_next q ((clockFault_halts hoff hheld hb hd rfl).trans ?_), run_next q ((clockFault_halts hoff hheld hb hd rfl).trans ?_)⟩
    · simp
    · simp

/-- Settles O57: the test's events by what they do to the store, then by Unfurl's part. -/
theorem energyStore : Obligations.EnergyStore := by
  refine ⟨?start, ?due, ?measured, ?failed, ?elsewhere, ?ends, ?recharged, ?bank, ?command⟩
  case start =>
    intro d q htest hm hd hbank
    exact run_next q (testStart_starts htest (by simp [hm]) (by simp [testModeOk, hm, hd]) hbank)
  case due =>
    intro d q htest hm
    exact run_next q (testStart_due htest (by simp [hm]) (by simp [testModeOk, hm]))
  case measured =>
    intro mv us em d q htest hmv hus hem
    have hmeas := testMeasured_inRange htest hmv hus hem
    rw [exec_testDischargeMeasured_running q htest hmeas]
    simp only [postIf_pwr, post_pwr, fwPut_pwr]
  case failed =>
    intro mv us d e q htest he
    refine ⟨?_, fun hout => ?_⟩
    · rw [exec_testDischargeTimeout_running q htest, testFailed_eq he]
    · rw [exec_testDischargeMeasured_running q htest (testMeasured_outOfRange htest hout), testFailed_em,
        exec_testDischargeTimeout_running q htest]
  case elsewhere => exact fun em d hm => unfurlDone_elsewhere hm
  case ends => exact fun em d hm hloaded hM => unfurlDone_loaded hm hloaded hM
  case recharged =>
    intro d q htest
    exact run_next q (if_neg (by simp [htest]))
  case bank =>
    intro b d q hm
    exact run_next q (bankCharged_service hm)
  case command =>
    intro tr d q ht
    exact run_long ht rfl rfl (by decide) rfl rfl

end Sys2Proof.Machine
end

section
/-! What leaves the power state as it was, and what an entry into Halt leaves of the thermal model (R424, R446). -/

namespace Sys2Proof.Machine

/-! ### Operations outside power (R385–R390, R419, R424) -/

/-- A fold of operations that leave the power state leaves it. -/
theorem foldl_pwr {α : Type} {f : Dev → α → Dev} (h : ∀ d x, (f d x).pwr = d.pwr) (l : List α) (d : Dev) :
    (l.foldl f d).pwr = d.pwr :=
  List.foldlRecOn (motive := fun e => e.pwr = d.pwr) l f rfl fun e he x _ => (h e x).trans he

theorem iter_pwr {f : Dev → Dev} (h : ∀ d, (f d).pwr = d.pwr) (n : Nat) : ∀ d, (iter f n d).pwr = d.pwr := by
  induction n with
  | zero => exact fun d => rfl
  | succ n ih => exact fun d => (ih (f d)).trans (h d)

/-- A choice between two devices with the same power state. -/
theorem ite_pwr {p : Pwr} {c : Prop} [Decidable c] {a b : Dev} (ha : a.pwr = p) (hb : b.pwr = p) : (if c then a else b).pwr = p := by
  split <;> assumption

section
variable {d : Dev}

@[simp] theorem logPut_pwr (r : Rec) : (logPut r d).pwr = d.pwr := rfl

@[simp] theorem thaw_pwr : (thaw d).pwr = d.pwr := by
  unfold thaw
  split
  · exact foldl_pwr (f := fun d r => logPut r d) (fun d r => rfl) _ d
  · rfl

@[simp] theorem flashKick_pwr : (flashKick d).pwr = d.pwr := by
  unfold flashKick flashStart
  split
  · split <;> rfl
  · rfl

@[simp] theorem cxlPut_pwr (sev : Nat) (r : Rec) : (cxlPut sev r d).pwr = d.pwr := by
  delta cxlPut
  dsimp only
  cases d.mbx.policy[sev - 1]? with
  | none => rcases sev with _ | _ | _ | _ | _ | _ <;> [rfl; rfl; exact ite_pwr rfl rfl; exact ite_pwr rfl rfl; exact ite_pwr rfl rfl; rfl]
  | some p =>
    have hirq {c : Prop} [Decidable c] {e f g : Dev} (he : e.pwr = d.pwr) (hf : f.pwr = d.pwr) (hg : g.pwr = d.pwr) :
        (if c then (if p % 4 = 1 then e else f) else g).pwr = d.pwr := ite_pwr (ite_pwr he hf) hg
    rcases sev with _ | _ | _ | _ | _ | _ <;> [rfl; rfl; exact hirq rfl rfl rfl; exact hirq rfl rfl rfl; exact hirq rfl rfl rfl; rfl]

/-- A record accepted changes the recorder, the CXL event logs and the flash. -/
@[simp] theorem acceptRec_pwr (p : Post) : (acceptRec p d).pwr = d.pwr := by
  simp only [acceptRec, apply_ite Dev.pwr, flashKick_pwr, cxlPut_pwr, logPut_pwr, ite_self]

@[simp] theorem compatPass_pwr (p : Post) : (compatPass p d).2.pwr = d.pwr := by
  delta compatPass
  cases d.evr.codes.find? (·.1 = p.code) <;> dsimp only <;> split_ifs <;> rfl

@[simp] theorem acceptPost_pwr (p : Post) : (acceptPost p d).pwr = d.pwr := by
  unfold acceptPost
  dsimp only
  split_ifs <;> simp

@[simp] theorem acceptOne_pwr : (acceptOne d).pwr = d.pwr := by
  delta acceptOne
  cases nextPort d with
  | none => rfl
  | some q =>
    dsimp only
    cases d.evr.buf.find? fun p => p.code / 4096 = q with
    | none => rfl
    | some p => exact acceptPost_pwr p

@[simp] theorem acceptAll_pwr : (acceptAll d).pwr = d.pwr := iter_pwr (fun _ => acceptOne_pwr) _ d

@[simp] theorem completion_pwr (tr : Transport) (opcode rc : Nat) (out : List Byte) :
    (completion tr opcode rc out d).pwr = d.pwr := by
  cases tr with
  | primary | secondary => exact ite_pwr rfl rfl
  | _ => rfl

@[simp] theorem cmdEnd_pwr (tr : Transport) (opcode rc : Nat) (out : List Byte) (ms : Nat) (lost : Bool) :
    (cmdEnd tr opcode rc out ms lost d).pwr = d.pwr := by
  unfold cmdEnd
  dsimp only
  split <;> simp

@[simp] theorem cmdAbort_pwr (m : Mode) : (cmdAbort m d).pwr = d.pwr := by
  delta cmdAbort
  cases d.mbx.run with
  | none => rfl
  | some r =>
    refine post_pwr.trans ((cmdEnd_pwr ..).trans ?_)
    cases r.job with
    | fwPart => exact post_pwr
    | _ => rfl

/-! ### Rows that a stop writes (R79, R366, R420) -/

@[simp] theorem fwCommit_pwr (w : FwWrite) : (fwCommit w d).pwr = d.pwr := by
  cases w with
  | slotState s v => exact ite_pwr rfl rfl
  | _ => rfl

@[simp] theorem fwWrite_pwr (w : FwWrite) : (fwWrite w d).pwr = d.pwr := by
  have hcommit : (fwCommit w d).pwr = d.pwr := fwCommit_pwr w
  delta fwWrite
  obtain ⟨i, rot⟩ := w.ident
  exact ite_pwr hcommit (post_pwr.trans hcommit)

@[simp] theorem supplyLow_pwr (part row : Nat) : (supplyLow part row d).pwr = d.pwr := post_pwr

@[simp] theorem fwNow_pwr (w : FwWrite) : (fwNow w d).pwr = d.pwr := by
  delta fwNow
  simp only [apply_ite Dev.pwr, fwWrite_pwr, supplyLow_pwr, draw_pwr, ite_self]

@[simp] theorem sbMod_pwr (k : Nat) (f : Sb → Sb) : (sbMod k f d).pwr = d.pwr := rfl

@[simp] theorem verTake_pwr (n : Nat) : (verTake n d).2.pwr = d.pwr := by
  unfold verTake
  dsimp only
  split
  · exact fwPut_pwr _ _
  · rfl

/-- A page programmed changes the media besides the version counter's part. -/
theorem pageNow_frame (k : Nat) (kind : Kind) (rows : List (Nat × Tab Line)) :
    ∃ m : Med, pageNow k kind rows d = { (verTake rows.length d).2 with med := m } := by
  unfold pageNow
  generalize verTake rows.length d = x
  obtain ⟨v, e⟩ := x
  exact ⟨_, rfl⟩

/-- Media aside, a device that comes of another with the same power state has it too. -/
theorem pwr_of_med {m : Med} {e f : Dev} (h : e = { f with med := m }) (hf : f.pwr = d.pwr) : e.pwr = d.pwr := by
  subst h
  exact hf

@[simp] theorem pageNow_pwr (k : Nat) (kind : Kind) (rows : List (Nat × Tab Line)) : (pageNow k kind rows d).pwr = d.pwr := by
  obtain ⟨m, h⟩ := pageNow_frame (d := d) k kind rows
  exact pwr_of_med h (verTake_pwr _)

@[simp] theorem blogAdd_pwr (type die plane block value : Nat) : (blogAdd type die plane block value d).pwr = d.pwr := rfl

@[simp] theorem blogSb_pwr (type key : Nat) : (blogSb type key d).pwr = d.pwr := by
  unfold blogSb
  exact foldl_pwr (fun e _ => blogAdd_pwr _ _ _ _ _) _ d

@[simp] theorem openLog_pwr (k : Nat) : (openLog k d).pwr = d.pwr := by
  unfold openLog
  split
  · rfl
  · exact (sbMod_pwr _ _).trans (blogSb_pwr _ _)

@[simp] theorem sbOpen_pwr (k : Nat) (kind : Kind) : (sbOpen k kind d).pwr = d.pwr := rfl

@[simp] theorem anchorBlock_next_pwr : (anchorBlock.next d).2.pwr = d.pwr := by
  delta anchorBlock.next
  cases lowestBy (sbCycles d) (((List.range 128).filter fun l => !readOnlyLane d l).filterMap (openPick d)) with
  | none => rfl
  | some k => simp

@[simp] theorem anchorBlock_pwr : (anchorBlock d).2.pwr = d.pwr := by
  delta anchorBlock
  cases d.map.anchorSb with
  | none => exact anchorBlock_next_pwr
  | some k =>
    dsimp only
    split
    · rfl
    · exact anchorBlock_next_pwr

@[simp] theorem anchorPut_pwr (a : Anchor) : (anchorPut a d).pwr = d.pwr := by
  have hblock : (anchorBlock { d with map.anchors := d.map.anchors ++ [(d.map.anchorSeq, a)], map.anchorSeq := d.map.anchorSeq + 1 }).2.pwr
      = d.pwr := anchorBlock_pwr
  delta anchorPut
  dsimp only
  generalize anchorBlock { d with map.anchors := d.map.anchors ++ [(d.map.anchorSeq, a)], map.anchorSeq := d.map.anchorSeq + 1 } = x
    at hblock ⊢
  obtain ⟨k, e⟩ := x
  cases k with
  | none => exact hblock
  | some k => exact (pageNow_pwr ..).trans hblock

@[simp] theorem sporeRows_pwr (v : Save) : (sporeRows v d).pwr = d.pwr := by
  delta sporeRows
  refine foldl_pwr (fun e j => ?_) _ d
  cases ((d.med.sb.filter fun x => x.2.st = .spore).map (·.1))[j]? with
  | none => rfl
  | some k => exact foldl_pwr (fun _ _ => pageNow_pwr _ _ _) _ _

end

/-! ### What a stop leaves of the thermal model (R424, R446) -/

/-- The points of the thermal model and what it says of re-arm are the same. -/
def SameModel (d e : Dev) : Prop := e.pwr.points = d.pwr.points ∧ e.pwr.rearmed = d.pwr.rearmed

theorem SameModel.refl (d : Dev) : SameModel d d := ⟨rfl, rfl⟩

theorem SameModel.trans {d e f : Dev} (h : SameModel d e) (k : SameModel e f) : SameModel d f :=
  ⟨k.1.trans h.1, k.2.trans h.2⟩

theorem SameModel.ite {d a b : Dev} {c : Prop} [Decidable c] (ha : SameModel d a) (hb : SameModel d b) :
    SameModel d (if c then a else b) := by
  split <;> assumption

/-- An operation that leaves the power state leaves the model. -/
theorem SameModel.of_pwr {d e : Dev} (h : e.pwr = d.pwr) : SameModel d e := ⟨by rw [h], by rw [h]⟩

section
variable {d : Dev}

@[simp] theorem hostDown_pwr (cause : Nat) : (hostDown cause d).pwr = d.pwr := postIf_pwr

@[simp] theorem stopAdmission_pwr : (stopAdmission d).pwr = d.pwr := by
  delta stopAdmission
  dsimp only
  apply foldl_pwr
  intro e t
  exact post_pwr

/-- A change of mode leaves the thermal model. -/
theorem enterMode_model (m : Mode) (cause : Nat) : SameModel d (enterMode m cause d) := by
  delta enterMode
  constructor <;> simp

theorem tripStore_model : SameModel d (tripStore d) := by
  delta tripStore
  dsimp only
  cases d.pwr.tripHeld <;> constructor <;> simp

theorem writeSpore_model (complete : Bool) (lost : List (Nat × Nat)) : SameModel d (writeSpore complete lost d) := by
  delta writeSpore
  dsimp only
  cases saveNow lost (acceptAll d) with
  | none => exact .of_pwr acceptAll_pwr
  | some v =>
    have hrows : (if complete then anchorPut .sporeDone (sporeRows v (anchorPut .sporeBegun (acceptAll d)))
        else sporeRows v (anchorPut .sporeBegun (acceptAll d))).pwr = d.pwr := ite_pwr (by simp) (by simp)
    dsimp only
    generalize (if complete then anchorPut .sporeDone (sporeRows v (anchorPut .sporeBegun (acceptAll d)))
      else sporeRows v (anchorPut .sporeBegun (acceptAll d))) = e at hrows ⊢
    exact ⟨by rw [hrows], by rw [hrows]⟩

/-- Viral and the link's end leave the power state. -/
theorem viralDown_pwr (c : Bool) (cause : Nat) :
    (hostDown cause (if c then { emit .viral d with hst.viral := true } else d)).pwr = d.pwr :=
  (hostDown_pwr cause).trans (ite_pwr rfl rfl)

/-- The change of mode with the record before it leaves the thermal model. -/
theorem recordedMode_model (m : Mode) (cause code sev p0 p1 p2 p3 : Nat) :
    SameModel d (enterMode m cause (post code sev p0 p1 p2 p3 d)) :=
  (SameModel.of_pwr post_pwr).trans (enterMode_model m cause)

/-- The power-down that ends an entry into Halt leaves the thermal model. -/
theorem powerDown_model : SameModel d (darken (bypassClose (lanesDump (stopMedia (stopAdmission d))))) := by
  have h : (stopAdmission d).pwr = d.pwr := stopAdmission_pwr
  generalize stopAdmission d = e at h ⊢
  exact .of_pwr h

/-- The spore of the mode left, and the power-down after it, leave the thermal model. -/
theorem sporeDown_model (complete : Bool) (left : Mode) :
    SameModel d (darken (bypassClose (lanesDump (stopMedia (stopAdmission
      { writeSpore complete [] { d with pwr.mode := left } with
        pwr.mode := .halt, pwr.dumping := false, pwr.stopping := false, pwr.transitLeft := none, pwr.testing := 0 }))))) := by
  have hspore : SameModel { d with pwr.mode := left } (writeSpore complete [] { d with pwr.mode := left }) := writeSpore_model complete []
  generalize writeSpore complete [] { d with pwr.mode := left } = e at hspore ⊢
  exact SameModel.trans hspore powerDown_model

/-- An entry into Halt leaves the thermal model as it stood. -/
theorem haltEntry_model (code : Nat) (trip orderly complete : Bool) : SameModel d (haltEntry code trip orderly complete d) := by
  unfold haltEntry
  split
  case isTrue => exact .refl d
  case isFalse =>
    have hstore : SameModel d (if trip || d.pwr.stopping then tripStore d else fwNow (.life 5) d) := by
      split
      · exact tripStore_model
      · exact .of_pwr (fwNow_pwr _)
    exact (((hstore.trans (.of_pwr (cmdAbort_pwr .halt))).trans (.of_pwr (viralDown_pwr _ 4))).trans
      (recordedMode_model ..)).trans (sporeDown_model ..)

/-- An orderly trip followed up leaves the thermal model. -/
theorem tripFollow_model : SameModel d (tripFollow d) := by
  unfold tripFollow
  split
  · exact haltEntry_model ..
  · exact .refl d

theorem post_model {e : Dev} {code sev p0 p1 p2 p3 : Nat} (h : SameModel d e) : SameModel d (post code sev p0 p1 p2 p3 e) :=
  h.trans (.of_pwr post_pwr)

/-- A trip leaves the thermal model. -/
theorem thermalTrip_model (i : Nat) : SameModel d (thermalTrip i d) := by
  delta thermalTrip
  dsimp only
  refine .ite tripFollow_model (.ite ⟨rfl, rfl⟩ (.ite (.trans ?orderly tripFollow_model) (.trans ?atOnce (haltEntry_model ..))))
  case orderly => constructor <;> dsimp only <;> rw [post_pwr]
  case atOnce => constructor <;> rw [post_pwr]

@[simp] theorem alertEval_pwr : (alertEval d).pwr = d.pwr := by
  unfold alertEval
  dsimp only
  split <;> rfl

end

end Sys2Proof.Machine
end

section
/-! Proofs of the statements on the thermal model, the power limit and their commands (R340, R354, R432–R446, R460): what a step of
the model does, what THM_STATUS shows, and how L_auto moves. -/

namespace Sys2Proof.Machine

/-! ### The step of the model (R432, R444–R446) -/

/-- A step's first part: TIME is aligned, and each rail with conversions takes their mean (R432). -/
def railsTaken (d : Dev) : Dev := { d with
  time := alignUp 100000 d.time
  pwr.rails := tmap d.pwr.rails fun _ r => if r.n = 0 then r else { r with mw := r.sum / r.n, sum := 0, n := 0 } }

/-- A step's second part: the node's power, each point's step, and whether all are below re-arm (R444, R446). -/
def pointsTaken (e : Dev) : Dev := { e with
  pwr.pHist := ((List.range 6).map (railMw e)).sum :: e.pwr.pHist.take 999
  pwr.points := e.pwr.points.zipIdx.map fun (x : ThPoint × Nat) => pointStep e x.2 x.1
  pwr.stepped := true
  pwr.rearmed := (e.pwr.points.zipIdx.map fun (x : ThPoint × Nat) => pointStep e x.2 x.1).zipIdx.all
    fun x => decide (x.1.t < (rearmC x.2 : Int) * 1000000000) }

section
variable {d : Dev}

/-- A step of a powered node by the point that trips: a trip is followed up from Unfurl on (R405). -/
theorem thermalStep_powered {o : Option Nat} (hp : d.pwr.mode ≠ .off) (h : trippedPoint (pointsTaken (railsTaken d)) = o) :
    thermalStep d = alertEval (o.elim (pointsTaken (railsTaken d)) fun i =>
      if d.pwr.mode = .held ∨ d.pwr.mode = .halt then pointsTaken (railsTaken d) else thermalTrip i (pointsTaken (railsTaken d))) := by
  unfold thermalStep
  rw [if_neg (by simp [powered_of_on hp])]
  delta pointsTaken railsTaken at h ⊢
  dsimp only at h ⊢
  rw [h]
  cases o <;> rfl

theorem thermalStep_untripped (hp : d.pwr.mode ≠ .off) (h : trippedPoint (pointsTaken (railsTaken d)) = none) :
    thermalStep d = alertEval (pointsTaken (railsTaken d)) := by
  rw [thermalStep_powered hp h, Option.elim_none]

theorem thermalStep_dark {i : Nat} (hp : d.pwr.mode ≠ .off) (hm : d.pwr.mode = .held ∨ d.pwr.mode = .halt)
    (h : trippedPoint (pointsTaken (railsTaken d)) = some i) :
    thermalStep d = alertEval (pointsTaken (railsTaken d)) := by
  rw [thermalStep_powered hp h, Option.elim_some, if_pos hm]

theorem thermalStep_tripped {i : Nat} (hp : d.pwr.mode ≠ .off) (hm : ¬ (d.pwr.mode = .held ∨ d.pwr.mode = .halt))
    (h : trippedPoint (pointsTaken (railsTaken d)) = some i) :
    thermalStep d = alertEval (thermalTrip i (pointsTaken (railsTaken d))) := by
  rw [thermalStep_powered hp h, Option.elim_some, if_neg hm]

/-- What follows the points in a step leaves the model. -/
theorem thermalStep_model (hp : d.pwr.mode ≠ .off) : SameModel (pointsTaken (railsTaken d)) (thermalStep d) := by
  have halert (e : Dev) : SameModel e (alertEval e) := .of_pwr alertEval_pwr
  cases h : trippedPoint (pointsTaken (railsTaken d)) with
  | none =>
    rw [thermalStep_untripped hp h]
    exact halert _
  | some i =>
    by_cases hm : d.pwr.mode = .held ∨ d.pwr.mode = .halt
    · rw [thermalStep_dark hp hm h]
      exact halert _
    · rw [thermalStep_tripped hp hm h]
      exact (thermalTrip_model i).trans (halert _)

theorem pointsTaken_rearmed : (pointsTaken d).pwr.rearmed = true ↔
    ∀ x ∈ (pointsTaken d).pwr.points.zipIdx, x.1.t < (rearmC x.2 : Int) * 1000000000 :=
  List.all_eq_true.trans (forall₂_congr fun _ _ => decide_eq_true_iff)

/-! ### THM_STATUS (R446, R449) -/

/-- The failed monitors of THM_STATUS lie above its bit 1. -/
theorem failedMonitors_bits (n : Nat) : 4 ∣ (List.range n).foldl
    (fun m k => if (tget d.pwr.rails k).failed then m + 2 ^ (k + 2) else m) 0 := by
  refine List.foldlRecOn (motive := fun m => 4 ∣ m) _ _ (dvd_zero 4) fun m hm k _ => ?_
  split
  · exact dvd_add hm (pow_dvd_pow 2 (Nat.le_add_left 2 k))
  · exact hm

/-- THM_STATUS while its block takes accesses. -/
theorem regRead_thmStatus (hon : blockOn 14 d = true) : regRead d 0xE80008 =
    (bfld 0 (decide (d.pwr.lAuto < 200)) + bfld 1 d.pwr.rearmed
      + (List.range 6).foldl (fun m k => if (tget d.pwr.rails k).failed then m + 2 ^ (k + 2) else m) 0
      + fld 10 8 d.pwr.tripPoint) % 2 ^ 64 := by
  have hlit : lit 14 d = d := if_pos hon
  have hread : regRead d 0xE80008 = (bfld 0 (decide ((lit 14 d).pwr.lAuto < 200)) + bfld 1 (lit 14 d).pwr.rearmed
      + (List.range 6).foldl (fun m k => if (tget (lit 14 d).pwr.rails k).failed then m + 2 ^ (k + 2) else m) 0
      + fld 10 8 (lit 14 d).pwr.tripPoint) % 2 ^ 64 :=
    if_neg fun h => absurd h.2 (by decide)
  rw [hread, hlit]

/-- THM_STATUS_REARMED is bit 1. -/
theorem thmStatus_rearmed (hon : blockOn 14 d = true) : regRead d 0xE80008 / 2 % 2 = 1 ↔ d.pwr.rearmed = true := by
  obtain ⟨f, hf⟩ := failedMonitors_bits (d := d) 6
  rw [regRead_thmStatus hon, hf]
  have hlow (b : Bool) : b2n b < 2 := by cases b <;> decide
  have h0 := hlow (decide (d.pwr.lAuto < 200))
  have h1 := hlow d.pwr.rearmed
  have hset : b2n d.pwr.rearmed = 1 ↔ d.pwr.rearmed = true := by cases d.pwr.rearmed <;> decide
  rw [← hset]
  unfold bfld fld
  omega

/-! ### A trip (R424, R445) -/

/-- What a trip records before the node stops: the record held for partition 1, the counters, and 0xB004. -/
def tripped (i ms : Nat) (p : ThPoint) (d : Dev) : Dev :=
  post 0xB004 4 i (twos 32 (halfDeg p.t)) ms (b2n (decide (200 ≤ ms))) { d with
    pwr.tripHeld := some { point := i, temp := twos 32 (halfDeg p.t), headroom := ms, orderly := decide (200 ≤ ms) }
    pwr.tripPoint := i, pwr.thmCnt := bump (bump d.pwr.thmCnt 0) (if 200 ≤ ms then 1 else 2), pwr.testing := 0, csh.derate := false }

section
variable {i ms : Nat} {p : ThPoint}

/-- A trip with a finite headroom, outside Transit. -/
theorem thermalTrip_recorded (hs : d.pwr.stopping = false) (hd : d.pwr.dumping = false) (hm : d.pwr.mode ≠ .transit)
    (hpoint : d.pwr.points[i]? = some p) (hhead : nodeHeadroom d = some ms) (hms : ms < 2 ^ 32) :
    thermalTrip i d = if 200 ≤ ms
      then tripFollow { tripped i ms p d with pwr.stopping := true, pwr.target := some .halt, pwr.trigT := some d.time }
      else haltEntry 0xB004 true false true (tripped i ms p d) := by
  have hsat : sat 32 ms = ms := min_eq_left (by omega)
  delta tripped
  simp only [thermalTrip, hs, hd, hm, hpoint, hhead, hsat, Option.getD_some, Bool.not_false, Bool.true_and, decide_false,
    Bool.false_and, Bool.and_true, Bool.false_eq_true, if_false, decide_eq_true_eq, post_time]

end

/-! ### The power limit (R436, R437) -/

/-- An evaluation moves L_auto by no more than 8 W, within 60 and 200 W. -/
theorem autoNext_range (hlo : 60 ≤ d.pwr.lAuto) (hhi : d.pwr.lAuto ≤ 200) : 60 ≤ autoNext d ∧ autoNext d ≤ 200 ∧
    (d.pwr.mgmtReset = false → autoNext d ≤ d.pwr.lAuto + 8 ∧ d.pwr.lAuto ≤ autoNext d + 8) := by
  unfold autoNext
  dsimp only
  split
  case isTrue h => exact ⟨le_refl 60, by omega, fun hreset => absurd (h.symm.trans hreset) (by decide)⟩
  case isFalse =>
    split_ifs <;> omega

/-- An evaluation in a mode with firmware, no dump under way. -/
theorem limitEval_runs {busy : Nat} (hfw : d.pwr.mode.firmware = true) (hd : d.pwr.dumping = false) :
    limitEval busy d = limitApply busy (throttlePost d.pwr.lAuto { d with
      time := alignUp 10000000 d.time
      pwr.lAuto := autoNext d
      pwr.lHost := if d.pwr.mode = .capped then d.pwr.lHostPend else 200
      pwr.lEff := min (if d.pwr.mode = .capped then d.pwr.lHostPend else 200) (autoNext d)
      pwr.pwrCnt := if autoNext d < d.pwr.lAuto then bump d.pwr.pwrCnt 1
        else if d.pwr.lAuto < autoNext d then bump d.pwr.pwrCnt 2 else d.pwr.pwrCnt }) :=
  if_neg (by simp [hfw, hd])

end

/-! ### The statements -/

/-- Settles O56, by what a trip and its entry into Halt leave of the thermal model. -/
theorem modelBelowRearm : Obligations.ModelBelowRearm := by
  unfold Obligations.ModelBelowRearm
  refine ⟨?step, ?monitor, ?point, ?clear⟩
  case step =>
    intro d q hp
    obtain ⟨hpoints, hrearmed⟩ := thermalStep_model hp
    refine ⟨thermalStep d, rfl, ?_, thmStatus_rearmed⟩
    rw [hpoints, hrearmed]
    exact pointsTaken_rearmed
  case monitor => exact fun d i h => if_pos h
  case point => exact fun d i p => rfl
  case clear =>
    intro tr d q ht
    cases h : d.pwr.rearmed
    · exact run_done ht rfl rfl (by decide) rfl (if_neg (by simp [h]))
    · exact run_done ht rfl rfl (by decide) rfl (if_pos h)

/-- Settles O55, by the equation of each operation it names. -/
theorem thermalAndPower : Obligations.ThermalAndPower := by
  unfold Obligations.ThermalAndPower
  refine ⟨?untripped, ?tripped, ?trip, ?evaluation, ?range, ?input, ?limit, ?answer, ?hours, ?spdm, ?address⟩
  case untripped =>
    intro d e q hp he htrip
    subst he
    exact run_next q (thermalStep_untripped hp htrip)
  case tripped =>
    intro i d e q hp hm he htrip
    subst he
    exact run_next q (thermalStep_tripped hp hm htrip)
  case trip =>
    intro i ms p d e hs hd hm hpoint hhead hms he
    subst he
    have htrip := thermalTrip_recorded hs hd hm hpoint hhead hms
    exact ⟨fun h => htrip.trans (if_neg (by omega)), fun h => htrip.trans (if_pos h)⟩
  case evaluation =>
    intro busy new d q hfw hd hm hnew
    subst hnew
    refine run_next q ((limitEval_runs hfw hd).trans ?_)
    rw [if_neg hm]
  case range => exact fun d => autoNext_range
  case input =>
    intro tr p d q ht hl hok
    exact run_done ht rfl (decide_eq_true hl) (by omega) hok rfl
  case limit =>
    intro tr p d q ht hl hlo hhi
    exact run_done ht rfl (decide_eq_true hl) (by omega) (by simp [limitOk, hlo, hhi]) rfl
  case answer => exact fun tr d q ht => run_query ht rfl
  case hours => exact fun d q hon => run_next q (if_pos hon)
  case spdm =>
    intro tr d q hr htr
    exact run_next q (if_pos (by simp [hr, htr]))
  case address =>
    intro da d q hon hda
    refine run_next q ((if_pos hon).trans ?_)
    rw [Nat.mod_eq_of_lt hda]

end Sys2Proof.Machine
end

section
/-! Proofs of the statements on SET_MODE, commands that run on, and the dump (R342, R343, R404–R407, R416–R422). -/

namespace Sys2Proof.Machine

/-! ### The mode a switch point enters (R406, R436) -/

section
variable {d : Dev}

/-- A test discharge that starts or falls due leaves the mode, the mode before it, and the limit asked for. -/
theorem testStart_mode : (testStart d).pwr.mode = d.pwr.mode ∧ (testStart d).pwr.prev = d.pwr.prev ∧
    (testStart d).pwr.lHostPend = d.pwr.lHostPend := by
  unfold testStart
  split_ifs <;> exact ⟨rfl, rfl, rfl⟩

theorem modeEnter_mode (m : Mode) (cause : Nat) : (modeEnter m cause d).pwr.mode = m ∧ (modeEnter m cause d).pwr.prev = d.pwr.mode ∧
    (modeEnter m cause d).pwr.lHostPend = d.pwr.lHostPend := by
  have henter : (enterMode m cause d).pwr.mode = m ∧ (enterMode m cause d).pwr.prev = d.pwr.mode ∧
      (enterMode m cause d).pwr.lHostPend = d.pwr.lHostPend := by simp [enterMode]
  obtain ⟨hmode, hprev, hlimit⟩ := henter
  obtain ⟨tmode, tprev, tlimit⟩ := testStart_mode (d := enterMode m cause d)
  unfold modeEnter testIfDue
  split
  · exact ⟨tmode.trans hmode, tprev.trans hprev, tlimit.trans hlimit⟩
  · exact ⟨hmode, hprev, hlimit⟩

/-- A switch point into Capped enters it with the limit given. -/
theorem modeSwitch_capped_enters (limit : Nat) : ∃ e : Dev, e.pwr.mode = d.pwr.mode ∧ e.pwr.lHostPend = limit ∧
    modeSwitch .capped limit d = admitEval (if (modeEnter .capped 0 e).pwr.prev = .transit then bitmapsRebuild (modeEnter .capped 0 e)
      else modeEnter .capped 0 e) := by
  refine ⟨_, ?mode, ?limit, rfl⟩
  case mode => rfl
  case limit => rfl

/-- The switch point into Capped, from a mode other than Transit. -/
theorem modeSwitch_capped {limit : Nat} (hm : d.pwr.mode ≠ .transit) :
    (modeSwitch .capped limit d).pwr.mode = .capped ∧ (modeSwitch .capped limit d).pwr.lHostPend = limit := by
  obtain ⟨e, hmode, hlimit, hswitch⟩ := modeSwitch_capped_enters (d := d) limit
  obtain ⟨emode, eprev, elimit⟩ := modeEnter_mode (d := e) .capped 0
  rw [hswitch, admitEval_pwr, if_neg (by rw [eprev, hmode]; exact hm)]
  exact ⟨emode, elimit.trans hlimit⟩

/-! ### SET_MODE (R404–R407) -/

theorem ofCode_code (m : Mode) : Mode.ofCode m.code = some m := by cases m <;> rfl

/-- The modes SET_MODE is taken in. -/
theorem setMode_modes {tr : Transport} (ht : d.takes mSDTM tr) : 5 ≤ d.pwr.mode.code ∧ d.pwr.mode.code ≤ 10 := by
  obtain ⟨-, -, hmode⟩ := ht
  delta modeOk at hmode
  cases hm : d.pwr.mode <;> rw [hm] at hmode
  case service | capped | quiet | dormant | transit | maintenance => exact ⟨by decide, by decide⟩
  case off | held | unfurl | splice | recovery | halt => exact absurd hmode Bool.false_ne_true

/-- The modes a host may name. -/
theorem ofCode_hostMode {n : Nat} (hlo : 5 ≤ n) (hhi : n ≤ 10) : ∃ t, Mode.ofCode n = some t ∧ t.code = n := by
  interval_cases n <;> exact ⟨_, rfl, rfl⟩

section
variable {p : List Byte} {t : Mode}

/-- The mode named is the current one, not Capped. -/
theorem setMode_current (hcode : byte p 0 = d.pwr.mode.code) (hcap : d.pwr.mode ≠ .capped) : setMode p d = ret rcOk d := by
  delta setMode
  simp [hcode, ofCode_code, hcap]

/-- Capped is named in Capped: the limit asked for is replaced. -/
theorem setMode_capped_again (hcode : byte p 0 = Mode.capped.code) (hcap : d.pwr.mode = .capped) (hlimit : limitOk (le p 2 2) = true) :
    setMode p d = ret rcOk { d with pwr.lHostPend := le p 2 2 } := by
  delta setMode
  simp [hcode, ofCode_code, hcap, hlimit]

/-- Capped is entered at once. -/
theorem setMode_capped (hcode : byte p 0 = Mode.capped.code) (hm : d.pwr.mode = .service ∨ d.pwr.mode = .quiet)
    (hlimit : limitOk (le p 2 2) = true) (hs : d.pwr.stopping = false) :
    setMode p d = ret rcOk (modeSwitch .capped (le p 2 2) d) := by
  delta setMode
  rcases hm with hm | hm <;> simp [hcode, ofCode_code, hm, hlimit, hs]

/-- Dormant and Maintenance are entered once the old mode's requests have completed. -/
theorem setMode_waits (hcode : byte p 0 = t.code) (ht : t = .dormant ∨ t = .maintenance)
    (hm : d.pwr.mode = .service ∨ d.pwr.mode = .capped ∨ d.pwr.mode = .quiet) (hs : d.pwr.stopping = false) :
    setMode p d = (.long (.mode t) 0 0, { d with pwr.target := some t, pwr.trigT := some d.time }) := by
  delta setMode
  rcases ht with rfl | rfl <;> rcases hm with hm | hm | hm <;> simp [hcode, ofCode_code, hm, hs]

/-- Transit is entered in steps. -/
theorem setMode_transit (hcode : byte p 0 = Mode.transit.code)
    (hm : d.pwr.mode = .service ∨ d.pwr.mode = .capped ∨ d.pwr.mode = .quiet ∨ d.pwr.mode = .maintenance) (hs : d.pwr.stopping = false) :
    setMode p d = (.long (.transit d.pwr.mode 0) 5 1000, { d with pwr.target := some .transit, pwr.trigT := some d.time }) := by
  delta setMode
  rcases hm with hm | hm | hm | hm <;> simp [hcode, ofCode_code, hm, hs]

/-- Another mode is named while an orderly Halt is under way. -/
theorem setMode_stopping (hcode : byte p 0 = t.code) (hother : d.pwr.mode ≠ t) (hlimit : t = .capped → limitOk (le p 2 2) = true)
    (hs : d.pwr.stopping = true) : setMode p d = ret rcBusy d := by
  delta setMode
  simp only [hcode, ofCode_code]
  rw [if_neg, if_neg hother, if_pos hs]
  rintro ⟨hcap, hbad⟩
  simp [hlimit hcap] at hbad

end

section
variable {p : List Byte} {tr : Transport} {q : List Instr}

theorem setMode_fields (h1 : byte p 1 = 0) (hlo : 5 ≤ byte p 0) (hhi : byte p 0 ≤ 10) :
    (decide (5 ≤ byte p 0) && decide (byte p 0 ≤ 10) && byte p 1 = 0) = true := by
  simp [h1, hlo, hhi]

/-- The step of a SET_MODE that the executor takes and ends. -/
theorem exec_setMode_done {rc : Nat} {e : Dev} (ht : d.takes mSDTM tr) (hl : p.length = 4) (h1 : byte p 1 = 0) (hlo : 5 ≤ byte p 0)
    (hhi : byte p 0 ≤ 10) (h : setMode p d = ret rc e) : exec (.setMode tr p) ⟨d, q⟩ = .next ⟨cmdEnd tr 0xC400 rc [] 0 false e, q⟩ :=
  run_done ht rfl (decide_eq_true hl) (by omega) (setMode_fields h1 hlo hhi) h

/-- The step of a SET_MODE that the executor takes and that runs on. -/
theorem exec_setMode_long {j : Job} {unit total : Nat} {e : Dev} (ht : d.takes mSDTM tr) (hl : p.length = 4) (h1 : byte p 1 = 0)
    (hlo : 5 ≤ byte p 0) (hhi : byte p 0 ≤ 10) (h : setMode p d = (.long j unit total, e)) :
    exec (.setMode tr p) ⟨d, q⟩ = .next ⟨cmdRun tr 0xC400 j unit total e, q⟩ :=
  run_long ht rfl (decide_eq_true hl) (by omega) (setMode_fields h1 hlo hhi) h

end

/-! ### The limit in force (R436) -/

@[simp] theorem throttlePost_pwr (old : Nat) : (throttlePost old d).pwr = d.pwr := by
  unfold throttlePost
  dsimp only
  split_ifs <;> simp

/-- The actuators' settings leave the limits. -/
theorem limitApply_limits (busy : Nat) : (limitApply busy d).pwr.lHost = d.pwr.lHost ∧ (limitApply busy d).pwr.lEff = d.pwr.lEff ∧
    (limitApply busy d).pwr.lAuto = d.pwr.lAuto := by
  unfold limitApply
  simp only [postIf_pwr, and_self]

/-! ### Commands that run on (R342, R343, R417) -/

section
variable {r : Running}

/-- The switch point of Transit waits in a first step alone. -/
theorem transitSwitch_elsewhere (hr : d.mbx.run = some r) (hjob : ∀ m, r.job ≠ .transit m 0) : transitSwitch d = d := by
  simp only [transitSwitch, hr]

theorem progressRefresh_works {x : Running} {e : Dev} {units ms : Nat} {ts : Trouble} (hr : d.mbx.run = some r)
    (hjob : ∀ m, r.job ≠ .transit m 0) (hwork : jobWork r units ts d = (x, e)) :
    progressRefresh units ms ts d = progSet x ms { e with mbx.run := some x } := by
  simp only [progressRefresh, transitSwitch_elsewhere hr hjob, hr, hwork]

/-- The running command's work, other than a Transit entry's, has ended or waits. -/
theorem commandComplete_works {ms : Nat} {e : Dev} (hr : d.mbx.run = some r) (hjob : ∀ m n, r.job ≠ .transit m n) :
    (∀ rc out, r.opcode ≠ 0xC601 → r.opcode ≠ 0xC602 → jobEnd r d = (some (rc, out), e) →
      commandComplete ms d = cmdEnd r.tr r.opcode rc out ms r.lost e) ∧
    (jobEnd r d = (none, e) → commandComplete ms d = e) := by
  delta commandComplete
  simp only [transitSwitch_elsewhere hr (hjob · 0), hr]
  split
  case h_1 m n hm => exact absurd hm (hjob m (n + 1))
  case h_2 =>
    refine ⟨fun rc out h1 h2 hend => ?_, fun hend => ?_⟩
    · simp only [hend, h1, h2, or_self, if_false]
    · simp only [hend]

theorem commandComplete_transit {ms n : Nat} {m : Mode} (hr : d.mbx.run = some r) (hjob : r.job = .transit m (n + 1)) :
    commandComplete ms d = if occ d = 0 then transitDone r n ms d else d := by
  have hswitch : transitSwitch d = d := transitSwitch_elsewhere hr fun k hk => by simp [hjob] at hk
  delta commandComplete
  simp only [hswitch, hr, hjob]

theorem transitFailed_returns {m : Mode} {e : Dev} (hr : d.mbx.run = some r) (hleft : d.pwr.transitLeft = some m) (hocc : occ d ≠ 0)
    (he : e = post 0x903A 2 m.code (occ d) (modeSwitch m d.pwr.lHost { d with csh.emptying := false, pwr.transitLeft := none }).stw.free.code 0
      (modeSwitch m d.pwr.lHost { d with csh.emptying := false, pwr.transitLeft := none })) :
    transitFailed d = cmdEnd r.tr r.opcode rcAborted [] (msOf (e.time - r.startT)) r.lost e := by
  simp only [transitFailed, hr, hleft, hocc, if_false, he]

theorem jobWork_scratch {lo hi units : Nat} {ts : Trouble} (hjob : r.job = .scratch lo hi) : jobWork r units ts d =
    ({ r with job := .scratch (min hi (lo + units)) hi, done := min r.total (r.done + (min hi (lo + units) - lo)) },
      scratchZero lo (min hi (lo + units)) (dramGrant 5 ((min hi (lo + units) - lo) / 64) d)) := by
  simp only [jobWork, hjob]

theorem jobEnd_scratch {lo hi : Nat} (hjob : r.job = .scratch lo hi) :
    jobEnd r d = (some (0, []), scratchZero lo hi (dramGrant 5 ((hi - lo) / 64) d)) := by
  simp only [jobEnd, hjob]
  rfl

theorem jobEnd_wrongPassword (hjob : r.job = .hold rcPassword) : jobEnd r d = (some (rcPassword, []), d) := by
  simp [jobEnd, hjob]

end

/-! ### The dump (R419–R422) -/

theorem powerFail_service (hm : d.pwr.mode = .service) (hd : d.pwr.dumping = false) : powerFail d =
    lanesDump (stopMedia (stopAdmission (post 0x9038 3 Mode.service.code (occ d) d.pwr.em 0
      { d with pwr.dumping := true, pwr.trigT := some d.time, pwr.testing := 0, pwr.stopping := false }))) := by
  delta powerFail
  simp only [hm, hd, Bool.false_eq_true, if_false]

theorem powerFail_held (hm : d.pwr.mode = .held) : powerFail d = { d with pwr.dumping := true, pwr.trigT := some d.time } := by
  delta powerFail
  simp only [hm]

theorem dumpDone_service {ok : Bool} {us : Nat} {lost : List (Nat × Nat)} (hm : d.pwr.mode = .service) (hd : d.pwr.dumping = true) :
    ∀ e : Dev, e = writeSpore ok lost d → dumpDone ok us lost d = enterMode .off 1 { bypassClose (hostDown 4
      { e with pwr.spore := e.pwr.spore.map fun s => { s with us } }) with
        pwr.dumping := false, pwr.transitLeft := none, pst.fwq := [], pst.writing := false, pst.hostRow := false } := by
  rintro e rfl
  simp only [dumpDone, hm, hd]
  rfl

end

/-! ### The statements -/

/-- Settles O59, by the equations of SET_MODE and of an evaluation of the power limit. -/
theorem setModeCurrent : Obligations.SetModeCurrent := by
  unfold Obligations.SetModeCurrent
  refine ⟨?current, ?again, ?enter, ?force⟩
  case current =>
    intro tr p d q ht hl h1 hcode hcap
    obtain ⟨hlo, hhi⟩ := setMode_modes ht
    exact exec_setMode_done ht hl h1 (by omega) (by omega) (setMode_current hcode hcap)
  case again =>
    intro tr p d q ht hl h1 hcode hcap hlo hhi
    exact exec_setMode_done ht hl h1 (by rw [hcode]; decide) (by rw [hcode]; decide)
      (setMode_capped_again hcode hcap (by simp [limitOk, hlo, hhi]))
  case enter =>
    intro tr p d q ht hl h1 hcode hm hlo hhi hs
    refine ⟨modeSwitch .capped (le p 2 2) d, ?_, modeSwitch_capped (by rcases hm with hm | hm <;> simp [hm])⟩
    exact exec_setMode_done ht hl h1 (by rw [hcode]; decide) (by rw [hcode]; decide)
      (setMode_capped hcode hm (by simp [limitOk, hlo, hhi]) hs)
  case force =>
    intro busy d q hcap hd
    refine ⟨limitEval busy d, rfl, ?_⟩
    rw [limitEval_runs (by rw [hcap]; rfl) hd]
    obtain ⟨hhost, heff, hauto⟩ := limitApply_limits busy
    rw [hhost, heff, hauto, throttlePost_pwr, if_pos hcap]
    exact ⟨rfl, rfl⟩

/-- Settles O60, by the equations of SET_MODE, of the running command's work, and of the dump. -/
theorem modesAndDump : Obligations.ModesAndDump := by
  unfold Obligations.ModesAndDump
  refine ⟨?waits, ?transit, ?busy, ?failed, ?idle, ?fail, ?failHeld, ?dump, ?progress, ?scratch, ?ends, ?goesOn, ?emptied, ?jobs⟩
  case waits =>
    intro tr p t d q ht hl h1 hcode htarget hm hs
    have hrange : 5 ≤ t.code ∧ t.code ≤ 10 := by rcases htarget with rfl | rfl <;> decide
    obtain ⟨hlo, hhi⟩ := hrange
    exact exec_setMode_long ht hl h1 (by omega) (by omega) (setMode_waits hcode htarget hm hs)
  case transit =>
    intro tr p d q ht hl h1 hcode hm hs
    exact exec_setMode_long ht hl h1 (by rw [hcode]; decide) (by rw [hcode]; decide) (setMode_transit hcode hm hs)
  case busy =>
    intro tr p d q ht hl h1 hlo hhi hother hlimit hs
    obtain ⟨t, -, hcode⟩ := ofCode_hostMode hlo hhi
    refine exec_setMode_done ht hl h1 hlo hhi (setMode_stopping hcode.symm (fun h => ?_) (fun h => ?_) hs)
    · exact hother (by rw [h, hcode])
    · obtain ⟨h60, h200⟩ := hlimit (by rw [← hcode, h]; rfl)
      simp [limitOk, h60, h200]
  case failed =>
    intro r m d e q hr hleft hocc he
    exact run_next q (transitFailed_returns hr hleft hocc he)
  case idle => exact fun d q => rfl
  case fail => exact fun d q hm hd => run_next q (powerFail_service hm hd)
  case failHeld => exact fun d q hm => run_next q (powerFail_held hm)
  case dump => exact fun ok us lost d e q hd hm he => run_next q (dumpDone_service hm hd e he)
  case progress => exact fun units ms ts r x d e q hr hjob hwork => run_next q (progressRefresh_works hr hjob hwork)
  case scratch => exact fun lo hi units ts r d hjob => jobWork_scratch hjob
  case ends => exact fun ms rc out r d e q hr hjob h1 h2 hend => run_next q ((commandComplete_works hr hjob).1 rc out h1 h2 hend)
  case goesOn => exact fun ms r d e q hr hjob hend => run_next q ((commandComplete_works hr hjob).2 hend)
  case emptied => exact fun ms n m r d q hr hjob => run_next q (commandComplete_transit hr hjob)
  case jobs => exact fun lo hi r d => ⟨jobEnd_scratch, jobEnd_wrongPassword⟩

end Sys2Proof.Machine
end
